-- ==== Sys2Proof/Word.lean ====
section
/-! DEFINITION. Word types and their plainest arithmetic (R15, R16): bytes, words, F32 bit patterns. -/

namespace Sys2Proof

/-- One byte of a memory, a record or an image. -/
abbrev Byte := BitVec 8

/-- A 64-bit sequencer register, and the widest register of the BARs. -/
abbrev Word := BitVec 64

/-- A 32-bit sequencer instruction word or an F32 bit pattern (R56). -/
abbrev W32 := BitVec 32

/-- A physical or tenant address of device memory, a scratchpad or weight-store address: a key, so a number. -/
abbrev Addr := Nat

end Sys2Proof
end

