-- ==== Sys2Proof/Syntax.lean ====
section
/-! DEFINITION. The commands of the SWE-24: one constructor for each row of spec/opcode_table.json, with the row's operands.

A sequencer command carries the cluster `c`, the context slot `sl` and the fields of the instruction word that the slot
issues (R154 to R156); fields that the encoding tables mark 0 are operands too (`z`, `z1`, `z10`), since a word that holds 1
bits there is the word the sequencer faults on (R157). An event command carries what the event brings with it. -/

namespace Sys2Proof

/-- What the end of an operation brings: its ticket, and of the data that travelled over the express network for it (a DMAG's or a DMAP's,
the cold pages of an ATT) the words corrected, and the numbers of those hit beyond repair, on the way (R289, R294). -/
structure OpEnd where
  ticket : Nat
  ce : Nat
  ue : List Nat
  deriving DecidableEq, Repr

/-- What the end of a reload brings: the tile, and of its data the words corrected, and the numbers of those hit beyond repair, on the
way (R289, R294). -/
structure TileEnd where
  tile : Nat
  ce : Nat
  ue : List Nat
  deriving DecidableEq, Repr

/-- A transfer that a switch or a station answers: its number, and what the links before have met, as for an arrival: the link of each
word corrected, and link and number of each word hit beyond repair (R289, R299). -/
structure XferEnd where
  id : Nat
  ce : List Nat
  ue : List (Nat × Nat)
  deriving DecidableEq, Repr

/-- The stack whose atomic unit applies its oldest message, and the words of the message's data hit beyond repair on the express
network (R289, R294). -/
structure AtomEnd where
  stack : Nat
  ue : List Nat
  deriving DecidableEq, Repr

/-- The input power that bring-up finds: millivolts, and for how many milliseconds PWR_EN was deasserted before (R495, R549). -/
structure PwrIn where
  mv : Nat
  off : Nat
  deriving DecidableEq, Repr

/-- Failing wires that bring-up finds in an express channel or in a torus link across a die edge, spare wires among them: one end's
die, the other end's or none for the hub, and the failing wires of each direction (R551). -/
structure ChanFind where
  die : Nat
  peer : Option Nat
  out : Nat
  back : Nat
  deriving DecidableEq, Repr

/-- The commands of the block. -/
inductive Instr where
  -- Sequencer, ALU class (R154, R155)
  | add (c sl : Nat) (rd rs1 rs2 : BitVec 5)
  | sub (c sl : Nat) (rd rs1 rs2 : BitVec 5)
  | and (c sl : Nat) (rd rs1 rs2 : BitVec 5)
  | or (c sl : Nat) (rd rs1 rs2 : BitVec 5)
  | xor (c sl : Nat) (rd rs1 rs2 : BitVec 5)
  | sll (c sl : Nat) (rd rs1 rs2 : BitVec 5)
  | srl (c sl : Nat) (rd rs1 rs2 : BitVec 5)
  | sra (c sl : Nat) (rd rs1 rs2 : BitVec 5)
  | slt (c sl : Nat) (rd rs1 rs2 : BitVec 5)
  | sltu (c sl : Nat) (rd rs1 rs2 : BitVec 5)
  | mul (c sl : Nat) (rd rs1 rs2 : BitVec 5)
  | min (c sl : Nat) (rd rs1 rs2 : BitVec 5)
  | max (c sl : Nat) (rd rs1 rs2 : BitVec 5)
  | minu (c sl : Nat) (rd rs1 rs2 : BitVec 5)
  | maxu (c sl : Nat) (rd rs1 rs2 : BitVec 5)
  | addi (c sl : Nat) (rd rs1 : BitVec 5) (imm : BitVec 16)
  | andi (c sl : Nat) (rd rs1 : BitVec 5) (imm : BitVec 16)
  | ori (c sl : Nat) (rd rs1 : BitVec 5) (imm : BitVec 16)
  | xori (c sl : Nat) (rd rs1 : BitVec 5) (imm : BitVec 16)
  | slli (c sl : Nat) (rd rs1 : BitVec 5) (imm : BitVec 16)
  | srli (c sl : Nat) (rd rs1 : BitVec 5) (imm : BitVec 16)
  | srai (c sl : Nat) (rd rs1 : BitVec 5) (imm : BitVec 16)
  | slti (c sl : Nat) (rd rs1 : BitVec 5) (imm : BitVec 16)
  | ldi (c sl : Nat) (rd : BitVec 5) (z : BitVec 3) (q : BitVec 2) (imm : BitVec 16)
  -- Sequencer, branch class
  | beq (c sl : Nat) (rs1 rs2 : BitVec 5) (off : BitVec 16)
  | bne (c sl : Nat) (rs1 rs2 : BitVec 5) (off : BitVec 16)
  | blt (c sl : Nat) (rs1 rs2 : BitVec 5) (off : BitVec 16)
  | bge (c sl : Nat) (rs1 rs2 : BitVec 5) (off : BitVec 16)
  | bltu (c sl : Nat) (rs1 rs2 : BitVec 5) (off : BitVec 16)
  | bgeu (c sl : Nat) (rs1 rs2 : BitVec 5) (off : BitVec 16)
  | jal (c sl : Nat) (rd : BitVec 5) (off : BitVec 21)
  | jalr (c sl : Nat) (rd rs1 : BitVec 5) (imm : BitVec 16)
  | halt (c sl : Nat) (z : BitVec 26)
  | programEnd (c sl : Nat)
  -- Sequencer, loads and stores
  | ld (c sl : Nat) (rd rs1 : BitVec 5) (imm : BitVec 16)
  | lw (c sl : Nat) (rd rs1 : BitVec 5) (imm : BitVec 16)
  | lh (c sl : Nat) (rd rs1 : BitVec 5) (imm : BitVec 16)
  | lb (c sl : Nat) (rd rs1 : BitVec 5) (imm : BitVec 16)
  | sd (c sl : Nat) (rs2 rs1 : BitVec 5) (imm : BitVec 16)
  | sw (c sl : Nat) (rs2 rs1 : BitVec 5) (imm : BitVec 16)
  | sh (c sl : Nat) (rs2 rs1 : BitVec 5) (imm : BitVec 16)
  | sb (c sl : Nat) (rs2 rs1 : BitVec 5) (imm : BitVec 16)
  -- Sequencer, tile descriptors and DMA
  | tdz (c sl : Nat) (td : BitVec 2) (z : BitVec 24)
  | tdw (c sl : Nat) (td w : BitVec 2) (z1 : BitVec 1) (rs1 : BitVec 5) (z10 : BitVec 10) (off : BitVec 6)
  | tdi (c sl : Nat) (td : BitVec 2) (z : BitVec 2) (off : BitVec 6) (imm : BitVec 16)
  | tiss (c sl : Nat) (td : BitVec 2) (z3 : BitVec 3) (rd : BitVec 5) (z16 : BitVec 16)
  | dmag (c sl : Nat) (rd rs1 rs2 rs3 : BitVec 5) (cen : BitVec 1) (ctr : BitVec 5)
  | dmap (c sl : Nat) (rd rs1 rs2 rs3 : BitVec 5) (cen : BitVec 1) (ctr : BitVec 5)
  -- Sequencer, synchronisation
  | waitc (c sl : Nat) (rs1 n : BitVec 5) (z : BitVec 16)
  | waitop (c sl : Nat) (z5 rs1 : BitVec 5) (z16 : BitVec 16)
  | fence (c sl : Nat) (z : BitVec 26)
  | waitcResume (c sl : Nat)
  | waitopResume (c sl : Nat)
  | fenceResume (c sl : Nat)
  | interlockResume (c sl : Nat)
  | issueResume (c sl : Nat)
  | ldstResume (c sl : Nat)
  | srd (c sl : Nat) (rd rs1 n : BitVec 5) (z : BitVec 7)
  | acrd (c sl : Nat) (rd rs1 n : BitVec 5) (z : BitVec 7)
  | acset (c sl : Nat) (rd rs1 n : BitVec 5) (z : BitVec 7)
  | tmark (c sl : Nat) (rd rs1 n : BitVec 5) (z : BitVec 7)
  | yield (c sl : Nat) (rd rs1 n : BitVec 5) (z : BitVec 7)
  | faultRecordWrite (f : Nat)
  -- Tile operations: the operation of slot `sl` with ticket `t`
  | tla (c sl t : Nat)
  | xnp (c sl t : Nat)
  | gate (c sl t : Nat)
  | passAbandon (c sl t : Nat)
  | tileReplay (c sl t : Nat)
  | passComplete (c sl t : Nat)
  | qnt (c sl t : Nat)
  | act (c sl t : Nat)
  | nrm (c sl t : Nat)
  | att (c sl t : Nat)
  | attSuspend (c sl t : Nat)
  | attResume (c sl t : Nat)
  | kva (c sl t : Nat)
  | commit (c sl t : Nat)
  | mov (c sl t : Nat)
  | red (c sl t : Nat)
  | mrg (c sl t : Nat)
  | cmpCompress (c sl t : Nat)
  | cmpExpand (c sl t : Nat)
  | sync (c sl t : Nat)
  | operationComplete (c sl : Nat) (e : OpEnd)
  -- Scratchpad and weight store
  | weightReloadDone (c : Nat) (tile : TileEnd)
  | weightReloadFail (c tile : Nat)
  | gatherWriteback (c word : Nat)
  | partitionFence (c sl : Nat)
  | scrubDone (c : Nat)
  -- Fabric and memory stacks: a transfer by its number, the links of its way on which a word was corrected, and links and words
  -- hit beyond repair
  | transferArrival (id : Nat) (ce : List Nat) (ue : List (Nat × Nat))
  | switchNoreach (id : XferEnd)
  | codewordRead (p : Nat)
  | codewordWrite (p : Nat) (data : List Byte) (poison : Bool)
  | partialWrite (p : Nat) (data : List Byte) (poison : Bool)
  | atomicApply (k : AtomEnd)
  | patrolRead (p : Nat)
  | stackTempRead (k : Nat) (t : Int)
  | stackRetrain (k : Nat)
  | stackRetrainDone (k : Nat) (ok : Bool) (lanes : List (Nat × Bool × Nat))
  | stackFail (k : Nat)
  | releaseScrubDone
  -- KV cache and prefixes
  | kvInval (f c mask : Nat)
  | lookup
  | insert
  | release
  | evict
  | accordLinesFree (c ent : Nat)
  -- Regions
  | rsvCountWrite (v : Nat)
  | shareWrite (c : Nat) (v : Bool)
  | grantWrite (g v : Nat)
  | grantApply
  | clusterLost (c : Nat)
  -- Pridun ports: port `n`; `groups` is the mask of lane groups that work
  | portSignalDetect (n groups : Nat)
  | trainingTimeout (n : Nat)
  | trainingDone (n groups : Nat)
  | trainingRetry (n : Nat)
  | laneLockLoss (n : Nat)
  | fecErrorLimit (n : Nat)
  | signalLoss (n : Nat)
  | portRetrain (n : Nat)
  | portDisable (n : Nat)
  | portEnable (n : Nat)
  | flitReceive (n : Nat) (flit : List Byte)
  | nakReceive (n ack : Nat)
  | replayTimeout (n : Nat)
  | ackTimer (n : Nat)
  | creditReturnTimer (n : Nat)
  | discSend (n : Nat)
  | discReceive (n : Nat) (flit : List Byte)
  | nodeAssign (v : Nat)
  | nodeUnassign
  -- Messages
  | messageSend (id : Nat)
  | reassemblyStart (n : Nat)
  | messageDeliver (snode mtag : Nat)
  | reassemblyTimeout (snode mtag : Nat)
  | eackReceive (dnode aseq epoch status : Nat)
  | messageResend (dnode aseq : Nat)
  | messageLost (dnode aseq : Nat)
  | tsyncRequest (n : Nat)
  | tsyncAnswer (n : Nat)
  | tsyncResponse (n tseq t1 t2 t3 t4 : Nat)
  -- Load path: the head of the load queue, or of the items taken
  | loadLayout
  | loadValidate
  | loadCommit
  | loadWaitEnd
  | loadUnwind
  | unloadLayout
  | unload
  -- Queues and dispatch
  | tailDoorbell (f q tail : Nat)
  | inlineDescriptor (f q : Nat) (desc : List Byte)
  | dispatchTake
  | classBPromotion (f q : Nat)
  | ringFetch (f q : Nat) (err : Bool)
  | queueEnable (f q : Nat)
  | queueDisable (f q : Nat)
  | queueStopped (f q : Nat)
  | nop
  | run
  | runHeldStart
  | pfxLookup
  | seqClose
  | pfxInsert
  | pfxRelease
  | pfxEvict
  | memcpyHostToDevice
  | memcpyDeviceToHost
  | memcpyDeviceToDevice
  | memcpyRemote
  | mailboxWrite
  | cqEnable (f r : Nat)
  | cqDisable (f r : Nat)
  | cqHeadWrite (f r v : Nat)
  | irqModerationEnd (f r : Nat)
  | apertureRead (f a n : Nat)
  | apertureWrite (f a : Nat) (data : List Byte) (poison : Bool)
  | winAssign
  | winRelease
  | qassignWrite (f v : Nat)
  | bmeClear (f : Nat)
  | bmeSet (f : Nat)
  | heartbeatKick (f : Nat)
  | heartbeatExpire (f : Nat)
  | hbexpClear (f : Nat)
  | flr (f : Nat)
  | pfFlr
  | flrDone (f : Nat)
  | hotReset
  | perstDeassert
  | configRequest (f off size : Nat) (w : Option Nat)
  -- Scheduling
  | pipeConfigWrite (f r : Nat) (b : Bool) (v : Nat)
  | splitWindowEnd (c : Nat)
  | contextSwitch (c : Nat)
  | switchDone (c sl : Nat)
  | stormWindowEnd (c : Nat)
  -- Time, trace, Eclipse
  | ftcPeriodEnd
  | syncPulse
  | ftcStep
  | ftcSyncTimeout
  | traceEnable (f c sl v : Nat)
  | traceRingWrite (c : Nat)
  | traceStamp (c sl : Nat)
  | eclArm
  | eclCancel
  | eclResume
  | eclipseStop
  | eclipseStopped
  | eclipseRestart
  | ephEnable (f v : Nat)
  -- Power: voltages in millivolts, powers in watts, energies in microjoules, temperatures in degrees Celsius; `us` is the number of
  -- samples in a row, each of 1 µs, that read the same
  | idlePowerOff (c : Nat)
  | clusterPowerUp (c : Nat)
  | supplySample (mv uj us : Nat)
  | brownoutRelease
  | brownoutTimeout
  | orderlyShutdown
  | sensorRead (clu die : List (Nat × Int)) (hub : Int)
  | clockRestart (c : Nat)
  | fastLimiterSample (w10 : Nat) (ms : List Nat) (low : Bool)
  | budgetDivide (other : Nat) (req : List Nat)
  | stewardLoop (k : Nat) (die : List Nat) (pavg pmax1 : Nat)
  | watchdogFire (k : Nat)
  | stewardRestartDone (k : Nat) (ok : Bool)
  | floorGovernorTick (k w : Nat)
  | emRead (f off size : Nat)
  | emWrite (f off size v : Nat)
  | emWriteApply (k : Nat)
  -- Security
  | fwWrite (f off : Nat) (data : List Byte)
  | fwVerify (f : Nat)
  | svnCommit (f : Nat)
  | keylockSet (f : Nat)
  | keySlotWrite (f off v : Nat)
  | getVersion (f : Nat) (req : List Byte)
  | getCapabilities (f : Nat) (req : List Byte)
  | negotiateAlgorithms (f : Nat) (req : List Byte)
  | getDigests (f : Nat) (req : List Byte)
  | getCertificate (f : Nat) (req : List Byte)
  | challenge (f : Nat) (req : List Byte)
  | getMeasurements (f : Nat) (req : List Byte)
  -- Degradation
  | coreHeartbeatSample (c : Nat) (missed : List Nat)
  | coreLost (c core eng lane : Nat)
  | dieFence (d : Nat)
  | dieFenceCmd (v : Nat)
  | rgnAbort (f v : Nat)
  -- Bring-up and the management bus
  | bringUp (p : PwrIn) (found : List (Nat × Nat × Nat)) (dies : List ChanFind) (stks stw : List Nat)
  | bringUpStop
  | pwrEnDeassert
  | referenceLoss
  | holdoverExit
  | coolantSensorRead (tin tout : Int)
  | entdaa (a : Nat)
  | rstdaa
  | setnewda (a : Nat)
  | getpid
  | getbcr
  | getdcr
  | getstatus
  | enec (mask : Nat)
  | disec (mask : Nat)
  | hotJoin
  | pldmRequest (req : List Byte)
  -- Register accesses: accessing function, BAR0 address, size in bytes, value
  | seedWrite (f c sl v : Nat)
  | seedApply (c sl : Nat)
  | precCtlWrite (f c v : Nat)
  | saveAreaWrite (v : Nat)
  | prioWrite (v : Nat)
  | rcRead (f addr size : Nat)
  | registerWrite (f addr size v : Nat)
  | fwVerifyDone (ok : Bool) (svn : Nat) (dig : List Byte)
  | heartbeatDisable (f : Nat)
  | memcpyComplete (id : Nat) (hostErr : Option Nat)
  deriving DecidableEq, Repr

end Sys2Proof
end

