-- ==== Sys2Proof/Decode.lean ====
section
/-! DEFINITION. Words and commands. The opcode table gives no row bits, so no word spells a command of the block
(decodeTableWord). The sequencer of a cluster decodes 32-bit instruction words of its own (R154 to R156): decodeSeq reads
them, encodeSeq writes them. -/

namespace Sys2Proof

/-- The command that a word spells by the opcode table's bits: the table gives no row any. -/
def decodeTableWord (_nbits _w : Nat) : Option Instr := none

/-! ### Fields of a sequencer word (R154) -/

/-- Bits [31:26]. -/
def fOpc (w : W32) : Nat := (w.extractLsb' 26 6).toNat
/-- Bits [25:21], [20:16], [15:11], [10:6]. -/
def fA (w : W32) : BitVec 5 := w.extractLsb' 21 5
def fB (w : W32) : BitVec 5 := w.extractLsb' 16 5
def fC (w : W32) : BitVec 5 := w.extractLsb' 11 5
def fD (w : W32) : BitVec 5 := w.extractLsb' 6 5
/-- Bits [15:0]. -/
def fImm (w : W32) : BitVec 16 := w.extractLsb' 0 16

/-- The ALU instructions of opcode 0x00 by func (R155); a func from 15 on is reserved. -/
def decodeAlu (c sl : Nat) (w : W32) : Option Instr :=
  match (w.extractLsb' 0 11).toNat with
  | 0 => some (.add c sl (fA w) (fB w) (fC w))
  | 1 => some (.sub c sl (fA w) (fB w) (fC w))
  | 2 => some (.and c sl (fA w) (fB w) (fC w))
  | 3 => some (.or c sl (fA w) (fB w) (fC w))
  | 4 => some (.xor c sl (fA w) (fB w) (fC w))
  | 5 => some (.sll c sl (fA w) (fB w) (fC w))
  | 6 => some (.srl c sl (fA w) (fB w) (fC w))
  | 7 => some (.sra c sl (fA w) (fB w) (fC w))
  | 8 => some (.slt c sl (fA w) (fB w) (fC w))
  | 9 => some (.sltu c sl (fA w) (fB w) (fC w))
  | 10 => some (.mul c sl (fA w) (fB w) (fC w))
  | 11 => some (.min c sl (fA w) (fB w) (fC w))
  | 12 => some (.max c sl (fA w) (fB w) (fC w))
  | 13 => some (.minu c sl (fA w) (fB w) (fC w))
  | 14 => some (.maxu c sl (fA w) (fB w) (fC w))
  | _ => none

/-- The SYS instructions of opcode 0x3F by func (R156); a func from 5 on is reserved. -/
def decodeSys (c sl : Nat) (w : W32) : Option Instr :=
  match (w.extractLsb' 0 4).toNat with
  | 0 => some (.srd c sl (fA w) (fB w) (fC w) (w.extractLsb' 4 7))
  | 1 => some (.acrd c sl (fA w) (fB w) (fC w) (w.extractLsb' 4 7))
  | 2 => some (.acset c sl (fA w) (fB w) (fC w) (w.extractLsb' 4 7))
  | 3 => some (.tmark c sl (fA w) (fB w) (fC w) (w.extractLsb' 4 7))
  | 4 => some (.yield c sl (fA w) (fB w) (fC w) (w.extractLsb' 4 7))
  | _ => none

/-- The instruction that slot `sl` of cluster `c` reads from a word; none for a reserved opcode or func (R154 to R157). -/
def decodeSeq (c sl : Nat) (w : W32) : Option Instr :=
  match fOpc w with
  | 0x00 => decodeAlu c sl w
  | 0x1 => some (.addi c sl (fA w) (fB w) (fImm w))
  | 0x2 => some (.andi c sl (fA w) (fB w) (fImm w))
  | 0x3 => some (.ori c sl (fA w) (fB w) (fImm w))
  | 0x4 => some (.xori c sl (fA w) (fB w) (fImm w))
  | 0x5 => some (.slli c sl (fA w) (fB w) (fImm w))
  | 0x6 => some (.srli c sl (fA w) (fB w) (fImm w))
  | 0x7 => some (.srai c sl (fA w) (fB w) (fImm w))
  | 0x8 => some (.slti c sl (fA w) (fB w) (fImm w))
  | 0x09 => some (.ldi c sl (fA w) (w.extractLsb' 18 3) (w.extractLsb' 16 2) (fImm w))
  | 0x10 => some (.beq c sl (fA w) (fB w) (fImm w))
  | 0x11 => some (.bne c sl (fA w) (fB w) (fImm w))
  | 0x12 => some (.blt c sl (fA w) (fB w) (fImm w))
  | 0x13 => some (.bge c sl (fA w) (fB w) (fImm w))
  | 0x14 => some (.bltu c sl (fA w) (fB w) (fImm w))
  | 0x15 => some (.bgeu c sl (fA w) (fB w) (fImm w))
  | 0x16 => some (.jal c sl (fA w) (w.extractLsb' 0 21))
  | 0x17 => some (.jalr c sl (fA w) (fB w) (fImm w))
  | 0x18 => some (.halt c sl (w.extractLsb' 0 26))
  | 0x20 => some (.ld c sl (fA w) (fB w) (fImm w))
  | 0x21 => some (.lw c sl (fA w) (fB w) (fImm w))
  | 0x22 => some (.lh c sl (fA w) (fB w) (fImm w))
  | 0x23 => some (.lb c sl (fA w) (fB w) (fImm w))
  | 0x24 => some (.sd c sl (fA w) (fB w) (fImm w))
  | 0x25 => some (.sw c sl (fA w) (fB w) (fImm w))
  | 0x26 => some (.sh c sl (fA w) (fB w) (fImm w))
  | 0x27 => some (.sb c sl (fA w) (fB w) (fImm w))
  | 0x30 => some (.tdz c sl (w.extractLsb' 24 2) (w.extractLsb' 0 24))
  | 0x31 =>
    some (.tdw c sl (w.extractLsb' 24 2) (w.extractLsb' 22 2) (w.extractLsb' 21 1) (fB w) (w.extractLsb' 6 10)
      (w.extractLsb' 0 6))
  | 0x32 => some (.tdi c sl (w.extractLsb' 24 2) (w.extractLsb' 22 2) (w.extractLsb' 16 6) (fImm w))
  | 0x33 => some (.tiss c sl (w.extractLsb' 24 2) (w.extractLsb' 21 3) (fB w) (fImm w))
  | 0x38 => some (.dmag c sl (fA w) (fB w) (fC w) (fD w) (w.extractLsb' 5 1) (w.extractLsb' 0 5))
  | 0x39 => some (.dmap c sl (fA w) (fB w) (fC w) (fD w) (w.extractLsb' 5 1) (w.extractLsb' 0 5))
  | 0x3c => some (.waitc c sl (fA w) (fB w) (fImm w))
  | 0x3d => some (.waitop c sl (fA w) (fB w) (fImm w))
  | 0x3e => some (.fence c sl (w.extractLsb' 0 26))
  | 0x3f => decodeSys c sl w
  | _ => none

/-! ### The encoder -/

/-- A word of opcode `o` and its fields. -/
def word (o : BitVec 6) (r : BitVec 26) : W32 := o ++ r

/-- The word of an ALU instruction with three registers (R155). -/
def wordAlu (a b c : BitVec 5) (func : BitVec 11) : W32 := word 0x00 (a ++ b ++ c ++ func)

/-- The word of an instruction with two registers and 16 bits. -/
def wordImm (o : BitVec 6) (a b : BitVec 5) (imm : BitVec 16) : W32 := word o (a ++ b ++ imm)

/-- The word of a SYS instruction (R156). -/
def wordSys (a b n : BitVec 5) (z : BitVec 7) (func : BitVec 4) : W32 := word 0x3F (a ++ b ++ n ++ z ++ func)

/-- The word of a sequencer instruction; other commands have none. -/
def encodeSeq (i : Instr) : Option W32 :=
  match i with
  | .add _ _ rd rs1 rs2 => some (wordAlu rd rs1 rs2 0)
  | .sub _ _ rd rs1 rs2 => some (wordAlu rd rs1 rs2 1)
  | .and _ _ rd rs1 rs2 => some (wordAlu rd rs1 rs2 2)
  | .or _ _ rd rs1 rs2 => some (wordAlu rd rs1 rs2 3)
  | .xor _ _ rd rs1 rs2 => some (wordAlu rd rs1 rs2 4)
  | .sll _ _ rd rs1 rs2 => some (wordAlu rd rs1 rs2 5)
  | .srl _ _ rd rs1 rs2 => some (wordAlu rd rs1 rs2 6)
  | .sra _ _ rd rs1 rs2 => some (wordAlu rd rs1 rs2 7)
  | .slt _ _ rd rs1 rs2 => some (wordAlu rd rs1 rs2 8)
  | .sltu _ _ rd rs1 rs2 => some (wordAlu rd rs1 rs2 9)
  | .mul _ _ rd rs1 rs2 => some (wordAlu rd rs1 rs2 10)
  | .min _ _ rd rs1 rs2 => some (wordAlu rd rs1 rs2 11)
  | .max _ _ rd rs1 rs2 => some (wordAlu rd rs1 rs2 12)
  | .minu _ _ rd rs1 rs2 => some (wordAlu rd rs1 rs2 13)
  | .maxu _ _ rd rs1 rs2 => some (wordAlu rd rs1 rs2 14)
  | .addi _ _ rd rs1 imm => some (wordImm 0x1 rd rs1 imm)
  | .andi _ _ rd rs1 imm => some (wordImm 0x2 rd rs1 imm)
  | .ori _ _ rd rs1 imm => some (wordImm 0x3 rd rs1 imm)
  | .xori _ _ rd rs1 imm => some (wordImm 0x4 rd rs1 imm)
  | .slli _ _ rd rs1 imm => some (wordImm 0x5 rd rs1 imm)
  | .srli _ _ rd rs1 imm => some (wordImm 0x6 rd rs1 imm)
  | .srai _ _ rd rs1 imm => some (wordImm 0x7 rd rs1 imm)
  | .slti _ _ rd rs1 imm => some (wordImm 0x8 rd rs1 imm)
  | .ldi _ _ rd z q imm => some (word 0x09 (rd ++ z ++ q ++ imm))
  | .beq _ _ rs1 rs2 off => some (wordImm 0x10 rs1 rs2 off)
  | .bne _ _ rs1 rs2 off => some (wordImm 0x11 rs1 rs2 off)
  | .blt _ _ rs1 rs2 off => some (wordImm 0x12 rs1 rs2 off)
  | .bge _ _ rs1 rs2 off => some (wordImm 0x13 rs1 rs2 off)
  | .bltu _ _ rs1 rs2 off => some (wordImm 0x14 rs1 rs2 off)
  | .bgeu _ _ rs1 rs2 off => some (wordImm 0x15 rs1 rs2 off)
  | .jal _ _ rd off => some (word 0x16 (rd ++ off))
  | .jalr _ _ rd rs1 imm => some (wordImm 0x17 rd rs1 imm)
  | .halt _ _ z => some (word 0x18 z)
  | .ld _ _ rd rs1 imm => some (wordImm 0x20 rd rs1 imm)
  | .lw _ _ rd rs1 imm => some (wordImm 0x21 rd rs1 imm)
  | .lh _ _ rd rs1 imm => some (wordImm 0x22 rd rs1 imm)
  | .lb _ _ rd rs1 imm => some (wordImm 0x23 rd rs1 imm)
  | .sd _ _ rs2 rs1 imm => some (wordImm 0x24 rs2 rs1 imm)
  | .sw _ _ rs2 rs1 imm => some (wordImm 0x25 rs2 rs1 imm)
  | .sh _ _ rs2 rs1 imm => some (wordImm 0x26 rs2 rs1 imm)
  | .sb _ _ rs2 rs1 imm => some (wordImm 0x27 rs2 rs1 imm)
  | .tdz _ _ td z => some (word 0x30 (td ++ z))
  | .tdw _ _ td w z1 rs1 z10 off => some (word 0x31 (td ++ w ++ z1 ++ rs1 ++ z10 ++ off))
  | .tdi _ _ td z off imm => some (word 0x32 (td ++ z ++ off ++ imm))
  | .tiss _ _ td z3 rd z16 => some (word 0x33 (td ++ z3 ++ rd ++ z16))
  | .dmag _ _ rd rs1 rs2 rs3 cen ctr => some (word 0x38 (rd ++ rs1 ++ rs2 ++ rs3 ++ cen ++ ctr))
  | .dmap _ _ rd rs1 rs2 rs3 cen ctr => some (word 0x39 (rd ++ rs1 ++ rs2 ++ rs3 ++ cen ++ ctr))
  | .waitc _ _ rs1 n z => some (wordImm 0x3c rs1 n z)
  | .waitop _ _ z5 rs1 z16 => some (wordImm 0x3d z5 rs1 z16)
  | .fence _ _ z => some (word 0x3e z)
  | .srd _ _ rd rs1 n z => some (wordSys rd rs1 n z 0)
  | .acrd _ _ rd rs1 n z => some (wordSys rd rs1 n z 1)
  | .acset _ _ rd rs1 n z => some (wordSys rd rs1 n z 2)
  | .tmark _ _ rd rs1 n z => some (wordSys rd rs1 n z 3)
  | .yield _ _ rd rs1 n z => some (wordSys rd rs1 n z 4)
  | _ => none

/-- The cluster and the slot of a sequencer instruction. -/
def seqSlot (i : Instr) : Nat × Nat :=
  match i with
  | .add c sl _ _ _ => (c, sl)
  | .sub c sl _ _ _ => (c, sl)
  | .and c sl _ _ _ => (c, sl)
  | .or c sl _ _ _ => (c, sl)
  | .xor c sl _ _ _ => (c, sl)
  | .sll c sl _ _ _ => (c, sl)
  | .srl c sl _ _ _ => (c, sl)
  | .sra c sl _ _ _ => (c, sl)
  | .slt c sl _ _ _ => (c, sl)
  | .sltu c sl _ _ _ => (c, sl)
  | .mul c sl _ _ _ => (c, sl)
  | .min c sl _ _ _ => (c, sl)
  | .max c sl _ _ _ => (c, sl)
  | .minu c sl _ _ _ => (c, sl)
  | .maxu c sl _ _ _ => (c, sl)
  | .addi c sl _ _ _ => (c, sl)
  | .andi c sl _ _ _ => (c, sl)
  | .ori c sl _ _ _ => (c, sl)
  | .xori c sl _ _ _ => (c, sl)
  | .slli c sl _ _ _ => (c, sl)
  | .srli c sl _ _ _ => (c, sl)
  | .srai c sl _ _ _ => (c, sl)
  | .slti c sl _ _ _ => (c, sl)
  | .beq c sl _ _ _ => (c, sl)
  | .bne c sl _ _ _ => (c, sl)
  | .blt c sl _ _ _ => (c, sl)
  | .bge c sl _ _ _ => (c, sl)
  | .bltu c sl _ _ _ => (c, sl)
  | .bgeu c sl _ _ _ => (c, sl)
  | .ld c sl _ _ _ => (c, sl)
  | .lw c sl _ _ _ => (c, sl)
  | .lh c sl _ _ _ => (c, sl)
  | .lb c sl _ _ _ => (c, sl)
  | .sd c sl _ _ _ => (c, sl)
  | .sw c sl _ _ _ => (c, sl)
  | .sh c sl _ _ _ => (c, sl)
  | .sb c sl _ _ _ => (c, sl)
  | .ldi c sl _ _ _ _ => (c, sl)
  | .jal c sl _ _ => (c, sl)
  | .jalr c sl _ _ _ => (c, sl)
  | .halt c sl _ => (c, sl)
  | .tdz c sl _ _ => (c, sl)
  | .tdw c sl _ _ _ _ _ _ => (c, sl)
  | .tdi c sl _ _ _ _ => (c, sl)
  | .tiss c sl _ _ _ _ => (c, sl)
  | .dmag c sl _ _ _ _ _ _ => (c, sl)
  | .dmap c sl _ _ _ _ _ _ => (c, sl)
  | .waitc c sl _ _ _ => (c, sl)
  | .waitop c sl _ _ _ => (c, sl)
  | .fence c sl _ => (c, sl)
  | .srd c sl _ _ _ _ => (c, sl)
  | .acrd c sl _ _ _ _ => (c, sl)
  | .acset c sl _ _ _ _ => (c, sl)
  | .tmark c sl _ _ _ _ => (c, sl)
  | .yield c sl _ _ _ _ => (c, sl)
  | _ => (0, 0)

end Sys2Proof
end

