-- ==== Sys2Proof/Config.lean ====
section
/-! DEFINITION. What one module fixes for good: geometry (R3 to R6, R24 to R26), fused values, and the FREE VALUES, the
opaque constants that stand where the manual bounds or leaves open a value (no body: no proof can see what they are). -/

namespace Sys2Proof

/-- Clusters of the module (R3, R4). -/
def Config.clusters : Nat := 1536

/-- Dies of the module (R5). -/
def Config.dies : Nat := 24

/-- Memory stacks of the module (R435). -/
def Config.stacks : Nat := 16

/-- Pridun ports of the module (R315). -/
def Config.ports : Nat := 8

/-- PCI Express functions of the module: the physical function and 1,023 virtual functions (R380). -/
def Config.functions : Nat := 1024

/-- FREE VALUE (log entry 10). The place of SiLU within 4 units in the last place of the exactly rounded result (R167),
by the operand; the model limits it to the bound. -/
opaque Config.siluUlp : BitVec 32 → Int

/-- FREE VALUE (log entry 10). The same for GELU in tanh form (R167). -/
opaque Config.geluUlp : BitVec 32 → Int

/-- FREE VALUE (log entry 10). The place of the reciprocal square root within 2 units in the last place (R167). -/
opaque Config.rsqrtUlp : BitVec 32 → Int

/-- FREE VALUE (log entry 13). A count of waiting cycles that the spec lets depend on cycle-by-cycle state which no command
carries (the reload of a weight tile, the fetch of a page), by the State's counter of free values. -/
opaque Config.waitCycles : Nat → Nat

/-- FREE VALUE (log entry 90). Which of the runs of an image that place one weight tile holds a context's bytes (R370, R430), by the
context's place in the image and the tile; the model takes it modulo the number of runs. -/
opaque Config.tileRun : Nat → Nat → Nat

/-- FREE VALUE (log entry 86). The value that a failed lane XORs onto its symbol of a codeword (R450), by codeword and symbol; the
model takes it modulo 65,535, plus 1. -/
opaque Config.laneNoise : Nat → Nat → Nat

/-- FREE VALUE (log entry 67). At which 4 KiB boundary a MEMCPY stops when its host requests stop (R403), and how many of its 32-byte
words have been asked for when an Eclipse stop finds it under way (R479), by the State's counter of free values. -/
opaque Config.copied : Nat → Nat

/-- FREE VALUE (log entry 36). The PCI Express vendor ID, Holtak's assigned value (R379). -/
opaque Config.vendorId : Nat

/-- FREE VALUE (log entry 14). The device identity private key on P-521 that the security block derives from the unique device
secret (R514). -/
opaque Config.deriveKey : List Byte → Nat

/-- FREE VALUE (log entry 14). A signature that the security block makes (R514, R519), by the private key and the digest that it
signs. -/
opaque Config.deviceSign : Nat → List Byte → List Byte

/-- FREE VALUE (log entry 14). The random bytes of an SPDM answer (R519), by the State's counter of free values. -/
opaque Config.nonce : Nat → List Byte

/-- FREE VALUE (log entry 29). Which undamaged words a DMAG that meets an uncorrectable stack error has delivered (R184), by
the State's counter of free values and the word's number. -/
opaque Config.delivered : Nat → Nat → Bool

/-- FREE VALUE (log entry 37). The frequency, in 25 MHz units, that the stewards set for the station of a stopped island
that is not ROUTED (R300), by the State's counter of free values and the cluster; the model limits it to 14 to 56. -/
opaque Config.stationFreq : Nat → Nat → Nat

/-- FREE VALUE (log entry 38). The watts of a steward's excess that one step of an island's frequency covers (R501), by the
State's counter of free values and the cluster. -/
opaque Config.stepPower : Nat → Nat → Nat

/-- FREE VALUE (log entry 39). What a firmware copy that HUB_FW has written into and VERIFY has not passed is: odd where it
verifies (0), its SVN (1), its digest (2) and that of its public key (3) as numbers; by the State's counter of free values. -/
opaque Config.fwCopy : Nat → Nat → Nat

/-- FREE VALUE (log entry 40). The status word of the I3C target (R557), by the State's counter of free values. -/
opaque Config.i3cStatus : Nat → Nat

/-- FREE VALUE (log entry 40). What steward 0 answers to a PLDM request after its header (R559). -/
opaque Config.pldmAnswer : Nat → List Byte → List Byte

/-- FREE VALUE (log entry 41). Parameters of the SPDM responder that R519 does not state: 0 CTExponent, 1 DataTransferSize,
2 MaxSPDMmsgSize. -/
opaque Config.spdmParam : Nat → Nat

/-- FREE VALUE (log entry 41). The measurement indices that belong to the trusted computing base. -/
opaque Config.spdmTcb : Nat → Bool

end Sys2Proof
end

