-- ==== Sys2Proof/Machine/Tab.lean ====
section
/-! DEFINITION. Sparse tables and byte memories as sorted lists: the data that State is made of, and the
bit-field, sign-extension and byte-order helpers that every other file uses (R15, R16). -/

namespace Sys2Proof.Machine

/-! ### Bit fields of numbers -/

/-- Bits `[hi:lo]` of `x`, both ends included (R16). -/
def bits (x hi lo : Nat) : Nat := (x >>> lo) % 2 ^ (hi + 1 - lo)

/-- Bit `i` of `x`. -/
def bit (x i : Nat) : Nat := (x >>> i) % 2

/-- Bit `i` of `x`, as a truth value. -/
def bitB (x i : Nat) : Bool := (x >>> i) % 2 == 1

/-- 1 for true, 0 for false. -/
def b2n (b : Bool) : Nat := if b then 1 else 0

/-- The signed value of the low `w` bits of `x`, two's complement. -/
def signedOf (w x : Nat) : Int :=
  let y := x % 2 ^ w
  if y < 2 ^ (w - 1) then (y : Int) else (y : Int) - (2 ^ w : Nat)

/-- The `w`-bit two's complement code of `x`. -/
def codeOf (w : Nat) (x : Int) : Nat := (x % ((2 ^ w : Nat) : Int)).toNat

/-- `n` divided by `d`, rounded up; 0 when `d` is 0. -/
def ceilDiv (n d : Nat) : Nat := if d = 0 then 0 else (n + d - 1) / d

/-- The number of bits of `n`: 0 for 0, else the place of its highest 1 bit plus one. -/
def bitLen (n : Nat) : Nat := if n = 0 then 0 else n.log2 + 1

/-! ### Sparse tables

A table lists keys in strictly rising order; a key that is not listed reads as the table's default. -/

/-- A sparse table with number keys. -/
abbrev Tab (α : Type) := List (Nat × α)

/-- The value at key `k`, or `d` where the table lists none. -/
def tabGet {α : Type} (d : α) : Tab α → Nat → α
  | [], _ => d
  | (k', v) :: t, k => if k' = k then v else tabGet d t k

/-- The listed value at key `k`. -/
def tabFind {α : Type} : Tab α → Nat → Option α
  | [], _ => none
  | (k', v) :: t, k => if k' = k then some v else tabFind t k

/-- The table with `v` at key `k`. -/
def tabSet {α : Type} : Tab α → Nat → α → Tab α
  | [], k, v => [(k, v)]
  | (k', v') :: t, k, v =>
    if k' = k then (k, v) :: t
    else if k < k' then (k, v) :: (k', v') :: t
    else (k', v') :: tabSet t k v

/-- The table without key `k`. -/
def tabDel {α : Type} (t : Tab α) (k : Nat) : Tab α := t.filter (fun p => p.1 != k)

/-- The table with `v` at `k`, where a value equal to the default `d` is not listed. -/
def tabPut {α : Type} [DecidableEq α] (d : α) (t : Tab α) (k : Nat) (v : α) : Tab α :=
  if v = d then tabDel t k else tabSet t k v

/-- The table without the keys of the range of `n` keys from `lo`. -/
def tabDrop {α : Type} (t : Tab α) (lo n : Nat) : Tab α :=
  t.filter (fun p => !(decide (lo ≤ p.1) && decide (p.1 < lo + n)))

/-- The entries whose keys lie in the range of `n` keys from `lo`. -/
def tabRange {α : Type} (t : Tab α) (lo n : Nat) : Tab α :=
  t.filter (fun p => decide (lo ≤ p.1) && decide (p.1 < lo + n))

/-- A table's keys rise strictly. -/
def tabSorted {α : Type} : Tab α → Bool
  | [] => true
  | [_] => true
  | (a, _) :: (b, w) :: t => decide (a < b) && tabSorted ((b, w) :: t)

/-! ### Byte memories

A memory lists the bytes that are not 0, at strictly rising addresses; an unlisted address reads 0. -/

/-- A byte memory. -/
abbrev Mem := List Host.Cell

/-- What an address that the list does not name reads as (log entry 4). -/
def memDefault : Byte := 0

/-- The byte at `a`. -/
def memGet (m : Mem) (a : Nat) : Byte := tabGet memDefault m a

/-- The memory with `b` at `a`; a byte equal to the unlisted value is not listed. -/
def memSet (m : Mem) (a : Nat) (b : Byte) : Mem := tabPut memDefault m a b

/-- The canonical form: strictly rising addresses, and no entry equal to what an unlisted address reads as. -/
def Memory.wf (m : Mem) : Bool := tabSorted m && m.all (fun p => p.2 != memDefault)

/-- `n` bytes from `a`. -/
def memBytes (m : Mem) (a : Nat) : Nat → List Byte
  | 0 => []
  | n + 1 => memGet m a :: memBytes m (a + 1) n

/-- The memory with the bytes `bs` from `a`. -/
def memPut (m : Mem) (a : Nat) : List Byte → Mem
  | [] => m
  | b :: bs => memPut (memSet m a b) (a + 1) bs

/-- A byte table with the bytes `bs` from `a`; every one is listed. -/
def bytesSet (t : Tab Byte) (a : Nat) : List Byte → Tab Byte
  | [] => t
  | b :: bs => bytesSet (tabSet t a b) (a + 1) bs

/-- `n` bytes from `a` of a byte table. -/
def bytesGet (t : Tab Byte) (a : Nat) : Nat → List Byte
  | 0 => []
  | n + 1 => tabGet 0 t a :: bytesGet t (a + 1) n

/-- The number that a little-endian byte string spells (R15). -/
def leNat : List Byte → Nat
  | [] => 0
  | b :: bs => b.toNat + 256 * leNat bs

/-- The `n` bytes of `v`, least significant first (R15). -/
def leBytes : Nat → Nat → List Byte
  | 0, _ => []
  | n + 1, v => BitVec.ofNat 8 v :: leBytes n (v / 256)

/-- `n` bytes from `a` as one little-endian number. -/
def memNat (m : Mem) (a n : Nat) : Nat := leNat (memBytes m a n)

/-- The memory with the low `n` bytes of `v` from `a`, little-endian. -/
def memPutNat (m : Mem) (a n v : Nat) : Mem := memPut m a (leBytes n v)

/-- The memory with `n` bytes from `a` set to zero. -/
def memZero (m : Mem) (a n : Nat) : Mem := tabDrop m a n

/-- `n` bytes from `a` as one big-endian number (the multi-byte values of keys and signatures). -/
def beNat (bs : List Byte) : Nat := leNat bs.reverse

/-- The `n` bytes of `v`, most significant first. -/
def beBytes (n v : Nat) : List Byte := (leBytes n v).reverse

/-! ### Lists -/

/-- The list with element `i` replaced; unchanged where there is no element `i`. -/
def listSet {α : Type} (l : List α) (i : Nat) (v : α) : List α := l.set i v

/-- Element `i`, or `d`. -/
def nth {α : Type} (d : α) (l : List α) (i : Nat) : α := l.getD i d

/-- The pieces of `n` elements of a list (the last one may be shorter), by fuel. -/
def chunksAux {α : Type} (n : Nat) : Nat → List α → List (List α)
  | 0, _ => []
  | f + 1, l => if l.isEmpty then [] else l.take n :: chunksAux n f (l.drop n)

/-- The pieces of `n` elements of a list. -/
def chunks {α : Type} (n : Nat) (l : List α) : List (List α) := chunksAux n l.length l

/-- A list without later copies of an element. -/
def uniq : List Nat → List Nat
  | [] => []
  | x :: xs => x :: (uniq xs).filter (fun y => y != x)

/-- The sum of a list of numbers. -/
def natSum (l : List Nat) : Nat := l.foldl (· + ·) 0

/-- The largest of a list of numbers, 0 for none. -/
def natMax (l : List Nat) : Nat := l.foldl max 0

/-- The ranges of `n1` from `a1` and `n2` from `a2` share an element. -/
def overlaps (a1 n1 a2 n2 : Nat) : Bool := decide (a1 < a2 + n2) && decide (a2 < a1 + n1)

/-- The range of `n` from `a` lies inside the range of `m` from `b`. -/
def inside (a n b m : Nat) : Bool := decide (b ≤ a) && decide (a + n ≤ b + m)

/-- Insert by a strict order into a sorted list. -/
def insertBy {α : Type} (lt : α → α → Bool) (x : α) : List α → List α
  | [] => [x]
  | y :: ys => if lt x y then x :: y :: ys else y :: insertBy lt x ys

/-- Insertion sort: equal elements keep their order. -/
def sortBy {α : Type} (lt : α → α → Bool) (l : List α) : List α :=
  l.foldl (fun acc x => insertBy lt x acc) []

/-- A list with the first element that meets `p` taken out, and that element. -/
def takeFirst {α : Type} (p : α → Bool) : List α → Option (α × List α)
  | [] => none
  | x :: xs => if p x then some (x, xs) else (takeFirst p xs).map (fun r => (r.1, x :: r.2))

/-- A list with the first element that meets `p` changed. -/
def modFirst {α : Type} (p : α → Bool) (f : α → α) : List α → List α
  | [] => []
  | x :: xs => if p x then f x :: xs else x :: modFirst p f xs

end Sys2Proof.Machine
end

