-- ==== Sys2Proof/Machine/Float.lean ====
section
/-! DEFINITION. F32, BF16 and F8 arithmetic of the vector, attention and satellite units (R55 to R60): exact dyadic
values, rounded once and judged after rounding (R57). A value carries the two events of R59 with it. -/

namespace Sys2Proof.Machine

/-- An F32 value on its way to a written element, with the events its computation met (R59):
`sat` a saturation or an infinite input, `nan` a NaN input or an invalid operation. -/
structure FV where
  b : W32
  sat : Bool
  nan : Bool
  deriving DecidableEq, Repr

/-- A value without events. -/
def fvOf (b : W32) : FV := ⟨b, false, false⟩

/-- +0.0. -/
def fvZero : FV := fvOf 0

/-- What an F32 input is read as (R57): a NaN, or `(-1)^neg * m * 2^e`; `inf` where the input was infinite. -/
structure FNum where
  isNan : Bool
  neg : Bool
  m : Nat
  e : Int
  inf : Bool
  deriving DecidableEq, Repr

/-- The value an F32 pattern is read as: subnormals as zero of the same sign, infinities as the largest finite
value (R56, R57). -/
def f32Read (b : W32) : FNum :=
  let x := b.toNat
  let neg := bitB x 31
  let ex := bits x 30 23
  let mt := bits x 22 0
  if ex = 255 then
    if mt = 0 then ⟨false, neg, 2 ^ 24 - 1, 104, true⟩ else ⟨true, neg, 0, 0, false⟩
  else if ex = 0 then ⟨false, neg, 0, 0, false⟩
  else ⟨false, neg, 2 ^ 23 + mt, (ex : Int) - 150, false⟩

/-- The NaN of R57. -/
def f32NaN : W32 := 0x7FC00000

/-- The largest finite F32 value with sign `neg`. -/
def f32Max (neg : Bool) : W32 := if neg then 0xFF7FFFFF else 0x7F7FFFFF

/-- Zero with sign `neg`. -/
def f32Zero (neg : Bool) : W32 := if neg then 0x80000000 else 0

/-- How a conversion rounds (R58): to nearest even, or stochastically with a 16-bit draw. -/
inductive Rnd where
  | rne
  | stoch (r : Nat)
  deriving DecidableEq, Repr

/-- The magnitude `m` with its low `sh` bits discarded, rounded by R58: a tie goes to the even neighbour; under
stochastic rounding up exactly when the draw lies below the first 16 discarded bits. -/
def roundShift (r : Rnd) (m sh : Nat) : Nat :=
  let q := m >>> sh
  let rem := m % 2 ^ sh
  match r with
  | .rne =>
    if 2 * rem > 2 ^ sh || (2 * rem == 2 ^ sh && q % 2 == 1) then q + 1 else q
  | .stoch d => if d < (rem * 65536) >>> sh then q + 1 else q

/-- The magnitude `m * 2^e` as a multiple of `2^u`, rounded by R58. -/
def roundUnit (r : Rnd) (m : Nat) (e u : Int) : Nat :=
  if u ≤ e then m <<< (e - u).toNat else roundShift r m (u - e).toNat

/-- The magnitude `m * 2^e` rounded to `p` significant bits as though the exponent range were unbounded: the
mantissa (0, or `p` bits) and its exponent (R57). -/
def roundSig (r : Rnd) (p m : Nat) (e : Int) : Nat × Int :=
  if m = 0 then (0, 0)
  else
    let l := bitLen m
    let u : Int := e + l - p
    let q := roundUnit r m e u
    if q = 2 ^ p then (2 ^ (p - 1), u + 1) else (q, u)

/-- `(-1)^neg * m * 2^e` written as F32 (R57): rounded to nearest even, flushed below `2^-126`, limited to the largest
finite value; the flag says that it was limited. -/
def f32Write (neg : Bool) (m : Nat) (e : Int) : W32 × Bool :=
  let (q, u) := roundSig .rne 24 m e
  if q = 0 then (f32Zero neg, false)
  else
    let ex := u + 150
    if ex < 1 then (f32Zero neg, false)
    else if ex > 254 then (f32Max neg, true)
    else (BitVec.ofNat 32 (b2n neg * 2 ^ 31 + ex.toNat * 2 ^ 23 + (q - 2 ^ 23)), false)

/-- An exact value written as F32, with the events `sat` and `nan` it already carries. -/
def fvWrite (neg : Bool) (m : Nat) (e : Int) (sat nan : Bool) : FV :=
  let (b, s) := f32Write neg m e
  ⟨b, sat || s, nan⟩

/-- The result NaN of R57. -/
def fvNaN (sat : Bool) : FV := ⟨f32NaN, sat, true⟩

/-- The signed integer `m * 2^(e - u)` for `u` at most `e`. -/
def scaleInt (neg : Bool) (m : Nat) (e u : Int) : Int :=
  let v : Int := (m <<< (e - u).toNat : Nat)
  if neg then -v else v

/-- F32 addition (R57). -/
def fAdd (x y : FV) : FV :=
  let a := f32Read x.b
  let b := f32Read y.b
  let sat := x.sat || y.sat || a.inf || b.inf
  let nan := x.nan || y.nan
  if a.isNan || b.isNan then fvNaN sat
  else
    let u := min a.e b.e
    let s := scaleInt a.neg a.m a.e u + scaleInt b.neg b.m b.e u
    if s = 0 then ⟨f32Zero (a.neg && b.neg && (a.m == 0) && (b.m == 0)), sat, nan⟩
    else fvWrite (decide (s < 0)) s.natAbs u sat nan

/-- F32 negation: the sign bit changes, no event is met. -/
def fNeg (x : FV) : FV := ⟨x.b ^^^ 0x80000000, x.sat, x.nan⟩

/-- F32 subtraction (R57). -/
def fSub (x y : FV) : FV := fAdd x (fNeg y)

/-- F32 multiplication (R57). -/
def fMul (x y : FV) : FV :=
  let a := f32Read x.b
  let b := f32Read y.b
  let sat := x.sat || y.sat || a.inf || b.inf
  if a.isNan || b.isNan then fvNaN sat
  else fvWrite (a.neg != b.neg) (a.m * b.m) (a.e + b.e) sat (x.nan || y.nan)

/-- F32 division (R57): zero by zero is invalid, a nonzero value by zero gives the largest finite value. -/
def fDiv (x y : FV) : FV :=
  let a := f32Read x.b
  let b := f32Read y.b
  let sat := x.sat || y.sat || a.inf || b.inf
  let neg := a.neg != b.neg
  if a.isNan || b.isNan then fvNaN sat
  else if b.m = 0 then
    if a.m = 0 then fvNaN sat else ⟨f32Max neg, true, x.nan || y.nan⟩
  else
    let n := a.m <<< 64
    let q := 2 * (n / b.m) + (if n % b.m = 0 then 0 else 1)
    fvWrite neg q (a.e - b.e - 65) sat (x.nan || y.nan)

/-- An F32 value times `2^k`: exact, then judged by R57. -/
def fScale (x : FV) (k : Int) : FV :=
  let a := f32Read x.b
  if a.isNan then fvNaN (x.sat || a.inf)
  else fvWrite a.neg a.m (a.e + k) (x.sat || a.inf) x.nan

/-- `F32(s) * 2^k`: one rounding to nearest even, an exact power of two (R52, R55). -/
def fOfInt (s : Int) (k : Int) : FV := fvWrite (decide (s < 0)) s.natAbs k false false

/-- The value of an F32 pattern as a signed integer at unit `2^u`, `u` at most its exponent. -/
def fOrd (a : FNum) (u : Int) : Int := scaleInt a.neg a.m (max a.e u) u

/-- `x < y` for values that are no NaN; false where one is. -/
def fLt (x y : W32) : Bool :=
  let a := f32Read x
  let b := f32Read y
  let u := min a.e b.e
  !a.isNan && !b.isNan && decide (fOrd a u < fOrd b u)

/-- `x ≥ y`; false where one is a NaN. -/
def fGe (x y : W32) : Bool :=
  let a := f32Read x
  let b := f32Read y
  let u := min a.e b.e
  !a.isNan && !b.isNan && decide (fOrd b u ≤ fOrd a u)

/-- The larger of two values (a reduction's maximum, R57): a NaN input gives the NaN, equal values keep the first. -/
def fMax (x y : FV) : FV :=
  let a := f32Read x.b
  let b := f32Read y.b
  let sat := x.sat || y.sat || a.inf || b.inf
  if a.isNan || b.isNan then fvNaN sat
  else
    let v := if fLt x.b y.b then b else a
    fvWrite v.neg v.m v.e sat (x.nan || y.nan)

/-- A value as the vector unit writes it after reading it by R57: a subnormal is zero, an infinity the largest finite value and
counted, a NaN the NaN of R57. -/
def fClean (x : FV) : FV :=
  let a := f32Read x.b
  let sat := x.sat || a.inf
  if a.isNan then fvNaN sat else fvWrite a.neg a.m a.e sat x.nan

/-! ### Square roots and powers, to a stated precision -/

/-- The integer square root by bits: the largest `r` with `r * r ≤ n`, tried from bit `i - 1` down. -/
def isqrtBits : Nat → Nat → Nat → Nat
  | 0, _, r => r
  | i + 1, n, r =>
    let c := r + 2 ^ i
    if c * c ≤ n then isqrtBits i n c else isqrtBits i n r

/-- The integer square root of `n`. -/
def isqrt (n : Nat) : Nat := isqrtBits (bitLen n / 2 + 1) n 0

/-- The exactly rounded reciprocal square root of `m * 2^e`, `m` not 0, as an F32 pattern: the reference that the 2 ulp
of R167 are counted from. -/
def rsqrtRef (m : Nat) (e : Int) : W32 :=
  -- make the exponent even, then 1/sqrt(m * 2^e) = sqrt(2^256 / m) * 2^(-128 - e/2)
  let (m', e') := if e % 2 = 0 then (m, e) else (2 * m, e - 1)
  let q := 2 ^ 256 / m'
  let r := isqrt q
  let st := if r * r = q && 2 ^ 256 % m' = 0 then 0 else 1
  (f32Write false (2 * r + st) (-(e' / 2) - 129)).1

/-! ### Fixed-point exponentials

Fixed point with `fxP` fraction bits; the reference for SiLU and GELU (R167). -/

/-- Fraction bits of the fixed-point reference. -/
def fxP : Nat := 192

/-- One, in fixed point. -/
def fxOne : Int := (2 ^ fxP : Nat)

/-- Fixed-point product, rounded down. -/
def fxMul (a b : Int) : Int := (a * b) / fxOne

/-- Fixed-point quotient, rounded down. -/
def fxDiv (a b : Int) : Int := (a * fxOne) / b

/-- The exponential series of a small `x`: `n` terms from term `k` on, the last term being `t`. -/
def fxExpSeries : Nat → Int → Int → Int → Int
  | 0, _, _, _ => 0
  | n + 1, x, k, t => t + fxExpSeries n x (k + 1) (fxMul t x / (k + 1))

/-- Square `n` times. -/
def fxSquares : Nat → Int → Int
  | 0, x => x
  | n + 1, x => fxSquares n (fxMul x x)

/-- `e^x` for a fixed-point `x` at most 0 (0 far below the format's range): the argument is cut by `2^8`, summed and
squared back. -/
def fxExpNeg (x : Int) : Int :=
  if x < -120 * fxOne then 0 else fxSquares 8 (fxExpSeries 40 (x / 256) 0 fxOne)

/-- The fixed-point value of `(-1)^neg * m * 2^e`, rounded towards zero, limited to `±2^20`. -/
def fxOf (neg : Bool) (m : Nat) (e : Int) : Int :=
  let sh := e + fxP
  let v : Nat := if 0 ≤ sh then (if sh > 212 then 2 ^ 212 else min (m <<< sh.toNat) (2 ^ 212)) else m >>> (-sh).toNat
  if neg then -(v : Int) else v

/-- The logistic function of a fixed-point value. -/
def fxLogistic (x : Int) : Int :=
  if x ≤ 0 then
    let t := fxExpNeg x
    fxDiv t (fxOne + t)
  else
    let t := fxExpNeg (-x)
    fxDiv fxOne (fxOne + t)

/-- SiLU of a value that is no NaN, rounded to nearest even: `x / (1 + e^-x)` (R167's reference). -/
def siluRef (a : FNum) : W32 :=
  let g := fxLogistic (fxOf a.neg a.m a.e)
  (f32Write a.neg (a.m * g.toNat) (a.e - fxP)).1

/-- `sqrt(2/pi)` in fixed point (its square is `2/pi`; 192 bits from the value of pi to 64 decimal digits). -/
def fxSqrt2OverPi : Int :=
  -- pi to 80 decimal digits, as a numerator over 10^80
  let piN : Nat := 314159265358979323846264338327950288419716939937510582097494459230781640628620899
  (isqrt (2 * 10 ^ 80 * 2 ^ (2 * fxP) / piN) : Nat)

/-- GELU in tanh form of a value that is no NaN, rounded to nearest even: `x * logistic(2 c (x + 0.044715 x^3))`, which is
`0.5 x (1 + tanh(c (x + 0.044715 x^3)))` with `c = sqrt(2/pi)` (R167's reference). -/
def geluRef (a : FNum) : W32 :=
  let x := fxOf a.neg a.m a.e
  let xl := max (-64 * fxOne) (min (64 * fxOne) x)
  let x3 := fxMul xl (fxMul xl xl)
  let u := 2 * fxMul fxSqrt2OverPi (xl + x3 * 44715 / 1000000)
  let g := fxLogistic u
  (f32Write a.neg (a.m * g.toNat) (a.e - fxP)).1

/-- The pattern `d` units in the last place from `b`, towards or away from zero, kept inside the finite range and on
the same side of zero (R167). -/
def ulpMove (b : W32) (d : Int) : W32 :=
  let s := b.toNat / 2 ^ 31
  let v : Int := (b.toNat % 2 ^ 31 : Nat)
  let w := max 0 (min 0x7F7FFFFF (v + d))
  let w' := if w < 0x00800000 then (if v = 0 then 0 else if w = 0 then 0 else 0x00800000) else w
  BitVec.ofNat 32 (s * 2 ^ 31 + w'.toNat)

/-! ### Conversions -/

/-- A code of a narrower format with the events its conversion met (R59, R60). -/
structure Code where
  c : Nat
  sat : Bool
  nan : Bool
  deriving DecidableEq, Repr

/-- BF16 to F32: exact (R56, R60). -/
def bf16ToF32 (x : Nat) : W32 := BitVec.ofNat 32 (x % 65536 * 65536)

/-- F32 to BF16 (R57, R58, R60). -/
def f32ToBf16 (r : Rnd) (x : FV) : Code :=
  let a := f32Read x.b
  let sat := x.sat || a.inf
  if a.isNan then ⟨0x7FC0, sat, true⟩
  else
    let s := b2n a.neg * 32768
    let (q, u) := roundSig r 8 a.m a.e
    let ex := u + 134
    if q = 0 || ex < 1 then ⟨s, sat, x.nan⟩
    else if ex > 254 then ⟨s + 0x7F7F, true, x.nan⟩
    else ⟨s + ex.toNat * 128 + (q - 128), sat, x.nan⟩

/-- F32 to F8, E4M3 with bias 7 and subnormals, no infinity and no NaN; a zero is written 0x00 (R56, R58, R60). -/
def f32ToF8 (r : Rnd) (x : FV) : Code :=
  let a := f32Read x.b
  let sat := x.sat || a.inf
  if a.isNan then ⟨0, sat, true⟩
  else if a.m = 0 then ⟨0, sat, x.nan⟩
  else
    let u : Int := max (a.e + bitLen a.m - 4) (-9)
    let q0 := roundUnit r a.m a.e u
    let (q, u') := if q0 = 16 then (8, u + 1) else (q0, u)
    let s := b2n a.neg * 128
    if q = 0 then ⟨0, sat, x.nan⟩
    else if q < 8 then ⟨s + q, sat, x.nan⟩
    else
      let ex := u' + 10
      if ex > 15 then ⟨s + 127, true, x.nan⟩
      else ⟨s + ex.toNat * 8 + (q - 8), sat, x.nan⟩

/-- F8 to F32: exact; 0x80 gives -0.0 (R56, R60). -/
def f8ToF32 (x : Nat) : W32 :=
  let neg := bitB x 7
  let ex := bits x 6 3
  let mt := bits x 2 0
  if ex = 0 then (f32Write neg mt (-9)).1 else (f32Write neg (8 + mt) ((ex : Int) - 10)).1

/-- F32 or BF16 to B1 (R60): 1 for a value at or above zero and for -0.0, 1 for a NaN. -/
def f32ToB1 (x : FV) : Code :=
  let a := f32Read x.b
  if a.isNan then ⟨1, x.sat || a.inf, true⟩
  else ⟨if a.neg && a.m != 0 then 0 else 1, x.sat || a.inf, x.nan⟩

/-- `a * 2^i ≤ b * 2^j`. -/
def dyLe (a : Nat) (i : Int) (b : Nat) (j : Int) : Bool :=
  let u := min i j
  decide (a <<< (i - u).toNat ≤ b <<< (j - u).toNat)

/-- The E8 of a group whose largest unmarked magnitude is `a * 2^i`, for a format of largest magnitude `mm` (R53). -/
def chooseE8 (mm a : Nat) (i : Int) : Nat :=
  if a = 0 then 0
  else
    let t : Int := i + bitLen a - bitLen mm
    let x := if dyLe a i mm t then t else t + 1
    (max 0 (min 254 (x + 127))).toNat

end Sys2Proof.Machine
end

