-- ==== Sys2Proof/Machine/Formats.lean ====
section
/-! DEFINITION. The number formats and vector images: codes of R39 to R51, image layout of R164, satellite streams of
R92 and their read rules (R93). -/

namespace Sys2Proof.Machine

/-- The format codes of R163. -/
inductive Fmt where
  | t5 | b1 | a2 | a4 | a4o | a8 | f8 | bf16 | f32 | follow
  deriving DecidableEq, Repr

/-- The format of a 4-bit code; codes 9 to 14 are reserved (R163). -/
def fmtOf (c : Nat) : Option Fmt :=
  match c with
  | 0 => some .t5 | 1 => some .b1 | 2 => some .a2 | 3 => some .a4 | 4 => some .a4o
  | 5 => some .a8 | 6 => some .f8 | 7 => some .bf16 | 8 => some .f32 | 15 => some .follow
  | _ => none

/-- The code of a format (R163). -/
def fmtCode (f : Fmt) : Nat :=
  match f with
  | .t5 => 0 | .b1 => 1 | .a2 => 2 | .a4 => 3 | .a4o => 4 | .a8 => 5 | .f8 => 6 | .bf16 => 7 | .f32 => 8
  | .follow => 15

/-- Bits per element of an image in this format (R39, R164); weights and FOLLOW have no images. -/
def fmtBits (f : Fmt) : Nat :=
  match f with
  | .t5 => 8 | .b1 => 1 | .a2 => 2 | .a4 => 4 | .a4o => 4 | .a8 => 8 | .f8 => 8 | .bf16 => 16 | .f32 => 32
  | .follow => 8

/-- A2, A4 in either form and A8: the formats with scales and satellite streams (R164). -/
def fmtIsAct (f : Fmt) : Bool :=
  match f with
  | .a2 | .a4 | .a4o | .a8 => true
  | _ => false

/-- The largest magnitude M (R45, R48). -/
def fmtMax (f : Fmt) : Nat :=
  match f with
  | .a2 => 1 | .a4 | .a4o => 7 | .a8 => 127
  | _ => 0

/-- The digit planes P (R45). -/
def fmtPlanes (f : Fmt) : Nat :=
  match f with
  | .a2 => 1 | .a4 | .a4o => 2 | .a8 => 4
  | _ => 0

/-- An element of an activation image: a signed magnitude, or the satellite marker (R45). -/
structure El where
  mark : Bool
  neg : Bool
  m : Nat
  deriving DecidableEq, Repr

/-- The marker. -/
def elMark : El := ⟨true, false, 0⟩

/-- The element a code denotes (R45, R48). -/
def elOf (f : Fmt) (c : Nat) : El :=
  match f with
  | .a4o => if c = 15 then elMark else if 7 ≤ c then ⟨false, false, c - 7⟩ else ⟨false, true, 7 - c⟩
  | _ =>
    let w := fmtBits f
    let m := c % 2 ^ (w - 1)
    let neg := bitB c (w - 1)
    if neg && m == 0 then elMark else ⟨false, neg, m⟩

/-- The code of an element; a zero is written with sign 0 (R45, R48). -/
def elCode (f : Fmt) (x : El) : Nat :=
  match f with
  | .a4o => if x.mark then 15 else if x.neg then 7 - x.m else 7 + x.m
  | _ =>
    let w := fmtBits f
    if x.mark then 2 ^ (w - 1) else if x.m = 0 then 0 else b2n x.neg * 2 ^ (w - 1) + x.m

/-- The codes of `w` bits of one byte, low bits first (R43, R46). -/
def byteCodes (w : Nat) (b : Byte) : List Nat :=
  (List.range (8 / w)).map (fun i => (b.toNat >>> (w * i)) % 2 ^ w)

/-- The codes of a packed byte string, `w` bits each, from byte 0 upward (R43, R46); 16 and 32 bits are little-endian. -/
def unpack (w : Nat) (bs : List Byte) : List Nat :=
  if w ≤ 8 then bs.flatMap (byteCodes w) else (chunks (w / 8) bs).map leNat

/-- The byte that a list of codes of `w` bits fills, low bits first. -/
def packByte (w : Nat) : List Nat → Nat
  | [] => 0
  | c :: cs => c + 2 ^ w * packByte w cs

/-- Codes packed from byte 0 upward, with zero bits at the end (R46). -/
def pack (w : Nat) (cs : List Nat) : List Byte :=
  if w ≤ 8 then (chunks (8 / w) cs).map (fun g => BitVec.ofNat 8 (packByte w g))
  else cs.flatMap (leBytes (w / 8))

/-- `n` rounded up to a multiple of 32. -/
def up32 (n : Nat) : Nat := 32 * ceilDiv n 32

/-- The element data bytes of an image of `n` elements (R164). -/
def dataSize (f : Fmt) (n : Nat) : Nat := 32 * ceilDiv (n * fmtBits f) 256

/-- The scale array bytes of an image (R164). -/
def scaleSize (f : Fmt) (n : Nat) : Nat := if fmtIsAct f then up32 (ceilDiv n 32) else 0

/-- The satellite tiles of `n` elements. -/
def satTiles (n : Nat) : Nat := ceilDiv n 4096

/-- The bytes of a satellite stream, padded to a multiple of 32 (R92, R164). -/
def streamSize (n : Nat) : Nat := up32 (16 + 160 * satTiles n)

/-- The size of an image (R164). -/
def imageSize (f : Fmt) (n : Nat) (sat : Bool) : Nat :=
  dataSize f n + scaleSize f n + (if sat then streamSize n else 0)

/-- A list cut or padded with `d` to `n` elements. -/
def padTo {α : Type} (d : α) (n : Nat) (l : List α) : List α :=
  l.take n ++ List.replicate (n - l.length) d

/-- An activation image as read: elements, E8 scales, the satellite value of each marker in element order (a BF16
code), and the metadata inconsistencies found (R93). -/
structure Img where
  els : List El
  e8 : List Nat
  vals : List (Nat × Nat)
  metaErr : Nat
  deriving DecidableEq, Repr

/-- The block counts of one satellite slot (R92). -/
def slotCounts (slot : List Byte) : List Nat := unpack 4 (slot.take 32)

/-- The values of one satellite slot (R92). -/
def slotVals (slot : List Byte) : List Nat := unpack 16 (slot.drop 32)

/-- Reading the markers of one block (R93): ranks from `k` on, the block's count `cnt`, its values starting at value
index `start`. -/
def readMarks (vals : List Nat) (cnt start : Nat) : List Nat → Nat → List (Nat × Nat) × Nat
  | [], _ => ([], 0)
  | e :: es, k =>
    let (l, x) := readMarks vals cnt start es (k + 1)
    if cnt ≤ k then ((e, 0) :: l, x + 1)
    else if 64 ≤ start + k then ((e, 0) :: l, x + 1)
    else ((e, nth 0 vals (start + k)) :: l, x)

/-- The markers among elements `e`, `e + 1`, and so on. -/
def markersFrom : List El → Nat → List Nat
  | [], _ => []
  | x :: xs, e => if x.mark then e :: markersFrom xs (e + 1) else markersFrom xs (e + 1)

/-- Reading the blocks of one satellite tile, the first of which starts at element `e` with its values at index
`start` (R92, R93). -/
def readBlocks (vals : List Nat) : List Nat → List El → Nat → Nat → List (Nat × Nat) × Nat
  | [], _, _, _ => ([], 0)
  | c :: cs, els, e, start =>
    let c' := if c > 4 then 0 else c
    let marks := markersFrom (els.take 64) e
    let (l1, x1) := readMarks vals c' start marks 0
    let (l2, x2) := readBlocks vals cs (els.drop 64) (e + 64) (start + c')
    (l1 ++ l2, x1 + x2 + b2n (decide (c > 4)) + b2n (decide (marks.length < c')))

/-- Reading the satellite tiles of a stream after its header (R92). -/
def readTiles : List (List Byte) → List El → Nat → List (Nat × Nat) × Nat
  | [], _, _ => ([], 0)
  | s :: ss, els, e =>
    let (l1, x1) := readBlocks (slotVals s) (slotCounts s) (els.take 4096) e 0
    let (l2, x2) := readTiles ss (els.drop 4096) (e + 4096)
    (l1 ++ l2, x1 + x2)

/-- The fields of a satellite header: FMT as a whole byte, NTILES (R92, R94). -/
def satHeader (stream : List Byte) : Nat × Nat := (leNat (stream.take 1), leNat ((stream.drop 2).take 2))

/-- An image of `n` elements read from its bytes; the satellite stream stands at byte `at` where it is read. Without a
stream every marker reads as 0 (R60). -/
def readImg (f : Fmt) (n : Nat) (stream : Option Nat) (bs : List Byte) : Img :=
  let els := (padTo 0 n ((unpack (fmtBits f) (bs.take (dataSize f n))).take n)).map (elOf f)
  let e8 := ((bs.drop (dataSize f n)).take (ceilDiv n 32)).map BitVec.toNat
  match stream with
  | none => ⟨els, e8, [], 0⟩
  | some p =>
    let slots := (chunks 160 ((bs.drop (p + 16)).take (160 * satTiles n))).take (satTiles n)
    let (vals, x) := readTiles slots els 0
    ⟨els, e8, vals, x⟩

/-- The BF16 satellite value of element `j`, 0 for a marker without one. -/
def satVal (vals : List (Nat × Nat)) (j : Nat) : Nat :=
  match vals.find? (fun p => p.1 == j) with
  | some p => p.2
  | none => 0

/-- One slot of a satellite stream (R92): the block counts, then the values, with unused places 0. -/
def writeSlot (cnts : List Nat) (vals : List Nat) : List Byte :=
  pack 4 (padTo 0 64 cnts) ++ pack 16 (padTo 0 64 vals)

/-- The stream of an image of `n` elements with the markers `vals` (R92): header, then one slot for each tile. -/
def writeStream (f : Fmt) (n : Nat) (fallback rescaled : Bool) (vals : List (Nat × Nat)) : List Byte :=
  let hdr := leBytes 1 (fmtCode f) ++ leBytes 1 (b2n fallback + 2 * b2n rescaled) ++ leBytes 2 (satTiles n) ++
    leBytes 4 vals.length ++ leBytes 8 0
  let slots := (List.range (satTiles n)).flatMap (fun t =>
    let tv := vals.filter (fun p => p.1 / 4096 == t)
    writeSlot ((List.range 64).map (fun b => (tv.filter (fun p => p.1 % 4096 / 64 == b)).length)) (tv.map (·.2)))
  padTo 0 (streamSize n) (hdr ++ slots)

/-- The exact value of an unmarked element of scale `e8`, as F32 (R50, R57, R60); an invalid scale reads as 0 (R51). -/
def elValue (x : El) (e8 : Nat) : FV :=
  if e8 = 255 then fvZero else fvWrite x.neg x.m ((e8 : Int) - 127) false false

/-- Trit `i` of a T5 byte; an invalid byte has none (R40, R42). -/
def trit (b i : Nat) : Int := if b > 242 then 0 else ((b / 3 ^ i % 3 : Nat) : Int) - 1

/-- The data bytes of `n` elements with codes `cs`, padded with zeros to the data size of the image (R164). -/
def dataBytes (f : Fmt) (cs : List Nat) : List Byte :=
  padTo 0 (dataSize f cs.length) (pack (fmtBits f) cs)

/-- The scale array of an image (R51, R164). -/
def scaleBytes (f : Fmt) (n : Nat) (e8 : List Nat) : List Byte :=
  padTo 0 (scaleSize f n) (e8.map (BitVec.ofNat 8))

/-- The F32 value that a code of F32, BF16, F8 or B1 denotes (R60). -/
def codeToF32 (f : Fmt) (c : Nat) : W32 :=
  match f with
  | .f32 => BitVec.ofNat 32 c
  | .bf16 => bf16ToF32 c
  | .f8 => f8ToF32 c
  | .b1 => if c % 2 = 1 then 0x3F800000 else 0xBF800000
  | _ => 0

/-- The F32 values of an image of `n` elements in F32, BF16, F8 or B1. -/
def readVals (f : Fmt) (n : Nat) (bs : List Byte) : List W32 :=
  (padTo 0 n ((unpack (fmtBits f) (bs.take (dataSize f n))).take n)).map (codeToF32 f)

/-- The code of one F32 value written in F32, BF16, F8 or B1 (R57, R60). -/
def f32ToCode (f : Fmt) (r : Rnd) (x : FV) : Code :=
  match f with
  | .f32 => ⟨(fClean x).b.toNat, (fClean x).sat, (fClean x).nan⟩
  | .bf16 => f32ToBf16 r x
  | .f8 => f32ToF8 r x
  | .b1 => f32ToB1 x
  | _ => ⟨0, x.sat, x.nan⟩

end Sys2Proof.Machine
end

