-- ==== Sys2Proof/Machine/Lookup.lean ====
section
/-! DEFINITION. One pass of the table lookup engine and of the XNOR-popcount path, as pure functions: digit front end,
lanes, combine, satellite sums, cycle counts and destinations (R61 to R96, R114). -/

namespace Sys2Proof.Machine

/-! ### Digit front end (R64 to R67) -/

/-- One lookup group of one token after the front end: its shift s(j), and the five signed digits of each plane. -/
structure Grp where
  sh : Nat
  planes : List (List Int)
  deriving DecidableEq, Repr

/-- The front end's result for one token: E_base, the lookup groups, the elements whose alignment lost bits, and the
scale groups read with E8 = 0xFF. -/
structure Front where
  base : Nat
  grps : List Grp
  lost : Nat
  badScale : Nat
  deriving DecidableEq, Repr

/-- The valid E8 bytes among `l`. -/
def validE8 (l : List Nat) : List Nat := l.filter (fun x => x != 255)

/-- The smallest of a list, 127 for none (R64). -/
def e8Low (l : List Nat) : Nat :=
  match l with
  | [] => 127
  | x :: xs => xs.foldl min x

/-- The largest of a list, 127 for none (R64). -/
def e8Top (l : List Nat) : Nat :=
  match l with
  | [] => 127
  | x :: xs => xs.foldl max x

/-- E_base of R64 after `q` saturation replays. -/
def eBase (e8 : List Nat) (q : Nat) : Nat :=
  let v := validE8 e8
  max (e8Low v) (e8Top v - 15) + q

/-- The aligned signed magnitude of one element of scale `ex` under item exponent `item`, and whether bits were lost
(R65). A marker and an element of an invalid group have magnitude 0 (R47, R51). -/
def alignEl (x : El) (ex item : Nat) : Int × Bool :=
  if x.mark || ex == 255 || x.m == 0 then (0, false)
  else
    let sh := item - ex
    let v : Int := roundShift .rne x.m sh
    (if x.neg then -v else v, x.m % 2 ^ sh != 0)

/-- The signed digit of plane `p` (R47). -/
def digit (p : Nat) (v : Int) : Int :=
  let d : Int := (bits v.natAbs (2 * p + 1) (2 * p) : Nat)
  if v < 0 then -d else d

/-- Lookup group `j` with the elements `els` (R63, R65, R66). -/
def mkGrp (planes base j : Nat) (e8 : List Nat) (els : List El) : Grp × Nat :=
  let sc := (List.range els.length).map (fun i => nth 0 e8 ((5 * j + i) / 32))
  let item := (validE8 sc).foldl max base
  let al := (els.zip sc).map (fun p => alignEl p.1 p.2 item)
  let v := padTo 0 5 (al.map (·.1))
  (⟨item - base, (List.range planes).map (fun p => v.map (digit p))⟩, (al.filter (·.2)).length)

/-- The lookup groups of a token from group `j` on. -/
def mkGrps (planes base : Nat) (e8 : List Nat) : List (List El) → Nat → List (Grp × Nat)
  | [], _ => []
  | g :: gs, j => mkGrp planes base j e8 g :: mkGrps planes base e8 gs (j + 1)

/-- The digit front end of one activation vector (R63 to R67). -/
def front (f : Fmt) (img : Img) (q : Nat) : Front :=
  let base := eBase img.e8 q
  let gs := mkGrps (fmtPlanes f) base img.e8 (chunks 5 img.els) 0
  ⟨base, gs.map (·.1), natSum (gs.map (·.2)), (img.e8.filter (fun x => x == 255)).length⟩

/-! ### Lanes (R61, R62, R66 to R73) -/

/-- One live item of a lane: lookup group, token, shift `2p + s(j)`, and the five digits. -/
structure LaneItem where
  j : Nat
  t : Nat
  sh : Nat
  dg : List Int
  deriving DecidableEq, Repr

/-- The items of one lookup group in the order of R68, the all-zero ones left out unless NOSKIP is set (R67). -/
def grpItems (noskip : Bool) (toks : List Front) (j : Nat) : List LaneItem :=
  (List.range toks.length).flatMap (fun t =>
    let g := nth ⟨0, []⟩ (nth ⟨0, [], 0, 0⟩ toks t).grps j
    ((List.range g.planes.length).map (fun p => (⟨j, t, 2 * p + g.sh, nth [] g.planes p⟩ : LaneItem))).filter
      (fun it => noskip || it.dg.any (fun d => d != 0)))

/-- The table entry of a patched weight byte: the sum of trit times digit (R61, R62). -/
def tableEntry (b : Nat) (dg : List Int) : Int :=
  ((List.range 5).map (fun i => trit b i * nth 0 dg i)).foldl (· + ·) 0

/-- A sum limited to 32 bits, and whether it clamped (R73). -/
def satAdd (a b : Int) : Int × Bool :=
  let s := a + b
  if s > 2147483647 then (2147483647, true)
  else if s < -2147483648 then (-2147483648, true)
  else (s, false)

/-- The earlier of two clamps, each a cycle and a token; ties go to the lower token (R102). -/
def clampMin (a b : Option (Nat × Nat)) : Option (Nat × Nat) :=
  match a, b with
  | none, y => y
  | x, none => x
  | some x, some y => if y.1 < x.1 || (y.1 == x.1 && y.2 < x.2) then some y else some x

/-- A lane's accumulator for one (row, token) pair: it takes the lane's items in order, each with the cycle in which its
lookup starts; `step` is the row's 64-row step within an item. `w` gives the row's weight byte of a lookup group. -/
def laneAcc (w : Nat → Nat) (t step : Nat) : List (LaneItem × Nat) → Int → Option Nat → Int × Option Nat
  | [], a, c => (a, c)
  | (it, st) :: its, a, c =>
    if it.t = t then
      let (a', hit) := satAdd a (tableEntry (w it.j) it.dg * (2 ^ it.sh : Nat))
      laneAcc w t step its a' (if hit && c.isNone then some (st + step) else c)
    else laneAcc w t step its a c

/-- The combine of R74 for one pair: lane 0 first, then lanes 1 to 7, each add limited. -/
def combine : List (Int × Option Nat) → Int → Bool → Int × Bool
  | [], a, h => (a, h)
  | (v, _) :: vs, a, h =>
    let (a', h') := satAdd a v
    combine vs a' (h || h')

/-! ### The weight feeder (R72, R140, R141, R278, R279)

Log entry 80 says what of its timing is deduced: a line is read in one port cycle, the lookup that needs it may start in the
next, and a lane's buffer entry is free from the cycle after the last lookup of its block. -/

/-- One use of a quarter's read port by the feeder. `key` numbers the 512-byte line in the cluster's weight space. -/
inductive FeedItem where
  /-- A record line (R278). -/
  | recd (key : Nat)
  /-- A line of a weight tile: the live groups whose block begins in it, those whose last byte lies in it, whether it must
  follow its predecessor in the next cycle (R141), whether it is the first line of the tile, and, where the tile has a
  record, the entries that fall in the lines read up to this one (R279). -/
  | line (key : Nat) (begins ends : List Nat) (join first : Bool) (cum : Option Nat)
  deriving DecidableEq, Repr

/-- The line that an item reads. -/
def FeedItem.key (x : FeedItem) : Nat := match x with | .recd k => k | .line k _ _ _ _ _ => k

/-- A lane as the feeder sees it: the cycle from which its next table is ready, the cycles in which its buffer entries became
or become free, newest first, and, newest first, the starts of its items and its waits for weight bytes. -/
structure LaneRun where
  nx : Nat
  free : List Nat
  starts : List Nat
  waits : List (Nat × Nat)
  deriving DecidableEq, Repr

/-- The feeder of one engine: its next port cycle, the cycle of the present tile's first line, the lanes, and the reads made,
newest first, each with its cycle. -/
structure Feeder where
  t : Nat
  rf : Nat
  lanes : List LaneRun
  reads : List (Nat × FeedItem)
  deriving DecidableEq, Repr

/-- A lane takes a block of `n` live items that is usable from cycle `usable` on: it waits where its table is ready earlier. -/
def takeBlock (n usable intv l : Nat) (x : LaneRun) : LaneRun :=
  let s0 := max x.nx usable
  let last := s0 + (n - 1) * intv
  { nx := last + intv, free := (last + l) :: x.free
    starts := ((List.range n).map (fun i => s0 + i * intv)).reverse ++ x.starts
    waits := if x.nx < s0 then (x.nx, s0) :: x.waits else x.waits }

/-- The earliest cycle in which the lanes that a line serves have a buffer entry for it: the block four before must have left
(R140). -/
def roomAt (f : Feeder) (x : FeedItem) : Nat :=
  match x with
  | .recd _ => 0
  | .line _ bs _ _ _ _ => natMax (bs.map (fun j => nth 0 (nth ⟨0, [], [], []⟩ f.lanes (j % 8)).free 3))

/-- One read in cycle `c`; `cnt` gives the live items of a group. -/
def feedOne (cnt : Nat → Nat) (intv l : Nat) (f : Feeder) (x : FeedItem) (c : Nat) : Feeder :=
  match x with
  | .recd _ => { f with t := c + 1, reads := (c, x) :: f.reads }
  | .line _ _ es _ first cum =>
    let rf := if first then c else f.rf
    let pass := match cum with
      | none => c
      | some n => max c (rf + ceilDiv n 32 - 1) + 2
    { t := c + 1, rf := rf, reads := (c, x) :: f.reads
      lanes := (List.range f.lanes.length).map (fun i =>
        (es.filter (fun j => j % 8 == i)).foldl (fun y j => takeBlock (cnt j) (pass + 1) intv l y)
          (nth ⟨0, [], [], []⟩ f.lanes i)) }

/-- A run of lines read in consecutive cycles from `c` on; the wait of a reload comes before its line (R145). -/
def feedBurst (cnt stall : Nat → Nat) (intv l : Nat) : Feeder → List FeedItem → Nat → Feeder
  | f, [], _ => f
  | f, x :: xs, c => feedBurst cnt stall intv l (feedOne cnt intv l f x (c + stall x.key)) xs (c + stall x.key + 1)

/-- Lines that must follow their predecessor at once stand in one run with it (R141). -/
def bursts : List FeedItem → List (List FeedItem)
  | [] => []
  | x :: xs =>
    match bursts xs with
    | (.line k bs es true fi cu :: ys) :: zs => (x :: .line k bs es true fi cu :: ys) :: zs
    | zs => [x] :: zs

/-- The first cycle of a run of lines: the port is free and every lane that a line serves has room when its turn comes. -/
def burstStart (f : Feeder) (xs : List FeedItem) : Nat :=
  max f.t (natMax ((List.range xs.length).map (fun i => roomAt f (nth (.recd 0) xs i) - i)))

/-- The feeder's work in a pass: `t0` its first port cycle, `f0` the cycle of a first lookup that waits for nothing. -/
def feed (cnt stall : Nat → Nat) (t0 f0 intv l : Nat) (items : List FeedItem) : Feeder :=
  (bursts items).foldl (fun f xs => feedBurst cnt stall intv l f xs (burstStart f xs))
    ⟨t0, t0, List.replicate 8 ⟨f0, [], [], []⟩, []⟩

/-- The lines of one weight tile that the feeder reads: `key` the line number of the tile's first line, `q` the share's rows,
`js` the tile's live groups, `recs` the record's lines, `pats` its applied offsets where it has a record. Of a line that is read only
the blocks of live groups go to lanes and take buffer entries (R69, R140; DESIGN CHOICE, log entry 95). -/
def tileFeed (key q : Nat) (js recs : List Nat) (pats : Option (List Nat)) : List FeedItem :=
  let g := 4096 / q
  let b := fun j => j % g * q / 512
  let e := fun j => (j % g * q + q - 1) / 512
  let ls := (List.range 8).filter (fun l => js.any (fun j => b j == l || e j == l))
  recs.map .recd ++ ls.map (fun l =>
    .line (key + l) (js.filter (fun j => b j == l)) (js.filter (fun j => e j == l))
      (js.any (fun j => b j + 1 == l && e j == l)) (ls.head? == some l)
      (pats.map (fun ps => (ps.filter (fun o => decide (o / 512 ≤ l) && ls.contains (o / 512))).length)))

/-! ### One engine's pass -/

/-- What one engine did in a pass: row sums by (token, live row), the first clamp, its lanes, each group's first lookup with
its invalid weight bytes, L and I, the first lookup of a lane that waits for nothing, and the end of the last lookup. -/
structure EngOut where
  sums : List (List Int)
  clamp : Option (Nat × Nat)
  lanes : List LaneRun
  inval : List (Nat × Nat)
  reads : List (Nat × FeedItem)
  l : Nat
  intv : Nat
  f0 : Nat
  fin : Nat
  deriving DecidableEq, Repr

/-- The items of each of the eight lanes: lookup group j goes to lane j mod 8 (R68). -/
def dealLanes (groups : List (List LaneItem)) : List (List LaneItem) :=
  (List.range 8).map (fun l =>
    ((List.range groups.length).filter (fun j => j % 8 == l)).flatMap (fun j => nth [] groups j))

/-- The lane time of R86, without waits. -/
def laneTime (n intv l : Nat) : Nat := if n = 0 then 0 else 4 + (n - 1) * intv + l

/-- The end of the last lookup of the slowest lane; `d` where no lane has an item. -/
def lanesEnd (d l : Nat) (ls : List LaneRun) : Nat :=
  natMax (d :: ls.flatMap (fun x => match x.starts with | [] => [] | s :: _ => [s + l]))

/-- One engine's pass (R68 to R75): `lanes` the items of its lanes, `all` the rows of its share and `rows` the live ones,
`w r j` the patched weight byte of row `r` and group `j`, `tn` the number of tokens, `items` what its feeder reads, `stall`
the waits for reloads. The combine takes a token's rows 64 in a cycle and starts each token in a new one: R74 gives 64 pairs a
cycle and R86 T · L cycles, which this meets both (DEDUCED, log entry 80). -/
def enginePass (lanes : List (List LaneItem)) (tn : Nat) (all rows : List Nat) (w : Nat → Nat → Nat)
    (items : List FeedItem) (stall : Nat → Nat) : EngOut :=
  let l := ceilDiv rows.length 64
  let intv := max l 4
  let cnts : Tab Nat := lanes.foldl (fun t its => its.foldl (fun t it => tabSet t it.j (tabGet 0 t it.j + 1)) t) []
  let f := feed (fun j => tabGet 0 cnts j) stall 3 7 intv l items
  let timed := (lanes.zip f.lanes).map (fun p => p.1.zip p.2.starts.reverse)
  let fin := lanesEnd 3 l f.lanes
  let pair := fun (t ri r : Nat) =>
    let lv := timed.map (fun its => laneAcc (w r) t (ri / 64) its 0 none)
    let first := lv.foldl (fun c p => match c, p.2 with | none, y => y | x, none => x | some x, some y => some (min x y)) none
    let (v, hit) :=
      match lv with
      | [] => ((0 : Int), false)
      | p :: ps => combine ps p.1 false
    let cc := if hit then some (fin + t * l + ri / 64, t) else none
    (v, clampMin (first.map (fun c => (c, t))) cc)
  let res := (List.range tn).map (fun t =>
    (List.range rows.length).map (fun ri => pair t ri (nth 0 rows ri)))
  let firsts := timed.map (fun its => its.foldl (fun (a : List (Nat × Nat)) p =>
    match a with
    | (j, s) :: r => if j = p.1.j then a else (p.1.j, p.2) :: (j, s) :: r
    | [] => [(p.1.j, p.2)]) [])
  { sums := res.map (fun rs => rs.map (·.1))
    clamp := (res.flatMap (fun rs => rs.map (·.2))).foldl clampMin none
    lanes := f.lanes
    inval := firsts.flatMap (fun a => a.map (fun p => (p.2, (all.filter (fun r => w r p.1 > 242)).length)))
    reads := f.reads.reverse, l := l, intv := intv, f0 := 7, fin := fin }

/-- The number of equal bits of two bytes among the low `n` (R44, R87). -/
def equalBits (a b n : Nat) : Nat :=
  ((List.range (min n 8)).filter (fun i => bit a i == bit b i)).length

/-- One engine's XNP pass (R87, R88): every octet is live and takes L cycles, the first of them in cycle 4. Its feeder needs no
plane mask and reads from cycle 0 on (DEDUCED, log entry 80). -/
def xnpPass (elems : Nat) (act : List Nat) (rows : List Nat) (w : Nat → Nat → Nat) (items : List FeedItem)
    (stall : Nat → Nat) : EngOut :=
  let g := ceilDiv elems 8
  let l := ceilDiv rows.length 64
  let f := feed (fun _ => 1) stall 0 4 l l items
  let sums := rows.map (fun r =>
    let p := natSum ((List.range g).map (fun j => equalBits (nth 0 act j) (w r j) (elems - 8 * j)))
    2 * (p : Int) - (elems : Int))
  { sums := [sums], clamp := none, lanes := f.lanes, inval := [], reads := f.reads.reverse, l := l, intv := l, f0 := 4
    fin := lanesEnd 3 l f.lanes }

/-! ### Satellite sums (R95) -/

/-- The satellite sum of one (row, token): the markers in ascending element order, each with its trit. -/
def sigma (w : Nat → Nat) : List (Nat × Nat) → FV → FV
  | [], a => a
  | (i, v) :: ms, a =>
    let t := trit (w (i / 5)) (i % 5)
    let x := fvOf (bf16ToF32 v)
    sigma w ms (if t = 1 then fAdd a x else if t = -1 then fSub a x else a)

/-! ### A whole pass -/

/-- The engine share Q of R77. -/
def shareRows (rows ne : Nat) : Nat := 64 * ceilDiv rows (64 * ne)

/-- The rows of engine `e`'s share (R77). -/
def shareAll (rows ne e : Nat) : List Nat := (List.range rows).filter (fun r => r / shareRows rows ne == e)

/-- The live rows of engine `e`'s share (R85). -/
def shareLive (rows ne e : Nat) (mask : List Bool) : List Nat := (shareAll rows ne e).filter (fun r => nth true mask r)

/-- The engines whose share is not empty (R77). -/
def usedEngines (rows ne : Nat) : Nat := min ne (ceilDiv rows (shareRows rows ne))

/-- The counts of a pass, or of its part before a cycle (R90, R93). -/
structure PassCount where
  items : Nat
  skip : Nat
  bwait : Nat
  imbal : Nat
  fwait : Nat
  inval : Nat
  align : Nat
  metaErr : Nat
  deriving DecidableEq, Repr

/-- What a pass gives: the abandon cycle and token where it met the saturation event, each token's k, the sums and
satellite sums by token and row (masked rows 0), the scale groups read with E8 = 0xFF, the cycles of R86. -/
structure PassOut where
  abandon : Option (Nat × Nat)
  ks : List Int
  sums : List (List Int)
  sig : List (List FV)
  badScale : Nat
  cycles : Nat
  deriving DecidableEq, Repr

/-- A pass as it runs: its engines beside its result, and the counts that do not depend on where it ends. -/
structure PassRun where
  out : PassOut
  engs : List EngOut
  skip : Nat
  align : Nat
  metaErr : Nat
  deriving DecidableEq, Repr

/-- The cycles of an interval that lie before cycle `lim`. -/
def cutSpan (lim : Nat) (p : Nat × Nat) : Nat := min p.2 lim - min p.1 lim

/-- The items of a lane that have started before cycle `lim`. An item counts as looked up once its first lookup cycle lies
before the abandon, whatever of its later 64-row steps does (DESIGN CHOICE, log entry 81). -/
def startedBefore (x : LaneRun) (lim : Nat) : List Nat := x.starts.reverse.filter (fun s => decide (s < lim))

/-- The cycles before `lim` that a lane waits for tables: 4 before its first lookup, and between items the interval less the
lookup itself (R71, R90). -/
def laneBwait (intv l f0 lim : Nat) (x : LaneRun) : Nat :=
  match x.starts.reverse with
  | [] => 0
  | s :: ss => cutSpan lim (f0 - 4, f0) +
    natSum ((((s :: ss).zip ss).filter (fun p => decide (p.1 < lim))).map (fun p => cutSpan lim (p.1 + l, p.1 + intv)))

/-- The last lookup cycle of a lane before `lim`. -/
def laneLast (l lim : Nat) (x : LaneRun) : Option Nat :=
  match (startedBefore x lim).getLast? with
  | none => none
  | some s => some (min (s + (l - 1)) (lim - 1))

/-- The engine's first lookup cycle of the pass: the first start of any item of its lanes (R90). -/
def firstLookup (e : EngOut) : Nat :=
  match e.lanes.filterMap (fun x => x.starts.getLast?) with
  | [] => e.f0
  | a :: l => l.foldl min a

/-- The imbalance lane-cycles of one engine before `lim` (R90). -/
def engImbal (e : EngOut) (lim : Nat) : Nat :=
  let lasts := e.lanes.map (laneLast e.l lim)
  let last := lasts.foldl (fun m x => max m (x.getD 0)) 0
  if lasts.all (fun x => x.isNone) then 0
  else natSum (e.lanes.map (fun x =>
    match x.starts with
    | [] => last - firstLookup e
    | s :: _ => if s + (e.l - 1) < lim then last - (s + (e.l - 1)) else 0))

/-- The lanes of a pass that have a live item, over all its engines (R90). -/
def liveLanes (r : PassRun) : Nat :=
  natSum (r.engs.map (fun e => (e.lanes.filter (fun x => !x.starts.isEmpty)).length))

/-- The counts of a pass up to cycle `lim`. In a pass that ends early SKIP counts every marked item of the pass on every
engine, and a group's invalid bytes count once its first lookup has begun. An engine whose share is not empty but has no live
row takes its items in L = 0 cycles each and counts them like any other (DESIGN CHOICE, log entry 81). -/
def PassRun.count (r : PassRun) (lim : Nat) : PassCount :=
  let sum := fun (g : EngOut → Nat) => natSum (r.engs.map g)
  { items := sum (fun e => natSum (e.lanes.map (fun x => (startedBefore x lim).length)))
    skip := r.skip * r.engs.length
    bwait := sum (fun e => if e.f0 = 4 then 0 else natSum (e.lanes.map (laneBwait e.intv e.l e.f0 lim)))
    imbal := sum (fun e => engImbal e lim)
    fwait := sum (fun e => natSum (e.lanes.map (fun x => natSum (x.waits.map (cutSpan lim)))))
    inval := sum (fun e => natSum ((e.inval.filter (fun p => decide (p.1 < lim))).map (·.2)))
    align := r.align
    metaErr := r.metaErr }

/-- The rows of a token with the engines' sums put in place, masked rows 0. -/
def placeRows {α : Type} (d : α) (rows : Nat) (parts : List (List Nat × List α)) : List α :=
  let t : Tab α := parts.foldl (fun t p => (p.1.zip p.2).foldl (fun t x => tabSet t x.1 x.2) t) []
  (List.range rows).map (fun r => tabGet d t r)

/-- Beyond every cycle of a pass: no abandon. -/
def noLimit : Nat := 2 ^ 62

/-- The tokens of a TLA or GATE after the front end (R63 to R67). -/
def passFronts (fs : List Fmt) (q : Nat) (toks : List Img) : List Front := (fs.zip toks).map (fun p => front p.1 p.2 q)

/-- The items of every lookup group. -/
def passGroups (noskip : Bool) (fr : List Front) : List (List LaneItem) :=
  (List.range (nth ⟨0, [], 0, 0⟩ fr 0).grps.length).map (grpItems noskip fr)

/-- The groups that have a live item. -/
def liveGroups (groups : List (List LaneItem)) : List Nat :=
  (List.range groups.length).filter (fun j => !(nth [] groups j).isEmpty)

/-- One pass of a TLA or GATE tile (R64 to R96): `fs` and `toks` the formats and images of the tokens, `w e r j` the patched
byte of engine `e`'s row `r` and group `j`, `mask` the row mask, `q` the replays made, `items` and `stall` as in
`enginePass`. -/
def tlaPass (fs : List Fmt) (rows ne q : Nat) (noskip : Bool) (mask : List Bool) (toks : List Img)
    (w : Nat → Nat → Nat → Nat) (items : Nat → List FeedItem) (stall : Nat → Nat) : PassRun :=
  let fr := passFronts fs q toks
  let groups := passGroups noskip fr
  let lanes := dealLanes groups
  let es := (List.range (usedEngines rows ne)).map (fun e =>
    let rs := shareLive rows ne e mask
    (rs, enginePass lanes toks.length (shareAll rows ne e) rs (w e) (items e) stall))
  let clamp := (es.map (·.2.clamp)).foldl clampMin none
  { out :=
      { abandon := clamp.map (fun c => (c.1 + 2, c.2))
        ks := fr.map (fun x => (x.base : Int) - 127)
        sums := (List.range toks.length).map (fun t =>
          placeRows 0 rows (es.map (fun p => (p.1, nth [] p.2.sums t))))
        sig := (List.range toks.length).map (fun t =>
          placeRows fvZero rows ((List.range es.length).map (fun e =>
            let rs := shareLive rows ne e mask
            (rs, rs.map (fun r => sigma (w e r) (nth ⟨[], [], [], 0⟩ toks t).vals fvZero)))))
        badScale := natSum (fr.map (·.badScale))
        cycles := natMax (es.map (fun p => p.2.fin + toks.length * p.2.l + 2)) }
    engs := es.map (·.2)
    skip := natSum (fs.map fmtPlanes) * groups.length - natSum (groups.map List.length)
    align := natSum (fr.map (·.lost))
    metaErr := natSum (toks.map (·.metaErr)) }

/-- One pass of an XNP tile (R87, R88). -/
def xnpTile (rows ne elems : Nat) (mask : List Bool) (act : List Nat) (w : Nat → Nat → Nat → Nat)
    (items : Nat → List FeedItem) (stall : Nat → Nat) : PassRun :=
  let es := (List.range (usedEngines rows ne)).map (fun e =>
    let rs := shareLive rows ne e mask
    (rs, xnpPass elems act rs (w e) (items e) stall))
  { out :=
      { abandon := none
        ks := [0]
        sums := [placeRows 0 rows (es.map (fun p => (p.1, nth [] p.2.sums 0)))]
        sig := [List.replicate rows fvZero]
        badScale := 0
        cycles := natMax (es.map (fun p => p.2.fin + p.2.l + 2)) }
    engs := es.map (·.2), skip := 0, align := 0, metaErr := 0 }

/-! ### Destinations (R79 to R85, R114) -/

/-- A signed value shifted right by `sh`, its magnitude rounded to nearest even (R81). -/
def shiftInt (v : Int) (sh : Nat) : Int :=
  let m : Int := roundShift .rne v.natAbs sh
  if v < 0 then -m else m

/-- What a destination write gives: the bytes from the destination's first byte, the same for SATDST, the clamped rows
(R81), and each written element's events (R59). -/
structure DestOut where
  dst : List Byte
  satdst : List Byte
  dsat : Nat
  evs : List (Bool × Bool)
  deriving DecidableEq, Repr

/-- A signed 32-bit sum as 4 bytes. -/
def sumBytes (v : Int) : List Byte := leBytes 4 (codeOf 32 v)

/-- An accumulator block written under OVERWRITE (R79, R80, R85). -/
def blockOver (k : Int) (sums : List Int) : List Byte :=
  leBytes 2 (codeOf 16 k) ++ leBytes 14 0 ++ sums.flatMap sumBytes

/-- An accumulator block added into under ADD_I32: the bytes and the clamped rows (R81, R85). -/
def blockAdd (old : List Byte) (k : Int) (sums : List Int) (mask : List Bool) : List Byte × Nat :=
  let kd := signedOf 16 (leNat (old.take 2))
  let kk := max kd k
  let rs := (List.range sums.length).map (fun r =>
    let d := shiftInt (signedOf 32 (leNat ((old.drop (16 + 4 * r)).take 4))) (kk - kd).toNat
    if nth true mask r then satAdd d (shiftInt (nth 0 sums r) (kk - k).toNat) else (d, false))
  (leBytes 2 (codeOf 16 kk) ++ leBytes 14 0 ++ rs.flatMap (fun p => sumBytes p.1), (rs.filter (·.2)).length)

/-- An F32 read from a byte string at byte `o`. -/
def f32At (bs : List Byte) (o : Nat) : FV := fvOf (BitVec.ofNat 32 (leNat ((bs.drop o).take 4)))

/-- An F32 value as 4 bytes. -/
def f32Bytes (x : FV) : List Byte := leBytes 4 x.b.toNat

/-- The destination writes of a TLA or XNP pass. `acc` is 0 OVERWRITE, 1 ADD_I32, 2 ADD_F32; `old` and `oldSat` are the
present bytes of the destination and of SATDST; `useSat` says that SATDST is named. -/
def tlaDest (acc rows : Nat) (useSat : Bool) (mask : List Bool) (p : PassOut) (old oldSat : List Byte) : DestOut :=
  let tn := p.ks.length
  let live := fun r => nth true mask r
  let blk := 16 + 4 * rows
  let k := fun t => nth 0 p.ks t
  let row := fun t r => nth 0 (nth [] p.sums t) r
  let sg := fun t r => nth fvZero (nth [] p.sig t) r
  let satd : List (FV × Bool) :=
    if useSat then
      (List.range rows).flatMap (fun r => (List.range tn).map (fun t =>
        if acc = 0 then (if live r then (sg t r, true) else (fvZero, false))
        else
          let o := f32At oldSat (4 * (r * tn + t))
          if live r then (fAdd o (sg t r), true) else (o, false)))
    else []
  let satEv := (satd.filter (·.2)).map (fun x => (x.1.sat, x.1.nan))
  match acc with
  | 0 =>
    ⟨(List.range tn).flatMap (fun t => blockOver (k t) ((List.range rows).map (fun r => if live r then row t r else 0))),
     satd.flatMap (fun x => f32Bytes x.1), 0, satEv⟩
  | 1 =>
    let bs := (List.range tn).map (fun t =>
      blockAdd ((old.drop (t * blk)).take blk) (k t) ((List.range rows).map (row t)) mask)
    ⟨bs.flatMap (·.1), satd.flatMap (fun x => f32Bytes x.1), natSum (bs.map (·.2)), satEv⟩
  | _ =>
    let vs := (List.range tn).flatMap (fun t => (List.range rows).map (fun r =>
      let o := f32At old (4 * (rows * t + r))
      if live r then (fAdd o (fAdd (fOfInt (row t r) (k t)) (sg t r)), true) else (o, false)))
    ⟨vs.flatMap (fun x => f32Bytes x.1), [], 0, (vs.filter (·.2)).map (fun x => (x.1.sat, x.1.nan))⟩

/-- A bit string of row bits, low bit first (R114). -/
def bitBytes (l : List Bool) : List Byte := pack 1 (l.map b2n)

/-- A GATE record (R114 to R116): the mask, in an audit all ones with the prediction beside it. A row whose value is a
NaN is not at or above the threshold. -/
def gateDest (rows : Nat) (audit : Bool) (thr : W32) (mask : List Bool) (p : PassOut) : DestOut :=
  let ys := (List.range rows).map (fun r =>
    (nth true mask r, fAdd (fOfInt (nth 0 (nth [] p.sums 0) r) (nth 0 p.ks 0)) (nth fvZero (nth [] p.sig 0) r)))
  let pred := ys.map (fun y => y.1 && fGe y.2.b thr)
  let evs := (ys.filter (·.1)).map (fun y => (y.2.sat, y.2.nan))
  let hdr := leBytes 1 (b2n audit) ++ leBytes 7 0
  if audit then ⟨hdr ++ bitBytes (List.replicate rows true) ++ bitBytes pred, [], 0, evs⟩
  else ⟨hdr ++ bitBytes pred, [], 0, evs⟩

end Sys2Proof.Machine
end

