-- ==== Sys2Proof/Machine/Precision.lean ====
section
/-! DEFINITION. Stochastic rounding (R109 to R113) and QNT as a pure function: outliers, slots, policies, rescale and
fallback, one write (R53, R54, R60, R97 to R100, R603). -/

namespace Sys2Proof.Machine

/-! ### The generator (R109, R110) -/

/-- The mixer of R109. -/
def mix64 (x : Word) : Word :=
  let x := (x ^^^ (x >>> 30)) * 0xBF58476D1CE4E5B9#64
  let x := (x ^^^ (x >>> 27)) * 0x94D049BB133111EB#64
  x ^^^ (x >>> 31)

/-- One 64-bit word of a stream (R109). -/
def rngWord (seed : Word) (stream ctr : Nat) : Word :=
  let key := mix64 (seed ^^^ BitVec.ofNat 64 (stream % 2 ^ 32))
  mix64 (key + BitVec.ofNat 64 ctr * 0x9E3779B97F4A7C15#64)

/-- The 16-bit draw of element `n` of an operation with counter base `c0` (R109). -/
def rngDraw (seed : Word) (stream c0 n : Nat) : Nat :=
  ((rngWord seed stream ((c0 + n / 4) % 2 ^ 48)).toNat >>> (16 * (n % 4))) % 65536

/-- The random-number context that an operation takes at issue (R110, R113). -/
structure Rng where
  stoch : Bool
  seed : Word
  stream : Nat
  c0 : Nat
  len : Nat
  deriving DecidableEq, Repr

/-- No stochastic rounding. -/
def rngNone : Rng := ⟨false, 0, 0, 0, 0⟩

/-- The rounding of element `n` of an operation. -/
def rngAt (g : Rng) (n : Nat) : Rnd := if g.stoch then .stoch (rngDraw g.seed g.stream g.c0 n) else .rne

/-- The hardware-derived stream ID of a cluster, unit and slot (R111). -/
def streamId (c unit slot : Nat) : Nat := c * 2 ^ 21 + unit * 2 ^ 16 + slot * 2 ^ 14

/-- Two counter ranges modulo 2^48 overlap (R113). -/
def ctrOverlap (a n b m : Nat) : Bool :=
  decide (0 < n) && decide (0 < m) &&
    (decide ((b + 2 ^ 48 - a % 2 ^ 48) % 2 ^ 48 < n) || decide ((a + 2 ^ 48 - b % 2 ^ 48) % 2 ^ 48 < m))

/-! ### QNT -/

/-- One source element of QNT: its F32 value, and the satellite value of a source marker (R60, R98). -/
structure QEl where
  v : FV
  mark : Option Nat
  deriving DecidableEq, Repr

/-- The calibration of one element: its static bit, and its group's BF16 bound (R97). -/
structure QCal where
  st : Bool
  bound : Nat
  deriving DecidableEq, Repr

/-- How QNT sees one element: no outlier, an outlier with a satellite slot, or an excess outlier (R98). -/
inductive Place where
  | plain | slot | excess
  deriving DecidableEq, Repr

/-- The magnitude order of dynamic outliers: larger first, ties to the lower index (R98). -/
def magAbove (x y : Nat × FNum) : Bool :=
  let a := x.2
  let b := y.2
  !(dyLe a.m a.e b.m b.e) || (dyLe a.m a.e b.m b.e && dyLe b.m b.e a.m a.e && decide (x.1 < y.1))

/-- Is the element a static or a dynamic outlier (R97, R98)? -/
def outlierKind (x : QEl) (c : Option QCal) : Bool × Bool :=
  let a := f32Read x.v.b
  match x.mark, c with
  | some _, _ => (true, false)
  | none, none => (false, false)
  | none, some c =>
    if c.st then (true, false)
    else
      let b := f32Read (bf16ToF32 c.bound)
      (false, !a.isNan && !b.isNan && !b.neg && b.m != 0 && !(dyLe a.m a.e b.m b.e))

/-- Slots given in order within one tile: at most 4 values a block and 64 a tile (R91, R98). -/
def giveSlots : List Nat → Tab Nat → Nat → List (Nat × Place)
  | [], _, _ => []
  | i :: is, blk, held =>
    let b := i / 64
    if held ≥ 64 || tabGet 0 blk b ≥ 4 then (i, .excess) :: giveSlots is blk held
    else (i, .slot) :: giveSlots is (tabSet blk b (tabGet 0 blk b + 1)) (held + 1)

/-- The slot assignment of a whole vector (R98); `cap` is false where the destination carries no stream (R97). -/
def assignSlots (cap : Bool) (xs : List QEl) (cal : List QCal) : List Place :=
  let n := xs.length
  let kinds := (List.range n).map (fun i =>
    let x := nth ⟨fvZero, none⟩ xs i
    (i, f32Read x.v.b, outlierKind x (cal[i]?)))
  let order := (List.range (satTiles n)).flatMap (fun t =>
    let mine := kinds.filter (fun k => k.1 / 4096 == t)
    let st := (mine.filter (fun k => k.2.2.1)).map (·.1)
    let dy := sortBy magAbove ((mine.filter (fun k => k.2.2.2)).map (fun k => (k.1, k.2.1)))
    let all := st ++ dy.map (·.1)
    if cap then giveSlots all [] 0 else all.map (fun i => (i, Place.excess)))
  let t : Tab Place := order.foldl (fun t p => tabSet t p.1 p.2) []
  (List.range n).map (fun i => tabGet .plain t i)

/-- The largest magnitude of a group among the elements that enter its scale (R53): unslotted, no NaN, and an excess
outlier only where `inc` says so. -/
def groupMax (inc : Bool) : List (QEl × Place) → Nat × Int → Nat × Int
  | [], a => a
  | (x, p) :: l, a =>
    let f := f32Read x.v.b
    let enters := !f.isNan && p != .slot && (p == .plain || inc)
    groupMax inc l (if enters && !(dyLe f.m f.e a.1 a.2) then (f.m, f.e) else a)

/-- One written element of a QNT attempt: the element, its events, and whether it is an excess outlier clamped to M. -/
structure QOut where
  el : El
  sat : Bool
  nan : Bool
  clamp : Bool
  val : Option Nat
  deriving DecidableEq, Repr

/-- One quantised element (R58, R60, R98, R99). `e8` is its group's scale, `inc` says that its group's excess outliers
are quantised as ordinary elements, `ginf` that an infinite or saturated element entered the group's scale (R59). -/
def quantEl (f : Fmt) (r : Rnd) (e8 : Nat) (inc ginf : Bool) (x : QEl) (p : Place) : QOut :=
  let a := f32Read x.v.b
  if p = .slot then
    let c : Code := match x.mark with
      | some v => ⟨v, x.v.sat, x.v.nan⟩
      | none => f32ToBf16 r x.v
    ⟨elMark, c.sat, c.nan, false, some c.c⟩
  else
    let sat := x.v.sat || a.inf || ginf
    if a.isNan then ⟨⟨false, false, 0⟩, sat, true, false, none⟩
    else if e8 = 255 then ⟨⟨false, false, 0⟩, sat, x.v.nan, false, none⟩
    else
      let m := roundUnit r a.m a.e ((e8 : Int) - 127)
      let big := decide (m > fmtMax f)
      let m' := if big then fmtMax f else m
      let ex := p == .excess && !inc
      ⟨⟨false, a.neg && m' != 0, m'⟩, sat || (big && !ex), x.v.nan, big && ex, none⟩

/-- What QNT writes and counts. -/
structure QntOut where
  fmt : Fmt
  els : List El
  e8 : List Nat
  vals : List (Nat × Nat)
  fallback : Bool
  rescaled : Bool
  excess : Nat
  clamped : Nat
  evs : List (Bool × Bool)
  deriving DecidableEq, Repr

/-- One attempt of QNT in format `f`: scales by R53 or supplied (R54), then every element. `inc g` says that group `g`
takes its excess outliers in. `bad g` marks a source group whose E8 was 0xFF. -/
def qntAttempt (f : Fmt) (g : Rng) (xs : List QEl) (pl : List Place) (sup : Option (List Nat)) (bad : List Nat)
    (inc : Nat → Bool) : List QOut × List Nat :=
  let grps := chunks 32 (xs.zip pl)
  let scales := (List.range grps.length).map (fun i =>
    if bad.contains i then (255, false)
    else
      match sup with
      | some s => (nth 0 s i, false)
      | none =>
        let gl := nth [] grps i
        let a := groupMax (inc i) gl (0, 0)
        (chooseE8 (fmtMax f) a.1 a.2,
         gl.any (fun p => ((f32Read p.1.v.b).inf || p.1.v.sat) && p.2 != .slot && (p.2 == .plain || inc i))))
  let outs := (List.range xs.length).map (fun i =>
    let s := nth (0, false) scales (i / 32)
    quantEl f (rngAt g i) s.1 (inc (i / 32)) s.2 (nth ⟨fvZero, none⟩ xs i) (nth .plain pl i))
  (outs, scales.map (fun s => if s.1 = 255 then 0 else s.1))

/-- The next wider activation format (R98). -/
def widerFmt (f : Fmt) : Fmt :=
  match f with
  | .a2 => .a4
  | .a4 => .a8
  | x => x

/-- QNT into A2, A4 or A8 (R97 to R100). -/
def qntRun (tf fmax : Fmt) (fallbackPol cap : Bool) (thr : Nat) (g : Rng) (xs : List QEl) (cal : List QCal)
    (sup : Option (List Nat)) (bad : List Nat) : QntOut :=
  let pl := assignSlots cap xs cal
  let exc := (pl.filter (fun p => p == .excess)).length
  let exGroups := uniq (((List.range xs.length).filter (fun i => nth .plain pl i == .excess)).map (fun i => i / 32))
  let fb := fallbackPol && decide (0 < exc) && decide (fmtBits tf < fmtBits fmax)
  let rs := !fb && decide (exc > thr) && thr != 65535 && sup.isNone
  let f := if fb then widerFmt tf else tf
  let inc := fun i => fb || (rs && exGroups.contains i)
  let (outs, e8) := qntAttempt f g xs pl sup bad inc
  { fmt := f
    els := outs.map (·.el)
    e8 := e8
    vals := (List.range outs.length).flatMap (fun i =>
      match (nth ⟨elMark, false, false, false, none⟩ outs i).val with
      | some v => [(i, v)]
      | none => [])
    fallback := fb
    rescaled := rs
    excess := exc
    clamped := (outs.filter (·.clamp)).length
    evs := outs.map (fun o => (o.sat, o.nan)) }

/-- The elements of a source image as QNT takes them: exact values, and each marker a static outlier with its satellite value, which
is 0 where the source carries no stream (R60, R98). -/
def imgEls (img : Img) : List QEl :=
  (List.range img.els.length).map (fun j =>
    let x := nth elMark img.els j
    if x.mark then ⟨fvOf (bf16ToF32 (satVal img.vals j)), some (satVal img.vals j)⟩
    else ⟨elValue x (nth 0 img.e8 (j / 32)), none⟩)

/-- QNT from A2 or A4 to a wider format, and between the two forms of A4 (R49, R54, R60): the same values and scales. Slots are
assigned as in any QNT (R97, R98), so that a marker stays a marker while it holds one, and an outlier without one goes into the
main path against the source's scale (log entry 11). -/
def qntWiden (tf fmax : Fmt) (fallbackPol cap : Bool) (g : Rng) (img : Img) (cal : List QCal) : QntOut :=
  let xs := imgEls img
  let n := xs.length
  let pl := assignSlots cap xs cal
  let exc := (pl.filter (fun p => p == .excess)).length
  let fb := fallbackPol && decide (0 < exc) && decide (fmtBits tf < fmtBits fmax)
  let f := if fb then widerFmt tf else tf
  let outs := (List.range n).map (fun i =>
    let x := nth elMark img.els i
    let e := nth 0 img.e8 (i / 32)
    let p := nth Place.plain pl i
    if x.mark || p == .slot then quantEl f (rngAt g i) e fb false (nth ⟨fvZero, none⟩ xs i) p
    else (⟨if e = 255 then ⟨false, false, 0⟩ else x, false, false, false, none⟩ : QOut))
  { fmt := f
    els := outs.map (·.el)
    e8 := img.e8.map (fun x => if x = 255 then 0 else x)
    vals := (List.range n).flatMap (fun i =>
      match (nth ⟨elMark, false, false, false, none⟩ outs i).val with
      | some v => [(i, v)]
      | none => [])
    fallback := fb
    rescaled := false
    excess := exc
    clamped := (outs.filter (·.clamp)).length
    evs := outs.map (fun o => (o.sat, o.nan)) }

/-- Data and scales, and the stream, of a written image (R164). -/
def qntBytes (o : QntOut) (cap : Bool) : List Byte × List Byte :=
  let n := o.els.length
  (dataBytes o.fmt (o.els.map (elCode o.fmt)) ++ scaleBytes o.fmt n o.e8,
   if cap then writeStream o.fmt n o.fallback o.rescaled o.vals else [])

/-- Does a QNT from `sf` to `tf` copy values exactly (R60)? -/
def qntIsWiden (sf tf : Fmt) : Bool :=
  fmtIsAct sf && fmtIsAct tf &&
    (decide (fmtBits sf < fmtBits tf) || (sf == .a4 && tf == .a4o) || (sf == .a4o && tf == .a4))

/-! ### ACT and NRM (R167) -/

/-- One ACT function applied in F32 (R166, R167). -/
def actFn (fn : Nat) (x y : FV) : FV :=
  let a := f32Read x.b
  let sat := x.sat || a.inf
  let silu : FV :=
    if a.isNan then fvNaN sat
    else ⟨ulpMove (siluRef a) (max (-4) (min 4 (Config.siluUlp x.b))), sat, x.nan⟩
  match fn with
  | 0 => if a.isNan then fvNaN sat else fvWrite a.neg a.m a.e sat x.nan
  | 1 => silu
  | 2 =>
    if a.isNan then fvNaN sat
    else ⟨ulpMove (geluRef a) (max (-4) (min 4 (Config.geluUlp x.b))), sat, x.nan⟩
  | 3 => if a.isNan then fvNaN sat else if a.neg && a.m != 0 then ⟨0, sat, x.nan⟩ else fvWrite a.neg a.m a.e sat x.nan
  | 4 => fAdd x y
  | _ => fMul silu y

/-- The sum of R167: element i to accumulator i mod 64 in ascending i. -/
def sum64 : List FV → List FV → Nat → List FV
  | [], acc, _ => acc
  | x :: xs, acc, i => sum64 xs (listSet acc (i % 64) (fAdd (nth fvZero acc (i % 64)) x)) (i + 1)

/-- One level of the balanced tree: neighbours are paired. -/
def pairUp : List FV → List FV
  | a :: b :: l => fAdd a b :: pairUp l
  | l => l

/-- The fixed-order sum of R167. -/
def nrmSum (xs : List FV) : FV :=
  let a := sum64 xs (List.replicate 64 fvZero) 0
  nth fvZero (pairUp (pairUp (pairUp (pairUp (pairUp (pairUp a)))))) 0

/-- The reciprocal square root of R57 and R167. -/
def fRsqrt (x : FV) : FV :=
  let a := f32Read x.b
  let sat := x.sat || a.inf
  if a.isNan then fvNaN sat
  else if a.m = 0 then ⟨f32Max a.neg, true, x.nan⟩
  else if a.neg then fvNaN sat
  else ⟨ulpMove (rsqrtRef a.m a.e) (max (-2) (min 2 (Config.rsqrtUlp x.b))), sat, x.nan⟩

/-- NRM over a vector (R166, R167): `layer` selects layer normalisation, `w` the per-element multiplier. -/
def nrmRun (layer : Bool) (eps : W32) (xs : List FV) (w : Option (List FV)) : List FV :=
  let cnt := fOfInt xs.length 0
  let xs := if layer then
      let mean := fDiv (nrmSum xs) cnt
      xs.map (fun x => fSub x mean)
    else xs
  let v := fDiv (nrmSum (xs.map (fun x => fMul x x))) cnt
  let r := fRsqrt (fAdd v (fvOf eps))
  match w with
  | none => xs.map (fun x => fMul x r)
  | some w => (xs.zip w).map (fun p => fMul (fMul p.1 r) p.2)

end Sys2Proof.Machine
end

