-- ==== Sys2Proof/Machine/AttMath.lean ====
section
/-! DEFINITION. The arithmetic of the attention unit as pure functions: query alignment, scores, soft maximum, value
stage, outputs, partial records and their merge (R193, R198 to R205, R213, R223, R242 to R244). -/

namespace Sys2Proof.Machine

/-! ### exp2 (R202) -/

/-- Fixed-point `2^(-1/256)` with 256 fraction bits: eight square roots of one half. -/
def exp2Step : Nat :=
  let s := fun (x : Nat) => isqrt (x * 2 ^ 256)
  s (s (s (s (s (s (s (s (2 ^ 255))))))))

/-- Fixed-point `2^(-j/256)`. -/
def exp2Pow : Nat → Nat
  | 0 => 2 ^ 256
  | j + 1 => exp2Pow j * exp2Step / 2 ^ 256

/-- The table entry F[j] of R202: `2^15 * 2^(-j/256)` rounded to nearest even. -/
def exp2F (j : Nat) : Nat := roundShift .rne (exp2Pow j) 241

/-- `exp2(x)` for `x` at most 0 (R202). A NaN gives the NaN of R57; a value above 0 is taken at 0 (log entry 12). -/
def fExp2 (x : FV) : FV :=
  let a := f32Read x.b
  if a.isNan then fvNaN (x.sat || a.inf)
  else
    let sh := a.e + 8
    let t : Nat := if !a.neg then 0 else if 0 ≤ sh then (if sh > 20 then 2 ^ 20 else a.m <<< sh.toNat) else a.m >>> (-sh).toNat
    let i := t / 256
    let sat := x.sat || a.inf
    if i ≥ 32 then ⟨0, sat, x.nan⟩ else fvWrite false (exp2F (t % 256)) (-15 - (i : Int)) sat x.nan

/-! ### Queries (R193) -/

/-- One aligned query head: the integers q_i, E_q, the exact values, Q_sum, and the events of the exact values. -/
structure QHead where
  qi : List Int
  eq : Nat
  qf : List FV
  qsum : Int
  deriving DecidableEq, Repr

/-- Alignment of one head, and the elements whose shift discarded bits (R193). -/
def qAlign (els : List El) (e8 : List Nat) : QHead × Nat :=
  let eq := e8Top (validE8 e8)
  let al := (List.range els.length).map (fun i => alignEl (nth elMark els i) (nth 0 e8 (i / 32)) eq)
  let qf := (List.range els.length).map (fun i =>
    let x := nth elMark els i
    if x.mark then fvZero else elValue x (nth 0 e8 (i / 32)))
  (⟨al.map (·.1), eq, qf, (al.map (·.1)).foldl (· + ·) 0⟩, (al.filter (·.2)).length)

/-! ### Rows (R199, R204, R213) -/

/-- One row of one KV head as the unit reads it: codes with channels and stray markers read as 7, the two exponents, and
the satellite value of each channel. -/
structure KvRow where
  ck : List Nat
  cv : List Nat
  ek : Nat
  ev : Nat
  sat : List (Nat × Nat)
  deriving DecidableEq, Repr

/-- The satellite values of the channels of one row, and the inconsistencies (R93, R213): block `b` of the dimension
blocks, its values starting at `start`. -/
def kvSat (rec : List Byte) (chs : List Nat) : Nat → Nat → Nat → List (Nat × Nat) × Nat
  | 0, _, _ => ([], 0)
  | nb + 1, b, start =>
    let c0 := nth 0 (unpack 4 (rec.take 2)) b
    let c := if c0 > 4 then 0 else c0
    let mine := chs.filter (fun d => d / 64 == b)
    let here := (List.range mine.length).map (fun k =>
      let v := start + k
      if c ≤ k || 4 ≤ v then (nth 0 mine k, 0, true)
      else (nth 0 mine k, leNat ((rec.drop (8 + 2 * v)).take 2), false))
    let (l, x) := kvSat rec chs nb (b + 1) (start + c)
    (here.map (fun h => (h.1, h.2.1)) ++ l,
     x + (here.filter (fun h => h.2.2)).length + b2n (decide (c0 > 4)) + b2n (decide (mine.length < c)))

/-- A row from its bytes: K codes, V codes, the two scales and the satellite record; with it the counts of
CLU_SATL_META and CLU_FMT_SCALE that the read makes (R199, R200, R203, R204, R604). -/
def kvRow (d : Nat) (chs : List Nat) (k v : List Byte) (ek ev : Nat) (rec : List Byte) : KvRow × Nat × Nat :=
  let kc := padTo 0 d (unpack 4 k)
  let vc := padTo 0 d (unpack 4 v)
  let ck := (List.range d).map (fun i =>
    let c := nth 0 kc i
    if chs.contains i then (7, false) else if c = 15 then (7, true) else (c, false))
  let cv := vc.map (fun c => if c = 15 then (7, true) else (c, false))
  let (sat, x) := kvSat rec chs (d / 64) 0 0
  (⟨ck.map (·.1), cv.map (·.1), ek, ev, sat⟩,
   (ck.filter (·.2)).length + (cv.filter (·.2)).length + x,
   b2n (decide (ek = 255)) + b2n (decide (ev = 255)))

/-! ### Scores (R198 to R200) -/

/-- The score table entry of one dimension group at index `x` (R198). -/
def scoreEntry (q : List Int) (x : Nat) : Int :=
  ((List.range 4).map (fun i => nth 0 q i * ((x >>> (2 * i)) % 4 : Nat))).foldl (· + ·) 0

/-- The index of four codes in plane `p` (R199, R204). -/
def planeIndex (p : Nat) (c : List Nat) : Nat :=
  natSum ((List.range 4).map (fun i => (nth 0 c i >>> (2 * p)) % 4 * 4 ^ i))

/-- The integer score of R199. -/
def intScore (q : QHead) (ck : List Nat) : Int :=
  let gs := (chunks 4 q.qi).zip (chunks 4 ck)
  ((gs.map (fun g => scoreEntry g.1 (planeIndex 0 g.2) + 4 * scoreEntry g.1 (planeIndex 1 g.2))).foldl (· + ·) 0) -
    7 * q.qsum

/-- The score of one position (R200). -/
def fScore (q : QHead) (r : KvRow) : FV :=
  let t := if r.ek = 255 then fvZero else fOfInt (intScore q r.ck) ((r.ek : Int) + q.eq - 254)
  r.sat.foldl (fun a c => fAdd a (fMul (nth fvZero q.qf c.1) (fvOf (bf16ToF32 c.2)))) t

/-! ### Soft maximum and values (R201 to R204) -/

/-- One head's running state: maximum (none while unset), sum, output, and the events that entered the whole head. -/
structure HeadSt where
  m : Option W32
  l : FV
  o : List FV
  sat : Bool
  nan : Bool
  deriving DecidableEq, Repr

/-- The head at the start of a pass. -/
def headInit (d : Nat) : HeadSt := ⟨none, fvZero, List.replicate d fvZero, false, false⟩

/-- The largest score of a block that is no NaN (R201; log entry 12). -/
def blockMax (ss : List FV) : Option W32 :=
  ss.foldl (fun a s =>
    if (f32Read s.b).isNan then a
    else match a with
      | none => some s.b
      | some x => if fLt x s.b then some s.b else some x) none

/-- The code RNE(255 * p * 2^k) of R203. -/
def weightCode (p : FV) (k : Int) : Nat :=
  let a := f32Read p.b
  roundUnit .rne (255 * a.m) (a.e + k) 0

/-- The value table entry of four places at index `x` (R204). -/
def valueEntry (u : List Nat) (x : Nat) : Nat :=
  natSum ((List.range 4).map (fun n => nth 0 u n * ((x >>> (2 * n)) % 4)))

/-- The block's sum for one dimension (R204): `u` and `c` over the eight places. -/
def blockZ (u c : List Nat) : Int :=
  let part := fun (k : Nat) =>
    let uk := (u.drop (4 * k)).take 4
    let ck := padTo 7 4 ((c.drop (4 * k)).take 4)
    valueEntry uk (planeIndex 0 ck) + 4 * valueEntry uk (planeIndex 1 ck)
  ((part 0 + part 1 : Nat) : Int) - 7 * (natSum u : Nat)

/-- The counts that a block adds: rescales and mixed V scales (R209). -/
structure BlkCount where
  rescale : Nat
  valign : Nat
  deriving DecidableEq, Repr

/-- One block of one head (R201 to R204): the attended rows of the block. A position's weight is a power of two of its score, by
`fExp2` (R194, R202); the factor to e is software's. The weight codes of a position whose score is NaN are 0 (DEDUCED, log entry
12). -/
def attBlock (q : QHead) (rows : List KvRow) (h : HeadSt) : HeadSt × BlkCount :=
  let ss := rows.map (fScore q)
  let mb := blockMax ss
  let resc := match h.m, mb with
    | some m, some b => fLt m b
    | _, _ => false
  let m' := match h.m, mb with
    | none, b => b
    | some m, some b => if fLt m b then some b else some m
    | some m, none => some m
  let r := match h.m, mb with
    | some m, some b => fExp2 (fSub (fvOf m) (fvOf b))
    | _, _ => fvOf 0x3F800000
  let l := if resc then fMul h.l r else h.l
  let o := if resc then h.o.map (fun x => fMul x r) else h.o
  let ps := ss.map (fun s =>
    match m' with
    | none => fvZero
    | some m => if (f32Read s.b).isNan then ⟨0, s.sat, s.nan⟩ else fExp2 (fSub s (fvOf m)))
  let eref := e8Top (validE8 (rows.map (·.ev)))
  let u0 := ps.map (fun p => weightCode p 0)
  let u := (ps.zip rows).map (fun p => if p.2.ev = 255 then 0 else weightCode p.1 ((p.2.ev : Int) - eref))
  let up := padTo 0 8 u
  let o' := (List.range o.length).map (fun d =>
    fAdd (nth fvZero o d) (fOfInt (blockZ up (padTo 7 8 (rows.map (fun x => nth 7 x.cv d)))) ((eref : Int) - 127)))
  (⟨m', fAdd l (fOfInt (natSum u0 : Nat) 0), o',
    h.sat || ps.any (·.sat) || ss.any (·.sat), h.nan || ss.any (·.nan)⟩,
   ⟨b2n resc, (rows.filter (fun x => x.ev != 255 && decide (x.ev < eref))).length⟩)

/-- All blocks of one page for one head. -/
def attBlocks (q : QHead) : List (List KvRow) → HeadSt × BlkCount → HeadSt × BlkCount
  | [], a => a
  | b :: bs, (h, c) =>
    let (h', c') := attBlock q b h
    attBlocks q bs (h', ⟨c.rescale + c'.rescale, c.valign + c'.valign⟩)

/-! ### Output (R205) -/

/-- The written values of one head under F32 or BF16 (R205): the values before conversion. -/
def headValues (h : HeadSt) : List FV :=
  let empty := (f32Read h.l.b).m == 0 && !(f32Read h.l.b).isNan
  h.o.map (fun x =>
    let y := if empty then ⟨0, x.sat, x.nan⟩ else fDiv x h.l
    ⟨y.b, y.sat || h.sat, y.nan || h.nan⟩)

/-- Was nothing attended: l is +0.0 (R205)? -/
def headEmpty (h : HeadSt) : Bool := h.l.b == 0

/-- One head's bytes in OUT and each written element's events (R205); `i0` is the index of its first element. -/
def headOut (f : Option Fmt) (g : Rng) (i0 : Nat) (h : HeadSt) : List Byte × List (Bool × Bool) :=
  match f with
  | some .bf16 =>
    let cs := (List.range h.o.length).map (fun d => f32ToBf16 (rngAt g (i0 + d)) (nth fvZero (headValues h) d))
    (cs.flatMap (fun c => leBytes 2 c.c), cs.map (fun c => (c.sat, c.nan)))
  | some .f32 =>
    let vs := headValues h
    (vs.flatMap f32Bytes, vs.map (fun v => (v.sat, v.nan)))
  | _ =>
    let m : W32 := if headEmpty h then 0xFF7FFFFF else h.m.getD 0xFF7FFFFF
    (leBytes 4 m.toNat ++ f32Bytes h.l ++ leBytes 8 0 ++ h.o.flatMap f32Bytes,
     (h.sat, h.nan) :: (h.sat || h.l.sat, h.nan || h.l.nan) ::
       h.o.map (fun v => (v.sat || h.sat, v.nan || h.nan)))

/-! ### Quantising a KV row (R223) -/

/-- The codes and exponent of one row of one head, and each element's events: `chs` are the satellite channels. -/
def kvQuant (chs : List Nat) (rnd : Nat → Rnd) (xs : List FV) : List Nat × Nat × List (Bool × Bool) :=
  let dims := List.range xs.length
  let a := dims.foldl (fun (a : Nat × Int) i =>
    let f := f32Read (nth fvZero xs i).b
    if chs.contains i || f.isNan || dyLe f.m f.e a.1 a.2 then a else (f.m, f.e)) (0, 0)
  let e := chooseE8 7 a.1 a.2
  let ginf := dims.any (fun i => !chs.contains i && (f32Read (nth fvZero xs i).b).inf)
  let outs := dims.map (fun i =>
    let x := nth fvZero xs i
    if chs.contains i then
      let c := f32ToBf16 .rne x
      (15, c.sat, c.nan)
    else
      let q := quantEl .a4o (rnd i) e false ginf ⟨x, none⟩ .plain
      (elCode .a4o q.el, q.sat, q.nan))
  (outs.map (·.1), e, outs.map (fun o => (o.2.1, o.2.2)))

/-- The satellite record of a row (R213): block counts and channel values. -/
def kvSatRec (d : Nat) (chs : List Nat) (xs : List FV) : List Byte :=
  let cnt := (List.range (d / 64)).map (fun b => (chs.filter (fun c => c / 64 == b)).length)
  let vals := chs.map (fun c => (f32ToBf16 .rne (nth fvZero xs c)).c)
  pack 4 (padTo 0 4 cnt) ++ leBytes 6 0 ++ pack 16 (padTo 0 4 vals)

/-! ### Merging (R242 to R244) -/

/-- The smallest BF16 value that is not below an F32 value (R242). -/
def bf16Above (x : W32) : Nat :=
  let a := f32Read x
  if a.isNan then 0x7FC0
  else
    let t := x.toNat / 65536
    if a.m = 0 then t / 32768 * 32768
    else if x.toNat % 65536 = 0 then min t (if a.neg then 0xFF7F else 0x7F7F)
    else if a.neg then min t 0xFF7F
    else min (t + 1) 0x7F7F

/-- The values that one head's MRG message carries, each with its events: the maximum rounded up, the sum, the outputs (R59,
R242). -/
def mrgCodes (dim : Nat) (rec : List Byte) : List Code :=
  let m := (f32At rec 0).b
  let a := f32Read m
  let mt := bf16Above m
  let s := fExp2 (fSub (fvOf m) (fvOf (bf16ToF32 mt)))
  let cv := fun (o : Nat) => f32ToBf16 .rne (fMul (f32At rec o) s)
  let tooBig := !a.neg && decide (0x7F7F0000 < m.toNat)
  ⟨mt, a.inf || (tooBig && !a.isNan), a.isNan⟩ :: cv 4 :: (List.range dim).map (fun d => cv (16 + 4 * d))

/-- One head's MRG message: 8 + 2 DIM bytes (R242). -/
def mrgMessage (dim : Nat) (rec : List Byte) : List Byte :=
  match mrgCodes dim rec with
  | m :: l :: os => leBytes 2 m.c ++ leBytes 2 l.c ++ leBytes 4 0 ++ os.flatMap (fun x => leBytes 2 x.c)
  | _ => []

/-- A partial applied to a merge record (R243, R244): the record's new bytes. -/
def mrgApply (dim : Nat) (rec msg : List Byte) : List Byte :=
  let b16 := fun (o : Nat) => fvOf (bf16ToF32 (leNat ((msg.drop o).take 2)))
  let m2 := b16 0
  let l2 := b16 2
  let o2 := fun (d : Nat) => b16 (8 + 2 * d)
  let rm := f32At rec 0
  let rl := f32At rec 4
  let ro := fun (d : Nat) => f32At rec (16 + 4 * d)
  let n := leNat ((rec.drop 8).take 2)
  let ex := leNat ((rec.drop 10).take 2)
  let fl := leNat ((rec.drop 12).take 4)
  let l2z := (f32Read l2.b).m == 0 && !(f32Read l2.b).isNan
  let (m, l, o) : W32 × W32 × List W32 :=
    if l2z || bitB fl 0 then (rm.b, rl.b, (List.range dim).map (fun d => (ro d).b))
    else if rm.b = 0xFF7FFFFF then (m2.b, l2.b, (List.range dim).map (fun d => (o2 d).b))
    else
      let mn := fMax rm m2
      let a := fExp2 (fSub rm mn)
      let b := fExp2 (fSub m2 mn)
      (mn.b, (fAdd (fMul rl a) (fMul l2 b)).b,
       (List.range dim).map (fun d => (fAdd (fMul (ro d) a) (fMul (o2 d) b)).b))
  let n' := (n + 1) % 65536
  let fin := ex != 0 && n' == ex
  let lz := (f32Read l).m == 0 && !(f32Read l).isNan
  let o' := if fin then o.map (fun x => if lz then 0 else (fDiv (fvOf x) (fvOf l)).b) else o
  leBytes 4 m.toNat ++ leBytes 4 l.toNat ++ leBytes 2 n' ++ leBytes 2 ex ++
    leBytes 4 (if fin then fl / 2 * 2 + 1 else fl) ++ o'.flatMap (fun x => leBytes 4 x.toNat)

end Sys2Proof.Machine
end

