-- ==== Sys2Proof/Machine/Codec.lean ====
section
/-! DEFINITION. The Attar encoder and decoder as pure functions over bytes (R247 to R260). -/

namespace Sys2Proof.Machine

/-- Kept values K of a rate class (R248); 64 for RAW. -/
def atrKeep (cls : Nat) : Nat := if cls = 0 then 64 else 8 * cls

/-- Bytes of a dense block (R248). -/
def atrDense (f : Fmt) : Nat := 8 * fmtBits f

/-- Bytes of a block of a class (R248). -/
def atrBlockSize (f : Fmt) (cls : Nat) : Nat :=
  if cls = 0 then atrDense f else 8 + atrKeep cls * fmtBits f / 8

/-- Does the class exist for the format (R248)? -/
def atrClassOk (f : Fmt) (cls : Nat) : Bool := decide (cls ≤ 3) || (cls == 4 && f == .a8)

/-- Bytes of a tile of a class (R252). -/
def atrTileSize (f : Fmt) (cls : Nat) (sat : Bool) : Nat := 64 * atrBlockSize f cls + 128 + (if sat then 160 else 0)

/-- Elements that are markers or not zero (R250). -/
def atrLive (els : List El) : Nat := (els.filter (fun e => e.mark || e.m != 0)).length

/-- The encoder's ranking: markers first, then magnitude descending, ties to the lower index (R250). -/
def atrAbove (x y : Nat × El) : Bool :=
  let r := fun (e : El) => if e.mark then 1000 else e.m
  decide (r x.2 > r y.2) || (r x.2 == r y.2 && decide (x.1 < y.1))

/-- One encoded block (R249, R250): bitmap, kept codes in ascending index, padding. -/
def atrEncBlock (f : Fmt) (cls : Nat) (codes : List Nat) : List Byte :=
  if cls = 0 then pack (fmtBits f) codes
  else
    let els := codes.map (elOf f)
    let k := atrKeep cls
    let live := ((List.range els.length).map (fun i => (i, nth elMark els i))).filter (fun p => p.2.mark || p.2.m != 0)
    let keep := ((sortBy atrAbove live).take k).map (·.1)
    let idx := (List.range 64).filter (fun i => keep.contains i)
    leBytes 8 (natSum (idx.map (fun i => 2 ^ i))) ++
      pack (fmtBits f) (padTo 0 k (idx.map (fun i => nth 0 codes i)))

/-- The drop count of a tile's blocks for a class (R251). -/
def atrDrops (live : List Nat) (k : Nat) : Nat := natSum (live.map (fun n => n - k))

/-- The class of a tile and its drop count (R251). -/
def atrChoose (f : Fmt) (budget : Nat) (live : List Nat) : Nat × Nat :=
  let cs := ([1, 2, 3, 4].filter (atrClassOk f)).filter (fun c => decide (atrDrops live (atrKeep c) ≤ budget))
  match cs with
  | [] => (0, 0)
  | c :: _ => (c, atrDrops live (atrKeep c))

/-- What a compression writes and counts: the pieces of DST with their offsets, the index table, and the tiles, RAW tiles
and drops. -/
structure AtrComp where
  pieces : List (Nat × List Byte)
  index : List Byte
  tiles : Nat
  raw : Nat
  drops : Nat
  deriving DecidableEq, Repr

/-- The tiles of a compression from tile `t` on, `off` being the next offset under index placement (R252, R255). -/
def atrTiles (f : Fmt) (sat place : Bool) (budget : Nat) (img : List Byte) (n : Nat) :
    Nat → Nat → Nat → AtrComp
  | 0, _, _ => ⟨[], [], 0, 0, 0⟩
  | k + 1, t, off =>
    let dense := 64 * atrDense f
    let blocks := chunks 64 (unpack (fmtBits f) ((img.drop (t * dense)).take dense))
    let (cls, dr) := atrChoose f budget (blocks.map (fun b => atrLive (b.map (elOf f))))
    let scales := (img.drop (dataSize f n + 128 * t)).take 128
    let slot := if sat then (img.drop (dataSize f n + scaleSize f n + 16 + 160 * t)).take 160 else []
    let enc := blocks.map (atrEncBlock f cls)
    let o := if place then 32 + t * atrTileSize f 0 sat else off
    let pcs : List (Nat × List Byte) :=
      if place then
        ((List.range 64).map (fun b => (o + b * atrDense f, nth [] enc b))) ++ [(o + dense, scales ++ slot)]
      else [(o, enc.flatMap id ++ scales ++ slot)]
    let r := atrTiles f sat place budget img n k (t + 1) (off + atrTileSize f cls sat)
    { pieces := pcs ++ r.pieces
      index := leBytes 4 o ++ leBytes 1 cls ++ leBytes 1 0 ++ leBytes 2 dr ++ r.index
      tiles := r.tiles + 1
      raw := r.raw + b2n (cls == 0)
      drops := r.drops + dr }

/-- A compressing CMP (R251 to R258): `img` the source image of `4096 * nt` elements. -/
def atrCompress (f : Fmt) (sat place : Bool) (budget nt : Nat) (img : List Byte) : AtrComp :=
  let n := 4096 * nt
  let r := atrTiles f sat place budget img n nt 0 32
  let sh := img.drop (dataSize f n + scaleSize f n)
  let sflags := if sat then leNat ((sh.drop 1).take 1) else 0
  let nmark := if sat then leNat ((sh.drop 4).take 4) else 0
  let hdr := leBytes 1 (fmtCode f + 16 * b2n sat + 32 * b2n place) ++ leBytes 1 sflags ++ leBytes 2 nt ++
    leBytes 4 nmark ++ leBytes 4 r.drops ++ leBytes 20 0
  { r with pieces := (0, hdr) :: r.pieces }

/-- The fields of a stream header (R253). -/
structure AtrHdr where
  fmt : Nat
  sat : Bool
  place : Bool
  rsv : Bool
  sflags : Nat
  nt : Nat
  nmark : Nat
  deriving DecidableEq, Repr

/-- Reading a stream header (R253). -/
def atrHdr (bs : List Byte) : AtrHdr :=
  let b0 := leNat (bs.take 1)
  { fmt := b0 % 16, sat := bitB b0 4, place := bitB b0 5
    rsv := b0 / 64 != 0 || leNat ((bs.drop 12).take 20) != 0
    sflags := leNat ((bs.drop 1).take 1), nt := leNat ((bs.drop 2).take 2), nmark := leNat ((bs.drop 4).take 4) }

/-- One decoded block and its surplus bits (R260). -/
def atrDecBlock (f : Fmt) (cls : Nat) (bs : List Byte) : List Nat × Nat :=
  if cls = 0 then (padTo 0 64 (unpack (fmtBits f) (bs.take (atrDense f))), 0)
  else
    let zc := if f = .a4o then 7 else 0
    let bm := leNat (bs.take 8)
    let k := atrKeep cls
    let vals := unpack (fmtBits f) ((bs.drop 8).take (k * fmtBits f / 8))
    let out := (List.range 64).map (fun i =>
      if bitB bm i then
        let v := ((List.range i).filter (fun j => bitB bm j)).length
        if v < k then (nth zc vals v, 0) else (zc, 1)
      else (zc, 0))
    (out.map (·.1), natSum (out.map (·.2)))

/-- How an expansion ends: a fault of R259, or the image and the counts of surplus bits and tiles. -/
inductive AtrRes where
  | header
  | index
  | ok (img : List Byte) (surplus tiles : Nat)
  deriving DecidableEq, Repr

/-- An index entry is acceptable (R259). -/
def atrEntryOk (f : Fmt) (h : AtrHdr) (srcLen t : Nat) (e : List Byte) : Bool :=
  let o := leNat (e.take 4)
  let b4 := leNat ((e.drop 4).take 1)
  let cls := b4 % 8
  let size := if h.place then atrTileSize f 0 h.sat else atrTileSize f cls h.sat
  atrClassOk f cls && b4 / 8 == 0 && leNat ((e.drop 5).take 1) == 0 && o % 32 == 0 && decide (32 ≤ o) &&
    decide (o + size ≤ srcLen) && (!h.place || o == 32 + t * atrTileSize f 0 h.sat)

/-- An expanding CMP (R259, R260): `src` the stream, `idx` the index table, `dsat` the destination's SAT. -/
def atrExpand (f : Fmt) (dsat : Bool) (dstLen : Nat) (src idx : List Byte) : AtrRes :=
  let h := atrHdr src
  let n := 4096 * h.nt
  if h.fmt != fmtCode f || h.sat != dsat || h.nt == 0 || h.rsv || decide (imageSize f n dsat > dstLen) ||
      decide (idx.length < 8 * h.nt) then .header
  else
    let es := (List.range h.nt).map (fun t => (idx.drop (8 * t)).take 8)
    if !((List.range h.nt).all (fun t => atrEntryOk f h src.length t (nth [] es t))) then .index
    else
      let tiles := es.map (fun e =>
        let cls := leNat ((e.drop 4).take 1) % 8
        let bs := src.drop (leNat (e.take 4))
        let step := if h.place then atrDense f else atrBlockSize f cls
        let blks := (List.range 64).map (fun b => atrDecBlock f cls ((bs.drop (b * step)).take (atrBlockSize f cls)))
        (blks.flatMap (·.1), natSum (blks.map (·.2)), (bs.drop (64 * step)).take 128, (bs.drop (64 * step + 128)).take 160))
      let hdr := leBytes 1 h.fmt ++ leBytes 1 h.sflags ++ leBytes 2 h.nt ++ leBytes 4 h.nmark ++ leBytes 8 0
      let stream := if dsat then padTo 0 (streamSize n) (hdr ++ tiles.flatMap (fun t => t.2.2.2)) else []
      .ok (dataBytes f (tiles.flatMap (·.1)) ++ scaleBytes f n ((tiles.flatMap (fun t => t.2.2.1)).map BitVec.toNat) ++ stream)
        (natSum (tiles.map (fun t => t.2.1))) h.nt

end Sys2Proof.Machine
end

