-- ==== Sys2Proof/Machine/Flags.lean ====
section
/-! DEFINITION. The comparisons of the sequencer (R154, R155, R159, R181). The module has no flags register: a comparison
decides a branch, a register value or a wait. -/

namespace Sys2Proof.Machine

/-- The six branch comparisons of R154: BEQ, BNE, BLT, BGE signed, BLTU, BGEU unsigned. -/
def cmpEq (a b : Word) : Bool := a == b
def cmpNe (a b : Word) : Bool := a != b
def cmpLt (a b : Word) : Bool := a.slt b
def cmpGe (a b : Word) : Bool := !a.slt b
def cmpLtu (a b : Word) : Bool := a.ult b
def cmpGeu (a b : Word) : Bool := !a.ult b

/-- The 32-bit serial-number comparison: `a` has reached `b` when a − b, read as signed, is 0 or more (R159, R181). -/
def serialGe (a b : BitVec 32) : Bool := !(a - b).msb

/-- 1 or 0, as SLT and SLTU write it. -/
def boolWord (b : Bool) : Word := if b then 1 else 0

end Sys2Proof.Machine
end

