-- ==== Sys2Proof/Machine/Ecc.lean ====
section
/-! DEFINITION. The stack code of R439 to R441: Reed–Solomon RS(36, 32) over GF(2^16). -/

namespace Sys2Proof.Machine

/-- One step of the product of R439's field: the multiplicand times x, reduced by x^16 + x^12 + x^3 + x + 1. -/
def gfTwice (a : Nat) : Nat := if a < 2 ^ 15 then 2 * a else (2 * a) ^^^ 0x1100B

/-- The product by the bits of `b`, lowest first, by fuel. -/
def gfMulAux : Nat → Nat → Nat → Nat
  | 0, _, _ => 0
  | n + 1, a, b => (if b % 2 = 1 then a else 0) ^^^ gfMulAux n (gfTwice a) (b / 2)

/-- The product in GF(2^16). -/
def gfMul (a b : Nat) : Nat := gfMulAux 16 a b

/-- α to the power `n`, α being x. -/
def gfAlpha : Nat → Nat
  | 0 => 1
  | n + 1 => gfTwice (gfAlpha n)

/-- The inverse: the product of the squares a^2, a^4 up to a^(2^15). -/
def gfInvAux : Nat → Nat → Nat
  | 0, _ => 1
  | n + 1, a => let q := gfMul a a; gfMul q (gfInvAux n q)

/-- The inverse of a nonzero element. -/
def gfInv (a : Nat) : Nat := gfInvAux 15 a

/-- The power of x that symbol `i` stands at: 35 − i for data and check symbols alike (R439). -/
def symExp (i : Nat) : Nat := 35 - i

/-- Syndrome c(α^i) of the errors of a codeword, by symbol and value (R440). -/
def syndrome (es : List (Nat × Nat)) (i : Nat) : Nat :=
  es.foldl (fun acc e => acc ^^^ gfMul e.2 (gfAlpha (i * symExp e.1))) 0

/-- The four syndromes. -/
def syndromes (es : List (Nat × Nat)) : List Nat := (List.range 4).map (syndrome es)

/-- The poison pattern: each check symbol XORed with 0xA5A5 (R441). -/
def poisonPattern : List (Nat × Nat) := [(32, 0xA5A5), (33, 0xA5A5), (34, 0xA5A5), (35, 0xA5A5)]

/-- What the decoder finds (R440). -/
inductive CwClass where
  | clean
  | poisoned
  | corrected (es : List (Nat × Nat))
  | bad
  deriving DecidableEq, Repr

/-- The single symbol error that the syndromes are consistent with. -/
def oneError (s0 s1 s2 s3 : Nat) : Option (List (Nat × Nat)) :=
  ((List.range 36).find? (fun i =>
    let x := gfAlpha (symExp i)
    s0 != 0 && s1 == gfMul s0 x && s2 == gfMul s1 x && s3 == gfMul s2 x)).map (fun i => [(i, s0)])

/-- Two symbols `i` below `j` whose errors the syndromes are consistent with. -/
def twoAt (s0 s1 s2 s3 i j : Nat) : Bool :=
  let x := gfAlpha (symExp i)
  let y := gfAlpha (symExp j)
  s2 == gfMul (x ^^^ y) s1 ^^^ gfMul (gfMul x y) s0 && s3 == gfMul (x ^^^ y) s2 ^^^ gfMul (gfMul x y) s1

/-- The values of the errors at symbols `i` and `j`. -/
def twoValues (s0 s1 i j : Nat) : List (Nat × Nat) :=
  let x := gfAlpha (symExp i)
  let y := gfAlpha (symExp j)
  let ej := gfMul (s1 ^^^ gfMul x s0) (gfInv (x ^^^ y))
  [(i, s0 ^^^ ej), (j, ej)]

/-- The two symbol errors that the syndromes are consistent with. -/
def twoErrors (s0 s1 s2 s3 : Nat) : Option (List (Nat × Nat)) :=
  let pairs := (List.range 36).flatMap (fun j => (List.range j).map (fun i => (i, j)))
  (pairs.find? (fun p => twoAt s0 s1 s2 s3 p.1 p.2 && (twoValues s0 s1 p.1 p.2).all (fun e => e.2 != 0))).map
    (fun p => twoValues s0 s1 p.1 p.2)

/-- The class of a codeword whose stored symbols differ from a codeword by `es` (R440). -/
def cwClass (es : List (Nat × Nat)) : CwClass :=
  let sy := syndromes es
  if sy.all (· == 0) then .clean
  else if sy == syndromes poisonPattern then .poisoned
  else
    let s := fun i => nth 0 sy i
    match oneError (s 0) (s 1) (s 2) (s 3) with
    | some e => .corrected e
    | none =>
      match twoErrors (s 0) (s 1) (s 2) (s 3) with
      | some e => .corrected e
      | none => .bad

/-- A 64-byte block with the data symbols of `es` XORed in (R439: symbol j is bytes 2j and 2j + 1). -/
def applyErrs (bs : List Byte) (es : List (Nat × Nat)) : List Byte :=
  es.foldl (fun b e =>
    if e.1 < 32 then
      let lo := nth 0 b (2 * e.1) ^^^ BitVec.ofNat 8 e.2
      let hi := nth 0 b (2 * e.1 + 1) ^^^ BitVec.ofNat 8 (e.2 / 256)
      listSet (listSet b (2 * e.1) lo) (2 * e.1 + 1) hi
    else b) bs

end Sys2Proof.Machine
end

