-- ==== Sys2Proof/Machine/Regs.lean ====
section
/-! DEFINITION. Where the registers lie (R586 to R597), and the Reset column of the stored ones. A register of a function's
own block is keyed by its BAR0 address plus 2^28 times the function. -/

namespace Sys2Proof.Machine

/-- The key of an offset of the CLU block of cluster `c` (R586, R594). -/
def cluAddr (c off : Nat) : Nat := 0x100_0000 + 0x1000 * c + off

/-- The key of an offset of the TEN block of function `f` (R586, R593). -/
def tenAddr (f off : Nat) : Nat := 0x1000_0000 * f + 0x10_0000 + off

/-- The key of an offset of the LNK block (R595). -/
def lnkAddr (off : Nat) : Nat := 0x14_0000 + off

/-- The key of an offset of port `n`'s registers (R595). -/
def portAddr (n off : Nat) : Nat := lnkAddr (0x100 + 64 * n + off)

/-- The key of an offset of the MEM block (R595). -/
def memAddr (off : Nat) : Nat := 0x16_0000 + off

/-- The key of an offset of stack `k`'s registers (R595). -/
def stkAddr (k off : Nat) : Nat := memAddr (0x1000 + 256 * k + off)

/-- The key of an offset of the EMU block (R596). -/
def emuAddr (off : Nat) : Nat := 0x17_0000 + off

/-- The key of an offset of the DBG registers (R597). -/
def dbgAddr (off : Nat) : Nat := 0x18_0000 + off

/-! ### Offsets of the counters -/

/-- CLU_SPAD_CONFLICT, _CORR, _UNCORR, _DROP; CLU_WST_CORR, _RELOAD (R150, R594). -/
def oConflict : Nat := 0x814
def oSpadCorr : Nat := 0x818
def oSpadUncorr : Nat := 0x81C
def oSpadDrop : Nat := 0x820
def oWstCorr : Nat := 0x824
def oWstReload : Nat := 0x828

/-- CLU_SEQ_ISSUE, _SBWAIT, _SBFULL, _ACDROP (R188). -/
def oSeqIssue : Nat := 0x850
def oSbWait : Nat := 0x854
def oSbFull : Nat := 0x858
def oAcDrop : Nat := 0x85C

/-- CLU_FMT_SAT, _NAN, _SCALE (R59). -/
def oFmtSat : Nat := 0x880
def oFmtNan : Nat := 0x884
def oFmtScale : Nat := 0x888

/-- The counters of R118 in its order. -/
def oExcess : Nat := 0x890
def oClamp : Nat := 0x894
def oSatMeta : Nat := 0x898
def oReplay : Nat := 0x89C
def oRescale : Nat := 0x8A0
def oFback : Nat := 0x8A4
def oStorm : Nat := 0x8A8
def oWaste : Nat := 0x8AC
def oMiss : Nat := 0x8B0
def oAudit : Nat := 0x8B4

/-- CLU_TLA_TILES and the nine after it, in the order of R90. -/
def oTiles : Nat := 0x900
def oItems : Nat := 0x908
def oSkip : Nat := 0x910
def oBwait : Nat := 0x918
def oImbal : Nat := 0x920
def oFwait : Nat := 0x928
def oInval : Nat := 0x930
def oAlign : Nat := 0x938
def oAsat : Nat := 0x940
def oDsat : Nat := 0x948

/-- The CLU_ATT counters in the order of R209. -/
def oPasses : Nat := 0x980
def oScores : Nat := 0x984
def oAttRescale : Nat := 0x988
def oPwait : Nat := 0x98C
def oQalign : Nat := 0x990
def oValign : Nat := 0x994
def oMaskDrop : Nat := 0x998
def oAttEmpty : Nat := 0x99C
def oSuspend : Nat := 0x9A0

/-- CLU_KV_LBMISS, _ALLOC, _FREE, _COPY (R246). -/
def oLbMiss : Nat := 0x9E4
def oKvAlloc : Nat := 0x9E8
def oKvFree : Nat := 0x9EC
def oKvCopy : Nat := 0x9F0

/-- The CLU_ATR counters in the order of R267: TILES, RAW, DROP, META, EXP. -/
def oAtrTiles : Nat := 0xA00
def oAtrRaw : Nat := 0xA04
def oAtrDrop : Nat := 0xA08
def oAtrMeta : Nat := 0xA0C
def oAtrExp : Nat := 0xA10

/-- CLU_ACC_PATCH, _DROP, _RLINE, _GPATCH (R287). -/
def oAccPatch : Nat := 0xA40
def oAccDrop : Nat := 0xA44
def oAccRline : Nat := 0xA48
def oAccGpatch : Nat := 0xA4C

/-- CLU_FAB_CORR, _UNCORR, _DETOUR (R314). -/
def oFabCorr : Nat := 0xA84
def oFabUncorr : Nat := 0xA88
def oFabDetour : Nat := 0xA8C

/-- CLU_SPLIT, CLU_SPLIT_WAIT, CLU_SPLIT_CHG (R434). -/
def oSplit : Nat := 0xAC0
def oSplitWait : Nat := 0xAC4
def oSplitChg : Nat := 0xAC8

/-- CLU_PREC_CTL (R118), CLU_TRC_CFG0 (R489), CLU_TRC_DROP0, CLU_TRC_STALL0. -/
def oPrecCtl : Nat := 0x8B8
def oTrcCfg (sl : Nat) : Nat := 0xB00 + 8 * sl
def oTrcDrop (sl : Nat) : Nat := 0xB40 + 4 * sl
def oTrcStall (sl : Nat) : Nat := 0xB50 + 4 * sl

/-- HUB counters: HUB_EMU_WDROP, HUB_STW_RESTART, HUB_THERM_PARK, HUB_FAB_NOREACH, HUB_DSP_WARM, _COLD, _MBXDROP,
HUB_PFX_MATCH, _EVICT, _UNDER (R592). -/
def aEmuWdrop : Nat := 0x58
def aStwRestart : Nat := 0x5C
def aThermPark : Nat := 0x60
def aNoReach : Nat := 0x104
def aDspWarm : Nat := 0x1C0
def aDspCold : Nat := 0x1C4
def aMbxDrop : Nat := 0x1C8
def aPfxMatch : Nat := 0x200
def aPfxEvict : Nat := 0x204
def aPfxUnder : Nat := 0x208

/-- HUB registers that other definitions name: HUB_FTC_CTL, _ARM, _STAT, HUB_RSV_CTL, HUB_WINSTAT, HUB_RGN_GSTAT,
HUB_DIE_FENCE, HUB_SUPPLY, HUB_CLKSTAT, HUB_STAT, DBG_ECL_STAT, HUB_WINARG, HUB_PFVEC, HUB_LOAD_BYTES, HUB_QASSIGNf (R592, R597). -/
def aFtcCtl : Nat := 0x28
def aFtcArm : Nat := 0x30
def aFtcStat : Nat := 0x38
def aRsvCtl : Nat := 0x100
def aWinStat : Nat := 0x18C
def aGstat : Nat := 0x2440
def aDieFence : Nat := 0xC0
def aSupply : Nat := 0x48
def aClkStat : Nat := 0x40
def aHubStat : Nat := 0x0
def aEclStat : Nat := 0x18_0014
def aWinArg : Nat := 0x180
def aPfVec : Nat := 0x190
def aLoadBytes : Nat := 0x148
def aQAssign (f : Nat) : Nat := 0x1000 + 4 * f

/-- TEN registers that are stored (R593). -/
def oFrAddr : Nat := 0x8
def oFrCfg : Nat := 0x10
def oHbCtl : Nat := 0x20
def oTenStat : Nat := 0x28
def oDbDrop : Nat := 0x30
def oAperDrop : Nat := 0x34
def oFrLost : Nat := 0x38
def oEphAddr : Nat := 0x40
def oEphCfg : Nat := 0x48
def oEphLost : Nat := 0x58
def oDbgCon : Nat := 0x60
def oPipeA (r : Nat) : Nat := 0x1000 + 16 * r
def oPipeB (r : Nat) : Nat := 0x1008 + 16 * r
def oSqAddr (q : Nat) : Nat := 0x1_0000 + 32 * q
def oSqCfg (q : Nat) : Nat := 0x1_0010 + 32 * q
def oCqAddr (r : Nat) : Nat := 0x2_0000 + 32 * r
def oCqCfg (r : Nat) : Nat := 0x2_0010 + 32 * r

/-- LNK counters and registers (R595). -/
def aMsgResend : Nat := lnkAddr 0x40
def aMsgLost : Nat := lnkAddr 0x44
def aRxDup : Nat := lnkAddr 0x48
def aRxAged : Nat := lnkAddr 0x4C
def aRxEpoch : Nat := lnkAddr 0x50
def aRxDrop : Nat := lnkAddr 0x54
def aRxAtr : Nat := lnkAddr 0x58
def aFwdDrop : Nat := lnkAddr 0x5C
def aLnkCtl : Nat := lnkAddr 0x4
def aFtag (f : Nat) : Nat := lnkAddr (0x1000 + 4 * f)

/-- MEM registers (R595). -/
def aPrio : Nat := memAddr 0
def aSave : Nat := memAddr 8

/-! ### Reset column of the stored registers -/

/-- Reset of a stored register of the HUB, LNK, MEM, EMU and DBG blocks. -/
def resetHub (a : Nat) : Nat :=
  if a = aFtcCtl then 0x0040_0001
  else if a = aLnkCtl then 0x007D_0032
  else if a = aPrio then 0x0002_0408
  else if a = aSave then 0x0000_0001_000F_A2D0
  else if a = emuAddr 0 then 0xC8
  else if a = emuAddr 8 then 0x8000_005F
  else if emuAddr 0x100 ≤ a ∧ a < emuAddr 0x160 then 0x38
  else if portAddr 0 0 ≤ a ∧ a < portAddr 8 0 ∧ (a - portAddr 0 0) % 64 = 0 then 0x85
  else if stkAddr 0 0 ≤ a ∧ a < stkAddr 16 0 ∧ a % 256 = 4 then 0x2
  else 0

/-- Reset of a stored register of a TEN block, by its offset. -/
def resetTen (o : Nat) : Nat :=
  if o = oFrCfg then 0x4
  else if o = oHbCtl then 0x03E8
  else if o = oEphCfg then 0x0004_0008
  else if oPipeA 0 ≤ o ∧ o < oPipeA 256 ∧ o % 16 = 8 then 4 * 2 ^ 18
  else if oSqAddr 0 ≤ o ∧ o < 0x3_0000 ∧ o % 32 = 16 then 0x4
  else 0

/-- Reset of a stored register of a CLU block, by its offset. -/
def resetClu (o : Nat) : Nat :=
  if o = oPrecCtl then 0x0000_0004
  else if o = oSplit then 0x8308_0400
  else if oTrcCfg 0 ≤ o ∧ o < oTrcCfg 4 then 0x0610_0000_0000_0000
  else 0

/-- The Reset column, by key. -/
def resetOf (a : Nat) : Nat :=
  let o := a % 0x1000_0000
  if 0x10_0000 ≤ o ∧ o < 0x14_0000 then resetTen (o - 0x10_0000)
  else if 0x100_0000 ≤ o ∧ o < cluAddr 1536 0 then resetClu (o % 0x1000)
  else resetHub o

end Sys2Proof.Machine
end

