-- ==== Sys2Proof/Machine/DataCluster.lean ====
section
/-! DEFINITION. The parts of State that belong to a cluster: context slots, operations in flight, the scoreboard's ranges,
the gather buffer, the look-aside buffer, islands and traces. Plain data. -/

namespace Sys2Proof.Machine

/-- The dispatch class of a context or a queue (R151, R412): urgent, interactive, bulk. -/
inductive Cls where
  | u | i | b
  deriving DecidableEq, Repr

/-- The code of a class in a register (R412, R434). -/
def clsCode (k : Cls) : Nat :=
  match k with
  | .u => 0 | .i => 1 | .b => 2

/-- The class of a code; 3 is taken as B. -/
def clsOf (n : Nat) : Cls :=
  match n with
  | 0 => .u | 1 => .i | _ => .b

/-- CLU_SEQ_STAT.STATE (R188). -/
inductive SlotSt where
  | empty | running | waiting | faulted | halted
  deriving DecidableEq, Repr

/-- CLU_SEQ_STAT.WAIT (R188). -/
inductive WaitWhy where
  | none | overlap | room | waitc | waitop | fence | interlock
  deriving DecidableEq, Repr

/-- The directory header that the page walker holds for a slot (R214). -/
structure KvHdr where
  base : Nat
  shbase : Nat
  seqcap : Nat
  l0 : Nat
  nl : Nat
  hpool : Nat
  hcount : Nat
  cpool : Nat
  ccount : Nat
  deriving DecidableEq, Repr

/-- The trace state of a slot beside its registers (R471 to R473). -/
structure SlotTrc where
  tail : Nat
  head : Nat
  branch : Nat
  branchBits : Nat
  branchPc : Nat
  dropped : Nat
  last : Nat
  stampDue : Bool
  /-- A record other than STAMP has been written since the last STAMP. -/
  traffic : Bool
  /-- Records that stall mode keeps until there is room for them: TYPE and body (R473). -/
  owed : List (Nat × List Byte)
  deriving DecidableEq, Repr

/-- One context slot (R152). -/
structure Slot where
  /-- CLU_SEQ_STAT.STATE. -/
  st : SlotSt
  /-- CLU_SEQ_STAT.WAIT. -/
  why : WaitWhy
  /-- The instruction that waits to issue. -/
  waiting : Option Instr
  /-- s0 to s31; s0 is never listed. -/
  regs : Tab Word
  /-- Registers whose value is not yet available, with the cycles that remain (R158). -/
  busy : Tab Nat
  pc : BitVec 14
  /-- The last ticket issued; 0 before the first (R152, R159). -/
  ticket : BitVec 32
  /-- The arrival counters AC[0] to AC[31]. -/
  ac : Tab (BitVec 32)
  /-- td0 to td3, 64 bytes each. -/
  td : Tab Byte
  /-- The program window, by instruction (R153). -/
  prog : Tab W32
  plen : Nat
  entry : BitVec 14
  cls : Cls
  /-- CLU_SPAD_PART (R128, R150). -/
  pvalid : Bool
  pbase : Nat
  pcount : Nat
  /-- CLU_KV_DIR: the directory header's address, none while VALID is 0 (R214, R246). -/
  kvdir : Option Nat
  /-- The walker's copy of the directory header. -/
  kvHdr : Option KvHdr
  /-- CLU_RNG_SEED, the seed write that waits for the event-tick boundary, and the running counters of the three units
  (R110 to R112). -/
  seed : Word
  seedPend : Option Word
  rng : Tab Nat
  /-- The loaded context that the slot holds: its number in the hub's context list. -/
  ctx : Option Nat
  /-- The slot is not ready in its next cycle (YIELD, R156). -/
  yielded : Bool
  /-- Release of the slot waits for the event-tick boundary (R131). -/
  releasing : Bool
  /-- A RED or MRG has been issued since the last completed FENCE or HALT (R428). -/
  openAtomic : Bool
  /-- FTC of the last issue (R429). -/
  lastIssue : Nat
  /-- The dispatch unit stops the slot at its next issue (R414, R419). -/
  stopReq : Bool
  /-- Cycles that the instruction to issue has waited for trace room (R472, R473). -/
  trcWait : Nat
  trc : SlotTrc
  deriving DecidableEq, Repr

/-- A trace unit with nothing recorded. -/
def trcReset : SlotTrc := ⟨0, 0, 0, 0, 0, 0, 0, false, false, []⟩

/-- What is left of a slot's trace state when its context goes or its domain is off: the counters of CLU_TRC_PTRn (R490, R527, R602). -/
def SlotTrc.gone (t : SlotTrc) : SlotTrc := { trcReset with tail := t.tail, head := t.head }

/-- A slot without a context. -/
def slotReset : Slot :=
  { st := .empty, why := .none, waiting := none, regs := [], busy := [], pc := 0, ticket := 0, ac := [], td := []
    prog := [], plen := 0, entry := 0, cls := .b, pvalid := false, pbase := 0, pcount := 0, kvdir := none
    kvHdr := none, seed := 0, seedPend := none, rng := [], ctx := none, yielded := false, releasing := false
    openAtomic := false, lastIssue := 0, stopReq := false, trcWait := 0
    trc := trcReset }

/-- A range that the scoreboard holds: the first physical 32-byte word, the number of words, and whether it is written
(R174). -/
structure Rng32 where
  w0 : Nat
  n : Nat
  wr : Bool
  deriving DecidableEq, Repr

/-- What an issued operation is: a tile operation with its 64-byte descriptor, or a DMA with its register values (R182). -/
inductive OpKind where
  | tile (desc : List Byte)
  | dmag (spad dev len : Nat) (ctr : Option Nat)
  | dmap (spad dev len : Nat) (ctr : Option Nat)
  deriving DecidableEq, Repr

/-- A page that the walker has translated, and begun to fetch, ahead of the unit: its index, its PTE, and the fault that the unit
takes when it reaches the page, 0 for none (R219, R220, R605). -/
structure NextPg where
  page : Nat
  pte : Nat
  fault : Nat
  deriving DecidableEq, Repr

/-- An attention pass between two pages (R190, R195 to R197): head dimension, first position, page table, committed length
and the end of the attended range as read at its start, the aligned heads, each head's KV head in the share, the channels of
the share's heads, attended tail slots, running heads, the next page, how many steps the pass has, and the page translated
ahead. -/
structure AttPass where
  d : Nat
  f : Nat
  pt : Nat
  c : Nat
  n : Nat
  qs : List QHead
  kv : List Nat
  chs : List (List Nat)
  tail : List Nat
  heads : List HeadSt
  page : Nat
  pages : Nat
  next : Option NextPg
  deriving DecidableEq, Repr

/-- How far an operation in flight has come. -/
inductive Phase where
  /-- Issued, waiting for its unit. -/
  | issued
  /-- An engine pass is under way, with its result. -/
  | pass (p : PassOut)
  /-- Abandoned with q below 3; waits to replay (R101, R103). -/
  | replay
  /-- Waits for a weight tile in RELOADING (R145). -/
  | reload (tile : Nat)
  /-- An attention pass under way, or suspended (R190). -/
  | att (a : AttPass)
  | suspended (a : AttPass)
  /-- Its bytes travel; `n` transfers or messages have not been acknowledged. -/
  | sent (n : Nat) (poison : Bool)
  /-- Its work is done; OPERATION_COMPLETE ends it. -/
  | done
  deriving DecidableEq, Repr

/-- A stack's answer to a DMA: the data of a DMAG, its poisoned 32-byte words, the fault that it ends with, and its number among the
answers that an Eclipse stop holds (R443, R479, R600). -/
structure DmaGot where
  bytes : List Byte
  poi : List Nat
  fault : Option (Nat × Nat)
  no : Nat := 0
  deriving DecidableEq, Repr

/-- An issued operation that has not ended (R159, R174). -/
structure Op where
  sl : Nat
  ticket : BitVec 32
  pc : BitVec 14
  cls : Cls
  kind : OpKind
  ranges : List Rng32
  accord : Nat
  /-- The accord table entry sampled at the accord check (R271), and whether that check is over (R277). -/
  ent : Option Nat
  checked : Bool
  /-- The weight-store accesses that its accord check, or else its present pass, has made, and the cycles that its feeder has
  waited for reloads, by line of the weight space (R145). -/
  reads : Nat
  stalls : Tab Nat
  rng : Rng
  q : Nat
  audit : Bool
  phase : Phase
  /-- What a stack has answered to a DMA during an Eclipse stop, held until the restart (R479). -/
  got : Option DmaGot
  deriving DecidableEq, Repr

/-- An entry of the gather buffer (R125): word address, byte enables, data, dirty. -/
structure GEnt where
  word : Nat
  en : Nat
  data : List Byte
  dirty : Bool
  deriving DecidableEq, Repr

/-- The requesters of a scratchpad bank, in the order in which it serves them (R124). -/
inductive BankUser where
  | link | engine | att | vec | dma | gather | trace
  deriving DecidableEq, Repr

/-- A requester's place in that order. -/
def bankRank (u : BankUser) : Nat :=
  match u with
  | .link => 1 | .engine => 2 | .att => 3 | .vec => 4 | .dma => 5 | .gather => 6 | .trace => 7

/-- A requester at a bank: the words that it still wants there, and the cycles in a row in which it has lost (R124). -/
structure BankReq where
  user : BankUser
  words : Nat
  lost : Nat
  deriving DecidableEq, Repr

/-- An entry of the KV look-aside buffer (R219). -/
structure LbEnt where
  sl : Nat
  seq : Nat
  layer : Nat
  page : Nat
  pte : Nat
  deriving DecidableEq, Repr

/-- The state of a weight tile (R144). -/
inductive TileSt where
  | empty | resident | reloading
  deriving DecidableEq, Repr

/-- A weight tile: its state, its backing record, a stack address, and the stack address of the image that its bytes are from, which
tells whose bytes it holds (R144, R430). -/
structure WTile where
  st : TileSt
  back : Option Nat
  src : Option Nat
  /-- What its stack has returned for its reload since an Eclipse stop: the bytes, and whether the read failed (R479). -/
  got : Option (List Byte × Bool)
  deriving DecidableEq, Repr

/-- A tile at power-up. -/
def tileReset : WTile := ⟨.empty, none, none, none⟩

/-- A trace record waiting in the cluster's trace buffer, with its slot (R473). -/
structure TrcRec where
  sl : Nat
  bytes : List Byte
  deriving DecidableEq, Repr

/-- One cluster beside its four slots and its counters. -/
structure Clu where
  /-- Operations in flight, oldest first (R174). -/
  ops : List Op
  /-- The gather buffer, least recently used first (R125). -/
  gather : List GEnt
  /-- The requesters at each scratchpad bank, by 16 times the panel plus the bank (R121, R124). -/
  banks : Tab (List BankReq)
  /-- CLU_SPAD_FENCE.FENCED (R131). -/
  fence : Nat
  /-- Fenced partitions in the order of their fencing: first panel and count (R132). -/
  scrubQ : List (Nat × Nat)
  /-- The KV look-aside buffer, least recently used first within a set (R219). -/
  lb : List LbEnt
  /-- CLU_ACC_ENT0 to 255 (R270, R287). -/
  acc : Tab Word
  /-- Weight lines of cleared accord entries that operations still use: entry value (R271). -/
  accHeld : Tab Word
  /-- Dead physical cores (R147, R535), and whether the spare is bound. -/
  dead : List Nat
  spareUsed : Bool
  /-- The slice whose core died and whose substitution waits for the next load (R148). -/
  lostSlice : Option Nat
  /-- The number of the next GATE (R116). -/
  gateNo : Nat
  /-- Fallbacks in the present storm window (R108). -/
  fbWin : Nat
  /-- HUB_CLU_MAP.SHARE and BYPASS; the cluster is LOST (R301, R307, R309). -/
  share : Bool
  bypass : Bool
  /-- Its station has failed in service: bypass waits for the next load that covers it (R301). -/
  bypassPend : Bool
  lost : Bool
  /-- Its link interface or its scratchpad does not work (R313, R554). -/
  ifDead : Bool
  /-- The station works but is switched off (a fenced die, R542). -/
  stationOff : Bool
  /-- The compute domain is off (R491). -/
  compOff : Bool
  /-- Park sources: the steward, the hardware junction limit (R498). -/
  parkStw : Bool
  parkHw : Bool
  /-- The clock runs again only when the restart has happened (R498). -/
  clkStop : Bool
  /-- Frequency caps 1 to 5 in 25 MHz units; none where a cap is off (R493). -/
  caps : Tab Nat
  /-- CLU_ISL_STAT.TJ and CFREQ, CLU_FAB_STAT.SFREQ. -/
  tj : Int
  cfreq : Nat
  sfreq : Nat
  /-- CLU_SPLIT's window: quiet windows, and the waiting-tile sums of the two sides (R424). -/
  quiet : Nat
  sumU : Nat
  sumN : Nat
  /-- The round-robin positions of slot choice, one for each class by its code (R151). -/
  rr : Tab Nat
  /-- The trace buffer (R473). -/
  trcBuf : List TrcRec
  /-- CLU_PERF_CYC in fortieths of a cycle up to the moment `cycAt` of the clusters' running time (R476). -/
  cyc : Nat
  cycAt : Nat
  deriving DecidableEq, Repr

/-- A cluster after power-on: every domain on, nothing loaded. -/
def cluReset : Clu :=
  { ops := [], gather := [], banks := [], fence := 0, scrubQ := [], lb := [], acc := [], accHeld := [], dead := []
    spareUsed := false, lostSlice := none, gateNo := 1, fbWin := 0, share := false, bypass := false, bypassPend := false, lost := false, ifDead := false
    stationOff := false, compOff := false, parkStw := false, parkHw := false, clkStop := false
    caps := [(1, 56), (2, 56)], tj := 0, cfreq := 56, sfreq := 56, quiet := 0, sumU := 0, sumN := 0
    rr := [], trcBuf := [], cyc := 0, cycAt := 0 }

end Sys2Proof.Machine
end

