-- ==== Sys2Proof/Machine/DataHub.lean ====
section
/-! DEFINITION. The parts of State that belong to the hub die: functions, queues, rings, work items, regions, loaded
contexts, loads. Plain data. -/

namespace Sys2Proof.Machine

/-! ### Host interface (R378 to R408) -/

/-- A queue's state (R386). -/
inductive QSt where
  | off | run | hold | stopping | error
  deriving DecidableEq, Repr

/-- The code of TEN_SQCFG.STATE. -/
def qstCode (q : QSt) : Nat :=
  match q with
  | .off => 0 | .run => 1 | .hold => 2 | .stopping => 3 | .error => 4

/-- A submission queue of one function (R385 to R390). -/
structure Queue where
  st : QSt
  head : Nat
  tail : Nat
  /-- Inline descriptors not yet taken, with their entry numbers (R388). -/
  inl : List (Nat × List Byte)
  /-- Ring entries fetched and not yet taken (R390). -/
  fetched : List (Nat × List Byte)
  /-- The head entry has waited 10 ms (R410). -/
  promoted : Bool
  deriving DecidableEq, Repr

/-- A queue after reset. -/
def queueReset : Queue := ⟨.off, 0, 0, [], [], false⟩

/-- A completion record on its way: its 16 bytes less the phase, and whether it raises the vector (R394). -/
structure CRec where
  utag : Nat
  result : Nat
  sq : Nat
  sqpos : Nat
  status : Nat
  frec : Bool
  irq : Bool
  deriving DecidableEq, Repr

/-- A completion ring (R394 to R398). -/
structure Ring where
  en : Bool
  head : Nat
  tail : Nat
  /-- Records held, oldest first: for a full ring, or for stopped DMA (R396, R403). -/
  held : List CRec
  /-- FTC of the last vector raise, and a raise that waits for the interval's end (R398). -/
  lastIrq : Option Nat
  irqPend : Bool
  deriving DecidableEq, Repr

/-- A completion ring after reset. -/
def ringReset : Ring := ⟨false, 0, 0, [], none, false⟩

/-- A memory window of a function, in units of 2 MiB (R400). -/
structure Window where
  size : Nat
  tbase : Nat
  pbase : Nat
  deriving DecidableEq, Repr

/-- One function beside its queues, rings and stored registers. -/
structure Func where
  /-- Bus Master Enable (R403). -/
  bme : Bool
  /-- TEN_STAT: HBEXP, FLRBUSY, FROVF, CQLOST. -/
  hbexp : Bool
  flrbusy : Bool
  frovf : Bool
  cqlost : Bool
  /-- FTC at which the heartbeat period began (R404). -/
  hbStart : Nat
  /-- Fault-ring counters (R399). -/
  frHead : Nat
  frTail : Nat
  /-- Ephemeris ring counters, and records dropped since the last written one (R484 to R488). -/
  ephHead : Nat
  ephTail : Nat
  ephDropped : Nat
  /-- Valid windows by index (R400). -/
  wins : Tab Window
  /-- The MSI-X table by byte offset, its vector control bytes with bit 0 complemented, and the pending bits by vector (R378,
  R586, log entry 32). -/
  msix : Mem
  pba : List Nat
  /-- The configuration space by byte offset: what was written, as its difference from the value after reset (R378, R381). -/
  cfg : Mem
  deriving DecidableEq, Repr

/-- A function after reset. Bus Master Enable is 1: TEN_STAT.BMEHOLD resets to 0 (R408, log entry 20). -/
def funcReset : Func :=
  { bme := true, hbexp := false, flrbusy := false, frovf := false, cqlost := false, hbStart := 0, frHead := 0
    frTail := 0, ephHead := 0, ephTail := 0, ephDropped := 0, wins := [], msix := [], pba := [], cfg := [] }

/-! ### Dispatch (R409 to R431) -/

/-- How far a work item has come. -/
inductive ItemSt where
  /-- Taken from its queue; its start is the dispatch unit's next work (R411). -/
  | taken
  /-- A RUN that waits for its pool region (R414), or a pipeline RUN held for an entry or a ring record (R416). -/
  | waiting
  /-- A start held until a replace or an unload of its region has ended (R374, R375). -/
  | held
  /-- A RUN under way. -/
  | running
  /-- A pool RUN that ends with FAULTED once every context of the region has stopped (R414). -/
  | failing
  /-- A prefix request in the prefix walker's queue (R237). -/
  | prefixWait
  /-- A SEQ_CLOSE that waits for the sequence's tokens in flight (R233). -/
  | closing
  /-- A MEMCPY under way (R392). -/
  | copying
  /-- A MEMCPY to another module with `n` messages not yet acknowledged. -/
  | remote (n : Nat)
  /-- A load or unload in the load queue (R368). -/
  | loading
  deriving DecidableEq, Repr

/-- A work item (R387, R391): the descriptor with where it came from and where it runs. -/
structure Item where
  id : Nat
  f : Nat
  q : Nat
  pos : Nat
  desc : List Byte
  st : ItemSt
  /-- The region that the item runs on. -/
  region : Nat
  /-- Pool: the work-item number (R413). Pipeline: the batch entry and STEP (R416). -/
  num : Nat
  entry : Nat
  step : Nat
  /-- FTC at which it was taken, and whether its ephemeris record has been written (R486). -/
  took : Nat
  logged : Bool
  /-- A fault record for it has gone to the fault ring (R394). -/
  frec : Bool
  /-- Bytes of a MEMCPY that have moved (R403). -/
  moved : Nat
  deriving DecidableEq, Repr

/-- A region descriptor with the hub's counts for it (R303, R413, R416). -/
structure Region where
  pipe : Bool
  shared : Bool
  degraded : Bool
  f : Nat
  x0 : Nat
  y0 : Nat
  w : Nat
  h : Nat
  members : List Nat
  grant : Nat
  loadftc : Nat
  /-- The load that created it (R298). -/
  load : Nat
  /-- Held for a replace (R374). -/
  replaceHold : Bool
  /-- An unload has begun: the region takes no work (R375). -/
  closing : Bool
  runs : Nat
  step : Nat
  deriving DecidableEq, Repr

/-- A loaded context (R359, R427). -/
structure Ctx where
  id : Nat
  f : Nat
  load : Nat
  /-- The physical cluster, and the cluster ID that the image names (R310). -/
  clu : Nat
  src : Nat
  slot : Nat
  region : Nat
  pipe : Bool
  panels : Nat
  prog : Nat
  entry : Nat
  rtaddr : Nat
  seed : Word
  kvdir : Nat
  resident : Bool
  /-- A RUN of its region waits to restart it (R413, R427). -/
  want : Bool
  /-- The saved slot and partition while swapped out (R427, R430). -/
  saved : Option Slot
  /-- The save record's physical address, for a pool context (R454); it begins with the partition's bytes. -/
  saveAt : Nat
  /-- A switch of this context is in progress (R430, R431). -/
  switching : Bool
  /-- The switch brings the context in (R430). -/
  entering : Bool
  /-- The weight tiles of its cluster that its load placed for it, as they stand when they hold its bytes (R430). -/
  tiles : List (Nat × WTile)
  deriving DecidableEq, Repr

/-- A model instance: model handle, region, prefix tree, share list (R366). -/
structure Inst where
  f : Nat
  load : Nat
  handle : Nat
  region : Nat
  pfxtree : Nat
  deriving DecidableEq, Repr

/-- A bound sequence (R420). -/
structure Binding where
  f : Nat
  model : Nat
  seq : Nat
  region : Nat
  deriving DecidableEq, Repr

/-- A fault report that waits for its record (R186, R532). -/
structure Report where
  f : Nat
  code : Nat
  clu : Nat
  slot : Nat
  op : Nat
  ticket : Nat
  pc : Nat
  tick : Nat
  detail : Nat
  /-- The record's remaining fields (R532): region, DEG, and bytes 5 and 6 (core, engine, lane; 0x00FF: not named). -/
  region : Nat
  deg : Bool
  core : Nat
  /-- The work items that it is for (R394), and the descriptor of an operation that ran on engines, empty for any other (R470). -/
  items : List Nat
  run : List Byte
  deriving DecidableEq, Repr

/-- A RUN that has completed with SUCCESS in the current event tick: its item, the ring and record, the event tick (R470). -/
structure Ended where
  item : Item
  ring : Nat
  rec0 : CRec
  tick : Nat
  deriving DecidableEq, Repr

/-! ### Loads (R352 to R377) -/

/-- HUB_LOAD_STAT.PHASE (R377). -/
inductive LPhase where
  | idle | validation | commit | unwind | unload
  deriving DecidableEq, Repr

/-- A section: its index in the table, TYPE, COUNT, OFFSET, SLEN, SDIGEST, whether its table entry's reserved bytes are 0, the
bytes that were read, and whether one of them was poisoned. -/
structure Sec where
  idx : Nat
  typ : Nat
  count : Nat
  off : Nat
  len : Nat
  dig : List Byte
  clean : Bool
  data : List Byte
  poi : Bool
  deriving DecidableEq, Repr

/-- An image as read: its length, its header and section table, and its sections. -/
structure Layout where
  ilen : Nat
  head : List Byte
  poi : Bool
  secs : List Sec
  deriving DecidableEq, Repr

/-- A load or unload in the load queue, with what its validation sampled (R367, R368). -/
structure LoadJob where
  /-- The work item whose descriptor asked for it. -/
  item : Nat
  f : Nat
  unload : Bool
  /-- Unload: the load that goes, found from its region when the job's turn comes. -/
  load : Nat
  image : Nat
  ilen : Nat
  rbase : Nat
  replace : Bool
  phase : LPhase
  /-- The commit waits on fenced panels or on a stopped clock (R373). -/
  waits : Bool
  /-- The samples of R368: valid grants, lost clusters, reserve bindings, region descriptors, the reserve count. -/
  grants : Tab Word
  lost : List Nat
  rmap : Tab Nat
  rgns : Tab Region
  /-- Replace: the model instances of the replaced load, through which work reaches its regions (R374). -/
  insts : List Inst
  /-- What validation settled (R369): the image as it was read, new reserve bindings, the grant of each region. -/
  lay : Layout
  bind : List (Nat × Nat)
  gsel : List Nat
  /-- Why it failed in commit: status and detail (R369, R372). -/
  status : Nat
  detail : Nat
  deriving DecidableEq, Repr

/-- A load in force (R298, R374, R375). -/
structure Load where
  num : Nat
  f : Nat
  digest : List Byte
  /-- Digests of its WEIGHT section's chunks (R356, R376). -/
  wdig : List (List Byte)
  rbase : Nat
  nreg : Nat
  image : Nat
  /-- Weight tiles that it placed: cluster and tile number. -/
  tiles : List (Nat × Nat)
  /-- Accord entries that it wrote: cluster and entry number. -/
  accs : List (Nat × Nat)
  /-- Device-memory ranges that its CONST entries wrote: tenant address and length. -/
  consts : List (Nat × Nat)
  deriving DecidableEq, Repr

end Sys2Proof.Machine
end

