-- ==== Sys2Proof/Machine/DataLinks.lean ====
section
/-! DEFINITION. The parts of State that belong to the fabric, the Pridun links and the memory stacks: transfers, ports,
messages, reassembly slots, deduplication windows, atomics. Plain data. -/

namespace Sys2Proof.Machine

/-! ### On-module transfers (R295 to R299) -/

/-- What a transfer does at its target (R130, R170, R171, R345): writes bytes, reduces F32 or INT32 words, reads for another
cluster, or carries an increment alone. -/
inductive XKind where
  | write
  | red (rop : Nat)
  | read
  | sig
  deriving DecidableEq, Repr

/-- One output of a station or of a switch on a transfer's way: its number, the virtual channel, the bytes that it moves in one
cycle (R291 to R294). -/
structure Hop where
  out : Nat
  vc : Nat
  beat : Nat
  deriving DecidableEq, Repr

/-- A transfer's way: its class, the stations that receive it one after the other on the torus (none on the express network),
the outputs still ahead of it, the bytes that the first of them has yet to move, and the cycles in a row in which it has lost
that output (R291, R294). -/
structure Way where
  cls : Cls
  path : List Nat
  hops : List Hop
  left : Nat
  lost : Nat
  deriving DecidableEq, Repr

/-- A transfer between clusters. `data` holds pieces: a context address of the target, the bytes, and a poison mark. -/
structure Xfer where
  id : Nat
  kind : XKind
  /-- The operation that its acknowledgement serves: cluster, slot, ticket. -/
  op : Option (Nat × Nat × Nat)
  f : Nat
  /-- The load number; none for data of another module, whose context is selected by the function alone (R298). -/
  load : Option Nat
  tclu : Nat
  tslot : Nat
  data : List (Nat × List Byte × Bool)
  ctr : Option Nat
  /-- The EACK to send once its last effect is visible (R341): destination node, ASEQ, EPOCH, class. -/
  eack : Option (Nat × Nat × Nat × Nat)
  way : Way
  /-- The work item whose intake record it is (R412, R416). -/
  item : Option Nat := none
  deriving DecidableEq, Repr

/-! ### Memory stacks (R435 to R461) -/

/-- MEM_STK_STAT.STATE (R448 to R452). -/
inductive StkSt where
  | training | ready | retrain | failed
  deriving DecidableEq, Repr

/-- A memory stack beside its counters and its contents. -/
structure Stack where
  st : StkSt
  temp : Int
  /-- Lane spares by channel: D0V, D0, D1V, D1, CAV, CA as MEM_STK_LANE packs them (R450). -/
  lanes : Tab Nat
  /-- MEM_STK_CTL.PATROL (R457). -/
  patrol : Bool
  /-- Lanes that have failed since training, by pseudo-channel and symbol: each corrupts its symbol of every codeword (R450). -/
  bad : List (Nat × Nat)
  deriving DecidableEq, Repr

/-- A stack at the end of power-on (R448). -/
def stackReset : Stack := ⟨.ready, 0, [], true, []⟩

/-- The controller of a pseudo-channel: the bursts that requests of each level still want, and in the present window of 256
the bursts granted, in all and to each level (R444, R445). -/
structure PcQ where
  want : Tab Nat
  used : Nat
  got : Tab Nat
  deriving DecidableEq, Repr

/-- A controller without requests. -/
def pcqReset : PcQ := ⟨[], 0, []⟩

/-- A message at a stack's atomic unit, in order of arrival (R346, R460). -/
inductive AKind where
  | red (rop : Nat)
  | mrg (dim : Nat)
  | mailbox (f region entry : Nat)
  deriving DecidableEq, Repr

/-- One queued atomic: what it does, the physical pieces of its target, its data, and what follows once it has been
applied: the acknowledgement of the operation that sent it, its counter's increment, the EACK. -/
structure Atom where
  kind : AKind
  /-- The class of the operation, item or message that made it (R444). -/
  cls : Cls
  pieces : List (Nat × Nat)
  data : List Byte
  /-- The poisoned 32-byte words of its data (R441). -/
  poi : List Nat
  /-- The local operation that sent it (cluster, slot, ticket), or none for a message from another module. -/
  op : Option (Nat × Nat × Nat)
  f : Nat
  load : Option Nat
  tclu : Nat
  tslot : Nat
  ctr : Option Nat
  eack : Option (Nat × Nat × Nat × Nat)
  deriving DecidableEq, Repr

/-! ### Pridun ports (R315 to R331) -/

/-- LNK_PORT_STAT.STATE (R317). -/
inductive PortSt where
  | disabled | down | training | discovery | active
  deriving DecidableEq, Repr

/-- The code of a port state. -/
def portCode (p : PortSt) : Nat :=
  match p with
  | .disabled => 0 | .down => 1 | .training => 2 | .discovery => 3 | .active => 4

/-- A port and its link layer. -/
structure Port where
  st : PortSt
  /-- Active groups, groups seen in training, and the widest width that a retrain may choose (0 full, 1 middle, 2
  narrowest). -/
  groups : Nat
  seen : Nat
  maxw : Nat
  peerchg : Bool
  pnode : Nat
  pport : Nat
  pser : Nat
  patrc : Bool
  /-- A DISC has been received since the state was entered (R318). -/
  discSeen : Bool
  theta : Nat
  delta : Nat
  /-- Next LSEQ to send, unacknowledged flits (R327). -/
  lseq : Nat
  replay : List (List Byte)
  /-- Next LSEQ expected; accepted flits not yet acknowledged (R328). -/
  expect : Nat
  /-- A flit has been accepted since link-layer initialisation; FTC of the last NAK since the last accepted flit (R328). -/
  heard : Bool
  nakAt : Option Nat
  unacked : Nat
  /-- Resend rounds without ACK progress (R329). -/
  rounds : Nat
  /-- Credits held and owed, VC0 to VC3 (R323). -/
  credits : List Nat
  owed : List Nat
  /-- Flits waiting at the egress with the slots that each has lost, and received flits waiting for a reassembly slot (R324,
  R337). -/
  egress : List (Nat × List Byte)
  rx : List (List Byte)
  /-- The last TSYNC request: its number, its departure, whether it is open (R349, R350). -/
  tseq : Nat
  t1 : Nat
  tsOpen : Bool
  /-- TSYNC requests that wait for their answers, oldest first: TSEQ, T1, T2 (R349). -/
  tsAsk : List (Nat × Nat × Nat)
  deriving DecidableEq, Repr

/-- A port of an unconnected module (R351, R601). -/
def portReset : Port :=
  { st := .down, groups := 0, seen := 0, maxw := 0, peerchg := false, pnode := 0xFFFF, pport := 0, pser := 0
    patrc := false, discSeen := false, theta := 0, delta := 0, lseq := 0, replay := [], expect := 0
    heard := false, nakAt := none, unacked := 0, rounds := 0, credits := [0, 0, 0, 0], owed := [0, 0, 0, 0], egress := [], rx := []
    tseq := 0, t1 := 0, tsOpen := false, tsAsk := [] }

/-! ### Messages (R335 to R343) -/

/-- The type of a message: WRITE, MEMW, RED, MRG, SIG (R322). -/
inductive MType where
  | write | memw | red | mrg | sig
  deriving DecidableEq, Repr

/-- Where a message's data is read from, again for every copy (R342): a range of a slot's scratchpad operand, by the requester `u` of its banks, as it is, under the
conversions of a RED to BF16 with its random-number context, or as the partial records of an MRG; tenant device memory; bytes
that stand nowhere else (none, for a signal). -/
inductive MSrc where
  | spad (c : Nat) (u : BankUser) (sl : Nat) (spans : List (Nat × Nat)) (off len : Nat)
  | red (c : Nat) (u : BankUser) (sl : Nat) (spans : List (Nat × Nat)) (len : Nat) (g : Rng)
  | mrg (c : Nat) (u : BankUser) (sl : Nat) (spans : List (Nat × Nat)) (len dim : Nat)
  | dev (f addr len : Nat)
  | bytes (b : List Byte)
  deriving DecidableEq, Repr

/-- The sender of a message: an operation of a slot, or a MEMCPY work item. -/
inductive MOwner where
  | op (c sl ticket : Nat)
  | item (id : Nat)
  deriving DecidableEq, Repr

/-- A message at its source, waiting for its first send or for its EACK. -/
structure Msg where
  id : Nat
  ty : MType
  owner : MOwner
  f : Nat
  dnode : Nat
  cls : Cls
  src : MSrc
  tkind : Nat
  fmt : Nat
  rop : Nat
  tclu : Nat
  tslot : Nat
  ctr : Option Nat
  addr : Nat
  dim : Nat
  /-- The transfer that it belongs to, and whether it is its final message (R335). -/
  xfer : Nat
  final : Bool
  /-- Its number, epoch, first-send FTC, copy tag and last port once it has been sent (R338). -/
  sent : Bool
  aseq : Nat
  epoch : Nat
  sftc : Nat
  mtag : Nat
  port : Nat
  deriving DecidableEq, Repr

/-- A reassembly slot (R337): the copy's key, its flits' common fields and the payload received, with poisoned words. -/
structure Reasm where
  snode : Nat
  mtag : Nat
  ty : Nat
  cls : Nat
  atr : Bool
  payload : List Byte
  poison : List Bool
  /-- LAST has been received. -/
  whole : Bool
  port : Nat
  deriving DecidableEq, Repr

/-- A deduplication window (R339): epoch, high mark, and the ASEQs recorded as applied. -/
structure Dedup where
  epoch : Nat
  h : Nat
  seen : List Nat
  deriving DecidableEq, Repr

/-- The window of a source node never heard from. -/
def dedupReset : Dedup := ⟨0, 0, []⟩

end Sys2Proof.Machine
end

