-- ==== Sys2Proof/Machine/DataModule.lean ====
section
/-! DEFINITION. The parts of State that belong to the module as a whole: time, Eclipse, power and the stewards, security,
the management bus, the record of what leaves the module. Plain data. -/

namespace Sys2Proof.Machine

/-- The fabric time counter and the clock generator (R462 to R466, R577). -/
structure Clock where
  /-- HUB_FTC. -/
  ftc : Nat
  /-- The place of the next tick in its period of 1,024 ticks. -/
  tick : Nat
  /-- The correction residue c. -/
  res : Int
  /-- Consecutive corrections small enough for LOCK. -/
  near : Nat
  /-- HUB_FTC_STAT.LOCK, LOSS, PULSEERR. -/
  lock : Bool
  loss : Bool
  pulseErr : Bool
  /-- Free-running ticks since the hub started: the rack time against which pulses are spaced (R464). -/
  raw : Nat
  /-- Ticks in which no Eclipse stop and no shutdown held the clusters: their running time. -/
  run : Nat
  /-- `raw` at the previous sync pulse. -/
  lastPulse : Option Nat
  /-- A step of θ that waits for the event-tick boundary (R465). -/
  step : Option Int
  /-- HUB_CLKSTAT.REFLOSS, HOLDOVER. -/
  refLoss : Bool
  holdover : Bool
  deriving DecidableEq, Repr

/-- The clock at the end of power-on (R462, R489). -/
def clockReset : Clock :=
  { ftc := 0, tick := 0, res := 0, near := 0, lock := false, loss := false, pulseErr := false, raw := 0, run := 0
    lastPulse := none, step := none, refLoss := false, holdover := false }

/-- DBG_ECL_STAT.STATE (R489). -/
inductive EclSt where
  | idle | armed | stopping | stopped | resuming
  deriving DecidableEq, Repr

/-- The code of an Eclipse state. -/
def eclCode (e : EclSt) : Nat :=
  match e with
  | .idle => 0 | .armed => 1 | .stopping => 2 | .stopped => 3 | .resuming => 4

/-- Eclipse (R477 to R483). -/
structure Eclipse where
  st : EclSt
  /-- A command that waits for the next event-tick boundary: ARM or CANCEL, and the event tick of its write (R477). -/
  cmd : Option (Bool × Nat)
  /-- Acknowledgements held since a stack completed their operations during the stop: operation, EACK (R479). -/
  acks : List (Option (Nat × Nat × Nat) × Option (Nat × Nat × Nat × Nat))
  /-- What the memory requests of copies in flight have come to since the stop: item, bytes returned, the status with which the copy
  ends, 0 for none (R479). -/
  copies : List (Nat × List Byte × Nat)
  /-- The stop and resume times in force. -/
  t : Nat
  rt : Nat
  refused : Bool
  flrres : Bool
  /-- Functions whose reset waits for the resume (R483). -/
  resets : List Nat
  /-- FTC of the arrival of the first such reset. -/
  flrAt : Option Nat
  deriving DecidableEq, Repr

/-- Eclipse at the end of power-on. -/
def eclReset : Eclipse := ⟨.idle, none, [], [], 0, 0, false, false, [], none⟩

/-- An EM write that its steward has not applied (R509): function, EMU offset, value. -/
structure EmWrite where
  f : Nat
  off : Nat
  v : Nat
  deriving DecidableEq, Repr

/-- Power, supply, temperatures and the stewards (R490 to R512). -/
structure Power where
  /-- The module is on. -/
  on : Bool
  /-- Output contacts (R571): asserted or not. -/
  pwrGood : Bool
  thermTrip : Bool
  alert : Bool
  /-- HUB_SUPPLY. -/
  brown : Bool
  brSeen : Bool
  vin : Nat
  /-- The last sample lay below 42 V (R494). -/
  low : Bool
  /-- Microseconds sampled since power-on; of the last second, the stretches above 60 V: first sample, samples, above 66 V
  (R494, R567). -/
  us : Nat
  high : List (Nat × Nat × Bool)
  /-- An orderly shutdown has been caused and not yet been carried out; its cause is thermal (R495). -/
  shut : Option Bool
  /-- HUB_ENERGY. -/
  uj : Nat
  /-- The fast limiter's cap 4 is in force (R499). -/
  fastCap : Bool
  /-- Last sensor readings: uncore by die, and the hub die (R497). -/
  uncore : Tab Int
  hubT : Int
  /-- HUB_COOL. -/
  tin : Int
  tout : Int
  /-- HUB_STAT: EMU_DOWN, and STWDOWN and STWFAIL by steward. -/
  emuDown : Bool
  stwDown : List Nat
  stwFail : List Nat
  /-- Each steward's share of the power budget, in watts (R500). -/
  shares : List Nat
  /-- EMU_PWR as last measured. -/
  pavg : Nat
  pmax1 : Nat
  emq : List EmWrite
  deriving DecidableEq, Repr

/-- Power at the end of power-on: every steward runs; the shares divide EMU_PLIM's reset limit of 20 kW equally
(log entry 21). -/
def powerReset : Power :=
  { on := true, pwrGood := true, thermTrip := false, alert := false, brown := false, brSeen := false, vin := 0
    low := false, us := 0, high := [], shut := none, uj := 0, fastCap := false, uncore := [], hubT := 0, tin := 0, tout := 0, emuDown := false
    stwDown := [], stwFail := [], shares := [5000, 5000, 5000, 5000], pavg := 0, pmax1 := 0, emq := [] }

/-- How far a function's SPDM exchange has come (R519). -/
inductive SpdmSt where
  | start | version | caps | algs
  deriving DecidableEq, Repr

/-- A function's SPDM exchange: its version in use, and the transcripts that a signature covers: of the negotiation, of
digests and certificates, of measurements (log entry 41). -/
structure Spdm where
  st : SpdmSt
  ver : Nat
  nego : List Byte
  certs : List Byte
  meas : List Byte
  deriving DecidableEq, Repr

/-- An exchange that has not begun. -/
def spdmReset : Spdm := ⟨.start, 0x12, [], [], []⟩

/-- What the fuses and the serial flash hold: it stays through power-off (R514, R517, R546). -/
structure Fuses where
  serial : Nat
  minSvn : Nat
  /-- The boot copy that the flash header names is B. -/
  headB : Bool
  /-- SVN of each copy, and whether the signature of each verifies (step 4 of R515). -/
  svnA : Nat
  svnB : Nat
  okA : Bool
  okB : Bool
  /-- The fused SHA-512 digest of the Holtak firmware public key, and the digest of the key that each copy carries (R514, R515). -/
  fwKey : List Byte
  keyA : List Byte
  keyB : List Byte
  /-- The unique device secret (R514). -/
  secret : List Byte
  /-- Digests: ROM, firmware copies (R521). -/
  rom : List Byte
  digA : List Byte
  digB : List Byte
  /-- Key slot 0, the Holtak image key (R522). -/
  key0 : Mem
  /-- Bytes written into each firmware copy through HUB_FW (R517). -/
  fwA : Mem
  fwB : Mem
  /-- The shipped defect map (R546), and the certificate chain of R514. -/
  dmap : Mem
  chain : List Byte
  deriving DecidableEq, Repr

/-- Fuses and flash of the module that the model starts from (log entry 22): no part of it named defective, both firmware
copies good. -/
def fusesReset : Fuses :=
  { serial := 0, minSvn := 0, headB := false, svnA := 0, svnB := 0, okA := true, okB := true, fwKey := [], keyA := [], keyB := [], secret := [], rom := [], digA := []
    digB := [], key0 := [], fwA := [], fwB := [], dmap := [(0, 0x44), (1, 0x4D), (2, 0x50), (3, 0x4D), (4, 0x01)], chain := [] }

/-- The security block (R513 to R530). -/
structure Security where
  /-- HUB_SEC_STAT.UPD. -/
  upd : Nat
  bootB : Bool
  /-- SVN of the running firmware; measurement 2 as booted. -/
  svn : Nat
  dig : List Byte
  keylock : Bool
  /-- Key slots 1 to 15 (R522). -/
  keys : Mem
  /-- SPDM exchanges by function (R519). -/
  spdm : Tab Spdm
  deriving DecidableEq, Repr

/-- The security block at the end of power-on. -/
def securityReset : Security :=
  { upd := 0, bootB := false, svn := 0, dig := [], keylock := false, keys := [], spdm := [] }

/-- The I3C target (R557, R558) and bring-up (R550 to R562). -/
structure Manage where
  da : Option Nat
  hjEn : Bool
  ibiEn : Bool
  hjWant : Bool
  /-- HUB_BOOT. -/
  testing : Bool
  slow : List Nat
  nlost : Nat
  /-- The endpoint's link is up, and its link training has been started (R552). -/
  linkUp : Bool
  perst : Bool
  /-- The hub die has failed its own self-test (R553). -/
  hubBad : Bool
  deriving DecidableEq, Repr

/-- Management and bring-up at the end of power-on. -/
def manageReset : Manage :=
  { da := none, hjEn := true, ibiEn := true, hjWant := false, testing := false, slow := [], nlost := 0, linkUp := true
    perst := true, hubBad := false }

/-- What leaves the module: the model's own record, newest first (log entry 23). -/
inductive Out where
  /-- A completed read of a register, a window or the aperture: function, address, value of its bytes. -/
  | read (f addr size v : Nat)
  /-- An MSI-X vector raised by a function (R398). -/
  | irq (f vec : Nat)
  /-- A flit on a port (R320): port and bytes. -/
  | flit (port : Nat) (b : List Byte)
  /-- A completed aperture read: function, tenant address, its bytes, and whether they are poisoned (R400). -/
  | aper (f a : Nat) (b : List Byte) (poison : Bool)
  /-- A configuration answer (R379, R552); `none` is Configuration Request Retry Status. -/
  | cfg (f off : Nat) (v : Option Nat)
  /-- A DOE answer of the SPDM responder (R519). -/
  | doe (f : Nat) (b : List Byte)
  /-- An answer on the management bus (R557 to R559). -/
  | i3c (b : List Byte)
  deriving DecidableEq, Repr

/-- A write that waits for a stack which retrains (R451): physical address, bytes, poison mark. -/
structure HeldWrite where
  addr : Nat
  data : List Byte
  poison : Bool
  deriving DecidableEq, Repr

/-- A range that the memory scrub engine zeroes (R455): physical address and length. -/
structure ScrubJob where
  p : Nat
  n : Nat
  deriving DecidableEq, Repr

end Sys2Proof.Machine
end

