-- ==== Sys2Proof/Machine/State.lean ====
section
/-! DEFINITION. State: everything the spec gives the module, as plain data; the state after reset; why a step can stop. -/

namespace Sys2Proof.Machine

/-- The clusters: their common parts by cluster ID, slots by 4c + n, weight tiles by 32,768c + tile, scratchpad bytes by
2^25 c + P, weight-store bytes by 2^27 c + A; poison marks of scratchpad words by 2^20 c + word (R120, R127, R135). A bit
upset that an array holds is state too: the number of wrong bits of a word or granule, which a read meets (R127, R143). -/
structure Clusters where
  clus : Tab Clu
  slots : Tab Slot
  tiles : Tab WTile
  spad : Mem
  spadPoi : Tab Nat
  spadErr : Tab Nat
  wst : Mem
  wErr : Tab Nat
  deriving DecidableEq, Repr

/-- The memory stacks (R435 to R461): bytes by physical address, poison marks and symbol errors by 64-byte codeword. -/
structure Stacks where
  dev : Mem
  devPoi : Tab Nat
  devErr : Tab (List (Nat × Nat))
  stks : Tab Stack
  /-- Writes that wait for a stack which retrains, oldest first (R451). -/
  held : List HeldWrite
  /-- Atomics waiting at each stack, oldest first (R460). -/
  atoms : Tab (List Atom)
  /-- Ranges that wait for the scrub engine, oldest first (R455). -/
  scrub : List ScrubJob
  /-- MEM_SAVE.REFUSED. -/
  saveRefused : Bool
  deriving DecidableEq, Repr

/-- The hub die beside its links (R237, R303 to R314, R352 to R434). -/
structure Hub where
  funcs : Tab Func
  /-- Queues and rings by 2,048f + number. -/
  queues : Tab Queue
  rings : Tab Ring
  items : List Item
  nextItem : Nat
  regions : Tab Region
  ctxs : List Ctx
  nextCtx : Nat
  insts : List Inst
  bindings : List Binding
  reports : List Report
  /-- RUN items that have completed with SUCCESS in the current event tick (R470). -/
  ended : List Ended
  loads : List Load
  loadQ : List LoadJob
  nextLoad : Nat
  /-- Mailbox writes that stacks have reported: function, region, batch entry, the record as written; empty where it is
  poisoned (R418). -/
  mbx : List (Nat × Nat × Nat × List Byte)
  /-- HUB_RSV_CTL, HUB_RSV_MAP: the lost cluster that each reserve stands for, by reserve index; SRC as last written (R312). -/
  rsvCount : Nat
  rsvRefused : Bool
  rmap : Tab Nat
  rsrc : Tab Nat
  /-- HUB_RGN_GRANT0 to 7 in force, and grant writes that wait for the event-tick boundary (R305). -/
  grants : Tab Word
  grantPend : List (Nat × Word)
  grantRefused : Bool
  /-- The window command that waits, with HUB_WINARG as it stood at the command's write (R401, log entry 46);
  HUB_WINSTAT.REFUSED and REASON. -/
  winPend : Option (Nat × Nat)
  winRefused : Bool
  winReason : Nat
  /-- Functions whose HUB_QASSIGN.REFUSED is set. -/
  qaRefused : List Nat
  /-- Round-robin positions of the dispatch unit: function by class, queue by class and function (R410). -/
  rrF : Tab Nat
  rrQ : Tab Nat
  /-- Virtual functions that exist (R380). -/
  numVfs : Nat
  /-- Transfers between clusters that have not arrived (R297). -/
  xfers : List Xfer
  nextXfer : Nat
  /-- HUB_DIE_FENCE. -/
  fenced : List Nat
  fenceRefused : Bool
  deriving DecidableEq, Repr

/-- The Pridun links (R315 to R351). -/
structure Links where
  ports : Tab Port
  node : Nat
  epoch : Nat
  dup : Bool
  /-- The next ASEQ of each destination; 1 where none has been used (R338). -/
  aseq : Tab Nat
  mtag : Nat
  msgs : List Msg
  nextMsg : Nat
  nextTr : Nat
  reasm : List Reasm
  dedup : Tab Dedup
  /-- The LNK_RT window, one byte for each node (R333). -/
  rt : Mem
  deriving DecidableEq, Repr

/-- The state of the module and the queue of its commands. -/
structure State where
  /-- Commands that wait, first in, first out. -/
  pending : List Instr
  cl : Clusters
  mem : Stacks
  hub : Hub
  lnk : Links
  clock : Clock
  ecl : Eclipse
  pow : Power
  fuses : Fuses
  sec : Security
  mng : Manage
  /-- Stored registers, and counters of type RC: by BAR0 address, a register of a function's own block by that address plus
  2^28 f. An unlisted register reads as its Reset value, an unlisted counter as 0. -/
  regs : Tab Word
  ctrs : Tab Nat
  /-- What hardware has counted and set in event tick `nowTick` (R19, R20): of each counter its value before and its
  increments, of each register the W1C bits set. -/
  nowTick : Nat
  nowCtr : Tab (Nat × Nat)
  nowSet : Tab Nat
  /-- The controllers of the pseudo-channels, by 64 times the stack plus the pseudo-channel (R445). -/
  mq : Tab PcQ
  /-- Host memory, by bus address: bytes outside the module that it reads and writes. -/
  host : Mem
  /-- The model's own: a fresh number for each free value that depends on nothing else (log entry 13). -/
  fresh : Nat
  /-- The model's own: what has left the module, newest first (log entry 23). -/
  out : List Out
  deriving DecidableEq, Repr

/-- Why a command stops with a fault. Every one is raised by an index or an address that the spec says does not exist, so
no program of the module can meet it: safe. -/
inductive Fault where
  /-- A cluster ID above 1,535 (R3): raised by every command that names a cluster. Safe. -/
  | noSuchCluster
  /-- A context slot above 3 (R152): raised by every command that names a slot. Safe. -/
  | noSuchSlot
  /-- A die ID above 23 (R5): raised by DIE_FENCE. Safe. -/
  | noSuchDie
  /-- A port index above 7 (R315): raised by every command that names a port. Safe. -/
  | noSuchPort
  /-- A stack above 15 (R435): raised by every command that names a stack. Safe. -/
  | noSuchStack
  /-- A function above 1,023 (R380): raised by every command that names a function. Safe. -/
  | noSuchFunction
  /-- A queue or ring above 2,047 (R384), a grant above 7 (R305), a pipeline region above 255 (R415): raised by the
  commands that name one. Safe. -/
  | noSuchQueue
  /-- A weight tile above 32,767 (R137), a core above 8 (R24), a word outside a scratchpad (R120), a physical address
  outside every stack (R437): raised by the commands that name one. Safe. -/
  | noSuchAddress
  /-- A steward above 3 (R502): raised by the steward commands. Safe. -/
  | noSuchSteward
  deriving DecidableEq, Repr

/-- Why a command is refused. -/
inductive Refusal where
  /-- The model has no meaning for the command yet: raised by Dispatch alone. Safe. -/
  | notModelled (mnemonic : String)
  deriving DecidableEq, Repr

/-- The clusters after reset. -/
def clustersReset : Clusters := ⟨[], [], [], [], [], [], [], []⟩

/-- The stacks after reset: READY, zeroed (R448). -/
def stacksReset : Stacks := ⟨[], [], [], [], [], [], [], false⟩

/-- The hub after reset. -/
def hubReset : Hub :=
  { funcs := [], queues := [], rings := [], items := [], nextItem := 0, regions := [], ctxs := [], nextCtx := 0
    insts := [], bindings := [], reports := [], ended := [], loads := [], loadQ := [], nextLoad := 1, mbx := [], rsvCount := 2
    rsvRefused := false, rmap := [], rsrc := [], grants := [], grantPend := [], grantRefused := false, winPend := none
    winRefused := false, winReason := 0, qaRefused := [], rrF := [], rrQ := [], numVfs := 0, xfers := []
    nextXfer := 0, fenced := [], fenceRefused := false }

/-- The links after reset: unconnected ports, no node ID (R351, R601). -/
def linksReset : Links :=
  { ports := [], node := 0xFFFF, epoch := 0, dup := false, aseq := [], mtag := 0, msgs := [], nextMsg := 0, nextTr := 0
    reasm := [], dedup := [], rt := [] }

/-- The module at the end of power-on (R22, R601): READY, nothing attached, nothing assigned, nothing loaded. -/
def State.reset : State :=
  { pending := [], cl := clustersReset, mem := stacksReset, hub := hubReset, lnk := linksReset, clock := clockReset
    ecl := eclReset, pow := powerReset, fuses := fusesReset, sec := securityReset, mng := manageReset, regs := []
    ctrs := [], nowTick := 0, nowCtr := [], nowSet := [], mq := [], host := [], fresh := 0, out := [] }

end Sys2Proof.Machine
end

