-- ==== Sys2Proof/Machine/Ops.lean ====
section
/-! DEFINITION. The named operations over State: reading and writing its parts, counters and stored registers, free values,
and the guards under which the families' commands act. -/

namespace Sys2Proof.Machine

/-! ### Parts -/

/-- The common part of cluster `c`. -/
def getClu (s : State) (c : Nat) : Clu := tabGet cluReset s.cl.clus c

/-- `s` with cluster `c`'s common part `v`. -/
def putClu (s : State) (c : Nat) (v : Clu) : State := { s with cl.clus := tabSet s.cl.clus c v }

/-- `s` with cluster `c`'s common part changed by `g`. -/
def modClu (s : State) (c : Nat) (g : Clu → Clu) : State := putClu s c (g (getClu s c))

/-- Slot `n` of cluster `c`. -/
def getSlot (s : State) (c n : Nat) : Slot := tabGet slotReset s.cl.slots (4 * c + n)

/-- `s` with slot `n` of cluster `c` set to `v`. -/
def putSlot (s : State) (c n : Nat) (v : Slot) : State := { s with cl.slots := tabSet s.cl.slots (4 * c + n) v }

/-- `s` with slot `n` of cluster `c` changed by `g`. -/
def modSlot (s : State) (c n : Nat) (g : Slot → Slot) : State := putSlot s c n (g (getSlot s c n))

/-- Weight tile `t` of cluster `c` (R137, R144): bits [26:12] of a cluster weight address. -/
def getTile (s : State) (c t : Nat) : WTile := tabGet tileReset s.cl.tiles (32768 * c + t)

/-- `s` with a weight tile set; a tile as at power-up is not listed. -/
def putTile (s : State) (c t : Nat) (v : WTile) : State :=
  { s with cl.tiles := tabPut tileReset s.cl.tiles (32768 * c + t) v }

/-- Function `f` (R380). -/
def getFunc (s : State) (f : Nat) : Func := tabGet funcReset s.hub.funcs f

/-- `s` with function `f` changed by `g`. -/
def modFunc (s : State) (f : Nat) (g : Func → Func) : State :=
  { s with hub.funcs := tabSet s.hub.funcs f (g (getFunc s f)) }

/-- Local queue `q` of function `f` (R383). -/
def getQueue (s : State) (f q : Nat) : Queue := tabGet queueReset s.hub.queues (2048 * f + q)

/-- `s` with a queue changed by `g`. -/
def modQueue (s : State) (f q : Nat) (g : Queue → Queue) : State :=
  { s with hub.queues := tabSet s.hub.queues (2048 * f + q) (g (getQueue s f q)) }

/-- Completion ring `r` of function `f` (R384). -/
def getRing (s : State) (f r : Nat) : Ring := tabGet ringReset s.hub.rings (2048 * f + r)

/-- `s` with a completion ring changed by `g`. -/
def modRing (s : State) (f r : Nat) (g : Ring → Ring) : State :=
  { s with hub.rings := tabSet s.hub.rings (2048 * f + r) (g (getRing s f r)) }

/-- The valid region descriptor of region `r` (R303). -/
def getRegion (s : State) (r : Nat) : Option Region := tabFind s.hub.regions r

/-- `s` with region `r` changed by `g`, where it is valid. -/
def modRegion (s : State) (r : Nat) (g : Region → Region) : State :=
  match getRegion s r with
  | none => s
  | some d => { s with hub.regions := tabSet s.hub.regions r (g d) }

/-- Memory stack `k` (R435). -/
def getStack (s : State) (k : Nat) : Stack := tabGet stackReset s.mem.stks k

/-- `s` with a stack changed by `g`. -/
def modStack (s : State) (k : Nat) (g : Stack → Stack) : State :=
  { s with mem.stks := tabSet s.mem.stks k (g (getStack s k)) }

/-- Port `n` (R315). -/
def getPort (s : State) (n : Nat) : Port := tabGet portReset s.lnk.ports n

/-- `s` with a port changed by `g`. -/
def modPort (s : State) (n : Nat) (g : Port → Port) : State :=
  { s with lnk.ports := tabSet s.lnk.ports n (g (getPort s n)) }

/-- `s` with the loaded contexts that meet `p` changed by `g`. -/
def modCtxs (s : State) (p : Ctx → Bool) (g : Ctx → Ctx) : State :=
  { s with hub.ctxs := s.hub.ctxs.map (fun x => if p x then g x else x) }

/-- The loaded context number `i`. -/
def getCtx (s : State) (i : Nat) : Option Ctx := s.hub.ctxs.find? (fun x => x.id == i)

/-- The context that slot `n` of cluster `c` holds. -/
def slotCtx (s : State) (c n : Nat) : Option Ctx :=
  match (getSlot s c n).ctx with
  | none => none
  | some i => getCtx s i

/-- `s` with work item number `i` changed by `g`. -/
def modItem (s : State) (i : Nat) (g : Item → Item) : State :=
  { s with hub.items := s.hub.items.map (fun x => if x.id == i then g x else x) }

/-- Work item number `i`. -/
def getItem (s : State) (i : Nat) : Option Item := s.hub.items.find? (fun x => x.id == i)

/-! ### Counters, stored registers, free values, the record of what leaves -/

/-- The counter at key `a`. -/
def ctr (s : State) (a : Nat) : Nat := tabGet 0 s.ctrs a

/-- The event tick of the present FTC (R468). -/
def eventTick (s : State) : Nat := s.clock.ftc / 16

/-- `s` with the record of the present event tick begun anew where it is of an earlier one (R19, R20). -/
def nowSync (s : State) : State :=
  let same := s.nowTick == eventTick s
  { s with nowTick := eventTick s, nowCtr := if same then s.nowCtr else [], nowSet := if same then s.nowSet else [] }

/-- The value before the present event tick's increments of the counter at key `a`, and the increments (R19). -/
def nowCount (s : State) (a : Nat) : Nat × Nat :=
  if s.nowTick = eventTick s then (tabFind s.nowCtr a).getD (ctr s a, 0) else (ctr s a, 0)

/-- `s` with the counter at key `a` of `w` bits raised by `n`, holding at its largest value (R59, R90, R150). -/
def bumpW (w : Nat) (s : State) (a n : Nat) : State :=
  let v := nowCount s a
  let t := nowSync s
  { s with
    ctrs := if n = 0 then s.ctrs else tabPut 0 s.ctrs a (min (ctr s a + n) (2 ^ w - 1))
    nowTick := if n = 0 then s.nowTick else t.nowTick
    nowCtr := if n = 0 then s.nowCtr else tabSet t.nowCtr a (v.1, v.2 + n)
    nowSet := if n = 0 then s.nowSet else t.nowSet }

/-- Hardware sets W1C bits of the register at key `a` (R20). -/
def markSet (s : State) (a mask : Nat) : State :=
  let s := nowSync s
  { s with nowSet := tabSet s.nowSet a (tabGet 0 s.nowSet a ||| mask) }

/-- A write of 1 clears W1C bit `i` of the register at key `a`: hardware has not set it in this event tick (R20). -/
def w1cTakes (s : State) (a i v : Nat) : Bool :=
  bitB v i && !(s.nowTick == eventTick s && bitB (tabGet 0 s.nowSet a) i)

/-- A 32-bit counter raised by `n`. -/
def bump (s : State) (a n : Nat) : State := bumpW 32 s a n

/-- A 32-bit counter of cluster `c`. -/
def bumpC (s : State) (c off n : Nat) : State := bump s (cluAddr c off) n

/-- A 64-bit counter of cluster `c` (R90). -/
def bumpC64 (s : State) (c off n : Nat) : State := bumpW 64 s (cluAddr c off) n

/-- The stored register at key `a`. -/
def reg (s : State) (a : Nat) : Nat := (tabGet (BitVec.ofNat 64 (resetOf a)) s.regs a).toNat

/-- `s` with the stored register at key `a` set to `v`. -/
def setReg (s : State) (a v : Nat) : State := { s with regs := tabSet s.regs a (BitVec.ofNat 64 v) }

/-- The stored register `off` of function `f`'s TEN block. -/
def tenReg (s : State) (f off : Nat) : Nat := reg s (tenAddr f off)

/-- The stored register `off` of cluster `c`'s block. -/
def cluReg (s : State) (c off : Nat) : Nat := reg s (cluAddr c off)

/-- `s` with the counter of free values stepped on (log entry 13). -/
def stepFresh (s : State) : State := { s with fresh := s.fresh + 1 }

/-- `s` with the counter at offset `off` of cluster `c` raised by a free count of waiting cycles (log entry 13). -/
def bumpFree (s : State) (c off : Nat) : State := stepFresh (bumpC s c off (Config.waitCycles s.fresh))

/-- The same for a 64-bit counter. -/
def bumpFree64 (s : State) (c off : Nat) : State := stepFresh (bumpC64 s c off (Config.waitCycles s.fresh))

/-- `s` with one more thing that has left the module. -/
def emit (s : State) (o : Out) : State := { s with out := o :: s.out }

/-! ### When a command acts -/

/-- The module is stopped by Eclipse (R478): from T until the restart. -/
def eclHalted (s : State) : Bool :=
  match s.ecl.st with
  | .stopping => true | .stopped => true | .resuming => true | .idle => false | .armed => false

/-- A command of the hub that the module takes whenever it is on. -/
def hubCmd (s : State) (g : State → State) : Host.Outcome State Fault Refusal :=
  .next (if s.pow.on then g s else s)

/-- A command of the dispatch unit, the load path or the prefix walker: Eclipse stops them (R478), and so does a shutdown
that has been caused (R495). -/
def dispCmd (s : State) (g : State → State) : Host.Outcome State Fault Refusal :=
  hubCmd s (fun s => if eclHalted s || s.pow.shut.isSome then s else g s)

/-- The compute clock of cluster `c` runs: its domain is on, no park holds it, Eclipse and shutdown do not (R478, R491,
R495, R498). -/
def cluRuns (s : State) (c : Nat) : Bool :=
  let k := getClu s c
  !k.compOff && !k.parkStw && !k.parkHw && !k.clkStop && !eclHalted s && s.pow.shut.isNone

/-- A command that names cluster `c`. -/
def cluCmd (s : State) (c : Nat) (g : State → State) : Host.Outcome State Fault Refusal :=
  if c < Config.clusters then hubCmd s g else .fault .noSuchCluster

/-- A command that cluster `c` carries out on its running clock. -/
def cluRun (s : State) (c : Nat) (g : State → State) : Host.Outcome State Fault Refusal :=
  cluCmd s c (fun s => if cluRuns s c then g s else s)

/-- A command of slot `sl` of cluster `c` on its running clock. -/
def slotRun (s : State) (c sl : Nat) (g : State → State) : Host.Outcome State Fault Refusal :=
  if c < Config.clusters then (if sl < 4 then cluRun s c g else .fault .noSuchSlot) else .fault .noSuchCluster

/-- A command that names slot `sl` of cluster `c`. -/
def slotCmd (s : State) (c sl : Nat) (g : State → State) : Host.Outcome State Fault Refusal :=
  if c < Config.clusters then (if sl < 4 then hubCmd s g else .fault .noSuchSlot) else .fault .noSuchCluster

/-- A command that names function `f`; a virtual function above NumVFs does not exist, and its commands change nothing
(R380). -/
def funcCmd (s : State) (f : Nat) (g : State → State) : Host.Outcome State Fault Refusal :=
  if f < Config.functions then hubCmd s (fun s => if f ≤ s.hub.numVfs then g s else s) else .fault .noSuchFunction

/-- A command that names queue or ring `q` of function `f`. -/
def queueCmd (s : State) (f q : Nat) (g : State → State) : Host.Outcome State Fault Refusal :=
  if q < 2048 then funcCmd s f g else .fault .noSuchQueue

/-- A command that names port `n`. -/
def portCmd (s : State) (n : Nat) (g : State → State) : Host.Outcome State Fault Refusal :=
  if n < Config.ports then hubCmd s g else .fault .noSuchPort

/-- A command that names stack `k`. -/
def stackCmd (s : State) (k : Nat) (g : State → State) : Host.Outcome State Fault Refusal :=
  if k < Config.stacks then hubCmd s g else .fault .noSuchStack

/-- A command that names steward `k`. -/
def stwCmd (s : State) (k : Nat) (g : State → State) : Host.Outcome State Fault Refusal :=
  if k < 4 then hubCmd s g else .fault .noSuchSteward

/-! ### Geometry (R3 to R6, R25, R436) -/

/-- The cluster ID of the cluster at (X, Y). -/
def cluAt (x y : Nat) : Nat := 48 * y + x

/-- X and Y of a cluster. -/
def cluX (c : Nat) : Nat := c % 48
def cluY (c : Nat) : Nat := c / 48

/-- The die of a cluster. -/
def dieOf (c : Nat) : Nat := 6 * (cluY c / 8) + cluX c / 8

/-- The clusters of a die in ascending ID. -/
def dieClusters (d : Nat) : List Nat :=
  (List.range 64).map (fun i => cluAt (8 * (d % 6) + i % 8) (8 * (d / 6) + i / 8))

/-- The die that owns a stack. -/
def stackDie (k : Nat) : Nat :=
  if k < 7 then k else if k = 7 then 11 else if k = 8 then 12 else if k = 9 then 17 else k + 8

/-- The stack of a die. -/
def dieStack (d : Nat) : Option Nat := (List.range 16).find? (fun k => stackDie k == d)

/-! ### Clocks and shutdown (R476, R492, R495) -/

/-- A cluster's part with its cycles counted up to the moment `now` of the clusters' running time, before its frequency or
its state of running changes (R476). -/
def settled (now : Nat) (k : Clu) : Clu :=
  let runs := !k.compOff && !k.parkStw && !k.parkHw && !k.clkStop
  { k with cyc := k.cyc + (if runs then (now - k.cycAt) * k.cfreq else 0), cycAt := now }

/-- The same for cluster `c`. -/
def settleCyc (s : State) (c : Nat) : State := modClu s c (settled s.clock.run)

/-- An orderly shutdown is caused: PWR_GOOD is deasserted, and THERM_TRIP asserted where the cause is thermal; the first
cause stands (R495). -/
def causeShut (s : State) (thermal : Bool) : State :=
  if s.pow.shut.isSome then s
  else { s with pow.shut := some thermal, pow.pwrGood := false, pow.thermTrip := thermal }

/-! ### The shipped defect map (R546) -/

/-- Entries of the map, each as its 8 bytes. -/
def dmapEntries (s : State) : List (List Byte) :=
  (List.range (memNat s.fuses.dmap 6 2)).map (fun i => memBytes s.fuses.dmap (32 + 8 * i) 8)

/-- Byte `i` of an entry, and its cluster ID. -/
def dmapByte (e : List Byte) (i : Nat) : Nat := (nth 0 e i).toNat
def dmapClu (e : List Byte) : Nat := dmapByte e 2 + 256 * dmapByte e 3

/-! ### Reserves (R308 to R310) -/

/-- The index 2·die + slot of a reserve position: slot 0 at local (7, 7), slot 1 at local (0, 0). -/
def rsvIdx (c : Nat) : Option Nat :=
  if cluX c % 8 = 7 ∧ cluY c % 8 = 7 then some (2 * dieOf c)
  else if cluX c % 8 = 0 ∧ cluY c % 8 = 0 then some (2 * dieOf c + 1)
  else none

/-- The cluster at a reserve position. -/
def rsvClu (i : Nat) : Nat :=
  let d := i / 2
  if i % 2 = 0 then cluAt (8 * (d % 6) + 7) (8 * (d / 6) + 7) else cluAt (8 * (d % 6)) (8 * (d / 6))

/-- HUB_RSV_CTL.COUNT keeps the position `i`; 3 is treated as 2. -/
def rsvKept (s : State) (i : Nat) : Bool := decide (i % 2 < min 2 s.hub.rsvCount)

/-- HUB_CLU_MAP.STATE: 0 WORKING, 1 RESERVE, 2 IN_USE, 3 LOST (R314). -/
def cluState (s : State) (c : Nat) : Nat :=
  if (getClu s c).lost then 3
  else match rsvIdx c with
    | none => 0
    | some i => if (tabFind s.hub.rmap i).isSome then 2 else if rsvKept s i then 1 else 0

/-- The ID that a cluster's programs see: a bound reserve has its lost cluster's (R310). -/
def seenId (s : State) (c : Nat) : Nat :=
  match rsvIdx c with
  | none => c
  | some i => (tabFind s.hub.rmap i).getD c

/-- The cluster that answers to an ID: a lost cluster's bound reserve, else itself (R310). -/
def boundClu (s : State) (c : Nat) : Nat :=
  match s.hub.rmap.find? (fun p => p.2 == c) with
  | some p => if (getClu s c).lost then rsvClu p.1 else c
  | none => c

end Sys2Proof.Machine
end

