-- ==== Sys2Proof/Machine/DevMem.lean ====
section
/-! DEFINITION. Device memory and host memory: codewords, poison, tenant windows (R437 to R443, R449, R452, R453). -/

namespace Sys2Proof.Machine

/-- Bytes that a stack addresses (R437). -/
def stackBytes : Nat := 95999229952

/-- The stack of a physical address, and its offset there. -/
def stackOf (p : Nat) : Nat := p / 2 ^ 37
def offsetOf (p : Nat) : Nat := p % 2 ^ 37

/-- A physical address that a stack addresses. -/
def physOk (p : Nat) : Bool := decide (stackOf p < 16) && decide (offsetOf p < stackBytes)

/-- The pseudo-channel of a stack offset (R438). -/
def pseudoChannel (a : Nat) : Nat := bits a 13 8 ^^^ bits a 25 20

/-- A command at physical address `p`. -/
def physCmd (s : State) (p : Nat) (g : State → State) : Host.Outcome State Fault Refusal :=
  if physOk p = true then hubCmd s g else .fault .noSuchAddress

/-- The stack takes no request (R449). -/
def stackFailed (s : State) (k : Nat) : Bool := (getStack s k).st == .failed

/-- Requests to the stack wait (R448, R451). -/
def stackWaits (s : State) (k : Nat) : Bool :=
  match (getStack s k).st with
  | .training => true | .retrain => true | .ready => false | .failed => false

/-- MEM_STKn_CELOG for a correction (R440, R461). -/
def ceLog (a : Nat) (es : List (Nat × Nat)) : Nat :=
  let s0 := match es with | e :: _ => e.1 | [] => 63
  let s1 := match es with | _ :: e :: _ => e.1 | _ => 63
  2 ^ 63 + pseudoChannel a * 2 ^ 57 + s0 * 2 ^ 51 + s1 * 2 ^ 45 + a / 64 * 64

/-- MEM_STKn_UELOG (R440, R461). -/
def ueLog (a : Nat) : Nat := 2 ^ 63 + pseudoChannel a * 2 ^ 57 + a / 64 * 64

/-- `s` with a logging register set; a later event overwrites it. -/
def setLog (s : State) (a v : Nat) : State := { s with ctrs := tabPut 0 s.ctrs a v }

/-- Poison and stored errors of codeword `cw` set. -/
def setCw (s : State) (cw : Nat) (poi : Bool) (es : List (Nat × Nat)) : State :=
  { s with mem.devPoi := tabPut 0 s.mem.devPoi cw (b2n poi), mem.devErr := tabPut [] s.mem.devErr cw es }

/-- The symbols of codeword `cw` that travel on a lane which has failed since training (R450). -/
def badSyms (s : State) (cw : Nat) : List Nat :=
  match (getStack s (stackOf (64 * cw))).bad with
  | [] => []
  | ls => uniq ((ls.filter (fun l => l.1 == pseudoChannel (offsetOf (64 * cw)))).map (·.2))

/-- The errors that a read of codeword `cw` meets: the stored ones, and one on the symbol of each lane of its pseudo-channel that
has failed since training (R450). -/
def cwErrs (s : State) (cw : Nat) : List (Nat × Nat) :=
  let on := badSyms s cw
  (tabGet [] s.mem.devErr cw).filter (fun e => !on.contains e.1) ++ on.map (fun y => (y, Config.laneNoise cw y % 65535 + 1))

/-- Codeword `cw` has been written, whole, with its poison mark: each lane that has failed since training has spoiled its symbol on
the way (R450). -/
def storeCw (s : State) (cw : Nat) (poi : Bool) : State :=
  setCw s cw poi ((badSyms s cw).map (fun y => (y, Config.laneNoise cw (y + 64) % 65535 + 1)))

/-- A read of codeword `cw`: its 64 bytes as the requester gets them, and the poison mark (R440, R441, R449). -/
def cwRead (s : State) (cw : Nat) : State × List Byte × Bool :=
  let p := 64 * cw
  let k := stackOf p
  let bs := memBytes s.mem.dev p 64
  let poi := tabGet 0 s.mem.devPoi cw == 1
  let es := cwErrs s cw
  if stackFailed s k then (s, bs, true)
  else if es.isEmpty then (s, bs, poi)
  else
    let raw := applyErrs bs es
    match cwClass (es ++ (if poi then poisonPattern else [])) with
    | .clean => (s, raw, false)
    | .poisoned => (s, raw, true)
    | .corrected fix =>
      (setLog (bump s (stkAddr k 0x8) 1) (stkAddr k 0x18) (ceLog (offsetOf p) fix), applyErrs raw fix, false)
    | .bad =>
      let s := setLog (bump s (stkAddr k 0xC) 1) (stkAddr k 0x20) (ueLog (offsetOf p))
      let s := { s with mem.dev := memPut s.mem.dev p raw }
      (storeCw s cw true, raw, true)

/-- Codewords that a range touches. -/
def cwsOf (p n : Nat) : List Nat :=
  if n = 0 then [] else (List.range ((p + n - 1) / 64 + 1 - p / 64)).map (fun i => p / 64 + i)

/-- A codeword of the range is poisoned or holds errors. -/
def cwMarked (s : State) (p n : Nat) : Bool :=
  let lo := p / 64
  let m := (p + n + 63) / 64 - lo
  !(tabRange s.mem.devPoi lo m).isEmpty || !(tabRange s.mem.devErr lo m).isEmpty || !(getStack s (stackOf p)).bad.isEmpty

/-- Read the codewords of a range one after the other: the state, the bytes of all of them, a poison mark for each. -/
def cwReadAll (s : State) : List Nat → State × List Byte × List Bool
  | [] => (s, [], [])
  | cw :: cws =>
    let (s, bs, poi) := cwRead s cw
    let (s, rest, ps) := cwReadAll s cws
    (s, bs ++ rest, poi :: ps)

/-! ### Requests at the pseudo-channels (R444, R445) -/

/-- The level of a read or a write of a class (R444); the scrubs have level 3. -/
def reqLevel (rd : Bool) (k : Cls) : Nat :=
  match k with
  | .u => if rd then 0 else 1
  | .i => 1
  | .b => 2

/-- The pseudo-channel that 256-byte run `r` lies in, and the codewords of a range there (R438). -/
def runBursts (p n r : Nat) : Nat × Nat :=
  (64 * stackOf p + pseudoChannel (offsetOf (256 * r)), min ((p + n - 1) / 64) (4 * r + 3) + 1 - max (p / 64) (4 * r))

/-- The bursts of a range: 64 consecutive runs take four of every pseudo-channel. -/
def memBursts (p n : Nat) : List (Nat × Nat) :=
  if n = 0 then []
  else
    let r := p / 256
    let e := (p + n - 1) / 256 + 1
    let a := (p + 16383) / 16384 * 64
    let b := (p + n) / 16384 * 64
    if b ≤ a then (List.range (e - r)).map (fun i => runBursts p n (r + i))
    else
      (List.range (a - r)).map (fun i => runBursts p n (r + i)) ++
        (List.range 64).map (fun i => (64 * stackOf p + i, 4 * ((b - a) / 64))) ++
        (List.range (e - b)).map (fun i => runBursts p n (b + i))

/-- A request of a level joins its controllers' queues. -/
def memAsk (s : State) (lv p n : Nat) : State :=
  if stackFailed s (stackOf p) then s
  else
    { s with
      mq := (memBursts p n).foldl (fun t x =>
        let q := tabGet pcqReset t x.1
        tabSet t x.1 { q with want := tabSet q.want lv (tabGet 0 q.want lv + x.2) }) s.mq }

/-- The share of a level, in bursts of a window (MEM_PRIO). -/
def levelShare (v lv : Nat) : Nat :=
  match lv with
  | 1 => 4 * bits v 7 0
  | 2 => 4 * bits v 15 8
  | 3 => 4 * bits v 23 16
  | _ => 0

/-- The bursts of its share that a level with requests has still to get in this window. -/
def levelDue (v : Nat) (q : PcQ) (lv : Nat) : Nat := min (tabGet 0 q.want lv) (levelShare v lv - tabGet 0 q.got lv)

/-- The level that a controller grants next: the lowest with a request, unless the rest of the window is needed for the
shares. -/
def pcPick (v : Nat) (q : PcQ) : Option Nat :=
  let wait := [0, 1, 2, 3].filter (fun lv => decide (0 < tabGet 0 q.want lv))
  if natSum (wait.map (levelDue v q)) < 256 - q.used then wait.head?
  else match wait.find? (fun lv => decide (0 < levelDue v q lv)) with
    | some lv => some lv
    | none => wait.head?

/-- A controller grants one burst. -/
def pcGrant (v : Nat) (q : PcQ) : PcQ :=
  match pcPick v q with
  | none => q
  | some lv =>
    let want := tabPut 0 q.want lv (tabGet 0 q.want lv - 1)
    if 255 ≤ q.used then ⟨want, 0, []⟩ else ⟨want, q.used + 1, tabSet q.got lv (tabGet 0 q.got lv + 1)⟩

/-- Every controller of a stack that takes requests grants a burst; a FAILED stack's requests are gone (R449, R451). -/
def memTick (s : State) : State :=
  let v := reg s aPrio
  { s with
    mq := (s.mq.filter (fun p => !stackFailed s (p.1 / 64))).map (fun p =>
      (p.1, if stackWaits s (p.1 / 64) then p.2 else pcGrant v p.2)) }

/-- A read of `n` bytes at physical address `p` for a requester of class `k`: the bytes, and a poison mark for each codeword
that it touches. -/
def physRead (s : State) (k : Cls) (p n : Nat) : State × List Byte × List Bool :=
  let s := memAsk s (reqLevel true k) p n
  if !cwMarked s p n && !stackFailed s (stackOf p) then
    (s, memBytes s.mem.dev p n, (cwsOf p n).map (fun _ => false))
  else
    let (s, bs, ps) := cwReadAll s (cwsOf p n)
    (s, (bs.drop (p % 64)).take n, ps)

/-- A codeword that a write covers only in part is read first; its data and its poison stay as read (R442). -/
def cwMerge (s : State) (cw : Nat) : State × Bool :=
  let (s, bs, poi) := cwRead s cw
  if (cwErrs s cw).isEmpty then (s, poi)
  else ({ s with mem.dev := memPut s.mem.dev (64 * cw) bs }, poi)

/-- Codewords that a write covers only in part. -/
def cwPartial (p n : Nat) : List Nat :=
  (cwsOf p n).filter (fun cw => decide (64 * cw < p) || decide (p + n < 64 * cw + 64))

/-- Merge the partly covered codewords of a write and tell which of them are poisoned. -/
def cwMergeAll (s : State) : List Nat → State × List Nat
  | [] => (s, [])
  | cw :: cws =>
    let (s, poi) := cwMerge s cw
    let (s, ps) := cwMergeAll s cws
    (s, if poi then cw :: ps else ps)

/-- A write of bytes at physical address `p` takes effect at its controllers, with a poison mark of the data (R441, R442). At a
FAILED stack the write of every codeword is dropped and counted (R449). -/
def storePhys (s : State) (p : Nat) (bs : List Byte) (poison : Bool) : State :=
  let n := bs.length
  if n = 0 then s
  else if stackFailed s (stackOf p) then bump s (stkAddr (stackOf p) 0xC) (cwsOf p n).length
  else if !cwMarked s p n && !poison then { s with mem.dev := memPut s.mem.dev p bs }
  else
    let (s, ps) := cwMergeAll s (cwPartial p n)
    let s := { s with mem.dev := memPut s.mem.dev p bs }
    (cwsOf p n).foldl (fun s cw => storeCw s cw (poison || ps.contains cw)) s

/-- The requests of a write: two bursts for a codeword that it covers in part (R442). -/
def askWrite (s : State) (k : Cls) (p n : Nat) : State :=
  (cwPartial p n).foldl (fun s cw => memAsk s (reqLevel false k) (64 * cw) 64) (memAsk s (reqLevel false k) p n)

/-- A write of bytes at physical address `p` for a requester of class `k`. While its stack trains or retrains the write waits, behind
those that wait already (R448, R451). -/
def physWrite (s : State) (k : Cls) (p : Nat) (bs : List Byte) (poison : Bool) : State :=
  let s := askWrite s k p bs.length
  if stackWaits s (stackOf p) then { s with mem.held := s.mem.held ++ [⟨p, bs, poison⟩] } else storePhys s p bs poison

/-- The writes that wait for stack `k` take effect, oldest first (R451). -/
def storeHeld (s : State) (k : Nat) : State :=
  let mine := fun (w : HeldWrite) => stackOf w.addr == k
  let ws := s.mem.held.filter mine
  ws.foldl (fun s w => storePhys s w.addr w.data w.poison) { s with mem.held := s.mem.held.filter (fun w => !mine w) }

/-- Zero codewords with valid check symbols in a range of whole codewords (R448, R455). -/
def physZero (s : State) (p n : Nat) : State :=
  let s := { s with
    mem.dev := memZero s.mem.dev p n
    mem.devPoi := tabDrop s.mem.devPoi (p / 64) (n / 64)
    mem.devErr := tabDrop s.mem.devErr (p / 64) (n / 64) }
  match (getStack s (stackOf p)).bad with
  | [] => s
  | _ => (cwsOf p n).foldl (fun s cw => storeCw s cw false) s

/-! ### Tenant addresses (R400, R453) -/

/-- Bytes of a window unit. -/
def unit2M : Nat := 2 ^ 21

/-- The window of function `f` that holds tenant address `t`. -/
def tenWin (s : State) (f t : Nat) : Option Window :=
  ((getFunc s f).wins.find? (fun w => decide (w.2.tbase ≤ t / unit2M) && decide (t / unit2M < w.2.tbase + w.2.size))).map
    (fun w => w.2)

/-- The physical pieces of a tenant range, or none where a byte of it lies in no window; by fuel. -/
def tenPiecesAux (s : State) (f : Nat) : Nat → Nat → Nat → Option (List (Nat × Nat))
  | 0, _, _ => none
  | fuel + 1, t, n =>
    if n = 0 then some []
    else match tenWin s f t with
      | none => none
      | some w =>
        let p := (w.pbase + t / unit2M - w.tbase) * unit2M + t % unit2M
        let m := min n ((w.tbase + w.size) * unit2M - t)
        (tenPiecesAux s f fuel (t + m) (n - m)).map (fun r => (p, m) :: r)

/-- The physical pieces of a tenant range. A function has at most 64 windows. -/
def tenPieces (s : State) (f t n : Nat) : Option (List (Nat × Nat)) := tenPiecesAux s f 66 t n

/-- The range lies in the function's windows. -/
def tenOk (s : State) (f t n : Nat) : Bool := (tenPieces s f t n).isSome

/-- The physical address of a tenant address. -/
def tenPhys (s : State) (f t : Nat) : Option Nat :=
  match tenPieces s f t 1 with
  | some ((p, _) :: _) => some p
  | _ => none

/-- A stack that the range reaches makes its requests wait. -/
def tenWaits (s : State) (f t n : Nat) : Bool :=
  match tenPieces s f t n with
  | none => false
  | some ps => ps.any (fun q => stackWaits s (stackOf q.1))

/-- A window of the function lies on a stack that makes its requests wait: work that reads device memory at addresses which it
finds there waits as a whole (R451; DESIGN CHOICE, log entry 88). -/
def funcWaits (s : State) (f : Nat) : Bool :=
  (getFunc s f).wins.any (fun w => stackWaits s (stackOf (w.2.pbase * unit2M)))

/-- Read pieces. -/
def readPieces (s : State) (k : Cls) : List (Nat × Nat) → State × List Byte × List Bool
  | [] => (s, [], [])
  | (p, n) :: ps =>
    let (s, bs, m) := physRead s k p n
    let (s, rest, ms) := readPieces s k ps
    (s, bs ++ rest, m ++ ms)

/-- Write bytes over pieces. -/
def writePieces (s : State) (k : Cls) (bs : List Byte) (poison : Bool) : List (Nat × Nat) → State
  | [] => s
  | (p, n) :: ps => writePieces (physWrite s k p (bs.take n) poison) k (bs.drop n) poison ps

/-- A read of `n` bytes at a tenant address: the bytes and whether a codeword of them is poisoned; none outside the windows. -/
def tenRead (s : State) (k : Cls) (f t n : Nat) : Option (State × List Byte × Bool) :=
  match tenPieces s f t n with
  | none => none
  | some ps =>
    let (s, bs, ms) := readPieces s k ps
    some (s, bs, ms.any id)

/-- BASE of TEN_PIPEAr. -/
def pipeBase (s : State) (f r : Nat) : Nat := tenReg s f (oPipeA r) / 64 * 64

/-- The registered mailboxes of a function: region and tenant address (R415, R418). -/
def mailboxes (s : State) (f : Nat) : List (Nat × Nat) :=
  (s.hub.regions.filter (fun d => d.2.pipe && d.2.f == f && bitB (tenReg s f (oPipeA d.1)) 0)).map
    (fun d => (d.1, pipeBase s f d.1 + 16384))

/-- Physical pieces meet a tenant range; one that has a byte outside the windows counts as met. -/
def piecesMeet (s : State) (f t n : Nat) (ps : List (Nat × Nat)) : Bool :=
  match tenPieces s f t n with
  | none => true
  | some qs => qs.any (fun q => ps.any (fun p => overlaps p.1 p.2 q.1 q.2))

/-- The mailbox records that a write of physical pieces touches: region and entry. -/
def mailHits (s : State) (f : Nat) (ps : List (Nat × Nat)) : List (Nat × Nat) :=
  ((mailboxes s f).filter (fun m => piecesMeet s f m.2 32768 ps)).flatMap (fun m =>
    ((List.range 1024).filter (fun e => match tenPhys s f (m.2 + 32 * e) with
      | some a => ps.any (fun p => overlaps p.1 p.2 a 32)
      | none => false)).map (fun e => (m.1, e)))

/-- A mailbox record as it stands, empty where it is poisoned. -/
def mailRec (s : State) (f r e : Nat) : List Byte :=
  match tenRead s .b f (pipeBase s f r + 16384 + 32 * e) 32 with
  | some (_, bs, false) => bs
  | _ => []

/-- A write of physical pieces for a function has been made: each mailbox record that it touches is reported to the dispatch unit
(R418). -/
def mailReport (s : State) (f : Nat) (ps : List (Nat × Nat)) : State :=
  { s with hub.mbx := s.hub.mbx ++ (mailHits s f ps).map (fun h => (f, h.1, h.2, mailRec s f h.1 h.2)) }

/-- A write at a tenant address; a range that is not wholly in the windows is not written. -/
def tenWrite (s : State) (k : Cls) (f t : Nat) (bs : List Byte) (poison : Bool) : State :=
  match tenPieces s f t bs.length with
  | none => s
  | some ps => mailReport (writePieces s k bs poison ps) f ps

/-- The bytes at a tenant address as they stand, without a read's effects (a page walker or the hub that has read them
already holds them). -/
def tenPeek (s : State) (f t n : Nat) : List Byte :=
  match tenPieces s f t n with
  | none => []
  | some ps => ps.flatMap (fun q => memBytes s.mem.dev q.1 q.2)

/-! ### Host memory, and rings in either memory (R385, R394) -/

/-- Host bytes. -/
def hostRead (s : State) (a n : Nat) : List Byte := memBytes s.host a n

/-- Host bytes written. -/
def hostWrite (s : State) (a : Nat) (bs : List Byte) : State := { s with host := memPut s.host a bs }

/-- A write of a record of function `f` to a ring in host memory (LOC 0) or device memory (LOC 1); a record
of the hub belongs to no class and takes B (DESIGN CHOICE, log entry 86). -/
def locWrite (s : State) (f : Nat) (loc : Bool) (a : Nat) (bs : List Byte) : State :=
  if loc then tenWrite s .b f a bs false else hostWrite s a bs

end Sys2Proof.Machine
end

