-- ==== Sys2Proof/Machine/PciSpace.lean ====
section
/-! DEFINITION. The configuration space of the endpoint's functions: the identity, the base address registers and the
capabilities of R378, R379 and R381 (R378 to R381, R400, R405). Where each register lies in the space is the PCI Express
layout (PRESUMED, log entry 36). -/

namespace Sys2Proof.Machine

/-- The first byte of the SR-IOV capability: Control at +8, NumVFs at +16 (log entry 36). -/
def sriov : Nat := 0x100

/-- A configuration register: offset, length in bytes, the bits that can be written, the value after reset. -/
structure CfgRow where
  off : Nat
  len : Nat
  wr : Nat
  init : Nat
  deriving DecidableEq, Repr

/-- The bits of a 64-bit base address register that hold the address of a BAR of `2 ^ k` bytes. -/
def barMask (k : Nat) : Nat := 2 ^ 64 - 2 ^ k

/-- The header of a capability in the extended space: ID, version, next. -/
def extCap (id ver next : Nat) : Nat := id + 2 ^ 16 * ver + 2 ^ 20 * next

/-- The stored byte of a configuration register: what was written, as its difference from the value after reset. -/
def cfgRaw (s : State) (f o : Nat) : Nat := (memGet (getFunc s f).cfg o).toNat

/-- BAR Size of a Resizable BAR control register, at byte `o`: the logarithm of the size in MiB, 16 after reset (R381). -/
def barLog (s : State) (o : Nat) : Nat := ((cfgRaw s 0 o) ^^^ 16) % 64

/-- The logarithm of BAR4's size: of the physical function, and of every virtual one. -/
def aperLog (s : State) (f : Nat) : Nat := 20 + barLog s (if f = 0 then 0x1C9 else 0x1D9)

/-- The bytes that BAR4 of a function spans: 64 GiB after reset, 1 GiB to 2 TiB (R381). -/
def aperSize (s : State) (f : Nat) : Nat := 2 ^ aperLog s f

/-- Registers that every function has: identity, the PCI Express and MSI-X capabilities, AER, DOE. -/
def cfgCommon (f : Nat) : List CfgRow :=
  let dev := if f = 0 then 0x5324 else 0x5325
  [ ⟨0x00, 2, 0, Config.vendorId % 65536⟩, ⟨0x02, 2, 0, dev⟩, ⟨0x04, 2, 0x0142, 0⟩, ⟨0x06, 2, 0, 0x0010⟩,
    ⟨0x08, 4, 0, 0x1200_0000⟩, ⟨0x34, 1, 0, 0x40⟩,
    -- PCI Express: endpoint, Flit mode; FLR, 512 B payloads; 128 GT/s, x16; 10-bit tags; all data rates
    ⟨0x40, 4, 0, 0x8002_8010⟩, ⟨0x44, 4, 0, 0x1000_8022⟩, ⟨0x48, 2, if f = 0 then 0x79FF else 0x000F, if f = 0 then 0x2910 else 0⟩,
    ⟨0x4C, 4, 0, 0x107⟩, ⟨0x64, 4, 0, 0x3_0000⟩, ⟨0x6C, 4, 0, 0xFE⟩,
    -- MSI-X: 2,048 vectors, table and PBA in BAR0
    ⟨0x80, 4, 0xC000_0000, 0x07FF_0011⟩, ⟨0x84, 4, 0, 0x19_0000⟩, ⟨0x88, 4, 0, 0x19_8000⟩,
    -- AER: masks and severity
    ⟨0x150, 4, 0, extCap 0x0001 2 0x1A0⟩, ⟨0x158, 4, 0x005F_F030, 0x0040_0000⟩, ⟨0x15C, 4, 0x005F_F030, 0x0046_2030⟩,
    ⟨0x164, 4, 0x0000_71C1, 0x0000_6000⟩,
    ⟨0x1A0, 4, 0, extCap 0x002E 1 (if f = 0 then 0x1C0 else 0)⟩ ]

/-- Registers of the physical function: its BARs, SR-IOV with the BARs of virtual functions, ARI, the resizable BARs, 14-bit
tags. -/
def cfgPhysical (s : State) : List CfgRow :=
  let sizes := 0x03FF_C000
  [ ⟨0x10, 8, barMask 28, 0x4⟩, ⟨0x18, 8, barMask 17, 0xC⟩, ⟨0x20, 8, barMask (aperLog s 0), 0xC⟩,
    ⟨sriov, 4, 0, extCap 0x0010 1 0x140⟩, ⟨sriov + 0x8, 2, 0x0018, 0⟩, ⟨sriov + 0xC, 4, 0, 1023 * 65537⟩,
    ⟨sriov + 0x10, 2, 0xFFFF, 0⟩, ⟨sriov + 0x14, 4, 0, 0x1_0001⟩, ⟨sriov + 0x1A, 2, 0, 0x5325⟩, ⟨sriov + 0x1C, 4, 0, 0x553⟩,
    ⟨sriov + 0x20, 4, 0x553, 1⟩, ⟨sriov + 0x24, 8, barMask 28, 0x4⟩, ⟨sriov + 0x2C, 8, barMask 17, 0xC⟩,
    ⟨sriov + 0x34, 8, barMask (aperLog s 1), 0xC⟩,
    ⟨0x140, 4, 0, extCap 0x000E 1 0x150⟩,
    ⟨0x1C0, 4, 0, extCap 0x0015 1 0x1D0⟩, ⟨0x1C4, 4, 0, sizes⟩, ⟨0x1C8, 4, 0x3F00, 0x1024⟩,
    ⟨0x1D0, 4, 0, extCap 0x0024 1 0x1E0⟩, ⟨0x1D4, 4, 0, sizes⟩, ⟨0x1D8, 4, 0x3F00, 0x1024⟩,
    ⟨0x1E0, 4, 0, extCap 0x002F 1 0⟩, ⟨0x1E4, 4, 0, 0x6⟩ ]

/-- The registers of a function's configuration space. A virtual function has its BARs in the SR-IOV capability, and ARI first
in the extended space. -/
def cfgRows (s : State) (f : Nat) : List CfgRow :=
  cfgCommon f ++ (if f = 0 then cfgPhysical s else [⟨0x100, 4, 0, extCap 0x000E 1 0x150⟩])

/-- The register that byte `o` belongs to; a byte of none reads 0 and takes no write. -/
def cfgRow (s : State) (f o : Nat) : Option CfgRow :=
  (cfgRows s f).find? (fun r => decide (r.off ≤ o) && decide (o < r.off + r.len))

/-- The writable bits of byte `o`, and its value after reset. -/
def cfgMask (s : State) (f o : Nat) : Nat :=
  match cfgRow s f o with | some r => (r.wr >>> (8 * (o - r.off))) % 256 | none => 0
def cfgInit (s : State) (f o : Nat) : Nat :=
  match cfgRow s f o with | some r => (r.init >>> (8 * (o - r.off))) % 256 | none => 0

/-- Byte `o` of a function's configuration space; Bus Master Enable and VF Enable stand where the hub keeps them. -/
def cfgByte (s : State) (f o : Nat) : Nat :=
  let v := (cfgRaw s f o &&& cfgMask s f o) ^^^ cfgInit s f o
  if o = 4 then v + 4 * b2n (getFunc s f).bme
  else if f = 0 ∧ o = sriov + 8 then v + b2n (s.hub.numVfs != 0)
  else v

/-- A byte as a write leaves it: a payload size above 512 B, a read request size above 4,096 B and a BAR4 size outside 1 GiB to
2 TiB are not taken (R378, R381). -/
def cfgLegal (o old v : Nat) : Nat :=
  if o = 0x48 ∧ 2 < bits v 7 5 then v % 32 + old / 32 * 32
  else if o = 0x49 ∧ 5 < bits v 6 4 then v - bits v 6 4 * 16 + bits old 6 4 * 16
  else if (o = 0x1C9 ∨ o = 0x1D9) ∧ (v % 64 < 10 ∨ 21 < v % 64) then old
  else v

/-- A configuration write of one byte. -/
def cfgPut (f o : Nat) (s : State) (b : Byte) : State :=
  let v := cfgLegal o (cfgByte s f o) b.toNat
  let raw := (v ^^^ cfgInit s f o) &&& cfgMask s f o
  modFunc s f (fun k => { k with cfg := memSet k.cfg o (BitVec.ofNat 8 raw) })

/-- A configuration write of bytes from `o` on. -/
def cfgPuts (f : Nat) : Nat → List Byte → State → State
  | _, [], s => s
  | o, b :: bs, s => cfgPuts f (o + 1) bs (cfgPut f o s b)

/-- The AER registers, whose bits are sticky: a reset of the function keeps them (R405). -/
def stickyCfg (m : Mem) : Mem := m.filter (fun c => decide (0x154 ≤ c.1) && decide (c.1 < 0x17C))

end Sys2Proof.Machine
end

