-- ==== Sys2Proof/Machine/Complete.lean ====
section
/-! DEFINITION. What the hub writes for a function: completion records, fault records, vectors, ephemeris records
(R394 to R399, R403, R484 to R487, R532). -/

namespace Sys2Proof.Machine

/-- The hub makes no host request of the function: Bus Master Enable is 0, the heartbeat has expired, or a shutdown is under way
(R403, R404, R495). -/
def dmaHeld (s : State) (f : Nat) : Bool := !(getFunc s f).bme || (getFunc s f).hbexp || s.pow.shut.isSome

/-- A ring's LOG2SIZE, taken into 4 to 16 (log entry 24). -/
def ringLog (cfg : Nat) : Nat := max 4 (min 16 (bits cfg 4 0))

/-- The 32-bit difference of two free-running counters. -/
def sub32 (a b : Nat) : Nat := (a + 2 ^ 32 - b % 2 ^ 32) % 2 ^ 32

/-! ### Work descriptors (R391) -/

/-- A little-endian field of a descriptor. -/
def descN (d : List Byte) (o n : Nat) : Nat := leNat ((d.drop o).take n)

/-- OPC, CLASS, IRQ, FENCE, CRING, MODEL, ACCORD, SEQ, REGION, UTAG. -/
def dOpc (d : List Byte) : Nat := descN d 0 1
def dClass (d : List Byte) : Nat := bits (descN d 1 1) 1 0
/-- The class of a work item. -/
def Item.cls (i : Item) : Cls := clsOf (dClass i.desc)

def dIrq (d : List Byte) : Bool := bitB (descN d 1 1) 2
def dFence (d : List Byte) : Bool := bitB (descN d 1 1) 3
def dCring (d : List Byte) : Nat := descN d 2 2
def dModel (d : List Byte) : Nat := descN d 4 2
def dAccord (d : List Byte) : Nat := descN d 6 2
def dSeq (d : List Byte) : Nat := descN d 8 4
def dRegion (d : List Byte) : Nat := descN d 12 1
def dUtag (d : List Byte) : Nat := descN d 16 4

/-! ### Vectors -/

/-- The mask of MSI-X vector `v`: 1 after reset (log entry 32). -/
def vecMasked (s : State) (f v : Nat) : Bool := !bitB (memGet (getFunc s f).msix (16 * v + 12)).toNat 0

/-- A function's MSI-X Enable is 1 and its Function Mask 0 (R378, log entry 36). -/
def msixOn (s : State) (f : Nat) : Bool := bits (cfgByte s f 0x83) 7 6 == 2

/-- Raise a vector of a function; while it is masked or MSI-X is off (log entries 32, 36), or the function's requests are held, it is
pending (R398, R403). -/
def raiseVec (s : State) (f vec : Nat) : State :=
  if dmaHeld s f || !msixOn s f || vecMasked s f vec then
    modFunc s f (fun k => { k with pba := if k.pba.contains vec then k.pba else k.pba ++ [vec] })
  else emit s (.irq f vec)

/-- Pending vectors that may be written now are written. -/
def flushVecs (s : State) (f : Nat) : State :=
  let ps := (getFunc s f).pba
  ps.foldl (fun s v => raiseVec s f v) (modFunc s f (fun k => { k with pba := [] }))

/-- Raise a vector of HUB_PFVEC, by its enable bit and its field: once for an event tick, which `nowSet` records under the
enable bit (R407). -/
def raisePf (s : State) (en hi lo : Nat) : State :=
  let v := reg s aPfVec
  if !bitB v en || (s.nowTick == eventTick s && bitB (tabGet 0 s.nowSet aPfVec) en) then s
  else raiseVec (markSet s aPfVec (2 ^ en)) 0 (bits v hi lo)

/-- The moderation interval of a ring's vector has not ended since the last raise (R398). -/
def irqSoon (s : State) (f r : Nat) : Bool :=
  let itime := bits (tenReg s f (oCqCfg r)) 15 8
  match (getRing s f r).lastIrq with
  | none => false
  | some t => itime != 0 && decide (s.clock.ftc < t + 1000 * itime)

/-- Raise a completion ring's vector under its moderation interval (R398). -/
def raiseRing (s : State) (f r : Nat) : State :=
  let cfg := tenReg s f (oCqCfg r)
  if irqSoon s f r then modRing s f r (fun k => { k with irqPend := true })
  else modRing (raiseVec s f (bits cfg 26 16)) f r (fun k => { k with lastIrq := some s.clock.ftc, irqPend := false })

/-! ### Completion rings (R394, R396) -/

/-- The records of ring `r`. -/
def cqSize (s : State) (f r : Nat) : Nat := 2 ^ ringLog (tenReg s f (oCqCfg r))

/-- The ring is full. -/
def cqFull (s : State) (f r : Nat) : Bool :=
  decide (cqSize s f r ≤ sub32 (getRing s f r).tail (getRing s f r).head)

/-- The 16 bytes of record number `n`. -/
def recBytes (x : CRec) (n size : Nat) : List Byte :=
  leBytes 4 x.utag ++ leBytes 4 x.result ++ leBytes 2 x.sq ++ leBytes 2 x.sqpos ++ leBytes 1 x.status ++
    leBytes 1 (b2n x.frec) ++ leBytes 1 0 ++ leBytes 1 (if n / size % 2 = 0 then 128 else 0)

/-- Write one record, advance TAIL, raise the vector. -/
def writeRec (s : State) (f r : Nat) (x : CRec) : State :=
  let k := getRing s f r
  let size := cqSize s f r
  let cfg := tenReg s f (oCqCfg r)
  let s := locWrite s f (bitB cfg 5) (tenReg s f (oCqAddr r) + 16 * (k.tail % size)) (recBytes x k.tail size)
  let s := modRing s f r (fun k => { k with tail := (k.tail + 1) % 2 ^ 32 })
  if x.irq then raiseRing s f r else s

/-- No record of a ring can be written: the function's DMA is held, the ring is full, or the stack that holds it makes requests wait
(R396, R403, R451). -/
def ringStops (s : State) (f r : Nat) : Bool :=
  dmaHeld s f || cqFull s f r ||
    (bitB (tenReg s f (oCqCfg r)) 5 &&
      tenWaits s f (tenReg s f (oCqAddr r) + 16 * ((getRing s f r).tail % cqSize s f r)) 16)

/-- A record that falls due for a ring: written, or held behind earlier ones (R396, R403). -/
def putRec (s : State) (f r : Nat) (x : CRec) : State :=
  if ringStops s f r || !(getRing s f r).held.isEmpty then
    modRing s f r (fun k => { k with held := k.held ++ [x] })
  else writeRec s f r x

/-- Write the held records of a ring for which there is room, by fuel. -/
def flushAux (f r : Nat) : Nat → State → State
  | 0, s => s
  | n + 1, s =>
    match (getRing s f r).held with
    | [] => s
    | x :: xs =>
      if ringStops s f r then s
      else flushAux f r n (writeRec (modRing s f r (fun k => { k with held := xs })) f r x)

/-- Write the held records of a ring for which there is room. -/
def flushRing (s : State) (f r : Nat) : State := flushAux f r (getRing s f r).held.length s

/-- The ring that a descriptor's record goes to: the ring named, when it is valid and enabled; else the queue's default,
when that is enabled (R397). -/
def recRing (s : State) (f q : Nat) (d : List Byte) : Option Nat :=
  let dflt := bits (tenReg s f (oSqCfg q)) 23 13
  let named := if dCring d = 0xFFFF then dflt else dCring d
  let ok := fun r => decide (r < 2048) && (getRing s f r).en
  if ok named then some named
  else if named != dflt && ok dflt then some dflt
  else none

/-- A RUN that ends with SUCCESS is noted until the event tick has passed: a fault of the same tick makes it FAULTED (R470). -/
def noteEnd (s : State) (i : Item) (r : Nat) (x : CRec) : State :=
  { s with hub.ended := s.hub.ended.filter (fun e => e.tick == eventTick s) ++ [⟨i, r, x, eventTick s⟩] }

/-- A work item completes: its record falls due, and it leaves the list of items (R394 to R397). During a reset of its
function no record is written (R405). -/
def complete (s : State) (i : Item) (status result : Nat) (frec : Bool) : State :=
  let s := { s with hub.items := s.hub.items.filter (fun x => x.id != i.id) }
  if (getFunc s i.f).flrbusy then s
  else
    let x : CRec := { utag := dUtag i.desc, result := result % 2 ^ 32, sq := i.q, sqpos := i.pos % 2 ^ 16, status := status
                      frec := frec, irq := dIrq i.desc || status != 0 }
    match recRing s i.f i.q i.desc with
    | some r => putRec (if status = 0 ∧ dOpc i.desc = 1 then noteEnd s i r x else s) i.f r x
    | none => modFunc (markSet s (tenAddr i.f oTenStat) (2 ^ 27)) i.f (fun k => { k with cqlost := true })

/-! ### The fault ring (R186, R399, R532) -/

/-- The 32 bytes of a fault record. -/
def faultBytes (r : Report) : List Byte :=
  leBytes 2 r.code ++ leBytes 2 (r.clu + 2048 * r.slot) ++ leBytes 1 r.op ++ leBytes 2 r.core ++ leBytes 1 (b2n r.deg) ++
    leBytes 4 r.ticket ++ leBytes 2 r.pc ++ leBytes 1 r.region ++ leBytes 1 0 ++ leBytes 8 r.tick ++ leBytes 8 r.detail

/-- Write a fault record, or drop and count it. -/
def writeFault (s : State) (r : Report) : State :=
  let f := r.f
  let cfg := tenReg s f oFrCfg
  let k := getFunc s f
  if k.flrbusy then s
  else if !bitB cfg 31 then bump s (tenAddr f oFrLost) 1
  else
    let size := 2 ^ ringLog cfg
    if size ≤ sub32 k.frTail k.frHead then
      modFunc (markSet (bump s (tenAddr f oFrLost) 1) (tenAddr f oTenStat) (2 ^ 28)) f (fun k => { k with frovf := true })
    else
      let s := locWrite s f (bitB cfg 5) (tenReg s f oFrAddr + 32 * (k.frTail % size)) (faultBytes r)
      let s := modFunc s f (fun k => { k with frTail := (k.frTail + 1) % 2 ^ 32 })
      raiseVec s f (bits cfg 26 16)

/-! ### The ephemeris ring (R484 to R487) -/

/-- Units of 16 bytes in the ring. -/
def ephSize (s : State) (f : Nat) : Nat := 2 ^ max 8 (min 20 (bits (tenReg s f oEphCfg) 4 0))

/-- Write one unit. -/
def ephUnit (s : State) (f : Nat) (b : List Byte) : State :=
  let k := getFunc s f
  let s := locWrite s f (bitB (tenReg s f oEphCfg) 29) (tenReg s f oEphAddr + 16 * (k.ephTail % ephSize s f)) b
  modFunc s f (fun k => { k with ephTail := (k.ephTail + 1) % 2 ^ 32 })

/-- The bytes of a record: header and body, padded to whole units (R485). -/
def ephBytes (ftc typ sq sqpos : Nat) (body : List Byte) : List Byte :=
  let len := ceilDiv (16 + body.length) 16
  leBytes 1 typ ++ leBytes 1 0 ++ leBytes 2 len ++ leBytes 2 sq ++ leBytes 2 sqpos ++ leBytes 8 ftc ++ body ++
    List.replicate (16 * len - 16 - body.length) 0

/-- An ephemeris record of function `f`: written when capture is on and it fits, behind a LOST record after drops; else
dropped and counted (R487). While the hub may not write host memory, a host ring has no room (log entry 25). -/
def ephPutAt (s : State) (f ftc typ sq sqpos : Nat) (body : List Byte) : State :=
  let cfg := tenReg s f oEphCfg
  if !bitB cfg 31 then s
  else
    let k := getFunc s f
    let lost := if k.ephDropped = 0 then [] else ephBytes s.clock.ftc 6 0x7FF 0 (leBytes 4 k.ephDropped)
    let all := chunks 16 (lost ++ ephBytes ftc typ sq sqpos body)
    let free := ephSize s f - sub32 k.ephTail k.ephHead
    if free < all.length || (!bitB cfg 29 && dmaHeld s f) then
      modFunc (bump s (tenAddr f oEphLost) 1) f (fun k => { k with ephDropped := k.ephDropped + 1 })
    else modFunc (all.foldl (fun s b => ephUnit s f b) s) f (fun k => { k with ephDropped := 0 })

/-- A record of an event that happens now. -/
def ephPut (s : State) (f typ sq sqpos : Nat) (body : List Byte) : State := ephPutAt s f s.clock.ftc typ sq sqpos body

end Sys2Proof.Machine
end

