-- ==== Sys2Proof/Machine/TraceOps.lean ====
section
/-! DEFINITION. Producing trace records (R471 to R475). -/

namespace Sys2Proof.Machine

/-- Trace is on for a slot. -/
def trcOn (s : State) (c sl : Nat) : Bool := bitB (cluReg s c (oTrcCfg sl)) 63

/-- Records of the ring. -/
def trcSize (s : State) (c sl : Nat) : Nat := 2 ^ max 6 (min 16 (bits (cluReg s c (oTrcCfg sl)) 60 56))

/-- Records of the slot that wait in the trace buffer. -/
def trcWaiting (s : State) (c sl : Nat) : Nat := ((getClu s c).trcBuf.filter (fun r => r.sl == sl)).length

/-- Room for `k` records in the buffer and in the ring (R473). -/
def trcRoom (s : State) (c sl k : Nat) : Bool :=
  let t := (getSlot s c sl).trc
  decide ((getClu s c).trcBuf.length + k ≤ 16) &&
    decide (sub32 t.tail t.head + trcWaiting s c sl + k ≤ trcSize s c sl)

/-- `s` with a slot's trace state changed. -/
def modTrc (s : State) (c sl : Nat) (g : SlotTrc → SlotTrc) : State :=
  modSlot s c sl (fun k => { k with trc := g k.trc })

/-- Append one record to the trace buffer: header and 28 bytes of body (R472). -/
def trcAppend (s : State) (c sl typ : Nat) (body : List Byte) : State :=
  let et := eventTick s
  let t := (getSlot s c sl).trc
  let b := leBytes 1 (typ + 16 * sl) ++ leBytes 1 0 ++ leBytes 2 (min 0xFFFF (et - t.last)) ++ body ++
    List.replicate (28 - body.length) 0
  let s := modClu s c (fun k => { k with trcBuf := k.trcBuf ++ [⟨sl, b⟩] })
  modTrc s c sl (fun t => { t with last := et, traffic := if typ = 1 then t.traffic else true })

/-- Body bytes from byte 4 of a STAMP and of a LOST record. -/
def stampBody (s : State) : List Byte := leBytes 4 0 ++ leBytes 8 s.clock.ftc
def lostBody (n : Nat) : List Byte := leBytes 4 0 ++ leBytes 4 n

/-- CLU_TRC_CFGn.STALL. -/
def trcHolds (s : State) (c sl : Nat) : Bool := bitB (cluReg s c (oTrcCfg sl)) 62

/-- One record, behind LOST and STAMP where they are due. Without room it is dropped and counted; in stall mode, where a fault
or the dispatch unit ends the slot's program and no instruction can wait, it is kept until there is room (R472, R473, log
entry 83). -/
def trcOne (s : State) (c sl typ : Nat) (body : List Byte) : State :=
  let t := (getSlot s c sl).trc
  let lost := t.dropped != 0
  let stamp := t.stampDue || lost
  if t.owed.isEmpty && trcRoom s c sl (b2n lost + b2n stamp + 1) then
    let s := if lost then trcAppend s c sl 7 (lostBody t.dropped) else s
    let s := if stamp then trcAppend s c sl 1 (stampBody s) else s
    modTrc (trcAppend s c sl typ body) c sl (fun t => { t with dropped := 0, stampDue := false })
  else if trcHolds s c sl then modTrc s c sl (fun t => { t with owed := t.owed ++ [(typ, body)] })
  else modTrc (bumpC s c (oTrcDrop sl) 1) c sl (fun t => { t with dropped := t.dropped + 1 })

/-- The kept records of a slot are written as far as there is room; none once its ring is off. -/
def trcPay (c : Nat) (s : State) (sl : Nat) : State :=
  let rs := if trcOn s c sl then (getSlot s c sl).trc.owed else []
  rs.foldl (fun s r => trcOne s c sl r.1 r.2) (modTrc s c sl (fun t => { t with owed := [] }))

/-- The pending BRANCH record of a slot is written (R472). -/
def trcFlushBranch (s : State) (c sl : Nat) : State :=
  let t := (getSlot s c sl).trc
  if t.branchBits = 0 then s
  else
    let body := leBytes 2 t.branchPc ++ leBytes 1 t.branchBits ++ List.replicate 9 0 ++ leBytes 16 t.branch
    modTrc (trcOne s c sl 2 body) c sl (fun t => { t with branch := 0, branchBits := 0 })

/-- A record of a slot, behind its pending BRANCH record; nothing while trace is off. -/
def trcPut (s : State) (c sl typ : Nat) (body : List Byte) : State :=
  if trcOn s c sl then trcOne (trcFlushBranch s c sl) c sl typ body else s

/-- A conditional branch's outcome (R472). -/
def trcBranch (s : State) (c sl pc : Nat) (taken : Bool) : State :=
  if trcOn s c sl then
    let s := modTrc s c sl (fun t =>
      { t with
        branchPc := if t.branchBits = 0 then pc else t.branchPc
        branch := t.branch + b2n taken * 2 ^ t.branchBits
        branchBits := t.branchBits + 1 })
    if (getSlot s c sl).trc.branchBits = 128 then trcFlushBranch s c sl else s
  else s

/-- In stall mode there is no room for `k` records with the LOST and STAMP records that are due before them. -/
def trcFull (s : State) (c sl k : Nat) : Bool :=
  let t := (getSlot s c sl).trc
  trcOn s c sl && trcHolds s c sl &&
    !(t.owed.isEmpty && trcRoom s c sl (k + b2n (t.dropped != 0) + b2n (t.stampDue || t.dropped != 0)))

/-- In stall mode an instruction that would produce `k` records, beside the pending BRANCH record, waits for room (R473). -/
def trcStalls (s : State) (c sl k : Nat) : Bool :=
  trcFull s c sl (k + b2n ((getSlot s c sl).trc.branchBits != 0))

/-- A conditional branch produces a record with its 128th outcome only (R472). -/
def branchStalls (s : State) (c sl : Nat) : Bool := (getSlot s c sl).trc.branchBits == 127 && trcFull s c sl 1

/-- A cycle in which an instruction waits for trace room (R473). -/
def stallTrc (s : State) (c sl : Nat) : State :=
  modSlot (bumpC s c (oTrcStall sl) 1) c sl (fun k => { k with trcWait := k.trcWait + 1 })

end Sys2Proof.Machine
end

