-- ==== Sys2Proof/Machine/Degrade.lean ====
section
/-! DEFINITION. Faults of slots, and what they do to work items and regions (R185 to R187, R412 to R419, R532 to R539). -/

namespace Sys2Proof.Machine

/-- Items that belong to no region carry this number. -/
def noRegion : Nat := 256

/-- The contexts of a region. -/
def regionCtxs (s : State) (r : Nat) : List Ctx := s.hub.ctxs.filter (fun x => x.region == r)

/-- The regions that have a context on a cluster that meets `p`. -/
def regionsOn (s : State) (p : Nat → Bool) : List Nat :=
  uniq ((s.hub.ctxs.filter (fun x => p x.clu)).map (fun x => x.region))

/-- Functions with a context on a cluster that meets `p`. -/
def functionsOn (s : State) (p : Nat → Bool) : List Nat :=
  sortBy (fun a b => decide (a < b)) (uniq ((s.hub.ctxs.filter (fun x => p x.clu)).map (fun x => x.f)))

/-! ### Batch entries and classes (R245, R412, R416) -/

/-- The address of batch entry `e`. -/
def entryAddr (s : State) (f r e : Nat) : Nat := pipeBase s f r + 16 * e

/-- ARGn of a RUN descriptor. -/
def dArg (d : List Byte) (n : Nat) : Nat := descN d (24 + 8 * n) 8

/-- The 16 bytes of an item's batch entry (R245, R416). -/
def entryBytes (i : Item) (valid : Bool) : List Byte :=
  leBytes 4 (dSeq i.desc) ++ leBytes 2 (bits (dArg i.desc 0) 47 32) ++
    leBytes 1 (b2n valid + 2 * bit (dArg i.desc 0) 48) ++ leBytes 1 0 ++ leBytes 4 (bits (dArg i.desc 0) 31 0) ++
    leBytes 4 i.step

/-- The RUN items in flight on a region. -/
def runItems (s : State) (r : Nat) : List Item :=
  s.hub.items.filter (fun i => i.region == r && (i.st == .running || i.st == .failing))

/-- The highest class of items in flight, B for none (R412). -/
def topClass (is : List Item) : Cls :=
  match is.map (fun i => dClass i.desc) with
  | [] => .b
  | c :: cs => clsOf (cs.foldl min c)

/-- Every resident context of a region takes a class. -/
def setClass (s : State) (r : Nat) (k : Cls) : State :=
  (regionCtxs s r).foldl (fun s x => if x.resident then modSlot s x.clu x.slot (fun t => { t with cls := k }) else s) s

/-- An item's intake record is on its way (R416). -/
def recOnWay (s : State) (i : Item) : Bool := s.hub.xfers.any (fun x => x.item == some i.id)

/-- A context of a pipeline region is its intake context (R416). -/
def isIntake (s : State) (x : Ctx) : Bool :=
  let b := tenReg s x.f (oPipeB x.region)
  x.clu == boundClu s (bits b 10 0) && x.slot == bits b 12 11

/-- The class of a pipeline region's context: that of its items in flight; an item counts for the intake context once its intake
record is there (R412). -/
def pipeClass (s : State) (x : Ctx) : Cls :=
  topClass (if isIntake s x then (runItems s x.region).filter (fun i => !recOnWay s i) else runItems s x.region)

/-- The classes of a pipeline region's contexts brought up to date after an item began, arrived or ended. -/
def refreshClass (s : State) (r : Nat) : State :=
  (regionCtxs s r).foldl
    (fun s x => if x.resident then modSlot s x.clu x.slot (fun t => { t with cls := pipeClass s x }) else s) s

/-! ### Reports and DEGRADED -/

/-- A report of a module-level event: slot, OP, TICKET and PC 0, REGION 0xFF (R532, R539). -/
def moduleReport (s : State) (f code c detail : Nat) (deg : Bool) : Report :=
  { f := f, code := code, clu := c, slot := 0, op := 0, ticket := 0, pc := 0, tick := 16 * eventTick s, detail := detail
    region := 0xFF, deg := deg, core := 0x00FF, items := [], run := [] }

/-- A report joins those whose records the hub has yet to write (R186). -/
def addReport (s : State) (r : Report) : State := { s with hub.reports := s.hub.reports ++ [r] }

/-- The events of R469, by rank. -/
inductive Event where
  | trip | uncorrectable | lost | fault | completion | hostWrite
  deriving DecidableEq, Repr

/-- The rank of an event: 1 stands highest (R469). -/
def eventRank (e : Event) : Nat :=
  match e with
  | .trip => 1 | .uncorrectable => 2 | .lost => 3 | .fault => 4 | .completion => 5 | .hostWrite => 6

/-- The event that a report is of. -/
def reportEvent (r : Report) : Event :=
  if [0x301, 0x302, 0x304, 0x901].contains r.code then .uncorrectable else if r.code / 256 = 4 then .lost else .fault

/-- The rank of a report's event (R469). -/
def reportRank (r : Report) : Nat := eventRank (reportEvent r)

/-- The order of the records of one ring: event tick, rank, ticket (R187, R470). -/
def reportLt (a b : Report) : Bool :=
  if a.tick != b.tick then decide (a.tick < b.tick)
  else if reportRank a != reportRank b then decide (reportRank a < reportRank b)
  else decide (a.ticket < b.ticket)

/-- The work items that a fault of region `r` is for: those in flight on it, and those that ended in the same event tick. -/
def faultItems (s : State) (r : Nat) : List Nat :=
  (runItems s r).map (·.id) ++ (s.hub.ended.filter (fun e => e.item.region == r && e.tick == eventTick s)).map (fun e => e.item.id)

/-- A fault record for an item of function `f` goes to the fault ring, or has gone there: the ring is enabled, and has room for the
reports up to one that is for the item (R394, R399). -/
def recGoes (s : State) (f id : Nat) (gone : Bool) : Bool :=
  let cfg := tenReg s f oFrCfg
  let k := getFunc s f
  let rs := sortBy reportLt (s.hub.reports.filter (fun r => r.f == f))
  let before := (rs.takeWhile (fun r => !r.items.contains id)).length
  gone || (decide (before < rs.length) && bitB cfg 31 && decide (sub32 k.frTail k.frHead + before < 2 ^ ringLog cfg))

/-- The record of an item as FAULTED. -/
def faultRec (s : State) (i : Item) (x : CRec) : CRec :=
  { x with status := 0x20, result := 0, frec := recGoes s i.f i.id i.frec, irq := true }

/-- The newest record of a ring that reads as `x`, by number: the `n` records before TAIL are looked at. -/
def findRec (s : State) (f r : Nat) (x : CRec) (n : Nat) : Option Nat :=
  let size := cqSize s f r
  let loc := bitB (tenReg s f (oCqCfg r)) 5
  let base := tenReg s f (oCqAddr r)
  let t := (getRing s f r).tail
  ((List.range n).map (fun i => (t + 2 ^ 32 - 1 - i) % 2 ^ 32)).find? (fun m =>
    let a := base + 16 * (m % size)
    (if loc then tenPeek s f a 16 else hostRead s a 16) == recBytes x m size)

/-- A written record as its 16 bytes tell it; its vector has been raised. -/
def recOf (bs : List Byte) : CRec :=
  let v := fun o n => leNat ((bs.drop o).take n)
  { utag := v 0 4, result := v 4 4, sq := v 8 2, sqpos := v 10 2, status := v 12 1, frec := bitB (v 13 1) 0, irq := false }

/-- Record number `m` of a host ring, and those behind it, fall due again, the first as `y`: no host write may be made now (R403,
R495). -/
def takeBack (s : State) (f r m : Nat) (y : CRec) : State :=
  let a := fun n => tenReg s f (oCqAddr r) + 16 * (n % cqSize s f r)
  let later := (List.range (sub32 (getRing s f r).tail m - 1)).map (fun i => recOf (hostRead s (a (m + 1 + i)) 16))
  modRing s f r (fun k => { k with tail := m, held := y :: later ++ k.held })

/-- A completion and a fault of one work item in one event tick produce one record, FAULTED (R470): the record of SUCCESS, held or
written, becomes it. -/
def amendEnd (s : State) (e : Ended) : State :=
  let f := e.item.f
  let y := faultRec s e.item e.rec0
  if (getRing s f e.ring).held.contains e.rec0 then
    modRing s f e.ring (fun k => { k with held := k.held.map (fun x => if x = e.rec0 then y else x) })
  else match findRec s f e.ring e.rec0 (s.hub.ended.length) with
    | none => s
    | some m =>
      let size := cqSize s f e.ring
      let loc := bitB (tenReg s f (oCqCfg e.ring)) 5
      if !loc && dmaHeld s f then takeBack s f e.ring m y
      else
        let s := locWrite s f loc (tenReg s f (oCqAddr e.ring) + 16 * (m % size)) (recBytes y m size)
        if e.rec0.irq then s else raiseRing s f e.ring

/-- The items of region `r` that ended in this event tick have faulted in it. -/
def amendEnds (s : State) (r : Nat) : State :=
  let mine := fun (e : Ended) => e.item.region == r && e.tick == eventTick s
  let s' := (s.hub.ended.filter mine).foldl amendEnd s
  { s' with hub.ended := s'.hub.ended.filter (fun e => !mine e) }

/-- The slot of a context: in its cluster, or as it was saved. -/
def ctxSlot (s : State) (x : Ctx) : Slot := x.saved.getD (getSlot s x.clu x.slot)

/-- A context of the region has faulted, a swapped-out one too. -/
def regionFaulted (s : State) (r : Nat) : Bool := (regionCtxs s r).any (fun x => (ctxSlot s x).st == .faulted)

/-- An item that has started is in flight; one that waits for its region is queued (R538). -/
def inFlight (i : Item) : Bool :=
  match i.st with
  | .running | .failing | .prefixWait | .closing => true
  | _ => false

/-- An item ends because its region is DEGRADED: FAULTED where it is in flight and a context of the region has faulted. A pipeline
item's batch entry is written with VALID = 0 (R538). -/
def dropItem (s : State) (d : Region) (r : Nat) (faulted : Bool) (i : Item) : State :=
  let s := if d.pipe && (i.st == .running) then tenWrite s i.cls d.f (entryAddr s d.f r i.entry) (entryBytes i false) false else s
  if faulted && inFlight i then complete s i 0x20 0 (recGoes s i.f i.id i.frec) else complete s i 0x21 0 false

/-- A region enters DEGRADED (R538): its contexts stop issuing, and its items complete at once. Nothing where it already
is DEGRADED. -/
def degradeRegion (s : State) (r : Nat) (faulted : Bool) : State :=
  match getRegion s r with
  | none => s
  | some d =>
    if d.degraded then s
    else
      let s := modRegion s r (fun d => { d with degraded := true })
      let fl := faulted || regionFaulted s r
      let s := if fl then amendEnds s r else s
      let s := (s.hub.items.filter (fun i => i.region == r && i.st != .taken && i.st != .held)).foldl (fun s i => dropItem s d r fl i) s
      let s := modCtxs s (fun x => x.region == r) (fun x => { x with want := false })
      setClass s r .b

/-- The region is valid and not DEGRADED. -/
def regionFine (s : State) (r : Nat) : Bool :=
  match getRegion s r with
  | none => false
  | some d => !d.degraded

/-- Several regions enter DEGRADED. -/
def degradeAll (s : State) (rs : List Nat) : State := rs.foldl (fun s r => degradeRegion s r false) s

/-! ### Pool items (R413, R414) -/

/-- Restart a resident context for a work item: s1 to s8, PC at ENTRY, RUNNING (R413). -/
def startCtx (s : State) (x : Ctx) (i : Item) : State :=
  let d := i.desc
  let w := fun n => BitVec.ofNat 64 n
  let s := modSlot s x.clu x.slot (fun k =>
    let g := tabSet (tabSet (tabSet (tabSet k.regs 1 (w (dArg d 0))) 2 (w (dArg d 1))) 3 (w (dArg d 2))) 4 (w (dArg d 3))
    let g := tabSet (tabSet g 5 (w (dSeq d))) 6 (w (dModel d + 2 ^ 16 * dAccord d + 2 ^ 32 * dClass d))
    let g := tabSet (tabSet g 7 (w (dUtag d))) 8 (w i.num)
    { k with regs := g, busy := [], pc := BitVec.ofNat 14 x.entry, st := .running, why := .none, waiting := none
             cls := clsOf (dClass d), stopReq := false })
  modCtxs s (fun y => y.id == x.id) (fun y => { y with want := false })

/-- A context may be restarted now: it is resident, no switch of it is under way, and it has HALTED or FAULTED. -/
def canStart (s : State) (x : Ctx) : Bool :=
  x.resident && !x.switching &&
    ((getSlot s x.clu x.slot).st == .halted || (getSlot s x.clu x.slot).st == .faulted)

/-- Start every context of the region that wants its item and can start (R413, R427). -/
def startWanted (s : State) (r : Nat) : State :=
  match (runItems s r).head? with
  | none => s
  | some i => (regionCtxs s r).foldl (fun s x => if x.want && canStart s x then startCtx s x i else s) s

/-- A pool RUN begins: it takes the region's next work-item number, and every context of the region wants it (R413). -/
def beginPool (s : State) (r : Nat) (i : Item) : State :=
  let s := modRegion s r (fun d => { d with runs := d.runs + 1 })
  let num := match getRegion s r with | some d => d.runs | none => 0
  let s := modItem s i.id (fun i => { i with st := .running, num := num })
  let s := modCtxs s (fun x => x.region == r) (fun x => { x with want := true })
  startWanted s r

/-- Start the region's next waiting item when none is under way (R414). -/
def nextPool (s : State) (r : Nat) : State :=
  if (runItems s r).isEmpty then
    match s.hub.items.find? (fun i => i.region == r && i.st == .waiting) with
    | none => s
    | some i => beginPool s r i
  else s

/-- Operations of a slot in flight. -/
def slotOps (s : State) (c sl : Nat) : List Op := (getClu s c).ops.filter (fun o => o.sl == sl)

/-- A context has HALTED or FAULTED. -/
def ctxStopped (s : State) (x : Ctx) : Bool := (ctxSlot s x).st == .halted || (ctxSlot s x).st == .faulted

/-- Every context of the region has ended: HALTED or FAULTED, nothing in flight (R414). -/
def poolEnded (s : State) (r : Nat) : Bool :=
  (regionCtxs s r).all (fun x => !x.want && ctxStopped s x && (!x.resident || (slotOps s x.clu x.slot).isEmpty))

/-- The s1 of a context, resident or swapped out. -/
def ctxS1 (s : State) (x : Ctx) : Nat := (tabGet 0 (ctxSlot s x).regs 1).toNat

/-- RESULT of a pool item: bits [31:0] of s1 of the context on the lowest cluster ID, and there on the lowest slot (R414). -/
def poolResult (s : State) (r : Nat) : Nat :=
  match sortBy (fun (a b : Ctx) => decide (4 * a.clu + a.slot < 4 * b.clu + b.slot)) (regionCtxs s r) with
  | [] => 0
  | x :: _ => ctxS1 s x % 2 ^ 32

/-- After a context of a pool region has ended: its item completes when all have, and the next one starts (R414). -/
def poolCheck (s : State) (r : Nat) : State :=
  match getRegion s r with
  | none => s
  | some d =>
    if d.pipe then s
    else
      match (runItems s r).head? with
      | none => s
      | some i =>
        if poolEnded s r then
          let s := if i.st == .failing then complete s i 0x20 0 (recGoes s i.f i.id i.frec) else complete s i 0x00 (poolResult s r) false
          nextPool (setClass s r .b) r
        else s

/-- A slot becomes HALTED, with its END record (R472). -/
def haltSlot (s : State) (c sl : Nat) : State :=
  let s := trcPut s c sl 5 (leBytes 2 (getSlot s c sl).pc.toNat ++ leBytes 1 0)
  modSlot s c sl (fun k => { k with st := .halted, why := .none, waiting := none, stopReq := false })

/-- A saved slot that has not ended becomes HALTED. -/
def stopSaved (k : Slot) : Slot :=
  if k.st == .waiting || k.st == .running then { k with st := .halted, why := .none, waiting := none } else k

/-- A context of a failing item is stopped: at once when an instruction of it waits or it is swapped out, else at its next
issue (R414, log entry 26). -/
def stopCtx (s : State) (x : Ctx) : State :=
  if x.resident then match (getSlot s x.clu x.slot).st with
  | .waiting => haltSlot s x.clu x.slot
  | .running => modSlot s x.clu x.slot (fun k => { k with stopReq := true })
  | _ => s
  else modCtxs s (fun y => y.id == x.id) (fun y => { y with saved := y.saved.map stopSaved })

/-- A pool item fails: the contexts of its region that have not ended stop at their next issue (R414). -/
def failPool (s : State) (r : Nat) : State :=
  let s := (runItems s r).foldl (fun s i => modItem s i.id (fun i => { i with st := .failing })) s
  let s := modCtxs s (fun x => x.region == r) (fun x => { x with want := false })
  let s := (regionCtxs s r).foldl (fun s x => stopCtx s x) s
  poolCheck s r

/-! ### A slot faults -/

/-- Classes of faults that degrade a pool region too: hardware loss, and WEIGHT_LOST (R531, R540). -/
def wideFault (code : Nat) : Bool := code / 256 == 4 || code == 0x302

/-- The slot's END record and its state FAULTED (R185, R472). -/
def haltFaulted (s : State) (c sl : Nat) : State :=
  let k := getSlot s c sl
  if k.st == .faulted then s
  else
    let s := trcPut s c sl 5 (leBytes 2 k.pc.toNat ++ leBytes 1 1)
    modSlot s c sl (fun k => { k with st := .faulted, why := .none, waiting := none, stopReq := false })

/-- An operation or instruction of a slot faults (R185 to R187, R531): the slot becomes FAULTED, the report goes to the hub,
a pipeline region and, after a wide fault, a pool region becomes DEGRADED, and a pool item fails. `core` names the core,
engine and lane (R532). -/
def slotFaultAt (s : State) (c sl code op ticket pc detail core : Nat) : State :=
  let s := haltFaulted s c sl
  match slotCtx s c sl with
  | none => s
  | some x =>
    let r := x.region
    let wide := wideFault code || x.pipe
    let deg := wide && regionFine s r
    let s := addReport s
      { f := x.f, code := code, clu := c, slot := sl, op := op, ticket := ticket, pc := pc, tick := 16 * eventTick s
        detail := detail, region := r, deg := deg, core := core, items := faultItems s r, run := [] }
    let s := amendEnds s r
    if wide then degradeRegion s r true else failPool s r

/-- A fault that names no core. -/
def slotFault (s : State) (c sl code op ticket pc detail : Nat) : State :=
  slotFaultAt s c sl code op ticket pc detail 0x00FF

/-- A fault of an instruction: OP and TICKET 0, the slot's PC (R186). -/
def instrFault (s : State) (c sl code detail : Nat) : State :=
  slotFault s c sl code 0 0 (getSlot s c sl).pc.toNat detail

/-! ### Fault codes (R533) -/

/-- Issue checks. -/
def cDescOp : Nat := 0x0101
def cDescField : Nat := 0x0102
def cDescOverlap : Nat := 0x0103
def cSpadRange : Nat := 0x0104
def cBankConflict : Nat := 0x0105
def cWeightAddr : Nat := 0x0106
def cStreamAlias : Nat := 0x0107

/-- Precision, storage, hardware loss. -/
def cSatHeader : Nat := 0x0201
def cPrecExhausted : Nat := 0x0202
def cSpadUncorr : Nat := 0x0301
def cWeightLost : Nat := 0x0302
def cMemWindow : Nat := 0x0303
def cMemUncorr : Nat := 0x0304
def cCoreLost : Nat := 0x0401
def cClusterLost : Nat := 0x0402
def cDieFenced : Nat := 0x0403
def cStackFailed : Nat := 0x0404

/-- Sequencer. -/
def cSeqIllegal : Nat := 0x0501
def cSeqAlign : Nat := 0x0502
def cSeqPc : Nat := 0x0503
def cSeqTicket : Nat := 0x0504

/-- Attention and KV. -/
def cAttSeq : Nat := 0x0601
def cAttRange : Nat := 0x0602
def cAttTail : Nat := 0x0603
def cKvHead : Nat := 0x0604
def cKvCap : Nat := 0x0605
def cKvPool : Nat := 0x0606
def cKvPath : Nat := 0x0607
def cKvPte : Nat := 0x0608

/-- Attar, accord, link. -/
def cAttarHeader : Nat := 0x0701
def cAttarIndex : Nat := 0x0702
def cAccordUnknown : Nat := 0x0801
def cAccordRecord : Nat := 0x0802
def cAccordGain : Nat := 0x0803
def cLinkLost : Nat := 0x0901
def cLinkNoRoute : Nat := 0x0902

end Sys2Proof.Machine
end

