-- ==== Sys2Proof/Machine/Operands.lean ====
section
/-! DEFINITION. Operand references of tile descriptors, and fields of descriptors (R160, R162 to R165). -/

namespace Sys2Proof.Machine

/-- A little-endian field of a descriptor: `n` bytes from `o`. -/
def fld (d : List Byte) (o n : Nat) : Nat := leNat ((d.drop o).take n)

/-- An operand reference (R162). -/
structure Opnd where
  addr : Nat
  shape : Nat
  sat : Bool
  fmt : Nat
  len : Nat
  deriving DecidableEq, Repr

/-- The reference at byte `o` of a descriptor. -/
def opnd (d : List Byte) (o : Nat) : Opnd :=
  let a := fld d o 4
  let l := fld d (o + 4) 4
  { addr := bits a 24 0, shape := bits a 26 25, sat := bitB a 27, fmt := bits a 31 28, len := bits l 25 0 }

/-- Its reserved bits are 0; a present reference has a shape of R162, and no bits of LEN above 15 when it is COL. -/
def opndClean (d : List Byte) (o : Nat) : Bool :=
  bits (fld d (o + 4) 4) 31 26 == 0 && ((opnd d o).len == 0 || (decide ((opnd d o).shape < 3) &&
    !((opnd d o).shape == 1 && bits (opnd d o).len 25 16 != 0)))

/-- The reference is present. -/
def Opnd.present (r : Opnd) : Bool := r.len != 0

/-- COL: stride in lines, and words (R162). -/
def Opnd.stride (r : Opnd) : Nat := bits r.len 11 0
def Opnd.words (r : Opnd) : Nat := bits r.len 15 12 + 1

/-- The size of an operand's data in bytes (R162). -/
def Opnd.size (r : Opnd) : Nat := if r.len = 0 then 0 else if r.shape = 1 then 512 * r.words else r.len

/-- The pieces of an operand's data in its order: context addresses and lengths (R162). A COL operand is taken word position
first. -/
def Opnd.spans (r : Opnd) : List (Nat × Nat) :=
  if r.len = 0 then []
  else if r.shape = 1 then
    (List.range r.words).flatMap (fun i =>
      (List.range 16).map (fun k => (r.addr + 32 * i + 512 * r.stride * k, 32)))
  else [(r.addr, r.len)]

/-- The range that it declares: first context address and length (R162). -/
def Opnd.range (r : Opnd) : Nat × Nat :=
  if r.len = 0 then (0, 0)
  else if r.shape = 1 then (r.addr / 512 * 512, 512 * (15 * r.stride + 1))
  else (r.addr, r.len)

/-- The spans of the first `n` bytes of a list of spans. -/
def takeSpans : Nat → List (Nat × Nat) → List (Nat × Nat)
  | _, [] => []
  | n, (a, l) :: ss => if n = 0 then [] else if n ≤ l then [(a, n)] else (a, l) :: takeSpans (n - l) ss

/-- The spans without the first `n` bytes. -/
def dropSpans : Nat → List (Nat × Nat) → List (Nat × Nat)
  | _, [] => []
  | n, (a, l) :: ss => if n < l then (a + n, l - n) :: ss else dropSpans (n - l) ss

/-! ### The common header (R160) and the codes of R161 -/

/-- OP, RMODE, NOSKIP, SOVR, CTR and CTR_EN. -/
def dOp (d : List Byte) : Nat := fld d 0 1
def dRmode (d : List Byte) : Bool := bitB (fld d 1 1) 0
def dNoskip (d : List Byte) : Bool := bitB (fld d 1 1) 1
def dSovr (d : List Byte) : Bool := bitB (fld d 1 1) 2
def dCtr (d : List Byte) : Option Nat := if bitB (fld d 2 1) 5 then some (bits (fld d 2 1) 4 0) else none
def dStream (d : List Byte) : Nat := fld d 4 4
def dCbase (d : List Byte) : Nat := fld d 8 6

/-- TLA, XNP, GATE: WADDR, ROWS, ELEMS, SCOPE, TOKENS, ACC, THR (R165). -/
def dWaddr (d : List Byte) : Nat := bits (fld d 48 4) 26 0
def dRows (d : List Byte) : Nat := bits (fld d 52 2) 13 0
def dElems (d : List Byte) : Nat := bits (fld d 54 4) 19 0
def dScope (d : List Byte) : Nat := bits (fld d 58 1) 1 0
def dTokens (d : List Byte) : Nat := 2 ^ bits (fld d 58 1) 3 2
def dAcc (d : List Byte) : Nat := bits (fld d 58 1) 5 4
def dThr (d : List Byte) : Nat := fld d 60 4

/-- Operation codes (R161). -/
def opTLA : Nat := 1
def opXNP : Nat := 2
def opGATE : Nat := 3
def opQNT : Nat := 4
def opACT : Nat := 5
def opNRM : Nat := 6
def opATT : Nat := 7
def opKVA : Nat := 8
def opCOMMIT : Nat := 9
def opMOV : Nat := 10
def opRED : Nat := 11
def opMRG : Nat := 12
def opCMP : Nat := 13
def opSYNC : Nat := 14

end Sys2Proof.Machine
end

