-- ==== Sys2Proof/Machine/Spad.lean ====
section
/-! DEFINITION. Scratchpad accesses: words, errors and poison, the gather buffer, partitions (R120 to R131). Addresses are
physical scratchpad addresses of a cluster unless a definition says context address. -/

namespace Sys2Proof.Machine

/-- Keys of a byte and of a word of cluster `c`. -/
def spadKey (c p : Nat) : Nat := c * 2 ^ 25 + p
def wordKey (c w : Nat) : Nat := c * 2 ^ 20 + w

/-- A word is poisoned. -/
def wordPoi (s : State) (c w : Nat) : Bool := tabGet 0 s.cl.spadPoi (wordKey c w) == 1

/-- Set the poison mark of a word, and clear its errors. -/
def setWord (s : State) (c w : Nat) (poi : Bool) : State :=
  { s with
    cl.spadPoi := tabPut 0 s.cl.spadPoi (wordKey c w) (b2n poi)
    cl.spadErr := tabPut 0 s.cl.spadErr (wordKey c w) 0 }

/-- A bank read of a word checks it: one wrong bit is corrected and written back, more poison the word (R127). -/
def wordCheck (s : State) (c w : Nat) : State × Bool :=
  match tabGet 0 s.cl.spadErr (wordKey c w) with
  | 0 => (s, wordPoi s c w)
  | 1 => (setWord (bumpC s c oSpadCorr 1) c w (wordPoi s c w), wordPoi s c w)
  | _ => (setWord (bumpC s c oSpadUncorr 1) c w true, true)

/-- The words that a range touches. -/
def wordsOf (p n : Nat) : List Nat :=
  if n = 0 then [] else (List.range ((p + n - 1) / 32 + 1 - p / 32)).map (fun i => p / 32 + i)

/-- Check words one after the other; tell which are poisoned. -/
def checkWords (s : State) (c : Nat) : List Nat → State × List Bool
  | [] => (s, [])
  | w :: ws =>
    let (s, poi) := wordCheck s c w
    let (s, ps) := checkWords s c ws
    (s, poi :: ps)

/-- A word of the range is poisoned or holds errors. -/
def wordMarked (s : State) (c p n : Nat) : Bool :=
  let lo := wordKey c (p / 32)
  let m := (p + n + 31) / 32 - p / 32
  !(tabRange s.cl.spadPoi lo m).isEmpty || !(tabRange s.cl.spadErr lo m).isEmpty

/-! ### Bank arbitration (R121, R124) -/

/-- The bank of a word: 16 times its panel, plus the bank within the panel (R120, R121). -/
def bankOf (w : Nat) : Nat := w / 65536 * 16 + (w % 16 + w / 16) % 16

/-- A requester wants `n` more words of a bank. -/
def bankAdd (u : BankUser) (n : Nat) (l : List BankReq) : List BankReq :=
  if l.any (fun r => r.user == u) then modFirst (fun r => r.user == u) (fun r => { r with words := r.words + n }) l
  else l ++ [⟨u, n, 0⟩]

/-- The banks that the words `w` to `w + n - 1` lie in, with the words wanted of each: whole lines take one of every bank of
their panel. -/
def bankWords (w n : Nat) : List (Nat × Nat) :=
  let a := (w + 15) / 16
  let b := (w + n) / 16
  if b ≤ a then (List.range n).map (fun i => (bankOf (w + i), 1))
  else
    (List.range (16 * a - w)).map (fun i => (bankOf (w + i), 1)) ++
      (List.range ((b - 1) / 4096 + 1 - a / 4096)).flatMap (fun i =>
        let p := a / 4096 + i
        let lines := min b (4096 * (p + 1)) - max a (4096 * p)
        (List.range 16).map (fun k => (16 * p + k, lines))) ++
      (List.range (w + n - 16 * b)).map (fun i => (bankOf (16 * b + i), 1))

/-- A requester wants the words `w` to `w + n - 1`, each `k` times. -/
def bankUse (s : State) (c : Nat) (u : BankUser) (w n k : Nat) : State :=
  modClu s c (fun x => { x with
    banks := (bankWords w n).foldl (fun t p => tabSet t p.1 (bankAdd u (k * p.2) (tabGet [] t p.1))) x.banks })

/-- The losses of a promoted requester, the more the longer it has been one; 0 for the others. -/
def BankReq.turn (r : BankReq) : Nat := if 16 ≤ r.lost then r.lost else 0

/-- The requester that a bank serves next: the promoted ones in the order of their promotion, else by R124's table. -/
def bankNext (l : List BankReq) : Option BankReq :=
  (sortBy (fun a b =>
    if a.turn = b.turn then decide (bankRank a.user < bankRank b.user) else decide (b.turn < a.turn)) l).head?

/-- One cycle of a bank: one word for the requester served; each other loses. The requesters that remain, and how many lost
(R124). -/
def bankCycle (l : List BankReq) : List BankReq × Nat :=
  match bankNext l with
  | none => ([], 0)
  | some x =>
    (l.flatMap (fun r =>
      if r.user = x.user then (if r.words ≤ 1 then [] else [{ r with words := r.words - 1, lost := 0 }])
      else [{ r with lost := r.lost + 1 }]), l.length - 1)

/-- One cycle of every bank of a cluster: CLU_SPAD_CONFLICT counts each requester that lost, once for each bank that it lost (R124;
DESIGN CHOICE, log entry 95). -/
def bankTick (s : State) (c : Nat) : State :=
  let rs := (getClu s c).banks.map (fun p => (p.1, bankCycle p.2))
  if rs.isEmpty then s
  else
    let s := modClu s c (fun x => { x with banks := (rs.filter (fun p => !p.2.1.isEmpty)).map (fun p => (p.1, p.2.1)) })
    bumpC s c oConflict (natSum (rs.map (fun p => p.2.2)))

/-! ### The gather buffer (R125, R126) -/

/-- The bytes of a word with those of an entry that are enabled. -/
def mergeEn (en : Nat) (old new : List Byte) : List Byte :=
  (List.range 32).map (fun i => if bitB en i then nth 0 new i else nth 0 old i)

/-- The entry that holds a word. -/
def gatherEnt (s : State) (c w : Nat) : Option GEnt := (getClu s c).gather.find? (fun e => e.word == w)

/-- Write a dirty entry back (R125): the word is read, merged and written. A word found poisoned stays as it is: the entry's bytes
are lost, without a fault or a count beside that of the word's error, and the entry becomes clean (DESIGN CHOICE, log entry 84). -/
def writeBack (s : State) (c w : Nat) : State :=
  match gatherEnt s c w with
  | none => s
  | some e =>
    if !e.dirty then s
    else
      let (s, poi) := wordCheck (bankUse s c .gather w 1 2) c w
      let p := spadKey c (32 * w)
      let s := if poi then s
        else { s with cl.spad := memPut s.cl.spad p (mergeEn e.en (memBytes s.cl.spad p 32) e.data) }
      let clean := fun (g : GEnt) => { g with dirty := false, en := 0 }
      modClu s c (fun k => { k with gather := modFirst (fun g => g.word == w) clean k.gather })

/-- Write back the dirty entries of a range, as a wide access needs it (R126). -/
def flushRange (s : State) (c p n : Nat) : State :=
  ((getClu s c).gather.filter (fun e => e.dirty && decide (p / 32 ≤ e.word) && decide (32 * e.word < p + n))).foldl
    (fun s e => writeBack s c e.word) s

/-- Entries take the bytes that a wide write stored (R126). -/
def refreshGather (s : State) (c p n : Nat) : State :=
  modClu s c (fun k => { k with gather := k.gather.map (fun e =>
    if decide (p / 32 ≤ e.word) && decide (32 * e.word < p + n) then
      { e with data := memBytes s.cl.spad (spadKey c (32 * e.word)) 32 }
    else e) })

/-! ### Wide accesses -/

/-- A read of whole words: the bytes, and a poison mark for each word. -/
def wideRead (s : State) (c : Nat) (u : BankUser) (p n : Nat) : State × List Byte × List Bool :=
  let s := bankUse (flushRange s c p n) c u (p / 32) (n / 32) 1
  if wordMarked s c p n then
    let (s, ps) := checkWords s c (wordsOf p n)
    (s, memBytes s.cl.spad (spadKey c p) n, ps)
  else (s, memBytes s.cl.spad (spadKey c p) n, (wordsOf p n).map (fun _ => false))

/-- The word of a write is covered whole. -/
def wholeWord (p n w : Nat) : Bool := decide (p ≤ 32 * w) && decide (32 * w + 32 ≤ p + n)

/-- Store the bytes of one word of a write, unless the word is covered in part and is poisoned (R127). `poison` marks the
data. Answers whether the word refused the write. -/
def storeWord (s : State) (c p : Nat) (bs : List Byte) (poison : Bool) (w : Nat) : State × Bool :=
  let lo := max p (32 * w)
  let hi := min (p + bs.length) (32 * w + 32)
  let piece := (bs.drop (lo - p)).take (hi - lo)
  if wholeWord p bs.length w then
    (setWord { s with cl.spad := memPut s.cl.spad (spadKey c lo) piece } c w poison, false)
  else
    let (s, poi) := wordCheck s c w
    if poi then (s, true)
    else
      let s := { s with cl.spad := memPut s.cl.spad (spadKey c lo) piece }
      (if poison then setWord s c w true else s, false)

/-- Store over words; count those that refused. -/
def storeWords (s : State) (c p : Nat) (bs : List Byte) (poison : Bool) : List Nat → State × Nat
  | [] => (s, 0)
  | w :: ws =>
    let (s, r) := storeWord s c p bs poison w
    let (s, n) := storeWords s c p bs poison ws
    (s, b2n r + n)

/-- A write of words: the state, and how many partly covered words refused it because they are poisoned. -/
def wideWrite (s : State) (c : Nat) (u : BankUser) (p : Nat) (bs : List Byte) (poison : Bool) : State × Nat :=
  let n := bs.length
  let s := bankUse (flushRange s c p n) c u (p / 32) ((p + n + 31) / 32 - p / 32) 1
  if !poison && !wordMarked s c p n then
    (refreshGather { s with cl.spad := memPut s.cl.spad (spadKey c p) bs } c p n, 0)
  else
    let (s, k) := storeWords s c p bs poison (wordsOf p n)
    (refreshGather s c p n, k)

/-! ### Narrow accesses (R122, R125, R126, R158) -/

/-- What a narrow access finds. -/
inductive Narrow where
  /-- All 16 entries are dirty: it waits. -/
  | waits
  /-- Served, with the state and the entry; `hit` when an entry held the word already. -/
  | got (s : State) (e : GEnt) (hit : Bool)
  /-- The word is poisoned. -/
  | poisoned (s : State)

/-- Move an entry to the most recently used place. -/
def touchEnt (s : State) (c : Nat) (e : GEnt) : State :=
  modClu s c (fun k => { k with gather := k.gather.filter (fun g => g.word != e.word) ++ [e] })

/-- The buffer with room for one more entry: a free place, or the least recently used clean entry given up. -/
def makeRoom (g : List GEnt) : Option (List GEnt) :=
  if g.length < 16 then some g else (takeFirst (fun e => !e.dirty) g).map (fun r => r.2)

/-- A word allocated in the buffer, whose other entries are `g`: the whole word is read, for a narrow write too, since later narrow
reads are served from the entry (DEDUCED, log entry 94); none where it is poisoned (R125, R127). -/
def allocEnt (s : State) (c w : Nat) (g : List GEnt) : State × Option GEnt :=
  let (s, poi) := wordCheck (bankUse s c .gather w 1 1) c w
  if poi then (s, none)
  else
    let e : GEnt := { word := w, en := 0, data := memBytes s.cl.spad (spadKey c (32 * w)) 32, dirty := false }
    (modClu s c (fun k => { k with gather := g ++ [e] }), some e)

/-- The entry of a word for a narrow access of the sequencer, allocated by reading the whole word where none holds it (R125,
R127). -/
def narrow (s : State) (c w : Nat) : Narrow :=
  match gatherEnt s c w with
  | some e => if wordPoi s c w then .poisoned s else .got (touchEnt s c e) e true
  | none =>
    match makeRoom (getClu s c).gather with
    | none => .waits
    | some g =>
      match allocEnt s c w g with
      | (s, none) => .poisoned s
      | (s, some e) => .got s e false

/-- Room for one more entry for an access of a unit, which waits for a write-back where all 16 are dirty (R125). -/
def roomFor (s : State) (c : Nat) : State × List GEnt :=
  match makeRoom (getClu s c).gather with
  | some g => (s, g)
  | none =>
    match (getClu s c).gather with
    | [] => (s, [])
    | e :: _ =>
      let s := writeBack s c e.word
      (s, (getClu s c).gather.drop 1)

/-- The entry of a word for a narrow access of a unit; none where the word is poisoned. -/
def unitEnt (s : State) (c w : Nat) : State × Option GEnt :=
  match gatherEnt s c w with
  | some e => if wordPoi s c w then (s, none) else (touchEnt s c e, some e)
  | none =>
    let (s, g) := roomFor s c
    allocEnt s c w g

/-- A narrow write of `bs` at byte `o` of the word of an entry. -/
def narrowPut (s : State) (c : Nat) (e : GEnt) (o : Nat) (bs : List Byte) : State :=
  let data := (List.range 32).map (fun i => if o ≤ i ∧ i < o + bs.length then nth 0 bs (i - o) else nth 0 e.data i)
  let en := (List.range 32).foldl (fun acc i => if (o ≤ i ∧ i < o + bs.length) ∨ bitB e.en i then acc + 2 ^ i else acc) 0
  touchEnt s c { e with data := data, en := en, dirty := true }

/-- A narrow read of a unit within one word: the bytes, and whether the word is poisoned. -/
def narrowRead (s : State) (c p n : Nat) : State × List Byte × Bool :=
  match unitEnt s c (p / 32) with
  | (s, some e) => (s, (e.data.drop (p % 32)).take n, false)
  | (s, none) => (s, memBytes s.cl.spad (spadKey c p) n, true)

/-- A narrow write of a unit within one word; whether the word refused it because it is poisoned (R127). -/
def narrowWrite (s : State) (c p : Nat) (bs : List Byte) : State × Bool :=
  match unitEnt s c (p / 32) with
  | (s, some e) => (narrowPut s c e (p % 32) bs, false)
  | (s, none) => (s, true)

/-! ### Accesses of a unit (R122, R125) -/

/-- The pieces of a range: address, length, and whether they are whole words. A piece that does not cover whole words passes
through the gather buffer, and so does every word of a NARROW operand (`all`). -/
def accessCuts (all : Bool) (p n : Nat) : List (Nat × Nat × Bool) :=
  let e := p + n
  let a := (p + 31) / 32 * 32
  let b := e / 32 * 32
  if b < a then [(p, n, false)]
  else
    ([(p, a - p, false)] ++
      (if all then (List.range ((b - a) / 32)).map (fun i => (a + 32 * i, 32, false)) else [(a, b - a, true)]) ++
      [(b, e - b, false)]).filter (fun x => x.2.1 != 0)

/-- Read the pieces of a range. -/
def readCuts (s : State) (c : Nat) (u : BankUser) : List (Nat × Nat × Bool) → State × List Byte × List Bool
  | [] => (s, [], [])
  | (p, n, wide) :: xs =>
    let (s, bs, ps) :=
      if wide then wideRead s c u p n
      else
        let (s, bs, x) := narrowRead s c p n
        (s, bs, [x])
    let (s, cs, qs) := readCuts s c u xs
    (s, bs ++ cs, ps ++ qs)

/-- Write bytes over the pieces of a range; count the words that refused. -/
def writeCuts (s : State) (c : Nat) (u : BankUser) (bs : List Byte) : List (Nat × Nat × Bool) → State × Nat
  | [] => (s, 0)
  | (p, n, wide) :: xs =>
    let (s, k) :=
      if wide then wideWrite s c u p (bs.take n) false
      else
        let (s, x) := narrowWrite s c p (bs.take n)
        (s, b2n x)
    let (s, m) := writeCuts s c u (bs.drop n) xs
    (s, k + m)

/-- A read: the bytes, and a poison mark for each word touched. -/
def spadRead (s : State) (c : Nat) (u : BankUser) (p n : Nat) : State × List Byte × List Bool :=
  readCuts s c u (accessCuts (u == .gather) p n)

/-- A write of bytes: the state, and how many partly covered words refused it because they are poisoned. Data that carries
poison comes in whole words or marks the words that it touches. -/
def spadWrite (s : State) (c : Nat) (u : BankUser) (p : Nat) (bs : List Byte) (poison : Bool) : State × Nat :=
  if poison then wideWrite s c u p bs true else writeCuts s c u bs (accessCuts (u == .gather) p bs.length)

/-! ### Partitions (R128 to R130) -/

/-- The first physical address of a slot's partition, and its bytes; none without a valid partition. -/
def partOf (s : State) (c sl : Nat) : Option (Nat × Nat) :=
  let k := getSlot s c sl
  if k.pvalid then some (k.pbase * 2 ^ 21, k.pcount * 2 ^ 21) else none

/-- The bytes of a slot's partition. -/
def partSize (s : State) (c sl : Nat) : Nat := match partOf s c sl with | some (_, n) => n | none => 0

/-- The first physical address of a slot's partition. -/
def partBase (s : State) (c sl : Nat) : Nat := match partOf s c sl with | some (b, _) => b | none => 0

/-- Read spans of context addresses. -/
def readSpans (s : State) (c : Nat) (u : BankUser) (base : Nat) : List (Nat × Nat) → State × List Byte × List Bool
  | [] => (s, [], [])
  | (a, n) :: ss =>
    let (s, bs, ps) := spadRead s c u (base + a) n
    let (s, rest, qs) := readSpans s c u base ss
    (s, bs ++ rest, ps ++ qs)

/-- Write bytes over spans of context addresses; count the words that refused. -/
def writeSpans (s : State) (c : Nat) (u : BankUser) (base : Nat) (bs : List Byte) : List (Nat × Nat) → State × Nat
  | [] => (s, 0)
  | (a, n) :: ss =>
    let (s, k) := spadWrite s c u (base + a) (bs.take n) false
    let (s, m) := writeSpans s c u base (bs.drop n) ss
    (s, k + m)

/-- The requester for an operand of a unit: the gather buffer for a NARROW operand (R122, R125). -/
def opndUser (u : BankUser) (r : Opnd) : BankUser := if r.shape = 2 then .gather else u

/-- Read the first `n` bytes of an operand of a slot: the bytes, and whether a word of them is poisoned. -/
def readOpnd (s : State) (c : Nat) (u : BankUser) (sl : Nat) (r : Opnd) (n : Nat) : State × List Byte × Bool :=
  let (s, bs, ps) := readSpans s c (opndUser u r) (partBase s c sl) (takeSpans n r.spans)
  (s, bs, ps.any id)

end Sys2Proof.Machine
end

