-- ==== Sys2Proof/Machine/Issue.lean ====
section
/-! DEFINITION. Issuing instructions of a context slot: the conditions of issue, registers and the interlock, waits
(R151 to R159, R174, R175). -/

namespace Sys2Proof.Machine

/-- Register `r` of a slot; s0 reads 0 (R152). -/
def rget (k : Slot) (r : BitVec 5) : Word := if r = 0 then 0 else tabGet 0 k.regs r.toNat

/-- A slot with register `r` set and available; a write to s0 is ignored (R152). -/
def rset (k : Slot) (r : BitVec 5) (v : Word) : Slot :=
  if r = 0 then k else { k with regs := tabSet k.regs r.toNat v, busy := tabDel k.busy r.toNat }

/-- A slot whose register `r` holds `v` from `n` cycles after this issue (R158). -/
def rsetLate (k : Slot) (r : BitVec 5) (v : Word) (n : Nat) : Slot :=
  if r = 0 then k else { k with regs := tabSet k.regs r.toNat v, busy := tabSet k.busy r.toNat n }

/-- The value of register `r` is available to an instruction that issues one cycle later (R158). -/
def rready (k : Slot) (r : BitVec 5) : Bool := decide (tabGet 0 k.busy r.toNat ≤ 1)

/-- A slot some cycles later. -/
def ageBusy (k : Slot) (n : Nat) : Slot :=
  { k with busy := (k.busy.map (fun p => (p.1, p.2 - n))).filter (fun p => p.2 != 0) }

/-- The slot's context belongs to a DEGRADED region, whose contexts do not issue (R538). -/
def slotDegraded (s : State) (c sl : Nat) : Bool :=
  match slotCtx s c sl with
  | none => false
  | some x => match getRegion s x.region with | some d => d.degraded | none => false

/-- The conditions under which a slot issues an instruction that reads the registers `rs`: it is RUNNING, not stopped, its
region not DEGRADED, its PC inside the program, the registers available (R151, R153, R158). -/
def canIssue (s : State) (c sl : Nat) (rs : List (BitVec 5)) : Bool :=
  let k := getSlot s c sl
  k.st == .running && !k.stopReq && !slotDegraded s c sl && decide (k.pc.toNat < k.plen) && rs.all (rready k)

/-- A slot that has issued: the cycle passes for its pending registers. -/
def issued (s : State) (k : Slot) : Slot := { ageBusy k 1 with lastIssue := s.clock.ftc, yielded := false, trcWait := 0 }

/-- A slot waits with an instruction. -/
def waitWith (s : State) (c sl : Nat) (why : WaitWhy) (i : Instr) : State :=
  modSlot s c sl (fun k => { k with st := .waiting, why := why, waiting := some i })

/-- A slot goes on from a wait. -/
def unwait (k : Slot) : Slot := { k with st := .running, why := .none, waiting := none }

/-- PC + 1 of a slot (R152: 14 bits). -/
def nextPc (k : Slot) : Slot := { k with pc := k.pc + 1 }

/-- Issue instruction `i`, which reads `rs`: stop where the dispatch unit stops the slot, fault at a PC beyond the program,
wait on the interlock, or go on with `g`. -/
def issueWith (s : State) (c sl : Nat) (rs : List (BitVec 5)) (i : Instr) (g : State → State) : State :=
  let k := getSlot s c sl
  if k.st != .running then s
  else if slotDegraded s c sl then s
  else if k.stopReq then
    let s := haltSlot s c sl
    match slotCtx s c sl with | some x => poolCheck s x.region | none => s
  else if k.plen ≤ k.pc.toNat then instrFault s c sl cSeqPc 0
  else if rs.all (rready k) then g s
  else waitWith s c sl .interlock i

/-- A command that issues an instruction of a slot. -/
def issueCmd (s : State) (c sl : Nat) (rs : List (BitVec 5)) (i : Instr) (g : State → State) :
    Host.Outcome State Fault Refusal :=
  slotRun s c sl (fun s => issueWith s c sl rs i g)

/-- The slot after an instruction that changes only it. -/
def retire (s : State) (c sl : Nat) (g : Slot → Slot) : State := putSlot s c sl (g (issued s (getSlot s c sl)))

/-- The result of an ALU instruction: `rd` takes `v`, PC goes on. -/
def retireAlu (s : State) (c sl : Nat) (rd : BitVec 5) (v : Word) : State :=
  retire s c sl (fun k => nextPc (rset k rd v))

/-- The result of a MUL: available 3 cycles after issue (R158). -/
def retireMul (s : State) (c sl : Nat) (rd : BitVec 5) (v : Word) : State :=
  retire s c sl (fun k => nextPc (rsetLate k rd v 3))

/-- The value of register `r` of a slot in a state. -/
def sreg (s : State) (c sl : Nat) (r : BitVec 5) : Word := rget (getSlot s c sl) r

/-- SEQ_ILLEGAL where `bad` holds (R157). -/
def legal (s : State) (c sl : Nat) (bad : Bool) (g : State → State) : State :=
  if bad then instrFault s c sl cSeqIllegal 0 else g s

/-- Sign extension of an immediate. -/
def sext16 (i : BitVec 16) : Word := i.signExtend 64

/-! ### Pending ranges (R174, R175) -/

/-- The 32-byte words of a physical range, as the scoreboard compares them. -/
def toWords (p n : Nat) (wr : Bool) : Rng32 := ⟨p / 32, if n = 0 then 0 else (p + n - 1) / 32 + 1 - p / 32, wr⟩

/-- The ranges of every operation of a cluster that has not ended. -/
def pendingRanges (s : State) (c : Nat) : List Rng32 := (getClu s c).ops.flatMap (fun o => o.ranges)

/-- Two ranges conflict: they share a word and one of them is written. -/
def rngConflict (a b : Rng32) : Bool := overlaps a.w0 a.n b.w0 b.n && (a.wr || b.wr)

/-- A range conflicts with a pending one. -/
def rngWaits (s : State) (c : Nat) (a : Rng32) : Bool := (pendingRanges s c).any (rngConflict a)

/-- Every store of a slot has been written: no dirty entry lies in its partition (R154). -/
def storesWritten (s : State) (c sl : Nat) : Bool :=
  match partOf s c sl with
  | none => true
  | some (b, n) => (getClu s c).gather.all (fun e => !(e.dirty && inside (32 * e.word) 32 b n))

/-- FENCE's condition: nothing of the slot in flight, every store written. -/
def fenceDone (s : State) (c sl : Nat) : Bool := (slotOps s c sl).isEmpty && storesWritten s c sl

end Sys2Proof.Machine
end

