-- ==== Sys2Proof/Machine/Sequencer.lean ====
section
/-! DEFINITION. The sequencer's instructions beside TISS and DMA (R154 to R159, R175, R178 to R181). -/

namespace Sys2Proof.Machine

/-! ### ALU class -/

/-- A three-register ALU instruction (R155). -/
def aluRRR (i : Instr) (c sl : Nat) (rd rs1 rs2 : BitVec 5) (f : Word → Word → Word) (s : State) : State :=
  issueWith s c sl [rs1, rs2] i (fun s => retireAlu s c sl rd (f (sreg s c sl rs1) (sreg s c sl rs2)))

/-- A shift distance: bits [5:0] (R155). -/
def shamt (w : Word) : Nat := w.toNat % 64

/-- The ALU functions of R155. -/
def aluAdd (a b : Word) : Word := a + b
def aluSub (a b : Word) : Word := a - b
def aluAnd (a b : Word) : Word := a &&& b
def aluOr (a b : Word) : Word := a ||| b
def aluXor (a b : Word) : Word := a ^^^ b
def aluSll (a b : Word) : Word := a <<< shamt b
def aluSrl (a b : Word) : Word := a >>> shamt b
def aluSra (a b : Word) : Word := a.sshiftRight (shamt b)
def aluSlt (a b : Word) : Word := boolWord (cmpLt a b)
def aluSltu (a b : Word) : Word := boolWord (cmpLtu a b)
def aluMul (a b : Word) : Word := a * b
def aluMin (a b : Word) : Word := if cmpLt a b then a else b
def aluMax (a b : Word) : Word := if cmpLt a b then b else a
def aluMinu (a b : Word) : Word := if cmpLtu a b then a else b
def aluMaxu (a b : Word) : Word := if cmpLtu a b then b else a

/-- ADD. -/
def doAdd (c sl : Nat) (rd rs1 rs2 : BitVec 5) := aluRRR (.add c sl rd rs1 rs2) c sl rd rs1 rs2 aluAdd
/-- SUB. -/
def doSub (c sl : Nat) (rd rs1 rs2 : BitVec 5) := aluRRR (.sub c sl rd rs1 rs2) c sl rd rs1 rs2 aluSub
/-- AND. -/
def doAnd (c sl : Nat) (rd rs1 rs2 : BitVec 5) := aluRRR (.and c sl rd rs1 rs2) c sl rd rs1 rs2 aluAnd
/-- OR. -/
def doOr (c sl : Nat) (rd rs1 rs2 : BitVec 5) := aluRRR (.or c sl rd rs1 rs2) c sl rd rs1 rs2 aluOr
/-- XOR. -/
def doXor (c sl : Nat) (rd rs1 rs2 : BitVec 5) := aluRRR (.xor c sl rd rs1 rs2) c sl rd rs1 rs2 aluXor
/-- SLL. -/
def doSll (c sl : Nat) (rd rs1 rs2 : BitVec 5) := aluRRR (.sll c sl rd rs1 rs2) c sl rd rs1 rs2 aluSll
/-- SRL. -/
def doSrl (c sl : Nat) (rd rs1 rs2 : BitVec 5) := aluRRR (.srl c sl rd rs1 rs2) c sl rd rs1 rs2 aluSrl
/-- SRA. -/
def doSra (c sl : Nat) (rd rs1 rs2 : BitVec 5) := aluRRR (.sra c sl rd rs1 rs2) c sl rd rs1 rs2 aluSra
/-- SLT. -/
def doSlt (c sl : Nat) (rd rs1 rs2 : BitVec 5) := aluRRR (.slt c sl rd rs1 rs2) c sl rd rs1 rs2 aluSlt
/-- SLTU. -/
def doSltu (c sl : Nat) (rd rs1 rs2 : BitVec 5) := aluRRR (.sltu c sl rd rs1 rs2) c sl rd rs1 rs2 aluSltu
/-- MIN, signed. -/
def doMin (c sl : Nat) (rd rs1 rs2 : BitVec 5) := aluRRR (.min c sl rd rs1 rs2) c sl rd rs1 rs2 aluMin
/-- MAX, signed. -/
def doMax (c sl : Nat) (rd rs1 rs2 : BitVec 5) := aluRRR (.max c sl rd rs1 rs2) c sl rd rs1 rs2 aluMax
/-- MINU. -/
def doMinu (c sl : Nat) (rd rs1 rs2 : BitVec 5) := aluRRR (.minu c sl rd rs1 rs2) c sl rd rs1 rs2 aluMinu
/-- MAXU. -/
def doMaxu (c sl : Nat) (rd rs1 rs2 : BitVec 5) := aluRRR (.maxu c sl rd rs1 rs2) c sl rd rs1 rs2 aluMaxu

/-- MUL: the low 64 bits of the product, 3 cycles after issue (R155, R158). -/
def doMul (c sl : Nat) (rd rs1 rs2 : BitVec 5) (s : State) : State :=
  issueWith s c sl [rs1, rs2] (.mul c sl rd rs1 rs2)
    (fun s => retireMul s c sl rd (aluMul (sreg s c sl rs1) (sreg s c sl rs2)))

/-- An ALU instruction with an immediate (R154); `bad` when the word holds 1 bits where it must hold 0. -/
def aluRRI (i : Instr) (c sl : Nat) (rd rs1 : BitVec 5) (bad : Bool) (f : Word → Word) (s : State) : State :=
  issueWith s c sl [rs1] i (fun s => legal s c sl bad (fun s => retireAlu s c sl rd (f (sreg s c sl rs1))))

/-- A shift's imm[15:6] must be 0 (R154). -/
def badShift (imm : BitVec 16) : Bool := decide (64 ≤ imm.toNat)

/-- ADDI: the immediate sign-extended. -/
def doAddi (c sl : Nat) (rd rs1 : BitVec 5) (imm : BitVec 16) :=
  aluRRI (.addi c sl rd rs1 imm) c sl rd rs1 false (fun a => aluAdd a (sext16 imm))
/-- ANDI: zero-extended. -/
def doAndi (c sl : Nat) (rd rs1 : BitVec 5) (imm : BitVec 16) :=
  aluRRI (.andi c sl rd rs1 imm) c sl rd rs1 false (fun a => aluAnd a (imm.zeroExtend 64))
/-- ORI: zero-extended. -/
def doOri (c sl : Nat) (rd rs1 : BitVec 5) (imm : BitVec 16) :=
  aluRRI (.ori c sl rd rs1 imm) c sl rd rs1 false (fun a => aluOr a (imm.zeroExtend 64))
/-- XORI: zero-extended. -/
def doXori (c sl : Nat) (rd rs1 : BitVec 5) (imm : BitVec 16) :=
  aluRRI (.xori c sl rd rs1 imm) c sl rd rs1 false (fun a => aluXor a (imm.zeroExtend 64))
/-- SLLI. -/
def doSlli (c sl : Nat) (rd rs1 : BitVec 5) (imm : BitVec 16) :=
  aluRRI (.slli c sl rd rs1 imm) c sl rd rs1 (badShift imm) (fun a => aluSll a (imm.zeroExtend 64))
/-- SRLI. -/
def doSrli (c sl : Nat) (rd rs1 : BitVec 5) (imm : BitVec 16) :=
  aluRRI (.srli c sl rd rs1 imm) c sl rd rs1 (badShift imm) (fun a => aluSrl a (imm.zeroExtend 64))
/-- SRAI. -/
def doSrai (c sl : Nat) (rd rs1 : BitVec 5) (imm : BitVec 16) :=
  aluRRI (.srai c sl rd rs1 imm) c sl rd rs1 (badShift imm) (fun a => aluSra a (imm.zeroExtend 64))
/-- SLTI: sign-extended, signed. -/
def doSlti (c sl : Nat) (rd rs1 : BitVec 5) (imm : BitVec 16) :=
  aluRRI (.slti c sl rd rs1 imm) c sl rd rs1 false (fun a => aluSlt a (sext16 imm))

/-- LDI's result: bits [16q + 15:16q] of `old` replaced (R154). -/
def ldiWord (old : Word) (q : BitVec 2) (imm : BitVec 16) : Word :=
  let sh := 16 * q.toNat
  (old &&& ~~~((0xFFFF : Word) <<< sh)) ||| ((imm.zeroExtend 64) <<< sh)

/-- LDI: it reads rd, whose other bits it keeps. -/
def doLdi (c sl : Nat) (rd : BitVec 5) (z : BitVec 3) (q : BitVec 2) (imm : BitVec 16) :=
  aluRRI (.ldi c sl rd z q imm) c sl rd rd (z != 0) (fun a => ldiWord a q imm)

/-! ### Branch class -/

/-- The slot with PC at `pc`; a taken branch takes 2 issue cycles (R158). -/
def jumpTo (pc : BitVec 14) (k : Slot) : Slot := { ageBusy k 1 with pc := pc }

/-- A conditional branch (R154): its outcome is traced. -/
def branch (i : Instr) (c sl : Nat) (rs1 rs2 : BitVec 5) (off : BitVec 16) (p : Word → Word → Bool) (s : State) : State :=
  issueWith s c sl [rs1, rs2] i (fun s =>
    if branchStalls s c sl then stallTrc s c sl
    else
      let taken := p (sreg s c sl rs1) (sreg s c sl rs2)
      let s := trcBranch s c sl (getSlot s c sl).pc.toNat taken
      retire s c sl (fun k => if taken then jumpTo (k.pc + (off.signExtend 64).truncate 14) k else nextPc k))

/-- BEQ. -/
def doBeq (c sl : Nat) (rs1 rs2 : BitVec 5) (off : BitVec 16) := branch (.beq c sl rs1 rs2 off) c sl rs1 rs2 off cmpEq
/-- BNE. -/
def doBne (c sl : Nat) (rs1 rs2 : BitVec 5) (off : BitVec 16) := branch (.bne c sl rs1 rs2 off) c sl rs1 rs2 off cmpNe
/-- BLT, signed. -/
def doBlt (c sl : Nat) (rs1 rs2 : BitVec 5) (off : BitVec 16) := branch (.blt c sl rs1 rs2 off) c sl rs1 rs2 off cmpLt
/-- BGE, signed. -/
def doBge (c sl : Nat) (rs1 rs2 : BitVec 5) (off : BitVec 16) := branch (.bge c sl rs1 rs2 off) c sl rs1 rs2 off cmpGe
/-- BLTU. -/
def doBltu (c sl : Nat) (rs1 rs2 : BitVec 5) (off : BitVec 16) := branch (.bltu c sl rs1 rs2 off) c sl rs1 rs2 off cmpLtu
/-- BGEU. -/
def doBgeu (c sl : Nat) (rs1 rs2 : BitVec 5) (off : BitVec 16) := branch (.bgeu c sl rs1 rs2 off) c sl rs1 rs2 off cmpGeu

/-- The link value of JAL and JALR: PC + 1 as a 64-bit number (log entry 27). -/
def linkOf (k : Slot) : Word := k.pc.zeroExtend 64 + 1

/-- JAL: no trace record (R472). -/
def doJal (c sl : Nat) (rd : BitVec 5) (off : BitVec 21) (s : State) : State :=
  issueWith s c sl [] (.jal c sl rd off) (fun s =>
    retire s c sl (fun k => jumpTo (k.pc + (off.signExtend 64).truncate 14) (rset k rd (linkOf k))))

/-- JALR: the target is taken from rs1 as it was; a JUMP record is traced (R472). -/
def doJalr (c sl : Nat) (rd rs1 : BitVec 5) (imm : BitVec 16) (s : State) : State :=
  issueWith s c sl [rs1] (.jalr c sl rd rs1 imm) (fun s =>
    if trcStalls s c sl 1 then stallTrc s c sl
    else
      let target : BitVec 14 := (sreg s c sl rs1 + sext16 imm).truncate 14
      let s := trcPut s c sl 3 (leBytes 2 (getSlot s c sl).pc.toNat ++ leBytes 2 target.toNat)
      retire s c sl (fun k => jumpTo target (rset k rd (linkOf k))))

/-- HALT: it waits as FENCE does; PROGRAM_END ends the program (R154). -/
def doHalt (c sl : Nat) (z : BitVec 26) (s : State) : State :=
  issueWith s c sl [] (.halt c sl z) (fun s =>
    legal s c sl (z != 0) (fun s => waitWith (retire s c sl id) c sl .fence (.halt c sl z)))

/-- The slot waits in HALT. -/
def inHalt (k : Slot) : Bool :=
  k.st == .waiting && match k.waiting with | some (.halt _ _ _) => true | _ => false

/-- PROGRAM_END: HALT's wait has ended; the slot is HALTED, and a pool item completes once every context has (R154, R414). In
stall mode it waits for room for its END record (R473). -/
def doProgramEnd (c sl : Nat) (s : State) : State :=
  if inHalt (getSlot s c sl) && fenceDone s c sl then
    if trcStalls s c sl 1 then stallTrc s c sl
    else
    let s := haltSlot s c sl
    let s := modSlot s c sl (fun k => { k with openAtomic := false })
    match slotCtx s c sl with
    | some x => poolCheck s x.region
    | none => s
  else s

/-! ### Loads and stores -/

/-- A load or store of `n` bytes at context address `a`: alignment first, then the partition (R157). -/
def accessOk (s : State) (c sl : Nat) (a n : Nat) (g : State → State) : State :=
  if a % n ≠ 0 then instrFault s c sl cSeqAlign 0
  else if partSize s c sl < a + n then instrFault s c sl cSpadRange a
  else g s

/-- A load of `n` bytes, zero-extended (R154, R158, R175). DESIGN CHOICE, log entry 82: a wait for room in the gather buffer
shows STATE WAITING with WAIT 0, the WAIT table of R188 having no code for it. -/
def load (i : Instr) (c sl : Nat) (rd rs1 : BitVec 5) (imm : BitVec 16) (n : Nat) (s : State) : State :=
  issueWith s c sl [rs1] i (fun s =>
    let a := (sreg s c sl rs1 + sext16 imm).toNat
    accessOk s c sl a n (fun s =>
      let p := partBase s c sl + a
      if rngWaits s c (toWords p n false) then waitWith s c sl .overlap i
      else match narrow s c (p / 32) with
        | .waits => waitWith s c sl .none i
        | .poisoned s => instrFault s c sl cSpadUncorr 0
        | .got s e hit =>
          let v := BitVec.ofNat 64 (leNat ((e.data.drop (p % 32)).take n))
          retire s c sl (fun k => nextPc (rsetLate k rd v (if hit then 4 else 8)))))

/-- LD, LW, LH, LB. -/
def doLd (c sl : Nat) (rd rs1 : BitVec 5) (imm : BitVec 16) := load (.ld c sl rd rs1 imm) c sl rd rs1 imm 8
def doLw (c sl : Nat) (rd rs1 : BitVec 5) (imm : BitVec 16) := load (.lw c sl rd rs1 imm) c sl rd rs1 imm 4
def doLh (c sl : Nat) (rd rs1 : BitVec 5) (imm : BitVec 16) := load (.lh c sl rd rs1 imm) c sl rd rs1 imm 2
def doLb (c sl : Nat) (rd rs1 : BitVec 5) (imm : BitVec 16) := load (.lb c sl rd rs1 imm) c sl rd rs1 imm 1

/-- A store of the low `n` bytes of rs2 (R154, R175). DESIGN CHOICE, log entry 82: a wait for room in the gather buffer shows
STATE WAITING with WAIT 0. -/
def store (i : Instr) (c sl : Nat) (rs2 rs1 : BitVec 5) (imm : BitVec 16) (n : Nat) (s : State) : State :=
  issueWith s c sl [rs2, rs1] i (fun s =>
    let a := (sreg s c sl rs1 + sext16 imm).toNat
    accessOk s c sl a n (fun s =>
      let p := partBase s c sl + a
      if rngWaits s c (toWords p n true) then waitWith s c sl .overlap i
      else match narrow s c (p / 32) with
        | .waits => waitWith s c sl .none i
        | .poisoned s => instrFault s c sl cSpadUncorr 0
        | .got s e _ =>
          let s := narrowPut s c e (p % 32) (leBytes n (sreg s c sl rs2).toNat)
          retire s c sl nextPc))

/-- SD, SW, SH, SB. -/
def doSd (c sl : Nat) (rs2 rs1 : BitVec 5) (imm : BitVec 16) := store (.sd c sl rs2 rs1 imm) c sl rs2 rs1 imm 8
def doSw (c sl : Nat) (rs2 rs1 : BitVec 5) (imm : BitVec 16) := store (.sw c sl rs2 rs1 imm) c sl rs2 rs1 imm 4
def doSh (c sl : Nat) (rs2 rs1 : BitVec 5) (imm : BitVec 16) := store (.sh c sl rs2 rs1 imm) c sl rs2 rs1 imm 2
def doSb (c sl : Nat) (rs2 rs1 : BitVec 5) (imm : BitVec 16) := store (.sb c sl rs2 rs1 imm) c sl rs2 rs1 imm 1

/-! ### Descriptor buffer (R159) -/

/-- The slot with bytes of entry `td` written from `off`. -/
def tdPut (td : BitVec 2) (off : Nat) (bs : List Byte) (k : Slot) : Slot := { k with td := bytesSet k.td (64 * td.toNat + off) bs }

/-- The 64 bytes of entry `td`. -/
def tdBytes (k : Slot) (td : BitVec 2) : List Byte := bytesGet k.td (64 * td.toNat) 64

/-- TDZ. -/
def doTdz (c sl : Nat) (td : BitVec 2) (z : BitVec 24) (s : State) : State :=
  issueWith s c sl [] (.tdz c sl td z) (fun s => legal s c sl (z != 0) (fun s =>
    retire s c sl (fun k => nextPc (tdPut td 0 (List.replicate 64 0) k))))

/-- TDW: off must be a multiple of 2^w. -/
def doTdw (c sl : Nat) (td w : BitVec 2) (z1 : BitVec 1) (rs1 : BitVec 5) (z10 : BitVec 10) (off : BitVec 6)
    (s : State) : State :=
  issueWith s c sl [rs1] (.tdw c sl td w z1 rs1 z10 off) (fun s =>
    legal s c sl (z1 != 0 || z10 != 0 || off.toNat % 2 ^ w.toNat != 0) (fun s =>
      let v := (sreg s c sl rs1).toNat
      retire s c sl (fun k => nextPc (tdPut td off.toNat (leBytes (2 ^ w.toNat) v) k))))

/-- TDI: off must be even. -/
def doTdi (c sl : Nat) (td : BitVec 2) (z : BitVec 2) (off : BitVec 6) (imm : BitVec 16) (s : State) : State :=
  issueWith s c sl [] (.tdi c sl td z off imm) (fun s =>
    legal s c sl (z != 0 || off.toNat % 2 != 0) (fun s =>
      retire s c sl (fun k => nextPc (tdPut td off.toNat (leBytes 2 imm.toNat) k))))

/-! ### Synchronisation -/

/-- WAITC's condition (R181). -/
def waitcHolds (k : Slot) (rs1 n : BitVec 5) : Bool := serialGe (tabGet 0 k.ac n.toNat) ((rget k rs1).truncate 32)

/-- WAITC. -/
def doWaitc (c sl : Nat) (rs1 n : BitVec 5) (z : BitVec 16) (s : State) : State :=
  issueWith s c sl [rs1] (.waitc c sl rs1 n z) (fun s => legal s c sl (z != 0) (fun s =>
    if waitcHolds (getSlot s c sl) rs1 n then retire s c sl nextPc
    else waitWith (retire s c sl id) c sl .waitc (.waitc c sl rs1 n z)))

/-- The operation of ticket `t` of a slot has ended (R159). -/
def ticketEnded (s : State) (c sl : Nat) (t : BitVec 32) : Bool := (slotOps s c sl).all (fun o => o.ticket != t)

/-- WAITOP: a ticket of 0 does not wait, one not yet issued faults (R159). -/
def doWaitop (c sl : Nat) (z5 rs1 : BitVec 5) (z16 : BitVec 16) (s : State) : State :=
  issueWith s c sl [rs1] (.waitop c sl z5 rs1 z16) (fun s => legal s c sl (z5 != 0 || z16 != 0) (fun s =>
    let t : BitVec 32 := (sreg s c sl rs1).truncate 32
    if t = 0 then retire s c sl nextPc
    else if !serialGe (getSlot s c sl).ticket t then instrFault s c sl cSeqTicket 0
    else if ticketEnded s c sl t then retire s c sl nextPc
    else waitWith (retire s c sl id) c sl .waitop (.waitop c sl z5 rs1 z16)))

/-- A FENCE that is done. -/
def fencePass (k : Slot) : Slot := nextPc { k with openAtomic := false }

/-- FENCE. -/
def doFence (c sl : Nat) (z : BitVec 26) (s : State) : State :=
  issueWith s c sl [] (.fence c sl z) (fun s => legal s c sl (z != 0) (fun s =>
    if fenceDone s c sl then retire s c sl fencePass
    else waitWith (retire s c sl id) c sl .fence (.fence c sl z)))

/-- The slot waits for `why`. -/
def waitsFor (k : Slot) (why : WaitWhy) : Bool := k.st == .waiting && k.why == why

/-- WAITC_RESUME: the condition holds, the slot goes on (R181). -/
def doWaitcResume (c sl : Nat) (s : State) : State :=
  match (getSlot s c sl).waiting with
  | some (.waitc _ _ rs1 n _) =>
    if waitsFor (getSlot s c sl) .waitc && waitcHolds (getSlot s c sl) rs1 n then modSlot s c sl (fun k => nextPc (unwait k))
    else s
  | _ => s

/-- WAITOP_RESUME: the operation has ended (R159). -/
def doWaitopResume (c sl : Nat) (s : State) : State :=
  match (getSlot s c sl).waiting with
  | some (.waitop _ _ _ rs1 _) =>
    if waitsFor (getSlot s c sl) .waitop && ticketEnded s c sl ((sreg s c sl rs1).truncate 32) then
      modSlot s c sl (fun k => nextPc (unwait k))
    else s
  | _ => s

/-- FENCE_RESUME: everything of the slot has ended (R154). -/
def doFenceResume (c sl : Nat) (s : State) : State :=
  match (getSlot s c sl).waiting with
  | some (.fence _ _ _) =>
    if waitsFor (getSlot s c sl) .fence && fenceDone s c sl then modSlot s c sl (fun k => fencePass (unwait k)) else s
  | _ => s

/-- SRD's special values: cluster ID as programs see it, slot, FTC, last ticket issued (R156, R310). -/
def special (s : State) (c sl : Nat) (n : BitVec 5) : Word :=
  match n.toNat with
  | 0 => BitVec.ofNat 64 (seenId s c)
  | 1 => BitVec.ofNat 64 sl
  | 2 => BitVec.ofNat 64 s.clock.ftc
  | _ => (getSlot s c sl).ticket.zeroExtend 64

/-- SRD: n must lie in 0 to 3 (R156, R157). -/
def doSrd (c sl : Nat) (rd rs1 n : BitVec 5) (z : BitVec 7) (s : State) : State :=
  issueWith s c sl [] (.srd c sl rd rs1 n z) (fun s =>
    legal s c sl (z != 0 || decide (3 < n.toNat)) (fun s => retireAlu s c sl rd (special s c sl n)))

/-- ACRD: AC[n], zero-extended. -/
def doAcrd (c sl : Nat) (rd rs1 n : BitVec 5) (z : BitVec 7) (s : State) : State :=
  issueWith s c sl [] (.acrd c sl rd rs1 n z) (fun s => legal s c sl (z != 0) (fun s =>
    retireAlu s c sl rd ((tabGet (0 : BitVec 32) (getSlot s c sl).ac n.toNat).zeroExtend 64)))

/-- ACSET: AC[n] := bits [31:0] of rs1. -/
def doAcset (c sl : Nat) (rd rs1 n : BitVec 5) (z : BitVec 7) (s : State) : State :=
  issueWith s c sl [rs1] (.acset c sl rd rs1 n z) (fun s => legal s c sl (z != 0) (fun s =>
    let v : BitVec 32 := (sreg s c sl rs1).truncate 32
    retire s c sl (fun k => nextPc { k with ac := tabSet k.ac n.toNat v })))

/-- TMARK: a MARK record with PC and rs1 (R156, R472). -/
def doTmark (c sl : Nat) (rd rs1 n : BitVec 5) (z : BitVec 7) (s : State) : State :=
  issueWith s c sl [rs1] (.tmark c sl rd rs1 n z) (fun s => legal s c sl (z != 0) (fun s =>
    if trcStalls s c sl 1 then stallTrc s c sl
    else
      let body := leBytes 2 (getSlot s c sl).pc.toNat ++ leBytes 2 0 ++ leBytes 8 (sreg s c sl rs1).toNat
      retire (trcPut s c sl 6 body) c sl nextPc))

/-- YIELD: the slot is not ready for one cycle. -/
def doYield (c sl : Nat) (rd rs1 n : BitVec 5) (z : BitVec 7) (s : State) : State :=
  issueWith s c sl [] (.yield c sl rd rs1 n z) (fun s => legal s c sl (z != 0) (fun s =>
    retire s c sl (fun k => { nextPc k with yielded := true })))

end Sys2Proof.Machine
end

