-- ==== Sys2Proof/Machine/Checks.lean ====
section
/-! DEFINITION. The issue checks of TISS, DMAG and DMAP (R172) with the parameter rules that they test (R78, R88, R98,
R139, R162 to R170, R192, R223, R225, R228, R242, R256, R257, R335, R345, R426, R603). -/

namespace Sys2Proof.Machine

/-! ### The operands of each operation -/

/-- How an operand is declared to the scoreboard. -/
inductive Dir where
  | r | w | rw
  deriving DecidableEq, Repr

/-- The offsets of the operand references of an operation (R165 to R169). -/
def opndOffs (d : List Byte) : List Nat :=
  match dOp d with
  | 1 => [16, 24, 32, 40] | 2 => [16, 24, 32, 40] | 3 => [16, 24, 32, 40]
  | 4 => [16, 24, 32, 40, 56] | 5 => [16, 24, 32, 40, 48] | 6 => [16, 24, 32]
  | 7 => [16, 24] | 8 => [16, 24] | 9 => [40] | 10 => [16, 24] | 11 => [16, 24] | 12 => [16]
  | 13 => [16, 24, 32] | _ => []

/-- TCLU, TSLOT, TCTR with its enable, TNODE (R169). -/
def dTclu (d : List Byte) : Nat := fld d 32 2
def dTslot (d : List Byte) : Nat := bits (fld d 34 1) 1 0
def dTctr (d : List Byte) : Option Nat := if bitB (fld d 35 1) 5 then some (bits (fld d 35 1) 4 0) else none
def dTnode (d : List Byte) : Nat := fld d 36 2

/-- TNODE as the checks and the operation take it: the module's own ID is 0xFFFF (R334, R335). -/
def tnodeOf (s : State) (d : List Byte) : Nat := if dTnode d = s.lnk.node then 0xFFFF else dTnode d

/-- TMEM, TADDR, ROP, DIM of RED and MRG (R169). -/
def dTmem (d : List Byte) : Bool := bitB (fld d 39 1) 0
def dTaddr (d : List Byte) : Nat := fld d 40 8
def dRop (d : List Byte) : Nat := fld d 38 1
def dDim (d : List Byte) : Nat := fld d 48 2

/-- The operation's target is its own cluster on its own module (R170). -/
def isLocal (s : State) (d : List Byte) : Bool := dTclu d == 0xFFFF && tnodeOf s d == 0xFFFF

/-- A CMP that compresses: its DST has FMT 0 (R256). -/
def cmpPacks (d : List Byte) : Bool := (opnd d 24).fmt == 0

/-- The declared operands of an operation (R165 to R170, R256). -/
def declared (s : State) (d : List Byte) : List (Opnd × Dir) :=
  let o := fun i => opnd d i
  let acc := if dAcc d = 0 then Dir.w else Dir.rw
  let all : List (Opnd × Dir) :=
    match dOp d with
    | 1 => [(o 16, .r), (o 24, acc), (o 32, acc), (o 40, .r)]
    | 2 => [(o 16, .r), (o 24, acc), (o 32, acc), (o 40, .r)]
    | 3 => [(o 16, .r), (o 24, .w), (o 32, .w), (o 40, .r)]
    | 4 => [(o 16, .r), (o 24, .w), (o 32, .r), (o 40, .r), (o 56, .r)]
    | 5 => [(o 16, .r), (o 24, .r), (o 32, .w), (o 40, .r), (o 48, .r)]
    | 6 => [(o 16, .r), (o 24, .w), (o 32, .r)]
    | 7 => [(o 16, .r), (o 24, .w)]
    | 8 => [(o 16, .r), (o 24, .r)]
    | 9 => [(o 40, .r)]
    | 10 => if isLocal s d then [(o 16, .r), (o 24, .w)] else [(o 16, .r)]
    | 11 => if isLocal s d && !dTmem d then [(o 16, .r), (o 24, .rw)] else [(o 16, .r)]
    | 12 => [(o 16, .r)]
    | 13 => [(o 16, .r), (o 24, .w), (o 32, if cmpPacks d then .w else .r)]
    | _ => []
  all.filter (fun p => p.1.present)

/-! ### Checks 2 to 4 -/

/-- Bytes `o` to `o + n - 1` of a descriptor are 0. -/
def zeros (d : List Byte) (o n : Nat) : Bool := fld d o n == 0

/-- The format code names a format; 0x9 to 0xE are reserved (R39, R163). -/
def codeOk (c : Nat) : Bool := (fmtOf c).isSome

/-- Every present operand has a format code of R163, and FOLLOW only as SRC of TLA and GATE; MOV ignores FMT (R170). -/
def codesOk (d : List Byte) : Bool :=
  dOp d == opMOV || (opndOffs d).all (fun o => !(opnd d o).present ||
    (codeOk (opnd d o).fmt && ((opnd d o).fmt != 15 || (o == 16 && (dOp d == opTLA || dOp d == opGATE)))))

/-- Reserved bits of the common header are 0; STREAM and CBASE are 0 without SOVR (R160). -/
def headerOk (d : List Byte) : Bool :=
  bits (fld d 1 1) 7 3 == 0 && bits (fld d 2 1) 7 6 == 0 && zeros d 3 1 && zeros d 14 2 && (dSovr d || zeros d 4 10)

/-- TCLU is a cluster or 0xFFFF, and the reserved bits beside TSLOT and TCTR are 0 (R169). -/
def targetOk (d : List Byte) : Bool :=
  (decide (dTclu d < 1536) || dTclu d == 0xFFFF) && bits (fld d 34 1) 7 2 == 0 && bits (fld d 35 1) 7 6 == 0

/-- The reserved bits and bytes of each operation are 0 (R165 to R169). -/
def reservedOk (d : List Byte) : Bool :=
  match dOp d with
  | 1 | 2 | 3 =>
    bits (fld d 48 4) 31 27 == 0 && bits (fld d 52 2) 15 14 == 0 && bits (fld d 54 4) 31 20 == 0 &&
      bits (fld d 58 1) 7 6 == 0 && zeros d 59 1 && (dOp d == 3 || zeros d 60 4)
  | 4 => bits (fld d 48 4) 31 20 == 0 && bits (fld d 54 1) 7 6 == 0 && zeros d 55 1
  | 5 => bits (fld d 56 4) 31 20 == 0 && bits (fld d 61 1) 7 1 == 0 && zeros d 62 2
  | 6 => bits (fld d 40 4) 31 20 == 0 && zeros d 45 3 && zeros d 52 12
  | 7 => zeros d 46 18
  | 8 => zeros d 50 14
  | 9 => zeros d 16 16 && bits (fld d 38 1) 7 1 == 0 && zeros d 48 16
  | 10 => targetOk d && zeros d 38 26
  | 11 => targetOk d && bits (fld d 39 1) 7 1 == 0 && zeros d 48 16
  | 12 => zeros d 24 8 && targetOk d && zeros d 38 1 && bits (fld d 39 1) 7 1 == 0 && zeros d 50 14
  | 13 => bits (fld d 42 1) 7 1 == 0 && zeros d 43 21
  | _ => zeros d 16 16 && targetOk d && zeros d 38 26

/-- Row alignment, narrow lengths, COL word alignment and span (R162). -/
def shapeOk (r : Opnd) : Bool :=
  !r.present ||
    (match r.shape with
     | 0 => r.addr % 32 == 0 && r.len % 32 == 0
     | 1 => r.addr % 32 == 0 && decide (r.addr / 32 % 16 + r.words ≤ 16)
     | _ => decide (r.len ≤ 256))

/-- Format codes of an image operand: an unknown code, or SAT on an image that carries no stream, fails (R163, R164). -/
def imageOk (r : Opnd) (fs : List Nat) : Bool :=
  r.present && fs.contains r.fmt &&
    (!r.sat || (match fmtOf r.fmt with | some f => fmtIsAct f || f == .follow | none => false))

/-- An absent operand, or one that meets `p`. -/
def optOk (r : Opnd) (p : Opnd → Bool) : Bool := !r.present || p r

/-- The image of `n` elements in the format of an operand fits its size. -/
def fits (r : Opnd) (n : Nat) : Bool :=
  match fmtOf r.fmt with
  | some f => decide (imageSize f n r.sat ≤ r.size)
  | none => false

/-- The size of an accumulator block of `n` rows (R165, R603). -/
def blockSize (n : Nat) : Nat := up32 (16 + 4 * n)

/-- The size of a GATE record of `n` rows (R165). -/
def gateSize (n : Nat) : Nat := up32 (8 + 2 * ceilDiv n 8)

/-- SCOPE in engines (R165). -/
def scopeOf (d : List Byte) : Nat :=
  match dScope d with
  | 0 => 1 | 1 => 4 | _ => 32

/-- The dense bound B of a pass (R426). -/
def denseBound (d : List Byte) : Nat :=
  let q := shareRows (dRows d) (scopeOf d)
  let l := ceilDiv (min q (dRows d)) 64
  if dOp d = opXNP then 3 + 1 + ceilDiv (ceilDiv (dElems d) 8) 8 * l + l + 2
  else
    let p := match fmtOf (opnd d 16).fmt with
      | some f => if f = .follow then 4 else fmtPlanes f
      | none => 4
    let n := ceilDiv (ceilDiv (dElems d) 5) 8 * p * dTokens d
    3 + 4 + (n - 1) * max l 4 + l + dTokens d * l + 2

/-- TLA, XNP and GATE: parameters, operands, sizes, the tile-boundary limit (R78, R88, R114, R164, R165, R426). -/
def engineOk (d : List Byte) (k : Cls) : Bool :=
  let src := opnd d 16
  let dst := opnd d 24
  let sd := opnd d 32
  let op := dOp d
  let rows := dRows d
  let n := dElems d
  let t := dTokens d
  let codes := decide (dScope d < 3) && bits (fld d 58 1) 3 2 != 3 && decide (dAcc d < 3) &&
    (op == opTLA || t == 1) && (op != opGATE || dAcc d == 0)
  let ranges := decide (1 ≤ rows) && decide (rows ≤ 256 * scopeOf d) && decide (1 ≤ n) &&
    decide (n ≤ if op = opXNP then 524280 else 327675)
  let source := imageOk src (if op = opXNP then [1] else [2, 3, 5, 15]) && src.size % (32 * t) == 0 &&
    (if src.fmt = 15 then src.sat && decide (streamSize n ≤ src.size / t)
     else match fmtOf src.fmt with
      | some f => decide (imageSize f n src.sat ≤ src.size / t)
      | none => false)
  let dest :=
    if op = opGATE then dst.present && dst.fmt == 0 && decide (gateSize rows ≤ dst.size)
    else if dAcc d = 2 then imageOk dst [8] && decide (up32 (4 * rows * t) ≤ dst.size)
    else dst.present && dst.fmt == 0 && decide (t * blockSize rows ≤ dst.size)
  let sums :=
    if op != opTLA || dAcc d == 2 then !sd.present
    else if sd.present then imageOk sd [8] && decide (up32 (4 * rows * t) ≤ sd.size)
    else !src.sat
  let mask := optOk (opnd d 40) (fun r => r.fmt == 0 && decide (ceilDiv rows 8 ≤ r.size))
  codes && ranges && source && dest && sums && mask && (k == .u || decide (denseBound d ≤ 2048))

/-- The targets that QNT may write from a source (R60, R603). -/
def qntTargets (srcAcc : Bool) (f : Nat) : List Nat :=
  let acts := [2, 3, 4, 5]
  if srcAcc then acts ++ [1, 6, 7, 8]
  else match f with
    | 8 => acts ++ [1, 6, 7]
    | 7 => acts ++ [1, 6, 8]
    | 4 => [2, 3, 5, 8]
    | _ => acts ++ [8]

/-- QNT's fields: ELEMS, CLAMPTHR, OPOL, FMAX, SRCACC (R166). -/
def qElems (d : List Byte) : Nat := bits (fld d 48 4) 19 0
def qThr (d : List Byte) : Nat := fld d 52 2
def qOpol (d : List Byte) : Bool := bitB (fld d 54 1) 0
def qFmax (d : List Byte) : Nat := bits (fld d 54 1) 4 1
def qAcc (d : List Byte) : Bool := bitB (fld d 54 1) 5

/-- FMAX under the fallback policy (R98). -/
def fmaxOk (target fmax : Nat) : Bool :=
  if target = 4 then fmax == 4
  else (fmax == 2 || fmax == 3 || fmax == 5) && decide (target ≤ fmax)

/-- A GAIN operand of `n` rows. -/
def gainOk (r : Opnd) (n : Nat) : Bool := optOk r (fun r => imageOk r [7] && fits r n)

/-- The source of QNT or ACT in its SRCACC form (R603). -/
def accSrcOk (r : Opnd) (n : Nat) : Bool := r.present && r.fmt == 0 && decide (blockSize n ≤ r.size)

/-- QNT (R98, R164, R166, R603). -/
def qntOk (d : List Byte) : Bool :=
  let src := opnd d 16
  let dst := opnd d 24
  let cal := opnd d 32
  let sc := opnd d 40
  let n := qElems d
  let source := if qAcc d then accSrcOk src n else imageOk src [2, 3, 4, 5, 7, 8] && fits src n
  let target := imageOk dst (qntTargets (qAcc d) src.fmt) && fits dst n
  let policy :=
    if [2, 3, 4, 5].contains dst.fmt then
      optOk cal (fun r => decide (ceilDiv n 8 + 2 * ceilDiv n 32 ≤ r.size)) &&
        optOk sc (fun r => decide (ceilDiv n 32 ≤ r.size)) &&
        (!qOpol d || (fmaxOk dst.fmt (qFmax d) && fits { dst with fmt := qFmax d } n))
    else !cal.present && !sc.present && qThr d == 0 && !qOpol d && qFmax d == 0
  source && target && policy && gainOk (opnd d 56) n

/-- ACT's fields: ELEMS, FUNC, SRCACC (R166). -/
def aElems (d : List Byte) : Nat := bits (fld d 56 4) 19 0
def aFunc (d : List Byte) : Nat := fld d 60 1
def aAcc (d : List Byte) : Bool := bitB (fld d 61 1) 0

/-- ACT (R164, R166, R603). -/
def actOk (d : List Byte) : Bool :=
  let src := opnd d 16
  let src2 := opnd d 24
  let n := aElems d
  let two := aFunc d == 4 || aFunc d == 5
  decide (aFunc d < 6) &&
    (if aAcc d then accSrcOk src n else imageOk src [7, 8] && fits src n) &&
    (if two then imageOk src2 [7, 8] && fits src2 n else !src2.present) &&
    imageOk (opnd d 32) [7, 8] && fits (opnd d 32) n &&
    optOk (opnd d 40) (fun r => r.fmt == 0 && decide (gateSize n ≤ r.size)) && gainOk (opnd d 48) n

/-- NRM's fields: ELEMS, KIND, EPS (R166). -/
def nElems (d : List Byte) : Nat := bits (fld d 40 4) 19 0
def nKind (d : List Byte) : Nat := fld d 44 1
def nEps (d : List Byte) : W32 := BitVec.ofNat 32 (fld d 48 4)

/-- NRM (R164, R166). -/
def nrmOk (d : List Byte) : Bool :=
  let n := nElems d
  decide (nKind d < 2) && imageOk (opnd d 16) [8] && fits (opnd d 16) n && imageOk (opnd d 24) [7, 8] &&
    fits (opnd d 24) n && optOk (opnd d 32) (fun r => imageOk r [7] && fits r n)

/-- Fields of ATT, KVA and COMMIT (R168). -/
def kSeq (d : List Byte) : Nat := fld d 32 4
def kLayer (d : List Byte) : Nat := fld d 36 2
def kHead0 (d : List Byte) : Nat := fld d 38 1
def kHeads (d : List Byte) : Nat := fld d 39 1
def attNpos (d : List Byte) : Nat := fld d 40 4
def attTslot (d : List Byte) : Nat := fld d 44 2
def kvaTslot (d : List Byte) : Nat := fld d 40 2
def kvaAnc (d : List Byte) : Nat := fld d 42 8
def comTree (d : List Byte) : Bool := bitB (fld d 38 1) 0
def comNacc (d : List Byte) : Nat := fld d 39 1

/-- The bytes that OUT takes for one head of dimension `dim` (R205). -/
def outHead (fmt dim : Nat) : Nat :=
  match fmt with
  | 8 => 4 * dim | 7 => 2 * dim | _ => 16 + 4 * dim

/-- Q and OUT hold `nh` heads of dimension `dim` (R192). -/
def attSizes (d : List Byte) (dim : Nat) : Bool :=
  fits (opnd d 16) (kHeads d * dim) && decide (up32 (outHead (opnd d 24).fmt dim * kHeads d) ≤ (opnd d 24).size)

/-- ATT (R192). -/
def attOk (d : List Byte) : Bool :=
  imageOk (opnd d 16) [3, 5] && !(opnd d 16).sat && (opnd d 24).present && [0, 7, 8].contains (opnd d 24).fmt &&
    ((opnd d 24).fmt == 0 || !(opnd d 24).sat) && decide (1 ≤ kHeads d) && decide (kHeads d ≤ 16) &&
    (decide (attTslot d < 64) || attTslot d == 0xFFFF) && attSizes d 64

/-- K and V hold `NHEADS` rows of dimension `dim` (R223). -/
def kvaSizes (d : List Byte) (dim : Nat) : Bool := fits (opnd d 16) (kHeads d * dim) && fits (opnd d 24) (kHeads d * dim)

/-- KVA (R223, R225). -/
def kvaOk (d : List Byte) : Bool :=
  imageOk (opnd d 16) [7, 8] && imageOk (opnd d 24) [7, 8] && decide (kvaTslot d < 64) && kvaSizes d 64 &&
    decide (kvaAnc d < 2 ^ kvaTslot d)

/-- COMMIT (R228). -/
def commitOk (d : List Byte) : Bool :=
  decide (comNacc d ≤ 64) && ((opnd d 40).present == comTree d) && (!comTree d || decide (comNacc d ≤ (opnd d 40).size))

/-- MOV: both operands present, DST at least as large as SRC (R170). -/
def movOk (d : List Byte) : Bool :=
  (opnd d 16).present && (opnd d 24).present && decide ((opnd d 16).size ≤ (opnd d 24).size)

/-- RED converts to BF16 on its way (R345). -/
def redBf16 (d : List Byte) : Bool := dRop d != 1 && (opnd d 24).fmt == 7

/-- The transported bytes of a RED, an MRG (R242, R345). -/
def redBytes (d : List Byte) : Nat := if redBf16 d then (opnd d 16).size / 4 * 2 else (opnd d 16).size
def mrgHeads (d : List Byte) : Nat := (opnd d 16).size / (16 + 4 * dDim d)
def mrgBytes (d : List Byte) : Nat := mrgHeads d * (8 + 2 * dDim d)

/-- RED (R335, R345): a RED to device memory needs no DST range. -/
def redOk (s : State) (d : List Byte) : Bool :=
  decide (dRop d < 3) && (opnd d 16).present && ((opnd d 24).present || dTmem d) &&
    (if dRop d = 1 then (opnd d 16).fmt == 0 && (opnd d 24).fmt == 0
     else (opnd d 16).fmt == 8 && !(opnd d 16).sat && ((opnd d 24).fmt == 8 || (opnd d 24).fmt == 7) &&
       !(opnd d 24).sat) &&
    (tnodeOf s d == 0xFFFF || decide (redBytes d ≤ 16384))

/-- MRG (R242, R335). -/
def mrgOk (s : State) (d : List Byte) : Bool :=
  (dDim d == 64 || dDim d == 128 || dDim d == 256) && dTmem d && (opnd d 16).present &&
    (tnodeOf s d == 0xFFFF || decide (mrgBytes d ≤ 16384))

/-- The tiles of an Attar source image of `size` bytes; 0 where no whole number of tiles has that size (R257). -/
def attarTiles (f : Fmt) (sat : Bool) (size : Nat) : Nat :=
  let nt := size / atrTileSize f 0 sat
  if imageSize f (4096 * nt) sat = size then nt else 0

/-- `n` bytes of a slot's ROW operand from byte `o`, as a wide access finds them, without the access's effects (R126). -/
def peekOpnd (s : State) (c sl : Nat) (r : Opnd) (o n : Nat) : List Byte :=
  let p := partBase s c sl + r.addr + o
  memBytes (flushRange s c p n).cl.spad (spadKey c p) n

/-- The satellite header of a compressing CMP's source agrees with its descriptor (R257). While an operation in flight is still to
write the header the comparison waits with the instruction (R174, R176); it reads the bytes as they stand, where the word is
poisoned or lies beyond the partition too (DESIGN CHOICE, log entry 95). -/
def cmpHeaderOk (s : State) (c sl : Nat) (r : Opnd) (f : Fmt) (nt : Nat) : Bool :=
  let o := dataSize f (4096 * nt) + scaleSize f (4096 * nt)
  !r.sat || rngWaits s c (toWords (partBase s c sl + r.addr + o) 4 false) ||
    (let h := satHeader (peekOpnd s c sl r o 4)
     h.1 == r.fmt && h.2 == nt)

/-- CMP (R256, R257). -/
def cmpOk (s : State) (c sl : Nat) (d : List Byte) : Bool :=
  let src := opnd d 16
  let dst := opnd d 24
  let idx := opnd d 32
  let rows := src.shape == 0 && dst.shape == 0 && idx.shape == 0
  let acts := [3, 4, 5]
  src.present && dst.present && idx.present && rows &&
    (if acts.contains src.fmt && dst.fmt == 0 then
       match fmtOf src.fmt with
       | none => false
       | some f =>
         let nt := attarTiles f src.sat src.size
         decide (1 ≤ nt) && cmpHeaderOk s c sl src f nt && decide (32 + nt * atrTileSize f 0 src.sat ≤ dst.size) &&
           decide (up32 (8 * nt) ≤ idx.size)
     else src.fmt == 0 && acts.contains dst.fmt)

/-- Checks 2 to 4 of R172: every failure of them is DESC_FIELD. -/
def fieldsOk (s : State) (c sl : Nat) (d : List Byte) : Bool :=
  headerOk d && reservedOk d && codesOk d && (opndOffs d).all (fun o => opndClean d o && shapeOk (opnd d o)) &&
    (match dOp d with
     | 1 | 2 | 3 => engineOk d (getSlot s c sl).cls
     | 4 => qntOk d
     | 5 => actOk d
     | 6 => nrmOk d
     | 7 => attOk d
     | 8 => kvaOk d
     | 9 => commitOk d
     | 10 => movOk d
     | 11 => redOk s d
     | 12 => mrgOk s d
     | 13 => cmpOk s c sl d
     | _ => true)

/-! ### Checks 5 to 10 -/

/-- A present COL operand. -/
def isCol (r : Opnd) : Bool := r.present && r.shape == 1

/-- Check 5: an even stride (R123). -/
def badStride (d : List Byte) : Bool := (opndOffs d).any (fun o => isCol (opnd d o) && (opnd d o).stride % 2 == 0)

/-- The first context address of a COL operand that lies beyond its panel (R123). -/
def colBeyond (r : Opnd) : Option Nat :=
  if isCol r then
    ((List.range 16).find? (fun k => decide (4096 ≤ r.addr / 512 % 4096 + k * r.stride))).map
      (fun k => r.addr + 512 * r.stride * k)
  else none

/-- The first address of a range beyond a partition of `n` bytes. -/
def rangeBeyond (n : Nat) (r : Opnd) : Option Nat :=
  let (a, l) := r.range
  if a + l ≤ n then none else some (max a n)

/-- Check 6: the first offending context address (R123, R130, R186). -/
def spadBeyond (s : State) (c sl : Nat) (d : List Byte) : Option Nat :=
  match (declared s d).findSome? (fun p => rangeBeyond (partSize s c sl) p.1) with
  | some a => some a
  | none => (opndOffs d).findSome? (fun o => colBeyond (opnd d o))

/-- The scoreboard ranges of an operation (R174). -/
def opRanges (s : State) (c sl : Nat) (d : List Byte) : List Rng32 :=
  (declared s d).map (fun p => toWords (partBase s c sl + p.1.range.1) p.1.range.2 (p.2 != .r))

/-- Some pair of a list meets `p`. -/
def anyPair {α : Type} (p : α → α → Bool) : List α → Bool
  | [] => false
  | x :: xs => xs.any (p x) || anyPair p xs

/-- The lookup groups or octets of an engine operation, and the tiles of a share's run (R63, R137, R139). -/
def groupsOf (d : List Byte) : Nat := if dOp d = opXNP then ceilDiv (dElems d) 8 else ceilDiv (dElems d) 5
def groupsPerTile (q : Nat) : Nat := 4096 / q
def runTiles (d : List Byte) : Nat := ceilDiv (groupsOf d) (groupsPerTile (shareRows (dRows d) (scopeOf d)))

/-- Check 8: the alignment of the weight address and its run (R139). -/
def weightOk (d : List Byte) : Bool :=
  let a := dWaddr d
  let align := match scopeOf d with
    | 1 => a % 4096 == 0
    | 4 => bits a 23 22 == 0 && a % 4096 == 0
    | _ => bits a 26 22 == 0 && a % 4096 == 0
  align && decide (bits a 21 12 + runTiles d ≤ 1024)

/-- The elements that an operation converts stochastically (R110). -/
def stochCount (d : List Byte) : Nat :=
  if !dRmode d then 0
  else match dOp d with
    | 4 => qElems d
    | 5 => aElems d
    | 6 => nElems d
    | 7 => if (opnd d 24).fmt = 7 then (opnd d 24).size / 2 else 0
    | 8 => if (opnd d 24).fmt = 8 then (opnd d 24).size / 4 else (opnd d 24).size / 2
    | 11 => if redBf16 d then (opnd d 16).size / 4 else 0
    | _ => 0

/-- The unit whose stream an operation draws from (R111). -/
def rngUnit (d : List Byte) : Nat :=
  match dOp d with
  | 7 => 1 | 8 => 1 | 11 => 2 | _ => 0

/-- The random-number context that an operation takes at issue (R109 to R113). -/
def opRng (s : State) (c sl : Nat) (d : List Byte) : Rng :=
  let n := ceilDiv (stochCount d) 4
  if n = 0 then rngNone
  else if dSovr d then ⟨true, (getSlot s c sl).seed, dStream d, dCbase d, n⟩
  else ⟨true, (getSlot s c sl).seed, streamId c (rngUnit d) sl, tabGet 0 (getSlot s c sl).rng (rngUnit d), n⟩

/-- Check 10: another operation in flight in the cluster has the same seed, the same stream and an overlapping range (R113). -/
def aliases (s : State) (c : Nat) (g : Rng) : Bool :=
  g.stoch && (getClu s c).ops.any (fun o =>
    o.rng.stoch && o.rng.seed == g.seed && o.rng.stream == g.stream && ctrOverlap g.c0 g.len o.rng.c0 o.rng.len)

/-- The first check of R172 that a tile operation fails: its code and the detail of R186. Check 7 exempts an RW destination of
R165 from meeting itself, since one range stands for its read and its write; overlapping another operand of the operation it
faults like any other write range (DESIGN CHOICE, log entry 82). -/
def checkTile (s : State) (c sl : Nat) (d : List Byte) : Option (Nat × Nat) :=
  if dOp d = 0 ∨ 14 < dOp d then some (cDescOp, 0)
  else if !fieldsOk s c sl d then some (cDescField, 0)
  else if badStride d then some (cBankConflict, 0)
  else match spadBeyond s c sl d with
    | some a => some (cSpadRange, a)
    | none =>
      if anyPair rngConflict (opRanges s c sl d) then some (cDescOverlap, 0)
      else if dOp d ≤ 3 && !weightOk d then some (cWeightAddr, dWaddr d)
      else if aliases s c (opRng s c sl d) then some (cStreamAlias, (opRng s c sl d).stream)
      else none

/-- The function of a slot's context. -/
def slotFn (s : State) (c sl : Nat) : Nat := match slotCtx s c sl with | some x => x.f | none => 0

/-- The first check of R172 that a DMA fails (R182, R183): alignment and length, partition, windows. -/
def checkDma (s : State) (c sl spad dev len : Nat) : Option (Nat × Nat) :=
  if spad % 32 ≠ 0 ∨ dev % 32 ≠ 0 ∨ len % 32 ≠ 0 ∨ len < 32 ∨ 2 ^ 24 < len then some (cDescField, 0)
  else if partSize s c sl < spad + len then some (cSpadRange, max spad (partSize s c sl))
  else if !tenOk s (slotFn s c sl) dev len then some (cMemWindow, 0)
  else none

end Sys2Proof.Machine
end

