-- ==== Sys2Proof/Machine/TileIssue.lean ====
section
/-! DEFINITION. TISS, DMAG and DMAP, and the resumption of waiting instructions (R158, R159, R172, R174, R175, R182, R268). -/

namespace Sys2Proof.Machine

/-- The ticket after `t`: it wraps from 0xFFFF_FFFF to 1 (R159). -/
def nextTicket (t : BitVec 32) : BitVec 32 := if t = 0xFFFFFFFF then 1 else t + 1

/-- An operation that fails an issue check consumes its ticket and faults (R172, R186). -/
def issueFault (s : State) (c sl opc code detail : Nat) : State :=
  let t := nextTicket (getSlot s c sl).ticket
  let s := modSlot s c sl (fun k => { k with ticket := t })
  slotFault s c sl code opc t.toNat (getSlot s c sl).pc.toNat detail

/-- An operation that has passed its checks. -/
structure Req where
  kind : OpKind
  ranges : List Rng32
  rng : Rng
  opc : Nat
  deriving DecidableEq, Repr

/-- The operation that a descriptor asks for. -/
def tileReq (s : State) (c sl : Nat) (d : List Byte) : Req := ⟨.tile d, opRanges s c sl d, opRng s c sl d, dOp d⟩

/-- The descriptor of an operation; none for a DMA. -/
def descOf (k : OpKind) : List Byte :=
  match k with
  | .tile d => d | .dmag _ _ _ _ => [] | .dmap _ _ _ _ => []

/-- The OP of an operation in trace and fault records (R472, R532). -/
def opCode (k : OpKind) : Nat :=
  match k with
  | .tile d => dOp d | .dmag _ _ _ _ => 0x40 | .dmap _ _ _ _ => 0x41

/-- The scoreboard lacks room for `n` ranges (R174). -/
def noRoom (s : State) (c n : Nat) : Bool :=
  decide (64 ≤ (getClu s c).ops.length) || decide (256 < (pendingRanges s c).length + n)

/-- Some range of an operation overlaps a pending one (R174). -/
def mustWait (s : State) (c : Nat) (r : Req) : Bool := r.ranges.any (rngWaits s c)

/-- The ISSUE record's body from byte 4 (R472). -/
def issueBody (k : Slot) (opc : Nat) (t : BitVec 32) (accord cycles : Nat) : List Byte :=
  leBytes 2 k.pc.toNat ++ leBytes 1 opc ++ leBytes 1 (clsCode k.cls) ++ leBytes 4 t.toNat ++ leBytes 2 accord ++
    leBytes 2 (min 0xFFFF cycles)

/-- The GATE is an audit operation (R116). -/
def isAudit (s : State) (c opc : Nat) : Bool :=
  let n := bits (cluReg s c oPrecCtl) 31 16
  opc == opGATE && n != 0 && (getClu s c).gateNo % n == 0

/-- Issue: trace, count, number, enter the scoreboard, ticket to rd (R110, R116, R159, R174, R188, R428, R472). A GATE's number
and its audit status are taken here (DESIGN CHOICE, log entry 82). -/
def issueNow (s : State) (c sl : Nat) (rd : BitVec 5) (r : Req) (cycles : Nat) : State :=
  let k := getSlot s c sl
  let t := nextTicket k.ticket
  let accord := (rget k 31).toNat % 65536
  let op : Op :=
    { sl := sl, ticket := t, pc := k.pc, cls := k.cls, kind := r.kind, ranges := r.ranges, accord := accord
      ent := none, checked := false, reads := 0, stalls := [], rng := r.rng, q := 0, audit := isAudit s c r.opc, phase := .issued
      got := none }
  let d := descOf r.kind
  let s := trcPut s c sl 4 (issueBody k r.opc t accord cycles)
  let s := bumpC s c oSeqIssue 1
  let s := modClu s c (fun u => { u with
    ops := u.ops ++ [op], gateNo := if r.opc = opGATE then u.gateNo + 1 else u.gateNo })
  retire s c sl (fun k =>
    let g := if r.rng.stoch && !dSovr d then tabSet k.rng (rngUnit d) ((r.rng.c0 + r.rng.len) % 2 ^ 48) else k.rng
    nextPc (rset { k with ticket := t, rng := g, openAtomic := k.openAtomic || r.opc == opRED || r.opc == opMRG }
      rd (t.zeroExtend 64)))

/-- A cycle in which an instruction waits for overlapping ranges, or for room. The code and the count follow the present kind of the
wait (R174, R188); each cycle is one attempt to issue (log entry 13). -/
def sbWait (s : State) (c sl : Nat) (i : Instr) (why : WaitWhy) (off : Nat) : State :=
  modSlot (bumpC (waitWith s c sl why i) c off 1) c sl (fun k => { k with trcWait := k.trcWait + 1 })

/-- Issue, or wait for overlapping ranges or for room (R174). In stall mode a full trace buffer or ring holds it (R473); the
ISSUE record gives the cycles of all these waits (R472). -/
def issueOrWait (s : State) (c sl : Nat) (i : Instr) (rd : BitVec 5) (r : Req) : State :=
  if mustWait s c r then sbWait s c sl i .overlap oSbWait
  else if noRoom s c r.ranges.length then sbWait s c sl i .room oSbFull
  else if trcStalls s c sl 1 then stallTrc s c sl
  else issueNow s c sl rd r (getSlot s c sl).trcWait

/-- TISS: reserved fields, the checks of R172, the scoreboard. It reads s31 (R268). -/
def doTiss (c sl : Nat) (td : BitVec 2) (z3 : BitVec 3) (rd : BitVec 5) (z16 : BitVec 16) (s : State) : State :=
  issueWith s c sl [31] (.tiss c sl td z3 rd z16) (fun s => legal s c sl (z3 != 0 || z16 != 0) (fun s =>
    let d := tdBytes (getSlot s c sl) td
    match checkTile s c sl d with
    | some (code, detail) => issueFault s c sl (dOp d) code detail
    | none => issueOrWait s c sl (.tiss c sl td z3 rd z16) rd (tileReq s c sl d)))

/-- The arrival counter that a DMA names (R154). -/
def dmaCtr (cen : BitVec 1) (ctr : BitVec 5) : Option Nat := if cen = 1 then some ctr.toNat else none

/-- The three register values of a DMA: scratchpad address, device address, length (R182). -/
def dmaArgs (s : State) (c sl : Nat) (rs1 rs2 rs3 : BitVec 5) : Nat × Nat × Nat :=
  ((sreg s c sl rs1).toNat, (sreg s c sl rs2).toNat, (sreg s c sl rs3).toNat)

/-- A DMA that has passed its checks; DMAG writes the scratchpad, DMAP reads it (R182). -/
def dmaReq (s : State) (c sl : Nat) (get : Bool) (a dev len : Nat) (ctr : Option Nat) : Req :=
  ⟨if get then .dmag a dev len ctr else .dmap a dev len ctr, [toWords (partBase s c sl + a) len get], rngNone,
   if get then 0x40 else 0x41⟩

/-- A DMA instruction. -/
def dma (i : Instr) (get : Bool) (c sl : Nat) (rd rs1 rs2 rs3 : BitVec 5) (cen : BitVec 1) (ctr : BitVec 5)
    (s : State) : State :=
  issueWith s c sl [rs1, rs2, rs3] i (fun s =>
    let (a, dev, len) := dmaArgs s c sl rs1 rs2 rs3
    match checkDma s c sl a dev len with
    | some (code, detail) => issueFault s c sl (if get then 0x40 else 0x41) code detail
    | none => issueOrWait s c sl i rd (dmaReq s c sl get a dev len (dmaCtr cen ctr)))

/-- DMAG. -/
def doDmag (c sl : Nat) (rd rs1 rs2 rs3 : BitVec 5) (cen : BitVec 1) (ctr : BitVec 5) :=
  dma (.dmag c sl rd rs1 rs2 rs3 cen ctr) true c sl rd rs1 rs2 rs3 cen ctr
/-- DMAP. -/
def doDmap (c sl : Nat) (rd rs1 rs2 rs3 : BitVec 5) (cen : BitVec 1) (ctr : BitVec 5) :=
  dma (.dmap c sl rd rs1 rs2 rs3 cen ctr) false c sl rd rs1 rs2 rs3 cen ctr

/-! ### Resumption -/

/-- The request and destination register of an instruction that waits to issue. -/
def waitingReq (s : State) (c sl : Nat) : Option (Instr × BitVec 5 × Req) :=
  match (getSlot s c sl).waiting with
  | some (.tiss c' sl' td z3 rd z16) =>
    some (.tiss c' sl' td z3 rd z16, rd, tileReq s c sl (tdBytes (getSlot s c sl) td))
  | some (.dmag c' sl' rd rs1 rs2 rs3 cen ctr) =>
    let (a, dev, len) := dmaArgs s c sl rs1 rs2 rs3
    some (.dmag c' sl' rd rs1 rs2 rs3 cen ctr, rd, dmaReq s c sl true a dev len (dmaCtr cen ctr))
  | some (.dmap c' sl' rd rs1 rs2 rs3 cen ctr) =>
    let (a, dev, len) := dmaArgs s c sl rs1 rs2 rs3
    some (.dmap c' sl' rd rs1 rs2 rs3 cen ctr, rd, dmaReq s c sl false a dev len (dmaCtr cen ctr))
  | _ => none

/-- The checks that an instruction repeats when its wait is over: the satellite header of a CMP, whose writer has ended by then,
and its counter range (R113, R176, R257). -/
def lateCheck (s : State) (c sl : Nat) (r : Req) : Option (Nat × Nat) :=
  if (match r.kind with | .tile d => dOp d == 13 && !cmpOk s c sl d | _ => false) then some (cDescField, 0)
  else if aliases s c r.rng then some (cStreamAlias, r.rng.stream)
  else none

/-- ISSUE_RESUME: the waiting TISS, DMAG or DMAP issues once no range of it overlaps a pending one and the scoreboard has
room (R174); its counter range is compared with those of the operations in flight then (R113), and a CMP's satellite header is
read again (R176, R257). -/
def doIssueResume (c sl : Nat) (s : State) : State :=
  let k := getSlot s c sl
  if !(waitsFor k .overlap || waitsFor k .room) || slotDegraded s c sl then s
  else match waitingReq s c sl with
    | none => s
    | some (i, rd, r) =>
      if mustWait s c r then sbWait s c sl i .overlap oSbWait
      else if noRoom s c r.ranges.length then sbWait s c sl i .room oSbFull
      else
        let s := modSlot s c sl unwait
        match lateCheck s c sl r with
        | some (code, detail) => issueFault s c sl r.opc code detail
        | none =>
          if trcStalls s c sl 1 then stallTrc s c sl
          else issueNow s c sl rd r k.trcWait

/-- The registers that a sequencer instruction reads (R158). -/
def srcRegs (i : Instr) : List (BitVec 5) :=
  match i with
  | .add _ _ _ a b | .sub _ _ _ a b | .and _ _ _ a b | .or _ _ _ a b | .xor _ _ _ a b | .sll _ _ _ a b
  | .srl _ _ _ a b | .sra _ _ _ a b | .slt _ _ _ a b | .sltu _ _ _ a b | .mul _ _ _ a b | .min _ _ _ a b
  | .max _ _ _ a b | .minu _ _ _ a b | .maxu _ _ _ a b => [a, b]
  | .addi _ _ _ a _ | .andi _ _ _ a _ | .ori _ _ _ a _ | .xori _ _ _ a _ | .slli _ _ _ a _ | .srli _ _ _ a _
  | .srai _ _ _ a _ | .slti _ _ _ a _ | .jalr _ _ _ a _ => [a]
  | .ldi _ _ rd _ _ _ => [rd]
  | .beq _ _ a b _ | .bne _ _ a b _ | .blt _ _ a b _ | .bge _ _ a b _ | .bltu _ _ a b _ | .bgeu _ _ a b _ => [a, b]
  | .ld _ _ _ a _ | .lw _ _ _ a _ | .lh _ _ _ a _ | .lb _ _ _ a _ => [a]
  | .sd _ _ a b _ | .sw _ _ a b _ | .sh _ _ a b _ | .sb _ _ a b _ => [a, b]
  | .tdw _ _ _ _ _ a _ _ => [a]
  | .tiss _ _ _ _ _ _ => [31]
  | .dmag _ _ _ a b c _ _ | .dmap _ _ _ a b c _ _ => [a, b, c]
  | .waitc _ _ a _ _ | .waitop _ _ _ a _ => [a]
  | .acset _ _ _ a _ _ | .tmark _ _ _ a _ _ => [a]
  | _ => []

/-- A sequencer instruction carried out by slot `sl` of cluster `c`. -/
def runSeq (c sl : Nat) (i : Instr) (s : State) : State :=
  match i with
  | .add _ _ rd a b => doAdd c sl rd a b s
  | .sub _ _ rd a b => doSub c sl rd a b s
  | .and _ _ rd a b => doAnd c sl rd a b s
  | .or _ _ rd a b => doOr c sl rd a b s
  | .xor _ _ rd a b => doXor c sl rd a b s
  | .sll _ _ rd a b => doSll c sl rd a b s
  | .srl _ _ rd a b => doSrl c sl rd a b s
  | .sra _ _ rd a b => doSra c sl rd a b s
  | .slt _ _ rd a b => doSlt c sl rd a b s
  | .sltu _ _ rd a b => doSltu c sl rd a b s
  | .mul _ _ rd a b => doMul c sl rd a b s
  | .min _ _ rd a b => doMin c sl rd a b s
  | .max _ _ rd a b => doMax c sl rd a b s
  | .minu _ _ rd a b => doMinu c sl rd a b s
  | .maxu _ _ rd a b => doMaxu c sl rd a b s
  | .addi _ _ rd a imm => doAddi c sl rd a imm s
  | .andi _ _ rd a imm => doAndi c sl rd a imm s
  | .ori _ _ rd a imm => doOri c sl rd a imm s
  | .xori _ _ rd a imm => doXori c sl rd a imm s
  | .slli _ _ rd a imm => doSlli c sl rd a imm s
  | .srli _ _ rd a imm => doSrli c sl rd a imm s
  | .srai _ _ rd a imm => doSrai c sl rd a imm s
  | .slti _ _ rd a imm => doSlti c sl rd a imm s
  | .ldi _ _ rd z q imm => doLdi c sl rd z q imm s
  | .beq _ _ a b off => doBeq c sl a b off s
  | .bne _ _ a b off => doBne c sl a b off s
  | .blt _ _ a b off => doBlt c sl a b off s
  | .bge _ _ a b off => doBge c sl a b off s
  | .bltu _ _ a b off => doBltu c sl a b off s
  | .bgeu _ _ a b off => doBgeu c sl a b off s
  | .jal _ _ rd off => doJal c sl rd off s
  | .jalr _ _ rd a imm => doJalr c sl rd a imm s
  | .halt _ _ z => doHalt c sl z s
  | .ld _ _ rd a imm => doLd c sl rd a imm s
  | .lw _ _ rd a imm => doLw c sl rd a imm s
  | .lh _ _ rd a imm => doLh c sl rd a imm s
  | .lb _ _ rd a imm => doLb c sl rd a imm s
  | .sd _ _ b a imm => doSd c sl b a imm s
  | .sw _ _ b a imm => doSw c sl b a imm s
  | .sh _ _ b a imm => doSh c sl b a imm s
  | .sb _ _ b a imm => doSb c sl b a imm s
  | .tdz _ _ td z => doTdz c sl td z s
  | .tdw _ _ td w z1 a z10 off => doTdw c sl td w z1 a z10 off s
  | .tdi _ _ td z off imm => doTdi c sl td z off imm s
  | .tiss _ _ td z3 rd z16 => doTiss c sl td z3 rd z16 s
  | .dmag _ _ rd a b e cen ctr => doDmag c sl rd a b e cen ctr s
  | .dmap _ _ rd a b e cen ctr => doDmap c sl rd a b e cen ctr s
  | .waitc _ _ a n z => doWaitc c sl a n z s
  | .waitop _ _ z5 a z16 => doWaitop c sl z5 a z16 s
  | .fence _ _ z => doFence c sl z s
  | .srd _ _ rd a n z => doSrd c sl rd a n z s
  | .acrd _ _ rd a n z => doAcrd c sl rd a n z s
  | .acset _ _ rd a n z => doAcset c sl rd a n z s
  | .tmark _ _ rd a n z => doTmark c sl rd a n z s
  | .yield _ _ rd a n z => doYield c sl rd a n z s
  | _ => s

/-- The cycles until the last of the registers `rs` is available to an instruction that issues next (R158). -/
def busyFor (k : Slot) (rs : List (BitVec 5)) : Nat := natMax (rs.map (fun r => tabGet 0 k.busy r.toNat - 1))

/-- INTERLOCK_RESUME: the awaited values are available and the instruction issues (R158). -/
def doInterlockResume (c sl : Nat) (s : State) : State :=
  let k := getSlot s c sl
  match k.waiting with
  | none => s
  | some i =>
    if waitsFor k .interlock && !slotDegraded s c sl then
      runSeq c sl i (modSlot s c sl (fun k => ageBusy (unwait k) (busyFor k (srcRegs i))))
    else s

/-- A load or store. -/
def isLdst (i : Instr) : Bool :=
  match i with
  | .ld _ _ _ _ _ | .lw _ _ _ _ _ | .lh _ _ _ _ _ | .lb _ _ _ _ _
  | .sd _ _ _ _ _ | .sw _ _ _ _ _ | .sh _ _ _ _ _ | .sb _ _ _ _ _ => true
  | _ => false

/-- LDST_RESUME: a load or store that waited on a pending range, or on the gather buffer, tries again (R125, R175). -/
def doLdstResume (c sl : Nat) (s : State) : State :=
  let k := getSlot s c sl
  match k.waiting with
  | none => s
  | some i =>
    if isLdst i && (waitsFor k .overlap || waitsFor k .none) && !slotDegraded s c sl then
      runSeq c sl i (modSlot s c sl unwait)
    else s

end Sys2Proof.Machine
end

