-- ==== Sys2Proof/Machine/OpFlow.lean ====
section
/-! DEFINITION. The life of an issued operation: finding it, its phases, its fault, its end (R159, R178, R185 to R187). -/

namespace Sys2Proof.Machine

/-- The operation of slot `sl` with ticket `t` in a cluster. -/
def findOp (s : State) (c sl t : Nat) : Option Op :=
  (getClu s c).ops.find? (fun o => o.sl == sl && o.ticket.toNat == t)

/-- Two names of one operation. -/
def sameOp (a b : Op) : Bool := a.sl == b.sl && a.ticket == b.ticket

/-- `s` with an operation replaced. -/
def putOp (s : State) (c : Nat) (o : Op) : State :=
  modClu s c (fun k => { k with ops := modFirst (sameOp o) (fun _ => o) k.ops })

/-- `s` with an operation in a phase. -/
def setPhase (s : State) (c : Nat) (o : Op) (p : Phase) : State := putOp s c { o with phase := p }

/-- `s` without an operation: its ranges are released (R174, R185). -/
def dropOp (s : State) (c : Nat) (o : Op) : State :=
  modClu s c (fun k => { k with ops := k.ops.filter (fun x => !sameOp o x) })

/-- The descriptor of an operation that runs on engines, empty for any other. -/
def engRun (o : Op) : List Byte :=
  match o.kind with
  | .tile d => if dOp d ≤ 3 ∧ o.phase ≠ .issued ∧ o.phase ≠ .done then d else []
  | .dmag _ _ _ _ => [] | .dmap _ _ _ _ => []

/-- The reports of an operation carry its descriptor, where it ran on engines (R470). -/
def markRun (s : State) (c : Nat) (o : Op) : State :=
  let mine := fun (r : Report) => r.clu == c && r.slot == o.sl && r.ticket == o.ticket.toNat && r.op == opCode o.kind
  if (engRun o).isEmpty then s
  else { s with hub.reports := s.hub.reports.map (fun r => if mine r then { r with run := engRun o } else r) }

/-- An operation faults: it releases its ranges and ends, and its slot faults (R185, R186). -/
def opFaultAt (s : State) (c : Nat) (o : Op) (code detail core : Nat) : State :=
  markRun (slotFaultAt (dropOp s c o) c o.sl code (opCode o.kind) o.ticket.toNat o.pc.toNat detail core) c o

/-- A fault that names no core. -/
def opFault (s : State) (c : Nat) (o : Op) (code detail : Nat) : State := opFaultAt s c o code detail 0x00FF

/-- The descriptor of an operation. -/
def Op.desc (o : Op) : List Byte := descOf o.kind

/-- The arrival counter that an operation's completion raises (R178, R182). -/
def Op.ctr (o : Op) : Option Nat :=
  match o.kind with
  | .tile d => dCtr d | .dmag _ _ _ x => x | .dmap _ _ _ x => x

/-- `s` with an arrival counter of a slot raised by one (R178). -/
def bumpAc (s : State) (c sl n : Nat) : State :=
  modSlot s c sl (fun k => { k with ac := tabSet k.ac n (tabGet 0 k.ac n + 1) })

/-- An operation completes: its counter, its ranges, and its pool item when it was the last (R178, R414). -/
def opEnd (s : State) (c : Nat) (o : Op) : State :=
  let s := dropOp s c o
  let s := match o.ctr with | some n => bumpAc s c o.sl n | none => s
  match slotCtx s c o.sl with
  | some x => poolCheck s x.region
  | none => s

/-- A command of operation `t` of slot `sl` whose OP is `opc` and whose phase meets `p`. -/
def withOp (s : State) (c sl t opc : Nat) (p : Phase → Bool) (g : Op → State → State) : State :=
  match findOp s c sl t with
  | none => s
  | some o => if dOp o.desc == opc && p o.phase then g o s else s

/-- A tile operation's command on the running clock (R161). -/
def opCmd (s : State) (c sl t opc : Nat) (p : Phase → Bool) (g : Op → State → State) :
    Host.Outcome State Fault Refusal :=
  slotRun s c sl (fun s => withOp s c sl t opc p g)

/-- The phase is `issued`. -/
def isIssued (p : Phase) : Bool := p == .issued

/-- Write the counts of conversion events (R57 to R59): one for each written element. -/
def countEvents (s : State) (c : Nat) (evs : List (Bool × Bool)) : State :=
  bumpC (bumpC s c oFmtSat (evs.filter (·.1)).length) c oFmtNan (evs.filter (·.2)).length

/-- The requester that an operation's unit is at the banks (R124, R161). -/
def opUser (o : Op) : BankUser :=
  match o.kind with
  | .tile d => if dOp d ≤ 3 then .engine else if dOp d ≤ 6 then .vec else if dOp d ≤ 9 then .att else .link
  | .dmag _ _ _ _ => .dma | .dmap _ _ _ _ => .dma

/-- Write several byte strings, each from an offset of an operand's data; whether a partly covered word refused because it
is poisoned. -/
def writeAll (s : State) (c : Nat) (u : BankUser) (sl : Nat) : List (Opnd × Nat × List Byte) → State × Bool
  | [] => (s, false)
  | (r, o, bs) :: ws =>
    let (s, k) := writeSpans s c (opndUser u r) (partBase s c sl) bs (takeSpans bs.length (dropSpans o r.spans))
    let (s, bad) := writeAll s c u sl ws
    (s, k != 0 || bad)

/-- The partly covered words of writes, in their order. -/
def partWords (s : State) (c : Nat) (u : BankUser) (sl : Nat) (ws : List (Opnd × Nat × List Byte)) : List Nat :=
  ws.flatMap (fun w => (takeSpans w.2.2.length (dropSpans w.2.1 w.1.spans)).flatMap (fun x =>
    ((accessCuts (opndUser u w.1 == .gather) (partBase s c sl + x.1) x.2).filter (fun y => !y.2.2)).map (fun y => y.1 / 32)))

/-- The narrow accesses of a write that is refused, to the first word that is poisoned: their errors count and mark (R127). -/
def tryWords (s : State) (c : Nat) : List Nat → State
  | [] => s
  | w :: ws =>
    match unitEnt s c w with
    | (s, none) => s
    | (s, some _) => tryWords s c ws

/-- An operation writes its operands, or faults with SPAD_UNCORR where a partly covered word is poisoned, and then nothing
is written (R127, R185). -/
def opWrites (s : State) (c : Nat) (o : Op) (ws : List (Opnd × Nat × List Byte)) (g : State → State) : State :=
  let (s', bad) := writeAll s c (opUser o) o.sl ws
  if bad then opFault (tryWords s c (partWords s c (opUser o) o.sl ws)) c o cSpadUncorr 0 else g s'

/-- One operand. -/
def opWrite (s : State) (c : Nat) (o : Op) (r : Opnd) (bs : List Byte) (g : State → State) : State :=
  opWrites s c o [(r, 0, bs)] g

/-- An operation reads the first `n` bytes of an operand, or faults on a poisoned word (R127). -/
def opRead (s : State) (c : Nat) (o : Op) (r : Opnd) (n : Nat) (g : State → List Byte → State) : State :=
  let (s, bs, poi) := readOpnd s c (opUser o) o.sl r n
  if poi then opFault s c o cSpadUncorr 0 else g s bs

/-- An optional operand: no bytes where it is absent. -/
def opReadOpt (s : State) (c : Nat) (o : Op) (r : Opnd) (n : Nat) (g : State → List Byte → State) : State :=
  if r.present then opRead s c o r n g else g s []

end Sys2Proof.Machine
end

