-- ==== Sys2Proof/Machine/Attar.lean ====
section
/-! DEFINITION. CMP in the cluster's link interface (R247 to R264). -/

namespace Sys2Proof.Machine

/-- DROPBUD and PLACE of a CMP (R169). -/
def cmpBudget (d : List Byte) : Nat := fld d 40 2
def cmpPlace (d : List Byte) : Bool := bitB (fld d 42 1) 0

/-- A compressing CMP: the whole source is read, then header, tiles and index are written (R251 to R258). -/
def doCompress (c : Nat) (o : Op) (s : State) : State :=
  let d := o.desc
  let src := opnd d 16
  let f := (fmtOf src.fmt).getD .a8
  opRead s c o src src.size (fun s img =>
    let x := atrCompress f src.sat (cmpPlace d) (cmpBudget d) (attarTiles f src.sat src.size) img
    let ws := x.pieces.map (fun p => (opnd d 24, p.1, p.2)) ++ [(opnd d 32, 0, x.index)]
    opWrites s c o ws (fun s =>
      setPhase (bumpC (bumpC (bumpC s c oAtrTiles x.tiles) c oAtrRaw x.raw) c oAtrDrop x.drops) c o .done))

/-- CMP that compresses. -/
def execCmpCompress (c sl t : Nat) (s : State) : Host.Outcome State Fault Refusal :=
  opCmd s c sl t opCMP isIssued (fun o s => if cmpPacks o.desc then doCompress c o s else s)

/-- Read parts of an operand, offset and length; SPAD_UNCORR where a word of them is poisoned. -/
def opParts (c : Nat) (o : Op) (r : Opnd) (g : State → State) : List (Nat × Nat) → State → State
  | [], s => g s
  | (a, n) :: l, s =>
    let (s, _, ps) := readSpans s c (opndUser .link r) (partBase s c o.sl) (takeSpans n (dropSpans a r.spans))
    if ps.any id then opFault s c o cSpadUncorr 0 else opParts c o r g l s

/-- The parts of a stream that the decoder reads: of each tile its blocks, then its scale bytes and satellite slot (R252,
R255). -/
def streamParts (f : Fmt) (h : AtrHdr) (idx : List Byte) : List (Nat × Nat) :=
  (List.range h.nt).flatMap (fun t =>
    let e := (idx.drop (8 * t)).take 8
    let cls := leNat ((e.drop 4).take 1) % 8
    let a := leNat (e.take 4)
    if h.place then
      (List.range 64).map (fun b => (a + b * atrDense f, atrBlockSize f cls)) ++
        [(a + 64 * atrDense f, 128 + (if h.sat then 160 else 0))]
    else [(a, atrTileSize f cls h.sat)])

/-- An expanding CMP: header and index are checked, then the tiles are read and the image is written (R259, R260). -/
def doExpand (c : Nat) (o : Op) (s : State) : State :=
  let d := o.desc
  let src := opnd d 16
  let dst := opnd d 24
  let idx := opnd d 32
  let f := (fmtOf dst.fmt).getD .a8
  opRead s c o src 32 (fun s hb =>
    let h := atrHdr hb
    let n := min idx.size (8 * h.nt)
    let x := atrExpand f dst.sat dst.size (peekOpnd s c o.sl src 0 src.size) (peekOpnd s c o.sl idx 0 n)
    match x with
    | .header => opFault s c o cAttarHeader 0
    | _ =>
      opRead s c o idx n (fun s ib =>
        match x with
        | .ok img surplus tiles =>
          opParts c o src (fun s =>
            opWrite s c o dst img (fun s =>
              setPhase (bumpC (bumpC s c oAtrMeta surplus) c oAtrExp tiles) c o .done)) (streamParts f h ib) s
        | _ => opFault s c o cAttarIndex 0))

/-- CMP that expands. -/
def execCmpExpand (c sl t : Nat) (s : State) : Host.Outcome State Fault Refusal :=
  opCmd s c sl t opCMP isIssued (fun o s => if cmpPacks o.desc then s else doExpand c o s)

end Sys2Proof.Machine
end

