-- ==== Sys2Proof/Machine/WeightRead.lean ====
section
/-! DEFINITION. Reading the weight store for a pass: tiles, chunk errors, accord directories and records (R135 to R147,
R270 to R281). -/

namespace Sys2Proof.Machine

/-! ### Where a tile's weights lie (R139) -/

/-- The engines that a tile needs (R77). -/
def engCount (d : List Byte) : Nat := usedEngines (dRows d) (scopeOf d)

/-- The first byte of the quarter that feeds engine share `e` (R136, R139). -/
def quarterBase (d : List Byte) (e : Nat) : Nat :=
  let a := dWaddr d
  match scopeOf d with
  | 1 => a / 2 ^ 22 * 2 ^ 22
  | 4 => a / 2 ^ 24 * 2 ^ 24 + e * 2 ^ 22
  | _ => e * 2 ^ 22

/-- The engines by number: 4 times the slice plus the quarter. -/
def engIds (d : List Byte) : List Nat := (List.range (engCount d)).map (fun e => quarterBase d e / 2 ^ 22)

/-- The first tile of the run, within its quarter (R139). -/
def firstTile (d : List Byte) : Nat := bits (dWaddr d) 21 12

/-- Rows of an engine share (R77). -/
def shareQ (d : List Byte) : Nat := shareRows (dRows d) (scopeOf d)

/-- Keys of a weight-store byte and of a 64-byte chunk. -/
def wstKey (c a : Nat) : Nat := c * 2 ^ 27 + a
def chunkKey (c a : Nat) : Nat := c * 2 ^ 21 + a / 64

/-- A weight-store byte (R136). -/
def wByte (s : State) (c a : Nat) : Nat := (memGet s.cl.wst (wstKey c a)).toNat

/-- `n` weight-store bytes as a little-endian number. -/
def wNat (s : State) (c a n : Nat) : Nat := memNat s.cl.wst (wstKey c a) n

/-! ### One access (R143 to R146) -/

/-- How reads of the weight store go. Where they stop, `n` of them have gone on. -/
inductive WRes where
  | ok (s : State)
  /-- It meets a tile in RELOADING, or puts it there. -/
  | reload (s : State) (tile n : Nat)
  /-- It meets an EMPTY tile, or makes it EMPTY. -/
  | lost (s : State) (tile n : Nat)
  /-- It reads a record that fails R274. -/
  | badRecord (s : State) (n : Nat)

/-- One access of a reader: a directory line, a record line, the end of a record whose header does or does not pass R274 with
the entries dropped from it (R275), a 512-byte line or a 64-byte chunk of a weight tile with the replacements made in it
(R276). -/
inductive WAcc where
  | dir (a : Nat)
  | rline (a : Nat)
  | record (ok : Bool) (drops : Nat)
  | line (a patches : Nat)
  | chunk (a patches : Nat)
  deriving DecidableEq, Repr

/-- The chunks of a line. -/
def lineChunks (a : Nat) : List Nat := (List.range 8).map (fun i => a + 64 * i)

/-- Correct and count the chunks that hold one wrong bit (R143). -/
def fixChunks (s : State) (c : Nat) : List Nat → State
  | [] => s
  | a :: as =>
    if tabGet 0 s.cl.wErr (chunkKey c a) = 1 then
      fixChunks (bumpC { s with cl.wErr := tabDel s.cl.wErr (chunkKey c a) } c oWstCorr 1) c as
    else fixChunks s c as

/-- A reader receives the chunks `as` of tile `t`. -/
def readChunks (s : State) (c t : Nat) (as : List Nat) : WRes :=
  match (getTile s c t).st with
  | .empty => .lost s t 0
  | .reloading => .reload s t 0
  | .resident =>
    if as.any (fun a => decide (2 ≤ tabGet 0 s.cl.wErr (chunkKey c a))) then
      match (getTile s c t).back with
      | none => .lost (putTile s c t tileReset) t 0
      | some _ => .reload (putTile s c t { getTile s c t with st := .reloading }) t 0
    else .ok (fixChunks s c as)

/-- Reads that have gone on count in the counter at `off`. -/
def okCount (c off n : Nat) (r : WRes) : WRes :=
  match r with
  | .ok s => .ok (bumpC s c off n)
  | .reload s t k => .reload s t k
  | .lost s t k => .lost s t k
  | .badRecord s k => .badRecord s k

/-- One access, with what it counts once it has reached its reader (R275, R276, R278). -/
def wAccess (s : State) (c : Nat) (x : WAcc) : WRes :=
  match x with
  | .dir a => readChunks s c (a / 4096) (lineChunks a)
  | .rline a => okCount c oAccRline 1 (readChunks s c (a / 4096) (lineChunks a))
  | .record ok n => if ok then .ok (bumpC s c oAccDrop n) else .badRecord s 0
  | .line a n => okCount c oAccPatch n (readChunks s c (a / 4096) (lineChunks a))
  | .chunk a n => okCount c oAccPatch n (readChunks s c (a / 4096) [a])

/-- Accesses one after the other, to the first that does not go on; `n` have gone on before. -/
def wAccesses (s : State) (c n : Nat) : List WAcc → WRes
  | [] => .ok s
  | x :: xs =>
    match wAccess s c x with
    | .ok s => wAccesses s c (n + 1) xs
    | .reload s t _ => .reload s t n
    | .lost s t _ => .lost s t n
    | .badRecord s _ => .badRecord s n

/-! ### Accord entries, directories, records (R270 to R276) -/

/-- Fields of an accord table entry (R287). -/
def entSlot (e : Nat) : Nat := bits e 63 62
def entGcount (e : Nat) : Nat := bits e 61 50
def entGbase (e : Nat) : Nat := bits e 49 30
def entDline (e : Nat) : Nat := bits e 29 17
def entValid (e : Nat) : Bool := bitB e 16
def entId (e : Nat) : Nat := bits e 15 0

/-- The entry that an operation of slot `sl` uses under accord `id` (R270): the lowest-numbered match. -/
def findEnt (s : State) (c sl id : Nat) : Option Nat :=
  ((getClu s c).acc.find? (fun p => entValid p.2.toNat && entId p.2.toNat == id && entSlot p.2.toNat == sl)).map
    (fun p => p.2.toNat)

/-- The directory line of an entry in the quarter at `qb` (R272). -/
def dirLine (qb e : Nat) : Nat := qb + 512 * entDline e

/-- HAS and TWO of quarter tile `t`, and BASE, in the directory line at `a` (R272). -/
def dirHas (s : State) (c a t : Nat) : Bool := bitB (wByte s c (a + t / 8)) (t % 8)
def dirTwo (s : State) (c a t : Nat) : Bool := bitB (wByte s c (a + 128 + t / 8)) (t % 8)
def dirBase (s : State) (c a : Nat) : Nat := wNat s c (a + 256) 2 % 2 ^ 13

/-- The line of the quarter at which the record of tile `t` starts (R273). -/
def recStart (s : State) (c a t : Nat) : Nat :=
  dirBase s c a + natSum ((List.range t).map (fun i => b2n (dirHas s c a i) * (1 + b2n (dirTwo s c a i))))

/-- A record as it is read: its lines by quarter line, whether it passes R274, its COUNT and USED, its entries. -/
structure AccRec where
  lines : List Nat
  ok : Bool
  used : Nat
  ents : List (Nat × Nat)
  deriving DecidableEq, Repr

/-- Entry `i` of the record at address `a`: OFFSET and BYTE (R273). -/
def recEnt (s : State) (c a i : Nat) : Nat × Nat :=
  let w := wNat s c (a + 8 + 8 * (i / 3)) 8 >>> (20 * (i % 3))
  (w % 4096, w / 4096 % 256)

/-- The record of quarter tile `t` in the quarter at `qb`, under entry `e`; none where HAS is 0 (R272 to R274). -/
def readRec (s : State) (c qb e t : Nat) : Option AccRec :=
  let dl := dirLine qb e
  if dirHas s c dl t then
    let l0 := recStart s c dl t
    let two := dirTwo s c dl t
    let n := if two then 2 else 1
    let a := qb + 512 * l0
    let inQ := decide (l0 + n ≤ 8192)
    let hdr := wNat s c a 8
    let cnt := hdr % 512
    let ok := inQ && decide (cnt ≤ 256) && (two || decide (cnt ≤ 189))
    some { lines := (List.range n).map (fun i => l0 + i), ok := ok, used := bits hdr 24 12
           ents := if ok then (List.range cnt).map (recEnt s c a) else [] }
  else none

/-- The entries that apply, in order, and the number dropped (R275). -/
def applyEnts (used : Nat) : List (Nat × Nat) → Option Nat → List (Nat × Nat) × Nat
  | [], _ => ([], 0)
  | (o, b) :: es, last =>
    let bad := decide (used ≤ o) || (match last with | some l => decide (o ≤ l) | none => false)
    if bad then
      let (l, n) := applyEnts used es last
      (l, n + 1)
    else
      let (l, n) := applyEnts used es (some o)
      ((o, b) :: l, n)

/-! ### The reads of one pass (R69, R137, R140, R141, R278) -/

/-- The chunks that the satellite unit reads for the groups `js`. -/
def tileChunks (q : Nat) (js : List Nat) : List Nat :=
  let g := groupsPerTile q
  js.flatMap (fun j => (List.range (q / 64)).map (fun i => j % g * q + 64 * i))

/-- What a pass needs of one tile of one share: its place, the groups that its lanes read and those of the satellite unit, and
the tile's record. -/
structure TileRead where
  k : Nat
  addr : Nat
  live : List Nat
  marked : List Nat
  arec : Option AccRec
  deriving DecidableEq, Repr

/-- What the pass of descriptor `d` needs of engine share `e`: `live` the groups that the lanes read, `marked` those of the
satellite unit. -/
def passReads (s : State) (c : Nat) (d : List Byte) (ent : Option Nat) (live marked : List Nat) (e : Nat) : List TileRead :=
  let g := groupsPerTile (shareQ d)
  let qb := quarterBase d e
  ((List.range (runTiles d)).filter (fun k => live.any (fun j => j / g == k) || marked.any (fun j => j / g == k))).map
    (fun k =>
      { k := k, addr := qb + 4096 * (firstTile d + k)
        live := live.filter (fun j => j / g == k), marked := marked.filter (fun j => j / g == k)
        arec := match ent with | some x => readRec s c qb x (firstTile d + k) | none => none })

/-- The entries that apply to a tile, and the number dropped. -/
def readPatches (r : TileRead) : List (Nat × Nat) × Nat :=
  match r.arec with
  | some x => applyEnts x.used x.ents none
  | none => ([], 0)

/-- The lines of the quarter at `qb` that hold a tile's record, by number in the weight space (R273, R278). -/
def recordKeys (qb : Nat) (r : TileRead) : List Nat :=
  match r.arec with
  | some x => (x.lines.filter (fun l => decide (l < 8192))).map (fun l => qb / 512 + l)
  | none => []

/-- What the feeder reads for one tile: its record's lines first, then its lines (R278). -/
def tileItems (d : List Byte) (e : Nat) (r : TileRead) : List FeedItem :=
  tileFeed (r.addr / 512) (shareQ d) r.live (recordKeys (quarterBase d e) r)
    (r.arec.map (fun _ => (readPatches r).1.map (·.1)))

/-- An access of the feeder, with the replacements made in it. -/
def feedAcc (r : TileRead) (x : FeedItem) : WAcc :=
  match x with
  | .recd k => .rline (512 * k)
  | .line k _ _ _ _ _ => .line (512 * k) ((readPatches r).1.filter (fun p => p.1 / 512 == k - r.addr / 512)).length

/-- The accesses for one tile, each with its cycle: what its feeder reads, the record judged when its last line has been read,
then the chunks of the satellite unit. `xs` are the feeder's reads of the tile, `c0` the cycle of the read before them. The
satellite unit's reads of a tile stand at the cycle of the feeder's last read of it (DESIGN CHOICE, log entry 81). -/
def tileAccs (d : List Byte) (r : TileRead) (xs : List (Nat × FeedItem)) (c0 : Nat) : List (Nat × WAcc) :=
  let isRec := fun (p : Nat × FeedItem) => match p.2 with | .recd _ => true | .line _ _ _ _ _ _ => false
  let recs := xs.filter isRec
  let lines := xs.filter (fun p => !isRec p)
  let lastOf := fun (l : List (Nat × FeedItem)) (d : Nat) => match l.getLast? with | some p => p.1 | none => d
  let cr := lastOf recs c0
  recs.map (fun p => (p.1, feedAcc r p.2)) ++
    (match r.arec with | some x => [(cr, .record x.ok (readPatches r).2)] | none => []) ++
    lines.map (fun p => (p.1, feedAcc r p.2)) ++
    (tileChunks (shareQ d) r.marked).map (fun o =>
      (lastOf lines cr, .chunk (r.addr + o) ((readPatches r).1.filter (fun p => p.1 / 64 * 64 == o)).length))

/-- The accesses of one engine, tile after tile: `xs` is what its feeder read, in order. -/
def engAccs (d : List Byte) (e : Nat) : List TileRead → List (Nat × FeedItem) → Nat → List (Nat × WAcc)
  | [], _, _ => []
  | r :: rs, xs, c0 =>
    let n := (tileItems d e r).length
    let mine := xs.take n
    tileAccs d r mine c0 ++ engAccs d e rs (xs.drop n) (match mine.getLast? with | some p => p.1 | none => c0)

/-- The accesses of a pass in the order of their cycles, those of a cycle in the order of the engines. -/
def runAccs (d : List Byte) (reads : Nat → List TileRead) (r : PassRun) : List (Nat × WAcc) :=
  sortBy (fun a b => decide (a.1 < b.1)) ((List.range r.engs.length).flatMap (fun e =>
    match (r.engs.drop e).head? with
    | some x => engAccs d e (reads e) x.reads (x.f0 - 4)
    | none => []))

/-- The line whose wait holds up the feeder, of an access (R145). -/
def accLine (x : WAcc) : Option Nat :=
  match x with
  | .rline a => some (a / 512) | .line a _ => some (a / 512)
  | .dir _ => none | .chunk _ _ => none | .record _ _ => none

/-- The accesses of the accord check: the directory line of every quarter that the operation uses (R277). -/
def dirAccs (d : List Byte) (e : Nat) : List WAcc :=
  (List.range (engCount d)).map (fun i => .dir (dirLine (quarterBase d i) e))

/-- The patched byte of share row `r - e * Q` of group `j` (R137, R275). -/
def patchedByte (s : State) (c : Nat) (d : List Byte) (pats : Tab (List (Nat × Nat))) (e r j : Nat) : Nat :=
  let q := shareQ d
  let g := groupsPerTile q
  let o := j % g * q + (r - e * q)
  match (tabGet [] pats (1024 * e + j / g)).find? (fun p => p.1 == o) with
  | some p => p.2
  | none => wByte s c (quarterBase d e + 4096 * (firstTile d + j / g) + o)

/-- The entries that apply, by engine and tile of the run. -/
def patchTable (n : Nat) (reads : Nat → List TileRead) : Tab (List (Nat × Nat)) :=
  (List.range n).foldl (fun t e => (reads e).foldl (fun t r =>
    match (readPatches r).1 with | [] => t | ps => tabSet t (1024 * e + r.k) ps) t) []

/-! ### The fault of a lost tile (R147, R532) -/

/-- The physical core of logical core `l` (R147). -/
def physCore (s : State) (c l : Nat) : Nat := if (getClu s c).spareUsed && (getClu s c).dead.contains l then 8 else l

/-- Bytes 5 and 6 of the fault record of weight tile `t` (R532): its core and the engine that its quarter feeds. -/
def tileCore (s : State) (c t : Nat) : Nat :=
  let l := t / 4096
  l + 16 * physCore s c l + 256 * (t / 1024 % 4 + 4)

/-- WEIGHT_LOST for an operation: the detail is the tile's cluster weight address (R533). -/
def weightLost (s : State) (c : Nat) (o : Op) (t : Nat) : State :=
  opFaultAt s c o cWeightLost (4096 * t) (tileCore s c t)

end Sys2Proof.Machine
end

