-- ==== Sys2Proof/Machine/Engine.lean ====
section
/-! DEFINITION. TLA, XNP and GATE on the engines: the arbiter, the steps of R107, replay, the destination write
(R61 to R119, R422 to R425, R535). -/

namespace Sys2Proof.Machine

/-! ### The engine arbiter (R103, R422, R423) -/

/-- An engine operation: TLA, XNP, GATE. -/
def isEngine (o : Op) : Bool := decide (1 ≤ dOp o.desc) && decide (dOp o.desc ≤ 3)

/-- The engines of a pass under way or waiting for a reload. -/
def holdsEngines (p : Phase) : Bool :=
  match p with
  | .pass _ => true | .reload _ => true
  | .issued => false | .replay => false | .att _ => false | .suspended _ => false | .sent _ _ => false | .done => false

/-- Two operations need a common engine. -/
def shareEngine (a b : Op) : Bool := (engIds a.desc).any (fun e => (engIds b.desc).contains e)

/-- Another operation keeps `o` from its engines: it runs on one of them, or it waits to replay there and `o` is not
urgent. -/
def blockedBy (o x : Op) : Bool :=
  isEngine x && !sameOp o x && shareEngine o x && (holdsEngines x.phase || (x.phase == .replay && o.cls != .u))

/-- The operations of a list before `o`. -/
def opsBefore (o : Op) : List Op → List Op
  | [] => []
  | x :: xs => if sameOp o x then [] else x :: opsBefore o xs

/-- A waiting tile stands before `o` in the arbiter's order and needs one of its engines (R423). -/
def outranked (s : State) (c : Nat) (o : Op) : Bool :=
  let ops := (getClu s c).ops
  ops.any (fun x => isEngine x && x.phase == .issued && !sameOp o x && shareEngine o x &&
    (decide (clsCode x.cls < clsCode o.cls) || (x.cls == o.cls && (opsBefore o ops).any (sameOp x))))

/-- A context of the cluster has class U. -/
def hasUrgent (s : State) (c : Nat) : Bool :=
  (List.range 4).any (fun n => (getSlot s c n).ctx.isSome && (getSlot s c n).cls == .u)

/-- CLU_SPLIT.DEC; 5 to 7 are treated as 4. -/
def splitDec (s : State) (c : Nat) : Nat := min 4 (bits (cluReg s c oSplit) 2 0)

/-- The engine split keeps a tile that is not urgent off the decode engines (R422). -/
def splitBlocks (s : State) (c : Nat) (o : Op) : Bool :=
  o.cls != .u && hasUrgent s c && (engIds o.desc).any (fun e => decide (4 - splitDec s c ≤ e % 4))

/-- The arbiter starts a waiting tile. -/
def mayStart (s : State) (c : Nat) (o : Op) : Bool :=
  !(getClu s c).ops.any (blockedBy o) && !outranked s c o && !splitBlocks s c o

/-- A tile waits for its engines: to start, or to replay (R103, R424). -/
def waitsEngines (p : Phase) : Bool := p == .issued || p == .replay

/-- The arbiter starts a replay: no tile runs on its engines, and an urgent tile that waits for one of them, to start or to
replay, goes first; of two urgent tiles that wait to replay, the older (R103). -/
def mayReplay (s : State) (c : Nat) (o : Op) : Bool :=
  let ops := (getClu s c).ops
  !ops.any (fun x => isEngine x && !sameOp o x && shareEngine o x &&
    (holdsEngines x.phase ||
      (waitsEngines x.phase && x.cls == .u && (o.cls != .u || x.phase == .issued || (opsBefore o ops).any (sameOp x))))) &&
    !splitBlocks s c o

/-! ### Inputs (R92 to R94, R164) -/

/-- The bytes of one token's slot in SRC. -/
def tokenSlot (d : List Byte) : Nat := (opnd d 16).size / dTokens d

/-- Where the satellite header of a token lies in its slot; none without a stream (R94, R164). -/
def headerAt (d : List Byte) : Option Nat :=
  let src := opnd d 16
  if !src.sat then none
  else if src.fmt = 15 then some (tokenSlot d - streamSize (dElems d))
  else match fmtOf src.fmt with
    | some f => some (dataSize f (dElems d) + scaleSize f (dElems d))
    | none => none

/-- The headers of the tokens: FMT and NTILES. -/
def headersOf (d : List Byte) (src : List Byte) : List (Nat × Nat) :=
  match headerAt d with
  | none => []
  | some a => (List.range (dTokens d)).map (fun t => satHeader (src.drop (t * tokenSlot d + a)))

/-- The header check of R94. -/
def satHeaderOk (d : List Byte) (h : Nat × Nat) : Bool :=
  let f := (opnd d 16).fmt
  let n := dElems d
  let fm := if f = 15 then h.1 == 2 || h.1 == 3 || h.1 == 5 else h.1 == f
  fm && h.2 == satTiles n &&
    (f != 15 || (match fmtOf h.1 with
      | some g => decide (dataSize g n + scaleSize g n ≤ tokenSlot d - streamSize n)
      | none => false))

/-- The activation format of each token (R94). -/
def tokenFmts (d : List Byte) (src : List Byte) : List Fmt :=
  let f := (opnd d 16).fmt
  if f = 15 then (headersOf d src).map (fun h => (fmtOf h.1).getD .a8)
  else List.replicate (dTokens d) ((fmtOf f).getD .a8)

/-- The images of the tokens. -/
def tokenImgs (d : List Byte) (src : List Byte) : List Img :=
  let fs := tokenFmts d src
  (List.range (dTokens d)).map (fun t =>
    readImg (nth .a8 fs t) (dElems d) (headerAt d) ((src.drop (t * tokenSlot d)).take (tokenSlot d)))

/-- The row mask; empty where none is named (R85). -/
def rowMask (d : List Byte) (bs : List Byte) : List Bool :=
  if (opnd d 40).present then (unpack 1 bs).map (fun x => x == 1) else []

/-- The lookup groups that hold a marker of some token (R96). -/
def markedGroups (imgs : List Img) : List Nat := uniq (imgs.flatMap (fun i => i.vals.map (fun v => v.1 / 5)))

/-- The groups that the lanes read (R69), and those of the satellite unit (R96). -/
def passNeeds (o : Op) (src : List Byte) : List Nat × List Nat :=
  let d := o.desc
  if dOp d = opXNP then (List.range (ceilDiv (dElems d) 8), [])
  else
    let imgs := tokenImgs d src
    (liveGroups (passGroups (dNoskip d) (passFronts (tokenFmts d src) o.q imgs)), markedGroups imgs)

/-- The pass of an operation for weights `w` and the reads of its feeders. -/
def passOf (o : Op) (src mask : List Byte) (w : Nat → Nat → Nat → Nat) (items : Nat → List FeedItem) : PassRun :=
  let d := o.desc
  let m := rowMask d mask
  let stall := fun k => tabGet 0 o.stalls k
  if dOp d = opXNP then
    xnpTile (dRows d) (scopeOf d) (dElems d) m ((src.take (ceilDiv (dElems d) 8)).map BitVec.toNat) w items stall
  else tlaPass (tokenFmts d src) (dRows d) (scopeOf d) o.q (dNoskip d) m (tokenImgs d src) w items stall

/-- What the pass needs of the tiles of each engine share. -/
def passTiles (s : State) (c : Nat) (o : Op) (src : List Byte) : Nat → List TileRead :=
  let n := passNeeds o src
  passReads s c o.desc o.ent n.1 n.2

/-- The pass of an operation over the weights of its cluster. -/
def passRun (s : State) (c : Nat) (o : Op) (src mask : List Byte) : PassRun :=
  let rd := passTiles s c o src
  passOf o src mask (patchedByte s c o.desc (patchTable (engCount o.desc) rd))
    (fun e => (rd e).flatMap (tileItems o.desc e))

/-- The cycle before which a pass ends: where it is abandoned, if it is (R75). -/
def PassRun.limit (r : PassRun) : Nat := match r.out.abandon with | some a => a.1 | none => noLimit

/-- The weight-store accesses of a pass, those before its end (R104). -/
def passAccs (s : State) (c : Nat) (o : Op) (src : List Byte) (r : PassRun) : List (Nat × WAcc) :=
  (runAccs o.desc (passTiles s c o src) r).filter (fun x => decide (x.1 < r.limit))

/-! ### One pass (R64 to R96, R107 step 3) -/

/-- The counts of a pass (R90, R93). -/
def countPass (s : State) (c : Nat) (k : PassCount) : State :=
  let s := bumpC64 (bumpC64 (bumpC64 s c oItems k.items) c oSkip k.skip) c oBwait k.bwait
  let s := bumpC64 (bumpC64 (bumpC64 s c oImbal k.imbal) c oInval k.inval) c oAlign k.align
  bumpC (bumpC64 s c oFwait k.fwait) c oSatMeta k.metaErr

/-- Every other operation that waits for a tile. -/
def tileWaiters (s : State) (c t : Nat) : List Op := (getClu s c).ops.filter (fun o => o.phase == .reload t)

/-- The operation at the start of a pass: it has read nothing and waited for nothing. -/
def freshPass (o : Op) : Op := { o with reads := 0, stalls := [] }

/-- The cycle of access `n` of a pass. -/
def accCycle (xs : List (Nat × WAcc)) (n : Nat) : Nat := (nth (0, WAcc.dir 0) xs n).1

/-- How a pass `r` that has met an access which does not go on ends or waits: it stops in the cycle of that access, and what
it did before counts (R90, R104, R145, R146, R280). -/
def readEnds (c : Nat) (o : Op) (r : PassRun) (xs : List (Nat × WAcc)) (w : WRes) : State :=
  match w with
  | .ok s => s
  | .reload s t n => setPhase s c { o with reads := n } (.reload t)
  | .lost s t n => weightLost (countPass s c (r.count (accCycle xs n))) c o t
  | .badRecord s n => opFault (countPass s c (r.count (accCycle xs n))) c o cAccordRecord 0

/-- The pass itself: inputs, weights, the result. ROWMASK is read at the start of each pass (DESIGN CHOICE, log entry 81). -/
def runPass (s : State) (c : Nat) (o : Op) : State :=
  let d := o.desc
  opRead s c o (opnd d 16) (opnd d 16).size (fun s src =>
    opReadOpt s c o (opnd d 40) (ceilDiv (dRows d) 8) (fun s mask =>
      let r := passRun s c o src mask
      let xs := passAccs s c o src r
      match wAccesses s c o.reads ((xs.drop o.reads).map (·.2)) with
      | .ok s => setPhase (countPass s c (r.count r.limit)) c (freshPass o) (.pass r.out)
      | w => readEnds c o r xs w))

/-- How an accord check that has met an access which does not go on ends or waits (R145, R146, R281). -/
def checkEnds (c : Nat) (o : Op) (w : WRes) : State :=
  match w with
  | .ok s => s
  | .reload s t n => setPhase s c { o with reads := n } (.reload t)
  | .lost s t _ => weightLost s c o t
  | .badRecord s _ => opFault s c o cAccordRecord 0

/-- The directory lines of the accord check that are still to be read, then the first pass (R277). -/
def readDirs (s : State) (c : Nat) (o : Op) (e : Nat) : State :=
  match wAccesses (putOp s c o) c o.reads ((dirAccs o.desc e).drop o.reads) with
  | .ok s => runPass s c (freshPass { o with checked := true })
  | w => checkEnds c o w

/-- The accord check (R270, R277), then the pass. -/
def accordCheck (s : State) (c : Nat) (o : Op) : State :=
  if o.accord = 0 then runPass s c { o with checked := true }
  else match findEnt s c o.sl o.accord with
    | none => opFault s c o cAccordUnknown 0
    | some e => readDirs s c { o with ent := some e } e

/-- A core that a tile needs is dead and not replaced (R535). -/
def coreDead (s : State) (c : Nat) (d : List Byte) : Option Nat :=
  let k := getClu s c
  ((engIds d).map (fun e => e / 4)).find? (fun l => k.dead.contains l && !k.spareUsed || k.lostSlice == some l)

/-- CORE_LOST for an operation: logical and physical core (R532, R535). -/
def coreLostFault (s : State) (c : Nat) (o : Op) (l : Nat) : State := opFaultAt s c o cCoreLost 0 (l + 16 * l)

/-- The start of an engine operation: the core, the satellite header check, the accord check, the first pass
(R94, R107, R277, R535). -/
def startEngine (s : State) (c : Nat) (o : Op) : State :=
  match coreDead s c o.desc with
  | some l => coreLostFault s c o l
  | none =>
    if (opnd o.desc 16).sat then
      opRead s c o (opnd o.desc 16) (opnd o.desc 16).size (fun s src =>
        if (headersOf o.desc src).all (satHeaderOk o.desc) then accordCheck s c o
        else opFault s c o cSatHeader 0)
    else accordCheck s c o

/-- A waiting engine operation starts when the arbiter finds its engines free (R422, R423). -/
def tryStart (c : Nat) (o : Op) (s : State) : State := if mayStart s c o then startEngine s c o else s

/-- TLA: it starts on its engines (R86). -/
def execTla (c sl t : Nat) (s : State) : Host.Outcome State Fault Refusal := opCmd s c sl t opTLA isIssued (tryStart c)

/-- XNP (R87). -/
def execXnp (c sl t : Nat) (s : State) : Host.Outcome State Fault Refusal := opCmd s c sl t opXNP isIssued (tryStart c)

/-- GATE (R114). -/
def execGate (c sl t : Nat) (s : State) : Host.Outcome State Fault Refusal := opCmd s c sl t opGATE isIssued (tryStart c)

/-! ### Abandon, replay, completion (R75, R76, R101 to R107) -/

/-- An engine operation's command. -/
def engineCmd (s : State) (c sl t : Nat) (g : Op → State → State) : Host.Outcome State Fault Refusal :=
  slotRun s c sl (fun s => match findOp s c sl t with
    | none => s
    | some o => if isEngine o then g o s else s)

/-- A pass that met the saturation event is abandoned: q below 3 waits to replay, q = 3 faults with the k of the clamping
token (R75, R101, R102, R186). -/
def doAbandon (c : Nat) (o : Op) (s : State) : State :=
  match o.phase with
  | .pass p =>
    match p.abandon with
    | none => s
    | some (_, t) =>
      let s := bumpC64 s c oAsat 1
      if o.q < 3 then setPhase s c o .replay
      else opFault s c o cPrecExhausted (codeOf 64 (nth 0 p.ks t))
  | _ => s

/-- PASS_ABANDON. -/
def execPassAbandon (c sl t : Nat) (s : State) : Host.Outcome State Fault Refusal := engineCmd s c sl t (doAbandon c)

/-- A replay starts: a new pass with q raised by one (R101, R103). -/
def doReplay (c : Nat) (o : Op) (s : State) : State :=
  if o.phase == .replay then
    if mayReplay s c o then
      match coreDead s c o.desc with
      | some l => coreLostFault s c o l
      | none =>
        let o := { o with q := o.q + 1 }
        runPass (bumpC (putOp s c o) c oReplay 1) c o
    else s
  else s

/-- TILE_REPLAY. -/
def execTileReplay (c sl t : Nat) (s : State) : Host.Outcome State Fault Refusal := engineCmd s c sl t (doReplay c)

/-- The destination's present bytes, read where the operation adds into it. -/
def readDest (s : State) (c : Nat) (o : Op) (g : State → List Byte → List Byte → State) : State :=
  let d := o.desc
  let n := dRows d
  let t := dTokens d
  if dOp d = opGATE || dAcc d = 0 then g s [] []
  else
    let len := if dAcc d = 1 then t * (16 + 4 * n) else 4 * n * t
    opRead s c o (opnd d 24) len (fun s old =>
      opReadOpt s c o (opnd d 32) (4 * n * t) (fun s oldSat => g s old oldSat))

/-- The counts of a completed tile (R59, R90, R116): only the pass that writes the destination counts its events. -/
def countTile (s : State) (c : Nat) (o : Op) (p : PassOut) (x : DestOut) : State :=
  let s := bumpC (countEvents (bumpC64 (bumpC64 s c oTiles 1) c oDsat x.dsat) c x.evs) c oFmtScale p.badScale
  if dOp o.desc = opGATE && o.audit then bumpC s c oAudit 1 else s

/-- A pass without a saturation event: the destination and SATDST are written once (R76, R79 to R85, R114). ROWMASK is read
again for this write (DESIGN CHOICE, log entry 81). -/
def doComplete (c : Nat) (o : Op) (s : State) : State :=
  match o.phase with
  | .pass p =>
    if p.abandon.isSome then s
    else
      let d := o.desc
      opReadOpt s c o (opnd d 40) (ceilDiv (dRows d) 8) (fun s mask =>
        readDest s c o (fun s old oldSat =>
          let m := rowMask d mask
          let x := if dOp d = opGATE then gateDest (dRows d) o.audit (BitVec.ofNat 32 (dThr d)) m p
            else tlaDest (dAcc d) (dRows d) (opnd d 32).present m p old oldSat
          opWrites s c o [(opnd d 24, 0, x.dst), (opnd d 32, 0, x.satdst)]
            (fun s => setPhase (countTile s c o p x) c o .done)))
  | _ => s

/-- PASS_COMPLETE. -/
def execPassComplete (c sl t : Nat) (s : State) : Host.Outcome State Fault Refusal := engineCmd s c sl t (doComplete c)

/-! ### Reloads (R145, R146) -/

/-- The pass of an operation with its inputs as they stand, and its weight-store accesses. -/
def standingPass (s : State) (c : Nat) (o : Op) : PassRun × List (Nat × WAcc) :=
  let d := o.desc
  let (_, src, _) := readOpnd s c .engine o.sl (opnd d 16) (opnd d 16).size
  let mask := if (opnd d 40).present then (readOpnd s c .engine o.sl (opnd d 40) (ceilDiv (dRows d) 8)).2.1 else []
  let r := passRun s c o src mask
  (r, passAccs s c o src r)

/-- The pass of an operation that waits for a reload and `n` cycles waited for the access that it has come to: the pass, and
the cycle of that access. -/
def waitedPass (s : State) (c n : Nat) (o : Op) : Op × PassRun × Nat :=
  let at0 := nth (0, WAcc.dir 0) (standingPass s c o).2 o.reads
  let o := match accLine at0.2 with
    | some k => { o with stalls := tabSet o.stalls k (tabGet 0 o.stalls k + n) }
    | none => o
  (o, (standingPass s c o).1, at0.1 + n)

/-- The wait of an accord check for the reload of a tile that it reads is over. Each lane with a live item has waited a free
number of cycles (R90, R145, R281, log entry 13). -/
def checkWaited (s : State) (c : Nat) (o : Op) : State :=
  bumpC64 (stepFresh s) c oFwait (Config.waitCycles s.fresh * liveLanes (standingPass s c o).1)

/-- WEIGHT_LOST for an operation that waits for tile `t`: what its pass did up to then counts; the cycles of the wait are free
(R90, R146, log entry 13). -/
def loseWaiter (c t : Nat) (s : State) (o : Op) : State :=
  if o.checked then
    let (_, r, lim) := waitedPass s c (Config.waitCycles s.fresh) o
    weightLost (countPass (stepFresh s) c (r.count lim)) c o t
  else weightLost (checkWaited s c o) c o t

/-- Every operation that waits for tile `t` fails with WEIGHT_LOST (R146). -/
def loseTile (s : State) (c t : Nat) : State :=
  (tileWaiters s c t).foldl (loseWaiter c t) (putTile s c t tileReset)

/-- A tile's contents written to the weight store, without errors. -/
def fillTile (s : State) (c t : Nat) (bs : List Byte) : State :=
  { s with
    cl.wst := memPut s.cl.wst (wstKey c (4096 * t)) bs
    cl.wErr := tabDrop s.cl.wErr (chunkKey c (4096 * t)) 64 }

/-- An operation goes on after a reload from the access that it waited for: in its accord check where that is not over, else in
its pass, whose feeder has waited a free number of cycles there (R145, log entry 13). -/
def resumeRead (c : Nat) (s : State) (o : Op) : State :=
  match findOp s c o.sl o.ticket.toNat with
  | none => s
  | some o =>
    if o.checked then
      let (o, _, _) := waitedPass s c (Config.waitCycles s.fresh) o
      runPass (stepFresh s) c o
    else match o.ent with
      | some e => readDirs (checkWaited s c o) c o e
      | none => accordCheck (checkWaited s c o) c o

/-- The stack's answer to the reload of a tile from physical address `b`: its bytes, and whether the read failed (R146). -/
def reloadRead (s : State) (b : Nat) : State × List Byte × Bool :=
  let (s, bs, ps) := physRead s .u b 4096
  (s, bs, ps.any id || !physOk b || stackFailed s (stackOf b))

/-- The stack completes the reload of a tile that was asked before an Eclipse stop; its answer is held (R479). -/
def tileHolds (c t : Nat) (s : State) : State :=
  match getTile s c t with
  | ⟨.reloading, some b, src, none⟩ =>
    if stackWaits s (stackOf b) then s
    else
      let (s, bs, bad) := reloadRead s b
      putTile s c t ⟨.reloading, some b, src, some (bs, bad)⟩
  | _ => s

/-- The answer to a reload arrives: the one held since an Eclipse stop, or the stack's now. -/
def takeReload (s : State) (c t b : Nat) : State × List Byte × Bool :=
  match (getTile s c t).got with
  | some (bs, bad) => (s, bs, bad)
  | none => reloadRead s b

/-- A reloaded tile becomes RESIDENT and its readers go on; a stack read that fails makes it EMPTY (R145, R146), and so does a word that
the express network could not correct (R294; DESIGN CHOICE, log entry 95). The cluster's station counts what it corrected and what it could not. -/
def reloadDone (c : Nat) (e : TileEnd) (s : State) : State :=
  let t := e.tile
  match (getTile s c t).st, (getTile s c t).back with
  | .reloading, some b =>
    if (getTile s c t).got.isNone && stackWaits s (stackOf b) then s else
    let (s, bs, bad) := takeReload s c t b
    let s := bumpC (bumpC s c oFabCorr e.ce) c oFabUncorr e.ue.length
    if bad || !e.ue.isEmpty then loseTile s c t
    else
      let ws := tileWaiters s c t
      let s := bumpC (putTile (fillTile s c t bs) c t { getTile s c t with st := .resident, got := none }) c oWstReload 1
      ws.foldl (resumeRead c) s
  | _, _ => s

/-- A command that names a weight tile: nothing goes on there while the cluster's clock is stopped (R498). -/
def tileCmd (s : State) (c t : Nat) (g : State → State) : Host.Outcome State Fault Refusal :=
  if c < Config.clusters then (if t < 32768 then hubCmd s (fun s => if cluRuns s c then g s else s) else .fault .noSuchAddress)
  else .fault .noSuchCluster

/-- WEIGHT_RELOAD_DONE. -/
def execWeightReloadDone (c : Nat) (tile : TileEnd) (s : State) : Host.Outcome State Fault Refusal :=
  tileCmd s c tile.tile (reloadDone c tile)

/-- WEIGHT_RELOAD_FAIL: a tile in RELOADING becomes EMPTY (R146). -/
def execWeightReloadFail (c tile : Nat) (s : State) : Host.Outcome State Fault Refusal :=
  tileCmd s c tile (fun s => if (getTile s c tile).st = .reloading then loseTile s c tile else s)

end Sys2Proof.Machine
end

