-- ==== Sys2Proof/Machine/VectorUnit.lean ====
section
/-! DEFINITION. QNT, ACT and NRM on the vector unit (R53 to R60, R97 to R100, R117, R166, R167, R282, R283, R603). -/

namespace Sys2Proof.Machine

/-! ### Row gains under an accord (R55, R282, R283) -/

/-- The context address of byte `o` of an operand's data. -/
def addrAt (r : Opnd) (o : Nat) : Nat :=
  match dropSpans o r.spans with
  | (a, _) :: _ => a
  | [] => 0

/-- The entries of a gain table that count, and the number dropped: an odd GADDR, or one not above the entry before it. -/
def gainEnts : List (Nat × Nat) → Option Nat → List (Nat × Nat) × Nat
  | [], _ => ([], 0)
  | (a, v) :: es, last =>
    let (l, n) := gainEnts es (some a)
    let bad := a % 2 == 1 || (match last with | some x => decide (a ≤ x) | none => false)
    if bad then (l, n + 1) else ((a, v) :: l, n)

/-- The gain of each of `n` rows, and the replacements made. Of two kept entries with one GADDR the first counts (DESIGN CHOICE, log
entry 95). -/
def gainVals (r : Opnd) (n : Nat) (bs : List Byte) (ents : List (Nat × Nat)) : List W32 × Nat :=
  let own := readVals .bf16 n bs
  let vs := (List.range n).map (fun i =>
    match ents.find? (fun e => e.1 == addrAt r (2 * i)) with
    | some e => (bf16ToF32 e.2, true)
    | none => (nth 0 own i, false))
  (vs.map (·.1), (vs.filter (·.2)).length)

/-- The entries of a gain table as they stand. -/
def gainTable (bs : List Byte) : List (Nat × Nat) :=
  (chunks 8 bs).map (fun e => (leNat (e.take 4) % 2 ^ 25, leNat ((e.drop 4).take 2)))

/-- The start of a QNT or ACT: in its SRCACC form with a named GAIN operand and under an accord it samples its table entry, whose
gain table must lie inside the partition (R270, R271, R280, R283). `used` says that it has that form; the operation goes on with
the entry, none where no gain table is read. -/
def gainStart (s : State) (c : Nat) (o : Op) (used : Bool) (g : State → Option Nat → State) : State :=
  if !used || o.accord = 0 then g s none
  else match findEnt s c o.sl o.accord with
    | none => opFault s c o cAccordUnknown 0
    | some e =>
      if entGcount e = 0 then g s none
      else if partSize s c o.sl < 32 * entGbase e + 8 * entGcount e then opFault s c o cAccordGain 0
      else g s (some e)

/-- The entries of the gain table of entry `e` that count; the whole table is read, and its bad entries are dropped and counted
(R283). -/
def readGains (s : State) (c : Nat) (o : Op) (e : Option Nat) (g : State → List (Nat × Nat) → State) : State :=
  match e with
  | none => g s []
  | some e =>
    let (s, tb, ps) := spadRead s c .vec (partBase s c o.sl + 32 * entGbase e) (8 * entGcount e)
    if ps.any id then opFault s c o cSpadUncorr 0
    else
      let (ents, drops) := gainEnts (gainTable tb) none
      g (bumpC s c oAccDrop drops) ents

/-- The gains of an operation with a named GAIN operand in its SRCACC form: the gain table of entry `e`, then the operand, whose
elements it replaces (R283). -/
def withGains (s : State) (c : Nat) (o : Op) (e : Option Nat) (r : Opnd) (n : Nat) (g : State → List W32 → State) : State :=
  readGains s c o e (fun s ents =>
    opRead s c o r (2 * n) (fun s bs =>
      let (vs, k) := gainVals r n bs ents
      g (bumpC s c oAccGpatch k) vs))

/-- The F32 values of an accumulator block with its gains (R55, R603). -/
def blockVals (n : Nat) (bs : List Byte) (gains : Option (List W32)) : List FV :=
  let k := signedOf 16 (leNat (bs.take 2))
  (List.range n).map (fun r =>
    let v := fOfInt (signedOf 32 (leNat ((bs.drop (16 + 4 * r)).take 4))) k
    match gains with
    | some g => fMul v (fvOf (nth 0 g r))
    | none => v)

/-- The values of a source in its SRCACC form. -/
def accSource (s : State) (c : Nat) (o : Op) (e : Option Nat) (src gain : Opnd) (n : Nat) (g : State → List FV → State) :
    State :=
  opRead s c o src (16 + 4 * n) (fun s bs =>
    if gain.present then withGains s c o e gain n (fun s gs => g s (blockVals n bs (some gs)))
    else g s (blockVals n bs none))

/-- The values of a source in F32 or BF16. -/
def plainSource (s : State) (c : Nat) (o : Op) (src : Opnd) (n : Nat) (g : State → List FV → State) : State :=
  let f := (fmtOf src.fmt).getD .f32
  opRead s c o src (dataSize f n) (fun s bs => g s ((readVals f n bs).map fvOf))

/-! ### QNT -/

/-- What QNT has beside its source: its table entry, its calibration range, its scales. -/
structure QIn where
  ent : Option Nat
  cal : List Byte
  sc : List Byte
  deriving DecidableEq, Repr

/-- The calibration of each element; empty without a calibration range (R97). -/
def calOf (n : Nat) (bs : List Byte) : List QCal :=
  if bs.isEmpty then []
  else (List.range n).map (fun j =>
    ⟨bitB (nth 0 bs (j / 8)).toNat (j % 8), leNat ((bs.drop (ceilDiv n 8 + 2 * (j / 32))).take 2)⟩)

/-- Where QNT puts its stream: behind its data, or at the end of DST under the fallback policy (R98, R164). -/
def streamAt (d : List Byte) (f : Fmt) (n : Nat) : Nat :=
  if qOpol d then (opnd d 24).size - streamSize n else dataSize f n + scaleSize f n

/-- The writes of a QNT result (R100). -/
def qntWrites (d : List Byte) (x : QntOut) : List (Opnd × Nat × List Byte) :=
  let dst := opnd d 24
  let (ds, st) := qntBytes x dst.sat
  [(dst, 0, ds), (dst, streamAt d x.fmt x.els.length, st)]

/-- The counts of a QNT (R59, R98, R99, R108). -/
def countQnt (s : State) (c : Nat) (x : QntOut) : State :=
  let s := bumpC (bumpC (countEvents s c x.evs) c oExcess x.excess) c oClamp x.clamped
  let s := if x.rescaled then bumpC s c oRescale 1 else s
  if x.fallback then modClu (bumpC s c oFback 1) c (fun k => { k with fbWin := k.fbWin + 1 }) else s

/-- The result of a QNT into A2, A4 or A8 is written. -/
def qntPut (c : Nat) (o : Op) (x : QntOut) (s : State) : State :=
  opWrites s c o (qntWrites o.desc x) (fun s => setPhase (countQnt s c x) c o .done)

/-- The result of a QNT into F32, BF16, F8 or B1 is written (R60, R603). -/
def plainPut (c : Nat) (o : Op) (dst : Opnd) (vs : List FV) (s : State) : State :=
  let f := (fmtOf dst.fmt).getD .f32
  let cs := (List.range vs.length).map (fun i => f32ToCode f (rngAt o.rng i) (nth fvZero vs i))
  opWrite s c o dst (dataBytes f (cs.map (·.c))) (fun s =>
    setPhase (countEvents s c (cs.map (fun x => (x.sat, x.nan)))) c o .done)

/-- QNT of elements: into an activation format by R97 to R100, else by R60. `bad` are the source groups of scale 0xFF. -/
def qntElems (c : Nat) (o : Op) (i : QIn) (els : List QEl) (bad : List Nat) (s : State) : State :=
  let d := o.desc
  let dst := opnd d 24
  let tf := (fmtOf dst.fmt).getD .a8
  let n := qElems d
  if fmtIsAct tf then
    let sup := if (opnd d 40).present then some (i.sc.map BitVec.toNat) else none
    let badSup := ((sup.getD []).filter (fun x => x == 255)).length
    let x := qntRun tf ((fmtOf (qFmax d)).getD tf) (qOpol d) dst.sat (qThr d) o.rng els (calOf n i.cal) sup bad
    qntPut c o x (bumpC s c oFmtScale badSup)
  else
    plainPut c o dst (els.map (fun e => match e.mark with | some v => fvOf (bf16ToF32 v) | none => e.v)) s

/-- QNT of an activation image (R54, R60, R98): a widening, a requantisation, or a conversion to F32. -/
def qntImage (c : Nat) (o : Op) (i : QIn) (f : Fmt) (img : Img) (s : State) : State :=
  let d := o.desc
  let dst := opnd d 24
  let tf := (fmtOf dst.fmt).getD .f32
  let bad := (List.range img.e8.length).filter (fun g => nth 0 img.e8 g == 255)
  let s := bumpC (bumpC s c oFmtScale bad.length) c oSatMeta img.metaErr
  if qntIsWiden f tf then
    qntPut c o (qntWiden tf ((fmtOf (qFmax d)).getD tf) (qOpol d) dst.sat o.rng img (calOf (qElems d) i.cal)) s
  else qntElems c o i (imgEls img) bad s

/-- QNT's source, then its result. -/
def qntSource (c : Nat) (o : Op) (i : QIn) (s : State) : State :=
  let d := o.desc
  let src := opnd d 16
  let n := qElems d
  let plain := fun (s : State) (vs : List FV) => qntElems c o i (vs.map (fun v => ⟨v, none⟩)) [] s
  if qAcc d then accSource s c o i.ent src (opnd d 56) n plain
  else
    let f := (fmtOf src.fmt).getD .f32
    if fmtIsAct f then
      opRead s c o src (imageSize f n src.sat) (fun s bs =>
        qntImage c o i f (readImg f n (if src.sat then some (dataSize f n + scaleSize f n) else none) bs) s)
    else plainSource s c o src n plain

/-- QNT: its accord's gain table, its calibration range and scales, its source, its one write (R97 to R100, R280). -/
def doQnt (c : Nat) (o : Op) (s : State) : State :=
  let d := o.desc
  let n := qElems d
  gainStart s c o (qAcc d && (opnd d 56).present) (fun s e =>
    opReadOpt s c o (opnd d 32) (ceilDiv n 8 + 2 * ceilDiv n 32) (fun s cal =>
      opReadOpt s c o (opnd d 40) (ceilDiv n 32) (fun s sc => qntSource c o ⟨e, cal, sc⟩ s)))

/-- QNT. -/
def execQnt (c sl t : Nat) (s : State) : Host.Outcome State Fault Refusal := opCmd s c sl t opQNT isIssued (doQnt c)

/-! ### ACT -/

/-- The counts of R117 of an ACT that names a GATE record: WASTE and MISS, by which outputs are zero. -/
def gateCounts (n : Nat) (rec : List Byte) (zero : Nat → Bool) : Nat × Nat :=
  let audit := bitB (nth 0 rec 0).toNat 0
  let b := ceilDiv n 8
  let at8 := fun (o r : Nat) => bitB (nth 0 rec (8 + o + r / 8)).toNat (r % 8)
  let pred := fun (r : Nat) => if audit then at8 b r else at8 0 r
  (((List.range n).filter (fun r => pred r && zero r)).length,
   if audit then ((List.range n).filter (fun r => !pred r && !zero r)).length else 0)

/-- A written code denotes zero, of either sign. -/
def codeZero (f : Fmt) (x : Nat) : Bool := x % 2 ^ (fmtBits f - 1) == 0

/-- ACT's function over its inputs, and its write (R117, R167). -/
def actPut (c : Nat) (o : Op) (xs ys : List FV) (rec : List Byte) (s : State) : State :=
  let d := o.desc
  let dst := opnd d 32
  let f := (fmtOf dst.fmt).getD .f32
  let cs := (List.range xs.length).map (fun i =>
    f32ToCode f (rngAt o.rng i) (actFn (aFunc d) (nth fvZero xs i) (nth fvZero ys i)))
  let g := if rec.isEmpty then (0, 0)
    else gateCounts xs.length rec (fun r => codeZero f (nth ⟨0, false, false⟩ cs r).c)
  opWrite s c o dst (dataBytes f (cs.map (·.c))) (fun s =>
    let s := bumpC (bumpC s c oWaste g.1) c oMiss g.2
    setPhase (countEvents s c (cs.map (fun x => (x.sat, x.nan)))) c o .done)

/-- ACT: its accord's gain table, its sources, its GATE record, its function (R166, R167, R280). -/
def doAct (c : Nat) (o : Op) (s : State) : State :=
  let d := o.desc
  let n := aElems d
  let go := fun (s : State) (xs : List FV) =>
    let fin := fun (s : State) (ys : List FV) =>
      opReadOpt s c o (opnd d 40) (8 + 2 * ceilDiv n 8) (fun s rec => actPut c o xs ys rec s)
    if (opnd d 24).present then plainSource s c o (opnd d 24) n fin else fin s []
  if aAcc d then
    gainStart s c o (opnd d 48).present (fun s e => accSource s c o e (opnd d 16) (opnd d 48) n go)
  else plainSource s c o (opnd d 16) n go

/-- ACT. -/
def execAct (c sl t : Nat) (s : State) : Host.Outcome State Fault Refusal := opCmd s c sl t opACT isIssued (doAct c)

/-! ### NRM -/

/-- NRM (R166, R167). -/
def doNrm (c : Nat) (o : Op) (s : State) : State :=
  let d := o.desc
  let n := nElems d
  plainSource s c o (opnd d 16) n (fun s xs =>
    let run := fun (s : State) (w : Option (List FV)) =>
      plainPut c o (opnd d 24) (nrmRun (nKind d == 1) (nEps d) xs w) s
    if (opnd d 32).present then plainSource s c o (opnd d 32) n (fun s w => run s (some w)) else run s none)

/-- NRM. -/
def execNrm (c sl t : Nat) (s : State) : Host.Outcome State Fault Refusal := opCmd s c sl t opNRM isIssued (doNrm c)

end Sys2Proof.Machine
end

