-- ==== Sys2Proof/Machine/KvWalk.lean ====
section
/-! DEFINITION. The page walker: directories, share and layout records, page-table entries and the look-aside buffer
(R210 to R222, R606). -/

namespace Sys2Proof.Machine

/-! ### Device memory for an operation (R219, R443) -/

/-- A read of device memory by the walker: MEM_WINDOW outside the windows, MEM_UNCORR on a poisoned codeword. -/
def walkRead (s : State) (c : Nat) (o : Op) (a n : Nat) (g : State → List Byte → State) : State :=
  match tenRead s o.cls (slotFn s c o.sl) a n with
  | none => opFault s c o cMemWindow 0
  | some (s, bs, poi) => if poi then opFault s c o cMemUncorr 0 else g s bs

/-- A write of device memory by the walker. -/
def walkWrite (s : State) (c : Nat) (o : Op) (a : Nat) (bs : List Byte) : State := tenWrite s o.cls (slotFn s c o.sl) a bs false

/-- A little-endian field of a byte string. -/
def leAt (bs : List Byte) (o n : Nat) : Nat := leNat ((bs.drop o).take n)

/-! ### Directory header (R214) -/

/-- A directory header from its 64 bytes. -/
def hdrOf (base : Nat) (bs : List Byte) : KvHdr :=
  { base := base, shbase := leAt bs 0 8, seqcap := leAt bs 8 4 % 2 ^ 24, l0 := leAt bs 12 2, nl := leAt bs 14 2
    hpool := leAt bs 16 8, hcount := leAt bs 24 4, cpool := leAt bs 32 8, ccount := leAt bs 40 4 }

/-- The walker's header of the slot: its copy, or read now where the read at load met no window or poison. -/
def withHdr (s : State) (c : Nat) (o : Op) (g : State → KvHdr → State) : State :=
  match (getSlot s c o.sl).kvHdr with
  | some h => g s h
  | none =>
    match (getSlot s c o.sl).kvdir with
    | none => opFault s c o cAttSeq 0
    | some a => walkRead s c o a 64 (fun s bs =>
        g (modSlot s c o.sl (fun k => { k with kvHdr := some (hdrOf a bs) })) (hdrOf a bs))

/-! ### Share and layout records (R211, R215, R216, R606) -/

/-- A share with its layout. -/
structure Share where
  addr : Nat
  seq : Nat
  layer : Nat
  c : Nat
  f : Nat
  cap : Nat
  pt : Nat
  occ : Nat
  anc : List Nat
  d : Nat
  hg : Nat
  nkv : Nat
  kvh0 : Nat
  nq : Nat
  chs : List (List Nat)
  deriving DecidableEq, Repr

/-- Strictly ascending and below `d`. -/
def ascending (d : Nat) : List Nat → Bool
  | [] => true
  | [x] => decide (x < d)
  | x :: y :: l => decide (x < y) && ascending d (y :: l)

/-- The head dimension of DSEL. -/
def dselDim (n : Nat) : Nat := 64 * 2 ^ n

/-- The channels of share head `n`. -/
def layChs (bs : List Byte) (n : Nat) : List Nat :=
  (List.range (leAt bs (8 + 8 * n) 1 % 8)).map (fun i => leAt bs (9 + 8 * n + i) 1)

/-- A layout record is valid (R606). -/
def layOk (bs : List Byte) : Bool :=
  let dsel := leAt bs 0 1 % 4
  let nkv := leAt bs 2 1 % 32
  decide (dsel < 3) && decide (1 ≤ leAt bs 1 1) && decide (1 ≤ nkv) && decide (nkv ≤ 16) &&
    (List.range nkv).all (fun n => decide (leAt bs (8 + 8 * n) 1 % 8 ≤ 4) && ascending (dselDim dsel) (layChs bs n))

/-- The share of a record and a layout. -/
def mkShare (addr seq layer : Nat) (r l : List Byte) : Share :=
  let nkv := leAt l 2 1 % 32
  { addr := addr, seq := seq, layer := layer, c := leAt r 4 4, f := leAt r 8 4, cap := leAt r 12 4, pt := leAt r 16 8
    occ := leAt r 24 8, anc := (List.range 64).map (fun i => leAt r (64 + 8 * i) 8)
    d := dselDim (leAt l 0 1 % 4), hg := leAt l 1 1, nkv := nkv, kvh0 := leAt l 3 1, nq := leAt l 4 2
    chs := (List.range nkv).map (layChs l) }

/-- The share record's address (R215). -/
def shareAddr (h : KvHdr) (seq layer : Nat) : Nat := h.shbase + (seq * h.nl + layer - h.l0) * 576

/-- The share that an operation's SEQ and LAYER select, with the checks of R215 and R606. Of a layout record the walker reads all 136
bytes, whatever NKV is (DESIGN CHOICE, log entry 95). -/
def withShare (s : State) (c : Nat) (o : Op) (g : State → Share → State) : State :=
  withHdr s c o (fun s h =>
    let seq := kSeq o.desc % 2 ^ 24
    let gen := kSeq o.desc / 2 ^ 24
    let lay := kLayer o.desc
    if h.seqcap ≤ seq ∨ lay < h.l0 ∨ h.l0 + h.nl ≤ lay then opFault s c o cAttSeq 0
    else
      let a := shareAddr h seq lay
      walkRead s c o a 576 (fun s r =>
        if !bitB (leAt r 0 4) 0 || bits (leAt r 0 4) 15 8 != gen then opFault s c o cAttSeq 0
        else walkRead s c o (leAt r 32 8) 136 (fun s l =>
          if !layOk l then opFault s c o cAttSeq 0
          else
            let sh := mkShare a seq lay r l
            if sh.c < sh.f ∨ sh.f + sh.cap < sh.c then opFault s c o cKvCap 0 else g s sh)))

/-- Tail slot `i` of a share is occupied (R227). -/
def Share.occupied (sh : Share) (i : Nat) : Bool := bitB sh.occ i

/-! ### Page-table entries (R217, R219) -/

/-- TIER, SHARED and ADDR of a PTE. -/
def pteTier (p : Nat) : Nat := p % 4
def pteShared (p : Nat) : Bool := bitB p 2
def pteAddr (p : Nat) : Nat := p / 256 * 256

/-- The set of the look-aside buffer (R219). -/
def lbSet (e : LbEnt) : Nat := (e.page ^^^ e.seq) % 16

/-- The entry is of this slot, sequence, layer and page. -/
def lbIs (sl seq layer page : Nat) (e : LbEnt) : Bool :=
  e.sl == sl && e.seq == seq && e.layer == layer && e.page == page

/-- The buffer with an entry at the most recently used place; a full set gives up its least recently used one. -/
def lbPut (l : List LbEnt) (e : LbEnt) : List LbEnt :=
  let l := l.filter (fun x => !lbIs e.sl e.seq e.layer e.page x)
  let mine := l.filter (fun x => lbSet x == lbSet e)
  (if 4 ≤ mine.length then (match mine with | x :: _ => l.filter (fun y => y != x) | [] => l) else l) ++ [e]

/-- `s` without the look-aside entries of the slots of `mask` (R218, R219). -/
def dropLb (s : State) (c mask : Nat) : State :=
  modClu s c (fun k => { k with lb := k.lb.filter (fun e => !bitB mask e.sl) })

/-- The PTE of a page of a share, through the look-aside buffer (R219). -/
def withPte (s : State) (c : Nat) (o : Op) (seq layer pt page : Nat) (g : State → Nat → State) : State :=
  match (getClu s c).lb.find? (lbIs o.sl seq layer page) with
  | some e => g (modClu s c (fun k => { k with lb := lbPut k.lb e })) e.pte
  | none =>
    walkRead (bumpC s c oLbMiss 1) c o (pt + 8 * page) 8 (fun s bs =>
      let p := leNat bs
      let keep := pteTier p == 1 || pteTier p == 2
      g (if keep then modClu s c (fun k => { k with lb := lbPut k.lb ⟨o.sl, seq, layer, page, p⟩ }) else s) p)

/-- The bytes of a head block, and of a page (R212). -/
def headBytes (d : Nat) : Nat := 256 * d + 4608
def pageBytes (d nkv : Nat) : Nat := nkv * headBytes d

/-- A page that the unit may use: HOT inside the partition, or COLD (R221). -/
def pteOk (s : State) (c sl p size : Nat) : Bool :=
  match pteTier p with
  | 1 => decide (pteAddr p + size ≤ partSize s c sl)
  | 2 => true
  | _ => false

/-! ### Rows of a page (R212, R220) -/

/-- A read of a page's bytes: SPAD_UNCORR on a hot page, MEM_UNCORR or MEM_WINDOW on a cold one (R207). -/
def pageRead (s : State) (c : Nat) (o : Op) (p off n : Nat) (g : State → List Byte → State) : State :=
  if pteTier p = 1 then
    let (s, bs, ps) := spadRead s c .att (partBase s c o.sl + pteAddr p + off) n
    if ps.any id then opFault s c o cSpadUncorr 0 else g s bs
  else walkRead s c o (pteAddr p + off) n g

/-- A write of a page's bytes: the state, and whether a poisoned word refused it. -/
def pageWrite (s : State) (c : Nat) (o : Op) (p off : Nat) (bs : List Byte) : State × Bool :=
  if pteTier p = 1 then
    let (s, k) := spadWrite s c .att (partBase s c o.sl + pteAddr p + off) bs false
    (s, k != 0)
  else (walkWrite s c o (pteAddr p + off) bs, false)

/-- The pieces of row `r` of share head `n`: K, V, E_K, E_V, satellite record, each with its length (R212). -/
def rowPieces (d n r : Nat) : List (Nat × Nat) :=
  let b := n * headBytes d
  [(b + r * (d / 2), d / 2), (b + 128 * d + r * (d / 2), d / 2), (b + 256 * d + r, 1), (b + 256 * d + 256 + r, 1),
   (b + 256 * d + 512 + 16 * r, 16)]

/-- A read of bytes of a page that the attention unit streams: a cold page's have been fetched, and its codewords read, ahead
(R220, R459). -/
def pageSee (s : State) (c : Nat) (o : Op) (p off n : Nat) (g : State → List Byte → State) : State :=
  if pteTier p = 1 then pageRead s c o p off n g
  else match tenRead s o.cls (slotFn s c o.sl) (pteAddr p + off) n with
    | none => opFault s c o cMemWindow 0
    | some (_, bs, poi) => if poi then opFault s c o cMemUncorr 0 else g s bs

/-- Read pieces of a page one after the other; `ahead` says that the page has been fetched. -/
def readPieces2 (ahead : Bool) (s : State) (c : Nat) (o : Op) (p : Nat) (g : State → List (List Byte) → State) :
    List (Nat × Nat) → List (List Byte) → State
  | [], acc => g s acc.reverse
  | (a, n) :: l, acc =>
    (if ahead then pageSee else pageRead) s c o p a n (fun s bs => readPieces2 ahead s c o p g l (bs :: acc))

/-- The five pieces of a row of a page that the attention unit streams. -/
def rowSee (s : State) (c : Nat) (o : Op) (p d n r : Nat) (g : State → List (List Byte) → State) : State :=
  readPieces2 true s c o p g (rowPieces d n r) []

/-- Write pieces of a page; whether a poisoned word refused. -/
def piecesWrite (s : State) (c : Nat) (o : Op) (p : Nat) : List (Nat × List Byte) → State × Bool
  | [] => (s, false)
  | (a, bs) :: l =>
    let (s, x) := pageWrite s c o p a bs
    let (s, y) := piecesWrite s c o p l
    (s, x || y)

/-- The pieces of a row with their bytes. -/
def rowPut (d n r : Nat) (bs : List (List Byte)) : List (Nat × List Byte) :=
  ((rowPieces d n r).zip bs).map (fun x => (x.1.1, x.2))

end Sys2Proof.Machine
end

