-- ==== Sys2Proof/Machine/Attention.lean ====
section
/-! DEFINITION. ATT on the attention unit: which operation the unit takes, the start of a pass, its pages, suspension, its
one write (R189 to R209, R604 to R606). -/

namespace Sys2Proof.Machine

/-! ### The unit (R189, R190) -/

/-- An operation of the attention unit: ATT, KVA, COMMIT. -/
def isAtt (o : Op) : Bool := decide (7 ≤ dOp o.desc) && decide (dOp o.desc ≤ 9)

/-- A pass under way; a suspended pass. -/
def inPass (p : Phase) : Bool := match p with | .att _ => true | _ => false
def inSuspense (p : Phase) : Bool := match p with | .suspended _ => true | _ => false

/-- An operation that waits for the unit: no earlier operation of its slot is before it there. -/
def attWaits (ops : List Op) (o : Op) : Bool :=
  isAtt o && o.phase == .issued && !(opsBefore o ops).any (fun x => isAtt x && x.sl == o.sl && x.phase != .done)

/-- `x` goes before `o`: a higher class, or the same class and older. -/
def goesBefore (ops : List Op) (x o : Op) : Bool :=
  decide (clsCode x.cls < clsCode o.cls) || (x.cls == o.cls && (opsBefore o ops).any (sameOp x))

/-- The unit takes `o` now. -/
def attTakes (s : State) (c : Nat) (o : Op) : Bool :=
  let ops := (getClu s c).ops
  attWaits ops o && !ops.any (fun x => inPass x.phase) && !ops.any (fun x => attWaits ops x && goesBefore ops x o) &&
    (o.cls == .u || !ops.any (fun x => inSuspense x.phase))

/-- A command by which the unit takes an operation; a stack that retrains makes it wait. -/
def attCmd (s : State) (c sl t opc : Nat) (g : Op → State → State) : Host.Outcome State Fault Refusal :=
  opCmd s c sl t opc isIssued (fun o s => if attTakes s c o && !funcWaits s (slotFn s c o.sl) then g o s else s)

/-! ### The start of a pass (R191 to R197, R207) -/

/-- The share head that query head `h` reads; none outside the share (R191, R232). -/
def kvHeadOf (sh : Share) (h : Nat) : Option Nat :=
  if sh.kvh0 ≤ h / sh.hg ∧ h / sh.hg < sh.kvh0 + sh.nkv then some (h / sh.hg - sh.kvh0) else none

/-- The query heads of an ATT. -/
def attHeads (d : List Byte) : List Nat := (List.range (kHeads d)).map (fun i => kHead0 d + i)

/-- The end of the attended committed positions (R195). -/
def attEnd (d : List Byte) (sh : Share) : Nat := if attNpos d = 0 then sh.c else attNpos d

/-- The attended tail slots, and the mask bits that name unoccupied ones (R196). -/
def attTail (d : List Byte) (sh : Share) : List Nat × Nat :=
  if attTslot d = 0xFFFF then ([], 0)
  else
    let mask := nth 0 sh.anc (attTslot d)
    let want := (List.range 64).filter (fun i => i == attTslot d || bitB mask i)
    (want.filter sh.occupied, ((List.range 64).filter (fun i => bitB mask i && !sh.occupied i)).length)

/-- The query heads of Q, aligned, with the number of inexact shifts and of invalid scale groups (R51, R193). -/
def attQueries (d : List Byte) (dim : Nat) (bs : List Byte) : List QHead × Nat × Nat :=
  let nh := kHeads d
  let img := readImg ((fmtOf (opnd d 16).fmt).getD .a8) (nh * dim) none bs
  let qs := (List.range nh).map (fun h =>
    qAlign ((img.els.drop (h * dim)).take dim) ((img.e8.drop (h * (dim / 32))).take (dim / 32)))
  (qs.map (·.1), natSum (qs.map (·.2)), (img.e8.filter (fun x => x == 255)).length)

/-- The committed pages of a pass, and all its steps: the tail is one more (R197). -/
def attPages (f n : Nat) : Nat := ceilDiv (n - f) 256
def attSteps (f n : Nat) (tail : List Nat) : Nat := attPages f n + b2n (!tail.isEmpty)

/-- The pass at its start, before a page is translated. -/
def attPass0 (d : List Byte) (sh : Share) (qs : List QHead) (kv : List Nat) : AttPass :=
  let tail := (attTail d sh).1
  { d := sh.d, f := sh.f, pt := sh.pt, c := sh.c, n := attEnd d sh, qs := qs, kv := kv, chs := sh.chs, tail := tail
    heads := qs.map (fun _ => headInit sh.d), page := 0, pages := attSteps sh.f (attEnd d sh) tail
    next := none }

/-- The checks of R207 and R232 that come before Q is read: the fault. -/
def attBad (d : List Byte) (sh : Share) : Option Nat :=
  if sh.c < attEnd d sh ∨ sh.nq < kHead0 d + kHeads d ∨ 2048 < kHeads d * sh.d ∨ attSizes d sh.d = false then
    some cAttRange
  else if attTslot d ≠ 0xFFFF ∧ sh.occupied (attTslot d) = false then some cAttTail
  else if (attHeads d).any (fun h => (kvHeadOf sh h).isNone) then some cKvHead
  else none

/-! ### One page of a pass (R197 to R204, R604, R605) -/

/-- The pages and rows of a list of positions, in order: consecutive positions of one page together. -/
def groupRows (f : Nat) : List Nat → List (Nat × List Nat)
  | [] => []
  | p :: ps =>
    let g := (p - f) / 256
    let r := (p - f) % 256
    match groupRows f ps with
    | (h, rs) :: l => if h = g then (g, r :: rs) :: l else (g, [r]) :: (h, rs) :: l
    | [] => [(g, [r])]

/-- The positions of step `k`: a committed page, or the tail. -/
def stepRows (a : AttPass) (k : Nat) : List Nat :=
  if k < attPages a.f a.n then
    (List.range (min 256 (a.n - (a.f + 256 * k)))).map (fun i => a.f + 256 * k + i)
  else a.tail.map (fun i => a.c + i)

/-- The pages of step `k` in order. -/
def stepPages (a : AttPass) (k : Nat) : List Nat :=
  if k < attPages a.f a.n then [k] else if k < a.pages then (groupRows a.f (stepRows a k)).map (·.1) else []

/-- The walker translates page `pg` of a pass, and the fetch of a cold page starts; a fault is kept for the moment at which the
unit reaches the page (R219, R220, R605). -/
def aheadPage (s : State) (c : Nat) (o : Op) (a : AttPass) (pg : Nat) : State × NextPg :=
  let seq := kSeq o.desc % 2 ^ 24
  let lay := kLayer o.desc
  let f := slotFn s c o.sl
  let fetch := fun (s : State) (p : Nat) =>
    if pteTier p = 2 then (match tenRead s o.cls f (pteAddr p) (pageBytes a.d a.chs.length) with | some r => r.1 | none => s) else s
  match (getClu s c).lb.find? (lbIs o.sl seq lay pg) with
  | some e => (fetch (modClu s c (fun k => { k with lb := lbPut k.lb e })) e.pte, ⟨pg, e.pte, 0⟩)
  | none =>
    match tenRead (bumpC s c oLbMiss 1) o.cls f (a.pt + 8 * pg) 8 with
    | none => (bumpC s c oLbMiss 1, ⟨pg, 0, cMemWindow⟩)
    | some (s, _, true) => (s, ⟨pg, 0, cMemUncorr⟩)
    | some (s, bs, false) =>
      let p := leNat bs
      let keep := pteTier p == 1 || pteTier p == 2
      let s := if keep then modClu s c (fun k => { k with lb := lbPut k.lb ⟨o.sl, seq, lay, pg, p⟩ }) else s
      (fetch s p, ⟨pg, p, 0⟩)

/-- The page translated ahead, or translated now. -/
def pageOf (s : State) (c : Nat) (o : Op) (a : AttPass) (pg : Nat) : State × NextPg :=
  match a.next with
  | some n => if n.page = pg then (s, n) else aheadPage s c o a pg
  | none => aheadPage s c o a pg

/-- The unit reaches page `pg`, and `after` behind it is translated and fetched while it works; the cycles that it has waited for the
page are free (R208, R220, log entry 13). KV_PTE on a page that R221 rejects. -/
def reachPage (c : Nat) (o : Op) (a : AttPass) (pg : Nat) (after : Option Nat) (g : State → AttPass → Nat → State) (s : State) :
    State :=
  let (s, n) := pageOf (bumpFree s c oPwait) c o a pg
  if n.fault ≠ 0 then opFault s c o n.fault 0
  else if !pteOk s c o.sl n.pte (pageBytes a.d a.chs.length) then opFault s c o cKvPte 0
  else
    match after with
    | none => g s { a with next := none } n.pte
    | some q =>
      let (s, m) := aheadPage s c o a q
      g s { a with next := some m } n.pte

/-- The rows of share head `n` at the places of a step, with the counts of the read. -/
def readHead (c : Nat) (o : Op) (a : AttPass) (n : Nat) (g : State → List (KvRow × Nat × Nat) → State) :
    List (Nat × Nat) → List (KvRow × Nat × Nat) → State → State
  | [], acc, s => g s acc.reverse
  | (p, r) :: l, acc, s =>
    rowSee s c o p a.d n r (fun s bs =>
      let row := kvRow a.d (nth [] a.chs n) (nth [] bs 0) (nth [] bs 1) (leNat (nth [] bs 2)) (leNat (nth [] bs 3))
        (nth [] bs 4)
      readHead c o a n g l (row :: acc) s)

/-- Every KV head of a pass, read once (R604). -/
def readHeads (c : Nat) (o : Op) (a : AttPass) (places : List (Nat × Nat))
    (g : State → List (Nat × List KvRow) → State) : List Nat → List (Nat × List KvRow) → State → State
  | [], acc, s => g s acc
  | n :: ns, acc, s =>
    readHead c o a n (fun s rs =>
      let s := bumpC s c oSatMeta (natSum (rs.map (fun r => r.2.1)))
      let s := bumpC s c oFmtScale (natSum (rs.map (fun r => r.2.2)))
      readHeads c o a places g ns (acc ++ [(n, rs.map (fun r => r.1))]) s) places [] s

/-- Every head over the rows of a step: the new heads and the counts (R201 to R204). -/
def attRun (a : AttPass) (rows : List (Nat × List KvRow)) : List HeadSt × BlkCount :=
  let outs := (List.range a.qs.length).map (fun i =>
    let rs := match rows.find? (fun x => x.1 == nth 0 a.kv i) with | some x => x.2 | none => []
    attBlocks (nth ⟨[], 0, [], 0⟩ a.qs i) (chunks 8 rs) (nth (headInit a.d) a.heads i, ⟨0, 0⟩))
  (outs.map (·.1), ⟨natSum (outs.map (·.2.rescale)), natSum (outs.map (·.2.valign))⟩)

/-- The rows of each KV head, with those of a further page behind them. -/
def joinRows (acc rs : List (Nat × List KvRow)) : List (Nat × List KvRow) :=
  if acc.isEmpty then rs
  else acc.map (fun x => (x.1, x.2 ++ (match rs.find? (fun y => y.1 == x.1) with | some y => y.2 | none => [])))

/-- The pages of a step one after the other, each with its rows: every KV head's rows of all of them. `after` is the page behind the
step. -/
def readPages (c : Nat) (o : Op) (after : Option Nat) (g : State → AttPass → List (Nat × List KvRow) → State) :
    List (Nat × List Nat) → AttPass → List (Nat × List KvRow) → State → State
  | [], a, acc, s => g s a acc
  | (pg, rows) :: l, a, acc, s =>
    reachPage c o a pg (match l with | x :: _ => some x.1 | [] => after) (fun s a p =>
      readHeads c o a (rows.map (fun r => (p, r))) (fun s rs => readPages c o after g l a (joinRows acc rs) s) (uniq a.kv) [] s) s

/-- One step of a pass: the state and the pass with its heads moved on. -/
def attStep (s : State) (c : Nat) (o : Op) (a : AttPass) (g : State → AttPass → State) : State :=
  let pos := stepRows a a.page
  readPages c o (stepPages a (a.page + 1)).head? (fun s a rows =>
    let (hs, k) := attRun a rows
    let s := bumpC s c oScores (pos.length * a.qs.length)
    let s := bumpC (bumpC s c oAttRescale k.rescale) c oValign k.valign
    g s { a with heads := hs, page := a.page + 1 }) (groupRows a.f pos) a [] s

/-! ### ATT starts -/

/-- A pass begins with the translation of its first page. -/
def passBegins (s : State) (c : Nat) (o : Op) (a : AttPass) : State :=
  match (stepPages a 0).head? with
  | none => setPhase s c o (.att a)
  | some pg =>
    let (s, n) := aheadPage s c o a pg
    setPhase s c o (.att { a with next := some n })

/-- ATT: the checks, Q, the attended range. -/
def attStart (c : Nat) (o : Op) (s : State) : State :=
  let d := o.desc
  withShare s c o (fun s sh =>
    match attBad d sh with
    | some code => opFault s c o code 0
    | none =>
      opRead s c o (opnd d 16) (imageSize ((fmtOf (opnd d 16).fmt).getD .a8) (kHeads d * sh.d) false) (fun s bs =>
        let (qs, qal, bad) := attQueries d sh.d bs
        let s := bumpC (bumpC s c oQalign qal) c oFmtScale bad
        let s := bumpC s c oMaskDrop (attTail d sh).2
        passBegins s c o (attPass0 d sh qs ((attHeads d).map (fun h => (kvHeadOf sh h).getD 0)))))

/-- ATT: the attention unit starts a pass. -/
def execAtt (c sl t : Nat) (s : State) : Host.Outcome State Fault Refusal := attCmd s c sl t opATT (attStart c)

/-! ### Suspension (R190) -/

/-- A class U operation of another slot waits for the unit. -/
def urgentWaits (s : State) (c : Nat) (o : Op) : Bool :=
  let ops := (getClu s c).ops
  ops.any (fun x => attWaits ops x && x.cls == .u && x.sl != o.sl)

/-- At a page boundary with pages left, a pass that is not urgent gives way to an urgent operation that waits (R190). -/
def givesWay (s : State) (c : Nat) (o : Op) (a : AttPass) : Bool :=
  o.cls != .u && urgentWaits s c o && decide (a.page < a.pages)

/-- The pass suspends with its whole state, and is counted (R190). -/
def suspendPass (s : State) (c : Nat) (o : Op) (a : AttPass) : State := setPhase (bumpC s c oSuspend 1) c o (.suspended a)

/-- The remaining steps of a pass, by fuel; it suspends at the page boundary at which it gives way (R190). -/
def attRest (c : Nat) (o : Op) (g : State → AttPass → State) : Nat → AttPass → State → State
  | 0, a, s => g s a
  | n + 1, a, s =>
    if a.pages ≤ a.page then g s a
    else attStep s c o a (fun s a => if givesWay s c o a then suspendPass s c o a else attRest c o g n a s)

/-- ATT_SUSPEND: at its next page boundary a pass that is not urgent suspends for a waiting urgent operation; where no page
is left it ends instead. -/
def doSuspend (c : Nat) (o : Op) (s : State) : State :=
  match o.phase with
  | .att a =>
    if o.cls == .u || !urgentWaits s c o || a.pages ≤ a.page || funcWaits s (slotFn s c o.sl) then s
    else attStep s c o a (fun s a => if givesWay s c o a then suspendPass s c o a else setPhase s c o (.att a))
  | _ => s

/-- ATT_SUSPEND. -/
def execAttSuspend (c sl t : Nat) (s : State) : Host.Outcome State Fault Refusal :=
  opCmd s c sl t opATT inPass (doSuspend c)

/-- ATT_RESUME: the unit is free and no urgent operation waits. -/
def doResume (c : Nat) (o : Op) (s : State) : State :=
  let ops := (getClu s c).ops
  match o.phase with
  | .suspended a =>
    if ops.any (fun x => inPass x.phase) || ops.any (fun x => attWaits ops x && x.cls == .u) then s
    else setPhase s c o (.att a)
  | _ => s

/-- ATT_RESUME. -/
def execAttResume (c sl t : Nat) (s : State) : Host.Outcome State Fault Refusal :=
  opCmd s c sl t opATT inSuspense (doResume c)

/-! ### The end of a pass (R205, R206) -/

/-- The bytes of OUT and the events of its elements. -/
def attOutput (o : Op) (a : AttPass) : List Byte × List (Bool × Bool) :=
  let f := if (opnd o.desc 24).fmt = 0 then none else fmtOf (opnd o.desc 24).fmt
  let outs := (List.range a.heads.length).map (fun i => headOut f o.rng (i * a.d) (nth (headInit a.d) a.heads i))
  (outs.flatMap (·.1), outs.flatMap (·.2))

/-- A pass whose steps are done writes OUT and is done. -/
def attFinish (c : Nat) (o : Op) (s : State) (a : AttPass) : State :=
  let (bs, evs) := attOutput o a
  opWrite s c o (opnd o.desc 24) bs (fun s =>
    let s := bumpC (countEvents s c evs) c oPasses 1
    let s := bumpC s c oAttEmpty (a.heads.filter headEmpty).length
    setPhase s c o .done)

/-- The rest of a pass under way: its remaining pages, then its output; an urgent operation that waits suspends it (R190). -/
def attEnds (c : Nat) (o : Op) (s : State) : State :=
  match o.phase with
  | .att a => if funcWaits s (slotFn s c o.sl) then s else attRest c o (attFinish c o) (a.pages - a.page) a s
  | _ => s

end Sys2Proof.Machine
end

