-- ==== Sys2Proof/Machine/Flit.lean ====
section
/-! DEFINITION. The bytes of Pridun flits, messages and discovery records (R320 to R322, R331, R336, R341, R349). -/

namespace Sys2Proof.Machine

/-! ### The CRC of R320 -/

/-- One bit of the ECMA-182 remainder. -/
def crc64Bit (x : Nat) : Nat :=
  let y := 2 * x % 2 ^ 64
  if 2 ^ 63 ≤ x then y ^^^ 0x42F0E1EBA9EA3693 else y

/-- Eight bits. -/
def crc64Step (x : Nat) (b : Byte) : Nat :=
  crc64Bit (crc64Bit (crc64Bit (crc64Bit (crc64Bit (crc64Bit (crc64Bit (crc64Bit (x ^^^ b.toNat * 2 ^ 56))))))))

/-- The CRC of a byte string: initial value all ones, final inversion. -/
def crc64 (bs : List Byte) : Nat := bs.foldl crc64Step (2 ^ 64 - 1) ^^^ (2 ^ 64 - 1)

/-! ### Fields (R321) -/

/-- A little-endian field of a flit. -/
def flitN (b : List Byte) (o n : Nat) : Nat := leNat ((b.drop o).take n)

/-- The header fields. -/
def flType (b : List Byte) : Nat := bits (flitN b 0 1) 3 0
def flVc (b : List Byte) : Nat := bits (flitN b 0 1) 5 4
def flClass (b : List Byte) : Nat := bits (flitN b 0 1) 7 6
def flFirst (b : List Byte) : Bool := bitB (flitN b 1 1) 0
def flLast (b : List Byte) : Bool := bitB (flitN b 1 1) 1
def flAtr (b : List Byte) : Bool := bitB (flitN b 1 1) 2
def flDnode (b : List Byte) : Nat := flitN b 2 2
def flSnode (b : List Byte) : Nat := flitN b 4 2
def flLseq (b : List Byte) : Nat := flitN b 6 2
def flMtag (b : List Byte) : Nat := flitN b 8 2
def flPlen (b : List Byte) : Nat := min 224 (flitN b 10 1)
def flAckv (b : List Byte) : Bool := bitB (flitN b 11 1) 0
def flNak (b : List Byte) : Bool := bitB (flitN b 11 1) 1
def flCrvc (b : List Byte) : Nat := bits (flitN b 11 1) 3 2
def flAck (b : List Byte) : Nat := flitN b 12 2
def flCrcnt (b : List Byte) : Nat := bits (flitN b 14 2) 11 0
def flPayload (b : List Byte) : List Byte := (b.drop 16).take 224
def flPoison (b : List Byte) : Nat := bits (flitN b 240 1) 6 0

/-- The CRC is good. -/
def flCrcOk (b : List Byte) : Bool := b.length == 256 && flitN b 248 8 == crc64 (b.take 248)

/-- TYPE, VC and CLASS are none of the reserved (R321, R322); IDLE has no VC. -/
def flKnown (b : List Byte) : Bool :=
  flClass b != 3 &&
    (match flType b with
     | 0 => true
     | 1 => flVc b == 3 | 2 => flVc b == 3
     | 8 => flVc b == 2
     | t => decide (t < 8) && decide (flVc b < 2))

/-- Bytes padded with zeros, or cut, to `n`. -/
def padBytes (n : Nat) (bs : List Byte) : List Byte := bs.take n ++ List.replicate (n - bs.length) 0

/-- The last bytes of a flit: poison bits, reserved bytes, CRC. -/
def flSeal (b : List Byte) : List Byte := b.take 248 ++ leBytes 8 (crc64 (b.take 248))

/-- A flit before it is sent: its link fields are 0. -/
def mkFlit (typ vc cls : Nat) (first last atr : Bool) (dnode snode mtag : Nat) (payload : List Byte) (poison : Nat) :
    List Byte :=
  flSeal (leBytes 1 (typ + 16 * vc + 64 * cls) ++ leBytes 1 (b2n first + 2 * b2n last + 4 * b2n atr) ++ leBytes 2 dnode ++
    leBytes 2 snode ++ leBytes 2 0 ++ leBytes 2 mtag ++ leBytes 1 (min 224 payload.length) ++ leBytes 1 0 ++ leBytes 2 0 ++
    leBytes 2 0 ++ padBytes 224 payload ++ leBytes 1 poison ++ leBytes 7 0 ++ leBytes 8 0)

/-- A flit with bytes replaced from `o`, and its CRC made good. -/
def flPut (b : List Byte) (o : Nat) (bs : List Byte) : List Byte :=
  flSeal (b.take o ++ bs ++ b.drop (o + bs.length))

/-- A flit with its LSEQ, and on virtual channel `vc`. -/
def flSetLseq (b : List Byte) (n : Nat) : List Byte := flPut b 6 (leBytes 2 n)
def flSetVc (b : List Byte) (vc : Nat) : List Byte := flPut b 0 (leBytes 1 (flType b + 16 * vc + 64 * flClass b))

/-- A flit without the link control fields of the hop before (R321). -/
def flNoControl (b : List Byte) : List Byte := flPut b 11 (leBytes 5 0)

/-- A time-synchronisation flit is a response. -/
def flTsResp (b : List Byte) : Bool := bitB (flitN (flPayload b) 2 1) 0

/-- A time-synchronisation flit with the stamp of its departure: T1 of a request, T3 of a response (R349). -/
def flStamp (b : List Byte) (t : Nat) : List Byte := flPut b (if flTsResp b then 40 else 24) (leBytes 8 t)

/-- An IDLE flit that carries link control fields (R321, R323, R328). -/
def idleFlit (ackv nak : Bool) (ack crvc crcnt : Nat) : List Byte :=
  flSeal (leBytes 11 0 ++ leBytes 1 (b2n ackv + 2 * b2n nak + 4 * crvc) ++ leBytes 2 ack ++ leBytes 2 crcnt ++
    leBytes 224 0 ++ leBytes 16 0)

/-- The discovery record (R331). -/
def discPayload (serial node port : Nat) (atrc : Bool) (epoch groups : Nat) : List Byte :=
  leBytes 8 serial ++ leBytes 2 node ++ leBytes 1 port ++ leBytes 1 (b2n atrc) ++ leBytes 1 epoch ++ leBytes 1 groups ++
    leBytes 2 0

/-- The time-synchronisation record (R349). -/
def tsyncPayload (tseq : Nat) (resp : Bool) (t1 t2 t3 : Nat) : List Byte :=
  leBytes 2 tseq ++ leBytes 1 (b2n resp) ++ leBytes 5 0 ++ leBytes 8 t1 ++ leBytes 8 t2 ++ leBytes 8 t3

/-- The EACK record (R341). -/
def eackPayload (aseq epoch status : Nat) : List Byte := leBytes 4 aseq ++ leBytes 1 epoch ++ leBytes 1 status

/-! ### Serial arithmetic -/

/-- `a` at or beyond `b` in 16-bit, in 8-bit and in 32-bit serial-number arithmetic (R327, R339). -/
def serial16Ge (a b : Nat) : Bool := decide ((a + 65536 - b % 65536) % 65536 < 32768)
def serial8Lt (a b : Nat) : Bool := decide (128 ≤ (a + 256 - b % 256) % 256)
def serial32Diff (a b : Nat) : Int := signedOf 32 (a + 2 ^ 32 - b % 2 ^ 32)

end Sys2Proof.Machine
end

