-- ==== Sys2Proof/Machine/Ftc.lean ====
section
/-! DEFINITION. Corrections of the fabric time counter (R463 to R466). -/

namespace Sys2Proof.Machine

/-- HUB_FTC_CTL.MODE: 3 is treated as 0 (R489). -/
def ftcMode (s : State) : Nat := bits (reg s aFtcCtl) 31 30 % 3

/-- HUB_FTC_CTL.PORT, DMAX, STEP. -/
def ftcPort (s : State) : Nat := bits (reg s aFtcCtl) 26 24
def ftcDmax (s : State) : Nat := bits (reg s aFtcCtl) 23 16
def ftcStepOk (s : State) : Bool := bitB (reg s aFtcCtl) 0

/-- A correction `v`: c is set, LOCK sets after four of at most `lim` ticks in a row, one above 100 ticks clears LOCK and sets
LOSS (R464, R466). -/
def ftcCorrect (s : State) (lim : Nat) (v : Int) : State :=
  let k := s.clock
  let near := if v.natAbs ≤ lim then min 4 (k.near + 1) else 0
  let far := decide (100 < v.natAbs)
  let s := if far then markSet s aFtcStat (2 ^ 31) else s
  { s with clock := { k with res := v, near := near, lock := (k.lock || near == 4) && !far, loss := k.loss || far } }

/-- An accepted response's θ in LINK mode: a step where R465 permits one, else a correction. -/
def ftcTheta (s : State) (port : Nat) (theta delta : Int) : State :=
  if ftcMode s = 2 ∧ ftcPort s = port ∧ delta ≤ ((16 * ftcDmax s : Nat) : Int) then
    if 65536 < theta.natAbs ∧ ftcStepOk s = true ∧ s.clock.lock = false ∧ s.hub.regions = [] then
      let s := markSet s aFtcStat (2 ^ 31)
      { s with clock := { s.clock with step := some theta, near := 0, loss := true } }
    else ftcCorrect s 16 theta
  else s

/-- Half of an integer, rounded toward zero (R350). -/
def halfZero (x : Int) : Int := Int.tdiv x 2

end Sys2Proof.Machine
end

