-- ==== Sys2Proof/Machine/Ports.lean ====
section
/-! DEFINITION. The Pridun ports: states and training, credits, link-level replay, egress, discovery, routes (R315 to R334,
R349, R350). -/

namespace Sys2Proof.Machine

/-! ### Widths (R315, R317, R318) -/

/-- The groups that each width of a port uses, widest first. -/
def portWidths (n : Nat) : List Nat := if n < 6 then [6, 4, 2] else [3, 2, 1]

/-- LNK_PORTn_CTL of a port. -/
def portCtl (s : State) (n : Nat) : Nat := reg s (portAddr n 0)

/-- MINW, TSROLE, ATR, EN (R351). -/
def portMinw (s : State) (n : Nat) : Nat := min 2 (bits (portCtl s n) 7 6)
def portFollows (s : State) (n : Nat) : Bool := bitB (portCtl s n) 3
def portAtr (s : State) (n : Nat) : Bool := bitB (portCtl s n) 2

/-- The number of groups of a mask. -/
def groupCount (n mask : Nat) : Nat := ((List.range (nth 0 (portWidths n) 0)).filter (fun g => bitB mask g)).length

/-- Working groups of a port without those that the defect map names (R544, R546). -/
def soundGroups (s : State) (n mask : Nat) : Nat :=
  (dmapEntries s).foldl (fun m e =>
    if dmapByte e 0 = 5 ∧ dmapByte e 1 = n ∧ bitB m (dmapByte e 2) then m - 2 ^ dmapByte e 2 else m) mask

/-- The widest permitted width that `k` working groups reach, none where there is none (R318). -/
def pickWidth (s : State) (n k maxw : Nat) : Option Nat :=
  (List.range 3).find? (fun w => decide (maxw ≤ w) && decide (w ≤ portMinw s n) && decide (nth 0 (portWidths n) w ≤ k))

/-- The width that a port runs at. -/
def portWidth (s : State) (n : Nat) : Nat :=
  ((List.range 3).find? (fun w => nth 0 (portWidths n) w == (getPort s n).groups)).getD 2

/-- The port carries link traffic. -/
def portUp (p : Port) : Bool := p.st == .discovery || p.st == .active

/-- The credits that each side advertises (R323, R326). -/
def fullCredits : List Nat := [3584, 3584, 768, 256]

/-- Link-layer initialisation of a port (R318, R326). The egress queue keeps its flits (R330), so a TSYNC request that waits there
stays open: its answer is that of the last request (R350). -/
def linkInit (p : Port) : Port :=
  { p with lseq := 0, replay := [], expect := 0, heard := false, nakAt := none, unacked := 0, rounds := 0, credits := fullCredits
           owed := [0, 0, 0, 0], rx := [], discSeen := false, tsAsk := [] }

/-! ### Egress (R323, R324, R327) -/

/-- Flits that one replay buffer holds. -/
def replaySize : Nat := 8192

/-- The place of a waiting flit in the egress order: VC3, VC2, then the message channels by class. -/
def egressRank (b : List Byte) : Nat :=
  match flVc b with
  | 3 => 0 | 2 => 1 | _ => 2 + flClass b

/-- The flit waits in the queue of another: same VC and class. -/
def sameQueue (a b : List Byte) : Bool := flVc a == flVc b && flClass a == flClass b

/-- The flits that may leave now: first of their queue, with a credit. -/
def egressReady (p : Port) : List (Nat × List Byte) → List (List Byte) → List (Nat × List Byte)
  | [], _ => []
  | (k, b) :: l, seen =>
    let first := !seen.any (sameQueue b)
    let rest := egressReady p l (b :: seen)
    if first && decide (0 < nth 0 p.credits (flVc b)) then (k, b) :: rest else rest

/-- The flit that leaves: a message flit that has lost 16 slots, else the first in the order (R324). -/
def egressPick (rs : List (Nat × List Byte)) : Option (Nat × List Byte) :=
  match rs.find? (fun x => decide (flVc x.2 < 2) && decide (16 ≤ x.1)) with
  | some x => some x
  | none => (sortBy (fun (a b : Nat × List Byte) => decide (egressRank a.2 < egressRank b.2)) rs).head?

/-- A flit leaves a port for the first time: LSEQ, credit, replay buffer; a time-synchronisation record takes the stamp of its
departure (R323, R327, R349). -/
def transmit (s : State) (n : Nat) (b : List Byte) : State :=
  let p := getPort s n
  let b := if flType b = 2 then flStamp b s.clock.ftc else b
  let f := flSetLseq b p.lseq
  let s := modPort s n (fun p => { p with
    t1 := if flType b = 2 ∧ flTsResp b = false then s.clock.ftc else p.t1
    lseq := (p.lseq + 1) % 65536
    replay := p.replay ++ [f]
    credits := listSet p.credits (flVc b) (nth 0 p.credits (flVc b) - 1) })
  emit s (.flit n f)

/-- The port may send flits of every type: its state, and no Eclipse stop for messages and EACKs (R317, R478). -/
def mayLeave (s : State) (n : Nat) (b : List Byte) : Bool :=
  match (getPort s n).st with
  | .active => !eclHalted s || flType b == 1 || flType b == 2
  | .discovery => flType b == 1
  | .training => flType b == 1
  | _ => false

/-- Send what can leave a port now, by fuel. -/
def pumpAux (n : Nat) : Nat → State → State
  | 0, s => s
  | k + 1, s =>
    let p := getPort s n
    if replaySize ≤ p.replay.length then s
    else
      let rs := egressReady p (p.egress.filter (fun x => mayLeave s n x.2)) []
      match egressPick rs with
      | none => s
      | some x =>
        let lost := rs.filter (fun y => y != x && decide (flVc y.2 < 2))
        let eg := (p.egress.erase x).map (fun y => if lost.contains y then (y.1 + 1, y.2) else y)
        pumpAux n k (transmit (modPort s n (fun p => { p with egress := eg })) n x.2)

/-- Send what can leave a port now. -/
def pump (s : State) (n : Nat) : State := pumpAux n (getPort s n).egress.length s

/-- Flits join a port's egress. -/
def enqueue (s : State) (n : Nat) (bs : List (List Byte)) : State :=
  pump (modPort s n (fun p => { p with egress := p.egress ++ bs.map (fun b => (0, b)) })) n

/-! ### Leaving a state (R319, R330) -/

/-- A flit leaves a receive buffer: one credit of its VC is owed (R323). -/
def owe (p : Port) (vc : Nat) : Port := { p with owed := listSet p.owed vc (nth 0 p.owed vc + 1) }

/-- A port leaves DISCOVERY or ACTIVE: its replay buffer and its receive buffer are discarded, and credits are owed for the flits
that the latter held; a departure from ACTIVE counts (R319, R323, R330). -/
def portLeave (s : State) (n : Nat) : State :=
  let p := getPort s n
  let s := if p.st == .active then bump s (portAddr n 0x2C) 1 else s
  if portUp p then modPort s n (fun p => { p.rx.foldl (fun p b => owe p (flVc b)) p with replay := [], rx := [] }) else s

/-- The port goes to DOWN. It returns no wider than it was, or was to be (R319). -/
def portDown (s : State) (n : Nat) : State :=
  let w := if portUp (getPort s n) then portWidth s n else (getPort s n).maxw
  modPort (portLeave s n) n (fun p => { p with st := .down, groups := 0, maxw := w })

/-- The port trains, no wider than `maxw`. -/
def portTrain (s : State) (n maxw : Nat) : State :=
  modPort (portLeave s n) n (fun p => { linkInit p with st := .training, groups := 0, maxw := maxw })

/-- The state of a trained port by the two node IDs (R317, R332). -/
def trainedSt (s : State) (p : Port) : PortSt :=
  if s.lnk.node ≠ 0xFFFF ∧ p.pnode ≠ 0xFFFF ∧ p.pnode ≠ s.lnk.node ∧ s.lnk.dup = false ∧ p.discSeen = true then .active
  else .discovery

/-- A trained port's state is brought up to date. -/
def portUpdate (s : State) (n : Nat) : State :=
  let p := getPort s n
  if !portUp p then s
  else
    let t := trainedSt s p
    if t == p.st then s else pump (modPort (portLeave s n) n (fun p => { p with st := t })) n

/-- Every trained port. -/
def portsUpdate (s : State) : State := (List.range Config.ports).foldl portUpdate s

/-! ### Discovery (R331, R332) -/

/-- One DISC flit of port `n`. -/
def discFlit (s : State) (n : Nat) : List Byte :=
  mkFlit 1 3 0 true true false 0xFFFF s.lnk.node 0
    (discPayload s.fuses.serial s.lnk.node n (portAtr s n) s.lnk.epoch (getPort s n).groups) 0

/-- A port that is trained or trains sends a DISC. -/
def sendDisc (s : State) (n : Nat) : State :=
  if portUp (getPort s n) || (getPort s n).st == .training then enqueue s n [discFlit s n] else s

/-- The module's own record has changed: every port says so at once. -/
def discAll (s : State) : State := (List.range Config.ports).foldl sendDisc s

/-- Raise the physical function's link vector, where it is enabled (R331, R407). -/
def linkVector (s : State) : State := raisePf s 15 10 0

/-- A received discovery record. -/
def discTake (s : State) (n : Nat) (pl : List Byte) : State :=
  let p := getPort s n
  let serial := flitN pl 0 8
  let node := flitN pl 8 2
  let pp := bits (flitN pl 10 1) 2 0
  let chg := serial != p.pser || pp != p.pport
  let s := modPort s n (fun p => { p with
    pser := serial, pnode := node, pport := pp, patrc := bitB (flitN pl 11 1) 0, discSeen := true
    peerchg := p.peerchg || chg })
  let s := if chg then linkVector (markSet s (portAddr n 4) (2 ^ 31)) else s
  let s := if node == s.lnk.node && node != 0xFFFF then { s with lnk.dup := true } else s
  portsUpdate s

/-! ### Routes (R325, R333, R334) -/

/-- The route entry of a node. -/
def routeOf (s : State) (d : Nat) : Nat := (memGet s.lnk.rt d).toNat

/-- The port that a flit for node `d` leaves on: PORT when it is ACTIVE, else ALT when that is. -/
def routePort (s : State) (d : Nat) : Option Nat :=
  let e := routeOf s d
  if !bitB e 7 then none
  else if (getPort s (bits e 2 0)).st == .active then some (bits e 2 0)
  else if (getPort s (bits e 5 3)).st == .active then some (bits e 5 3)
  else none

/-- A flit on the virtual channel on which it leaves this hop. -/
def hopVc (s : State) (b : List Byte) : List Byte :=
  if bitB (routeOf s (flDnode b)) 6 && flVc b == 0 then flSetVc b 1 else b

/-- Flits of one copy or one forwarded flit set out for their node: on their port, without link control fields of another hop, or
discarded and counted (R321, R334). -/
def sendRouted (s : State) (d : Nat) (bs : List (List Byte)) : State :=
  match routePort s d with
  | none => bump s aFwdDrop bs.length
  | some n => enqueue s n (bs.map (fun b => flNoControl (hopVc s b)))

/-- An EACK sets out (R341): destination, ASEQ, EPOCH, class, status. -/
def sendEack (s : State) (e : Nat × Nat × Nat × Nat) (status : Nat) : State :=
  let (d, aseq, epoch, cls) := e
  sendRouted s d [mkFlit 8 2 cls true true false d s.lnk.node 0 (eackPayload aseq epoch status) 0]

/-! ### Acknowledgement and replay (R327 to R329) -/

/-- Resend flits of the replay buffer; after 8 rounds without progress the port goes to DOWN instead. With no flit to resend there
is no round; an Eclipse stop keeps every flit in the buffer (R478). A resent TSYNC flit keeps the stamp of its first departure (R327,
R349; DESIGN CHOICE, log entry 95). -/
def resendRound (s : State) (n : Nat) (bs : List (List Byte)) : State :=
  if bs.isEmpty || eclHalted s then s
  else if 8 ≤ (getPort s n).rounds then portDown s n
  else
    let s := modPort (bump s (portAddr n 0x28) bs.length) n (fun p => { p with rounds := p.rounds + 1 })
    bs.foldl (fun s b => emit s (.flit n b)) s

/-- An ACK covers every flit up to its LSEQ. -/
def ackDrop (s : State) (n ack : Nat) : State :=
  let p := getPort s n
  let left := p.replay.filter (fun b => !serial16Ge ack (flLseq b))
  if left.length = p.replay.length then s else modPort s n (fun p => { p with replay := left, rounds := 0 })

/-- The flits that waited for room go on. -/
def ackTake (s : State) (n ack : Nat) : State := pump (ackDrop s n ack) n

/-- A NAK: every outstanding flit after its ACK goes again, then flits that waited for room (R329). -/
def nakTake (s : State) (n ack : Nat) : State :=
  let s := ackDrop s n ack
  pump (resendRound s n (getPort s n).replay) n

/-- Returned credits (R323). -/
def creditTake (s : State) (n vc k : Nat) : State :=
  if k = 0 then s
  else pump (modPort s n (fun p => { p with credits := listSet p.credits vc (nth 0 p.credits vc + k) })) n

/-- The receiver acknowledges what it has accepted. -/
def sendAck (s : State) (n : Nat) (nak : Bool) : State :=
  let p := getPort s n
  let s := emit s (.flit n (idleFlit true nak ((p.expect + 65535) % 65536) 0 0))
  modPort s n (fun p => { p with unacked := 0 })

/-- A flit is accepted: the next LSEQ, an ACK after every 64. -/
def acceptFlit (s : State) (n : Nat) : State :=
  let s := modPort s n (fun p => { p with expect := (p.expect + 1) % 65536, heard := true, nakAt := none, unacked := p.unacked + 1 })
  if 64 ≤ (getPort s n).unacked then sendAck s n false else s

/-- A flit is discarded: the first one after an accepted flit sends a NAK, and each one that comes 2 µs or more after the last NAK
(R328). -/
def refuseFlit (s : State) (n : Nat) : State :=
  let p := getPort s n
  let due := match p.nakAt with | none => p.heard | some t => decide (t + 2000 ≤ s.clock.ftc)
  if due then modPort (sendAck s n true) n (fun p => { p with nakAt := some s.clock.ftc }) else s

/-- A flit leaves the receive buffer: one credit of its VC is owed (R323). -/
def oweCredit (s : State) (n vc : Nat) : State := modPort s n (fun p => owe p vc)

/-! ### Commands of the ports -/

/-- PORT_SIGNAL_DETECT: a signal on at least the groups of the narrowest permitted width starts training (R318). -/
def execPortSignalDetect (n groups : Nat) (s : State) : Host.Outcome State Fault Refusal :=
  portCmd s n (fun s =>
    let p := getPort s n
    if p.st == .down && decide (nth 0 (portWidths n) (portMinw s n) ≤ groupCount n groups) then
      modPort (portTrain s n p.maxw) n (fun p => { p with seen := groups })
    else s)

/-- TRAINING_TIMEOUT. -/
def execTrainingTimeout (n : Nat) (s : State) : Host.Outcome State Fault Refusal :=
  portCmd s n (fun s => if (getPort s n).st == .training then portDown s n else s)

/-- TRAINING_DONE: the widest permitted width that the working groups reach is taken; no such width takes the port to DOWN
(R317 to R319). -/
def execTrainingDone (n groups : Nat) (s : State) : Host.Outcome State Fault Refusal :=
  portCmd s n (fun s =>
    let p := getPort s n
    let groups := soundGroups s n groups
    if p.st != .training then s
    else match pickWidth s n (groupCount n groups) p.maxw with
      | none => portDown s n
      | some w =>
        let p := { p with seen := groups, groups := nth 0 (portWidths n) w, maxw := 0 }
        sendDisc (modPort s n (fun _ => { p with st := trainedSt s p })) n)

/-- TRAINING_RETRY: a port in DOWN tries again. -/
def execTrainingRetry (n : Nat) (s : State) : Host.Outcome State Fault Refusal :=
  portCmd s n (fun s => if (getPort s n).st == .down then portTrain s n (getPort s n).maxw else s)

/-- A retrain at the next narrower width; none left takes the port to DOWN (R319). -/
def narrower (s : State) (n : Nat) : State :=
  if !portUp (getPort s n) then s
  else if portMinw s n ≤ portWidth s n then portDown s n
  else portTrain s n (portWidth s n + 1)

/-- LANE_LOCK_LOSS. -/
def execLaneLockLoss (n : Nat) (s : State) : Host.Outcome State Fault Refusal := portCmd s n (fun s => narrower s n)

/-- FEC_ERROR_LIMIT. -/
def execFecErrorLimit (n : Nat) (s : State) : Host.Outcome State Fault Refusal := portCmd s n (fun s => narrower s n)

/-- Every lane has lost signal: the port may return wider (R319). -/
def doSignalLoss (n : Nat) (s : State) : State :=
  modPort (if (getPort s n).st == .disabled then s else portDown s n) n (fun p => { p with maxw := 0 })

/-- SIGNAL_LOSS. -/
def execSignalLoss (n : Nat) (s : State) : Host.Outcome State Fault Refusal := portCmd s n (doSignalLoss n)

/-- A write of RETRAIN (R319). -/
def doRetrainPort (n : Nat) (s : State) : State := if portUp (getPort s n) then portTrain s n 0 else s

/-- PORT_RETRAIN. -/
def execPortRetrain (n : Nat) (s : State) : Host.Outcome State Fault Refusal := portCmd s n (doRetrainPort n)

/-- EN of a port's control register. -/
def setPortEn (s : State) (n : Nat) (en : Bool) : State := setReg s (portAddr n 0) (portCtl s n / 2 * 2 + b2n en)

/-- A write of EN = 0, of EN = 1 (R317). A disabled port's domain is off, and its buffers are lost (R490). -/
def doPortDisable (n : Nat) (s : State) : State :=
  modPort (portDown (setPortEn s n false) n) n (fun p => { p with st := .disabled, replay := [], rx := [], egress := [] })
def doPortEnable (n : Nat) (s : State) : State :=
  let s := setPortEn s n true
  if (getPort s n).st == .disabled then modPort s n (fun p => { p with st := .down }) else s

/-- PORT_DISABLE. -/
def execPortDisable (n : Nat) (s : State) : Host.Outcome State Fault Refusal := portCmd s n (doPortDisable n)

/-- PORT_ENABLE. -/
def execPortEnable (n : Nat) (s : State) : Host.Outcome State Fault Refusal := portCmd s n (doPortEnable n)

/-- NAK_RECEIVE. -/
def execNakReceive (n ack : Nat) (s : State) : Host.Outcome State Fault Refusal :=
  portCmd s n (fun s => if portUp (getPort s n) then nakTake s n ack else s)

/-- REPLAY_TIMEOUT: flits outstanding, no progress. -/
def execReplayTimeout (n : Nat) (s : State) : Host.Outcome State Fault Refusal :=
  portCmd s n (fun s =>
    let p := getPort s n
    if portUp p && !p.replay.isEmpty then resendRound s n p.replay else s)

/-- ACK_TIMER. -/
def execAckTimer (n : Nat) (s : State) : Host.Outcome State Fault Refusal :=
  portCmd s n (fun s =>
    let p := getPort s n
    if portUp p && decide (0 < p.unacked) then sendAck s n false else s)

/-- The credits owed on one virtual channel are returned, at most 4,095 in a flit (R321). -/
def returnCredits (n : Nat) (s : State) (vc : Nat) : State :=
  let k := min 4095 (nth 0 (getPort s n).owed vc)
  if k = 0 then s
  else modPort (emit s (.flit n (idleFlit false false 0 vc k))) n
    (fun p => { p with owed := listSet p.owed vc (nth 0 p.owed vc - k) })

/-- CREDIT_RETURN_TIMER. -/
def execCreditReturnTimer (n : Nat) (s : State) : Host.Outcome State Fault Refusal :=
  portCmd s n (fun s => if portUp (getPort s n) then (List.range 4).foldl (returnCredits n) s else s)

/-- DISC_SEND. -/
def execDiscSend (n : Nat) (s : State) : Host.Outcome State Fault Refusal := portCmd s n (fun s => sendDisc s n)

/-! ### Time synchronisation (R349, R350) -/

/-- TSYNC_REQUEST: a follower port asks. -/
def execTsyncRequest (n : Nat) (s : State) : Host.Outcome State Fault Refusal :=
  portCmd s n (fun s =>
    let p := getPort s n
    if p.st == .active && portFollows s n then
      let q := (p.tseq + 1) % 65536
      let s := modPort s n (fun p => { p with tseq := q, tsOpen := true })
      enqueue s n [mkFlit 2 3 0 true true false p.pnode s.lnk.node 0 (tsyncPayload q false 0 0 0) 0]
    else s)

/-- The answer to the oldest request that waits. -/
def tsAnswer (s : State) (n : Nat) : State :=
  let p := getPort s n
  match p.tsAsk with
  | [] => s
  | (q, t1, t2) :: l =>
    if p.st == .active then
      let s := modPort s n (fun p => { p with tsAsk := l })
      enqueue s n [mkFlit 2 3 0 true true false p.pnode s.lnk.node 0 (tsyncPayload q true t1 t2 0) 0]
    else s

/-- TSYNC_ANSWER. -/
def execTsyncAnswer (n : Nat) (s : State) : Host.Outcome State Fault Refusal := portCmd s n (fun s => tsAnswer s n)

/-- A response with its stamps: θ and δ, and the FTC's correction in LINK mode (R350, R464, R465). -/
def tsResponse (s : State) (n q t1 t2 t3 t4 : Nat) : State :=
  let p := getPort s n
  if p.st == .active && p.tsOpen && q == p.tseq then
    let up : Int := (t2 : Int) - t1
    let dn : Int := (t4 : Int) - t3
    let theta := halfZero (up - dn)
    let delta := halfZero (up + dn)
    let s := modPort s n (fun p => { p with tsOpen := false, theta := codeOf 64 theta, delta := codeOf 64 delta })
    ftcTheta s n theta delta
  else s

/-- TSYNC_RESPONSE. -/
def execTsyncResponse (n tseq t1 t2 t3 t4 : Nat) (s : State) : Host.Outcome State Fault Refusal :=
  portCmd s n (fun s => tsResponse s n tseq t1 t2 t3 t4)

end Sys2Proof.Machine
end

