-- ==== Sys2Proof/Machine/Fabric.lean ====
section
/-! DEFINITION. Transfers between clusters, their arrival and delivery, and the atomic units of the stacks (R127, R130, R178,
R180, R242 to R244, R289 to R301, R310, R313, R345, R346, R431, R443, R460). -/

namespace Sys2Proof.Machine

/-! ### Rectangles and routes (R290, R295, R301, R304) -/

/-- A cluster's position lies in a region's rectangle. -/
def inRect (x0 y0 w h c : Nat) : Bool :=
  decide ((cluX c + 48 - x0) % 48 < w) && decide ((cluY c + 32 - y0) % 32 < h)

/-- A region's rectangle holds the position; false for a pool region. -/
def regionRect (d : Region) (c : Nat) : Bool := d.pipe && inRect d.x0 d.y0 d.w d.h c

/-- The station is ROUTED (R300). -/
def stationRouted (s : State) (c : Nat) : Bool :=
  s.hub.regions.any (fun r => regionRect r.2 c || r.2.members.contains c)

/-- The coordinates that a torus transfer passes on one axis of `n` positions, its last one included: the shorter way round
where the rectangle spans the axis in full, else the way that stays inside the rectangle (R290). -/
def axisPath (n a b lo len : Nat) : List Nat :=
  let up := (b + n - a) % n
  let plus := if len = n then decide (up ≤ n / 2) else decide ((a + n - lo) % n ≤ (b + n - lo) % n)
  if plus then (List.range up).map (fun i => (a + i + 1) % n)
  else (List.range ((a + n - b) % n)).map (fun i => (a + 2 * n - i - 1) % n)

/-- The positions that a torus transfer reaches, its target last: along X, then along Y (R290). -/
def torusPath (d : Region) (c t : Nat) : List Nat :=
  (axisPath 48 (cluX c) (cluX t) d.x0 d.w).map (fun x => cluAt x (cluY c)) ++
    (axisPath 32 (cluY c) (cluY t) d.y0 d.h).map (fun y => cluAt (cluX t) y)

/-- The pipeline region whose rectangle holds a slot's cluster and the target (R295). -/
def torusRegion (s : State) (c sl t : Nat) : Option Region :=
  match slotCtx s c sl with
  | none => none
  | some x => match getRegion s x.region with
    | none => none
    | some d => if regionRect d c && regionRect d t then some d else none

/-- A torus transfer's turn falls on a bypassed position, or its route crosses a fenced die (R301, R542). -/
def blocked (s : State) (d : Region) (c t : Nat) : Bool :=
  (cluX c != cluX t && cluY c != cluY t && (getClu s (cluAt (cluX t) (cluY c))).bypass) ||
    (torusPath d c t).dropLast.any (fun p => (getClu s p).stationOff)

/-- A transfer of a slot to a cluster would take the torus, but its way there is blocked (R295, R301, R542). -/
def detours (s : State) (c sl t : Nat) : Bool :=
  match torusRegion s c sl t with
  | none => false
  | some d => blocked s d c t

/-! ### Ways (R291 to R295)

Outputs have numbers: 8c + 0 to 3 of the station of cluster `c` towards +X, −X, +Y, −Y, 8c + 4 its express port; from 2^14 on
those of the switches, 2,048 for each die, the hub die being 24: to die `e` the `e`-th, to cluster `c` the (32 + c)-th. -/

/-- The links along one axis of `n` positions from position `a` on, with the output of each: channel 1 from a wrap link on. -/
def axisHops (n : Nat) (out : Nat → Bool → Nat) : Nat → Nat → List Nat → List Hop
  | _, _, [] => []
  | vc, a, b :: l =>
    let wrap := decide (a + 1 = n ∧ b = 0) || decide (a = 0 ∧ b + 1 = n)
    let vc := if wrap then 1 else vc
    ⟨out a ((a + 1) % n == b), vc, 512⟩ :: axisHops n out vc b l

/-- The outputs of a torus transfer; it turns on channel 0 (R291). -/
def torusHops (d : Region) (c t : Nat) : List Hop :=
  axisHops 48 (fun x plus => 8 * cluAt x (cluY c) + b2n (!plus)) 0 (cluX c) (axisPath 48 (cluX c) (cluX t) d.x0 d.w) ++
    axisHops 32 (fun y plus => 8 * cluAt (cluX t) y + 2 + b2n (!plus)) 0 (cluY c) (axisPath 32 (cluY c) (cluY t) d.y0 d.h)

/-- The outputs of the switches from die `a` to cluster `t` (R293). -/
def switchHops (a t : Nat) : List Hop :=
  let out := fun a o => 2 ^ 14 + 2048 * a + o
  let e := dieOf t
  (if a = e then [] else [⟨out a e, 0, if a = 24 then 256 else 128⟩]) ++ [⟨out e (32 + t), 0, 64⟩]

/-- The way of a transfer that sets out at a switch. -/
def expressWay (k : Cls) (a t : Nat) : Way := { cls := k, path := [], hops := switchHops a t, left := 0, lost := 0 }

/-- The way of an operation's transfer (R295): the stations in bypass receive nothing (R301). -/
def opWay (s : State) (c sl : Nat) (k : Cls) (t : Nat) : Way :=
  let away := { expressWay k (dieOf c) t with hops := ⟨8 * c + 4, 0, 64⟩ :: switchHops (dieOf c) t }
  match torusRegion s c sl t with
  | none => away
  | some d =>
    if blocked s d c t then away
    else { away with path := (torusPath d c t).filter (fun p => !(getClu s p).bypass), hops := torusHops d c t }

/-- A transfer's place at its output: promoted after 16 losses in a row; then by class (R291). Of several promoted ones the one that has
lost longest goes first, and those of one class go in the order in which they set out (DESIGN CHOICE, log entry 95). -/
def wayFirst (a b : Xfer) : Bool :=
  let turn := fun (x : Xfer) => if 16 ≤ x.way.lost then x.way.lost else 0
  if turn a = turn b then decide (clsCode a.way.cls < clsCode b.way.cls) else decide (turn b < turn a)

/-- The bytes that a transfer moves through each output. -/
def Xfer.size (x : Xfer) : Nat := max 1 (natSum (x.data.map (fun p => p.2.1.length)))

/-- No transfer that waits at the same output goes before `x` (R291, R294). -/
def servedFirst (l : List Xfer) (x : Xfer) : Bool :=
  match x.way.hops with
  | [] => true
  | h :: _ =>
    (sortBy wayFirst (l.filter (fun y => y.way.hops.head?.map (·.out) == some h.out))).head?.map (·.id) == some x.id

/-- One cycle of a transfer: at its output the first of those that wait there moves on, the others lose (R291, R294). -/
def wayCycle (l : List Xfer) (x : Xfer) : Xfer :=
  match x.way.hops with
  | [] => x
  | h :: hs =>
    if servedFirst l x then
      { x with way := { x.way with
        hops := if x.way.left ≤ h.beat then hs else h :: hs
        left := if x.way.left ≤ h.beat then x.size else x.way.left - h.beat, lost := 0 } }
    else { x with way := { x.way with lost := x.way.lost + 1 } }

/-- One cycle of the stations and switches; an Eclipse stop and a shutdown halt them (R478, R495). -/
def wayTick (s : State) : State :=
  if eclHalted s || s.pow.shut.isSome then s else { s with hub.xfers := s.hub.xfers.map (wayCycle s.hub.xfers) }

/-! ### Whom a transfer is for (R297, R298, R310, R313) -/

/-- The contexts of function `f` that claim a slot of the cluster that answers to `t`. -/
def claimants (s : State) (f t slot : Nat) : List Ctx :=
  s.hub.ctxs.filter (fun x => x.f == f && x.clu == boundClu s t && x.slot == slot)

/-- The context that R298 selects: of the load, or the only one of the function. -/
def selectCtx (s : State) (f : Nat) (load : Option Nat) (t slot : Nat) : Option Ctx :=
  match load with
  | some l => (claimants s f t slot).find? (fun x => x.load == l)
  | none => match claimants s f t slot with
    | [x] => some x
    | _ => none

/-- The station of a cluster cannot be reached, or is that of a lost cluster whose compute domain is off or whose link
interface or scratchpad does not work (R299, R313). -/
def noReach (s : State) (c : Nat) : Bool :=
  let k := getClu s c
  k.bypass || k.stationOff || (k.lost && (k.compOff || k.ifDead))

/-! ### Writes and reductions at a slot (R127, R130, R345, R346) -/

/-- The words of a write: context address and bytes of each. -/
def splitWords (a : Nat) (bs : List Byte) : List (Nat × List Byte) :=
  (wordsOf a bs.length).map (fun w =>
    let lo := max a (32 * w)
    (lo, (bs.drop (lo - a)).take (min (a + bs.length) (32 * w + 32) - lo)))

/-- One word written through the link interface of cluster `c`: dropped and counted beyond the partition or on a poisoned
word that it covers in part. -/
def linkWord (c sl : Nat) (poison : Bool) (s : State) (p : Nat × List Byte) : State :=
  if p.1 + p.2.length ≤ partSize s c sl then
    let (s, k) := spadWrite s c .link (partBase s c sl + p.1) p.2 poison
    bumpC s c oSpadDrop k
  else bumpC s c oSpadDrop 1

/-- Bytes written through the link interface. -/
def linkWrite (s : State) (c sl a : Nat) (bs : List Byte) (poison : Bool) : State :=
  if a + bs.length ≤ partSize s c sl then
    let (s, k) := spadWrite s c .link (partBase s c sl + a) bs poison
    bumpC s c oSpadDrop k
  else (splitWords a bs).foldl (linkWord c sl poison) s

/-- One 4-byte value of a reduction: the target's value first (R345). -/
def redWord (rop : Nat) (cur inc : List Byte) : FV :=
  let x := BitVec.ofNat 32 (leNat cur)
  let y := BitVec.ofNat 32 (leNat inc)
  match rop with
  | 0 => fAdd (fvOf x) (fvOf y)
  | 1 => ⟨x + y, false, false⟩
  | _ => fMax (fvOf x) (fvOf y)

/-- The values of a reduction. -/
def redVals (rop : Nat) (cur inc : List Byte) : List FV :=
  ((chunks 4 cur).zip (chunks 4 inc)).map (fun p => redWord rop p.1 p.2)

/-- The events that the values of a reduction count; integer sums have none. -/
def redEvents (rop : Nat) (vs : List FV) : List (Bool × Bool) :=
  if rop = 1 then [] else vs.map (fun v => (v.sat, v.nan))

/-- One word reduced at a slot: dropped beyond the partition, and on a poisoned word. -/
def linkRedWord (c sl rop : Nat) (poison : Bool) (s : State) (p : Nat × List Byte) : State :=
  if p.1 + p.2.length ≤ partSize s c sl then
    let a := partBase s c sl + p.1
    let (s, cur, ps) := spadRead s c .link a p.2.length
    if ps.any id then bumpC s c oSpadDrop 1
    else
      let vs := redVals rop cur p.2
      let (s, k) := spadWrite s c .link a (vs.flatMap f32Bytes) poison
      countEvents (bumpC s c oSpadDrop k) c (redEvents rop vs)
  else bumpC s c oSpadDrop 1

/-- A piece of a transfer: context address, bytes, poison. -/
abbrev Piece := Nat × List Byte × Bool

/-- Words with their poison marks, runs of one mark joined: address, bytes, mark of each run (R441). -/
def joinMarks : List Piece → List Piece
  | [] => []
  | p :: ps =>
    match joinMarks ps with
    | q :: qs => if p.2.2 = q.2.2 then (p.1, p.2.1 ++ q.2.1, p.2.2) :: qs else p :: q :: qs
    | [] => [p]

/-- Bytes at an address as pieces of one poison mark each; `poi` numbers the poisoned 32-byte words of the bytes. -/
def markPieces (a : Nat) (bs : List Byte) (poi : List Nat) : List Piece :=
  if poi.isEmpty then (if bs.isEmpty then [] else [(a, bs, false)])
  else
    let ws := chunks 32 bs
    joinMarks ((List.range ws.length).map (fun i => (a + 32 * i, nth [] ws i, poi.contains i)))

/-- One piece delivered to a resident context's slot. -/
def deliverPiece (c sl : Nat) (k : XKind) (s : State) (p : Piece) : State :=
  match k with
  | .write => linkWrite s c sl p.1 p.2.1 p.2.2
  | .red rop => (splitWords p.1 p.2.1).foldl (linkRedWord c sl rop p.2.2) s
  | .read => s
  | .sig => s

/-- The words of a read for another cluster: the bytes of each, zeros and counted beyond the partition; whether a word is poisoned
(R127, R130). -/
def linkRead (c sl : Nat) : List (Nat × List Byte) → State → State × List Byte × Bool
  | [], s => (s, [], false)
  | w :: ws, s =>
    let (s, bs, bad) :=
      if w.1 + w.2.length ≤ partSize s c sl then
        let (s, bs, ps) := spadRead s c .link (partBase s c sl + w.1) w.2.length
        (s, bs, ps.any id)
      else (bumpC s c oSpadDrop 1, List.replicate w.2.length 0, false)
    let (s, cs, rest) := linkRead c sl ws s
    (s, bs ++ cs, bad || rest)

/-- One word applied to the saved image of a swapped-out context: its partition lies in the save record (R431, R454). -/
def savedWord (x : Ctx) (q : Cls) (k : XKind) (poison : Bool) (s : State) (p : Nat × List Byte) : State :=
  if p.1 + p.2.length ≤ x.panels * 2 ^ 21 then
    match k with
    | .write => physWrite s q (x.saveAt + p.1) p.2 poison
    | .red rop =>
      let (s, cur, ps) := physRead s q (x.saveAt + p.1) p.2.length
      if ps.any id then bumpC s x.clu oSpadDrop 1
      else
        let vs := redVals rop cur p.2
        countEvents (physWrite s q (x.saveAt + p.1) (vs.flatMap f32Bytes) poison) x.clu (redEvents rop vs)
    | .read => s
    | .sig => s
  else bumpC s x.clu oSpadDrop 1

/-- One piece applied to a saved image. -/
def savedPiece (x : Ctx) (q : Cls) (k : XKind) (s : State) (p : Piece) : State :=
  (splitWords p.1 p.2.1).foldl (savedWord x q k p.2.2) s

/-- A saved slot's arrival counter raised. -/
def bumpSaved (s : State) (x : Ctx) (n : Nat) : State :=
  modCtxs s (fun y => y.id == x.id) (fun y =>
    { y with saved := y.saved.map (fun k => { k with ac := tabSet k.ac n (tabGet 0 k.ac n + 1) }) })

/-- The pieces, then the increment, for the selected context (R178, R431). -/
def deliverTo (s : State) (y : Ctx) (q : Cls) (k : XKind) (ps : List Piece) (ctr : Option Nat) : State :=
  let s := if y.resident then ps.foldl (deliverPiece y.clu y.slot k) s else ps.foldl (savedPiece y q k) s
  match ctr with
  | none => s
  | some n => if y.resident then bumpAc s y.clu y.slot n else bumpSaved s y n

/-- A transfer for which no context is selected (R130, R180, R297). -/
def dropAll (s : State) (c : Nat) (ps : List Piece) (ctr : Option Nat) : State :=
  let s := bumpC s c oSpadDrop (natSum (ps.map (fun p => (wordsOf p.1 p.2.1.length).length)))
  if ctr.isSome then bumpC s c oAcDrop 1 else s

/-! ### Transfers (R289, R295 to R299) -/

/-- One acknowledgement reaches its operation. -/
def ackOp (s : State) (op : Option (Nat × Nat × Nat)) : State :=
  match op with
  | none => s
  | some (c, sl, t) =>
    match findOp s c sl t with
    | none => s
    | some o =>
      match o.phase with
      | .sent n p => setPhase s c o (if n ≤ 1 then .done else .sent (n - 1) p)
      | _ => s

/-- A transfer has ended: it leaves the list, and is acknowledged to its source. -/
def endXfer (s : State) (x : Xfer) : State :=
  let s := { s with hub.xfers := s.hub.xfers.filter (fun y => y.id != x.id) }
  let s := ackOp s x.op
  match x.eack with
  | none => s
  | some e => sendEack s e 0

/-- `s` with one more transfer on its way. -/
def addXfer (s : State) (x : Xfer) : State :=
  { s with hub.xfers := s.hub.xfers ++ [{ x with id := s.hub.nextXfer, way := { x.way with left := x.size } }], hub.nextXfer := s.hub.nextXfer + 1 }

/-- The words of the pieces, each a piece of its own, with those of the list marked poisoned. -/
def markWords (ue : List Nat) (ps : List Piece) : List Piece :=
  if ue.isEmpty then ps
  else
    let ws := ps.flatMap (fun p => (splitWords p.1 p.2.1).map (fun w => (w.1, w.2, p.2.2)))
    (List.range ws.length).map (fun i =>
      let w := nth (0, [], false) ws i
      (w.1, w.2.1, w.2.2 || ue.contains i))

/-- The station that receives a transfer on link `i` of its way: its target behind the last one, and on the express network
(R289, R294). -/
def linkEnd (x : Xfer) (c i : Nat) : Nat := x.way.path[i]?.getD c

/-- The receiving stations count what they corrected and what they could not (R289). -/
def countLinks (s : State) (x : Xfer) (c : Nat) (ce : List Nat) (ue : List (Nat × Nat)) : State :=
  let s := ce.foldl (fun s i => bumpC s (linkEnd x c i) oFabCorr 1) s
  ue.foldl (fun s p => bumpC s (linkEnd x c p.1) oFabUncorr 1) s

/-- An earlier RED of another module for the same cluster has not been applied: they are applied in their order (R346). -/
def redWaits (s : State) (x : Xfer) : Bool :=
  let red := fun (y : Xfer) => match y.kind with | .red _ => y.eack.isSome | _ => false
  red x && s.hub.xfers.any (fun y => red y && decide (y.id < x.id) && boundClu s y.tclu == boundClu s x.tclu)

/-- The operation that receives a poisoned word of a read faults (R127); another receives the bytes, and its read ends. -/
def endRead (s : State) (x : Xfer) (bs : List Byte) (bad : Bool) : State :=
  match x.op with
  | none => endXfer s x
  | some (c, sl, t) =>
    match findOp s c sl t, bad with
    | some o, true => opFault { s with hub.xfers := s.hub.xfers.filter (fun y => y.id != x.id) } c o cSpadUncorr 0
    | some o, false => endXfer (putOp s c { o with got := some ⟨bs, [], none, 0⟩ }) x
    | none, _ => endXfer s x

/-- A transfer that is answered without its target: a write ends, a read gets zeros (R130, R297, R299). -/
def answerXfer (s : State) (x : Xfer) : State :=
  if x.kind = .read then endRead s x (List.replicate (natSum (x.data.map (fun p => p.2.1.length))) 0) false else endXfer s x

/-- The arrival of a transfer at its station (R289, R297 to R300, R313), whatever of its way it has still had ahead: where others
wait at its present output, it arrives only as the first of them (R291). -/
def arrive (ce : List Nat) (ue : List (Nat × Nat)) (x : Xfer) (s : State) : State :=
  let c := boundClu s x.tclu
  if noReach s c || !cluRuns s c || redWaits s x || !servedFirst s.hub.xfers x then s
  else
    match selectCtx s x.f x.load x.tclu x.tslot with
    | none => answerXfer (dropAll (countLinks s x c ce ue) c x.data x.ctr) x
    | some y =>
      if y.switching || (!y.resident && stackWaits s (stackOf y.saveAt)) then s
      else
        let s := countLinks s x c ce ue
        let ps := markWords (ue.map (·.2)) x.data
        if x.kind = .read ∧ y.resident = true then
          let (s, bs, bad) := linkRead y.clu y.slot (ps.flatMap (fun p => splitWords p.1 p.2.1)) s
          endRead s x bs (bad || !ue.isEmpty)
        else
          let s := endXfer (deliverTo s y x.way.cls x.kind ps x.ctr) x
          if x.item.isSome then refreshClass s y.region else s

/-- The transfer number `id`. -/
def findXfer (s : State) (id : Nat) : Option Xfer := s.hub.xfers.find? (fun x => x.id == id)

/-- TRANSFER_ARRIVAL. -/
def execTransferArrival (id : Nat) (ce : List Nat) (ue : List (Nat × Nat)) (s : State) : Host.Outcome State Fault Refusal :=
  hubCmd s (fun s => match findXfer s id with | none => s | some x => arrive ce ue x s)

/-- SWITCH_NOREACH: the transfer's target cannot be reached; the stations that it has passed count what they received (R289, R299,
R313). -/
def execSwitchNoreach (e : XferEnd) (s : State) : Host.Outcome State Fault Refusal :=
  hubCmd s (fun s => match findXfer s e.id with
    | none => s
    | some x =>
      let c := boundClu s x.tclu
      if noReach s c && !eclHalted s then answerXfer (bump (countLinks s x c e.ce e.ue) aNoReach 1) x else s)

/-! ### Atomics at the stacks (R244, R345, R443, R460) -/

/-- The physical codeword parts of pieces: address and length of each. -/
def cwParts (ps : List (Nat × Nat)) : List (Nat × Nat) :=
  ps.flatMap (fun p => (cwsOf p.1 p.2).map (fun w =>
    let lo := max p.1 (64 * w)
    (lo, min (p.1 + p.2) (64 * w + 64) - lo)))

/-- Read the codewords of the parts, each once: their 64 bytes, and which are poisoned. -/
def readParts (s : State) : List (Nat × Nat) → State × List (List Byte × Bool)
  | [] => (s, [])
  | (p, _) :: ps =>
    let (s, bs, bad) := cwRead s (p / 64)
    let (s, rest) := readParts s ps
    (s, (bs, bad) :: rest)

/-- The bytes of an atomic's data from which the `n` target bytes from `o` come, as offset and length (R242, R244, R345). -/
def atomFrom (k : AKind) (o n : Nat) : Nat × Nat :=
  match k with
  | .mrg dim =>
    let r := 16 + 4 * dim
    let m := 8 + 2 * dim
    (o / r * m, ((o + n + r - 1) / r - o / r) * m)
  | _ => (o, n)

/-- A part of an atomic's target takes data of a poisoned word (R441). -/
def atomPoi (a : Atom) (o n : Nat) : Bool :=
  let (x, m) := atomFrom a.kind o n
  a.poi.any (fun w => overlaps x m (32 * w) 32)

/-- A codeword as read, with the bytes of a part replaced, is written whole (R442). -/
def cwUpdate (s : State) (p : Nat) (old new : List Byte) (poison : Bool) : State :=
  let i := p % 64
  let bs := old.take i ++ new ++ old.drop (i + new.length)
  storeCw { s with mem.dev := memPut s.mem.dev (p / 64 * 64) bs } (p / 64) poison

/-- Write the parts of `new` whose codewords were not found poisoned; count the others (R443). `o` is the first part's offset. -/
def writeParts (s : State) (a : Atom) (new : List Byte) (o : Nat) : List ((Nat × Nat) × List Byte × Bool) → State
  | [] => s
  | ((p, n), old, bad) :: l =>
    let s := if bad then bump s (stkAddr (stackOf p) 0x10) 1 else cwUpdate s p old (new.take n) (atomPoi a o n)
    writeParts s a (new.drop n) (o + n) l

/-- The bytes of the parts in codewords as read. -/
def partBytes (l : List ((Nat × Nat) × List Byte × Bool)) : List Byte :=
  l.flatMap (fun x => (x.2.1.drop (x.1.1 % 64)).take x.1.2)

/-- The records of a merge, each with its message (R242 to R244). -/
def mergeAll (dim : Nat) (old msg : List Byte) : List Byte :=
  ((chunks (16 + 4 * dim) old).zip (chunks (8 + 2 * dim) msg)).flatMap (fun p => mrgApply dim p.1 p.2)

/-- The new bytes of an atomic's target. -/
def atomBytes (k : AKind) (old msg : List Byte) : List Byte :=
  match k with
  | .red rop => (redVals rop old msg).flatMap f32Bytes
  | .mrg dim => mergeAll dim old msg
  | .mailbox _ _ _ => msg

/-- The bytes of an atomic's target change: each codeword is read once and written once, in two bursts (R442, R460); mailbox records among them
are reported (R418). -/
def atomWrite (s : State) (a : Atom) : State :=
  let parts := cwParts a.pieces
  let ask := fun (s : State) (p : Nat × Nat) => memAsk s (reqLevel false a.cls) (64 * (p.1 / 64)) 64
  let s := parts.foldl (fun s p => ask (ask s p) p) s
  let (s, rs) := readParts s parts
  let l := parts.zip rs
  mailReport (writeParts s a (atomBytes a.kind (partBytes l) a.data) 0 l) a.f a.pieces

/-- Acknowledgements of a stack's operation: at once, or at the restart of an Eclipse stop (R479). -/
def stackAcks (s : State) (op : Option (Nat × Nat × Nat)) (eack : Option (Nat × Nat × Nat × Nat)) : State :=
  if op.isNone && eack.isNone then s
  else if eclHalted s then { s with ecl.acks := s.ecl.acks ++ [(op, eack)] }
  else
    let s := ackOp s op
    match eack with
    | none => s
    | some e => sendEack s e 0

/-- The stacks whose atomic units take an atomic: two where its range crosses from one window into the next. -/
def atomStacks (a : Atom) : List Nat := uniq (a.pieces.map (fun p => stackOf p.1))

/-- The stack from which its acknowledgement sets out. -/
def atomStack (a : Atom) : Nat := match a.pieces with | (p, _) :: _ => stackOf p | [] => 0

/-- What follows an apply: the counter's increment travels to its cluster and carries the acknowledgements; without a counter
they are made at once (R178, R244, R341). -/
def atomEnds (s : State) (a : Atom) : State :=
  match a.ctr with
  | some n =>
    addXfer s { id := 0, kind := .sig, op := a.op, f := a.f, load := a.load, tclu := a.tclu, tslot := a.tslot, data := []
                ctr := some n, eack := a.eack, way := expressWay a.cls (stackDie (atomStack a)) (boundClu s a.tclu) }
  | none => stackAcks s a.op a.eack

/-- An atomic joins the queues of its stacks (R346, R460). -/
def addAtom (s : State) (a : Atom) : State :=
  { s with mem.atoms := (atomStacks a).foldl (fun t k => tabPut [] t k (tabGet [] t k ++ [a])) s.mem.atoms }

/-- An atomic leaves the queues of its stacks, at whose heads it stands. -/
def dropAtom (s : State) (a : Atom) : State :=
  { s with mem.atoms := (atomStacks a).foldl (fun t k => tabPut [] t k ((tabGet [] t k).drop 1)) s.mem.atoms }

/-- An atomic is the oldest at each of its stacks, and none of them makes requests wait (R451, R460). -/
def atomReady (s : State) (a : Atom) : Bool :=
  (atomStacks a).all (fun k => (tabGet [] s.mem.atoms k).head? == some a && !stackWaits s k)

/-- ATOMIC_APPLY: the oldest atomic of a stack is applied whole, with the words of its data poisoned that the express network has hit
beyond repair (R294, R441). One that stands behind another at a second stack waits there. -/
def doAtomic (e : AtomEnd) (s : State) : State :=
  match tabGet [] s.mem.atoms e.stack with
  | [] => s
  | a :: _ => if atomReady s a then atomEnds (atomWrite (dropAtom s a) { a with poi := a.poi ++ e.ue }) a else s

/-- ATOMIC_APPLY. -/
def execAtomicApply (e : AtomEnd) (s : State) : Host.Outcome State Fault Refusal := stackCmd s e.stack (doAtomic e)

end Sys2Proof.Machine
end

