-- ==== Sys2Proof/Machine/Kv.lean ====
section
/-! DEFINITION. KVA and COMMIT, and the walker's directory header of a slot (R214, R218, R219, R221 to R232). -/

namespace Sys2Proof.Machine

/-! ### A slot's directory (R214, R218, R219) -/

/-- `s` with the walker's header of a slot changed. -/
def modHdr (s : State) (c sl : Nat) (g : KvHdr → KvHdr) : State :=
  modSlot s c sl (fun k => { k with kvHdr := k.kvHdr.map g })

/-- A context's directory comes with it into its slot: CLU_KV_DIR is set and the header is read. -/
def kvEnter (s : State) (c sl f dir : Nat) : State :=
  let (s, h) := match tenRead s (getSlot s c sl).cls f dir 64 with
    | none => (s, none)
    | some (s, bs, poi) => (s, if poi then none else some (hdrOf dir bs))
  modSlot s c sl (fun k => { k with kvdir := some dir, kvHdr := h })

/-- A context leaves its slot: the pool counts are written back and the slot's look-aside entries are dropped. -/
def kvLeave (s : State) (c sl : Nat) : State :=
  let s := match (getSlot s c sl).kvHdr with
    | none => s
    | some h =>
      let f := slotFn s c sl
      let k := (getSlot s c sl).cls
      tenWrite (tenWrite s k f (h.base + 24) (leBytes 4 h.hcount) false) k f (h.base + 40) (leBytes 4 h.ccount) false
  modSlot (dropLb s c (2 ^ sl)) c sl (fun k => { k with kvdir := none, kvHdr := none })

/-! ### Quantised rows (R213, R223) -/

/-- One head's row: its five pieces and the events of its conversions. -/
structure RowOut where
  pieces : List (List Byte)
  evs : List (Bool × Bool)
  deriving DecidableEq, Repr

/-- The row of KV head number `h` of a KVA, with its channels. -/
def kvaRow (o : Op) (dim : Nat) (chs : List Nat) (h : Nat) (k v : List FV) : RowOut :=
  let (kc, ke, kev) := kvQuant chs (fun _ => .rne) k
  let (vc, ve, vev) := kvQuant [] (fun i => rngAt o.rng (h * dim + i)) v
  ⟨[pack 4 kc, pack 4 vc, leBytes 1 ke, leBytes 1 ve, kvSatRec dim chs k], kev ++ vev⟩

/-- The rows of a KVA: share head and row. -/
def kvaRows (o : Op) (sh : Share) (k v : List FV) : List (Nat × RowOut) :=
  (List.range (kHeads o.desc)).map (fun h =>
    let n := kHead0 o.desc + h - sh.kvh0
    (n, kvaRow o sh.d (nth [] sh.chs n) h ((k.drop (h * sh.d)).take sh.d) ((v.drop (h * sh.d)).take sh.d)))

/-- The writes of a KVA in its page. -/
def kvaPieces (sh : Share) (row : Nat) (rs : List (Nat × RowOut)) : List (Nat × List Byte) :=
  rs.flatMap (fun r => rowPut sh.d r.1 row r.2.pieces)

/-! ### The page of a KVA (R221, R224) -/

/-- Every piece lies in the windows, where the page is cold. -/
def piecesOk (s : State) (c sl p : Nat) (ps : List (Nat × List Byte)) : Bool :=
  pteTier p != 2 || ps.all (fun x => tenOk s (slotFn s c sl) (pteAddr p + x.1) x.2.length)

/-- The partly covered words of writes to a hot page, in their order. -/
def piecePart (s : State) (c : Nat) (o : Op) (p : Nat) (ps : List (Nat × List Byte)) : List Nat :=
  if pteTier p ≠ 1 then []
  else ps.flatMap (fun x =>
    ((accessCuts false (partBase s c o.sl + pteAddr p + x.1) x.2.length).filter (fun y => !y.2.2)).map (fun y => y.1 / 32))

/-- Read the entry at the top of a stack of free pages. -/
def popRead (s : State) (c : Nat) (o : Op) (h : KvHdr) (size : Nat) (g : State → Nat → State) : State :=
  let hot := h.hcount != 0
  let a := if hot then h.hpool + 8 * (h.hcount - 1) else h.cpool + 8 * (h.ccount - 1)
  if !hot && h.ccount == 0 then opFault s c o cKvPool 0
  else walkRead s c o a 8 (fun s bs =>
    if pteOk s c o.sl (leNat bs) size then g s (leNat bs) else opFault s c o cKvPte 0)

/-- The page of a KVA's position: its PTE, and whether it is popped. An INVALID page is replaced by a popped one also where it holds
committed positions (R221 against R224; DEDUCED, log entry 94). -/
def kvaPage (s : State) (c : Nat) (o : Op) (sh : Share) (page : Nat) (g : State → Nat → Bool → State) : State :=
  let size := pageBytes sh.d sh.nkv
  withPte s c o sh.seq sh.layer sh.pt page (fun s p =>
    if pteTier p = 0 then withHdr s c o (fun s h => popRead s c o h size (fun s e => g s (e - 4 * bit e 2) true))
    else if pteShared p || !pteOk s c o.sl p size then opFault s c o cKvPte 0
    else g s p false)

/-- A page popped for a share: the stack, the PTE, the count (R224). -/
def popDone (s : State) (c : Nat) (o : Op) (sh : Share) (page p : Nat) : State :=
  let s := modHdr s c o.sl (fun h => if h.hcount != 0 then { h with hcount := h.hcount - 1 }
    else { h with ccount := h.ccount - 1 })
  bumpC (walkWrite s c o (sh.pt + 8 * page) (leBytes 8 p)) c oKvAlloc 1

/-! ### KVA -/

/-- The checks of a KVA before its page (R223, R224, R232): the fault. -/
def kvaBad (d : List Byte) (sh : Share) : Option Nat :=
  if kvaSizes d sh.d = false then some cAttRange
  else if (attHeads d).any (fun h => decide (h < sh.kvh0) || decide (sh.kvh0 + sh.nkv ≤ h)) then some cKvHead
  else if sh.f + sh.cap ≤ sh.c + kvaTslot d then some cKvCap
  else none

/-- The row, the mask and TAILOCC of a KVA are written (R224); a poisoned word that a row covers in part faults it, and then nothing
has changed beside the word's mark and count (R127). -/
def kvaPut (c : Nat) (o : Op) (sh : Share) (p : Nat) (popped : Bool) (rs : List (Nat × RowOut)) (s : State) : State :=
  let t := kvaTslot o.desc
  let page := (sh.c + t - sh.f) / 256
  let ps := kvaPieces sh ((sh.c + t - sh.f) % 256) rs
  if !piecesOk s c o.sl p ps then opFault s c o cMemWindow 0
  else
    let s1 := if popped then popDone s c o sh page p else s
    let (s1, bad) := piecesWrite s1 c o p ps
    if bad then opFault (tryWords s c (piecePart s c o p ps)) c o cSpadUncorr 0
    else
      let s1 := walkWrite s1 c o (sh.addr + 64 + 8 * t) (leBytes 8 (kvaAnc o.desc))
      let s1 := walkWrite s1 c o (sh.addr + 24) (leBytes 8 (sh.occ ||| 2 ^ t))
      setPhase (countEvents s1 c (rs.flatMap (fun r => r.2.evs))) c o .done

/-- KVA (R223 to R226). -/
def doKva (c : Nat) (o : Op) (s : State) : State :=
  let d := o.desc
  withShare s c o (fun s sh =>
    match kvaBad d sh with
    | some code => opFault s c o code 0
    | none =>
      kvaPage s c o sh ((sh.c + kvaTslot d - sh.f) / 256) (fun s p popped =>
        plainSource s c o (opnd d 16) (kHeads d * sh.d) (fun s k =>
          plainSource s c o (opnd d 24) (kHeads d * sh.d) (fun s v =>
            kvaPut c o sh p popped (kvaRows o sh k v) s))))

/-- KVA. -/
def execKva (c sl t : Nat) (s : State) : Host.Outcome State Fault Refusal := attCmd s c sl t opKVA (doKva c)

/-! ### COMMIT (R227 to R230) -/

/-- The path's slots meet R228: occupied, rising, each mask exactly the slots before it. -/
def pathOk (sh : Share) : List Nat → Nat → Option Nat → Bool
  | [], _, _ => true
  | p :: ps, mask, last =>
    sh.occupied p && (match last with | none => true | some x => decide (x < p)) && nth 0 sh.anc p == mask &&
      pathOk sh ps (mask + 2 ^ p) (some p)

/-- The copies of a path: from and to position (R229). -/
def copies (c0 : Nat) (path : List Nat) : List (Nat × Nat) :=
  ((List.range path.length).map (fun k => (c0 + nth 0 path k, c0 + k))).filter (fun x => x.1 != x.2)

/-- The PTE of each position of a list; KV_PTE on a page that R221 rejects. -/
def withPlaces (c : Nat) (o : Op) (sh : Share) (g : State → List (Nat × Nat) → State) :
    List Nat → List (Nat × Nat) → State → State
  | [], acc, s => g s acc.reverse
  | p :: ps, acc, s =>
    withPte s c o sh.seq sh.layer sh.pt ((p - sh.f) / 256) (fun s e =>
      if pteShared e || !pteOk s c o.sl e (pageBytes sh.d sh.nkv) then opFault s c o cKvPte 0
      else withPlaces c o sh g ps ((e, (p - sh.f) % 256) :: acc) s)

/-- One row of every share head at a place. -/
def readPlace (s : State) (c : Nat) (o : Op) (sh : Share) (p r : Nat) (g : State → List (List Byte) → State) : State :=
  readPieces2 false s c o p g ((List.range sh.nkv).flatMap (fun n => rowPieces sh.d n r)) []

/-- The rows at a list of places. -/
def readPlaces (c : Nat) (o : Op) (sh : Share) (g : State → List (List (List Byte)) → State) :
    List (Nat × Nat) → List (List (List Byte)) → State → State
  | [], acc, s => g s acc.reverse
  | (p, r) :: l, acc, s => readPlace s c o sh p r (fun s bs => readPlaces c o sh g l (bs :: acc) s)

/-- The pieces of a row of every share head with their bytes. -/
def placePieces (sh : Share) (r : Nat) (bs : List (List Byte)) : List (Nat × List Byte) :=
  (((List.range sh.nkv).flatMap (fun n => rowPieces sh.d n r)).zip bs).map (fun y => (y.1.1, y.2))

/-- Write rows at their places; whether a poisoned word refused. -/
def writePlaces (c : Nat) (o : Op) (sh : Share) : List ((Nat × Nat) × List (List Byte)) → State → State × Bool
  | [], s => (s, false)
  | ((p, r), bs) :: l, s =>
    let (s, x) := piecesWrite s c o p (placePieces sh r bs)
    let (s, y) := writePlaces c o sh l s
    (s, x || y)

/-- The page numbers whose first position is at or above `n`. -/
def pagesFrom (sh : Share) (n : Nat) : List Nat :=
  (List.range (sh.cap / 256)).filter (fun g => decide (n ≤ sh.f + 256 * g))

/-- The pages to free, as page number and PTE (R229). -/
def freed (pages : List Nat) (bs : List Byte) : List (Nat × Nat) :=
  ((List.range pages.length).map (fun i => (nth 0 pages i, leAt bs (8 * i) 8))).filter (fun x =>
    (pteTier x.2 == 1 || pteTier x.2 == 2) && !pteShared x.2)

/-- One page freed: pushed on the stack of its tier, its PTE INVALID, its look-aside entry dropped. -/
def freePage (c : Nat) (o : Op) (sh : Share) (s : State) (x : Nat × Nat) : State :=
  match (getSlot s c o.sl).kvHdr with
  | none => s
  | some h =>
    let hot := pteTier x.2 == 1
    let a := if hot then h.hpool + 8 * h.hcount else h.cpool + 8 * h.ccount
    let s := walkWrite s c o a (leBytes 8 x.2)
    let s := modHdr s c o.sl (fun h => if hot then { h with hcount := (h.hcount + 1) % 2 ^ 32 }
      else { h with ccount := (h.ccount + 1) % 2 ^ 32 })
    let s := walkWrite s c o (sh.pt + 8 * x.1) (leBytes 8 (x.2 / 4 * 4))
    let s := modClu s c (fun k => { k with lb := k.lb.filter (fun e => !lbIs o.sl sh.seq sh.layer x.1 e) })
    bumpC s c oKvFree 1

/-- The pushes of a COMMIT lie in the windows. -/
def pushOk (s : State) (c sl : Nat) (h : KvHdr) (fs : List (Nat × Nat)) : Bool :=
  let n := fun t => (fs.filter (fun x => pteTier x.2 == t)).length
  tenOk s (slotFn s c sl) (h.hpool + 8 * h.hcount) (8 * n 1) && tenOk s (slotFn s c sl) (h.cpool + 8 * h.ccount) (8 * n 2)

/-- COMMIT's effect after its checks and reads (R229); a poisoned word that a row covers in part faults it (R127). -/
def commitPut (c : Nat) (o : Op) (sh : Share) (dst : List (Nat × Nat)) (rows : List (List (List Byte)))
    (fs : List (Nat × Nat)) (s : State) : State :=
  let n := sh.c + comNacc o.desc
  let (s1, bad) := writePlaces c o sh (dst.zip rows) s
  if !(dst.zip rows).all (fun x => piecesOk s c o.sl x.1.1 (placePieces sh x.1.2 x.2)) then opFault s c o cMemWindow 0
  else if bad then
    opFault (tryWords s c ((dst.zip rows).flatMap (fun x => piecePart s c o x.1.1 (placePieces sh x.1.2 x.2)))) c o cSpadUncorr 0
  else
    let s1 := bumpC s1 c oKvCopy (sh.nkv * dst.length)
    let s1 := walkWrite s1 c o (sh.addr + 4) (leBytes 4 n)
    let s1 := walkWrite s1 c o (sh.addr + 24) (leBytes 8 0)
    setPhase (fs.foldl (freePage c o sh) s1) c o .done

/-- The accepted path of a COMMIT. -/
def withPath (s : State) (c : Nat) (o : Op) (g : State → List Nat → State) : State :=
  let d := o.desc
  if comTree d then opRead s c o (opnd d 40) (comNacc d) (fun s bs => g s (bs.map BitVec.toNat))
  else g s (List.range (comNacc d))

/-- COMMIT: the path, the rows to copy, the pages to free, then its changes (R228, R229). -/
def doCommit (c : Nat) (o : Op) (s : State) : State :=
  withShare s c o (fun s sh =>
    withPath s c o (fun s path =>
      if !pathOk sh path 0 none then opFault s c o cKvPath 0
      else
        let cs := copies sh.c path
        withPlaces c o sh (fun s src =>
          withPlaces c o sh (fun s dst =>
            readPlaces c o sh (fun s rows =>
              let pages := pagesFrom sh (sh.c + path.length)
              withHdr s c o (fun s h =>
                walkRead s c o (sh.pt + 8 * nth 0 pages 0) (8 * pages.length) (fun s bs =>
                  let fs := freed pages bs
                  if !pushOk s c o.sl h fs then opFault s c o cMemWindow 0
                  else commitPut c o sh dst rows fs s))) src [] s) (cs.map (·.2)) [] s) (cs.map (·.1)) [] s))

/-- COMMIT. -/
def execCommit (c sl t : Nat) (s : State) : Host.Outcome State Fault Refusal := attCmd s c sl t opCOMMIT (doCommit c)

end Sys2Proof.Machine
end

