-- ==== Sys2Proof/Machine/LinkIf.lean ====
section
/-! DEFINITION. The cluster's link interface: MOV, RED, MRG, SYNC; the end of every operation, DMA included (R159, R170, R171,
R174, R178, R182 to R184, R241, R242, R334, R335, R345). -/

namespace Sys2Proof.Machine

/-! ### Targets -/

/-- The target cluster: the own one for 0xFFFF. -/
def targetClu (c : Nat) (d : List Byte) : Nat := if dTclu d = 0xFFFF then c else dTclu d

/-- The load of a slot's context. -/
def slotLoad (s : State) (c sl : Nat) : Nat := match slotCtx s c sl with | some x => x.load | none => 0

/-- The spans of a target-context reference for `n` bytes (R162, R170). -/
def targetSpans (r : Opnd) (n : Nat) : List (Nat × Nat) :=
  if r.shape = 1 then takeSpans n r.spans else if n = 0 then [] else [(r.addr, n)]

/-- Bytes laid over spans. -/
def piecesOf : List (Nat × Nat) → List Byte → List Piece
  | [], _ => []
  | (a, n) :: l, bs => (a, bs.take n, false) :: piecesOf l (bs.drop n)

/-- An operation's transfer to another cluster, or to the own one, sets out (R295, R301). -/
def sendXfer (s : State) (c : Nat) (o : Op) (k : XKind) (ps : List Piece) (ack : Bool) : State :=
  let t := targetClu c o.desc
  let s := if detours s c o.sl (boundClu s t) then bumpC s c oFabDetour 1 else s
  addXfer s { id := 0, kind := k, op := if ack then some (c, o.sl, o.ticket.toNat) else none, f := slotFn s c o.sl
              load := some (slotLoad s c o.sl), tclu := t, tslot := dTslot o.desc, data := ps, ctr := dTctr o.desc
              eack := none, way := opWay s c o.sl o.cls (boundClu s t) }

/-! ### Messages at their source (R335, R336) -/

/-- No route leads to the node of an operation of function `f` (R334). -/
def noRoute (s : State) (f d : Nat) : Bool :=
  s.lnk.node == 0xFFFF || !bitB (routeOf s d) 7 || reg s (aFtag f) % 65536 == 0

/-- `s` with one more message at its source. -/
def addMsg (s : State) (m : Msg) : State :=
  { s with lnk.msgs := s.lnk.msgs ++ [{ m with id := s.lnk.nextMsg }], lnk.nextMsg := s.lnk.nextMsg + 1 }

/-- A message of an operation. -/
def opMsg (s : State) (c : Nat) (o : Op) (ty : MType) (src : MSrc) (addr : Nat) (final : Bool) : Msg :=
  let d := o.desc
  { id := 0, ty := ty, owner := .op c o.sl o.ticket.toNat, f := slotFn s c o.sl, dnode := dTnode d, cls := o.cls, src := src
    tkind := b2n (dTmem d && (ty == .red || ty == .mrg)), fmt := if ty == .red then (opnd d 24).fmt else 0
    rop := if ty == .red then dRop d else 0
    tclu := if dTclu d = 0xFFFF then seenId s c else dTclu d, tslot := dTslot d
    ctr := if final then dTctr d else none, addr := addr, dim := if ty == .mrg then dDim d else 0, xfer := s.lnk.nextTr
    final := final, sent := false, aseq := 0, epoch := 0, sftc := 0, mtag := 0, port := 8 }

/-- Messages of an operation join the list as one transfer; the operation waits for their acknowledgements. -/
def addMsgs (s : State) (c : Nat) (o : Op) (ms : List Msg) : State :=
  let s := ms.foldl addMsg s
  setPhase { s with lnk.nextTr := s.lnk.nextTr + 1 } c o (.sent ms.length false)

/-- An operation to another module: LINK_NOROUTE where no route leads there. -/
def routed (s : State) (c : Nat) (o : Op) (g : State → State) : State :=
  if noRoute s (slotFn s c o.sl) (dTnode o.desc) then opFault s c o cLinkNoRoute (dTnode o.desc) else g s

/-- The data bytes of one message (R335). -/
def msgMax : Nat := 16384

/-- The pieces of a transfer of `n` bytes: offset and length of each message; at least one. -/
def msgCuts (n : Nat) : List (Nat × Nat) :=
  if n = 0 then [(0, 0)] else (List.range (ceilDiv n msgMax)).map (fun i => (msgMax * i, min msgMax (n - msgMax * i)))

/-! ### MOV (R170) -/

/-- MOV: a local copy, a transfer, or messages in address order. A message has one address and no shape, so off the module the
bytes of a COL DST land one after the other from DST's address on (DESIGN CHOICE, log entry 82). -/
def doMov (c : Nat) (o : Op) (s : State) : State :=
  let d := o.desc
  let src := opnd d 16
  let dst := opnd d 24
  opRead s c o src src.size (fun s bs =>
    if isLocal s d then opWrite s c o dst bs (fun s => setPhase s c o .done)
    else if tnodeOf s d = 0xFFFF then
      setPhase (sendXfer s c o .write (piecesOf (targetSpans dst bs.length) bs) true) c o (.sent 1 false)
    else
      routed s c o (fun s =>
        let cuts := msgCuts bs.length
        let last := cuts.length - 1
        let ms := (List.range cuts.length).map (fun i =>
          let x := nth (0, 0) cuts i
          opMsg s c o .write (.spad c (opndUser .link src) o.sl src.spans x.1 x.2) (dst.addr + x.1) (i == last))
        addMsgs s c o ms))

/-- MOV. -/
def execMov (c sl t : Nat) (s : State) : Host.Outcome State Fault Refusal := opCmd s c sl t opMOV isIssued (doMov c)

/-! ### RED (R345) -/

/-- The F32 values of a byte string converted to BF16 under a random-number context. -/
def redCodes (g : Rng) (bs : List Byte) : List Code :=
  let ws := chunks 4 bs
  (List.range ws.length).map (fun i => f32ToBf16 (rngAt g i) (fvOf (BitVec.ofNat 32 (leNat (nth [] ws i)))))

/-- The values of a RED as they travel: BF16 codes, or the bytes as they are; with the conversions' events. -/
def redTransport (o : Op) (bs : List Byte) : List Byte × List (Bool × Bool) :=
  if redBf16 o.desc then
    let cs := redCodes o.rng bs
    (cs.flatMap (fun x => leBytes 2 x.c), cs.map (fun x => (x.sat, x.nan)))
  else (bs, [])

/-- The 4-byte words that arrive. -/
def redWords (bf : Bool) (bs : List Byte) : List Byte :=
  if bf then (chunks 2 bs).flatMap (fun w => leBytes 4 (bf16ToF32 (leNat w)).toNat) else bs

/-- Two lists of events of the same elements as one: an element counts once in each counter (R59). -/
def joinEvents (a b : List (Bool × Bool)) : List (Bool × Bool) :=
  (List.range (max a.length b.length)).map (fun i =>
    let x := nth (false, false) a i
    let y := nth (false, false) b i
    (x.1 || y.1, x.2 || y.2))

/-- A RED within the cluster's own partition: the words of DST are combined in place. `evs` are the events of the conversions. -/
def redLocal (c : Nat) (o : Op) (ws : List Byte) (evs : List (Bool × Bool)) (s : State) : State :=
  let spans := targetSpans (opnd o.desc 24) ws.length
  let (s, cur, ps) := readSpans s c (opndUser .link (opnd o.desc 24)) (partBase s c o.sl) spans
  if ps.any id then opFault s c o cSpadUncorr 0
  else
    let vs := redVals (dRop o.desc) cur ws
    let (s', k) := writeSpans s c (opndUser .link (opnd o.desc 24)) (partBase s c o.sl) (vs.flatMap f32Bytes) spans
    if k != 0 then opFault s c o cSpadUncorr 0
    else setPhase (countEvents s' c (joinEvents evs (redEvents (dRop o.desc) vs))) c o .done

/-- An atomic of an operation at a stack; outside the function's windows nothing is applied (log entry 30). -/
def sendAtom (s : State) (c : Nat) (o : Op) (k : AKind) (n : Nat) (data : List Byte) : State :=
  let d := o.desc
  match tenPieces s (slotFn s c o.sl) (dTaddr d) n with
  | none => setPhase s c o .done
  | some ps =>
    setPhase (addAtom s
      { kind := k, cls := o.cls, pieces := ps, data := data, poi := [], op := some (c, o.sl, o.ticket.toNat), f := slotFn s c o.sl
        load := some (slotLoad s c o.sl), tclu := targetClu c d, tslot := dTslot d, ctr := dTctr d, eack := none })
      c o (.sent 1 false)

/-- RED: its source, its transport format, its target. -/
def doRed (c : Nat) (o : Op) (s : State) : State :=
  let d := o.desc
  let src := opnd d 16
  opRead s c o src src.size (fun s bs =>
    let (tb, evs) := redTransport o bs
    let ws := redWords (redBf16 d) tb
    if tnodeOf s d ≠ 0xFFFF then
      routed s c o (fun s =>
        let sp := if redBf16 d then MSrc.red c (opndUser .link src) o.sl src.spans src.size o.rng
          else .spad c (opndUser .link src) o.sl src.spans 0 src.size
        let addr := if dTmem d then dTaddr d else (opnd d 24).addr
        addMsgs (countEvents s c evs) c o [opMsg s c o .red sp addr true])
    else
      if dTmem d then sendAtom (countEvents s c evs) c o (.red (dRop d)) ws.length ws
      else if dTclu d = 0xFFFF then redLocal c o ws evs s
      else setPhase (sendXfer (countEvents s c evs) c o (.red (dRop d)) (piecesOf (targetSpans (opnd d 24) ws.length) ws) true) c o
        (.sent 1 false))

/-- RED. -/
def execRed (c sl t : Nat) (s : State) : Host.Outcome State Fault Refusal := opCmd s c sl t opRED isIssued (doRed c)

/-! ### MRG (R242) -/

/-- MRG: the partial records of SRC as messages to the merge records. -/
def doMrg (c : Nat) (o : Op) (s : State) : State :=
  let d := o.desc
  let n := mrgHeads d
  opRead s c o (opnd d 16) (n * (16 + 4 * dDim d)) (fun s bs =>
    let recs := chunks (16 + 4 * dDim d) bs
    let evs := (recs.flatMap (mrgCodes (dDim d))).map (fun x => (x.sat, x.nan))
    if tnodeOf s d ≠ 0xFFFF then
      let sp := MSrc.mrg c (opndUser .link (opnd d 16)) o.sl (opnd d 16).spans (n * (16 + 4 * dDim d)) (dDim d)
      routed s c o (fun s => addMsgs (countEvents s c evs) c o [opMsg s c o .mrg sp (dTaddr d) true])
    else sendAtom (countEvents s c evs) c o (.mrg (dDim d)) (n * (16 + 4 * dDim d)) (recs.flatMap (mrgMessage (dDim d))))

/-- MRG. -/
def execMrg (c sl t : Nat) (s : State) : Host.Outcome State Fault Refusal := opCmd s c sl t opMRG isIssued (doMrg c)

/-! ### SYNC (R171) -/

/-- Every operation that the slot issued before `o` has ended. -/
def earlierEnded (s : State) (c : Nat) (o : Op) : Bool :=
  !(opsBefore o (getClu s c).ops).any (fun x => x.sl == o.sl)

/-- SYNC: it is done at once on its own module, and when its message is acknowledged on another. -/
def doSync (c : Nat) (o : Op) (s : State) : State :=
  let d := o.desc
  if !earlierEnded s c o then s
  else if (dTctr d).isNone then setPhase s c o .done
  else if tnodeOf s d = 0xFFFF then setPhase (sendXfer s c o .sig [] false) c o .done
  else routed s c o (fun s => addMsgs s c o [opMsg s c o .sig (.bytes []) 0 true])

/-- SYNC. -/
def execSync (c sl t : Nat) (s : State) : Host.Outcome State Fault Refusal := opCmd s c sl t opSYNC isIssued (doSync c)

/-! ### Writes of device memory (R418, R460) -/

/-- A mailbox write as a message of the atomic unit (R418, R460). -/
def boxAtom (k : Cls) (f : Nat) (ps : List (Nat × Nat)) (bs : List Byte) : Atom :=
  { kind := .mailbox f 0 0, cls := k, pieces := ps, data := bs, poi := [], op := none, f := f, load := none, tclu := 0, tslot := 0
    ctr := none, eack := none }

/-- The pieces of a tenant range that lies inside a mailbox of function `f`. -/
def boxPieces (s : State) (f t n : Nat) : Option (List (Nat × Nat)) :=
  if (mailboxes s f).any (fun m => inside t n m.2 32768) then tenPieces s f t n else none

/-- A mailbox write would stand behind other messages at the atomic unit of its stack (R460). -/
def boxBusy (s : State) (f t n : Nat) : Bool :=
  match boxPieces s f t n with
  | none => false
  | some ps => ps.any (fun p => !(tabGet [] s.mem.atoms (stackOf p.1)).isEmpty || stackWaits s (stackOf p.1))

/-- A write of function `f`'s device memory by a request from outside the hub: inside a mailbox by the atomic unit, behind the messages
that wait there (R460). -/
def tenStore (s : State) (k : Cls) (f t : Nat) (bs : List Byte) (poison : Bool) : State :=
  match poison, boxPieces s f t bs.length with
  | false, some ps => if boxBusy s f t bs.length then addAtom s (boxAtom k f ps bs) else atomWrite s (boxAtom k f ps bs)
  | _, _ => tenWrite s k f t bs poison

/-! ### DMA and the end of an operation (R178, R182 to R184) -/

/-- The words of a DMAG that met an uncorrectable error: a word of an undamaged codeword is delivered or not, freely
(R184, log entry 29). -/
def partDeliver (s : State) (c : Nat) (o : Op) (spad : Nat) (g : DmaGot) : State :=
  stepFresh ((List.range (g.bytes.length / 32)).foldl (fun s1 i =>
    if !g.poi.contains i && Config.delivered s.fresh i then
      (spadWrite s1 c .dma (partBase s c o.sl + spad + 32 * i) ((g.bytes.drop (32 * i)).take 32) false).1
    else s1) s)

/-- The 32-byte words of a tenant range whose codewords a read finds poisoned. -/
def badWords (s : State) (k : Cls) (f dev n : Nat) : List Nat :=
  (List.range (n / 32)).filter (fun i =>
    match tenRead s k f (dev + 32 * i) 32 with
    | some (_, _, p) => p
    | none => false)

/-- What the stack answers to a DMAG (R183, R184). -/
def dmagStack (s : State) (c : Nat) (o : Op) (dev len : Nat) : State × DmaGot :=
  let f := slotFn s c o.sl
  match tenRead s o.cls f dev len with
  | none => (s, ⟨[], [], some (cMemWindow, 0), 0⟩)
  | some (s, bs, poi) =>
    if poi then (s, ⟨bs, badWords s o.cls f dev len, some (cMemUncorr, 0), 0⟩) else (s, ⟨bs, [], none, 0⟩)

/-- The data of a DMAP is read and written, with the words poisoned that the express network has hit beyond repair (`ue`, R294, R441); a
poisoned word of the source, or a range that has left the windows, ends it with a fault (R127, R183). -/
def dmapStack (s : State) (c : Nat) (o : Op) (spad dev len : Nat) (ue : List Nat) : State × DmaGot :=
  let f := slotFn s c o.sl
  let (s, bs, ps) := spadRead s c .dma (partBase s c o.sl + spad) len
  if ps.any id then (s, ⟨[], [], some (cSpadUncorr, 0), 0⟩)
  else if !tenOk s f dev len then (s, ⟨[], [], some (cMemWindow, 0), 0⟩)
  else ((markPieces dev bs ue).foldl (fun s p => tenStore s o.cls f p.1 p.2.1 p.2.2) s, ⟨[], [], none, 0⟩)

/-- The data of a DMAG arrives; a word that the express network could not correct faults it (R294). -/
def dmagEnd (c : Nat) (o : Op) (spad : Nat) (g : DmaGot) (ce : Nat) (ue : List Nat) (s : State) : State :=
  let s := bumpC (bumpC s c oFabCorr ce) c oFabUncorr ue.length
  match g.fault with
  | some (code, detail) => opFault (if code = cMemUncorr then partDeliver s c o spad g else s) c o code detail
  | none =>
    if ue.isEmpty then opEnd (spadWrite s c .dma (partBase s c o.sl + spad) g.bytes false).1 c o
    else opFault s c o cSpadUncorr 0

/-- A DMAP ends. -/
def dmapEnd (c : Nat) (o : Op) (g : DmaGot) (s : State) : State :=
  match g.fault with
  | some (code, detail) => opFault s c o code detail
  | none => opEnd s c o

/-- A DMAG completes: with the answer held since an Eclipse stop, or with its stack's answer now (R183, R479). -/
def dmagDone (c : Nat) (o : Op) (spad dev len ce : Nat) (ue : List Nat) (s : State) : State :=
  match o.got with
  | some g => dmagEnd c o spad g ce ue s
  | none =>
    if tenWaits s (slotFn s c o.sl) dev len then s
    else
      let (s, g) := dmagStack s c o dev len
      dmagEnd c o spad g ce ue s

/-- The stacks of a DMAP's range make it wait: they retrain, or their atomic units have messages before its mailbox write (R451,
R460). -/
def dmapWaits (s : State) (c : Nat) (o : Op) (dev len : Nat) : Bool :=
  tenWaits s (slotFn s c o.sl) dev len || boxBusy s (slotFn s c o.sl) dev len

/-- A DMAP completes. -/
def dmapDone (c : Nat) (o : Op) (spad dev len : Nat) (ue : List Nat) (s : State) : State :=
  match o.got with
  | some g => dmapEnd c o g s
  | none =>
    if dmapWaits s c o dev len then s
    else
      let (s, g) := dmapStack s c o spad dev len ue
      dmapEnd c o g s

/-- Answers that are held. -/
def heldCount (s : State) : Nat := natSum (s.cl.clus.map (fun p => (p.2.ops.filter (fun o => o.got.isSome)).length))

/-- The stacks carry out a DMA that was issued before an Eclipse stop, and its answer is held (R479). -/
def stackHolds (c : Nat) (s : State) (o : Op) : State :=
  let hold := fun (r : State × DmaGot) => putOp r.1 c { o with got := some { r.2 with no := heldCount s } }
  if o.got.isSome then s
  else match o.kind with
    | .dmag _ dev len _ => if tenWaits s (slotFn s c o.sl) dev len then s else hold (dmagStack s c o dev len)
    | .dmap a dev len _ => if dmapWaits s c o dev len then s else hold (dmapStack s c o a dev len [])
    | .tile _ => s

/-- A DMA whose stack has not answered. -/
def dmaOpen (o : Op) : Bool :=
  match o.kind with
  | .dmag _ _ _ _ => o.got.isNone
  | .dmap _ _ _ _ => o.got.isNone
  | .tile _ => false

/-- An attention pass runs to its end and ends, or suspends. The cluster's station counts what it corrected, and could not, in the words
of the cold pages; one that it could not faults the operation (R289, R294). -/
def attDone (c sl t ce : Nat) (ue : List Nat) (o : Op) (s : State) : State :=
  let s := bumpC (bumpC s c oFabCorr ce) c oFabUncorr ue.length
  if !ue.isEmpty then opFault s c o cSpadUncorr 0
  else
    let s := attEnds c o s
    match findOp s c sl t with
    | some o => if o.phase == .done then opEnd s c o else s
    | none => s

/-- OPERATION_COMPLETE: an operation that is done ends; a DMA moves its data, an attention pass runs on. -/
def doOpComplete (c sl t ce : Nat) (ue : List Nat) (s : State) : State :=
  match findOp s c sl t with
  | none => s
  | some o =>
    match o.kind with
    | .dmag a dev len _ => dmagDone c o a dev len ce ue s
    | .dmap a dev len _ => dmapDone c o a dev len ue s
    | .tile _ =>
      match o.phase with
      | .done => opEnd s c o
      | .att _ => attDone c sl t ce ue o s
      | _ => s

/-- OPERATION_COMPLETE. -/
def execOperationComplete (c sl : Nat) (e : OpEnd) (s : State) : Host.Outcome State Fault Refusal :=
  slotRun s c sl (doOpComplete c sl e.ticket e.ce e.ue)

end Sys2Proof.Machine
end

