-- ==== Sys2Proof/Machine/Messages.lean ====
section
/-! DEFINITION. Messages at their source: data, header, flits, sending, end, resend, loss; node IDs (R332, R334 to R338,
R341 to R343, R347). -/

namespace Sys2Proof.Machine

/-! ### A message's data (R127, R335, R342) -/

/-- The tenant range of a copy: its bytes, and a mark for each 32-byte word with a poisoned codeword; a range that has left
the windows reads as poisoned zeros. -/
def devWords (s : State) (cls : Cls) (f a n : Nat) : State × List Byte × List Bool :=
  let k := ceilDiv n 32
  match tenPieces s f a n with
  | none => (s, List.replicate n 0, List.replicate k true)
  | some ps =>
    let (s, bs, ms) := readPieces s cls ps
    let mark := fun i => nth false ms ((a + 32 * i) / 64 - a / 64) || nth false ms ((a + min n (32 * i + 32) - 1) / 64 - a / 64)
    (s, bs, (List.range k).map mark)

/-- The words that a read of spans touches, as offsets into the bytes read, the first at `o`, and lengths. -/
def spanWords (all : Bool) (base : Nat) : Nat → List (Nat × Nat) → List (Nat × Nat)
  | _, [] => []
  | o, (a, n) :: ss =>
    (accessCuts all (base + a) n).flatMap (fun x =>
      if x.2.2 then (List.range (x.2.1 / 32)).map (fun i => (o + (x.1 - (base + a)) + 32 * i, 32))
      else [(o + (x.1 - (base + a)), x.2.1)]) ++ spanWords all base (o + n) ss

/-- The payload words of a message of which `k` source bytes make one byte: word `i` is poisoned where it takes a byte of a poisoned word
of the source (R320). -/
def payloadMarks (ws : List (Nat × Nat)) (ps : List Bool) (k n : Nat) : List Bool :=
  let bad := ((ws.zip ps).filter (·.2)).map (·.1)
  (List.range (ceilDiv n 32)).map (fun i => bad.any (fun w => overlaps w.1 w.2 (32 * k * i) (32 * k)))

/-- A message whose data the scratchpad of a slot gives, `k` source bytes for each of its own; `g` makes them. -/
def spadData (s : State) (c : Nat) (u : BankUser) (sl : Nat) (spans : List (Nat × Nat)) (k : Nat) (g : List Byte → List Byte) :
    State × List Byte × List Bool :=
  let base := partBase s c sl
  let (s, bs, ps) := readSpans s c u base spans
  (s, g bs, payloadMarks (spanWords (u == .gather) base 0 spans) ps k (g bs).length)

/-- The data of a message, read again for every copy, with its poisoned words. -/
def msgData (s : State) (m : Msg) : State × List Byte × List Bool :=
  match m.src with
  | .spad c u sl spans off len => spadData s c u sl (takeSpans len (dropSpans off spans)) 1 id
  | .red c u sl spans n g => spadData s c u sl (takeSpans n spans) 2 (fun bs => (redCodes g bs).flatMap (fun x => leBytes 2 x.c))
  | .mrg c u sl spans n dim =>
    spadData s c u sl (takeSpans n spans) 2 (fun bs => (chunks (16 + 4 * dim) bs).flatMap (mrgMessage dim))
  | .dev f a n => devWords s m.cls f a n
  | .bytes b => (s, b, (List.range (ceilDiv b.length 32)).map (fun _ => false))

/-! ### Port coding (R265, R347) -/

/-- The format of a MOV's whole source image that a port codes. -/
def msgFmt (s : State) (m : Msg) (n : Nat) : Option Fmt :=
  match m.ty, m.owner with
  | .write, .op c sl t =>
    match findOp s c sl t with
    | none => none
    | some o =>
      let r := opnd o.desc 16
      match fmtOf r.fmt with
      | none => none
      | some f =>
        if 3 ≤ r.fmt ∧ r.fmt ≤ 5 ∧ r.sat = false ∧ r.size = n ∧ n ≤ 16384 ∧ attarTiles f false n ≠ 0 then some f else none
  | _, _ => none

/-- The port encodes the message: its control bit, its peer's, a whole image, no poison. -/
def msgCode (s : State) (m : Msg) (port : Option Nat) (n : Nat) (poi : List Bool) : Option Fmt :=
  match port with
  | none => none
  | some p => if portAtr s p && (getPort s p).patrc && !poi.any id then msgFmt s m n else none

/-- A stream as it travels: tiles back to back, then its index table (DESIGN CHOICE, log entry 31). -/
def wireStream (f : Fmt) (img : List Byte) : List Byte :=
  let x := atrCompress f false false 0 (attarTiles f false img.length) img
  x.pieces.flatMap (·.2) ++ x.index

/-! ### Header and flits (R336) -/

/-- TYPE of a message. -/
def mtypeCode (t : MType) : Nat := match t with | .write => 3 | .memw => 4 | .red => 5 | .mrg => 6 | .sig => 7

/-- TKIND: 1 for device memory. -/
def msgTkind (m : Msg) : Nat := if m.ty == .memw then 1 else m.tkind

/-- The message header. -/
def msgHeader (s : State) (m : Msg) (fmt len : Nat) : List Byte :=
  leBytes 1 (msgTkind m + 16 * fmt) ++ leBytes 1 m.rop ++ leBytes 2 (m.tclu + 2048 * m.tslot) ++
    leBytes 1 (match m.ctr with | some n => n + 32 | none => 0) ++ leBytes 1 m.epoch ++
    leBytes 2 (reg s (aFtag m.f)) ++ leBytes 8 m.addr ++ leBytes 4 len ++ leBytes 4 m.aseq ++ leBytes 4 m.sftc ++
    leBytes 2 m.dim ++ leBytes 2 0

/-- POISON of a flit: bits of the seven words from word `w` of the payload; word 0 is the header. -/
def poisonBits (poi : List Bool) (w : Nat) : Nat :=
  natSum ((List.range 7).map (fun k => if w + k ≠ 0 ∧ nth false poi (w + k - 1) = true then 2 ^ k else 0))

/-- The flits of one copy. -/
def msgFlits (s : State) (m : Msg) (atr : Option Fmt) (data : List Byte) (poi : List Bool) : List (List Byte) :=
  let wire := match atr with | some f => wireStream f data | none => data
  let fmt := match atr with | some f => fmtCode f | none => m.fmt
  let pls := chunks 224 (msgHeader s m fmt data.length ++ wire)
  (List.range pls.length).map (fun i =>
    mkFlit (mtypeCode m.ty) 0 (clsCode m.cls) (i == 0) (i + 1 == pls.length) atr.isSome m.dnode s.lnk.node m.mtag
      (nth [] pls i) (poisonBits poi (7 * i)))

/-- `s` with message `id` changed. -/
def modMsg (s : State) (id : Nat) (g : Msg → Msg) : State :=
  { s with lnk.msgs := s.lnk.msgs.map (fun m => if m.id == id then g m else m) }

/-! ### How a message ends -/

/-- Messages of the same sender leave the list. -/
def dropMsgs (s : State) (w : MOwner) : State := { s with lnk.msgs := s.lnk.msgs.filter (fun m => m.owner != w) }

/-- The sender of a message fails: an operation faults, a MEMCPY item completes; its other messages go (R186, R334, R343,
R395). -/
def failOwner (s : State) (m : Msg) (code status detail : Nat) : State :=
  let s := dropMsgs s m.owner
  match m.owner with
  | .op c sl t => match findOp s c sl t with | some o => opFault s c o code detail | none => s
  | .item i => match getItem s i with | some x => complete s x status 0 false | none => s

/-- One acknowledged message fewer for its sender (R341). -/
def ackOwner (s : State) (w : MOwner) : State :=
  match w with
  | .op c sl t => ackOp s (some (c, sl, t))
  | .item i =>
    match getItem s i with
    | none => s
    | some x => match x.st with
      | .remote n => if n ≤ 1 then complete s x 0 0 false else modItem s i (fun x => { x with st := .remote (n - 1) })
      | _ => s

/-- A message that is lost. -/
def loseMsg (s : State) (m : Msg) : State := failOwner s m cLinkLost 0x23 (m.dnode * 2 ^ 32 + m.aseq)

/-! ### Copies -/

/-- The flits that the ports hold to send, or to send again. -/
def portFlits (s : State) : List (List Byte) := s.lnk.ports.flatMap (fun p => p.2.egress.map (·.2) ++ p.2.replay)

/-- The tags of the copies in flight: those of the messages' last copies, and of earlier ones of which the ports still hold flits. -/
def usedTags (s : State) : List Nat :=
  (s.lnk.msgs.filter (·.sent)).map (·.mtag) ++
    ((portFlits s).filter (fun b => flSnode b == s.lnk.node && decide (3 ≤ flType b) && decide (flType b ≤ 7))).map flMtag

/-- The first tag from `t` on that is not used, by fuel (R321). -/
def freeTag (used : List Nat) : Nat → Nat → Nat
  | 0, t => t
  | k + 1, t => if used.contains t then freeTag used k ((t + 1) % 65536) else t

/-- One copy of a numbered message sets out with a fresh MTAG (R334, R338, R342). -/
def sendData (s : State) (m : Msg) (data : List Byte) (poi : List Bool) : State :=
  let used := usedTags s
  let tag := freeTag used used.length ((s.lnk.mtag + 1) % 65536)
  let port := routePort s m.dnode
  let m := { m with mtag := tag, port := port.getD 8 }
  let s := modMsg { s with lnk.mtag := tag } m.id (fun _ => m)
  sendRouted s m.dnode (msgFlits s m (msgCode s m port data.length poi) data poi)

/-- A MEMCPY whose device range has left the windows, or holds an uncorrectable error, ends with its status (R395). -/
def itemStops (s : State) (m : Msg) (poi : List Bool) : Option Nat :=
  match m.owner, m.src with
  | .item _, .dev f a n => if !tenOk s f a n then some 0x16 else if poi.any id then some 0x18 else none
  | _, _ => none

/-- What a message's data comes from makes the copy wait: device memory that retrains (R451), a scratchpad whose clock is stopped
(R302, R498). A shutdown halts every source (R495). -/
def msgWaits (s : State) (m : Msg) : Bool :=
  s.pow.shut.isSome || (match m.src with
    | .dev f a n => tenWaits s f a n
    | .spad c _ _ _ _ _ => !cluRuns s c
    | .red c _ _ _ _ _ => !cluRuns s c
    | .mrg c _ _ _ _ _ => !cluRuns s c
    | .bytes _ => match m.owner with | .op c _ _ => !cluRuns s c | .item _ => false)

/-- One copy of a message `m`, which goes out as `m1`: its data is read now (R342); where that ends its MEMCPY no copy is made, else `g`
is what a copy changes beside. -/
def sendCopy (s : State) (m m1 : Msg) (g : State → State) : State :=
  let (s, data, poi) := msgData s m
  match itemStops s m poi with
  | some st => failOwner s m 0 st 0
  | none => sendData (g s) m1 data poi

/-! ### MESSAGE_SEND (R335, R338) -/

/-- The next ASEQ for a node. -/
def nextAseq (s : State) (d : Nat) : Nat := tabGet 1 s.lnk.aseq d

/-- Sent messages to a node that are not acknowledged. -/
def unacked (s : State) (d : Nat) : Nat := (s.lnk.msgs.filter (fun m => m.sent && m.dnode == d)).length

/-- The message may be sent now: an earlier message of its transfer is still listed only when it is not the final one. -/
def sendReady (s : State) (m : Msg) : Bool :=
  !m.sent && (!m.final || s.lnk.msgs.all (fun x => x.xfer != m.xfer || x.id == m.id)) && decide (unacked s m.dnode < 4096)

/-- First send: number, epoch, stamp. -/
def firstSend (s : State) (m : Msg) : State :=
  let n := nextAseq s m.dnode
  sendCopy s m { m with sent := true, aseq := n, epoch := s.lnk.epoch, sftc := s.clock.ftc % 2 ^ 32 }
    (fun s => { s with lnk.aseq := tabSet s.lnk.aseq m.dnode ((n + 1) % 2 ^ 32) })

/-- MESSAGE_SEND. -/
def doMessageSend (id : Nat) (s : State) : State :=
  match s.lnk.msgs.find? (fun m => m.id == id) with
  | none => s
  | some m =>
    if eclHalted s || !sendReady s m || msgWaits s m then s
    else if noRoute s m.f m.dnode then failOwner s m cLinkNoRoute 0x24 m.dnode
    else firstSend s m

/-- MESSAGE_SEND. -/
def execMessageSend (id : Nat) (s : State) : Host.Outcome State Fault Refusal := hubCmd s (doMessageSend id)

/-! ### EACK, resend, loss (R341 to R343) -/

/-- The sent message to node `d` with number `a`. -/
def sentMsg (s : State) (d a : Nat) : Option Msg := s.lnk.msgs.find? (fun m => m.sent && m.dnode == d && m.aseq == a)

/-- An EACK ends its message, whatever its status. -/
def eackTake (s : State) (d a epoch : Nat) : State :=
  match sentMsg s d a with
  | none => s
  | some m =>
    if m.epoch != epoch then s
    else ackOwner { s with lnk.msgs := s.lnk.msgs.filter (fun x => x.id != m.id) } m.owner

/-- EACK_RECEIVE. -/
def execEackReceive (dnode aseq epoch _status : Nat) (s : State) : Host.Outcome State Fault Refusal :=
  hubCmd s (fun s => if eclHalted s then s else eackTake s dnode aseq epoch)

/-- MESSAGE_RESEND: the data is read again, the copy keeps ASEQ, EPOCH and SFTC. -/
def execMessageResend (dnode aseq : Nat) (s : State) : Host.Outcome State Fault Refusal :=
  hubCmd s (fun s =>
    match sentMsg s dnode aseq with
    | none => s
    | some m => if eclHalted s || msgWaits s m then s else sendCopy s m m (fun s => bump s aMsgResend 1))

/-- MESSAGE_LOST. -/
def execMessageLost (dnode aseq : Nat) (s : State) : Host.Outcome State Fault Refusal :=
  hubCmd s (fun s =>
    match sentMsg s dnode aseq with
    | none => s
    | some m => if eclHalted s then s else loseMsg (bump s aMsgLost 1) m)

/-! ### Node IDs (R332) -/

/-- Every sender with a message listed loses it, by fuel. -/
def loseAll : Nat → State → State
  | 0, s => s
  | k + 1, s =>
    match s.lnk.msgs with
    | [] => s
    | m :: _ => loseAll k (loseMsg s m)

/-- A write of 0xFFFF. -/
def nodeUnassign (s : State) : State :=
  let s := loseAll s.lnk.msgs.length s
  discAll (portsUpdate { s with lnk.node := 0xFFFF, lnk.dup := false, lnk.dedup := [] })

/-- A write of LNK_NODE.ID by the physical function. -/
def nodeWrite (v : Nat) (s : State) : State :=
  let v := v % 65536
  if v = 0xFFFF then nodeUnassign s
  else if s.lnk.node ≠ 0xFFFF then s
  else
    discAll (portsUpdate { s with lnk.node := v, lnk.epoch := (s.lnk.epoch + 1) % 256, lnk.aseq := [], lnk.dup := false })

/-- NODE_ASSIGN: a write of `v`. -/
def execNodeAssign (v : Nat) (s : State) : Host.Outcome State Fault Refusal := hubCmd s (nodeWrite v)

/-- NODE_UNASSIGN. -/
def execNodeUnassign (s : State) : Host.Outcome State Fault Refusal := hubCmd s nodeUnassign

end Sys2Proof.Machine
end

