-- ==== Sys2Proof/Machine/PortRecv.lean ====
section
/-! DEFINITION. What a port receives: flits, forwarding, reassembly, exactly-once delivery (R322, R323, R327, R328, R334,
R337, R339 to R341, R346, R347). -/

namespace Sys2Proof.Machine

/-! ### Reassembly (R337) -/

/-- The slots of a hub. -/
def reasmMax : Nat := 1024

/-- The slot of a copy. -/
def isCopy (snode mtag : Nat) (r : Reasm) : Bool := r.snode == snode && r.mtag == mtag

/-- The payload of a flit, and its words' poison. -/
def flBody (b : List Byte) : List Byte := (flPayload b).take (flPlen b)
def flMarks (b : List Byte) : List Bool := (List.range 7).map (fun k => bitB (flPoison b) k)

/-- A FIRST flit takes a slot; an older copy with the same key gives its slot up. -/
def startCopy (s : State) (n : Nat) (b : List Byte) : State :=
  let r : Reasm := { snode := flSnode b, mtag := flMtag b, ty := flType b, cls := flClass b, atr := flAtr b
                     payload := flBody b, poison := flMarks b, whole := flLast b, port := n }
  { s with lnk.reasm := s.lnk.reasm.filter (fun x => !isCopy (flSnode b) (flMtag b) x) ++ [r] }

/-- A later flit fills its copy's slot; with no such slot it is discarded. -/
def moreCopy (s : State) (b : List Byte) : State :=
  let fill := fun (r : Reasm) =>
    { r with payload := r.payload ++ flBody b, poison := r.poison ++ flMarks b, whole := flLast b }
  { s with lnk.reasm := modFirst (fun r => isCopy (flSnode b) (flMtag b) r && !r.whole) fill s.lnk.reasm }

/-- The flit is a message's first flit for this module: it waits in its VC buffer for a slot. -/
def waitsSlot (s : State) (b : List Byte) : Bool :=
  flDnode b == s.lnk.node && s.lnk.node != 0xFFFF && decide (3 ≤ flType b) && decide (flType b ≤ 7) && flFirst b

/-- An accepted message or EACK flit leaves the receive buffer: to its slot, to the source's list, or onward. A flit that is forwarded
moves to the egress queue of its next port, which holds any number of flits, and so frees its buffer before that port has a credit
(R323; DESIGN CHOICE, log entry 95). -/
def routeFlit (s : State) (n : Nat) (b : List Byte) : State :=
  let s := oweCredit s n (flVc b)
  if flDnode b == s.lnk.node then
    if flType b == 8 then eackTake s (flSnode b) (flitN (flPayload b) 0 4) (flitN (flPayload b) 4 1) else moreCopy s b
  else sendRouted s (flDnode b) [b]

/-- The flits of the receive buffer in order of arrival: those behind a waiting FIRST flit of their VC stay. -/
def drainAux (n : Nat) : List (List Byte) → List Nat → List (List Byte) → State → State
  | [], _, kept, s => modPort s n (fun p => { p with rx := kept.reverse })
  | b :: l, blocked, kept, s =>
    if blocked.contains (flVc b) then drainAux n l blocked (b :: kept) s
    else if waitsSlot s b then drainAux n l (flVc b :: blocked) (b :: kept) s
    else drainAux n l blocked kept (routeFlit s n b)

/-- Serve the receive buffer of a port; an Eclipse stop keeps every flit in it (R478). -/
def drain (s : State) (n : Nat) : State := if eclHalted s then s else drainAux n (getPort s n).rx [] [] s

/-- REASSEMBLY_START: the oldest waiting FIRST flit of a port takes a free slot. -/
def doReassemblyStart (n : Nat) (s : State) : State :=
  if eclHalted s || decide (reasmMax ≤ s.lnk.reasm.length) then s
  else match takeFirst (waitsSlot s) (getPort s n).rx with
    | none => s
    | some (b, rest) =>
      let s := modPort s n (fun p => { p with rx := rest })
      drain (oweCredit (startCopy s n b) n (flVc b)) n

/-- REASSEMBLY_START. -/
def execReassemblyStart (n : Nat) (s : State) : Host.Outcome State Fault Refusal := portCmd s n (doReassemblyStart n)

/-- A copy's slot is freed. -/
def freeCopy (s : State) (snode mtag : Nat) : State :=
  { s with lnk.reasm := s.lnk.reasm.filter (fun r => !isCopy snode mtag r) }

/-- REASSEMBLY_TIMEOUT: flits of the copy are missing. -/
def execReassemblyTimeout (snode mtag : Nat) (s : State) : Host.Outcome State Fault Refusal :=
  hubCmd s (fun s =>
    if !eclHalted s && s.lnk.reasm.any (fun r => isCopy snode mtag r && !r.whole) then freeCopy s snode mtag else s)

/-! ### FLIT_RECEIVE (R322, R327, R328, R331, R349) -/

/-- The link control fields of a flit with a good CRC. -/
def takeControl (s : State) (n : Nat) (b : List Byte) : State :=
  let s := if flNak b then nakTake s n (flAck b) else if flAckv b then ackTake s n (flAck b) else s
  creditTake s n (flCrvc b) (flCrcnt b)

/-- An accepted time-synchronisation record: a request waits for its answer, a response is measured. -/
def tsyncTake (s : State) (n : Nat) (pl : List Byte) : State :=
  let q := flitN pl 0 2
  if bitB (flitN pl 2 1) 0 then tsResponse s n q (flitN pl 8 8) (flitN pl 16 8) (flitN pl 24 8) s.clock.ftc
  else modPort s n (fun p => { p with tsAsk := p.tsAsk ++ [(q, flitN pl 8 8, s.clock.ftc)] })

/-- An accepted flit. Outside ACTIVE only discovery records arrive (R317). -/
def takeFlit (s : State) (n : Nat) (b : List Byte) : State :=
  let s := acceptFlit s n
  let up := (getPort s n).st == .active
  match flType b with
  | 1 => discTake (oweCredit s n 3) n (flPayload b)
  | 2 => let s := oweCredit s n 3; if up then tsyncTake s n (flPayload b) else s
  | _ => if up then drain (modPort s n (fun p => { p with rx := p.rx ++ [b] })) n else oweCredit s n (flVc b)

/-- A port that receives link traffic: it trains its link layer, or has trained. -/
def portHears (s : State) (n : Nat) : Bool := portUp (getPort s n) || (getPort s n).st == .training

/-- A received flit. -/
def doFlit (n : Nat) (b : List Byte) (s : State) : State :=
  if !portHears s n then s
  else if !flCrcOk b || !flKnown b then refuseFlit (bump s (portAddr n 0xC) 1) n
  else
    let s := takeControl s n b
    if flType b == 0 || !portHears s n then s
    else if flLseq b != (getPort s n).expect then refuseFlit s n
    else takeFlit s n b

/-- FLIT_RECEIVE. -/
def execFlitReceive (n : Nat) (flit : List Byte) (s : State) : Host.Outcome State Fault Refusal :=
  portCmd s n (doFlit n flit)

/-- DISC_RECEIVE: the flit received is a discovery record. -/
def execDiscReceive (n : Nat) (flit : List Byte) (s : State) : Host.Outcome State Fault Refusal :=
  portCmd s n (fun s => if flType flit == 1 then doFlit n flit s else s)

/-! ### The header of a received message (R336) -/

/-- The fields of a message header. -/
structure MHdr where
  tkind : Bool
  fmt : Nat
  rop : Nat
  tclu : Nat
  tslot : Nat
  ctr : Option Nat
  epoch : Nat
  tag : Nat
  addr : Nat
  len : Nat
  aseq : Nat
  sftc : Nat
  dim : Nat
  deriving DecidableEq, Repr

/-- Reading a message header. -/
def mhdrOf (b : List Byte) : MHdr :=
  let t := flitN b 2 2
  let k := flitN b 4 1
  { tkind := bitB (flitN b 0 1) 0, fmt := bits (flitN b 0 1) 7 4, rop := bits (flitN b 1 1) 1 0, tclu := bits t 10 0
    tslot := bits t 12 11, ctr := if bitB k 5 then some (bits k 4 0) else none, epoch := flitN b 5 1, tag := flitN b 6 2
    addr := flitN b 8 8, len := min 16384 (bits (flitN b 16 4) 14 0), aseq := flitN b 20 4, sftc := flitN b 24 4
    dim := flitN b 28 2 }

/-! ### Exactly-once delivery (R339) -/

/-- The window of a source. -/
def dedupOf (s : State) (n : Nat) : Dedup := tabGet dedupReset s.lnk.dedup n

/-- The window as orders 2 and 3 leave it: none where the copy's epoch is older. -/
def dedupEpoch (w : Dedup) (epoch : Nat) : Option Dedup :=
  if epoch = w.epoch then some w else if serial8Lt epoch w.epoch then none else some ⟨epoch, 0, []⟩

/-- The copy's number is below the window or has been applied. -/
def dedupHit (w : Dedup) (a : Nat) : Bool := decide (serial32Diff a w.h ≤ -4096) || w.seen.contains a

/-- The window with a number recorded. -/
def dedupMark (w : Dedup) (a : Nat) : Dedup :=
  let h := if 0 < serial32Diff a w.h then a else w.h
  { w with h := h, seen := (a :: w.seen).filter (fun x => decide (-4096 < serial32Diff x h)) }

/-- `s` with a source's window set. -/
def setDedup (s : State) (n : Nat) (w : Dedup) : State := { s with lnk.dedup := tabSet s.lnk.dedup n w }

/-! ### Applying a message (R340, R345, R346) -/

/-- The lowest function that carries a tag. -/
def tagFunc (s : State) (tag : Nat) : Option Nat :=
  if tag = 0 then none
  else (List.range (min Config.functions (s.hub.numVfs + 1))).find? (fun f => reg s (aFtag f) % 65536 == tag)

/-- A received message: its header, its data with poisoned words, its type, and the EACK that it is owed. -/
structure RMsg where
  ty : Nat
  h : MHdr
  data : List Byte
  poi : List Nat
  eack : Nat × Nat × Nat × Nat
  deriving DecidableEq, Repr

/-- The class of a message. -/
def RMsg.cls (m : RMsg) : Cls := clsOf m.eack.2.2.2

/-- The data of a RED as the words that it adds, with its poisoned words (R345). -/
def rmsgWords (m : RMsg) : List Byte × List Nat :=
  if m.ty = 5 ∧ m.h.fmt = 7 ∧ m.h.rop ≠ 1 then (redWords true m.data, m.poi.flatMap (fun w => [2 * w, 2 * w + 1]))
  else (m.data, m.poi)

/-- A transfer to a slot of this module for a message of TKIND 0. -/
def applySlot (s : State) (f : Nat) (m : RMsg) : State :=
  let (bs, poi) := rmsgWords m
  let k := match m.ty with | 5 => XKind.red m.h.rop | 7 => .sig | _ => .write
  addXfer s { id := 0, kind := k, op := none, f := f, load := none, tclu := m.h.tclu, tslot := m.h.tslot
              data := if m.ty = 7 then [] else markPieces m.h.addr bs poi, ctr := m.h.ctr, eack := some m.eack
              way := expressWay m.cls 24 (boundClu s m.h.tclu) }

/-- A write into a mailbox that joins the messages before it at the atomic unit, with its increment and its EACK (R341, R460). -/
def applyBox (s : State) (f : Nat) (m : RMsg) (ps : List (Nat × Nat)) : State :=
  addAtom s { boxAtom m.cls f ps m.data with tclu := m.h.tclu, tslot := m.h.tslot, ctr := m.h.ctr, eack := some m.eack }

/-- A write into device memory; its counter's increment travels on to its slot (R178, R341). -/
def applyMem (s : State) (f : Nat) (m : RMsg) : State :=
  match m.poi.isEmpty && boxBusy s f m.h.addr m.data.length, boxPieces s f m.h.addr m.data.length with
  | true, some ps => applyBox s f m ps
  | _, _ =>
  let s := (markPieces m.h.addr m.data m.poi).foldl (fun s p => tenStore s m.cls f p.1 p.2.1 p.2.2) s
  match m.h.ctr with
  | none => sendEack s m.eack 0
  | some n =>
    addXfer s { id := 0, kind := .sig, op := none, f := f, load := none, tclu := m.h.tclu, tslot := m.h.tslot, data := []
                ctr := some n, eack := some m.eack, way := expressWay m.cls 24 (boundClu s m.h.tclu) }

/-- The bytes of device memory that a message of TKIND 1 changes. -/
def rmsgSpan (m : RMsg) : Nat :=
  match m.ty with
  | 5 => (rmsgWords m).1.length
  | 6 => m.data.length / (8 + 2 * m.h.dim) * (16 + 4 * m.h.dim)
  | _ => m.data.length

/-- The kind of atomic that a RED or MRG is at a stack. -/
def rmsgKind (m : RMsg) : AKind := if m.ty = 5 then .red m.h.rop else .mrg m.h.dim

/-- An atomic at a stack. -/
def applyAtom (s : State) (f : Nat) (m : RMsg) (ps : List (Nat × Nat)) : State :=
  let (bs, poi) := rmsgWords m
  addAtom s { kind := rmsgKind m, cls := m.cls, pieces := ps, data := bs, poi := poi, op := none, f := f, load := none, tclu := m.h.tclu
              tslot := m.h.tslot, ctr := m.h.ctr, eack := some m.eack }

/-- The message changes device memory: MEMW, and RED and MRG of TKIND 1. -/
def rmsgMem (m : RMsg) : Bool := m.ty == 4 || (m.h.tkind && (m.ty == 5 || m.ty == 6))

/-- A message that cannot be applied is dropped, counted, and acknowledged as DROPPED (R340). -/
def dropRmsg (s : State) (m : RMsg) : State := sendEack (bump s aRxDrop 1) m.eack 2

/-- Apply a message under R340. -/
def applyRmsg (s : State) (m : RMsg) : State :=
  match tagFunc s m.h.tag with
  | none => dropRmsg s m
  | some f =>
    if rmsgMem m then
      match tenPieces s f m.h.addr (rmsgSpan m) with
      | none => dropRmsg s m
      | some ps => if m.ty = 4 then applyMem s f m else applyAtom s f m ps
    else if (selectCtx s f none m.h.tclu m.h.tslot).isNone || m.ty == 6 then dropRmsg s m
    else applySlot s f m

/-- A whole message under the orders of R339. -/
def judgeRmsg (s : State) (snode : Nat) (m : RMsg) : State :=
  if 1000000 ≤ (s.clock.ftc + 2 ^ 32 - m.h.sftc) % 2 ^ 32 then bump s aRxAged 1
  else match dedupEpoch (dedupOf s snode) m.h.epoch with
    | none => bump s aRxEpoch 1
    | some w =>
      if dedupHit w m.h.aseq then sendEack (bump (setDedup s snode w) aRxDup 1) m.eack 1
      else applyRmsg (setDedup s snode (dedupMark w m.h.aseq)) m

/-- Device memory of the message lies on a stack that retrains: the message waits in its slot (R451). -/
def rmsgWaits (s : State) (m : RMsg) : Bool :=
  m.ty == 4 && (match tagFunc s m.h.tag with | none => false | some f => tenWaits s f m.h.addr m.data.length)

/-! ### MESSAGE_DELIVER (R347) -/

/-- The expansion of a port-coded message: its stream lies before its index table; none where it fails R259. -/
def expandWire (fmt len : Nat) (w : List Byte) : Option (List Byte) :=
  match fmtOf fmt with
  | none => none
  | some f =>
    if fmt < 3 ∨ 5 < fmt then none
    else
      let k := w.length - 8 * (atrHdr w).nt
      match atrExpand f false len (w.take k) (w.drop k) with
      | .ok img _ _ => if img.length = len then some img else none
      | _ => none

/-- The message that a slot holds; none where its expansion fails. -/
def rmsgOf (r : Reasm) : Option RMsg :=
  let h := mhdrOf r.payload
  let body := r.payload.drop 32
  let mk := fun (bs : List Byte) (poi : List Nat) =>
    RMsg.mk r.ty h bs poi (r.snode, h.aseq, h.epoch, r.cls)
  if r.atr then (expandWire h.fmt h.len body).map (fun img => mk img [])
  else
    let bs := padBytes h.len body
    some (mk bs ((List.range (ceilDiv h.len 32)).filter (fun i => nth false r.poison (i + 1))))

/-- MESSAGE_DELIVER: the slot's copy is whole; it is judged and its slot is freed. -/
def doDeliver (snode mtag : Nat) (s : State) : State :=
  match s.lnk.reasm.find? (isCopy snode mtag) with
  | none => s
  | some r =>
    if eclHalted s || !r.whole then s
    else match rmsgOf r with
      | none => bump (freeCopy s snode mtag) aRxAtr 1
      | some m => if rmsgWaits s m then s else judgeRmsg (freeCopy s snode mtag) snode m

/-- MESSAGE_DELIVER. -/
def execMessageDeliver (snode mtag : Nat) (s : State) : Host.Outcome State Fault Refusal :=
  hubCmd s (doDeliver snode mtag)

end Sys2Proof.Machine
end

