-- ==== Sys2Proof/Machine/MemStacks.lean ====
section
/-! DEFINITION. The memory stacks' own commands: codeword accesses, patrol, temperature, retrain, failure, the release scrub,
MEM_SAVE and MEM_PRIO (R435, R440 to R443, R449 to R457, R461, R539, R543). -/

namespace Sys2Proof.Machine

/-! ### Codewords -/

/-- A command on the codeword at physical address `p`; a stack that trains or retrains makes it wait (R448, R451). -/
def cwCmd (s : State) (p : Nat) (g : State → State) : Host.Outcome State Fault Refusal :=
  physCmd s p (fun s => if stackWaits s (stackOf p) then s else g s)

/-- CODEWORD_READ; the three commands name no requester, and take class B (DESIGN CHOICE, log entry 86). -/
def execCodewordRead (p : Nat) (s : State) : Host.Outcome State Fault Refusal := cwCmd s p (fun s => (physRead s .b (p / 64 * 64) 64).1)

/-- CODEWORD_WRITE: a whole codeword. -/
def execCodewordWrite (p : Nat) (data : List Byte) (poison : Bool) (s : State) : Host.Outcome State Fault Refusal :=
  cwCmd s p (fun s => physWrite s .b (p / 64 * 64) (padBytes 64 data) poison)

/-- PARTIAL_WRITE: bytes within one codeword. -/
def execPartialWrite (p : Nat) (data : List Byte) (poison : Bool) (s : State) : Host.Outcome State Fault Refusal :=
  cwCmd s p (fun s => physWrite s .b p (data.take (64 - p % 64)) poison)

/-- The patrol's read of a codeword, and its rewrite of what it corrected (R457). -/
def doPatrol (cw : Nat) (s : State) : State :=
  let (s, bs, poi) := cwRead (memAsk s 3 (64 * cw) 64) cw
  if poi || (cwErrs s cw).isEmpty then s else storeCw { s with mem.dev := memPut s.mem.dev (64 * cw) bs } cw false

/-- PATROL_READ, while MEM_STKn_CTL.PATROL is 1 and the stack takes requests. -/
def execPatrolRead (p : Nat) (s : State) : Host.Outcome State Fault Refusal :=
  cwCmd s p (fun s =>
    let k := getStack s (stackOf p)
    if k.patrol && k.st == .ready then doPatrol (p / 64) s else s)

/-! ### Stacks -/

/-- The hottest die of a stack reads `t`: at 105 °C or more the module shuts down (R497). -/
def doStackTemp (k : Nat) (t : Int) (s : State) : State :=
  let s := modStack s k (fun x => { x with temp := t })
  if 105 ≤ t then causeShut s true else s

/-- STACK_TEMP_READ. -/
def execStackTempRead (k : Nat) (t : Int) (s : State) : Host.Outcome State Fault Refusal :=
  stackCmd s k (doStackTemp k t)

/-- A tenant range has a byte on stack `k`. -/
def tenOn (s : State) (f t n k : Nat) : Bool :=
  match tenPieces s f t n with
  | none => false
  | some ps => ps.any (fun p => stackOf p.1 == k)

/-- A load placed a backing record, a KV directory, a prefix tree or a CONST range on stack `k` (R543). -/
def loadOn (s : State) (k : Nat) (l : Load) : Bool :=
  l.tiles.any (fun t => match (getTile s t.1 t.2).back with | some p => stackOf p == k | none => false) ||
    s.hub.ctxs.any (fun x => x.load == l.num && x.kvdir != 0 && tenOn s l.f x.kvdir 64 k) ||
    s.hub.insts.any (fun i => i.load == l.num && i.pfxtree != 0 && tenOn s l.f i.pfxtree 32 k) ||
    l.consts.any (fun r => tenOn s l.f r.1 r.2 k)

/-- Functions that have a window on stack `k`. -/
def windowFuncs (s : State) (k : Nat) : List Nat :=
  (s.hub.funcs.filter (fun p => p.2.wins.any (fun w => stackOf (w.2.pbase * unit2M) == k))).map (·.1)

/-- A region of function `f` among `rs` that is not DEGRADED yet. -/
def freshlyDegraded (s : State) (f : Nat) (rs : List Nat) : Bool :=
  rs.any (fun r => match getRegion s r with | some d => !d.degraded && d.f == f | none => false)

/-- Records of a module-level event for functions, then the regions become DEGRADED (R538, R539). -/
def widely (s : State) (code clu detail : Nat) (fs rs : List Nat) : State :=
  let ids := fun f => (rs.filter (fun r => match getRegion s r with | some d => d.f == f | none => false)).flatMap (faultItems s)
  let reps := fs.map (fun f => { moduleReport s f code clu detail (freshlyDegraded s f rs) with items := ids f })
  degradeAll (reps.foldl addReport s) rs

/-- A stack becomes FAILED in service (R449, R539, R543). -/
def stackFails (s : State) (k : Nat) : State :=
  if (getStack s k).st == .failed then s
  else
    let s := storeHeld (modStack s k (fun x => { x with st := .failed })) k
    let ls := s.hub.loads.filter (loadOn s k)
    let rs := (s.hub.regions.filter (fun d => ls.any (fun l => l.num == d.2.load))).map (·.1)
    widely s cStackFailed 0x7FF k (windowFuncs s k) rs

/-- STACK_FAIL. -/
def execStackFail (k : Nat) (s : State) : Host.Outcome State Fault Refusal := stackCmd s k (fun s => stackFails s k)

/-- A write of MEM_STKn_CTL.RETRAIN (R451). -/
def doStackRetrain (k : Nat) (s : State) : State :=
  if (getStack s k).st == .ready then modStack s k (fun x => { x with st := .retrain }) else s

/-- STACK_RETRAIN. -/
def execStackRetrain (k : Nat) (s : State) : Host.Outcome State Fault Refusal := stackCmd s k (doStackRetrain k)

/-- MEM_STKn_LANEc with lane `l` replaced; none where no spare of its kind is left (R449, R450, R461). -/
def laneAdd (v : Nat) (ca : Bool) (l : Nat) : Option Nat :=
  if ca then
    if bitB v 15 then (if bits v 14 8 = l then some v else none) else some (v + 2 ^ 15 + 2 ^ 8 * (l % 128))
  else if (bitB v 31 && bits v 30 24 == l) || (bitB v 23 && bits v 22 16 == l) then some v
  else if !bitB v 31 then some (v + 2 ^ 31 + 2 ^ 24 * (l % 128))
  else if !bitB v 23 then some (v + 2 ^ 23 + 2 ^ 16 * (l % 128))
  else none

/-- Failing lanes of a stack, by channel, kind and number, replaced; none where the spares do not suffice. -/
def lanesAdd : List (Nat × Bool × Nat) → Tab Nat → Option (Tab Nat)
  | [], t => some t
  | (c, ca, l) :: ls, t =>
    match laneAdd (tabGet 0 t c) ca l with
    | none => none
    | some v => lanesAdd ls (tabSet t c v)

/-- The channel, kind and number of the lane of a symbol. -/
def symLane (x : Nat × Nat) : Nat × Bool × Nat :=
  (x.1 / 2, false, if x.2 < 32 then 32 * (x.1 % 2) + x.2 else 64 + 4 * (x.1 % 2) + (x.2 - 32))

/-- STACK_RETRAIN_DONE: the lanes found failing take spares, those that failed since training among them, and the writes and records
that waited for the stack are made; a missed bound, or spares that do not suffice, fail the stack (R449, R451). -/
def doRetrained (k : Nat) (ok : Bool) (lanes : List (Nat × Bool × Nat)) (s : State) : State :=
  if (getStack s k).st != .retrain then s
  else match ok, lanesAdd (lanes ++ (getStack s k).bad.map symLane) (getStack s k).lanes with
    | true, some t =>
    let s := storeHeld (modStack s k (fun x => { x with st := .ready, lanes := t, bad := [] })) k
    (s.hub.rings.map (·.1)).foldl (fun s n => flushRing s (n / 2048) (n % 2048)) s
    | _, _ => stackFails s k

/-- STACK_RETRAIN_DONE. -/
def execStackRetrainDone (k : Nat) (ok : Bool) (lanes : List (Nat × Bool × Nat)) (s : State) :
    Host.Outcome State Fault Refusal := stackCmd s k (doRetrained k ok lanes)

/-! ### The release scrub and the save area (R454, R455) -/

/-- A range joins the memory scrub engine's work; a range on a FAILED stack is not scrubbed (R543). -/
def scrubAdd (s : State) (p n : Nat) : State :=
  if n = 0 || stackFailed s (stackOf p) then s else { s with mem.scrub := s.mem.scrub ++ [⟨p, n⟩] }

/-- RELEASE_SCRUB_DONE: the oldest range is zero and assignable; a stack that retrains keeps it waiting. -/
def doReleaseScrub (s : State) : State :=
  match s.mem.scrub with
  | [] => s
  | j :: js =>
    if stackWaits s (stackOf j.p) then s
    else
      let s := { s with mem.scrub := js }
      if stackFailed s (stackOf j.p) then s else physZero (memAsk s 3 j.p j.n) j.p j.n

/-- RELEASE_SCRUB_DONE. -/
def execReleaseScrubDone (s : State) : Host.Outcome State Fault Refusal := hubCmd s doReleaseScrub

/-- No region is valid and no load runs: a load that waits in the load queue, before its validation too, is one that runs (DESIGN
CHOICE, log entry 96). -/
def nothingLoaded (s : State) : Bool := s.hub.regions.isEmpty && s.hub.loadQ.isEmpty

/-- A write of MEM_SAVE (R454). -/
def doSaveWrite (v : Nat) (s : State) : State :=
  let s := if w1cTakes s aSave 63 v then { s with mem.saveRefused := false } else s
  if nothingLoaded s then setReg s aSave (v % 2 ^ 40)
  else { markSet s aSave (2 ^ 63) with mem.saveRefused := true }

/-- SAVE_AREA_WRITE. -/
def execSaveAreaWrite (v : Nat) (s : State) : Host.Outcome State Fault Refusal := hubCmd s (doSaveWrite v)

/-- First unit and size of the save area; size 0 while its stack is FAILED. -/
def saveBase (s : State) : Nat := bits (reg s aSave) 19 0
def saveSize (s : State) : Nat :=
  if stackFailed s (stackOf (saveBase s * unit2M)) then 0 else bits (reg s aSave) 39 20

/-- A write of MEM_PRIO: ignored where the shares sum above 32 (R461). -/
def doPrioWrite (v : Nat) (s : State) : State :=
  if 32 < bits v 23 16 + bits v 15 8 + bits v 7 0 then s else setReg s aPrio (v % 2 ^ 24)

/-- PRIO_WRITE. -/
def execPrioWrite (v : Nat) (s : State) : Host.Outcome State Fault Refusal := hubCmd s (doPrioWrite v)

end Sys2Proof.Machine
end

