-- ==== Sys2Proof/Machine/Scrub.lean ====
section
/-! DEFINITION. The housekeeping of a cluster: the gather buffer's write-backs, release, fence and scrub of partitions, accord
lines, and the cluster registers that a write acts through (R108, R112, R116, R125, R131 to R134, R218, R271, R486, R589,
R590). -/

namespace Sys2Proof.Machine

/-! ### Who reaches a CLU block (R382, R589, R590) -/

/-- Function `f` reaches the block of cluster `c`. -/
def cluReach (s : State) (f c : Nat) : Bool :=
  f == 0 || s.hub.regions.any (fun d => d.2.f == f && d.2.members.contains c)

/-- Function `f` reaches the registers of slot `n` of cluster `c`. -/
def slotReach (s : State) (f c n : Nat) : Bool :=
  f == 0 || (cluReach s f c && (match slotCtx s c n with | some x => x.f == f | none => false))

/-- Function `f` reaches the cluster-wide registers of cluster `c`. -/
def wideReach (s : State) (f c : Nat) : Bool := f == 0 || (cluReach s f c && !(getClu s c).share)

/-! ### The gather buffer (R125) -/

/-- GATHER_WRITEBACK: the dirty entry of a word is written back. -/
def execGatherWriteback (c word : Nat) (s : State) : Host.Outcome State Fault Refusal :=
  if word < 2 ^ 20 then cluRun s c (fun s => writeBack s c word) else .fault .noSuchAddress

/-! ### Release, fence, scrub (R131 to R134) -/

/-- The panels from `b` as bits. -/
def panelBits (b n : Nat) : Nat := 2 ^ b * (2 ^ n - 1)

/-- The gather entries outside the panels from `b` on. -/
def gatherOff (b n : Nat) (l : List GEnt) : List GEnt :=
  l.filter (fun e => decide (e.word < 65536 * b) || decide (65536 * (b + n) ≤ e.word))

/-- What the link interface still holds of a slot's operations is discarded: transfers that have not arrived, messages (R527). -/
def dropSends (s : State) (c sl : Nat) : State :=
  let ofOp := fun (x : Option (Nat × Nat × Nat)) => match x with | some y => y.1 == c && y.2.1 == sl | none => false
  let ofMsg := fun (m : Msg) => match m.owner with | .op d n _ => d == c && n == sl | .item _ => false
  { s with
    hub.xfers := s.hub.xfers.filter (fun x => !ofOp x.op)
    lnk.msgs := s.lnk.msgs.filter (fun m => !ofMsg m) }

/-- A context slot is released: its operations, its gather entries and what it has yet to send go, its trace ends, and its partition
waits for the fence (R131, R471, R527). CLU_RNG_SEEDn keeps its value (R602). -/
def releaseSlot (s : State) (c sl : Nat) : State :=
  let t := getSlot s c sl
  let gone := fun (k : Clu) =>
    { k with
      ops := k.ops.filter (fun o => o.sl != sl)
      trcBuf := k.trcBuf.filter (fun r => r.sl != sl)
      gather := if t.pvalid then gatherOff t.pbase t.pcount k.gather else k.gather }
  let a := cluAddr c (oTrcCfg sl)
  let s := modClu (dropSends s c sl) c gone
  let s := if bitB (reg s a) 63 then setReg s a (reg s a % 2 ^ 63) else s
  modSlot s c sl (fun k =>
    { slotReset with pvalid := k.pvalid, pbase := k.pbase, pcount := k.pcount, releasing := k.pvalid, seed := k.seed
                     seedPend := k.seedPend, trc := k.trc.gone })

/-- The panels of a range are fenced: they wait for the scrub engine, and the gather buffer forgets them. -/
def fencePanels (s : State) (c b n : Nat) : State :=
  modClu s c (fun k =>
    { k with
      fence := k.fence ||| panelBits b n
      scrubQ := k.scrubQ ++ [(b, n)]
      banks := k.banks.filter (fun x => decide (x.1 < 16 * b) || decide (16 * (b + n) ≤ x.1))
      gather := gatherOff b n k.gather })

/-- PARTITION_FENCE: at the event-tick boundary after the drain. -/
def fencePart (c sl : Nat) (s : State) : State :=
  let k := getSlot s c sl
  if !k.releasing then s
  else
    let s := if k.pvalid then fencePanels s c k.pbase k.pcount else s
    modSlot s c sl (fun k => { k with pvalid := false, pbase := 0, pcount := 0, releasing := false })

/-- PARTITION_FENCE. -/
def execPartitionFence (c sl : Nat) (s : State) : Host.Outcome State Fault Refusal :=
  slotCmd s c sl (fun s => if eclHalted s then s else fencePart c sl s)

/-- Panels of a scratchpad are zero, with valid check bits. -/
def zeroPanels (s : State) (c b n : Nat) : State :=
  { s with
    cl.spad := memZero s.cl.spad (spadKey c (2 ^ 21 * b)) (2 ^ 21 * n)
    cl.spadPoi := tabDrop s.cl.spadPoi (wordKey c (65536 * b)) (65536 * n)
    cl.spadErr := tabDrop s.cl.spadErr (wordKey c (65536 * b)) (65536 * n) }

/-- SCRUB_DONE: the first fenced partition is zero, and its panels are free (R132, R134). -/
def doScrub (c : Nat) (s : State) : State :=
  match (getClu s c).scrubQ with
  | [] => s
  | (b, n) :: l =>
    modClu (zeroPanels s c b n) c (fun k => { k with scrubQ := l, fence := k.fence - (k.fence &&& panelBits b n) })

/-- SCRUB_DONE. -/
def execScrubDone (c : Nat) (s : State) : Host.Outcome State Fault Refusal := cluRun s c (doScrub c)

/-! ### Accord lines (R271) -/

/-- The weight tiles of a cluster that hold the lines of the accord with entry `v`: in every quarter its directory line and, back
to back, its records (R272, R273). -/
def accTiles (s : State) (c v : Nat) : List Nat :=
  uniq ((List.range 32).flatMap (fun q =>
    let qb := 2 ^ 22 * q
    let dl := dirLine qb v
    let l0 := dirBase s c dl
    let l1 := min 8192 (recStart s c dl 1024)
    let recs := if l0 < l1 then (List.range ((l1 - 1) / 8 - l0 / 8 + 1)).map (fun i => l0 / 8 + i) else []
    (entDline v / 8 :: recs).map (fun t => 1024 * q + t)))

/-- The weight tiles of a cluster whose lines operations that sampled a cleared entry may still read (R271). -/
def heldTiles (s : State) (c : Nat) : List Nat := (getClu s c).accHeld.flatMap (fun p => accTiles s c p.2.toNat)

/-- A load in force has placed the tile. -/
def loadedTile (s : State) (c t : Nat) : Bool := s.hub.loads.any (fun l => l.tiles.contains (c, t))

/-- ACCORD_LINES_FREE: no operation that sampled the cleared entry is left; the tiles that held its lines become EMPTY, but for
those that a load in force or another accord holds. -/
def doLinesFree (c ent : Nat) (s : State) : State :=
  match tabFind (getClu s c).accHeld ent with
  | none => s
  | some v =>
    if (getClu s c).ops.any (fun o => o.ent == some v.toNat) then s
    else
      let ts := accTiles s c v.toNat
      let s := modClu s c (fun k => { k with accHeld := tabDel k.accHeld ent })
      let kept := heldTiles s c
      (ts.filter (fun t => !kept.contains t && !loadedTile s c t)).foldl (fun s t => putTile s c t tileReset) s

/-- ACCORD_LINES_FREE. -/
def execAccordLinesFree (c ent : Nat) (s : State) : Host.Outcome State Fault Refusal := cluCmd s c (doLinesFree c ent)

/-! ### Registers whose writes act (R112, R116, R218) -/

/-- The slots of a mask that function `f` reaches. -/
def reachMask (s : State) (f c mask : Nat) : Nat :=
  natSum ((List.range 4).map (fun n => if bitB mask n && slotReach s f c n then 2 ^ n else 0))

/-- A write of CLU_KV_INVAL. -/
def doKvInval (f c mask : Nat) (s : State) : State := dropLb s c (reachMask s f c mask)

/-- KV_INVAL. -/
def execKvInval (f c mask : Nat) (s : State) : Host.Outcome State Fault Refusal := cluCmd s c (doKvInval f c mask)

/-- An 8-byte write of CLU_RNG_SEEDn: the seed waits for the event-tick boundary, and the function of the slot's context
records it. -/
def doSeedWrite (f c sl v : Nat) (s : State) : State :=
  if !slotReach s f c sl then s
  else
    let s := modSlot s c sl (fun k => { k with seedPend := some (BitVec.ofNat 64 v) })
    match slotCtx s c sl with
    | none => s
    | some x => ephPut s x.f 3 0x7FF 0 (leBytes 2 c ++ leBytes 1 sl ++ leBytes 5 0 ++ leBytes 8 v)

/-- SEED_WRITE. -/
def execSeedWrite (f c sl v : Nat) (s : State) : Host.Outcome State Fault Refusal := slotCmd s c sl (doSeedWrite f c sl v)

/-- SEED_APPLY: the seed takes effect and the slot's running counters start at 0. -/
def doSeedApply (c sl : Nat) (s : State) : State :=
  match (getSlot s c sl).seedPend with
  | none => s
  | some v => modSlot s c sl (fun k => { k with seed := v, seedPend := none, rng := [] })

/-- SEED_APPLY. -/
def execSeedApply (c sl : Nat) (s : State) : Host.Outcome State Fault Refusal := slotCmd s c sl (doSeedApply c sl)

/-- A write of CLU_PREC_CTL: the numbering of GATE operations starts again (R116). -/
def doPrecWrite (f c v : Nat) (s : State) : State :=
  if wideReach s f c then
    modClu (setReg s (cluAddr c oPrecCtl) (v % 2 ^ 32)) c (fun k => { k with gateNo := 1 })
  else s

/-- PREC_CTL_WRITE. -/
def execPrecCtlWrite (f c v : Nat) (s : State) : Host.Outcome State Fault Refusal := cluCmd s c (doPrecWrite f c v)

/-- STORM_WINDOW_END: a window with enough fallbacks counts (R108). -/
def doStormEnd (c : Nat) (s : State) : State :=
  let n := (getClu s c).fbWin
  let thr := bits (cluReg s c oPrecCtl) 15 0
  let s := if thr ≠ 0 ∧ thr ≤ n then bumpC s c oStorm 1 else s
  modClu s c (fun k => { k with fbWin := 0 })

/-- STORM_WINDOW_END. -/
def execStormWindowEnd (c : Nat) (s : State) : Host.Outcome State Fault Refusal := cluCmd s c (doStormEnd c)

end Sys2Proof.Machine
end

