-- ==== Sys2Proof/Machine/Losses.lean ====
section
/-! DEFINITION. Fault records, lost cores, lost clusters, fenced dies, aborted regions (R185 to R187, R309, R469, R470, R531 to
R543). -/

namespace Sys2Proof.Machine

/-! ### Fault records (R186, R187, R399, R470) -/

/-- A report's record has been written: its work items' completion records say so (R394). -/
def markItems (s : State) (ids : List Nat) : State :=
  ids.foldl (fun s id => modItem s id (fun i => { i with frec := true })) s

/-- The record of a report is written, or dropped and counted. -/
def writeReport (s : State) (r : Report) : State :=
  let t := writeFault s r
  if (getFunc t r.f).frTail = (getFunc s r.f).frTail then t else markItems t r.items

/-- The stack that holds a function's fault ring makes requests wait (R451). -/
def frWaits (s : State) (f : Nat) : Bool :=
  let cfg := tenReg s f oFrCfg
  bitB cfg 5 && tenWaits s f (tenReg s f oFrAddr + 32 * ((getFunc s f).frTail % 2 ^ ringLog cfg)) 32

/-- FAULT_RECORD_WRITE: the first report of a function becomes a record, unless its DMA is held (R186, R403). -/
def doRecordWrite (f : Nat) (s : State) : State :=
  if dmaHeld s f || frWaits s f then s
  else match sortBy reportLt (s.hub.reports.filter (fun r => r.f == f)) with
    | [] => s
    | r :: _ => writeReport { s with hub.reports := s.hub.reports.erase r } r

/-- FAULT_RECORD_WRITE. -/
def execFaultRecordWrite (f : Nat) (s : State) : Host.Outcome State Fault Refusal := funcCmd s f (doRecordWrite f)

/-! ### Losing a cluster (R309, R537) -/

/-- Every slot of a cluster becomes FAULTED. -/
def faultSlots (s : State) (c : Nat) : State := (List.range 4).foldl (fun s n => haltFaulted s c n) s

/-- A cluster becomes LOST: records, slots, regions. -/
def loseCluster (s : State) (c : Nat) : State :=
  if (getClu s c).lost then s
  else
    let s := modClu s c (fun k => { k with lost := true })
    let on := fun x => x == c
    widely (faultSlots s c) cClusterLost c 0 (functionsOn s on) (regionsOn s on)

/-- A cluster is lost otherwise than by a core: its station has failed, and is bypassed at the next load (R301, R309). -/
def doClusterLost (c : Nat) (s : State) : State :=
  loseCluster (modClu s c (fun k => { k with bypassPend := k.bypassPend || !k.bypass })) c

/-- CLUSTER_LOST. -/
def execClusterLost (c : Nat) (s : State) : Host.Outcome State Fault Refusal := cluCmd s c (doClusterLost c)

/-! ### Losing a core (R147, R148, R534, R535) -/

/-- The logical core that physical core `p` serves, before it dies. -/
def logicalOf (k : Clu) (p : Nat) : Option Nat :=
  if p < 8 then (if k.spareUsed && k.dead.contains p then none else some p)
  else if k.spareUsed then k.dead.find? (fun q => decide (q < 8)) else none

/-- Bytes 5 and 6 of a record that names a core, and an engine below 4 and a lane below 8 where they are known (R532). -/
def coreBytes (l p eng lane : Nat) : Nat :=
  l + 16 * p + 256 * ((if eng < 4 then eng + 4 else 0) + (if lane < 8 then 8 * lane + 64 else 0))

/-- The operation runs on engines of logical core `l`. -/
def runsOn (l : Nat) (o : Op) : Bool :=
  isEngine o && o.phase != .issued && o.phase != .done && (engIds o.desc).any (fun e => e / 4 == l)

/-- A report of this event tick of an operation that ran on engines of core `l` reports the lost core, where its own event ranks
lower (R470). -/
def lostInstead (s : State) (c l core : Nat) (r : Report) : Report :=
  let ran := !r.run.isEmpty && (engIds r.run).any (fun e => e / 4 == l)
  if r.clu == c && ran && r.tick == 16 * eventTick s && decide (eventRank .lost < reportRank r) then
    { r with code := cCoreLost, detail := 0, core := core }
  else r

/-- The operations on a dead core end, and its slice is EMPTY. -/
def loseSlice (s : State) (c l core : Nat) : State :=
  let s := { s with hub.reports := s.hub.reports.map (lostInstead s c l core) }
  let s := ((getClu s c).ops.filter (runsOn l)).foldl (fun s o => opFaultAt s c o cCoreLost 0 core) s
  let s := { s with cl.tiles := tabDrop s.cl.tiles (32768 * c + 4096 * l) 4096 }
  modClu s c (fun k => { k with lostSlice := some l })

/-- The dead cores of a cluster are more than its spare replaces (R148, R309). -/
def spareShort (k : Clu) : Bool :=
  decide ((if k.dead.contains 8 then 0 else 1) < (k.dead.filter (fun p => decide (p < 8))).length)

/-- Physical core `p` of a cluster is marked dead. -/
def loseCore (s : State) (c p eng lane : Nat) : State :=
  let k := getClu s c
  if k.dead.contains p then s
  else
    let s := modClu s c (fun k => { k with dead := k.dead ++ [p] })
    let s := match logicalOf k p with | some l => loseSlice s c l (coreBytes l p eng lane) | none => s
    let s := degradeAll s (regionsOn s (fun x => x == c))
    if spareShort (getClu s c) then loseCluster s c else s

/-- CORE_LOST: a check of the core has failed. -/
def execCoreLost (c core eng lane : Nat) (s : State) : Host.Outcome State Fault Refusal :=
  if core < 9 then cluCmd s c (fun s => loseCore s c core eng lane) else .fault .noSuchAddress

/-- CORE_HEARTBEAT_SAMPLE: cores whose heartbeat is missed are marked dead. -/
def execCoreHeartbeatSample (c : Nat) (missed : List Nat) (s : State) : Host.Outcome State Fault Refusal :=
  cluRun s c (fun s => (missed.filter (fun p => decide (p < 9))).foldl (fun s p => loseCore s c p 4 8) s)

/-! ### Fencing a die (R541, R542) -/

/-- Functions with a context on a die, or a window on its stack (R539). -/
def dieFuncs (s : State) (d : Nat) : List Nat :=
  let ws := match dieStack d with | some k => windowFuncs s k | none => []
  sortBy (fun a b => decide (a < b)) (uniq (functionsOn s (fun c => dieOf c == d) ++ ws))

/-- One cluster of a fenced die: LOST, its station domain off. -/
def fenceClu (s : State) (c : Nat) : State :=
  modClu (faultSlots s c) c (fun k => { k with lost := true, stationOff := true })

/-- A die is fenced. -/
def fenceDie (s : State) (d : Nat) : State :=
  if s.hub.fenced.contains d then s
  else
    let on := fun c => dieOf c == d
    let fs := dieFuncs s d
    let rs := regionsOn s on
    let s := (dieClusters d).foldl fenceClu { s with hub.fenced := s.hub.fenced ++ [d] }
    let s := match dieStack d with | some k => stackFails s k | none => s
    widely s cDieFenced 0x7FF d fs rs

/-- DIE_FENCE: an uncorrectable error of the die, or its sensor's failure. -/
def execDieFence (d : Nat) (s : State) : Host.Outcome State Fault Refusal :=
  if d < Config.dies then hubCmd s (fun s => fenceDie s d) else .fault .noSuchDie

/-- A valid region has a member on the die. -/
def dieUsed (s : State) (d : Nat) : Bool := s.hub.regions.any (fun r => r.2.members.any (fun c => dieOf c == d))

/-- A write of HUB_DIE_FCMD. -/
def doDieFcmd (v : Nat) (s : State) : State :=
  let d := bits v 4 0
  if !bitB v 31 || decide (24 ≤ d) then s
  else if dieUsed s d then { markSet s aDieFence (2 ^ 31) with hub.fenceRefused := true }
  else fenceDie s d

/-- DIE_FENCE_CMD. -/
def execDieFenceCmd (v : Nat) (s : State) : Host.Outcome State Fault Refusal := hubCmd s (doDieFcmd v)

/-! ### RGN_ABORT (R538, R548) -/

/-- A write of TEN_RGNABORT: region [7:0] of the writing function becomes DEGRADED. -/
def doRgnAbort (f v : Nat) (s : State) : State :=
  let r := bits v 7 0
  match getRegion s r with
  | none => s
  | some d => if bitB v 31 && d.f == f then degradeRegion s r false else s

/-- RGN_ABORT. -/
def execRgnAbort (f v : Nat) (s : State) : Host.Outcome State Fault Refusal := funcCmd s f (doRgnAbort f v)

end Sys2Proof.Machine
end

