-- ==== Sys2Proof/Machine/Crypto.lean ====
section
/-! DEFINITION. SHA-512 and ECDSA on P-521 (R28, R354 to R356, R523). The spec names both and gives neither: the algorithms,
their constants and the curve are those of the published standards (log entry 35). -/

namespace Sys2Proof.Machine

/-! ### SHA-512 -/

/-- Round constants 0 to 19. -/
def shaK0 : List Nat :=
  [0x428a2f98d728ae22, 0x7137449123ef65cd, 0xb5c0fbcfec4d3b2f, 0xe9b5dba58189dbbc] ++
  [0x3956c25bf348b538, 0x59f111f1b605d019, 0x923f82a4af194f9b, 0xab1c5ed5da6d8118] ++
  [0xd807aa98a3030242, 0x12835b0145706fbe, 0x243185be4ee4b28c, 0x550c7dc3d5ffb4e2] ++
  [0x72be5d74f27b896f, 0x80deb1fe3b1696b1, 0x9bdc06a725c71235, 0xc19bf174cf692694] ++
  [0xe49b69c19ef14ad2, 0xefbe4786384f25e3, 0x0fc19dc68b8cd5b5, 0x240ca1cc77ac9c65]

/-- Round constants 20 to 39. -/
def shaK1 : List Nat :=
  [0x2de92c6f592b0275, 0x4a7484aa6ea6e483, 0x5cb0a9dcbd41fbd4, 0x76f988da831153b5] ++
  [0x983e5152ee66dfab, 0xa831c66d2db43210, 0xb00327c898fb213f, 0xbf597fc7beef0ee4] ++
  [0xc6e00bf33da88fc2, 0xd5a79147930aa725, 0x06ca6351e003826f, 0x142929670a0e6e70] ++
  [0x27b70a8546d22ffc, 0x2e1b21385c26c926, 0x4d2c6dfc5ac42aed, 0x53380d139d95b3df] ++
  [0x650a73548baf63de, 0x766a0abb3c77b2a8, 0x81c2c92e47edaee6, 0x92722c851482353b]

/-- Round constants 40 to 59. -/
def shaK2 : List Nat :=
  [0xa2bfe8a14cf10364, 0xa81a664bbc423001, 0xc24b8b70d0f89791, 0xc76c51a30654be30] ++
  [0xd192e819d6ef5218, 0xd69906245565a910, 0xf40e35855771202a, 0x106aa07032bbd1b8] ++
  [0x19a4c116b8d2d0c8, 0x1e376c085141ab53, 0x2748774cdf8eeb99, 0x34b0bcb5e19b48a8] ++
  [0x391c0cb3c5c95a63, 0x4ed8aa4ae3418acb, 0x5b9cca4f7763e373, 0x682e6ff3d6b2b8a3] ++
  [0x748f82ee5defb2fc, 0x78a5636f43172f60, 0x84c87814a1f0ab72, 0x8cc702081a6439ec]

/-- Round constants 60 to 79. -/
def shaK3 : List Nat :=
  [0x90befffa23631e28, 0xa4506cebde82bde9, 0xbef9a3f7b2c67915, 0xc67178f2e372532b] ++
  [0xca273eceea26619c, 0xd186b8c721c0c207, 0xeada7dd6cde0eb1e, 0xf57d4f7fee6ed178] ++
  [0x06f067aa72176fba, 0x0a637dc5a2c898a6, 0x113f9804bef90dae, 0x1b710b35131c471b] ++
  [0x28db77f523047d84, 0x32caab7b40c72493, 0x3c9ebe0a15c9bebc, 0x431d67c49c100d4c] ++
  [0x4cc5d4becb3e42b6, 0x597f299cfc657e2a, 0x5fcb6fab3ad6faec, 0x6c44198c4a475817]

/-- The round constants. -/
def shaK : List Nat := shaK0 ++ shaK1 ++ shaK2 ++ shaK3

/-- The first hash value. -/
def shaH : List Nat :=
  [0x6a09e667f3bcc908, 0xbb67ae8584caa73b, 0x3c6ef372fe94f82b, 0xa54ff53a5f1d36f1] ++
  [0x510e527fade682d1, 0x9b05688c2b3e6c1f, 0x1f83d9abfb41bd6b, 0x5be0cd19137e2179]

/-- A 64-bit sum, and a rotation to the right. -/
def add64 (a b : Nat) : Nat := (a + b) % 2 ^ 64
def ror64 (x n : Nat) : Nat := (x >>> n ||| x <<< (64 - n)) % 2 ^ 64

/-- The next word of the message schedule from the last 16, newest first. -/
def shaWord (w : List Nat) : Nat :=
  let a := nth 0 w 14
  let b := nth 0 w 1
  let s0 := ror64 a 1 ^^^ ror64 a 8 ^^^ a >>> 7
  let s1 := ror64 b 19 ^^^ ror64 b 61 ^^^ b >>> 6
  (nth 0 w 15 + s0 + nth 0 w 6 + s1) % 2 ^ 64

/-- The eight working words after one round with constant `k` and schedule word `w`. -/
def shaRound (v : List Nat) (k w : Nat) : List Nat :=
  match v with
  | [a, b, c, d, e, f, g, h] =>
    let s1 := ror64 e 14 ^^^ ror64 e 18 ^^^ ror64 e 41
    let ch := e &&& f ^^^ (2 ^ 64 - 1 - e) &&& g
    let t1 := (h + s1 + ch + k + w) % 2 ^ 64
    let s0 := ror64 a 28 ^^^ ror64 a 34 ^^^ ror64 a 39
    let maj := a &&& b ^^^ a &&& c ^^^ b &&& c
    [add64 t1 (s0 + maj), a, b, c, add64 d t1, e, f, g]
  | _ => v

/-- The rounds of a block: `w` holds the last 16 schedule words, newest first, of which the oldest is next. -/
def shaRounds : List Nat → List Nat → List Nat → List Nat
  | [], v, _ => v
  | k :: ks, v, w => shaRounds ks (shaRound v k (nth 0 w 15)) ((shaWord w :: w).take 16)

/-- One block of 128 bytes. -/
def shaBlock (h : List Nat) (b : List Byte) : List Nat :=
  let w := ((chunks 8 b).map beNat).reverse
  ((h.zip (shaRounds shaK h w)).map (fun p => add64 p.1 p.2))

/-- The message with its padding. -/
def shaPad (m : List Byte) : List Byte :=
  let n := m.length
  m ++ [0x80] ++ List.replicate ((239 - n % 128) % 128) 0 ++ beBytes 16 (8 * n)

/-- SHA-512 of a byte string: 64 bytes. -/
def sha512 (m : List Byte) : List Byte := ((chunks 128 (shaPad m)).foldl shaBlock shaH).flatMap (fun x => beBytes 8 x)

/-- The digests of a section's chunks of 64 MiB, and their digest (R356). -/
def chunkDigests (data : List Byte) : List (List Byte) := (chunks (2 ^ 26) data).map sha512
def sectionDigest (data : List Byte) : List Byte := sha512 (chunkDigests data).flatten

/-! ### P-521 -/

/-- The field's prime; the curve is y^2 = x^3 − 3x + b. -/
def curveP : Nat := 2 ^ 521 - 1

/-- The curve's b. -/
def curveB : Nat :=
  0x0051953eb9618e1c9a1f929a21a0b68540eea2da725b99b315f3b8b489918ef1 * 2 ^ 272 +
    0x09e156193951ec7e937b1652c0bd3bb1bf073573df883d2c34f1ef451fd46b503f00

/-- The base point. -/
def curveGx : Nat :=
  0x00c6858e06b70404e9cd9e3ecb662395b4429c648139053fb521f828af606b4d * 2 ^ 272 +
    0x3dbaa14b5e77efe75928fe1dc127a2ffa8de3348b3c1856a429bf97e7e31c2e5bd66
def curveGy : Nat :=
  0x011839296a789a3bc0045c8a5fb42c7d1bd998f54449579b446817afbd17273e * 2 ^ 272 +
    0x662c97ee72995ef42640c550b9013fad0761353c7086a272c24088be94769fd16650

/-- The order of the base point. -/
def curveN : Nat :=
  0x01ffffffffffffffffffffffffffffffffffffffffffffffffffffffffffffff * 2 ^ 272 +
    0xfffa51868783bf2f966b7fcc0148f709a5d03bb5c9b8899c47aebb6fb71e91386409

/-- `b` to the power `e` modulo `m`, over `n` bits of the exponent. -/
def powMod (m : Nat) : Nat → Nat → Nat → Nat → Nat
  | 0, _, _, acc => acc
  | n + 1, b, e, acc => powMod m n (b * b % m) (e / 2) (if e % 2 = 1 then acc * b % m else acc)

/-- The inverse modulo a prime of at most 521 bits. -/
def invMod (m x : Nat) : Nat := powMod m 521 (x % m) (m - 2) 1

/-- The difference modulo `p`. -/
def subP (a b : Nat) : Nat := (a + (curveP - b % curveP)) % curveP

/-- The sum of two points; `none` is the point at infinity. -/
def curveAdd (a b : Option (Nat × Nat)) : Option (Nat × Nat) :=
  match a, b with
  | none, q => q
  | p, none => p
  | some (x1, y1), some (x2, y2) =>
    if x1 = x2 ∧ (y1 + y2) % curveP = 0 then none
    else
      let l := if x1 = x2 then subP (3 * x1 * x1) 3 * invMod curveP (2 * y1) % curveP
        else subP y2 y1 * invMod curveP (subP x2 x1) % curveP
      let x3 := subP (l * l) (x1 + x2)
      some (x3, subP (l * subP x1 x3) y1)

/-- The multiple of a point, over `n` bits of the factor. -/
def curveMul : Nat → Nat → Option (Nat × Nat) → Option (Nat × Nat) → Option (Nat × Nat)
  | 0, _, _, acc => acc
  | n + 1, k, p, acc => curveMul n (k / 2) (curveAdd p p) (if k % 2 = 1 then curveAdd acc p else acc)

/-- The point lies on the curve. -/
def onCurve (x y : Nat) : Bool :=
  decide (x < curveP) && decide (y < curveP) && (y * y + 3 * x) % curveP == (x * x * x + curveB) % curveP

/-- A signature (r, s) of a digest verifies with the public key (x, y). -/
def ecdsaVerify (x y r sg : Nat) (digest : List Byte) : Bool :=
  if r = 0 ∨ curveN ≤ r ∨ sg = 0 ∨ curveN ≤ sg ∨ onCurve x y = false then false
  else
    let w := invMod curveN sg
    let u1 := beNat digest * w % curveN
    let u2 := r * w % curveN
    match curveAdd (curveMul 521 u1 (some (curveGx, curveGy)) none) (curveMul 521 u2 (some (x, y)) none) with
    | none => false
    | some (px, _) => px % curveN == r

end Sys2Proof.Machine
end

