-- ==== Sys2Proof/Machine/Regions.lean ====
section
/-! DEFINITION. What the physical function sets for regions: the reserve count, shared-cluster mode, the grants (R305, R307,
R308, R314). -/

namespace Sys2Proof.Machine

/-! ### HUB_RSV_CTL (R308) -/

/-- A write of HUB_RSV_CTL. -/
def doRsvWrite (v : Nat) (s : State) : State :=
  let s := if w1cTakes s aRsvCtl 31 v then { s with hub.rsvRefused := false } else s
  if nothingLoaded s then { s with hub.rsvCount := bits v 1 0 }
  else { markSet s aRsvCtl (2 ^ 31) with hub.rsvRefused := true }

/-- RSV_COUNT_WRITE. -/
def execRsvCountWrite (v : Nat) (s : State) : Host.Outcome State Fault Refusal := hubCmd s (doRsvWrite v)

/-! ### HUB_CLU_MAP.SHARE (R307) -/

/-- A write of the SHARE bit of cluster `c`: clearing takes effect only while its contexts belong to at most one function. -/
def doShareWrite (c : Nat) (v : Bool) (s : State) : State :=
  if v || decide ((functionsOn s (fun x => x == c)).length ≤ 1) then modClu s c (fun k => { k with share := v }) else s

/-- SHARE_WRITE. -/
def execShareWrite (c : Nat) (v : Bool) (s : State) : Host.Outcome State Fault Refusal := cluCmd s c (doShareWrite c v)

/-! ### Grants (R305) -/

/-- The fields of a grant that can be written. -/
def grantMask : Nat := 0x8000_03FF_3F3F_1F3F

/-- VALID and FUNC of a grant. -/
def grantValid (v : Nat) : Bool := bitB v 63
def grantFunc (v : Nat) : Nat := bits v 41 32

/-- A cluster's position lies in a grant's rectangle. -/
def inGrant (v c : Nat) : Bool := inRect (bits v 5 0 % 48) (bits v 12 8) (bits v 21 16) (bits v 29 24) c

/-- Two grants are valid and share a position. -/
def grantsMeet (a b : Nat) : Bool :=
  grantValid a && grantValid b && (List.range Config.clusters).any (fun c => inGrant a c && inGrant b c)

/-- The grant in force at index `g`. -/
def grantAt (s : State) (g : Nat) : Nat := (tabGet 0 s.hub.grants g).toNat

/-- The grant at index `g` once the writes that wait have taken effect. -/
def grantNext (s : State) (g : Nat) : Nat :=
  match (s.hub.grantPend.filter (fun p => p.1 == g)).getLast? with
  | some p => p.2.toNat
  | none => grantAt s g

/-- A loaded pipeline region uses grant `g`. -/
def grantUsed (s : State) (g : Nat) : Bool := s.hub.regions.any (fun r => r.2.pipe && r.2.grant == g)

/-- A write of HUB_RGN_GRANTg: ignored where the grant is in use, or would overlap another; else it waits for the event-tick
boundary. -/
def doGrantWrite (g v : Nat) (s : State) : State :=
  let v := v &&& grantMask
  if grantUsed s g || (List.range 8).any (fun h => h != g && grantsMeet v (grantNext s h)) then
    { markSet s aGstat (2 ^ 31) with hub.grantRefused := true }
  else { s with hub.grantPend := s.hub.grantPend ++ [(g, BitVec.ofNat 64 v)] }

/-- GRANT_WRITE. -/
def execGrantWrite (g v : Nat) (s : State) : Host.Outcome State Fault Refusal :=
  if g < 8 then hubCmd s (doGrantWrite g v) else .fault .noSuchQueue

/-- The grant writes that wait take effect. -/
def doGrantApply (s : State) : State :=
  let gs := s.hub.grantPend.foldl (fun t p => tabPut 0 t p.1 p.2) s.hub.grants
  { s with hub.grants := gs, hub.grantPend := [] }

/-- GRANT_APPLY. -/
def execGrantApply (s : State) : Host.Outcome State Fault Refusal := hubCmd s doGrantApply

end Sys2Proof.Machine
end

