-- ==== Sys2Proof/Machine/HostQ.lean ====
section
/-! DEFINITION. The host's side: queues, doorbells, completion rings, holds, the aperture, windows, queue assignment
(R383 to R390, R394 to R404, R407, R453). -/

namespace Sys2Proof.Machine

/-! ### Queue assignment (R380, R383) -/

/-- BASE and COUNT of function `f`'s queue range. -/
def qaBase (s : State) (f : Nat) : Nat := bits (reg s (aQAssign f)) 15 0
def qaCount (s : State) (f : Nat) : Nat := bits (reg s (aQAssign f)) 27 16

/-- The function exists. -/
def funcLives (s : State) (f : Nat) : Bool := decide (f < Config.functions) && decide (f ≤ s.hub.numVfs)

/-- Queue `q` belongs to function `f`. -/
def queueLives (s : State) (f q : Nat) : Bool := decide (q < qaCount s f)

/-- A queue of function `f` is not OFF. -/
def queuesBusy (s : State) (f : Nat) : Bool :=
  (tabRange s.hub.queues (2048 * f) 2048).any (fun p => p.2.st != .off)

/-- Other functions with a range that meets the `n` global queues from `b`. -/
def qaMeets (s : State) (f b n : Nat) : Bool :=
  (List.range Config.functions).any (fun g => g != f && qaCount s g != 0 && overlaps b n (qaBase s g) (qaCount s g))

/-- A write of HUB_QASSIGNf. -/
def doQassign (f v : Nat) (s : State) : State :=
  let s := if w1cTakes s (aQAssign f) 31 v then { s with hub.qaRefused := s.hub.qaRefused.filter (fun x => x != f) } else s
  let b := bits v 15 0
  let n := bits v 27 16
  if funcLives s f && decide (n ≤ 2048) && decide (b + n ≤ 65536) && !queuesBusy s f && !(decide (0 < n) && qaMeets s f b n)
  then setReg s (aQAssign f) (b + 2 ^ 16 * n)
  else
    let s := markSet s (aQAssign f) (2 ^ 31)
    if s.hub.qaRefused.contains f then s else { s with hub.qaRefused := s.hub.qaRefused ++ [f] }

/-- QASSIGN_WRITE. -/
def execQassignWrite (f v : Nat) (s : State) : Host.Outcome State Fault Refusal :=
  if f < Config.functions then hubCmd s (doQassign f v) else .fault .noSuchFunction

/-! ### Queue states (R385, R386, R403, R406) -/

/-- Fields of TEN_SQCFGq and of a ring's configuration. -/
def sqClass (s : State) (f q : Nat) : Cls := clsOf (bits (tenReg s f (oSqCfg q)) 12 11)
def sqDevice (s : State) (f q : Nat) : Bool := bitB (tenReg s f (oSqCfg q)) 10
def sqSize (s : State) (f q : Nat) : Nat := 2 ^ ringLog (tenReg s f (oSqCfg q))
def sqBase (s : State) (f q : Nat) : Nat := tenReg s f (oSqAddr q) / 1024 * 1024

/-- RUN and HOLD follow the function's Bus Master Enable and HBEXP. -/
def holdState (s : State) (f : Nat) (q : QSt) : QSt :=
  match q with
  | .run => if dmaHeld s f then .hold else .run
  | .hold => if dmaHeld s f then .hold else .run
  | _ => q

/-- Every queue of a function follows its holds. -/
def holdQueues (s : State) (f : Nat) : State :=
  let qs := s.hub.queues.map (fun p => if p.1 / 2048 = f then (p.1, { p.2 with st := holdState s f p.2.st }) else p)
  { s with hub.queues := qs }

/-- A write of EN = 1 in OFF (R386). -/
def doQueueEnable (f q : Nat) (s : State) : State :=
  if !queueLives s f q || (getFunc s f).flrbusy || (getQueue s f q).st != .off then s
  else
    let s := setReg s (tenAddr f (oSqCfg q)) (tenReg s f (oSqCfg q) ||| 2 ^ 31)
    modQueue s f q (fun _ => { queueReset with st := holdState s f .run })

/-- QUEUE_ENABLE. -/
def execQueueEnable (f q : Nat) (s : State) : Host.Outcome State Fault Refusal := queueCmd s f q (doQueueEnable f q)

/-- A write of EN = 0 in RUN, HOLD or ERROR: pending entries are never started. -/
def doQueueDisable (f q : Nat) (s : State) : State :=
  let k := getQueue s f q
  let s := setReg s (tenAddr f (oSqCfg q)) (tenReg s f (oSqCfg q) % 2 ^ 31)
  match k.st with
  | .off => s
  | .stopping => s
  | _ => modQueue s f q (fun k => { k with st := .stopping, inl := [], fetched := [] })

/-- QUEUE_DISABLE. -/
def execQueueDisable (f q : Nat) (s : State) : Host.Outcome State Fault Refusal :=
  queueCmd s f q (fun s => if queueLives s f q then doQueueDisable f q s else s)

/-- A record of queue `q` is held for a ring of function `f`. -/
def recHeld (s : State) (f q : Nat) : Bool :=
  (tabRange s.hub.rings (2048 * f) 2048).any (fun p => p.2.held.any (fun x => x.sq == q))

/-- Work items of a queue that have started and not completed. -/
def queueItems (s : State) (f q : Nat) : List Item := s.hub.items.filter (fun i => i.f == f && i.q == q)

/-- STOPPING becomes OFF once every item has completed and its record has been written or discarded. -/
def doQueueStopped (f q : Nat) (s : State) : State :=
  if (getQueue s f q).st == .stopping && (queueItems s f q).isEmpty && !recHeld s f q then
    modQueue s f q (fun k => { k with st := .off })
  else s

/-- QUEUE_STOPPED. -/
def execQueueStopped (f q : Nat) (s : State) : Host.Outcome State Fault Refusal := queueCmd s f q (doQueueStopped f q)

/-! ### Doorbells (R388) -/

/-- A dropped write to BAR2. -/
def dropBell (s : State) (f : Nat) : State := bump s (tenAddr f oDbDrop) 1

/-- The queue takes doorbells. -/
def takesBells (s : State) (f q : Nat) : Bool :=
  queueLives s f q && !(getFunc s f).flrbusy &&
    (match (getQueue s f q).st with | .run => true | .hold => true | _ => false)

/-- A tail doorbell with the new TAIL `t`. -/
def doTail (f q t : Nat) (s : State) : State :=
  let k := getQueue s f q
  let t := t % 2 ^ 32
  if takesBells s f q && decide (sub32 t k.tail < 2 ^ 31) && decide (sub32 t k.head ≤ sqSize s f q) then
    modQueue s f q (fun k => { k with tail := t })
  else dropBell s f

/-- TAIL_DOORBELL; a slot number beyond every queue is dropped too. -/
def execTailDoorbell (f q tail : Nat) (s : State) : Host.Outcome State Fault Refusal := funcCmd s f (doTail f q tail)

/-- A 64-byte write of a whole slot. -/
def doInline (f q : Nat) (d : List Byte) (s : State) : State :=
  let k := getQueue s f q
  if takesBells s f q && d.length == 64 && decide (sub32 k.tail k.head < sqSize s f q) && decide (k.inl.length < 8) then
    modQueue s f q (fun k => { k with inl := k.inl ++ [(k.tail, d)], tail := (k.tail + 1) % 2 ^ 32 })
  else dropBell s f

/-- INLINE_DESCRIPTOR; a write of another length is dropped. -/
def execInlineDescriptor (f q : Nat) (desc : List Byte) (s : State) : Host.Outcome State Fault Refusal :=
  funcCmd s f (doInline f q desc)

/-! ### Fetching entries (R390) -/

/-- The consecutive entries from `n` that lie in the ring, at most `fuel`. -/
def fetchList (k : Queue) : Nat → Nat → List Nat
  | 0, _ => []
  | fuel + 1, n =>
    if n = k.tail ∨ k.inl.any (fun e => e.1 == n) = true then [] else n :: fetchList k fuel ((n + 1) % 2 ^ 32)

/-- The entries read, one after the other; none where an entry lies outside the windows or is poisoned. -/
def fetchAll (k : Cls) (f : Nat) (dev : Bool) (base size : Nat) : List Nat → State → Option (State × List (Nat × List Byte))
  | [], s => some (s, [])
  | n :: ns, s =>
    let a := base + 64 * (n % size)
    let one := if dev then tenRead s k f a 64 else some (s, hostRead s a 64, false)
    match one with
    | some (s, bs, false) =>
      match fetchAll k f dev base size ns s with
      | some (s, l) => some (s, (n, bs) :: l)
      | none => none
    | _ => none

/-- A fetch of up to 8 entries from HEAD returns, or fails (`err`: an error answer of the host). -/
def doFetch (f q : Nat) (err : Bool) (s : State) : State :=
  let k := getQueue s f q
  let ns := fetchList k 8 k.head
  let dev := sqDevice s f q
  let waits := (!dev && dmaHeld s f) || dev && ns.any (fun n => tenWaits s f (sqBase s f q + 64 * (n % sqSize s f q)) 64)
  if k.st != .run || !k.fetched.isEmpty || ns.isEmpty || waits then s
  else match (if err then none else fetchAll (sqClass s f q) f dev (sqBase s f q) (sqSize s f q) ns s) with
    | none => modQueue s f q (fun k => { k with st := .error })
    | some (s, l) => modQueue s f q (fun k => { k with fetched := l })

/-- RING_FETCH. -/
def execRingFetch (f q : Nat) (err : Bool) (s : State) : Host.Outcome State Fault Refusal :=
  queueCmd s f q (fun s => if eclHalted s then s else doFetch f q err s)

/-- CLASS_B_PROMOTION: the head entry of a class B queue has waited 10 ms (R410). -/
def doPromote (f q : Nat) (s : State) : State :=
  let k := getQueue s f q
  if k.st == .run && k.head != k.tail && sqClass s f q == .b then modQueue s f q (fun k => { k with promoted := true }) else s

/-- CLASS_B_PROMOTION. -/
def execClassBPromotion (f q : Nat) (s : State) : Host.Outcome State Fault Refusal := queueCmd s f q (doPromote f q)

/-! ### Completion rings (R394, R396 to R398) -/

/-- A write of EN = 1: the ring starts anew (R397, R408). -/
def doCqEnable (f r : Nat) (s : State) : State :=
  if (getFunc s f).flrbusy then s
  else
    let s := setReg s (tenAddr f (oCqCfg r)) (tenReg s f (oCqCfg r) ||| 2 ^ 31)
    flushRing (modRing s f r (fun k => { k with en := true, head := 0, tail := 0 })) f r

/-- CQ_ENABLE. -/
def execCqEnable (f r : Nat) (s : State) : Host.Outcome State Fault Refusal :=
  queueCmd s f r (doCqEnable f r)

/-- The ring that an item's descriptor names, itself or through its queue. -/
def namedRing (s : State) (f q : Nat) (d : List Byte) : Nat :=
  if dCring d = 0xFFFF then bits (tenReg s f (oSqCfg q)) 23 13 else dCring d

/-- A started item names ring `r`. -/
def ringNamed (s : State) (f r : Nat) : Bool := s.hub.items.any (fun i => i.f == f && namedRing s f i.q i.desc == r)

/-- A write of EN = 0: ignored while work that names the ring, or a held record, remains. -/
def doCqDisable (f r : Nat) (s : State) : State :=
  if ringNamed s f r || !(getRing s f r).held.isEmpty then s
  else
    modRing (setReg s (tenAddr f (oCqCfg r)) (tenReg s f (oCqCfg r) % 2 ^ 31)) f r (fun k => { k with en := false })

/-- CQ_DISABLE. -/
def execCqDisable (f r : Nat) (s : State) : Host.Outcome State Fault Refusal := queueCmd s f r (doCqDisable f r)

/-- A write of HEAD: ignored where it is more than the ring's size behind TAIL; held records follow. -/
def doCqHead (f r v : Nat) (s : State) : State :=
  let v := v % 2 ^ 32
  if cqSize s f r < sub32 (getRing s f r).tail v then s
  else flushRing (modRing s f r (fun k => { k with head := v })) f r

/-- CQ_HEAD_WRITE. -/
def execCqHeadWrite (f r v : Nat) (s : State) : Host.Outcome State Fault Refusal := queueCmd s f r (doCqHead f r v)

/-- IRQ_MODERATION_END: the vector raise that waited for the interval's end is made, once it has come. -/
def doIrqEnd (f r : Nat) (s : State) : State :=
  if !(getRing s f r).irqPend || irqSoon s f r then s
  else
    modRing (raiseVec s f (bits (tenReg s f (oCqCfg r)) 26 16)) f r
      (fun k => { k with lastIrq := some s.clock.ftc, irqPend := false })

/-- IRQ_MODERATION_END. -/
def execIrqModerationEnd (f r : Nat) (s : State) : Host.Outcome State Fault Refusal := queueCmd s f r (doIrqEnd f r)

/-! ### Holds: Bus Master Enable and the heartbeat (R403, R404, R406, R407) -/

/-- Every held record of a function that can be written is, ring by ring. -/
def flushRings (s : State) (f : Nat) : State :=
  (tabRange s.hub.rings (2048 * f) 2048).foldl (fun s p => flushRing s f (p.1 - 2048 * f)) s

/-- SRC, DST, LEN, DIR, TNODE of MEMCPY. -/
def dSrc (d : List Byte) : Nat := descN d 24 8
def dDst (d : List Byte) : Nat := descN d 32 8
def dLen (d : List Byte) : Nat := descN d 40 8
def dDir (d : List Byte) : Nat := descN d 48 1
def dNode (d : List Byte) : Nat := descN d 50 2

/-- The next `n` bytes of a MEMCPY move; the status, 0 where they have (R392, R395). -/
def copyMove (s : State) (i : Item) (n : Nat) : State × Nat :=
  let d := i.desc
  let src := dSrc d + i.moved
  let dst := dDst d + i.moved
  match (if dDir d = 0 then some (s, hostRead s src n, false) else tenRead s i.cls i.f src n) with
  | none => (s, 0x16)
  | some (s, bs, poi) =>
    if poi then (s, 0x18)
    else if dDir d = 1 then (hostWrite s dst bs, 0)
    else if !tenOk s i.f dst n then (s, 0x16)
    else (tenStore s i.cls i.f dst bs false, 0)

/-- A stack that a copy reaches makes it wait (R451). -/
def copyStalls (s : State) (i : Item) : Bool :=
  let d := i.desc
  (dDir d != 0 && tenWaits s i.f (dSrc d) (dLen d)) || (dDir d != 1 && tenWaits s i.f (dDst d) (dLen d))

/-- How far a copy has come when its next 4 KiB boundary of the host side stops it: nothing has moved, some boundary has been
reached, or its end; which is open (R403, log entry 67). -/
def stopPoint (i : Item) (x : Nat) : Nat :=
  let d := i.desc
  let left := dLen d - i.moved
  let b0 := 4096 - ((if dDir d = 0 then dSrc d else dDst d) + i.moved) % 4096
  match x % (2 + (left + 4095 - b0) / 4096) with
  | 0 => 0
  | k + 1 => min left (b0 + 4096 * k)

/-- A copy with a host side stops at its next boundary; one that cannot move its bytes ends. -/
def copyStop (s : State) (i : Item) : State :=
  if copyStalls s i then s
  else
    let n := stopPoint i (Config.copied s.fresh)
    let (s, st) := copyMove (stepFresh s) i n
    if st ≠ 0 then complete s i st 0 false else modItem s i.id (fun x => { x with moved := x.moved + n })

/-- The copies of a function with a host side, under way when its host requests stop. -/
def stopCopies (s : State) (f : Nat) : State :=
  (s.hub.items.filter (fun i => i.f == f && i.st == .copying && decide (dDir i.desc ≤ 1))).foldl copyStop s

/-- After a change of a function's holds, which held it before where `was`: queues follow; copies stop where the hold begins, and
everything held resumes where none is left. -/
def holdsChanged (s : State) (f : Nat) (was : Bool) : State :=
  let s := holdQueues s f
  if dmaHeld s f then (if was then s else stopCopies s f) else flushVecs (flushRings s f) f

/-- Bus Master Enable set to `b`. -/
def setBme (f : Nat) (b : Bool) (s : State) : State := holdsChanged (modFunc s f (fun k => { k with bme := b })) f (dmaHeld s f)

/-- BME_CLEAR. -/
def execBmeClear (f : Nat) (s : State) : Host.Outcome State Fault Refusal := funcCmd s f (setBme f false)

/-- BME_SET. -/
def execBmeSet (f : Nat) (s : State) : Host.Outcome State Fault Refusal := funcCmd s f (setBme f true)

/-- HEARTBEAT_KICK: a write of TEN_HB. -/
def doKick (f : Nat) (s : State) : State :=
  if bitB (tenReg s f oHbCtl) 31 then modFunc s f (fun k => { k with hbStart := s.clock.ftc }) else s

/-- HEARTBEAT_KICK. -/
def execHeartbeatKick (f : Nat) (s : State) : Host.Outcome State Fault Refusal := funcCmd s f (doKick f)

/-- FTC ticks of a function's heartbeat period: TEN_HBCTL.PERIOD milliseconds, 0 treated as 1 (R404, R408). -/
def hbPeriod (s : State) (f : Nat) : Nat := 1000000 * max 1 (tenReg s f oHbCtl % 65536)

/-- A heartbeat period has run out. -/
def doExpire (f : Nat) (s : State) : State :=
  if bitB (tenReg s f oHbCtl) 31 && decide ((getFunc s f).hbStart + hbPeriod s f ≤ s.clock.ftc) && !(getFunc s f).hbexp &&
      !(getFunc s f).flrbusy then
    let was := dmaHeld s f
    let s := modFunc (markSet s (tenAddr f oTenStat) (2 ^ 31)) f (fun k => { k with hbexp := true })
    raisePf (holdsChanged s f was) 31 26 16
  else s

/-- HEARTBEAT_EXPIRE. -/
def execHeartbeatExpire (f : Nat) (s : State) : Host.Outcome State Fault Refusal := funcCmd s f (doExpire f)

/-- A write of 1 to HBEXP: the hold ends and the period restarts; an expiry in the same event tick wins. -/
def doHbClear (f : Nat) (s : State) : State :=
  if (getFunc s f).hbexp && w1cTakes s (tenAddr f oTenStat) 31 (2 ^ 31) then
    holdsChanged (modFunc s f (fun k => { k with hbexp := false, hbStart := s.clock.ftc })) f true
  else s

/-- HBEXP_CLEAR. -/
def execHbexpClear (f : Nat) (s : State) : Host.Outcome State Fault Refusal := funcCmd s f (doHbClear f)

/-- A write of TEN_HBCTL: EN = 0 clears HBEXP; EN from 0 to 1 starts a period. -/
def doHbCtl (f v : Nat) (s : State) : State :=
  let was := bitB (tenReg s f oHbCtl) 31
  let s := setReg s (tenAddr f oHbCtl) (v &&& 0x8000_FFFF)
  if bitB v 31 then (if was then s else modFunc s f (fun k => { k with hbStart := s.clock.ftc }))
  else holdsChanged (modFunc s f (fun k => { k with hbexp := false })) f (dmaHeld s f)

/-- HEARTBEAT_DISABLE: a write of EN = 0. -/
def execHeartbeatDisable (f : Nat) (s : State) : Host.Outcome State Fault Refusal :=
  funcCmd s f (fun s => doHbCtl f (tenReg s f oHbCtl % 2 ^ 31) s)

/-! ### The aperture (R400) -/

/-- An aperture request that lies in no window. -/
def aperMiss (s : State) (f : Nat) : State := bump s (tenAddr f oAperDrop) 1

/-- A read of `n` bytes at BAR4 offset `a`; the host's own accesses belong to no class and take B (DESIGN CHOICE, log entry
86). -/
def doAperRead (f a n : Nat) (s : State) : State :=
  match tenRead s .b f a n with
  | none => emit (aperMiss s f) (.aper f a (List.replicate n 0xFF) false)
  | some (s, bs, poi) => emit s (.aper f a bs poi)

/-- A request at BAR4 offset `a` of `n` bytes: none lies beyond BAR4's size (R381). -/
def aperCmd (s : State) (f a n : Nat) (g : State → State) : Host.Outcome State Fault Refusal :=
  if a + n ≤ aperSize s f then funcCmd s f (fun s => if tenWaits s f a n then s else g s) else .fault .noSuchAddress

/-- APERTURE_READ; a stack that retrains makes it wait. -/
def execApertureRead (f a n : Nat) (s : State) : Host.Outcome State Fault Refusal := aperCmd s f a n (doAperRead f a n)

/-- A write at BAR4 offset `a`. -/
def doAperWrite (f a : Nat) (bs : List Byte) (poison : Bool) (s : State) : State :=
  match tenPieces s f a bs.length with
  | none => aperMiss s f
  | some _ => tenStore s .b f a bs poison

/-- APERTURE_WRITE. -/
def execApertureWrite (f a : Nat) (data : List Byte) (poison : Bool) (s : State) : Host.Outcome State Fault Refusal :=
  aperCmd s f a data.length (doAperWrite f a data poison)

/-! ### Window commands (R401, R452, R453, R455) -/

/-- TBASE, SIZE, PBASE of a value of HUB_WINARG. -/
def winArg (v : Nat) : Window :=
  { size := bits v 39 20, tbase := bits v 19 0, pbase := bits v 59 40 }

/-- The physical units meet a window of the module, or a range that waits for the scrub. -/
def unitsTaken (s : State) (p n : Nat) : Bool :=
  s.hub.funcs.any (fun f => f.2.wins.any (fun w => overlaps p n w.2.pbase w.2.size)) ||
    s.mem.scrub.any (fun j => overlaps (p * unit2M) (n * unit2M) j.p j.n)

/-- Units of a stack in the window range; the training area lies above them (R437, R452). -/
def stackUnits : Nat := 45776

/-- The physical units lie in one stack and in the window range. -/
def unitsGood (s : State) (p n : Nat) : Bool :=
  decide (p / 65536 < 16) && !stackFailed s (p / 65536) && decide (p % 65536 + n ≤ stackUnits) &&
    !(decide (0 < saveSize s) && overlaps p n (saveBase s) (saveSize s))

/-- The REASON of an assign, 0 where it is carried out. -/
def assignReason (s : State) (f i : Nat) (w : Window) : Nat :=
  if !funcLives s f then 4
  else if (tabFind (getFunc s f).wins i).isSome then 1
  else if w.size = 0 ∨ 2 ^ 20 < w.tbase + w.size then 2
  else if (getFunc s f).wins.any (fun v => overlaps w.tbase w.size v.2.tbase v.2.size) then 2
  else if unitsTaken s w.pbase w.size then 3
  else if !unitsGood s w.pbase w.size then 4
  else 0

/-- The function has a valid region or a load in progress. -/
def funcLoaded (s : State) (f : Nat) : Bool :=
  s.hub.regions.any (fun r => r.2.f == f) || s.hub.loadQ.any (fun j => j.f == f)

/-- The REASON of a release. -/
def releaseReason (s : State) (f i : Nat) : Nat :=
  if !funcLives s f || (tabFind (getFunc s f).wins i).isNone then 6 else if funcLoaded s f then 5 else 0

/-- A refused window command. -/
def winRefuse (s : State) (r : Nat) : State :=
  { markSet s aWinStat (2 ^ 30) with hub.winRefused := true, hub.winReason := r }

/-- Device rings of function `f` that lie in no window any more go to ERROR. -/
def ringsInError (s : State) (f : Nat) (w : Window) : State :=
  let hit := fun q => sqDevice s f q && overlaps (sqBase s f q) (64 * sqSize s f q) (w.tbase * unit2M) (w.size * unit2M)
  let qs := s.hub.queues.map (fun p =>
    if p.1 / 2048 = f ∧ (p.2.st = .run ∨ p.2.st = .hold) ∧ hit (p.1 % 2048) = true then (p.1, { p.2 with st := .error }) else p)
  { s with hub.queues := qs }

/-- A window becomes invalid, and its range is scrubbed. -/
def dropWindow (s : State) (f i : Nat) : State :=
  match tabFind (getFunc s f).wins i with
  | none => s
  | some w =>
    let s := modFunc s f (fun k => { k with wins := tabDel k.wins i })
    scrubAdd (ringsInError s f w) (w.pbase * unit2M) (w.size * unit2M)

/-- A write of HUB_WINCMD: the command waits for the event-tick boundary with its arguments; one that arrives meanwhile is
refused. -/
def doWinCmd (v : Nat) (s : State) : State :=
  if bits v 31 30 = 0 ∨ bits v 31 30 = 3 then s
  else if s.hub.winPend.isSome then winRefuse s 7
  else { s with hub.winPend := some (v, reg s aWinArg) }

/-- WIN_ASSIGN: the assign that waits is carried out or refused. -/
def doWinAssign (s : State) : State :=
  match s.hub.winPend with
  | none => s
  | some (v, a) =>
    if bits v 31 30 ≠ 1 then s
    else
      let s := { s with hub.winPend := none }
      let f := bits v 25 16
      let i := bits v 5 0
      let w := winArg a
      let r := assignReason s f i w
      if r ≠ 0 then winRefuse s r
      else modFunc { s with hub.winReason := 0 } f (fun k => { k with wins := tabSet k.wins i w })

/-- WIN_ASSIGN. -/
def execWinAssign (s : State) : Host.Outcome State Fault Refusal := hubCmd s doWinAssign

/-- WIN_RELEASE. -/
def doWinRelease (s : State) : State :=
  match s.hub.winPend with
  | none => s
  | some (v, _) =>
    if bits v 31 30 ≠ 2 then s
    else
      let s := { s with hub.winPend := none }
      let f := bits v 25 16
      let i := bits v 5 0
      let r := releaseReason s f i
      if r ≠ 0 then winRefuse s r else dropWindow { s with hub.winReason := 0 } f i

/-- WIN_RELEASE. -/
def execWinRelease (s : State) : Host.Outcome State Fault Refusal := hubCmd s doWinRelease

end Sys2Proof.Machine
end

