-- ==== Sys2Proof/Machine/Start.lean ====
section
/-! DEFINITION. The dispatch unit takes entries, and the start of a descriptor: its ephemeris records, the checks of R393, the
choice of a region (R387, R389, R391 to R393, R396, R410, R411, R415, R420, R421, R484 to R487). -/

namespace Sys2Proof.Machine

/-! ### Fields of a descriptor's bytes 24 to 63 (R392) -/

/-- TOKADDR, NTOK, CHADDR, OPEN. -/
def dTokAddr (d : List Byte) : Nat := descN d 24 8
def dNtok (d : List Byte) : Nat := descN d 32 4
def dChAddr (d : List Byte) : Nat := descN d 40 8
def dOpen (d : List Byte) : Bool := bitB (descN d 60 1) 0

/-- B0, NBLK, PARENT of PFX_INSERT; NEVICT of PFX_EVICT. -/
def dB0 (d : List Byte) : Nat := descN d 32 4
def dNblk (d : List Byte) : Nat := descN d 36 4
def dParent (d : List Byte) : Nat := descN d 40 8
def dNevict (d : List Byte) : Nat := descN d 32 4

/-- IMAGE, ILEN, REPLACE of LOAD_LAYOUT. -/
def dImage (d : List Byte) : Nat := descN d 24 8
def dIlen (d : List Byte) : Nat := descN d 32 8
def dReplace (d : List Byte) : Bool := bitB (descN d 40 1) 0

/-- Full blocks of the token list, at most 256 (R238). -/
def dBlocks (d : List Byte) : Nat := min 256 (dNtok d / 256)

/-! ### Ephemeris records of a start (R484 to R487) -/

/-- What a PAYLOAD record captures: in device memory or not, address, length. -/
def payloadOf (d : List Byte) : Option (Bool × Nat × Nat) :=
  if dOpc d = 2 then some (true, dTokAddr d, 4 * dNtok d)
  else if dOpc d = 4 then some (true, dTokAddr d, 1024 * (dB0 d + dNblk d))
  else if dOpc d = 8 ∧ dDir d = 0 then some (false, dSrc d, dLen d)
  else none

/-- PMAX in bytes. -/
def ephMax (s : State) (f : Nat) : Nat := 1024 * min 64 (bits (tenReg s f oEphCfg) 23 16)

/-- The captured bytes; none where the range lies outside the windows. -/
def payloadBytes (s : State) (f : Nat) (p : Bool × Nat × Nat) : List Byte :=
  let n := min p.2.2 (ephMax s f)
  if p.1 then tenPeek s f p.2.1 n else hostRead s p.2.1 n

/-- PAYLOAD. -/
def ephPayload (s : State) (i : Item) : State :=
  match payloadOf i.desc with
  | none => s
  | some p =>
    ephPut s i.f 2 i.q i.pos (leBytes 8 p.2.1 ++ leBytes 4 p.2.2 ++ leBytes 1 (b2n (decide (ephMax s i.f < p.2.2))) ++
      leBytes 3 0 ++ payloadBytes s i.f p)

/-- The queue of an item is captured. -/
def ephQueue (s : State) (f q : Nat) : Bool := bitB (tenReg s f (oSqCfg q)) 9 && bitB (tenReg s f oEphCfg) 31

/-- DESC and PAYLOAD of an entry that starts, once for each entry. -/
def began (s : State) (i : Item) (region entry step : Nat) : State :=
  if i.logged || !ephQueue s i.f i.q then s
  else
    let s := ephPutAt s i.f i.took 1 i.q i.pos (i.desc ++ leBytes 8 s.clock.ftc ++ leBytes 1 region ++ leBytes 1 0 ++
      leBytes 2 entry ++ leBytes 4 step)
    modItem (ephPayload s i) i.id (fun x => { x with logged := true })

/-- A descriptor that fails a check does nothing: its record carries the status, RESULT 0 (R393). -/
def stopItem (s : State) (i : Item) (status : Nat) : State := complete (began s i 0xFF 0xFFFF 0) i status 0 false

/-! ### Taking entries (R387, R396, R410, R487) -/

/-- The head entry of a queue, where the hub holds it. -/
def headEntry (k : Queue) : Option (List Byte) := ((k.inl ++ k.fetched).find? (fun e => e.1 == k.head)).map (·.2)

/-- The ring that the descriptor names is enabled and full. -/
def ringFull (s : State) (f q : Nat) (d : List Byte) : Bool :=
  let r := namedRing s f q d
  decide (r < 2048) && (getRing s f r).en && cqFull s f r

/-- The ephemeris ring holds the function's captured queues (R487). -/
def ephHolds (s : State) (f q : Nat) : Bool :=
  ephQueue s f q && bitB (tenReg s f oEphCfg) 30 &&
    decide (16 * (ephSize s f - sub32 (getFunc s f).ephTail (getFunc s f).ephHead) < 144 + ephMax s f)

/-- The head entry may start: room for one more item, its FENCE met, its ring not full, no ephemeris hold. An entry not yet
held by the hub may. -/
def entryMayStart (s : State) (f q : Nat) (k : Queue) : Bool :=
  let n := (queueItems s f q).length
  decide (n < 256) && !ephHolds s f q &&
    (match headEntry k with
    | none => true
    | some d => (!dFence d || n == 0) && !ringFull s f q d)

/-- A queue that the dispatch unit considers: its class in the order of taking, function, queue, queue state. -/
structure Cand where
  cls : Nat
  f : Nat
  q : Nat
  k : Queue
  deriving DecidableEq, Repr

/-- The class in which a queue's head entry is taken. -/
def takeClass (s : State) (f q : Nat) (k : Queue) : Nat :=
  let c := clsCode (sqClass s f q)
  if c = 2 ∧ k.promoted = true then 1 else c

/-- An entry that has been taken may start: its ring is not full (R396), and its function's memory does not make requests wait
(R451, log entry 88). -/
def takenReady (s : State) (i : Item) : Bool := i.st == .taken && !ringFull s i.f i.q i.desc && !funcWaits s i.f

/-- A taken entry of the queue has not started: the queue's next one keeps its place (R387). -/
def queueTaken (s : State) (f q : Nat) : Bool := s.hub.items.any (fun i => i.st == .taken && i.f == f && i.q == q)

/-- Every queue that the dispatch unit considers; outside class U, only where the hub holds the head entry. -/
def cands (s : State) : List Cand :=
  (s.hub.queues.map (fun p => (⟨takeClass s (p.1 / 2048) (p.1 % 2048) p.2, p.1 / 2048, p.1 % 2048, p.2⟩ : Cand))).filter
    (fun c => c.k.st == .run && c.k.head != c.k.tail && !(getFunc s c.f).flrbusy && entryMayStart s c.f c.q c.k &&
      !queueTaken s c.f c.q && ((headEntry c.k).isSome || c.cls == 0))

/-- The places after the last one served, in a round of `n`. -/
def rrDist (n : Nat) (last : Option Nat) (x : Nat) : Nat :=
  match last with
  | none => x
  | some l => (x + 2 * n - l - 1) % n

/-- A candidate stands before another: class, function, queue. -/
def candLt (s : State) (a b : Cand) : Bool :=
  let fd := fun (c : Cand) => rrDist 1024 (tabFind s.hub.rrF c.cls) c.f
  let qd := fun (c : Cand) => rrDist 2048 (tabFind s.hub.rrQ (4 * c.f + c.cls)) c.q
  if a.cls != b.cls then decide (a.cls < b.cls)
  else if fd a != fd b then decide (fd a < fd b)
  else decide (qd a < qd b)

/-- The candidate that stands first. -/
def firstCand (s : State) : List Cand → Option Cand
  | [] => none
  | c :: cs => some (cs.foldl (fun b x => if candLt s x b then x else b) c)

/-- The opcodes of R392. -/
def opcValid (n : Nat) : Bool := [0, 1, 2, 3, 4, 5, 6, 8, 0x10, 0x11].contains n

/-- An entry is taken: HEAD advances, the item is the dispatch unit's next work; an invalid OPC ends it at once. -/
def takeEntry (s : State) (c : Cand) (d : List Byte) : State :=
  let n := c.k.head
  let s := modQueue s c.f c.q (fun k =>
    { k with
      head := (n + 1) % 2 ^ 32, promoted := false, inl := k.inl.filter (fun e => e.1 != n)
      fetched := k.fetched.filter (fun e => e.1 != n) })
  let i : Item :=
    { id := s.hub.nextItem, f := c.f, q := c.q, pos := n, desc := d, st := .taken, region := noRegion, num := 0, entry := 0
      step := 0, took := s.clock.ftc, logged := false, frec := false, moved := 0 }
  let s := { s with
    hub.items := s.hub.items ++ [i]
    hub.nextItem := s.hub.nextItem + 1
    hub.rrF := tabSet s.hub.rrF c.cls c.f
    hub.rrQ := tabSet s.hub.rrQ (4 * c.f + c.cls) c.q }
  if opcValid (dOpc d) then s else stopItem s i 0x10

/-- DISPATCH_TAKE: one entry, while none that has been taken may start. An entry whose ring has filled since keeps no other queue
waiting (R402). -/
def doTake (s : State) : State :=
  if s.hub.items.any (takenReady s) then s
  else match firstCand s (cands s) with
    | none => s
    | some c => match headEntry c.k with
      | none => s
      | some d => takeEntry s c d

/-- DISPATCH_TAKE. -/
def execDispatchTake (s : State) : Host.Outcome State Fault Refusal := dispCmd s doTake

/-! ### The checks of R393 -/

/-- Every byte of the range from `o` is 0. -/
def zeroAt (d : List Byte) (o n : Nat) : Bool := descN d o n == 0

/-- The opcode uses MODEL, ACCORD, SEQ, REGION. -/
def usesModel (n : Nat) : Bool := decide (1 ≤ n) && decide (n ≤ 6)
def usesAccord (n : Nat) : Bool := n == 1
def usesSeq (n : Nat) : Bool := decide (1 ≤ n) && decide (n ≤ 4)
def usesRegion (n : Nat) : Bool := n == 1 || n == 0x10 || n == 0x11

/-- Reserved bits and unused header fields are 0. -/
def headerClean (d : List Byte) : Bool :=
  let n := dOpc d
  descN d 1 1 / 16 == 0 && dClass d != 3 && zeroAt d 13 3 && zeroAt d 20 4 && (usesModel n || zeroAt d 4 2) &&
    (usesAccord n || zeroAt d 6 2) && (usesSeq n || zeroAt d 8 4) && (usesRegion n || zeroAt d 12 1)

/-- Reserved bytes 24 to 63 are 0, and fields lie in their ranges. -/
def bodyClean (d : List Byte) : Bool :=
  match dOpc d with
  | 1 => zeroAt d 56 8
  | 2 => zeroAt d 36 4 && zeroAt d 48 12 && decide (descN d 60 4 ≤ 1)
  | 3 => zeroAt d 24 16 && zeroAt d 48 16
  | 4 => zeroAt d 48 16
  | 5 => zeroAt d 24 16 && zeroAt d 48 16
  | 6 => zeroAt d 24 8 && zeroAt d 36 28
  | 8 => zeroAt d 49 1 && zeroAt d 52 12 && decide (dDir d ≤ 3) && dLen d % 32 == 0 && decide (32 ≤ dLen d) &&
      decide (dLen d ≤ 2 ^ 34)
  | 0x10 => decide (descN d 40 8 ≤ 1) && zeroAt d 48 16 && dImage d % 4096 == 0
  | _ => zeroAt d 24 40

/-- CRING names an enabled ring. -/
def cringOk (s : State) (i : Item) : Bool :=
  let r := namedRing s i.f i.q i.desc
  decide (r < 2048) && (getRing s i.f r).en

/-- Checks 2 and 3. -/
def earlyCheck (s : State) (i : Item) : Option Nat :=
  if !headerClean i.desc || !bodyClean i.desc || !cringOk s i then some 0x11
  else if dClass i.desc < clsCode (sqClass s i.f i.q) then some 0x12
  else none

/-! ### Regions under a replace (R374) -/

/-- The load number behind RBASE, where REPLACE is set and the function owns the region. -/
def oldNum (j : LoadJob) : Option Nat :=
  if j.replace then (match tabFind j.rgns j.rbase with
    | some d => if d.f == j.f then some d.load else none
    | none => none)
  else none

/-- The replace under way whose replaced load has been unloaded already. -/
def goneJob (s : State) : Option LoadJob :=
  match s.hub.loadQ.head? with
  | none => none
  | some j => match oldNum j with
    | none => none
    | some n => if s.hub.loads.any (fun l => l.num == n) then none else some j

/-- The region that work reaches under a number: one in force, else one of a replaced load, which holds new work until the
replace ends. -/
def seenRegion (s : State) (r : Nat) : Option Region :=
  match getRegion s r, goneJob s with
  | some d, _ => some d
  | none, none => none
  | none, some j => match tabFind j.rgns r with
    | some d => if oldNum j == some d.load then some { d with replaceHold := true } else none
    | none => none

/-- The model instances that work reaches. -/
def seenInsts (s : State) : List Inst := s.hub.insts ++ (match goneJob s with | some j => j.insts | none => [])

/-- The regions of the instances that a function's MODEL names (R366). -/
def instRegions (s : State) (f model : Nat) : List Nat :=
  uniq ((((seenInsts s).filter (fun x => x.f == f && x.handle == model)).map (·.region)).filter (fun r =>
    match seenRegion s r with
    | some d => d.f == f
    | none => false))

/-- A region takes a RUN: a pipeline region needs TEN_PIPEAr.EN (R415), tested where the RUN is not held. -/
def regionReady (s : State) (r : Nat) : Bool :=
  match seenRegion s r with
  | some d => !d.pipe || d.replaceHold || bitB (tenReg s d.f (oPipeA r)) 0
  | none => false

/-- The region that a sequence is bound to (R420). -/
def boundTo (s : State) (f model seq : Nat) : Option Nat :=
  (s.hub.bindings.find? (fun b => b.f == f && b.model == model && b.seq == seq)).map (·.region)

/-! ### Directories of a region (R214, R215) -/

/-- A hub read of device memory: status 0, MEM_WINDOW or MEM_UNCORR (R395). -/
def hubRead (s : State) (k : Cls) (f a n : Nat) : State × Nat × List Byte :=
  match tenRead s k f a n with
  | none => (s, 0x16, [])
  | some (s, bs, poi) => (s, if poi then 0x18 else 0, bs)

/-- The contexts of a region with a KV directory, one for each directory, by cluster and slot. -/
def dirCtxs (s : State) (r : Nat) : List Ctx :=
  let xs := sortBy (fun (a b : Ctx) => decide (4 * a.clu + a.slot < 4 * b.clu + b.slot))
    ((regionCtxs s r).filter (fun x => x.kvdir != 0))
  xs.foldl (fun l x => if l.any (fun y => y.kvdir == x.kvdir) then l else l ++ [x]) []

/-- The header of the directory of context `x` that the walker of the slot of context `y` has loaded. -/
def loadedHdr (s : State) (x y : Ctx) : Option KvHdr :=
  let k := getSlot s y.clu y.slot
  if y.resident && y.f == x.f && k.kvdir == some x.kvdir then k.kvHdr else none

/-- The context whose slot has the directory of context `x` loaded: `x` itself, or another of its function (R233, R240). -/
def dirHolder (s : State) (x : Ctx) : Option Ctx := (x :: s.hub.ctxs).find? (fun y => (loadedHdr s x y).isSome)

/-- A context's directory header: the walker's copy while the directory is loaded, else as device memory holds it. -/
def ctxHdr (s : State) (k : Cls) (x : Ctx) : State × Nat × KvHdr :=
  match (dirHolder s x).bind (loadedHdr s x) with
  | some h => (s, 0, h)
  | none =>
    let (s, st, bs) := hubRead s k x.f x.kvdir 64
    (s, st, hdrOf x.kvdir bs)

/-- The directory headers of contexts, to the first that cannot be read. -/
def ctxHdrs (s : State) (k : Cls) : List Ctx → State × Nat × List (Ctx × KvHdr)
  | [] => (s, 0, [])
  | x :: xs =>
    let (s, st, h) := ctxHdr s k x
    if st ≠ 0 then (s, st, [])
    else
      let (s, st, l) := ctxHdrs s k xs
      (s, st, (x, h) :: l)

/-- Check 6: the status, 0 where it passes. -/
def seqCheck (s : State) (d : List Byte) (r : Nat) : State × Nat :=
  if usesSeq (dOpc d) then
    let (s, st, hs) := ctxHdrs s (clsOf (dClass d)) (dirCtxs s r)
    if st ≠ 0 then (s, st)
    else (s, if hs.all (fun p => decide (dSeq d % 2 ^ 24 < p.2.seqcap)) then 0 else 0x15)
  else (s, 0)

/-! ### Choosing a replica (R421) -/

/-- A filter, skipped where it would leave no region. -/
def keepIf (p : Nat → Bool) (rs : List Nat) : List Nat := if (rs.filter p).isEmpty then rs else rs.filter p

/-- The die that owns the stack of the sequence's first share record, under the region's first context's directory. -/
def homeDie (s : State) (f seq r : Nat) : Option Nat :=
  match (regionCtxs s r).head? with
  | none => none
  | some x =>
    if x.kvdir = 0 then none
    else
      let h := (ctxHdr s .b x).2.2
      match tenPhys s f (shareAddr h (seq % 2 ^ 24) h.l0) with
      | some p => some (stackDie (stackOf p))
      | none => none

/-- Member clusters of the region on the sequence's home die. -/
def homeScore (s : State) (f seq r : Nat) : Nat :=
  match getRegion s r, homeDie s f seq r with
  | some d, some die => (d.members.filter (fun c => dieOf c == die)).length
  | _, _ => 0

/-- Items that wait for a region. -/
def waitingOn (s : State) (r : Nat) : Nat := (s.hub.items.filter (fun i => i.region == r && i.st == .waiting)).length

/-- The filters of R421 in order. -/
def chooseRegion (s : State) (f : Nat) (d : List Byte) (rs : List Nat) : Option Nat :=
  let held := fun r => match seenRegion s r with | some g => g.replaceHold | none => false
  let rs := keepIf (fun r => regionFine s r && !held r) rs
  let rs := keepIf (fun r => dAccord d == 0 || (regionCtxs s r).all (fun x => (findEnt s x.clu x.slot (dAccord d)).isSome)) rs
  let rs := keepIf (fun r => (regionCtxs s r).all (fun x => x.resident)) rs
  let best := natMax (rs.map (homeScore s f (dSeq d)))
  let rs := keepIf (fun r => homeScore s f (dSeq d) r == best) rs
  let ws := rs.map (waitingOn s)
  let low := ws.foldl min (ws.headD 0)
  let rs := keepIf (fun r => waitingOn s r == low) rs
  match rs with
  | [] => none
  | x :: xs => some (xs.foldl min x)

/-- Checks 4 and 5: the region that a descriptor reaches, or the status. -/
def reachRegion (s : State) (i : Item) : Except Nat Nat :=
  let d := i.desc
  let opc := dOpc d
  if opc = 0x11 then
    match seenRegion s (dRegion d) with
    | some g => if g.f == i.f then .ok (dRegion d) else .error 0x14
    | none => .error 0x14
  else
    let rs := instRegions s i.f (dModel d)
    let ok := if opc = 1 then rs.filter (regionReady s) else rs
    if rs.isEmpty then .error 0x13
    else if opc = 1 ∧ dRegion d ≠ 0xFF then (if ok.contains (dRegion d) then .ok (dRegion d) else .error 0x14)
    else
      let b := if usesSeq opc && !(opc == 2 && dOpen d) then boundTo s i.f (dModel d) (dSeq d) else none
      match b.filter (fun r => rs.contains r) with
      | some r => if ok.contains r then .ok r else .error 0x14
      | none => match chooseRegion s i.f d ok with
        | some r => .ok r
        | none => .error 0x14

/-- Check 8: the tenant ranges that a descriptor names, as address and length. Of PARENT, the root apart, that is the part of the
node before its pages, whose number stands in the tree (R235; DEDUCED, log entry 94). -/
def dRanges (d : List Byte) : List (Nat × Nat) :=
  let ch := fun n => if dChAddr d = 0 then [] else [(dChAddr d, 8 + 8 * n)]
  match dOpc d with
  | 2 => (dTokAddr d, 4 * dNtok d) :: ch (dBlocks d)
  | 3 => ch 0
  | 4 => (dTokAddr d, 1024 * (dB0 d + dNblk d)) :: (if dParent d = 0 then [] else [(dParent d, 1088)])
  | 5 => [(dChAddr d, 8)]
  | 8 => match dDir d with
    | 0 => [(dDst d, dLen d)]
    | 1 => [(dSrc d, dLen d)]
    | 2 => [(dSrc d, dLen d), (dDst d, dLen d)]
    | _ => [(dSrc d, dLen d)]
  | 0x10 => [(dImage d, dIlen d)]
  | _ => []

/-- Check 8. -/
def rangesOk (s : State) (i : Item) : Bool := (dRanges i.desc).all (fun p => tenOk s i.f p.1 p.2)

/-! ### The start of a descriptor -/

/-- The item that a start command of opcode `opc` acts on: the first that has been taken and may start. -/
def takenItem (s : State) (opc : Nat) : Option Item := s.hub.items.find? (fun i => takenReady s i && dOpc i.desc == opc)

/-- A start command: checks 2 and 3, then `g`. -/
def startCmd (s : State) (opc : Nat) (g : Item → State → State) : Host.Outcome State Fault Refusal :=
  dispCmd s (fun s =>
    match takenItem s opc with
    | none => s
    | some i =>
      match earlyCheck s i with
      | some st => stopItem s i st
      | none => g i s)

/-- An item waits for its region's replace or unload (R374, R375). -/
def holdItem (s : State) (i : Item) (r : Nat) : State := modItem s i.id (fun x => { x with st := .held, region := r })

/-- Checks 4 to 8 of a descriptor that reaches a region, then `g` with it. -/
def withRegion (i : Item) (g : Nat → Region → State → State) (s : State) : State :=
  match reachRegion s i with
  | .error st => stopItem s i st
  | .ok r =>
    match seenRegion s r with
    | none => stopItem s i 0x14
    | some d =>
      if d.replaceHold || d.closing then holdItem s i r
      else
        let (s, st) := seqCheck s i.desc r
        if st ≠ 0 then stopItem s i st
        else if d.degraded && dOpc i.desc != 0x11 then stopItem s i 0x21
        else if !rangesOk s i then stopItem s i 0x16
        else g r d s

end Sys2Proof.Machine
end

