-- ==== Sys2Proof/Machine/WorkItems.lean ====
section
/-! DEFINITION. Work items: NOP, RUN on pool and pipeline regions, mailboxes, MEMCPY, the intake registers, and the hand-over
of loads and unloads (R367, R375, R392, R412 to R418). -/

namespace Sys2Proof.Machine

/-! ### NOP -/

/-- NOP completes with RESULT 0. -/
def doNop (i : Item) (s : State) : State := complete (began s i 0xFF 0xFFFF 0) i 0 0 false

/-- NOP. -/
def execNop (s : State) : Host.Outcome State Fault Refusal := startCmd s 0 doNop

/-! ### RUN on a pipeline region (R415 to R417) -/

/-- Ring records of a region's intake: 2^LOG2N, other values treated as 2^4. -/
def intakeSize (s : State) (f r : Nat) : Nat :=
  let n := bits (tenReg s f (oPipeB r)) 21 18
  2 ^ (if 4 ≤ n ∧ n ≤ 10 then n else 4)

/-- VALID of batch entry `e` as device memory holds it. -/
def entryValid (s : State) (f r e : Nat) : Bool := bitB (leNat (tenPeek s f (entryAddr s f r e + 6) 1)) 0

/-- The batch entry that the next item of a pipeline region takes; none where no entry is free, or the ring record still
belongs to an item in flight, or the function's memory makes requests wait (R451, log entry 88). -/
def freeEntry (s : State) (r : Nat) (d : Region) : Option Nat :=
  let n := intakeSize s d.f r
  let run := runItems s r
  if funcWaits s d.f || run.any (fun i => i.step % n == d.step % n) then none
  else (List.range 1024).find? (fun e => !run.any (fun i => i.entry == e) && !entryValid s d.f r e)

/-- The intake record of an item (R417). -/
def intakeRec (i : Item) : List Byte :=
  entryBytes i true ++ leBytes 2 i.entry ++ leBytes 1 (dClass i.desc) ++ leBytes 1 0 ++ leBytes 2 (dModel i.desc) ++
    leBytes 2 (dAccord i.desc) ++ (i.desc.drop 32).take 24 ++ leBytes 8 (dUtag i.desc) ++ leBytes 8 0

/-- A pipeline item starts: its ephemeris records, entry, intake record with its counter, classes (R412, R416, R486). -/
def beginPipe (s : State) (r : Nat) (d : Region) (e : Nat) (i : Item) : State :=
  let b := tenReg s d.f (oPipeB r)
  let i := { i with st := .running, region := r, entry := e, step := d.step }
  let s := modRegion s r (fun d => { d with step := d.step + 1 })
  let s := began (modItem s i.id (fun _ => i)) i r e i.step
  let s := tenWrite s i.cls d.f (entryAddr s d.f r e) (entryBytes i true) false
  let s := addXfer s { id := 0, kind := .write, op := none, f := d.f, load := some d.load, tclu := bits b 10 0
                       tslot := bits b 12 11
                       data := [(bits b 43 25 * 64 + 64 * (i.step % intakeSize s d.f r), intakeRec i, false)]
                       ctr := some (bits b 17 13), eack := none, way := expressWay i.cls 24 (boundClu s (bits b 10 0)), item := some i.id }
  refreshClass s r

/-- The first item that waits for a region. -/
def firstWaiting (s : State) (r : Nat) : Option Item := s.hub.items.find? (fun i => i.region == r && i.st == .waiting)

/-- The first waiting item of a pipeline region starts where an entry is free. -/
def pipeNext (s : State) (r : Nat) : State :=
  match getRegion s r, firstWaiting s r with
  | some d, some i =>
    if d.pipe && !d.degraded then
      match freeEntry s r d with
      | some e => beginPipe s r d e i
      | none => s
    else s
  | _, _ => s

/-- RUN_HELD_START: the first held pipeline item, in start order, that can start. -/
def doHeldStart (s : State) : State :=
  match s.hub.items.find? (fun i => i.st == .waiting &&
    (match getRegion s i.region with
    | some d => d.pipe && !d.degraded && (freeEntry s i.region d).isSome
    | none => false)) with
  | some i => pipeNext s i.region
  | none => s

/-- RUN_HELD_START. -/
def execRunHeldStart (s : State) : Host.Outcome State Fault Refusal := dispCmd s doHeldStart

/-! ### RUN (R413, R414, R416) -/

/-- A RUN on region `r` joins the items that wait for it, and starts where the region is free; the DESC record of a pipeline item that
is held is written when it starts (R416, R486). -/
def startRun (i : Item) (r : Nat) (d : Region) (s : State) : State :=
  let first := (firstWaiting s r).isNone
  let s := modItem s i.id (fun x => { x with st := .waiting, region := r })
  if d.pipe then (if first then pipeNext s r else s) else began (nextPool s r) i r 0xFFFF 0

/-- RUN. -/
def execRun (s : State) : Host.Outcome State Fault Refusal := startCmd s 1 (fun i s => withRegion i (startRun i) s)

/-! ### Mailboxes (R418) -/

/-- A report: DONE with the STEP of the entry's item completes it; any other is ignored and counted. -/
def doMailbox (s : State) : State :=
  match s.hub.mbx with
  | [] => s
  | (f, r, e, bs) :: l =>
    if funcWaits s f then s else
    let s := { s with hub.mbx := l }
    let drop := bump s aMbxDrop 1
    match getRegion s r, (runItems s r).find? (fun i => i.entry == e) with
    | some d, some i =>
      if d.pipe && d.f == f && bitB (leAt bs 8 1) 0 && leAt bs 0 4 == i.step % 2 ^ 32 then
        let s := tenWrite s i.cls f (entryAddr s f r e) (entryBytes i false) false
        refreshClass (complete s i 0 (leAt bs 4 4) false) r
      else drop
    | _, _ => drop

/-- MAILBOX_WRITE. -/
def execMailboxWrite (s : State) : Host.Outcome State Fault Refusal := dispCmd s doMailbox

/-! ### TEN_PIPEA, TEN_PIPEB (R415) -/

/-- Fields that can be written. -/
def pipeMask (b : Bool) : Nat := if b then 0x0FFF_FE3F_FFFF else 0xFFFF_FFFF_FFFF_FFC1

/-- A write of TEN_PIPEAr, or of TEN_PIPEBr where `b`. -/
def doPipeWrite (f r : Nat) (b : Bool) (v : Nat) (s : State) : State :=
  match getRegion s r with
  | none => s
  | some d =>
    if d.pipe && d.f == f && !s.hub.items.any (fun i => i.region == r && dOpc i.desc == 1) then
      setReg s (tenAddr f (if b then oPipeB r else oPipeA r)) (v &&& pipeMask b)
    else s

/-- PIPE_CONFIG_WRITE. -/
def execPipeConfigWrite (f r : Nat) (b : Bool) (v : Nat) (s : State) : Host.Outcome State Fault Refusal :=
  if r < 256 then funcCmd s f (doPipeWrite f r b v) else .fault .noSuchQueue

/-! ### MEMCPY (R392, R395, R403) -/

/-- The start of a copy within the module: its bytes move until MEMCPY_COMPLETE. -/
def startCopying (i : Item) (s : State) : State :=
  if !rangesOk s i then stopItem s i 0x16
  else began (modItem s i.id (fun x => { x with st := .copying })) i 0xFF 0xFFFF 0

/-- A MEMCPY start command for DIR `dir`. -/
def copyCmd (s : State) (dir : Nat) (g : Item → State → State) : Host.Outcome State Fault Refusal :=
  startCmd s 8 (fun i s => if dDir i.desc = dir then g i s else s)

/-- MEMCPY_HOST_TO_DEVICE. A MEMCPY that fails check 2 or 3 ends at whichever of the four commands meets it. -/
def execMemcpyHostToDevice (s : State) : Host.Outcome State Fault Refusal := copyCmd s 0 startCopying

/-- MEMCPY_DEVICE_TO_HOST. -/
def execMemcpyDeviceToHost (s : State) : Host.Outcome State Fault Refusal := copyCmd s 1 startCopying

/-- MEMCPY_DEVICE_TO_DEVICE. -/
def execMemcpyDeviceToDevice (s : State) : Host.Outcome State Fault Refusal := copyCmd s 2 startCopying

/-- One MEMW message of an item: offset and length of its data, and whether it is the last. -/
def itemMsg (s : State) (i : Item) (x : Nat × Nat) (final : Bool) : Msg :=
  let d := i.desc
  { id := 0, ty := .memw, owner := .item i.id, f := i.f, dnode := dNode d, cls := clsOf (dClass d)
    src := .dev i.f (dSrc d + x.1) x.2, tkind := 1, fmt := 0, rop := 0, tclu := 0, tslot := 0, ctr := none
    addr := dDst d + x.1, dim := 0, xfer := s.lnk.nextTr, final := final, sent := false, aseq := 0, epoch := 0, sftc := 0
    mtag := 0, port := 8 }

/-- A copy to module TNODE: MEMW messages in address order; to the own module, a local copy. -/
def startRemote (i : Item) (s : State) : State :=
  let t := dNode i.desc
  if t = 0xFFFF ∨ t = s.lnk.node then startCopying i s
  else if !rangesOk s i then stopItem s i 0x16
  else if noRoute s i.f t then stopItem s i 0x24
  else
    let cuts := msgCuts (dLen i.desc)
    let last := cuts.length - 1
    let ms := (List.range cuts.length).map (fun k => itemMsg s i (nth (0, 0) cuts k) (k == last))
    let s := ms.foldl addMsg s
    began (modItem { s with lnk.nextTr := s.lnk.nextTr + 1 } i.id (fun x => { x with st := .remote cuts.length })) i 0xFF
      0xFFFF 0

/-- MEMCPY_REMOTE. -/
def execMemcpyRemote (s : State) : Host.Outcome State Fault Refusal := copyCmd s 3 startRemote

/-- The host side of a copy is held (R403), or a stack that it reaches makes it wait. -/
def copyWaits (s : State) (i : Item) : Bool := (decide (dDir i.desc ≤ 1) && dmaHeld s i.f) || copyStalls s i

/-- What is left of a copy moves, up to `n` bytes of it in all, and it ends with the status and result given. -/
def copyEnd (s : State) (i : Item) (n status result : Nat) : State :=
  let (s, st) := copyMove s i (n - i.moved)
  if st ≠ 0 then complete s i st 0 false else complete s i status result false

/-- MEMCPY_COMPLETE: the last byte of item `id` is done, or its host read failed after `k` bytes: HOST_DMA with the bytes done, div
32. -/
def doCopyDone (id : Nat) (hostErr : Option Nat) (s : State) : State :=
  match s.hub.items.find? (fun i => i.id == id && i.st == .copying) with
  | none => s
  | some i =>
    if copyWaits s i then s
    else match dDir i.desc, hostErr with
      | 0, some k =>
        let n := max i.moved (min k (dLen i.desc) / 32 * 32)
        copyEnd s i n 0x17 (n / 32)
      | _, _ => copyEnd s i (dLen i.desc) 0 0

/-- MEMCPY_COMPLETE. -/
def execMemcpyComplete (id : Nat) (hostErr : Option Nat) (s : State) : Host.Outcome State Fault Refusal :=
  dispCmd s (doCopyDone id hostErr)

/-! ### LOAD_LAYOUT and UNLOAD_LAYOUT (R367, R375) -/

/-- A job of the load path. -/
def loadJob (i : Item) (unload : Bool) (load : Nat) : LoadJob :=
  { item := i.id, f := i.f, unload := unload, load := load, image := if unload then 0 else dImage i.desc
    ilen := if unload then 0 else dIlen i.desc, rbase := dRegion i.desc, replace := !unload && dReplace i.desc, phase := .idle
    waits := false, grants := [], lost := [], rmap := [], rgns := [], insts := [], lay := ⟨0, [], false, []⟩, bind := [], gsel := []
    status := 0, detail := 0 }

/-- A job joins the load queue. -/
def queueLoad (s : State) (i : Item) (j : LoadJob) : State :=
  let s := modItem s i.id (fun x => { x with st := .loading })
  { s with hub.loadQ := s.hub.loadQ ++ [j] }

/-- LOAD_LAYOUT. -/
def execLoadLayout (s : State) : Host.Outcome State Fault Refusal :=
  startCmd s 0x10 (fun i s =>
    if rangesOk s i then began (queueLoad s i (loadJob i false 0)) i (dRegion i.desc) 0xFFFF 0 else stopItem s i 0x16)

/-- The regions of a load take no more work. -/
def closeLoad (s : State) (load : Nat) : State :=
  let rs := s.hub.regions.map (fun p => if p.2.load = load then (p.1, { p.2 with closing := true }) else p)
  { s with hub.regions := rs }

/-- UNLOAD_LAYOUT. -/
def execUnloadLayout (s : State) : Host.Outcome State Fault Refusal :=
  startCmd s 0x11 (fun i s => withRegion i (fun r d s =>
    began (closeLoad (queueLoad s i (loadJob i true d.load)) d.load) i r 0xFFFF 0) s)

end Sys2Proof.Machine
end

