-- ==== Sys2Proof/Machine/Prefix.lean ====
section
/-! DEFINITION. The prefix walker and the sequences: PFX opcodes, LOOKUP, INSERT, RELEASE, EVICT, SEQ_CLOSE (R233 to R240, R392,
R420). -/

namespace Sys2Proof.Machine

/-! ### Device memory for an item (R395) -/

/-- A read for an item, which ends with MEM_WINDOW or MEM_UNCORR where it fails. -/
def itemRead (i : Item) (a n : Nat) (g : State → List Byte → State) (s : State) : State :=
  match hubRead s i.cls i.f a n with
  | (s, 0, bs) => g s bs
  | (s, st, _) => complete s i st 0 false

/-- A write for an item. -/
def itemWrite (i : Item) (a : Nat) (bs : List Byte) (g : State → State) (s : State) : State :=
  if tenOk s i.f a bs.length then g (tenWrite s i.cls i.f a bs false) else complete s i 0x16 0 false

/-! ### The tree (R234 to R236) -/

/-- A prefix tree's header. -/
structure PTree where
  base : Nat
  buckets : Nat
  nb : Nat
  nsh : Nat
  pool : Nat
  ncount : Nat
  deriving DecidableEq, Repr

/-- A header from its 32 bytes. -/
def treeOf (a : Nat) (bs : List Byte) : PTree :=
  { base := a, buckets := leAt bs 0 8, nb := leAt bs 8 4, nsh := leAt bs 12 4, pool := leAt bs 16 8, ncount := leAt bs 24 4 }

/-- The tree of an instance without one: it holds no node and has none to give (DESIGN CHOICE, log entry 33). -/
def noTree : PTree := ⟨0, 0, 0, 0, 0, 0⟩

/-- The prefix tree's header address of the instance that an item reaches. -/
def itemTree (s : State) (i : Item) : Nat :=
  match s.hub.insts.find? (fun x => x.f == i.f && x.handle == dModel i.desc && x.region == i.region) with
  | some x => x.pfxtree
  | none => 0

/-- The tree of an item's instance, read anew. -/
def withTree (i : Item) (g : State → PTree → State) (s : State) : State :=
  let a := itemTree s i
  if a = 0 then g s noTree else itemRead i a 32 (fun s bs => g s (treeOf a bs)) s

/-- The hash of a block under a parent (R236). -/
def blockHash (parent : Nat) (blk : List Byte) : Nat :=
  ((chunks 4 blk).foldl (fun h t => mix64 (h ^^^ BitVec.ofNat 64 (leNat t))) (BitVec.ofNat 64 parent)).toNat

/-- The address of a block's bucket. -/
def bucketAddr (t : PTree) (parent : Nat) (blk : List Byte) : Nat := t.buckets + 8 * (blockHash parent blk &&& (t.nb - 1))

/-- A node's fields: PARENT, NEXT, REFCNT, CHILDREN, LRU, VALID, tokens (R235). -/
def nParent (bs : List Byte) : Nat := leAt bs 0 8
def nNext (bs : List Byte) : Nat := leAt bs 8 8
def nRef (bs : List Byte) : Nat := leAt bs 24 4
def nKids (bs : List Byte) : Nat := leAt bs 28 4
def nLru (bs : List Byte) : Nat := leAt bs 32 8

/-- A node matches (R237). -/
def nodeMatches (parent : Nat) (blk bs : List Byte) : Bool :=
  bitB (leAt bs 40 1) 0 && nParent bs == parent && (bs.drop 64).take 1024 == blk

/-- More nodes than device memory can hold: where a chain is longer, it is a ring, and holds no match. -/
def chainFuel : Nat := 2 ^ 31

/-- The first node from `c` on that matches, or 0. -/
def findNode (i : Item) (parent : Nat) (blk : List Byte) (g : State → Nat → State) : Nat → Nat → State → State
  | 0, _, s => g s 0
  | fuel + 1, c, s =>
    if c = 0 then g s 0
    else itemRead i c 1088 (fun s bs =>
      if nodeMatches parent blk bs then g s c else findNode i parent blk g fuel (nNext bs) s) s

/-- The node of a block under a parent, or 0; with the bucket's address and its first node. -/
def blockNode (i : Item) (t : PTree) (parent : Nat) (blk : List Byte) (g : State → Nat → Nat → State) (s : State) : State :=
  if t.nb = 0 then g s 0 0
  else itemRead i (bucketAddr t parent blk) 8 (fun s bs =>
    findNode i parent blk (fun s c => g s c (leNat bs)) chainFuel (leNat bs) s) s

/-- Block `b` of a token list. -/
def blockOf (toks : List Byte) (b : Nat) : List Byte := (toks.drop (1024 * b)).take 1024

/-! ### The shares of an instance (R234) -/

/-- One share: its context, its directory header, its layer. -/
structure PShare where
  x : Ctx
  h : KvHdr
  layer : Nat
  deriving DecidableEq, Repr

/-- The shares of directories, in the model's numbering (DESIGN CHOICE, log entry 34). -/
def sharesOf (hs : List (Ctx × KvHdr)) : List PShare :=
  hs.flatMap (fun p => (List.range p.2.nl).map (fun k => ⟨p.1, p.2, p.2.l0 + k⟩))

/-- The shares of an item's region. -/
def withShares (i : Item) (g : State → List PShare → State) (s : State) : State :=
  let (s, st, hs) := ctxHdrs s i.cls (dirCtxs s i.region)
  if st ≠ 0 then complete s i st 0 false else g s (sharesOf hs)

/-- The address of a share's record for a sequence. -/
def shareRec (p : PShare) (seq : Nat) : Nat := shareAddr p.h (seq % 2 ^ 24) p.layer

/-- A page goes back to the stack of its tier: through the owning cluster while the directory is loaded, else into the
directory header (R233, R240). Stacks hold the entry with SHARED 0. -/
def pushPage (i : Item) (x : Ctx) (pte : Nat) (g : State → State) (s : State) : State :=
  let hot := pteTier pte == 1
  let e := if pteShared pte then pte - 4 else pte
  if pteTier pte ≠ 1 ∧ pteTier pte ≠ 2 then g s
  else
    let (s, st, h) := ctxHdr s i.cls x
    if st ≠ 0 then complete s i st 0 false
    else itemWrite i (if hot then h.hpool + 8 * h.hcount else h.cpool + 8 * h.ccount) (leBytes 8 e) (fun s =>
      let up := fun (h : KvHdr) => if hot then { h with hcount := (h.hcount + 1) % 2 ^ 32 }
        else { h with ccount := (h.ccount + 1) % 2 ^ 32 }
      match dirHolder s x with
      | some y => g (modHdr s y.clu y.slot up)
      | none => itemWrite i (if hot then x.kvdir + 24 else x.kvdir + 40)
        (leBytes 4 (if hot then (up h).hcount else (up h).ccount)) g s) s

/-! ### LOOKUP (R238, R392, R420) -/

/-- The chain of matching nodes. -/
def lookBlocks (i : Item) (t : PTree) (toks : List Byte) (g : State → List Nat → State) :
    List Nat → Nat → List Nat → State → State
  | [], _, chain, s => g s chain
  | b :: bs, node, chain, s =>
    blockNode i t node (blockOf toks b) (fun s c _ =>
      if c = 0 then g s chain else lookBlocks i t toks g bs c (chain ++ [c]) s) s

/-- REFCNT of each node of a chain rises, LRU becomes the FTC. -/
def holdChain (i : Item) (g : State → State) : List Nat → State → State
  | [], s => g s
  | c :: cs, s =>
    itemRead i c 64 (fun s bs =>
      itemWrite i (c + 24) (leBytes 4 (nRef bs + 1)) (itemWrite i (c + 32) (leBytes 8 s.clock.ftc) (holdChain i g cs)) s) s

/-- The pages of a chain in share `k`, written to page 0 and on of a page table. -/
def openPages (i : Item) (k pt : Nat) (g : State → State) : List Nat → Nat → State → State
  | [], _, s => g s
  | c :: cs, p, s =>
    itemRead i (c + 1088 + 8 * k) 8 (fun s bs => itemWrite i (pt + 8 * p) bs (openPages i k pt g cs (p + 1)) s) s

/-- The sequence opens in every share: pages, C, TAILOCC, GEN, VALID. -/
def openShares (i : Item) (t : PTree) (chain : List Nat) (g : State → State) : List PShare → Nat → State → State
  | [], _, s => g s
  | p :: ps, k, s =>
    let seq := dSeq i.desc
    let a := shareRec p seq
    itemRead i a 64 (fun s r =>
      openPages i k (leAt r 16 8) (fun s =>
        itemWrite i (a + 24) (leBytes 8 0)
          (itemWrite i a (leBytes 4 (1 + 256 * (seq / 2 ^ 24)) ++ leBytes 4 (leAt r 8 4 + 256 * chain.length))
            (openShares i t chain g ps (k + 1))) s)
        (if k < t.nsh then chain else []) 0 s) s

/-- The chain is written where the descriptor asks for it, and the item completes with its length. -/
def lookEnd (i : Item) (chain : List Nat) (s : State) : State :=
  let n := chain.length
  let fin := fun s => complete s i 0 n false
  if dChAddr i.desc = 0 then fin s
  else itemWrite i (dChAddr i.desc) (leBytes 8 n ++ chain.flatMap (leBytes 8)) fin s

/-- A sequence is bound to a region. -/
def bindSeq (s : State) (i : Item) : State :=
  let d := i.desc
  let bs := s.hub.bindings.filter (fun b => !(b.f == i.f && b.model == dModel d && b.seq == dSeq d))
  { s with hub.bindings := bs ++ [⟨i.f, dModel d, dSeq d, i.region⟩] }

/-- Open sequences that the binding table holds (R420). -/
def bindMax : Nat := 262144

/-- LOOKUP of an item. -/
def doLookup (i : Item) (s : State) : State :=
  let d := i.desc
  if dOpen d && (boundTo s i.f (dModel d) (dSeq d)).isNone && decide (bindMax ≤ s.hub.bindings.length) then
    complete s i 0x15 0 false
  else
    withTree i (fun s t =>
      itemRead i (dTokAddr d) (1024 * dBlocks d) (fun s toks =>
        lookBlocks i t toks (fun s chain =>
          holdChain i (fun s =>
            let s := bump s aPfxMatch chain.length
            if dOpen d then
              withShares i (fun s ps => openShares i t chain (fun s => lookEnd i chain (bindSeq s i)) ps 0 s) s
            else lookEnd i chain s) chain s) (List.range (dBlocks d)) 0 [] s) s) s

/-! ### INSERT (R239) -/

/-- Every share of the sequence is open, and holds the blocks below `n` committed. -/
def rangeCheck (i : Item) (n : Nat) (g : State → Bool → State) : List PShare → State → State
  | [], s => g s true
  | p :: ps, s =>
    itemRead i (shareRec p (dSeq i.desc)) 64 (fun s r =>
      if bitB (leAt r 0 4) 0 && bits (leAt r 0 4) 15 8 == dSeq i.desc / 2 ^ 24 && decide (leAt r 8 4 + 256 * n ≤ leAt r 4 4)
      then rangeCheck i n g ps s else g s false) s

/-- The PTEs of block `b`, one for each share, read and marked SHARED. -/
def takePages (i : Item) (b : Nat) (g : State → List Nat → State) : List PShare → List Nat → State → State
  | [], acc, s => g s acc
  | p :: ps, acc, s =>
    itemRead i (shareRec p (dSeq i.desc) + 16) 8 (fun s r =>
      let a := leNat r + 8 * b
      itemRead i a 8 (fun s e =>
        let v := if pteShared (leNat e) then leNat e else leNat e + 4
        itemWrite i a (leBytes 8 v) (takePages i b g ps (acc ++ [v])) s) s) s

/-- A node popped from the stack is filled: LRU keeps the bytes it has. -/
def fillNode (i : Item) (node parent next : Nat) (blk : List Byte) (pages : List Nat) (g : State → State) : State → State :=
  itemWrite i node (leBytes 8 parent ++ leBytes 8 next ++ leBytes 8 0 ++ leBytes 4 1 ++ leBytes 4 0)
    (itemWrite i (node + 40) (leBytes 1 1 ++ leBytes 23 0 ++ blk ++ pages.flatMap (leBytes 8)) g)

/-- A parent's CHILDREN changed by `f`; the root has none. -/
def modKids (i : Item) (parent : Nat) (f : Nat → Nat) (g : State → State) (s : State) : State :=
  if parent = 0 then g s
  else itemRead i (parent + 28) 4 (fun s bs => itemWrite i (parent + 28) (leBytes 4 (f (leNat bs))) g s) s

/-- The blocks inserted in order: `m` have matched, `k` have been inserted. -/
def insertBlocks (i : Item) (toks : List Byte) (ps : List PShare) : List Nat → Nat → Nat → Nat → State → State
  | [], _, m, _, s => complete s i 0 m false
  | b :: bs, parent, m, k, s =>
    withTree i (fun s t =>
      let blk := blockOf toks b
      blockNode i t parent blk (fun s c head =>
        if c ≠ 0 then
          itemRead i (c + 24) 4 (fun s r =>
            itemWrite i (c + 24) (leBytes 4 (leNat r + 1)) (insertBlocks i toks ps bs c (m + 1) k) s) s
        else if t.ncount = 0 then complete s i 0x30 k false
        else
          itemRead i (t.pool + 8 * (t.ncount - 1)) 8 (fun s nb =>
            let node := leNat nb
            itemWrite i (t.base + 24) (leBytes 4 (t.ncount - 1))
              (takePages i b (fun s pages =>
                fillNode i node parent head blk pages
                  (itemWrite i (bucketAddr t parent blk) (leBytes 8 node)
                    (modKids i parent (fun x => x + 1) (insertBlocks i toks ps bs node m (k + 1)))) s) (ps.take t.nsh) []) s)
            s) s) s

/-- INSERT of an item. -/
def doInsert (i : Item) (s : State) : State :=
  let d := i.desc
  let n := dB0 d + dNblk d
  withShares i (fun s ps =>
    rangeCheck i n (fun s ok =>
      if !ok then complete s i 0x31 0 false
      else itemRead i (dTokAddr d) (1024 * n) (fun s toks =>
        insertBlocks i toks ps ((List.range (dNblk d)).map (fun k => dB0 d + k)) (dParent d) 0 0 s) s) ps s) s

/-! ### RELEASE (R240) -/

/-- Each named node released. -/
def dropNodes (i : Item) : List Nat → State → State
  | [], s => complete s i 0 0 false
  | c :: cs, s =>
    itemRead i c 64 (fun s bs =>
      let s := if nRef bs = 0 then bump s aPfxUnder 1 else s
      itemWrite i (c + 24) (leBytes 4 (nRef bs - 1)) (itemWrite i (c + 32) (leBytes 8 s.clock.ftc) (dropNodes i cs)) s) s

/-- RELEASE of the chain at CHADDR. -/
def doRelease (i : Item) (s : State) : State :=
  let a := dChAddr i.desc
  itemRead i a 8 (fun s nb =>
    if !tenOk s i.f (a + 8) (8 * leNat nb) then complete s i 0x16 0 false
    else itemRead i (a + 8) (8 * leNat nb) (fun s bs => dropNodes i ((chunks 8 bs).map leNat) s) s) s

/-! ### EVICT (R240) -/

/-- A node that can go: its address, the address of the link to it, its bytes. -/
structure PNode where
  addr : Nat
  link : Nat
  bs : List Byte
  deriving DecidableEq, Repr

/-- The evictable nodes of a chain. -/
def scanChain (i : Item) (g : State → List PNode → State) : Nat → Nat → Nat → List PNode → State → State
  | 0, _, _, acc, s => g s acc
  | fuel + 1, link, c, acc, s =>
    if c = 0 then g s acc
    else itemRead i c 64 (fun s bs =>
      scanChain i g fuel (c + 8) (nNext bs) (if nRef bs = 0 ∧ nKids bs = 0 then acc ++ [⟨c, link, bs⟩] else acc) s) s

/-- The evictable nodes of buckets. -/
def scanBuckets (i : Item) (t : PTree) (g : State → List PNode → State) : List Nat → List PNode → State → State
  | [], acc, s => g s acc
  | b :: bs, acc, s =>
    let a := t.buckets + 8 * b
    itemRead i a 8 (fun s h => scanChain i (fun s acc => scanBuckets i t g bs acc s) chainFuel a (leNat h) acc s) s

/-- The node that goes first: lowest LRU, then lowest address. -/
def firstNode : List PNode → Option PNode
  | [] => none
  | x :: xs => some (xs.foldl (fun b y =>
      if nLru y.bs < nLru b.bs ∨ (nLru y.bs = nLru b.bs ∧ y.addr < b.addr) then y else b) x)

/-- The pages of a removed node go back to the stacks of their shares. -/
def backPages (i : Item) (node : Nat) (g : State → State) : List PShare → Nat → State → State
  | [], _, s => g s
  | p :: ps, k, s =>
    itemRead i (node + 1088 + 8 * k) 8 (fun s e => pushPage i p.x (leNat e) (backPages i node g ps (k + 1)) s) s

/-- A node leaves the tree: unlinked, pushed on the node stack, its parent's CHILDREN and its pages. -/
def evictNode (i : Item) (t : PTree) (ps : List PShare) (x : PNode) (g : State → State) : State → State :=
  itemWrite i x.link (leBytes 8 (nNext x.bs))
    (itemWrite i (x.addr + 40) (leBytes 1 (leAt x.bs 40 1 / 2 * 2))
      (itemWrite i (t.pool + 8 * t.ncount) (leBytes 8 x.addr)
        (itemWrite i (t.base + 24) (leBytes 4 (t.ncount + 1))
          (modKids i (nParent x.bs) (fun n => n - 1)
            (backPages i x.addr (fun s => g (bump s aPfxEvict 1)) (ps.take t.nsh) 0)))))

/-- Up to `n` nodes removed; `k` have been. -/
def evictSome (i : Item) (ps : List PShare) : Nat → Nat → State → State
  | 0, k, s => complete s i 0 k false
  | n + 1, k, s =>
    withTree i (fun s t =>
      scanBuckets i t (fun s l =>
        match firstNode l with
        | none => complete s i 0 k false
        | some x => evictNode i t ps x (evictSome i ps n (k + 1)) s) (List.range t.nb) [] s) s

/-- EVICT of an item. -/
def doEvict (i : Item) (s : State) : State := withShares i (fun s ps => evictSome i ps (dNevict i.desc) 0 s) s

/-! ### The walker's queue (R237) -/

/-- The oldest request, where it is one of `opcs`. -/
def walkerItem (s : State) (opcs : List Nat) : Option Item :=
  match s.hub.items.find? (fun i => i.st == .prefixWait) with
  | some i => if opcs.contains (dOpc i.desc) then some i else none
  | none => none

/-- A command of the prefix walker. -/
def walkerCmd (s : State) (opcs : List Nat) (g : Item → State → State) : Host.Outcome State Fault Refusal :=
  dispCmd s (fun s => match walkerItem s opcs with | some i => if funcWaits s i.f then s else g i s | none => s)

/-- LOOKUP. -/
def execLookup (s : State) : Host.Outcome State Fault Refusal := walkerCmd s [2] doLookup

/-- INSERT. -/
def execInsert (s : State) : Host.Outcome State Fault Refusal := walkerCmd s [4] doInsert

/-- RELEASE, of PFX_RELEASE and of the chain of a SEQ_CLOSE. -/
def execRelease (s : State) : Host.Outcome State Fault Refusal := walkerCmd s [3, 5] doRelease

/-- EVICT. -/
def execEvict (s : State) : Host.Outcome State Fault Refusal := walkerCmd s [6] doEvict

/-- A prefix request joins the walker's queue, which serves requests in order of arrival. -/
def toWalker (s : State) (i : Item) (r : Nat) : State :=
  let j := { i with st := .prefixWait, region := r }
  { s with hub.items := s.hub.items.filter (fun x => x.id != i.id) ++ [j] }

/-- The start of a prefix opcode. -/
def prefixCmd (s : State) (opc : Nat) : Host.Outcome State Fault Refusal :=
  startCmd s opc (fun i s => withRegion i (fun r _ s => began (toWalker s i r) { i with region := r } r 0xFFFF 0) s)

/-- PFX_LOOKUP. -/
def execPfxLookup (s : State) : Host.Outcome State Fault Refusal := prefixCmd s 2

/-- PFX_INSERT. -/
def execPfxInsert (s : State) : Host.Outcome State Fault Refusal := prefixCmd s 4

/-- PFX_RELEASE. -/
def execPfxRelease (s : State) : Host.Outcome State Fault Refusal := prefixCmd s 5

/-- PFX_EVICT. -/
def execPfxEvict (s : State) : Host.Outcome State Fault Refusal := prefixCmd s 6

/-! ### SEQ_CLOSE (R233, R392) -/

/-- The sequence of a close has no token in flight. -/
def seqQuiet (s : State) (i : Item) : Bool :=
  !s.hub.items.any (fun x => x.f == i.f && dOpc x.desc == 1 && dSeq x.desc == dSeq i.desc && x.region == i.region &&
    x.st != .taken)

/-- The PTEs of one share, from page `k` on: pages that are not shared go back, every PTE becomes INVALID. -/
def closePages (i : Item) (x : Ctx) (pt : Nat) (g : State → State) : List Nat → Nat → State → State
  | [], _, s => g s
  | e :: es, k, s =>
    let next := itemWrite i (pt + 8 * k) (leBytes 8 (e / 4 * 4)) (closePages i x pt g es (k + 1))
    if pteShared e then next s else pushPage i x e next s

/-- The shares of a sequence close: pages back, VALID 0. -/
def closeShares (i : Item) (g : State → State) : List PShare → State → State
  | [], s => g s
  | p :: ps, s =>
    let a := shareRec p (dSeq i.desc)
    itemRead i a 64 (fun s r =>
      if bitB (leAt r 0 4) 0 && bits (leAt r 0 4) 15 8 == dSeq i.desc / 2 ^ 24 then
        itemRead i (leAt r 16 8) (8 * (leAt r 12 4 / 256)) (fun s bs =>
          closePages i p.x (leAt r 16 8) (fun s =>
            itemWrite i a (leBytes 4 (leAt r 0 4 / 2 * 2)) (closeShares i g ps) s) ((chunks 8 bs).map leNat) 0 s) s
      else closeShares i g ps s) s

/-- A close whose sequence is quiet: shares, binding, then the chain. -/
def closeSeq (i : Item) (s : State) : State :=
  withShares i (fun s ps =>
    closeShares i (fun s =>
      let s := { s with hub.bindings := s.hub.bindings.filter (fun b =>
        !(b.f == i.f && b.model == dModel i.desc && b.seq == dSeq i.desc)) }
      if dChAddr i.desc = 0 then complete s i 0 0 false else toWalker s i i.region) ps s) s

/-- The start of a SEQ_CLOSE, which waits while the sequence has tokens in flight. -/
def startClose (i : Item) (r : Nat) (_ : Region) (s : State) : State :=
  let j := { i with st := .closing, region := r }
  let s := began (modItem s i.id (fun _ => j)) j r 0xFFFF 0
  if seqQuiet s j then closeSeq j s else s

/-- SEQ_CLOSE: the close that the dispatch unit has taken starts, or the first whose sequence has become quiet goes on. -/
def doSeqClose (s : State) : State :=
  match takenItem s 3 with
  | some i =>
    match earlyCheck s i with
    | some st => stopItem s i st
    | none => withRegion i (startClose i) s
  | none => match s.hub.items.find? (fun i => i.st == .closing && seqQuiet s i && !funcWaits s i.f) with
    | some i => closeSeq i s
    | none => s

/-- SEQ_CLOSE. -/
def execSeqClose (s : State) : Host.Outcome State Fault Refusal := dispCmd s doSeqClose

end Sys2Proof.Machine
end

