-- ==== Sys2Proof/Machine/LoadImage.lean ====
section
/-! DEFINITION. Layout images: reading one, its header, section table and entries, and check 2 of R369 (R352 to R366). -/

namespace Sys2Proof.Machine

/-! ### Reading an image (R354, R356) -/

/-- The class of the work item that asked for a load. -/
def jobCls (s : State) (j : LoadJob) : Cls := match getItem s j.item with | some i => i.cls | none => .b

/-- A read of image bytes for a load: none outside the windows. -/
def imgRead (s : State) (j : LoadJob) (o n : Nat) : State × List Byte × Bool :=
  match tenRead s (jobCls s j) j.f (j.image + o) n with
  | none => (s, [], false)
  | some r => r

/-- Section `i` by its table entry `e`, with its bytes where they lie in the image; of a WEIGHT section only the entries
(R368). -/
def secRead (s : State) (j : LoadJob) (i : Nat) (e : List Byte) : State × Sec :=
  let typ := leAt e 0 1
  let off := leAt e 8 8
  let len := leAt e 16 8
  let n := if typ = 5 then min len (24 * leAt e 4 4) else len
  let (s, bs, poi) := if off + len ≤ j.ilen then imgRead s j off n else (s, [], false)
  (s, { idx := i, typ := typ, count := leAt e 4 4, off := off, len := len, dig := (e.drop 32).take 64
        clean := leAt e 1 3 == 0 && leAt e 24 8 == 0, data := bs, poi := poi })

/-- The sections of table entries, from index `i`. -/
def secsRead (s : State) (j : LoadJob) : Nat → List (List Byte) → State × List Sec
  | _, [] => (s, [])
  | i, e :: es =>
    let (s, x) := secRead s j i e
    let (s, xs) := secsRead s j (i + 1) es
    (s, x :: xs)

/-- NSECT of a header, at most 64. -/
def imgNsect (h : List Byte) : Nat := min 64 (leAt h 16 2)

/-- The header and section table of an image. -/
def headRead (s : State) (j : LoadJob) : State × List Byte × Bool :=
  let (s, h, p) := imgRead s j 0 (min 320 j.ilen)
  let (s, t, q) := imgRead s j 320 (min (96 * imgNsect h) (j.ilen - 320))
  (s, h ++ t, p || q)

/-- The image with the header and section table `h`. -/
def readSecs (s : State) (j : LoadJob) (h : List Byte) (poi : Bool) : State × Layout :=
  let (s, xs) := secsRead s j 0 ((chunks 96 (h.drop 320)).filter (fun e => e.length == 96))
  (s, { ilen := j.ilen, head := h, poi := poi, secs := xs })

/-! ### Header fields -/

/-- SIGNED, PMODE with Nuaro images in partition mode (R355), KEYSEL, DIGEST, SIGR, SIGS. -/
def imgSigned (m : Layout) : Bool := bitB (leAt m.head 6 1) 0
def imgPmode (m : Layout) : Bool := bitB (leAt m.head 6 1) 1 || leAt m.head 0 4 == 0x4E554C49
def imgKeysel (m : Layout) : Nat := leAt m.head 7 1 % 16
def imgDigest (m : Layout) : List Byte := (m.head.drop 64).take 64
def imgSigR (m : Layout) : Nat := leAt m.head 128 66
def imgSigS (m : Layout) : Nat := leAt m.head 194 66

/-- The bytes that DIGEST covers. -/
def imgDigested (m : Layout) : List Byte := m.head.take 64 ++ m.head.drop 320

/-- The header passes check 2. -/
def headOk (m : Layout) : Bool :=
  let h := m.head
  let n := leAt h 16 2
  (leAt h 0 4 == 0x53574C49 || leAt h 0 4 == 0x4E554C49) && leAt h 4 2 == 1 && decide (leAt h 6 1 < 4) &&
    decide (leAt h 7 1 < 16) && leAt h 8 8 == m.ilen && decide (1 ≤ n) && decide (n ≤ 64) && leAt h 18 46 == 0 &&
    leAt h 260 60 == 0 && decide (320 + 96 * n ≤ m.ilen)

/-! ### Sections and entries (R357) -/

/-- The section of a type. -/
def findSec (m : Layout) (t : Nat) : Option Sec := m.secs.find? (fun x => x.typ == t)

/-- The entry size of a type; PROGRAM entries vary. -/
def entSize (t : Nat) : Nat :=
  match t with
  | 1 => 256 | 2 => 32 | 4 => 16 | 5 => 24 | 6 => 16 | 7 => 24 | 8 => 8 | 9 => 4 | 10 => 16 | _ => 0

/-- The entries of a type, in order. -/
def ents (m : Layout) (t : Nat) : List (List Byte) :=
  match findSec m t with
  | none => []
  | some x => (chunks (entSize t) (x.data.take (entSize t * x.count))).filter (fun e => e.length == entSize t)

/-- Entry `k` of a type. -/
def entAt (m : Layout) (t k : Nat) : List Byte := nth [] (ents m t) k

/-! ### REGION entries (R358) -/

/-- KIND, SHARED, rectangle, MEMBERS. -/
def rgPipe (e : List Byte) : Bool := bitB (leAt e 0 1) 0
def rgShared (e : List Byte) : Bool := bitB (leAt e 0 1) 1
def rgX0 (e : List Byte) : Nat := leAt e 4 1
def rgY0 (e : List Byte) : Nat := leAt e 5 1
def rgW (e : List Byte) : Nat := leAt e 6 1
def rgH (e : List Byte) : Nat := leAt e 7 1
def rgMember (e : List Byte) (c : Nat) : Bool := bitB (leAt e (64 + c / 8) 1) (c % 8)

/-- A cluster's position lies in the rectangle of a pipeline region's entry. -/
def rgRect (e : List Byte) (c : Nat) : Bool := rgPipe e && inRect (rgX0 e) (rgY0 e) (rgW e) (rgH e) c

/-- A REGION entry's fields are in range. -/
def regEntOk (e : List Byte) : Bool :=
  decide (leAt e 0 1 < 4) && leAt e 1 3 == 0 && leAt e 8 56 == 0 &&
    (if rgPipe e then
      decide (rgX0 e < 48) && decide (rgY0 e < 32) && decide (1 ≤ rgW e) && decide (rgW e ≤ 48) && decide (1 ≤ rgH e) &&
        decide (rgH e ≤ 32) && leAt e 64 192 == 0
    else leAt e 4 4 == 0 && leAt e 64 192 != 0)

/-! ### CONTEXT entries (R359) -/

/-- CLU, REG, SLOT, PANELS, PROG, ENTRY, NRT, RTADDR, SEED, KVDIR. -/
def cxClu (e : List Byte) : Nat := leAt e 0 2
def cxReg (e : List Byte) : Nat := leAt e 2 1
def cxSlot (e : List Byte) : Nat := leAt e 3 1
def cxPanels (e : List Byte) : Nat := leAt e 4 1
def cxProg (e : List Byte) : Nat := leAt e 6 2
def cxEntry (e : List Byte) : Nat := leAt e 8 2
def cxNrt (e : List Byte) : Nat := leAt e 10 2
def cxRtaddr (e : List Byte) : Nat := leAt e 12 4
def cxSeed (e : List Byte) : Nat := leAt e 16 8
def cxKvdir (e : List Byte) : Nat := leAt e 24 8

/-- A CONTEXT entry's fields are in range, for so many regions and programs. -/
def ctxEntOk (nreg nprog : Nat) (e : List Byte) : Bool :=
  decide (cxClu e < Config.clusters) && decide (cxReg e < nreg) && decide (cxSlot e < 4) && decide (1 ≤ cxPanels e) &&
    decide (cxPanels e ≤ 16) && leAt e 5 1 == 0 && decide (cxProg e < nprog) && decide (cxEntry e < 2 ^ 14) &&
    decide (cxRtaddr e < 2 ^ 25) && cxRtaddr e % 32 == 0 && cxKvdir e % 64 == 0

/-! ### Programs (R360) -/

/-- Up to `n` programs of the bytes of a PROGRAM section, to the first malformed one. -/
def progsOf : Nat → List Byte → List (List W32)
  | 0, _ => []
  | n + 1, bs =>
    let len := leAt bs 0 8
    if 1 ≤ len ∧ len ≤ 16384 ∧ 8 + 4 * len ≤ bs.length then
      ((chunks 4 ((bs.drop 8).take (4 * len))).map (fun w => BitVec.ofNat 32 (leNat w))) ::
        progsOf n (bs.drop (8 + (4 * len + 7) / 8 * 8))
    else []

/-- The image's programs. -/
def imgProgs (m : Layout) : List (List W32) :=
  match findSec m 3 with
  | none => []
  | some x => progsOf x.count x.data

/-! ### ROUTE, WEIGHT, ACCORD entries (R361 to R363) -/

/-- CTX of a ROUTE, ACCORD or CONST entry. -/
def enCtx (e : List Byte) : Nat := leAt e 0 4

/-- PEER, TCLU and the peer word. -/
def rtPeer (e : List Byte) : Nat := leAt e 4 2
def rtTclu (e : List Byte) : Nat := leAt e 8 2
def rtWord (e : List Byte) : List Byte := (e.drop 8).take 8

/-- A ROUTE entry's fields are in range. -/
def rtEntOk (m : Layout) (e : List Byte) : Bool :=
  decide (enCtx e < (ents m 2).length) && decide (rtPeer e < cxNrt (entAt m 2 (enCtx e))) && leAt e 6 2 == 0 &&
    decide (leAt e 10 1 < 4) && decide (leAt e 11 1 < 64) && leAt e 14 2 == 0

/-- CLU, NOBACK, first tile, NTILES, SRC. -/
def wtClu (e : List Byte) : Nat := leAt e 0 2
def wtNoback (e : List Byte) : Bool := bitB (leAt e 2 1) 0
def wtTile (e : List Byte) : Nat := leAt e 4 4 / 4096
def wtN (e : List Byte) : Nat := leAt e 8 2
def wtSrc (e : List Byte) : Nat := leAt e 16 8

/-- A WEIGHT entry's fields are in range, its tile data in the section behind the entries. -/
def wtEntOk (x : Sec) (e : List Byte) : Bool :=
  decide (wtClu e < Config.clusters) && decide (leAt e 2 1 < 2) && leAt e 3 1 == 0 && decide (leAt e 4 4 < 2 ^ 27) &&
    leAt e 4 4 % 4096 == 0 && decide (1 ≤ wtN e) && decide (wtTile e % 1024 + wtN e ≤ 1024) && leAt e 10 6 == 0 &&
    wtSrc e % 4096 == 0 && inside (wtSrc e) (4096 * wtN e) (x.off + 24 * x.count) (x.len - 24 * x.count)

/-- An ACCORD entry's fields are in range. -/
def acEntOk (m : Layout) (e : List Byte) : Bool :=
  decide (enCtx e < (ents m 2).length) && leAt e 4 2 != 0 && decide (leAt e 6 2 < 8192) && decide (leAt e 8 2 < 4096) &&
    leAt e 10 2 == 0 && decide (leAt e 12 4 < 2 ^ 25) && leAt e 12 4 % 32 == 0

/-- The CLU_ACC_ENT value of an ACCORD entry for a slot (R287). -/
def acWord (slot : Nat) (e : List Byte) : Nat :=
  slot * 2 ^ 62 + leAt e 8 2 * 2 ^ 50 + leAt e 12 4 / 32 * 2 ^ 30 + leAt e 6 2 * 2 ^ 17 + 2 ^ 16 + leAt e 4 2

/-! ### CONST, SPLIT, SUBST, INSTANCE entries (R364 to R366) -/

/-- TKIND, ADDR, LEN. -/
def ksDev (e : List Byte) : Bool := bitB (leAt e 4 1) 0
def ksAddr (e : List Byte) : Nat := leAt e 8 8
def ksLen (e : List Byte) : Nat := leAt e 16 4

/-- Where the data of CONST entries starts, from offset `o` on: each item is padded to a multiple of 32 bytes. -/
def ksOffsets (o : Nat) : List (List Byte) → List Nat
  | [] => []
  | e :: es => o :: ksOffsets (o + (ksLen e + 31) / 32 * 32) es

/-- CONST entries with their bytes, and whether the section holds all of them. -/
def imgConsts (m : Layout) : List (List Byte × List Byte × Bool) :=
  match findSec m 7 with
  | none => []
  | some x =>
    let es := ents m 7
    (es.zip (ksOffsets (24 * x.count) es)).map (fun p =>
      (p.1, (x.data.drop p.2).take (ksLen p.1), decide (p.2 + ksLen p.1 ≤ x.len)))

/-- A CONST entry's fields are in range; a scratchpad constant lies inside its context's partition. -/
def ksEntOk (m : Layout) (p : List Byte × List Byte × Bool) : Bool :=
  let e := p.1
  p.2.2 && decide (enCtx e < (ents m 2).length) && decide (leAt e 4 1 < 2) && leAt e 5 3 == 0 && leAt e 20 4 == 0 &&
    (ksDev e || decide (ksAddr e + ksLen e ≤ cxPanels (entAt m 2 (enCtx e)) * 2 ^ 21))

/-- REG, AUTO, DEC of a SPLIT entry. -/
def spReg (e : List Byte) : Nat := leAt e 0 1
def spAuto (e : List Byte) : Bool := bitB (leAt e 1 1) 0
def spDec (e : List Byte) : Nat := leAt e 2 1

/-- A SPLIT entry's fields are in range. -/
def spEntOk (nreg : Nat) (e : List Byte) : Bool :=
  decide (spReg e < nreg) && decide (leAt e 1 1 < 2) && decide (spDec e ≤ 4) && leAt e 3 5 == 0

/-- The cluster and the reserve of a SUBST entry. -/
def sbClu (e : List Byte) : Nat := leAt e 0 2
def sbRsv (e : List Byte) : Nat := leAt e 2 2

/-- A SUBST entry's fields are in range. -/
def sbEntOk (e : List Byte) : Bool := decide (sbClu e < Config.clusters) && decide (sbRsv e < Config.clusters)

/-- HANDLE, REG, PFXTREE of an INSTANCE entry. -/
def inHandle (e : List Byte) : Nat := leAt e 0 2
def inReg (e : List Byte) : Nat := leAt e 2 1
def inTree (e : List Byte) : Nat := leAt e 8 8

/-- An INSTANCE entry's fields are in range. -/
def inEntOk (nreg : Nat) (e : List Byte) : Bool := decide (inReg e < nreg) && leAt e 3 5 == 0

/-! ### Check 2 (R369) -/

/-- A detail: section index and entry index. -/
def loadDet (i e : Nat) : Nat := i % 256 * 2 ^ 24 + e % 2 ^ 24

/-- The index of the section of a type, 0xFF where there is none. -/
def secIdx (m : Layout) (t : Nat) : Nat := match findSec m t with | some x => x.idx | none => 0xFF

/-- The place of the first element that fails a test. -/
def firstBad {α : Type} (ok : α → Bool) : Nat → List α → Option Nat
  | _, [] => none
  | k, x :: xs => if ok x then firstBad ok (k + 1) xs else some k

/-- A section's table entry stands beside the earlier ones `ps`. -/
def secOk (m : Layout) (ps : List Sec) (x : Sec) : Bool :=
  x.clean && decide (1 ≤ x.typ) && decide (x.typ ≤ 10) && x.off % 64 == 0 && decide (320 + 96 * imgNsect m.head ≤ x.off) &&
    decide (x.off + x.len ≤ m.ilen) && decide (entSize x.typ * x.count ≤ x.len) && !(x.typ == 6 && imgPmode m) &&
    ps.all (fun y => y.typ != x.typ && (y.len == 0 || x.len == 0 || !overlaps x.off x.len y.off y.len)) &&
    (x.typ != 1 || (decide (1 ≤ x.count) && decide (x.count ≤ 16))) &&
    (x.typ != 2 || (decide (1 ≤ x.count) && decide (x.count ≤ 6144)))

/-- The first section whose table entry fails. -/
def badSec (m : Layout) (ps : List Sec) : List Sec → Option Nat
  | [] => none
  | x :: xs => if secOk m ps x then badSec m (x :: ps) xs else some x.idx

/-- Entry `k` of the SPLIT section names a region that an earlier entry names. -/
def splitTwice (es : List (List Byte)) (k : Nat) : Bool := (es.take k).any (fun e => spReg e == spReg (nth [] es k))

/-- The first entry of a section that fails. -/
def badEnt (m : Layout) (x : Sec) : Option Nat :=
  let nreg := (ents m 1).length
  let es := ents m x.typ
  match x.typ with
  | 1 => firstBad regEntOk 0 es
  | 2 => firstBad (ctxEntOk nreg (imgProgs m).length) 0 es
  | 3 => if (imgProgs m).length = x.count then none else some (imgProgs m).length
  | 4 => firstBad (rtEntOk m) 0 es
  | 5 => firstBad (wtEntOk x) 0 es
  | 6 => firstBad (acEntOk m) 0 es
  | 7 => firstBad (ksEntOk m) 0 (imgConsts m)
  | 8 => firstBad (fun k => spEntOk nreg (nth [] es k) && !splitTwice es k) 0 (List.range es.length)
  | 9 => firstBad sbEntOk 0 es
  | 10 => firstBad (inEntOk nreg) 0 es
  | _ => none

/-- The first section with an entry that fails, and the entry. -/
def badEnts (m : Layout) : List Sec → Option Nat
  | [] => none
  | x :: xs => match badEnt m x with
    | some k => some (loadDet x.idx k)
    | none => badEnts m xs

/-- Check 2: the detail of the first error, in the order header, section table, missing sections, entries. -/
def formatBad (m : Layout) : Option Nat :=
  if !headOk m then some (loadDet 0xFF 0)
  else match badSec m [] m.secs with
    | some i => some (loadDet i 0)
    | none => if [1, 2, 3, 10].any (fun t => (findSec m t).isNone) then some (loadDet 0xFF 0) else badEnts m m.secs

end Sys2Proof.Machine
end

