-- ==== Sys2Proof/Machine/LoadCheck.lean ====
section
/-! DEFINITION. The validation of a load: what it samples, the binding of reserves, the checks of R369 in their order (R304 to
R306, R309 to R312, R368 to R370, R374, R454, R523). -/

namespace Sys2Proof.Machine

/-! ### Samples (R368, R311) -/

/-- A job with what its validation samples: grants, lost clusters, reserve bindings, region descriptors. -/
def sampled (s : State) (j : LoadJob) : LoadJob :=
  { j with
    grants := s.hub.grants
    lost := (s.cl.clus.filter (fun p => p.2.lost)).map (·.1)
    rmap := s.hub.rmap
    rgns := s.hub.regions
    insts := s.hub.insts.filter (fun x => oldNum { j with rgns := s.hub.regions } == some x.load) }

/-- HUB_CLU_MAP.STATE of a cluster as sampled. -/
def stateAt (s : State) (j : LoadJob) (c : Nat) : Nat :=
  if j.lost.contains c then 3
  else match rsvIdx c with
    | none => 0
    | some i => if (tabFind j.rmap i).isSome then 2 else if rsvKept s i then 1 else 0

/-- The working reserve that is bound to a cluster already. -/
def standIn (j : LoadJob) (c : Nat) : Option Nat :=
  (j.rmap.find? (fun p => p.2 == c && !j.lost.contains (rsvClu p.1))).map (fun p => rsvClu p.1)

/-! ### The load that REPLACE names (R374) -/

/-- The replaced load while it is in force. -/
def oldLoad (s : State) (j : LoadJob) : Option Load :=
  match oldNum j with
  | some n => s.hub.loads.find? (fun l => l.num == n)
  | none => none

/-- The load is a reload (R374). -/
def reloads (s : State) (j : LoadJob) (m : Layout) : Bool :=
  match oldLoad s j with
  | some l => l.digest == imgDigest m
  | none => false

/-- Descriptors, contexts and loads other than those of the replaced load. -/
def otherRgns (j : LoadJob) : Tab Region := j.rgns.filter (fun p => oldNum j != some p.2.load)
def otherCtxs (s : State) (j : LoadJob) : List Ctx := s.hub.ctxs.filter (fun x => oldNum j != some x.load)
def otherLoads (s : State) (j : LoadJob) : List Load := s.hub.loads.filter (fun l => oldNum j != some l.num)

/-! ### Members and reserves (R304, R309, R312) -/

/-- A cluster, by the ID that programs see, is a member of the region of entry `e`. -/
def seenMember (s : State) (j : LoadJob) (e : List Byte) (c : Nat) : Bool :=
  if rgPipe e then rgRect e c && (stateAt s j c == 0 || stateAt s j c == 3) else rgMember e c

/-- The image's REGION entries. -/
def imgRegs (m : Layout) : List (List Byte) := ents m 1

/-- A CONTEXT or WEIGHT entry names the cluster. -/
def imgNames (m : Layout) (c : Nat) : Bool :=
  (ents m 2).any (fun e => cxClu e == c) || (ents m 5).any (fun e => wtClu e == c)

/-- The LOST clusters that have to receive a reserve. -/
def needRsv (j : LoadJob) (m : Layout) : List Nat :=
  (List.range Config.clusters).filter (fun c => j.lost.contains c && (standIn j c).isNone &&
    ((imgRegs m).any (fun e => rgRect e c) || imgNames m c))

/-- Torus hops on full-axis routes (R290). -/
def hopCount (a b : Nat) : Nat :=
  let dx := (cluX a + 48 - cluX b) % 48
  let dy := (cluY a + 32 - cluY b) % 32
  min dx (48 - dx) + min dy (32 - dy)

/-- The place of reserve `r` in the order of R309 for lost cluster `c`; `e` is the pipeline region around `c`. -/
def rsvRank (e : Option (List Byte)) (c r : Nat) : Nat :=
  let inr := match e with | some e => rgRect e r | none => false
  let die := dieOf c == dieOf r
  2048 * (if inr && die then 0 else if inr then 1 else if die then 2 else 3 + hopCount c r) + r

/-- The free reserves. -/
def freeRsv (s : State) (j : LoadJob) : List Nat :=
  ((List.range 48).map rsvClu).filter (fun c => stateAt s j c == 1)

/-- The element of the lowest rank. -/
def lowestBy (rank : Nat → Nat) : List Nat → Option Nat
  | [] => none
  | x :: xs => some (xs.foldl (fun b y => if rank y < rank b then y else b) x)

/-- The substitutions of the image that name a free reserve: bindings, and the reserves left. -/
def bindSubst (m : Layout) : List Nat → List Nat → List (Nat × Nat) × List Nat
  | [], free => ([], free)
  | c :: cs, free =>
    match (ents m 9).find? (fun e => sbClu e == c && free.contains (sbRsv e)) with
    | some e =>
      let r := bindSubst m cs (free.filter (fun x => x != sbRsv e))
      ((c, sbRsv e) :: r.1, r.2)
    | none => bindSubst m cs free

/-- Clusters bound by the order of R309; the first that finds no reserve. -/
def bindRest (m : Layout) : List Nat → List Nat → Except Nat (List (Nat × Nat))
  | [], _ => .ok []
  | c :: cs, free =>
    match lowestBy (rsvRank ((imgRegs m).find? (fun e => rgRect e c)) c) free with
    | none => .error c
    | some r =>
      match bindRest m cs (free.filter (fun x => x != r)) with
      | .ok l => .ok ((c, r) :: l)
      | .error x => .error x

/-- The new bindings of a load, lost cluster and reserve; the substitutions that the image names come first. -/
def bindAll (s : State) (j : LoadJob) (m : Layout) : Except Nat (List (Nat × Nat)) :=
  let cs := needRsv j m
  let a := bindSubst m cs (freeRsv s j)
  match bindRest m (cs.filter (fun c => !a.1.any (fun p => p.1 == c))) a.2 with
  | .ok l => .ok (a.1 ++ l)
  | .error x => .error x

/-- The cluster that takes the place of a cluster ID under bindings `b`. -/
def placeOf (j : LoadJob) (b : List (Nat × Nat)) (c : Nat) : Nat :=
  match b.find? (fun p => p.1 == c) with
  | some p => p.2
  | none => if j.lost.contains c then (standIn j c).getD c else c

/-- The members of the region of entry `e`, in ascending ID; a lost cluster without a reserve is none. -/
def membersOf (s : State) (j : LoadJob) (b : List (Nat × Nat)) (e : List Byte) : List Nat :=
  let cs := ((List.range Config.clusters).filter (seenMember s j e)).map (placeOf j b)
  sortBy (fun x y => decide (x < y)) (uniq (cs.filter (fun c => !j.lost.contains c)))

/-! ### Save records and partitions (R128, R370, R454) -/

/-- The first of `n` free units of the area from `base` of `size` units beside the ranges `used`. -/
def allocUnits (base size n : Nat) (used : List (Nat × Nat)) : Option Nat :=
  lowestBy (fun x => x) ((base :: used.map (fun u => u.1 + u.2)).filter (fun a =>
    inside a n base size && used.all (fun u => !overlaps a n u.1 u.2)))

/-- The first units of new save records for contexts of so many panels, in order. -/
def allocSaves (base size : Nat) : List Nat → List (Nat × Nat) → Option (List Nat)
  | [], _ => some []
  | p :: ps, used =>
    match allocUnits base size (p + 1) used with
    | none => none
    | some a => (allocSaves base size ps ((a, p + 1) :: used)).map (fun l => a :: l)

/-- The save records of contexts, in units. -/
def saveUnits (xs : List Ctx) : List (Nat × Nat) :=
  (xs.filter (fun x => !x.pipe)).map (fun x => (x.saveAt / unit2M, x.panels + 1))

/-- The first run of `n` panels of 16 that does not meet `used`. -/
def firstFit (used n : Nat) : Option Nat := (List.range 17).find? (fun b => decide (b + n ≤ 16) && used &&& panelBits b n == 0)

/-- The panels of the valid partitions of a cluster's slots that meet `p`, as bits. -/
def usedPanels (s : State) (c : Nat) (p : Nat → Slot → Bool) : Nat :=
  (List.range 4).foldl (fun u n =>
    let k := getSlot s c n
    if k.pvalid && p n k then u ||| panelBits k.pbase k.pcount else u) 0

/-! ### The checks (R369) -/

/-- What the checks of a load settle: new bindings, and the grant of each region. -/
structure Plan where
  bind : List (Nat × Nat)
  grants : List Nat
  deriving DecidableEq, Repr

/-- A failed check: status and detail. -/
abbrev LoadErr := Nat × Nat

/-- The first element that fails a test decides a check. -/
def checkAll {α : Type} (st sec : Nat) (ok : α → Bool) (l : List α) : Option LoadErr :=
  (firstBad ok 0 l).map (fun k => (st, loadDet sec k))

/-- Check 1: the ranges that an image names lie in the windows. -/
def checkWindow (s : State) (j : LoadJob) (m : Layout) : Option LoadErr :=
  let kv := checkAll 0x09 (secIdx m 2) (fun e => cxKvdir e == 0 || tenOk s j.f (cxKvdir e) 64) (ents m 2)
  let ks := checkAll 0x09 (secIdx m 7) (fun e => !ksDev e || tenOk s j.f (ksAddr e) (ksLen e)) (ents m 7)
  let tr := checkAll 0x09 (secIdx m 10) (fun e => inTree e == 0 || tenOk s j.f (inTree e) 32) (ents m 10)
  kv.or (ks.or tr)

/-- Check 3: DIGEST, then SDIGEST of every section other than WEIGHT. -/
def checkDigest (m : Layout) : Option LoadErr :=
  if sha512 (imgDigested m) != imgDigest m then some (0x02, loadDet 0xFF 0)
  else (m.secs.find? (fun x => x.typ != 5 && sectionDigest x.data != x.dig)).map (fun x => (0x02, loadDet x.idx 0))

/-- Key slot `k` of the verification keys (R522): slot 0 lies in the fuses. -/
def keyBytes (s : State) (k o n : Nat) : Nat :=
  if k = 0 then memNat s.fuses.key0 o n else memNat s.sec.keys (256 * k + o) n

/-- Check 4's signature with key KEYSEL (R523). -/
def signedOk (s : State) (j : LoadJob) (m : Layout) : Bool :=
  let k := imgKeysel m
  let h := keyBytes s k 0 1
  bitB h 0 && (bitB h 1 || keyBytes s k 2 2 % 1024 == j.f) &&
    ecdsaVerify (keyBytes s k 8 66) (keyBytes s k 74 66) (imgSigR m) (imgSigS m) (sha512 (m.head.take 128))

/-- Check 4. -/
def checkSign (s : State) (j : LoadJob) (m : Layout) : Option LoadErr :=
  let ok := if imgSigned m then signedOk s j m else !(imgRegs m).any rgPipe
  if ok then none else some (0x03, loadDet 0xFF 0)

/-- The grant of a pipeline region (R305): the lowest valid one of the function that contains the rectangle and is not in
use. -/
def pickGrant (j : LoadJob) (used : List Nat) (e : List Byte) : Option Nat :=
  (List.range 8).find? (fun g =>
    let v := (tabGet 0 j.grants g).toNat
    !used.contains g && grantValid v && grantFunc v == j.f &&
      (List.range Config.clusters).all (fun c => !rgRect e c || inGrant v c))

/-- The grants of the regions in order, 0xFF for a pool region; the first region without one. -/
def pickGrants (j : LoadJob) : Nat → List Nat → List (List Byte) → Except Nat (List Nat)
  | _, _, [] => .ok []
  | k, used, e :: es =>
    if rgPipe e then
      match pickGrant j used e with
      | none => .error k
      | some g =>
        match pickGrants j (k + 1) (g :: used) es with
        | .ok l => .ok (g :: l)
        | .error x => .error x
    else
      match pickGrants j (k + 1) used es with
      | .ok l => .ok (0xFF :: l)
      | .error x => .error x

/-- Grants that other pipeline regions use. -/
def grantsUsed (j : LoadJob) : List Nat := ((otherRgns j).filter (fun p => p.2.pipe)).map (fun p => p.2.grant)

/-- The regions RBASE onwards are free, or are those of the replaced load (R374). -/
def rangeOk (j : LoadJob) (n : Nat) : Bool :=
  if j.replace then
    match oldNum j with
    | none => false
    | some l =>
      let rs := j.rgns.filter (fun p => p.2.load == l)
      rs.length == n && rs.all (fun p => decide (j.rbase ≤ p.1) && decide (p.1 < j.rbase + n))
  else (List.range n).all (fun i => (tabFind j.rgns (j.rbase + i)).isNone)

/-- The region of entry `e`, with the reserves that bindings `b` give it (R304), shares no cluster with another function's region
but under R306. -/
def sharingOk (s : State) (j : LoadJob) (b : List (Nat × Nat)) (e : List Byte) : Bool :=
  let ms := membersOf s j b e
  (otherRgns j).all (fun p => p.2.f == j.f ||
    ms.all (fun c => !p.2.members.contains c || ((getClu s c).share && rgShared e && p.2.shared)))

/-- Check 6, under the bindings that the load would make; check 7 says where it can make none. -/
def checkRegion (s : State) (j : LoadJob) (m : Layout) : Option LoadErr :=
  let rs := imgRegs m
  let pipes := ((otherRgns j).filter (fun p => p.2.pipe)).length + (rs.filter rgPipe).length
  if 256 < j.rbase + rs.length || !rangeOk j rs.length || decide (8 < pipes) then some (0x05, loadDet (secIdx m 1) 0)
  else checkAll 0x05 (secIdx m 1) (sharingOk s j (match bindAll s j m with | .ok b => b | .error _ => [])) rs

/-- Where the image names a lost cluster: a region, else a context, else a weight run. -/
def lostAtDet (m : Layout) (c : Nat) : Nat :=
  match firstBad (fun e => !rgRect e c) 0 (imgRegs m) with
  | some k => loadDet (secIdx m 1) k
  | none => match firstBad (fun e => cxClu e != c) 0 (ents m 2) with
    | some k => loadDet (secIdx m 2) k
    | none => loadDet (secIdx m 5) ((firstBad (fun e => wtClu e != c) 0 (ents m 5)).getD 0)

/-- The cluster and slot of a CONTEXT entry. -/
def cxAt (j : LoadJob) (b : List (Nat × Nat)) (e : List Byte) : Nat × Nat := (placeOf j b (cxClu e), cxSlot e)

/-- Another loaded context claims the slot. -/
def otherClaims (s : State) (j : LoadJob) (p : Nat × Nat) : List Ctx :=
  (otherCtxs s j).filter (fun x => x.clu == p.1 && x.slot == p.2)

/-- Context `k` stands where it may (check 8): on a member of its region, on a slot of its own; a slot of a pipeline context
is shared with no other context. -/
def ctxOk (s : State) (j : LoadJob) (m : Layout) (b : List (Nat × Nat)) (k : Nat) : Bool :=
  let es := ents m 2
  let e := nth [] es k
  let rg := nth [] (imgRegs m) (cxReg e)
  let p := cxAt j b e
  let cs := otherClaims s j p
  seenMember s j rg (cxClu e) && !(es.take k).any (fun x => cxAt j b x == p) && (!rgPipe rg || cs.isEmpty) &&
    cs.all (fun x => !x.pipe)

/-- Check 8. -/
def checkCluster (s : State) (j : LoadJob) (m : Layout) (b : List (Nat × Nat)) : Option LoadErr :=
  let cx := checkAll 0x06 (secIdx m 2) (ctxOk s j m b) (List.range (ents m 2).length)
  let wt := checkAll 0x06 (secIdx m 5) (fun e => (imgRegs m).any (fun g => seenMember s j g (wtClu e))) (ents m 5)
  cx.or wt

/-- The largest PANELS claimed for slot `n` of cluster `c`. -/
def slotPanels (s : State) (j : LoadJob) (m : Layout) (b : List (Nat × Nat)) (c n : Nat) : Nat :=
  natMax ((otherClaims s j (c, n)).map (·.panels) ++ ((ents m 2).filter (fun e => cxAt j b e == (c, n))).map cxPanels)

/-- The context of the replaced load that entry `k` keeps in a reload: at the same cluster and slot (R376). -/
def keptCtx (s : State) (j : LoadJob) (m : Layout) (b : List (Nat × Nat)) (k : Nat) : Option Ctx :=
  if reloads s j m then
    let p := cxAt j b (entAt m 2 k)
    s.hub.ctxs.find? (fun x => oldNum j == some x.load && x.clu == p.1 && x.slot == p.2)
  else none

/-- First-fit partitions for the entries from `k` on that take their slot at commit; false where one finds no room. `used` is
the panels given so far, by cluster. -/
def fitAll (s : State) (j : LoadJob) (m : Layout) (b : List (Nat × Nat)) : Nat → Tab Nat → List (List Byte) → Bool
  | _, _, [] => true
  | k, used, e :: es =>
    let p := cxAt j b e
    if !(otherClaims s j p).isEmpty || (keptCtx s j m b k).isSome then fitAll s j m b (k + 1) used es
    else
      let stays := fun (n : Nat) (t : Slot) =>
        !t.releasing && ((match slotCtx s p.1 n with | some x => oldNum j != some x.load | none => false) ||
          ((List.range (ents m 2).length).any (fun i => cxAt j b (entAt m 2 i) == (p.1, n) && (keptCtx s j m b i).isSome)))
      let u := usedPanels s p.1 stays ||| tabGet 0 used p.1
      match firstFit u (cxPanels e) with
      | none => false
      | some q => fitAll s j m b (k + 1) (tabSet used p.1 (tabGet 0 used p.1 ||| panelBits q (cxPanels e))) es

/-- PANELS of the image's pool contexts. -/
def poolPanels (m : Layout) : List Nat :=
  ((ents m 2).filter (fun e => !rgPipe (nth [] (imgRegs m) (cxReg e)))).map cxPanels

/-- Accord entry `k` still finds a place in its cluster's table. -/
def accRoom (s : State) (j : LoadJob) (m : Layout) (b : List (Nat × Nat)) (k : Nat) : Bool :=
  let cluOf := fun (e : List Byte) => (cxAt j b (entAt m 2 (enCtx e))).1
  let es := ents m 6
  let c := cluOf (nth [] es k)
  let old := match oldLoad s j with | some l => l.accs | none => []
  let have0 := (getClu s c).acc.filter (fun p => entValid p.2.toNat && !old.contains (c, p.1))
  decide (have0.length + ((es.take (k + 1)).filter (fun e => cluOf e == c)).length ≤ 256)

/-- Check 9 (R370, R454). -/
def checkCapacity (s : State) (j : LoadJob) (m : Layout) (b : List (Nat × Nat)) : Option LoadErr :=
  let sums := checkAll 0x08 (secIdx m 2) (fun e =>
    let c := placeOf j b (cxClu e)
    decide (natSum ((List.range 4).map (slotPanels s j m b c)) ≤ 16)) (ents m 2)
  let fits := if fitAll s j m b 0 [] (ents m 2) then none else some (0x08, loadDet (secIdx m 2) 0)
  let save := match allocSaves (saveBase s) (saveSize s) (poolPanels m) (saveUnits (otherCtxs s j)) with
    | some _ => none
    | none => some (0x08, loadDet (secIdx m 2) 0)
  let wts := checkAll 0x08 (secIdx m 5) (fun e =>
    (otherLoads s j).all (fun l => l.tiles.all (fun t =>
      !(t.1 == placeOf j b (wtClu e) && decide (wtTile e ≤ t.2) && decide (t.2 < wtTile e + wtN e))))) (ents m 5)
  let accs := checkAll 0x08 (secIdx m 6) (accRoom s j m b) (List.range (ents m 6).length)
  sums.or (fits.or (save.or (wts.or accs)))

/-- Check 10. -/
def checkProgram (m : Layout) : Option LoadErr :=
  checkAll 0x0A (secIdx m 2) (fun e => decide (cxEntry e < (nth [] (imgProgs m) (cxProg e)).length)) (ents m 2)

/-- Check 11. -/
def checkRoute (m : Layout) : Option LoadErr :=
  let tab := checkAll 0x0B (secIdx m 2) (fun e => decide (cxRtaddr e + 8 * cxNrt e ≤ cxPanels e * 2 ^ 21)) (ents m 2)
  let ids := checkAll 0x0B (secIdx m 4) (fun e => rtTclu e == 0xFFFF || decide (rtTclu e < Config.clusters)) (ents m 4)
  tab.or ids

/-- Check 12. -/
def checkMemory (m : Layout) : Option LoadErr :=
  if m.poi then some (0x0C, loadDet 0xFF 0)
  else (m.secs.find? (fun x => x.poi)).map (fun x => (0x0C, loadDet x.idx 0))

/-- Checks 8 to 12, with the bindings of check 7. -/
def checkLate (s : State) (j : LoadJob) (m : Layout) (b : List (Nat × Nat)) : Option LoadErr :=
  (checkCluster s j m b).or ((checkCapacity s j m b).or ((checkProgram m).or ((checkRoute m).or (checkMemory m))))

/-- Checks 5 to 12. -/
def checkPlan (s : State) (j : LoadJob) (m : Layout) : Except LoadErr Plan :=
  match pickGrants j 0 (grantsUsed j) (imgRegs m) with
  | .error k => .error (0x04, loadDet (secIdx m 1) k)
  | .ok gs =>
    match checkRegion s j m with
    | some e => .error e
    | none =>
      match bindAll s j m with
      | .error c => .error (0x07, lostAtDet m c)
      | .ok b =>
        match checkLate s j m b with
        | some e => .error e
        | none => .ok ⟨b, gs⟩

/-- The checks of R369 in order, behind the window of the image itself. -/
def checkLoad (s : State) (j : LoadJob) (m : Layout) : Except LoadErr Plan :=
  match (checkWindow s j m).or ((formatBad m).map (fun d => (0x01, d))) with
  | some e => .error e
  | none =>
    match (checkDigest m).or (checkSign s j m) with
    | some e => .error e
    | none => checkPlan s j m

end Sys2Proof.Machine
end

