-- ==== Sys2Proof/Machine/SaveArea.lean ====
section
/-! DEFINITION. Partitions in the context save area and between clusters: copies that keep poison, and stores into a context's
partition wherever it lies (R127, R376, R427, R430, R431, R454). -/

namespace Sys2Proof.Machine

/-- Entries of a table's range of `n` keys from `lo`, at the range from `dest`, over what stood there. -/
def tabMove {α : Type} (src dst : Tab α) (lo n dest : Nat) : Tab α :=
  (tabRange src lo n).foldl (fun d p => tabSet d (p.1 - lo + dest) p.2) (tabDrop dst dest n)

/-- The words of a scratchpad range that hold errors are read, corrected or poisoned (R127). -/
def settleWords (s : State) (c p n : Nat) : State :=
  let lo := wordKey c (p / 32)
  (tabRange s.cl.spadErr lo (n / 32)).foldl (fun s e => (wordCheck s c (e.1 - wordKey c 0)).1) s

/-- Whole words of a scratchpad, from address `p`, saved at physical address `dest` by requests of class `k`; the codeword of a
poisoned word is poisoned. -/
def partOut (s : State) (k : Cls) (c p n dest : Nat) : State :=
  let s := settleWords (flushRange s c p n) c p n
  if stackFailed s (stackOf dest) then bump s (stkAddr (stackOf dest) 0xC) (n / 64)
  else
    let lo := wordKey c (p / 32)
    let bad := (tabRange s.cl.spadPoi lo (n / 32)).map (fun e => dest / 64 + (e.1 - lo) / 2)
    let s := { physZero (memAsk s (reqLevel false k) dest n) dest n with mem.dev := tabMove s.cl.spad s.mem.dev (spadKey c p) n dest }
    bad.foldl (fun s cw => storeCw s cw true) s

/-- Codewords are read one after the other; the bytes of those that hold errors, as they are read. -/
def readMarked (s : State) : List Nat → State × List (Nat × List Byte)
  | [] => (s, [])
  | cw :: cws =>
    let (s, bs, _) := cwRead s cw
    let (s, l) := readMarked s cws
    (s, (cw, bs) :: l)

/-- Whole words at physical address `src` restored into a scratchpad at address `p` by requests of class `k`. -/
def partIn (s : State) (k : Cls) (c p n src : Nat) : State :=
  let s := memAsk s (reqLevel true k) src n
  let cws := match (getStack s (stackOf src)).bad with
    | [] => (tabRange s.mem.devErr (src / 64) (n / 64)).map (·.1)
    | _ => cwsOf src n
  let (s, got) := readMarked s cws
  let bad := if stackFailed s (stackOf src) then List.range (n / 64)
    else (tabRange s.mem.devPoi (src / 64) (n / 64)).map (fun e => e.1 - src / 64)
  let lo := p / 32
  let s := { s with
    cl.spad := tabMove s.mem.dev s.cl.spad src n (spadKey c p)
    cl.spadPoi := tabDrop s.cl.spadPoi (wordKey c lo) (n / 32)
    cl.spadErr := tabDrop s.cl.spadErr (wordKey c lo) (n / 32) }
  let s := got.foldl (fun s g => { s with cl.spad := memPut s.cl.spad (spadKey c (p + 64 * g.1 - src)) g.2 }) s
  bad.foldl (fun s i => setWord (setWord s c (lo + 2 * i) true) c (lo + 2 * i + 1) true) s

/-- Whole words of one scratchpad copied into another; all of them poisoned where they cannot be copied (R376). -/
def partCopy (s : State) (c p n d q : Nat) (can : Bool) : State :=
  let s := settleWords (flushRange s c p n) c p n
  let dest := wordKey d (q / 32)
  if can then
    { s with
      cl.spad := tabMove s.cl.spad s.cl.spad (spadKey c p) n (spadKey d q)
      cl.spadPoi := tabMove s.cl.spadPoi s.cl.spadPoi (wordKey c (p / 32)) (n / 32) dest
      cl.spadErr := tabDrop s.cl.spadErr dest (n / 32) }
  else (List.range (n / 32)).foldl (fun s i => setWord s d (q / 32 + i) true) s

/-- The class of a context that is swapped out: of its saved slot. -/
def ctxCls (s : State) (x : Ctx) : Cls :=
  match x.saved with
  | some k => k.cls
  | none => (getSlot s x.clu x.slot).cls

/-- Bytes stored at a context address by the load path: into the slot's partition, or into the save record. -/
def ctxStore (s : State) (x : Ctx) (a : Nat) (bs : List Byte) : State :=
  if x.resident then (spadWrite s x.clu .link (partBase s x.clu x.slot + a) bs false).1 else physWrite s (ctxCls s x) (x.saveAt + a) bs false

/-- The slot's engines and walker give up a context: its pool counts go back, the slot is released (R131, R214). -/
def leaveSlot (s : State) (c sl : Nat) : State := releaseSlot (kvLeave s c sl) c sl

/-- Another slot of the cluster holds the same KV directory: the same tenant address of the same function (R214). -/
def dirTaken (s : State) (c sl f dir : Nat) : Bool :=
  dir != 0 && (List.range 4).any (fun n => n != sl && (getSlot s c n).kvdir == some dir && slotFn s c n == f)

/-- A context's slot takes its partition and its directory, and the context is resident. Where another slot of the cluster holds the
directory, the slot is given none (R214; log entry 91). -/
def enterSlot (s : State) (x : Ctx) (k : Slot) (base : Nat) : State :=
  let s := putSlot s x.clu x.slot { k with pvalid := true, pbase := base, pcount := x.panels, ctx := some x.id }
  let s := modCtxs s (fun y => y.id == x.id) (fun y => { y with resident := true, saved := none })
  if x.kvdir = 0 ∨ dirTaken s x.clu x.slot x.f x.kvdir = true then s else kvEnter s x.clu x.slot x.f x.kvdir

end Sys2Proof.Machine
end

