-- ==== Sys2Proof/Machine/LoadPlace.lean ====
section
/-! DEFINITION. Loads that take effect: validation, commit, waits, unwind, reload, unload (R112, R135, R144, R148, R152, R153,
R214, R271, R286, R298, R301, R303, R309, R312, R352 to R377, R425, R454, R455, R471, R486, R536). -/

namespace Sys2Proof.Machine

/-! ### DEC and AUTO (R425, R434, R486) -/

/-- CLU_SPLIT of a cluster takes a value; a change of DEC is captured for the functions with a region there. -/
def putSplit (s : State) (c v : Nat) : State :=
  let old := bits (cluReg s c oSplit) 2 0
  let s := setReg s (cluAddr c oSplit) v
  let new := bits v 2 0
  if old = new then s
  else
    let fs := uniq ((s.hub.regions.filter (fun r => r.2.members.contains c)).map (fun r => r.2.f))
    fs.foldl (fun s f => ephPut s f 5 0x7FF 0
      (leBytes 2 c ++ leBytes 1 old ++ leBytes 1 new ++ leBytes 1 (bit v 31) ++ leBytes 3 0)) s

/-- CLU_SPLIT takes AUTO and DEC. -/
def setSplit (s : State) (c : Nat) (auto : Bool) (dec : Nat) : State :=
  putSplit s c (bits (cluReg s c oSplit) 30 3 * 8 + dec + b2n auto * 2 ^ 31)

/-! ### The head of the load queue (R368) -/

/-- The job under way. -/
def headJob (s : State) : Option LoadJob := s.hub.loadQ.head?

/-- The job under way with a new state. -/
def putJob (s : State) (j : LoadJob) : State := { s with hub.loadQ := j :: s.hub.loadQ.drop 1 }

/-- Regions of the replaced load. -/
def oldRegions (j : LoadJob) : List Nat :=
  match oldNum j with
  | none => []
  | some l => (j.rgns.filter (fun p => p.2.load == l)).map (·.1)

/-- Items held for regions are taken up again (R374, R375). -/
def freeHeld (s : State) (rs : List Nat) : State :=
  { s with hub.items := s.hub.items.map (fun i =>
      if i.st == .held && rs.contains i.region then { i with st := .taken, region := noRegion } else i) }

/-- The hold of regions for a replace. -/
def setHold (s : State) (rs : List Nat) (v : Bool) : State := rs.foldl (fun s r => modRegion s r (fun d => { d with replaceHold := v })) s

/-- The job under way ends: its item completes, and the work held for it goes on, or ends with ABORTED where the load
failed. -/
def endJob (s : State) (j : LoadJob) (rs : List Nat) (status detail : Nat) : State :=
  let s := setHold { s with hub.loadQ := s.hub.loadQ.drop 1 } rs false
  let held := s.hub.items.filter (fun i => i.st == .held && rs.contains i.region)
  let s := if status = 0 then freeHeld s rs else held.foldl (fun s i => complete (began s i 0xFF 0xFFFF 0) i 0x22 0 false) s
  match getItem s j.item with
  | none => s
  | some i => complete s i status detail false

/-! ### LOAD_VALIDATE (R368, R369) -/

/-- Bytes that validation hashes: bytes 0 to 63, the section table, every section other than WEIGHT. -/
def plainBytes (m : Layout) : Nat := natSum ((m.secs.filter (fun x => x.typ != 5)).map (·.len))

/-- Validation of the job under way. -/
def validate (s : State) (j : LoadJob) : State :=
  let j := { sampled s j with phase := .validation }
  let s := setHold (setLog (putJob s j) aLoadBytes 0) (oldRegions j) true
  if !tenOk s j.f j.image j.ilen then endJob s j (oldRegions j) 0x09 (loadDet 0xFF 0)
  else
    let (s, h, p) := headRead s j
    let (s, m) := readSecs s j h p
    let s := if (formatBad m).isNone then setLog s aLoadBytes (64 + 96 * imgNsect h + plainBytes m) else s
    match checkLoad s j m with
    | .error e => endJob s j (oldRegions j) e.1 e.2
    | .ok p => putJob s { j with lay := m, bind := p.bind, gsel := p.grants }

/-- LOAD_VALIDATE: the first load of the queue, once bring-up has ended (R556). -/
def doValidate (s : State) : State :=
  match headJob s with
  | none => s
  | some j => if j.unload || j.phase != .idle || s.mng.testing || funcWaits s j.f then s else validate s j

/-- LOAD_VALIDATE. -/
def execLoadValidate (s : State) : Host.Outcome State Fault Refusal := dispCmd s doValidate

/-! ### Unloading (R131, R144, R214, R271, R303, R375, R415, R455) -/

/-- Work in flight on a region. -/
def regionBusy (s : State) (r : Nat) : Bool :=
  s.hub.items.any (fun i => i.region == r && (match i.st with
    | .waiting => true | .running => true | .failing => true | .prefixWait => true | .closing => true
    | .taken => false | .held => false | .copying => false | .remote _ => false | .loading => false))

/-- A valid accord entry is dropped; its lines stay held while operations use them. -/
def clearAcc (s : State) (c n : Nat) : State :=
  match tabFind (getClu s c).acc n with
  | none => s
  | some v =>
    let used := (getClu s c).ops.any (fun o => o.ent == some v.toNat)
    modClu s c (fun k => { k with acc := tabDel k.acc n, accHeld := if used then tabSet k.accHeld n v else k.accHeld })

/-- A context goes with its load: its slot is released, its save record scrubbed. -/
def dropCtx (s : State) (x : Ctx) : State :=
  let s := if x.resident then leaveSlot s x.clu x.slot else s
  if x.pipe then s else scrubAdd s x.saveAt ((x.panels + 1) * unit2M)

/-- A region's descriptor is cleared, with its intake registers. -/
def dropRegion (s : State) (f r : Nat) : State :=
  let del := fun (t : Tab Word) => tabDel (tabDel t (tenAddr f (oPipeA r))) (tenAddr f (oPipeB r))
  { s with hub.regions := tabDel s.hub.regions r, regs := del s.regs }

/-- The tiles of a load become EMPTY, those that hold lines of a dropped accord once no operation uses them (R271). -/
def emptyTiles (s : State) (ts : List (Nat × Nat)) : State :=
  let held := (uniq (ts.map (·.1))).map (fun c => (c, heldTiles s c))
  (ts.filter (fun t => !held.any (fun h => h.1 == t.1 && h.2.contains t.2))).foldl (fun s t => putTile s t.1 t.2 tileReset) s

/-- A load goes: contexts, accord entries, tiles, descriptors; what it wrote into device memory stays. -/
def dropLoad (s : State) (l : Load) : State :=
  let s := (s.hub.ctxs.filter (fun x => x.load == l.num)).foldl dropCtx s
  let s := l.accs.foldl (fun s a => clearAcc s a.1 a.2) s
  let s := emptyTiles s l.tiles
  let rs := (s.hub.regions.filter (fun r => r.2.load == l.num)).map (·.1)
  let s := rs.foldl (fun s r => dropRegion s l.f r) s
  let ent := s.hub.ctxs.filter (fun x => x.load == l.num && x.entering)
  let s := modCtxs s (fun y => ent.any (fun x => x.clu == y.clu && x.slot == y.slot)) (fun y => { y with switching := false })
  { s with
    hub.ctxs := s.hub.ctxs.filter (fun x => x.load != l.num)
    hub.insts := s.hub.insts.filter (fun x => x.load != l.num)
    hub.bindings := s.hub.bindings.filter (fun b => !rs.contains b.region)
    hub.loads := s.hub.loads.filter (fun x => x.num != l.num) }

/-- UNLOAD: the unload under way. The load that it names is the one that its region belongs to when its turn comes; that load's
regions take no more work, and once none is in flight on them the load goes. A region that an earlier job has taken away is
none of the function's (NO_REGION). -/
def doUnload (s : State) : State :=
  match headJob s with
  | none => s
  | some j =>
    if !j.unload then s
    else match getRegion s j.rbase with
      | none => endJob s j [] 0x14 0
      | some d =>
        if d.f != j.f then endJob s j [] 0x14 0
        else
          let rs := (s.hub.regions.filter (fun r => r.2.load == d.load)).map (·.1)
          let s := putJob (closeLoad s d.load) { j with phase := .unload, load := d.load }
          if rs.any (regionBusy s) then s
          else match s.hub.loads.find? (fun l => l.num == d.load) with
            | none => endJob s j rs 0 0
            | some l => endJob (dropLoad s l) j rs 0 0

/-- UNLOAD. -/
def execUnload (s : State) : Host.Outcome State Fault Refusal := dispCmd s doUnload

/-! ### Commit, step 1 (R148, R301, R309, R312, R536) -/

/-- Lost cluster `c` is bound to reserve `r`; VALID of an earlier reserve's entry is cleared, which keeps its SRC. -/
def bindRsv (s : State) (p : Nat × Nat) : State :=
  let t := s.hub.rmap.filter (fun e => e.2 != p.1)
  match rsvIdx p.2 with
  | none => s
  | some i => { s with hub := { s.hub with rmap := tabSet t i p.1, rsrc := tabSet s.hub.rsrc i p.1 } }

/-- The spare of a cluster takes the place of its dead core. -/
def applySpare (s : State) (c : Nat) : State :=
  modClu s c (fun k =>
    if k.lostSlice.isSome then { k with spareUsed := k.spareUsed || !k.dead.contains 8, lostSlice := none } else k)

/-- A bypass that waits is applied. -/
def applyBypass (s : State) (c : Nat) : State :=
  modClu s c (fun k => if k.bypassPend then { k with bypass := true, bypassPend := false } else k)

/-- Clusters that the image covers: in a pipeline rectangle, members, or named. -/
def covered (m : Layout) (c : Nat) : Bool := (imgRegs m).any (fun e => rgRect e c || rgMember e c) || imgNames m c

/-- A load covers a cluster: its image does, or the cluster is a reserve that stands in for one that the image covers (R304). -/
def loadCovers (j : LoadJob) (c : Nat) : Bool :=
  covered j.lay c || j.rmap.any (fun p => rsvClu p.1 == c && covered j.lay p.2) || j.bind.any (fun p => p.2 == c && covered j.lay p.1)

/-- Step 1, behind the unload of a replaced load. -/
def commitFirst (s : State) (j : LoadJob) : State :=
  let s := if reloads s j j.lay then s else match oldLoad s j with | some l => dropLoad s l | none => s
  let s := j.bind.foldl bindRsv s
  let cs := (s.cl.clus.map (·.1)).filter (loadCovers j)
  cs.foldl (fun s c => applyBypass (applySpare s c) c) s

/-! ### Where contexts go (R128, R133, R373) -/

/-- Entry `k` takes its slot at commit: it belongs to a pipeline region, or it is the slot's only claimant and no other slot of
the cluster holds its directory. -/
def takesSlot (s : State) (j : LoadJob) (m : Layout) (b : List (Nat × Nat)) (k : Nat) : Bool :=
  let e := entAt m 2 k
  let p := cxAt j b e
  rgPipe (nth [] (imgRegs m) (cxReg e)) || ((otherClaims s j p).isEmpty && !dirTaken s p.1 p.2 j.f (cxKvdir e))

/-- A slot that holds no context and waits for no fence. -/
def slotFree (s : State) (p : Nat × Nat) : Bool := (getSlot s p.1 p.2).ctx.isNone && !(getSlot s p.1 p.2).releasing

/-- First panels for the entries from `k` on that need a partition now, first-fit; none where one has to wait. -/
def givePanels (s : State) (need : Nat → Bool) (place : Nat → Nat × Nat) : Nat → Tab Nat → List (List Byte) → Option (List Nat)
  | _, _, [] => some []
  | k, used, e :: es =>
    if !need k then (givePanels s need place (k + 1) used es).map (fun l => 0 :: l)
    else
      let c := (place k).1
      let u := usedPanels s c (fun _ _ => true) ||| (getClu s c).fence ||| tabGet 0 used c
      if !slotFree s (place k) then none
      else match firstFit u (cxPanels e) with
        | none => none
        | some q =>
          let used := tabSet used c (tabGet 0 used c ||| panelBits q (cxPanels e))
          (givePanels s need place (k + 1) used es).map (fun l => q :: l)

/-- Clusters that a load writes. -/
def writtenClus (j : LoadJob) (m : Layout) (b : List (Nat × Nat)) : List Nat :=
  uniq ((ents m 2).map (fun e => placeOf j b (cxClu e)) ++ (ents m 5).map (fun e => placeOf j b (wtClu e)))

/-- Every cluster that a load writes has its compute clock, and no accord line that operations still use. -/
def clusReady (s : State) (cs : List Nat) : Bool := cs.all (fun c => cluRuns s c && (getClu s c).accHeld.isEmpty)

/-- Save records for the pool contexts of the image, as physical addresses, 0 for the others; none where they have to wait for
the release scrub. -/
def giveSaves (s : State) (j : LoadJob) (m : Layout) : Option (List Nat) :=
  let scrub := s.mem.scrub.map (fun q => (q.p / unit2M, ceilDiv q.n unit2M))
  match allocSaves (saveBase s) (saveSize s) (poolPanels m) (saveUnits (otherCtxs s j) ++ scrub) with
  | none => none
  | some l =>
    let pool := fun (e : List Byte) => !rgPipe (nth [] (imgRegs m) (cxReg e))
    let es := ents m 2
    some ((List.range es.length).map (fun k =>
      if pool (nth [] es k) then nth 0 l ((es.take k).filter pool).length * unit2M else 0))

/-! ### Weight tiles (R135, R144, R362) -/

/-- The tiles of the image's WEIGHT entries: cluster, tile, image offset, NOBACK. -/
def imgTiles (j : LoadJob) (m : Layout) (b : List (Nat × Nat)) : List (Nat × Nat × Nat × Bool) :=
  (ents m 5).flatMap (fun e => (List.range (wtN e)).map (fun t =>
    (placeOf j b (wtClu e), wtTile e + t, wtSrc e + 4096 * t, wtNoback e)))

/-- The backing record of a tile. -/
def tileBack (s : State) (j : LoadJob) (t : Nat × Nat × Nat × Bool) : Option Nat :=
  if t.2.2.2 then none else tenPhys s j.f (j.image + t.2.2.1)

/-- A tile that holds the bytes of a run. -/
def placedTile (s : State) (j : LoadJob) (t : Nat × Nat × Nat × Bool) : WTile :=
  ⟨.resident, tileBack s j t, tenPhys s j.f (j.image + t.2.2.1), none⟩

/-- One tile is written. -/
def writeTile (j : LoadJob) (s : State) (t : Nat × Nat × Nat × Bool) : State :=
  putTile (fillTile s t.1 t.2.1 (tenPeek s j.f (j.image + t.2.2.1) 4096)) t.1 t.2.1 (placedTile s j t)

/-- The tile has to be written: in a reload, only where it is not RESIDENT (R376). -/
def tileDue (s : State) (rel : Bool) (t : Nat × Nat × Nat × Bool) : Bool := !rel || (getTile s t.1 t.2.1).st != .resident

/-! ### The second reading (R371, R372, R376) -/

/-- Chunks of the WEIGHT section that commit reads: all of them, in a reload those that hold bytes of tiles to be written. -/
def dueChunks (s : State) (j : LoadJob) (m : Layout) (b : List (Nat × Nat)) (x : Sec) : List Nat :=
  let all := List.range (ceilDiv x.len (2 ^ 26))
  if reloads s j m then
    let ts := (imgTiles j m b).filter (tileDue s true)
    all.filter (fun k => ts.any (fun t => overlaps (t.2.2.1 - x.off) 4096 (2 ^ 26 * k) (2 ^ 26)))
  else all

/-- Bytes of chunk `k` of a section. -/
def chunkLen (x : Sec) (k : Nat) : Nat := min (2 ^ 26) (x.len - 2 ^ 26 * k)

/-- Digests of chunks, and whether a read met an uncorrectable error. -/
def hashChunks (s : State) (j : LoadJob) (x : Sec) : List Nat → State × List (List Byte) × Bool
  | [] => (s, [], false)
  | k :: ks =>
    let (s, bs, p) := imgRead s j (x.off + 2 ^ 26 * k) (chunkLen x k)
    let (s, ds, q) := hashChunks s j x ks
    (s, sha512 bs :: ds, p || q)

/-- The WEIGHT section in commit: the status, 0 where it is sound, and its chunks' digests. -/
def weightRead (s : State) (j : LoadJob) (m : Layout) (b : List (Nat × Nat)) (x : Sec) : State × Nat × List (List Byte) :=
  let ks := dueChunks s j m b x
  let (s, ds, poi) := hashChunks s j x ks
  let ok := match reloads s j m, oldLoad s j with
    | true, some l => ds == ks.map (nth [] l.wdig)
    | _, _ => sha512 ds.flatten == x.dig
  (s, if poi then 0x0C else if ok then 0 else 0x02, ds)

/-- A section other than WEIGHT is read again: the status, 0 where it is sound, and its bytes. -/
def plainRead (s : State) (j : LoadJob) (x : Sec) : State × Nat × List Byte :=
  let (s, bs, poi) := imgRead s j x.off x.len
  (s, if poi then 0x0C else if sectionDigest bs != x.dig then 0x02 else 0, bs)

/-- A section that fails in commit: its index, the status, the bytes that were read. -/
structure BadSec where
  idx : Nat
  st : Nat
  data : List Byte
  deriving DecidableEq, Repr

/-- The first section, in table order, that fails in commit; and the WEIGHT section's digests. -/
def reread (s : State) (j : LoadJob) (m : Layout) (b : List (Nat × Nat)) :
    List Sec → State × Option BadSec × List (List Byte)
  | [] => (s, none, [])
  | x :: xs =>
    let (s, st, bs, ds) :=
      if x.typ = 5 then let (s, st, ds) := weightRead s j m b x; (s, st, x.data, ds)
      else let (s, st, bs) := plainRead s j x; (s, st, bs, [])
    if st ≠ 0 then (s, some ⟨x.idx, st, bs⟩, [])
    else
      let (s, e, ds2) := reread s j m b xs
      (s, e, ds ++ ds2)

/-- Bytes that commit hashes. -/
def commitBytes (s : State) (j : LoadJob) (m : Layout) (b : List (Nat × Nat)) : Nat :=
  plainBytes m + (match findSec m 5 with
    | none => 0
    | some x => natSum ((dueChunks s j m b x).map (chunkLen x)))

/-! ### Placing (R371, R376) -/

/-- Device memory that CONST entries write. -/
def placeConsts (s : State) (j : LoadJob) (m : Layout) : State :=
  ((imgConsts m).filter (fun p => ksDev p.1)).foldl (fun s p => tenWrite s (jobCls s j) j.f (ksAddr p.1) p.2.1 false) s

/-- A program as a slot's window. -/
def progTab (p : List W32) : Tab W32 := (List.range p.length).zip p

/-- The slot of a context that has just been loaded: HALTED at ENTRY, registers and counters 0 (R152, R153, R112). -/
def freshSlot (m : Layout) (e : List Byte) (k : Slot) : Slot :=
  let p := nth [] (imgProgs m) (cxProg e)
  { slotReset with
    st := .halted, pc := BitVec.ofNat 14 (cxEntry e), prog := progTab p, plen := p.length
    entry := BitVec.ofNat 14 (cxEntry e), seed := BitVec.ofNat 64 (cxSeed e), pvalid := k.pvalid, pbase := k.pbase
    pcount := k.pcount, kvdir := k.kvdir, kvHdr := k.kvHdr, ctx := k.ctx, trc := k.trc }

/-- The weight tiles of context `k` of the image on cluster `c`, as they stand when they hold its bytes. The image's runs name a cluster and
no context: where several runs place one tile, the contexts share it, and which run's bytes are the context's is open (R370,
R430; log entry 90). -/
def ctxTiles (s : State) (j : LoadJob) (m : Layout) (b : List (Nat × Nat)) (c k : Nat) : Tab WTile :=
  let ts := (imgTiles j m b).filter (fun t => t.1 == c)
  (uniq (ts.map (·.2.1))).foldl (fun l n =>
    match ts.filter (fun t => t.2.1 == n) with
    | [] => l
    | [t] => tabSet l n (placedTile s j t)
    | t :: us => tabSet l n (placedTile s j (nth t (t :: us) (Config.tileRun k n % (us.length + 1))))) []

/-- Context number `k` of the image, for load `num`. -/
def newCtx (s : State) (j : LoadJob) (m : Layout) (b : List (Nat × Nat)) (num k at0 : Nat) : Ctx :=
  let e := entAt m 2 k
  let p := cxAt j b e
  { id := s.hub.nextCtx, f := j.f, load := num, clu := p.1, src := cxClu e, slot := p.2, region := j.rbase + cxReg e
    pipe := rgPipe (nth [] (imgRegs m) (cxReg e)), panels := cxPanels e, prog := cxProg e, entry := cxEntry e
    rtaddr := cxRtaddr e, seed := BitVec.ofNat 64 (cxSeed e), kvdir := cxKvdir e, resident := false, want := false
    saved := none, saveAt := at0, switching := false, entering := false
    tiles := ctxTiles s j m b p.1 k }

/-- Context `k` is placed: into its slot with panels from `q`, or into its save record. -/
def placeCtx (s : State) (j : LoadJob) (m : Layout) (b : List (Nat × Nat)) (num k q at0 : Nat) : State :=
  let x := newCtx s j m b num k at0
  let now := takesSlot s j m b k
  let s := { s with hub.ctxs := s.hub.ctxs ++ [x], hub.nextCtx := s.hub.nextCtx + 1 }
  let sl := freshSlot m (entAt m 2 k) slotReset
  let s := if x.pipe then s else physZero s at0 ((x.panels + 1) * unit2M)
  if now then enterSlot s x sl q else modCtxs s (fun y => y.id == x.id) (fun y => { y with saved := some sl })

/-- The image's context number `k`, after placing from context number `first` on. -/
def ctxOf (s : State) (first k : Nat) : Option Ctx := getCtx s (first + k)

/-- Peer words and scratchpad constants of contexts numbered from `first`. -/
def placeWords (s : State) (m : Layout) (first : Nat) : State :=
  let put := fun (s : State) (k a : Nat) (bs : List Byte) => match ctxOf s first k with | none => s | some x => ctxStore s x a bs
  let s := (ents m 4).foldl (fun s e => put s (enCtx e) (cxRtaddr (entAt m 2 (enCtx e)) + 8 * rtPeer e) (rtWord e)) s
  ((imgConsts m).filter (fun p => !ksDev p.1)).foldl (fun s p => put s (enCtx p.1) (ksAddr p.1) p.2.1) s

/-- The lowest free accord entry of a cluster takes an ACCORD entry; its cluster and number. -/
def placeAcc (s : State) (j : LoadJob) (m : Layout) (b : List (Nat × Nat)) (e : List Byte) : State × Nat × Nat :=
  let p := cxAt j b (entAt m 2 (enCtx e))
  let n := ((List.range 256).find? (fun i => (tabFind (getClu s p.1).acc i).isNone)).getD 255
  (modClu s p.1 (fun k => { k with acc := tabSet k.acc n (BitVec.ofNat 64 (acWord p.2 e)) }), p.1, n)

/-- Accord entries, none in partition mode (R286). -/
def placeAccs (s : State) (j : LoadJob) (m : Layout) (b : List (Nat × Nat)) : List (List Byte) → State × List (Nat × Nat)
  | [] => (s, [])
  | e :: es =>
    let (s, c, n) := placeAcc s j m b e
    let (s, l) := placeAccs s j m b es
    (s, (c, n) :: l)

/-- A load number that no load in force has (R298). -/
def freshLoad (s : State) : Nat :=
  ((List.range 65535).map (fun i => (s.hub.nextLoad + i - 1) % 65535 + 1)).find?
    (fun n => !s.hub.loads.any (fun l => l.num == n)) |>.getD 0

/-- The descriptor of region `k` of the image (R303); an unload of the load that waits already keeps it from taking work
(R375). -/
def regionOf (s : State) (j : LoadJob) (m : Layout) (pl : Plan) (num k : Nat) : Region :=
  let e := nth [] (imgRegs m) k
  { pipe := rgPipe e, shared := rgShared e, degraded := false, f := j.f, x0 := rgX0 e, y0 := rgY0 e, w := rgW e, h := rgH e
    members := membersOf s j pl.bind e, grant := nth 0xFF pl.grants k, loadftc := s.clock.ftc, load := num
    replaceHold := false
    closing := s.hub.loadQ.any (fun q => q.unload && q.f == j.f && decide (j.rbase ≤ q.rbase) &&
      decide (q.rbase < j.rbase + (imgRegs m).length))
    runs := 0, step := 0 }

/-- Every region of the image becomes valid, SPLIT entries take effect, and the contexts of pipeline regions start. -/
def goLive (s : State) (j : LoadJob) (m : Layout) (pl : Plan) (num : Nat) : State :=
  let ks := List.range (imgRegs m).length
  let s := { s with hub.regions := ks.foldl (fun t k => tabSet t (j.rbase + k) (regionOf s j m pl num k)) s.hub.regions }
  let s := (ents m 8).foldl (fun s e =>
    (membersOf s j pl.bind (nth [] (imgRegs m) (spReg e))).foldl (fun s c => setSplit s c (spAuto e) (spDec e)) s) s
  (s.hub.ctxs.filter (fun x => x.load == num && x.pipe && x.resident)).foldl (fun s x =>
    modSlot s x.clu x.slot (fun k => { k with st := .running })) s

/-- Clusters that were lost after the load's validation: their slots of the load are FAULTED and its regions there become DEGRADED
(R311, R537). -/
def loseLate (s : State) (num : Nat) : State :=
  let gone := s.hub.ctxs.filter (fun x => x.load == num && (getClu s x.clu).lost)
  let s := (gone.filter (·.resident)).foldl (fun s x => haltFaulted s x.clu x.slot) s
  degradeAll s (uniq (gone.map (·.region)))

/-- The model instances of a load (R366). -/
def placeInsts (s : State) (j : LoadJob) (m : Layout) (num : Nat) : State :=
  { s with hub.insts := s.hub.insts ++ (ents m 10).map (fun e =>
      { f := j.f, load := num, handle := inHandle e, region := j.rbase + inReg e, pfxtree := inTree e }) }

/-- The record of a load in force. -/
def loadRec (j : LoadJob) (m : Layout) (b : List (Nat × Nat)) (num : Nat) (wd : List (List Byte)) (accs : List (Nat × Nat)) :
    Load :=
  { num := num, f := j.f, digest := imgDigest m, wdig := wd, rbase := j.rbase, nreg := (imgRegs m).length, image := j.image
    tiles := (imgTiles j m b).map (fun t => (t.1, t.2.1)), accs := accs
    consts := ((imgConsts m).filter (fun p => ksDev p.1)).map (fun p => (ksAddr p.1, ksLen p.1)) }

/-- A load completes: LAYOUT record of a captured queue (R486), completion record. -/
def loadDone (s : State) (j : LoadJob) (m : Layout) : State :=
  let n := (imgRegs m).length
  let s := match getItem s j.item with
    | none => s
    | some i =>
      if ephQueue s i.f i.q then
        ephPut s i.f 4 i.q i.pos (leBytes 1 j.rbase ++ leBytes 1 n ++ List.replicate 14 0 ++ imgDigest m)
      else s
  endJob s j ((List.range n).map (fun k => j.rbase + k)) 0 0

/-- Contexts from number `k` on are placed, with first panels and save records. -/
def placeCtxs (s : State) (j : LoadJob) (m : Layout) (b : List (Nat × Nat)) (num : Nat) : Nat → List (Nat × Nat) → State
  | _, [] => s
  | k, (q, a) :: l => placeCtxs (placeCtx s j m b num k q a) j m b num (k + 1) l

/-- A load that is no reload is placed. The constants of device memory come before the contexts, whose KV directories may be among
them (R364, R371). -/
def placeLoad (s : State) (j : LoadJob) (m : Layout) (pl : Plan) (wd : List (List Byte)) (qs saves : List Nat) : State :=
  let num := freshLoad s
  let first := s.hub.nextCtx
  let s := { s with hub.nextLoad := num % 65535 + 1 }
  let s := (imgTiles j m pl.bind).foldl (writeTile j) s
  let s := placeWords (placeCtxs (placeConsts s j m) j m pl.bind num 0 (qs.zip saves)) m first
  let (s, accs) := placeAccs s j m pl.bind (ents m 6)
  let s := placeInsts { s with hub.loads := s.hub.loads ++ [loadRec j m pl.bind num wd accs] } j m num
  loadDone (loseLate (goLive s j m pl num) num) j m

/-! ### Reload (R376) -/

/-- A partition can be copied out of a cluster. -/
def canCopy (s : State) (c : Nat) : Bool := !noReach s c && cluRuns s c

/-- The replaced load's context of entry `k`. -/
def oldCtx (s : State) (j : LoadJob) (m : Layout) (k : Nat) : Option Ctx :=
  let e := entAt m 2 k
  s.hub.ctxs.find? (fun x => oldNum j == some x.load && x.src == cxClu e && x.slot == cxSlot e)

/-- Entry `k` needs a partition on another cluster. -/
def movesCtx (s : State) (j : LoadJob) (m : Layout) (b : List (Nat × Nat)) (k : Nat) : Bool :=
  match oldCtx s j m k with
  | none => false
  | some x => x.resident && x.clu != (cxAt j b (entAt m 2 k)).1

/-- A context's partition moves to panels from `q` of its new cluster, and its old slot is released. -/
def moveCtx (s : State) (x : Ctx) (c q : Nat) : State :=
  let can := canCopy s x.clu
  let sl := getSlot s x.clu x.slot
  let s := partCopy s x.clu (2 ^ 21 * sl.pbase) (2 ^ 21 * x.panels) c (2 ^ 21 * q) can
  let s := leaveSlot s x.clu x.slot
  enterSlot s { x with clu := c } slotReset q

/-- Context of entry `k` restarts at ENTRY on its cluster, after a move where its cluster is another. -/
def reloadCtx (s : State) (j : LoadJob) (m : Layout) (b : List (Nat × Nat)) (k q : Nat) : State :=
  match oldCtx s j m k with
  | none => s
  | some x =>
    let e := entAt m 2 k
    let c := (cxAt j b e).1
    let s := if movesCtx s j m b k then moveCtx s x c q else s
    let ts := ctxTiles s j m b c k
    let old := fun (y : Ctx) => { y with clu := c, want := false, saved := y.saved.map (freshSlot m e), tiles := ts }
    let s := modCtxs s (fun y => y.id == x.id) old
    if x.resident then
      let s := modClu s c (fun g => { g with ops := g.ops.filter (fun o => o.sl != x.slot) })
      modSlot s c x.slot (freshSlot m e)
    else s

/-- Contexts from number `k` on restart. -/
def reloadCtxs (s : State) (j : LoadJob) (m : Layout) (b : List (Nat × Nat)) : Nat → List Nat → State
  | _, [] => s
  | k, q :: qs => reloadCtxs (reloadCtx s j m b k q) j m b (k + 1) qs

/-- Accord entries of contexts that have moved: cleared on the old cluster, written on the new one. -/
def reloadAccs (s : State) (j : LoadJob) (m : Layout) (b : List (Nat × Nat)) (l : Load) (moved : List (Nat × Nat))
    (es : List (List Byte)) : State × List (Nat × Nat) :=
  let gone := l.accs.filter (fun a => match tabFind (getClu s a.1).acc a.2 with
    | some v => moved.contains (a.1, entSlot v.toNat)
    | none => true)
  let s := gone.foldl (fun s a => clearAcc s a.1 a.2) s
  let (s, new) := placeAccs s j m b es
  (s, l.accs.filter (fun a => !gone.contains a) ++ new)

/-- A reload takes effect: what stands is kept, the rest restored. -/
def placeReload (s : State) (j : LoadJob) (m : Layout) (pl : Plan) (l : Load) (qs : List Nat) : State :=
  let b := pl.bind
  let ks := List.range (ents m 2).length
  let mv := ks.filter (fun k => (match oldCtx s j m k with
    | some x => x.clu != (cxAt j b (entAt m 2 k)).1
    | none => false))
  let from0 := mv.filterMap (fun k => (oldCtx s j m k).map (fun x => (x.clu, x.slot)))
  let es := (ents m 6).filter (fun e => mv.contains (enCtx e))
  let new := imgTiles j m b
  let s := reloadCtxs s j m b 0 qs
  let s := (new.filter (tileDue s true)).foldl (writeTile j) s
  let (s, accs) := reloadAccs s j m b l from0 es
  let s := emptyTiles s (l.tiles.filter (fun t => !new.any (fun u => u.1 == t.1 && u.2.1 == t.2)))
  let rec0 := loadRec j m b l.num l.wdig accs
  let s := { s with hub.loads := s.hub.loads.map (fun y => if y.num == l.num then rec0 else y) }
  loadDone (loseLate (goLive s j m pl l.num) l.num) j m

/-! ### LOAD_COMMIT, LOAD_WAIT_END, LOAD_UNWIND (R371 to R374) -/

/-- An image with other bytes in section `i`. -/
def withData (m : Layout) (i : Nat) (bs : List Byte) : Layout :=
  { m with secs := m.secs.map (fun x => if x.idx = i then { x with data := bs } else x) }

/-- The job under way fails in commit; constants in device memory of sections read before the failure have been written, as they
were read. -/
def commitFails (s : State) (j : LoadJob) (x : BadSec) : State :=
  let k := secIdx j.lay 7
  let wrote := (findSec j.lay 7).isSome && !reloads s j j.lay && (decide (k < x.idx) || (k == x.idx && x.st == 2))
  let s := if wrote then placeConsts s j (withData j.lay x.idx x.data) else s
  putJob s { j with phase := .unwind, waits := false, status := x.st, detail := loadDet x.idx 0 }

/-- The stacks that hold the function's windows, and the save records given, answer requests (R451). -/
def loadReaches (s : State) (j : LoadJob) (saves : List Nat) : Bool :=
  !funcWaits s j.f && saves.all (fun a => a == 0 || !stackWaits s (stackOf a))

/-- The bytes of the job under way are read again, checked and placed, where nothing makes it wait. What is placed is what
validation read: the digests say that it is unchanged (R372). -/
def commitRest (s : State) (j : LoadJob) : State :=
  let m := j.lay
  let b := j.bind
  let rel := reloads s j m
  let place := fun k => cxAt j b (entAt m 2 k)
  let need := fun k => if rel then movesCtx s j m b k else takesSlot s j m b k
  let wait := putJob s { j with phase := .commit, waits := true }
  let saves := if rel then some [] else giveSaves s j m
  match clusReady s (writtenClus j m b), givePanels s need place 0 [] (ents m 2), saves with
  | true, some qs, some as =>
    if !loadReaches s j as then wait
    else
      let s := setLog s aLoadBytes (ctr s aLoadBytes + commitBytes s j m b)
      let (s, bad, wd) := reread s j m b m.secs
      match bad with
      | some x => commitFails s j x
      | none =>
        match rel, oldLoad s j with
        | true, some l => placeReload s j m ⟨b, j.gsel⟩ l qs
        | _, _ => placeLoad s j m ⟨b, j.gsel⟩ wd qs as
  | _, _, _ => wait

/-- LOAD_COMMIT: after validation, once no work is in flight on the regions of a replaced load. -/
def doLoadCommit (s : State) : State :=
  match headJob s with
  | none => s
  | some j =>
    if j.unload || j.phase != .validation || (oldRegions j).any (regionBusy s) then s else commitRest (commitFirst s j) j

/-- LOAD_COMMIT. -/
def execLoadCommit (s : State) : Host.Outcome State Fault Refusal := dispCmd s doLoadCommit

/-- LOAD_WAIT_END: a commit that waits goes on where nothing makes it wait any more. -/
def doLoadWait (s : State) : State :=
  match headJob s with
  | none => s
  | some j => if j.phase == .commit && j.waits then commitRest s j else s

/-- LOAD_WAIT_END. -/
def execLoadWaitEnd (s : State) : Host.Outcome State Fault Refusal := dispCmd s doLoadWait

/-- LOAD_UNWIND: a load that failed in commit ends with its status. What it wrote reaches no slot, tile or entry before its
last check, so only the constants in device memory are left of it. -/
def doUnwind (s : State) : State :=
  match headJob s with
  | none => s
  | some j => if j.phase == .unwind then endJob s j (oldRegions j) j.status j.detail else s

/-- LOAD_UNWIND. -/
def execLoadUnwind (s : State) : Host.Outcome State Fault Refusal := dispCmd s doUnwind

end Sys2Proof.Machine
end

