-- ==== Sys2Proof/Machine/Switch.lean ====
section
/-! DEFINITION. Pool contexts that take turns in a slot, and the engine split's windows (R131, R146, R214, R424, R425, R427 to
R431). -/

namespace Sys2Proof.Machine

/-! ### Blocked and runnable contexts (R427 to R429) -/

/-- Every operation that a waiting slot awaits is a DMAG or DMAP. -/
def awaitsDma (s : State) (c sl : Nat) : Bool :=
  let k := getSlot s c sl
  let dma := fun (o : Op) => match o.kind with | .tile _ => false | .dmag _ _ _ _ => true | .dmap _ _ _ _ => true
  match k.waiting with
  | some (.waitop _ _ _ rs1 _) =>
    ((slotOps s c sl).filter (fun o => o.ticket == (tabGet 0 k.regs rs1.toNat).truncate 32)).all dma
  | some (.fence _ _ _) => (slotOps s c sl).all dma
  | _ => false

/-- The rank of the reason that blocks a resident pool context; none where it is not blocked. -/
def blockedRank (s : State) (x : Ctx) : Option Nat :=
  let k := getSlot s x.clu x.slot
  if k.openAtomic then none
  else if k.st == .halted || k.st == .faulted then
    (if x.want || s.hub.items.any (fun i => i.region == x.region && i.st == .waiting) then none else some 1)
  else if k.st == .waiting && k.why == .waitc then some 2
  else if k.st == .waiting && (k.why == .waitop || k.why == .fence) && awaitsDma s x.clu x.slot then some 3
  else none

/-- The pool contexts of a cluster. -/
def poolCtxs (s : State) (c : Nat) : List Ctx := s.hub.ctxs.filter (fun x => x.clu == c && !x.pipe)

/-- The item of the context's region that waits for it: started, and not ended by the context. -/
def waitItem (s : State) (x : Ctx) : Option Item :=
  match (runItems s x.region).head? with
  | none => none
  | some i => if i.st == .running && (x.want || !ctxStopped s x) then some i else none

/-- A context that a switch may bring in: swapped out, waited for by an item, its directory held by no other slot. -/
def runnable (s : State) (x : Ctx) : Bool :=
  !x.resident && !x.switching && (waitItem s x).isSome && !dirTaken s x.clu x.slot x.f x.kvdir && regionFine s x.region

/-- The claimant of slot `sl` of cluster `c` that enters: the one whose item has waited longest. -/
def entrant (s : State) (c sl : Nat) : Option Ctx :=
  let age := fun (x : Ctx) => match waitItem s x with | some i => i.id | none => 0
  match (poolCtxs s c).filter (fun x => x.slot == sl && runnable s x) with
  | [] => none
  | x :: xs => some (xs.foldl (fun b y => if age y < age b then y else b) x)

/-- The resident pool contexts of a cluster. -/
def residents (s : State) (c : Nat) : List Ctx := (poolCtxs s c).filter (fun x => x.resident)

/-- One victim stands before another: longer expected wait, then the earlier last issue. -/
def victimLt (s : State) (x y : Ctx) : Bool :=
  let rx := (blockedRank s x).getD 4
  let ry := (blockedRank s y).getD 4
  if rx != ry then decide (rx < ry)
  else decide ((getSlot s x.clu x.slot).lastIssue < (getSlot s y.clu y.slot).lastIssue)

/-- The victim of a switch: every resident pool context is blocked, and a runnable context claims the victim's slot. -/
def victim (s : State) (c : Nat) : Option Ctx :=
  let rs := residents s c
  if rs.all (fun x => (blockedRank s x).isSome && !x.switching) then
    match rs.filter (fun x => (entrant s c x.slot).isSome) with
    | [] => none
    | x :: xs => some (xs.foldl (fun b y => if victimLt s y b then y else b) x)
  else none

/-- A slot that no context holds and a runnable context claims. -/
def emptyClaimed (s : State) (c : Nat) : Option Nat :=
  (List.range 4).find? (fun n => slotFree s (c, n) && (entrant s c n).isSome &&
    !s.hub.ctxs.any (fun x => x.clu == c && x.slot == n && x.switching))

/-! ### CONTEXT_SWITCH (R430) -/

/-- A context is marked as in a switch. -/
def markSwitch (s : State) (id : Nat) (ent : Bool) : State :=
  modCtxs s (fun y => y.id == id) (fun y => { y with switching := true, entering := ent })

/-- The victim is saved, and its slot released; its job seed and running counters travel with it (DESIGN CHOICE, log entry 82). -/
def saveCtx (s : State) (x : Ctx) : State :=
  let k := getSlot s x.clu x.slot
  let s := partOut s k.cls x.clu (2 ^ 21 * k.pbase) (2 ^ 21 * x.panels) x.saveAt
  let s := leaveSlot s x.clu x.slot
  modCtxs s (fun y => y.id == x.id) (fun y =>
    { y with resident := false, saved := some { k with pvalid := false, pbase := 0, pcount := 0, kvdir := none, kvHdr := none } })

/-- CONTEXT_SWITCH: into a slot that stands empty, or after the victim's DMAs have ended. -/
def doSwitch (c : Nat) (s : State) : State :=
  match emptyClaimed s c with
  | some n => match entrant s c n with
    | some y => markSwitch s y.id true
    | none => s
  | none =>
    match victim s c with
    | none => s
    | some x =>
      if !(slotOps s c x.slot).isEmpty || stackWaits s (stackOf x.saveAt) then s
      else match entrant s c x.slot with
        | none => s
        | some y => markSwitch (markSwitch (saveCtx s x) x.id false) y.id true

/-- CONTEXT_SWITCH. -/
def execContextSwitch (c : Nat) (s : State) : Host.Outcome State Fault Refusal :=
  cluRun s c (fun s => if s.pow.shut.isSome then s else doSwitch c s)

/-! ### SWITCH_DONE (R430, R431) -/

/-- The tiles of a context that hold another context's bytes. -/
def coldTiles (s : State) (x : Ctx) : List (Nat × WTile) :=
  x.tiles.filter (fun t => (getTile s x.clu t.1).st != .empty && (getTile s x.clu t.1).src != t.2.src)

/-- One tile is read again from its backing record; EMPTY where it has none, or the read fails (R146). -/
def coldLoad (k : Cls) (c : Nat) (s : State) (t : Nat × WTile) : State :=
  match t.2.back with
  | none => putTile s c t.1 tileReset
  | some b =>
    let (s, bs, ps) := physRead s k b 4096
    if ps.any id then putTile s c t.1 tileReset else putTile (fillTile s c t.1 bs) c t.1 t.2

/-- The class of the item for which a context comes in; its saved class where it has none (R430). -/
def comingCls (s : State) (x : Ctx) (k : Slot) : Cls := match waitItem s x with | some i => clsOf (dClass i.desc) | none => k.cls

/-- The incoming context is restored into its slot, with panels from `q`; its requests have the incoming item's class (R430, R444). -/
def restoreCtx (s : State) (x : Ctx) (k : Slot) (q : Nat) : State :=
  let cold := coldTiles s x
  let k := { k with cls := comingCls s x k }
  let s := cold.foldl (coldLoad k.cls x.clu) s
  let s := bump s (if cold.isEmpty then aDspWarm else aDspCold) 1
  let s := partIn s k.cls x.clu (2 ^ 21 * q) (2 ^ 21 * x.panels) x.saveAt
  let s := enterSlot s x k q
  let s := modCtxs s (fun y => y.clu == x.clu && y.slot == x.slot) (fun y => { y with switching := false, entering := false })
  startWanted s x.region

/-- A stack that the restore of a context reads makes it wait (R451): its save record's, or that of a cold tile's backing record. -/
def restoreWaits (s : State) (x : Ctx) : Bool :=
  stackWaits s (stackOf x.saveAt) || (coldTiles s x).any (fun t => match t.2.back with | some b => stackWaits s (stackOf b) | none => false)

/-- SWITCH_DONE: once the slot's released panels are fenced, and panels for the incoming context are free. -/
def doSwitchDone (c sl : Nat) (s : State) : State :=
  match s.hub.ctxs.find? (fun x => x.clu == c && x.slot == sl && x.entering) with
  | none => s
  | some x =>
    match x.saved, firstFit (usedPanels s c (fun _ _ => true) ||| (getClu s c).fence) x.panels with
    | some k, some q => if slotFree s (c, sl) && !restoreWaits s x then restoreCtx s x k q else s
    | _, _ => s

/-- SWITCH_DONE. -/
def execSwitchDone (c sl : Nat) (s : State) : Host.Outcome State Fault Refusal := slotRun s c sl (doSwitchDone c sl)

/-! ### SPLIT_WINDOW_END (R424) -/

/-- DEC after a window: D_U and D_N in 1/16 tile, quiet windows so far with this one. -/
def nextDec (v du dn quiet : Nat) : Nat :=
  let dec := min 4 (bits v 2 0)
  let dmax := min 4 (bits v 10 8)
  let dmin := min 4 (bits v 6 4)
  if bits v 23 16 ≤ du ∧ dec < dmax then dec + 1
  else if max 1 (bits v 27 24) ≤ quiet ∧ 1 ≤ dn ∧ dmin < dec then dec - 1
  else dec

/-- SPLIT_WINDOW_END: the window's averages are taken, and in automatic mode DEC is adjusted. -/
def doSplitEnd (c : Nat) (s : State) : State :=
  let k := getClu s c
  let v := cluReg s c oSplit
  let du := k.sumU * 16 / 10000
  let dn := k.sumN * 16 / 10000
  let q := if du = 0 then k.quiet + 1 else 0
  let dec := nextDec v du dn q
  let old := min 4 (bits v 2 0)
  let s := modClu s c (fun k => { k with sumU := 0, sumN := 0, quiet := if dec < old ∧ bitB v 31 then 0 else q })
  if bitB v 31 && dec != old then putSplit (bumpC s c oSplitChg 1) c (v / 8 * 8 + dec) else s

/-- SPLIT_WINDOW_END. -/
def execSplitWindowEnd (c : Nat) (s : State) : Host.Outcome State Fault Refusal := cluRun s c (doSplitEnd c)

end Sys2Proof.Machine
end

