-- ==== Sys2Proof/Machine/Time.lean ====
section
/-! DEFINITION. The fabric time counter as it runs, sync pulses, steps, and the trace rings (R462 to R466, R471 to R476). -/

namespace Sys2Proof.Machine

/-! ### The counter (R462, R463) -/

/-- What the FTC advances by in the tick at place `k.tick` of its period, and the residue after it. -/
def ftcMove (k : Clock) : Nat × Int :=
  if k.tick = 1023 then (if 0 < k.res then (2, k.res - 1) else if k.res < 0 then (0, k.res + 1) else (1, 0)) else (1, k.res)

/-- One tick of the clock. -/
def clockTick (s : State) : Clock :=
  let k := s.clock
  let m := ftcMove k
  let runs := !eclHalted s && s.pow.shut.isNone
  { k with ftc := k.ftc + m.1, res := m.2, tick := (k.tick + 1) % 1024, raw := k.raw + 1, run := k.run + b2n runs }

/-- One tick passes for the clock. -/
def passTick (s : State) : State := { s with clock := clockTick s }

/-- FTC_PERIOD_END: the last tick of a period of 1,024. -/
def doPeriodEnd (s : State) : State := if s.clock.tick = 1023 then passTick s else s

/-- FTC_PERIOD_END. -/
def execFtcPeriodEnd (s : State) : Host.Outcome State Fault Refusal := hubCmd s doPeriodEnd

/-- CLU_PERF_CYC. -/
def perfCyc (s : State) (c : Nat) : Nat := (getClu (settleCyc s c) c).cyc / 40

/-! ### Sync pulses and steps (R464 to R466) -/

/-- The signed distance of a time from the nearest multiple of 1,000,000. -/
def pulseErrOf (t : Nat) : Int :=
  let r := t % 1000000
  if r ≤ 500000 then (r : Int) else (r : Int) - 1000000

/-- A pulse stands 1,000,000 ticks from the one before, within 100 ticks. -/
def pulseGood (k : Clock) : Bool :=
  match k.lastPulse with
  | none => true
  | some p => decide (((k.raw : Int) - (p : Int) - 1000000).natAbs ≤ 100)

/-- The armed value is loaded. -/
def pulseLoad (s : State) : State :=
  let a := reg s aFtcArm
  let s := setReg s aFtcArm (a % 2 ^ 63)
  { s with clock := { s.clock with ftc := a % 2 ^ 63, res := 0 } }

/-- SYNC_PULSE: the command stands for the reference's rising edge that precedes the pulse's, at which R576 takes the pulse, so the
FTC as the command finds it is the one that R464 uses (DESIGN CHOICE, log entry 98). In holdover it is ignored (R577). -/
def doPulse (s : State) : State :=
  let k := s.clock
  if k.holdover then s
  else if !pulseGood k then
    let s := markSet s aFtcStat (2 ^ 30)
    { s with clock := { k with pulseErr := true, lastPulse := some k.raw } }
  else
    let s := { s with clock := { k with lastPulse := some k.raw } }
    if bitB (reg s aFtcArm) 63 then pulseLoad s
    else if ftcMode s = 1 then ftcCorrect s 2 (-pulseErrOf k.ftc)
    else s

/-- SYNC_PULSE. -/
def execSyncPulse (s : State) : Host.Outcome State Fault Refusal := hubCmd s doPulse

/-- FTC_STEP: a step that waits takes effect. -/
def doFtcStep (s : State) : State :=
  match s.clock.step with
  | none => s
  | some v => { s with clock := { s.clock with ftc := ((s.clock.ftc : Int) + v).toNat, res := 0, step := none } }

/-- FTC_STEP. -/
def execFtcStep (s : State) : Host.Outcome State Fault Refusal := hubCmd s doFtcStep

/-- FTC_SYNC_TIMEOUT: too long without an accepted pulse in RACK mode, or response in LINK mode. -/
def doSyncTimeout (s : State) : State :=
  if ftcMode s = 0 then s
  else
    let s := markSet s aFtcStat (2 ^ 31)
    { s with clock := { s.clock with lock := false, loss := true, near := 0 } }

/-- FTC_SYNC_TIMEOUT. -/
def execFtcSyncTimeout (s : State) : Host.Outcome State Fault Refusal := hubCmd s doSyncTimeout

/-! ### Trace rings (R471 to R473) -/

/-- Fields of CLU_TRC_CFGn that can be written. -/
def trcMask : Nat := 0xDFFF_0000_01FF_FFE0

/-- The context address and the bytes of the ring that a value of CLU_TRC_CFGn names. -/
def trcBase (v : Nat) : Nat := bits v 24 5 * 32
def trcBytes (v : Nat) : Nat := 32 * 2 ^ max 6 (min 16 (bits v 60 56))

/-- The ring of a value lies aligned inside the slot's partition. -/
def trcFits (s : State) (c sl v : Nat) : Bool :=
  trcBase v % trcBytes v == 0 && decide (trcBase v + trcBytes v ≤ partSize s c sl)

/-- A write of CLU_TRC_CFGn: one that sets EN with a misplaced ring is ignored, and EN reads 0; setting EN starts the ring
anew. -/
def doTraceWrite (f c sl v : Nat) (s : State) : State :=
  if !slotReach s f c sl then s
  else
    let a := cluAddr c (oTrcCfg sl)
    let v := v &&& trcMask
    if bitB v 63 && !trcFits s c sl v then setReg s a (reg s a % 2 ^ 63)
    else
      let on := bitB v 63
      let s := setReg s a v
      modTrc s c sl (fun t => if on then { t with tail := 0, head := t.head, stampDue := true, last := eventTick s, owed := [] }
        else t)

/-- TRACE_ENABLE. -/
def execTraceEnable (f c sl v : Nat) (s : State) : Host.Outcome State Fault Refusal := slotCmd s c sl (doTraceWrite f c sl v)

/-- TRACE_RING_WRITE: the oldest record of the trace buffer becomes a word of its slot's ring. Where software has named another ring
meanwhile, with EN 0, that does not lie in the slot's partition, the record is written nowhere (R471; DESIGN CHOICE, log entry 98). -/
def doRingWrite (c : Nat) (s : State) : State :=
  match (getClu s c).trcBuf with
  | [] => s
  | r :: l =>
    let t := (getSlot s c r.sl).trc
    let v := cluReg s c (oTrcCfg r.sl)
    let a := trcBase v + 32 * (t.tail % trcSize s c r.sl)
    let s := modClu s c (fun k => { k with trcBuf := l })
    if !trcFits s c r.sl v then s
    else
      let s := (spadWrite s c .trace (partBase s c r.sl + a) r.bytes false).1
      [0, 1, 2, 3].foldl (trcPay c) (modTrc s c r.sl (fun t => { t with tail := (t.tail + 1) % 2 ^ 32 }))

/-- TRACE_RING_WRITE. -/
def execTraceRingWrite (c : Nat) (s : State) : Host.Outcome State Fault Refusal := cluRun s c (doRingWrite c)

/-- TRACE_STAMP: a stamp period ends in which another record was written. -/
def doStamp (c sl : Nat) (s : State) : State :=
  let t := (getSlot s c sl).trc
  if trcOn s c sl && t.traffic && bits (cluReg s c (oTrcCfg sl)) 55 48 != 0 then
    modTrc (trcPut s c sl 1 (stampBody s)) c sl (fun t => { t with traffic := false })
  else s

/-- TRACE_STAMP. -/
def execTraceStamp (c sl : Nat) (s : State) : Host.Outcome State Fault Refusal := slotRun s c sl (doStamp c sl)

end Sys2Proof.Machine
end

