-- ==== Sys2Proof/Machine/Flr.lean ====
section
/-! DEFINITION. Function-level resets, hot reset, the endpoint's configuration space (R378 to R381, R405, R406, R483, R526, R552,
R602). -/

namespace Sys2Proof.Machine

/-! ### The steps of R405 -/

/-- A load or unload of a function that waits or runs goes; work held for a replace goes on (R373). -/
def dropJobs (s : State) (f : Nat) : State :=
  let mine := s.hub.loadQ.filter (fun j => j.f == f)
  let s := { s with hub.loadQ := s.hub.loadQ.filter (fun j => j.f != f) }
  mine.foldl (fun s j => setHold s (oldRegions j) false) s

/-- Messages of a function end under R343, without a record. -/
def dropFuncMsgs (s : State) (f : Nat) : State :=
  let n := (s.lnk.msgs.filter (fun m => m.f == f && m.sent)).length
  bump { s with lnk.msgs := s.lnk.msgs.filter (fun m => m.f != f) } aMsgLost n

/-- Items, reports and bindings of a function go. -/
def dropWork (s : State) (f : Nat) : State :=
  { s with
    hub.items := s.hub.items.filter (fun i => i.f != f)
    hub.reports := s.hub.reports.filter (fun r => r.f != f)
    hub.bindings := s.hub.bindings.filter (fun b => b.f != f) }

/-- TEN registers, queues, rings, MSI-X table and PBA, and the configuration space beside its sticky bits return to reset; the windows
stay. -/
def resetTenRegs (s : State) (f : Nat) : State :=
  let s := { s with
    hub.queues := tabDrop s.hub.queues (2048 * f) 2048
    hub.rings := tabDrop s.hub.rings (2048 * f) 2048
    regs := tabDrop s.regs (tenAddr f 0) 0x4_0000
    ctrs := tabDrop s.ctrs (tenAddr f 0) 0x4_0000
    sec.spdm := tabDel s.sec.spdm f }
  modFunc s f (fun k => { funcReset with wins := k.wins, flrbusy := true, cfg := stickyCfg k.cfg })

/-- The steps of R405 for function `f`. -/
def resetFunc (s : State) (f : Nat) : State :=
  let s := modFunc s f (fun k => { k with flrbusy := true })
  let s := dropWork (dropFuncMsgs (dropJobs s f) f) f
  let s := (s.hub.loads.filter (fun l => l.f == f)).foldl dropLoad s
  resetTenRegs s f

/-! ### The physical function (R406) -/

/-- Functions that the model lists anything of. -/
def listedFuncs (s : State) : List Nat :=
  uniq (0 :: (s.hub.funcs.map (·.1) ++ s.hub.queues.map (fun p => p.1 / 2048) ++ s.hub.rings.map (fun p => p.1 / 2048) ++
    s.hub.items.map (·.f) ++ s.hub.loads.map (·.f) ++ s.hub.loadQ.map (·.f) ++ s.lnk.msgs.map (·.f) ++
    s.hub.reports.map (·.f) ++
    (s.regs.map (fun p => p.1 / 0x1000_0000)) ++ (s.ctrs.map (fun p => p.1 / 0x1000_0000))))

/-- Every window of a function is released, its range scrubbed. -/
def dropWindows (s : State) (f : Nat) : State :=
  let ws := (getFunc s f).wins
  let s := ws.foldl (fun s w => scrubAdd s (w.2.pbase * unit2M) (w.2.size * unit2M)) s
  if ws.isEmpty then s else modFunc s f (fun k => { k with wins := [] })

/-- A reset of the physical function: VF Enable clears, every function is reset, and queue ranges, windows and grants go. -/
def resetAll (s : State) : State :=
  let fs := listedFuncs s
  let s := { s with hub.numVfs := 0 }
  let s := fs.foldl resetFunc s
  let s := fs.foldl dropWindows s
  { s with
    regs := tabDrop s.regs (aQAssign 0) 4096
    hub.qaRefused := []
    hub.winPend := none
    hub.grants := []
    hub.grantPend := [] }

/-- The mark of a hot reset among the resets that wait for Eclipse. -/
def hotMark : Nat := 1024

/-- A reset's own steps: of a virtual function, of the physical one, or a hot reset, after which Bus Master Enable is 0. -/
def runReset (s : State) (f : Nat) : State :=
  if f = hotMark then modFunc (resetAll s) 0 (fun k => { k with bme := false })
  else if f = 0 then resetAll s
  else resetFunc s f

/-! ### Resets and Eclipse (R483) -/

/-- RT of a resume that a reset causes: the first multiple of 16 at least 20,000 ticks after its arrival. -/
def flrResume (t : Nat) : Nat := (t + 20000 + 15) / 16 * 16

/-- A stopped module that a reset has reached resumes. -/
def resumeForReset (s : State) : State :=
  match s.ecl.st, s.ecl.flrAt with
  | .stopped, some t => { s with ecl := { s.ecl with st := .resuming, rt := flrResume t } }
  | _, _ => s

/-- A reset arrives: its steps run, or they wait until an Eclipse stop has ended. -/
def arriveReset (f : Nat) (s : State) : State :=
  if eclHalted s then
    let s := modFunc s (f % hotMark) (fun k => { k with flrbusy := true })
    let s := markSet s aEclStat (2 ^ 30)
    let e := s.ecl
    let at0 := if e.st == .resuming then e.flrAt else some (e.flrAt.getD s.clock.ftc)
    resumeForReset { s with ecl := { e with flrres := true, resets := e.resets ++ [f], flrAt := at0 } }
  else runReset s f

/-- FLR: of function 0 it is a reset of the physical function. -/
def execFlr (f : Nat) (s : State) : Host.Outcome State Fault Refusal := funcCmd s f (arriveReset f)

/-- PF_FLR. -/
def execPfFlr (s : State) : Host.Outcome State Fault Refusal := hubCmd s (arriveReset 0)

/-- HOT_RESET, or the link going down. -/
def execHotReset (s : State) : Host.Outcome State Fault Refusal := hubCmd s (arriveReset hotMark)

/-- The reset of one function has finished: what was written to its registers, and counted, while it ran goes too. Bus Master
Enable stays as the host has set it. -/
def endReset (s : State) (f : Nat) : State :=
  if (getFunc s f).flrbusy then
    modFunc (resetTenRegs s f) f (fun k => { k with flrbusy := false, bme := (getFunc s f).bme })
  else s

/-- FLR_DONE: the reset of function `f` has finished; that of the physical function with those of all others. -/
def doFlrDone (f : Nat) (s : State) : State :=
  if s.ecl.resets.any (fun x => x % hotMark == f) then s
  else if f = 0 then (s.hub.funcs.map (·.1)).foldl endReset s
  else endReset s f

/-- FLR_DONE. -/
def execFlrDone (f : Nat) (s : State) : Host.Outcome State Fault Refusal := funcCmd s f (doFlrDone f)

/-! ### Configuration space (R378 to R381, R403, R552) -/

/-- PERST_DEASSERT: the endpoint starts to train its link, which is step 7 of R550. -/
def doPerst (s : State) : State := { s with mng.perst := true }

/-- PERST_DEASSERT. -/
def execPerstDeassert (s : State) : Host.Outcome State Fault Refusal := hubCmd s doPerst

/-- NumVFs once VF Enable is set: as written, at most 1,023. -/
def vfCount (s : State) : Nat := min 1023 (memNat (getFunc s 0).cfg (sriov + 16) 2)

/-- VF Enable of the physical function takes a value by a configuration write. Virtual functions that go exist no more (R380); the
write resets no register of theirs (R602). -/
def setVfs (s : State) (en : Bool) : State :=
  if !en then { s with hub.numVfs := 0 }
  else if s.hub.numVfs = 0 then { s with hub.numVfs := vfCount s }
  else s

/-- A configuration write of bytes; Bus Master Enable, MSI-X Enable, Function Mask and VF Enable act. -/
def cfgWrite (s : State) (f o : Nat) (bs : List Byte) : State :=
  let at0 := fun (p : Nat) => if o ≤ p ∧ p < o + bs.length then some (nth 0 bs (p - o)).toNat else none
  let s := cfgPuts f o bs s
  let s := match at0 4 with | some v => setBme f (bitB v 2) s | none => s
  let s := if (at0 0x83).isSome then flushVecs s f else s
  match f, at0 (sriov + 8) with
  | 0, some v => setVfs s (bitB v 0)
  | _, _ => s

/-- CONFIG_REQUEST: Configuration Request Retry Status until the endpoint is ready; then a read's value, or a write. -/
def doConfig (f off size : Nat) (w : Option Nat) (s : State) : State :=
  if !s.mng.linkUp then emit s (.cfg f off none)
  else match w with
    | some v => cfgWrite s f off (leBytes size v)
    | none => emit s (.cfg f off (some (leNat ((List.range size).map (fun i => BitVec.ofNat 8 (cfgByte s f (off + i)))))))

/-- CONFIG_REQUEST. -/
def execConfigRequest (f off size : Nat) (w : Option Nat) (s : State) : Host.Outcome State Fault Refusal :=
  if off + size ≤ 4096 then funcCmd s f (doConfig f off size w) else .fault .noSuchAddress

end Sys2Proof.Machine
end

