-- ==== Sys2Proof/Machine/Island.lean ====
section
/-! DEFINITION. Clock islands: the caps in force, the island's and the station's frequency (R300, R302, R492, R493). -/

namespace Sys2Proof.Machine

/-! ### The controls in force (R500, R503, R512): a value outside its range counts as the nearer end -/

/-- A value taken into a range. -/
def clamp (lo hi v : Nat) : Nat := max lo (min hi v)

/-- EMU_PLIM.LIMIT in watts. -/
def emLimit (s : State) : Nat := 100 * clamp 20 200 (bits (reg s (emuAddr 0)) 7 0)

/-- EMU_PCTL.TTGT. -/
def emTarget (s : State) : Nat := clamp 85 100 (bits (reg s (emuAddr 8)) 7 0)

/-- EMU_PCTL.IDLEOFF. -/
def emIdleOff (s : State) : Bool := bitB (reg s (emuAddr 8)) 31

/-- EMU_DIEd_CTL.FMAX, in 25 MHz units. -/
def emFmax (s : State) (d : Nat) : Nat := clamp 14 56 (bits (reg s (emuAddr (0x100 + 4 * d))) 5 0)

/-- The die's steward (R502). -/
def stwOf (d : Nat) : Nat := d / 6

/-- The steward of a cluster. -/
def stwOfClu (c : Nat) : Nat := stwOf (dieOf c)

/-! ### Caps (R493) -/

/-- The value of cap 1, 2 or 3 of an island; caps 1 and 2 at 56 lower nothing. -/
def capAt (k : Clu) (i : Nat) : Nat := tabGet 56 k.caps i

/-- The caps of an island in force, highest of the table first. -/
def capsOf (s : State) (c : Nat) (k : Clu) : List (Nat × Nat) :=
  (if s.pow.brown then [(5, 14)] else []) ++ (if s.pow.fastCap then [(4, 28)] else []) ++
    ((if (tabFind k.caps 3).isSome then [3] else []) ++ (if capAt k 2 < 56 then [2] else []) ++
      (if capAt k 1 < 56 then [1] else [])).map (fun i => (i, capAt k i)) ++ [(0, emFmax s (dieOf c))]

/-- The lowest of a list of caps; of equal ones the first. -/
def lowestCap : List (Nat × Nat) → Nat × Nat
  | [] => (0, 56)
  | p :: l => let q := lowestCap l; if p.2 ≤ q.2 then p else q

/-- An island's frequency in 25 MHz units while its clock runs. -/
def capFreq (s : State) (c : Nat) (k : Clu) : Nat := max 14 (lowestCap (capsOf s c k)).2

/-- The compute clock of an island is stopped by its domain, a park or a restart that has not happened. -/
def islStopped (k : Clu) : Bool := k.compOff || k.parkStw || k.parkHw || k.clkStop

/-- The station's frequency while the compute clock is stopped: of a ROUTED station the lowest of caps 0, 3, 4 and 5, of
another the stewards' choice under caps 3 and 5. -/
def stationFreq (s : State) (c : Nat) (k : Clu) : Nat :=
  let low := fun (keep : Nat → Bool) (f : Nat) =>
    max 14 (((capsOf s c k).filter (fun p => keep p.1)).foldl (fun m p => min m p.2) f)
  if stationRouted s c then low (fun i => i == 0 || decide (3 ≤ i)) 56
  else low (fun i => i == 3 || i == 5) (clamp 14 56 (Config.stationFreq s.fresh c))

/-- The part of cluster `c` with the frequencies its caps give, its cycles counted before a change; Eclipse holds both
clocks. -/
def tuned (s : State) (c : Nat) (k : Clu) : Clu :=
  if eclHalted s then k
  else if islStopped k then { k with sfreq := stationFreq s c k }
  else
    let f := capFreq s c k
    if k.cfreq = f then { k with sfreq := f } else { settled s.clock.run k with cfreq := f, sfreq := f }

/-- `s` with `g` done to every cluster that `p` names. -/
def modClus (s : State) (p : Nat → Bool) (g : Nat → Clu → Clu) : State :=
  { s with
    cl.clus := (List.range Config.clusters).filterMap (fun c =>
      let k := if p c then g c (getClu s c) else getClu s c
      if k = cluReset then none else some (c, k)) }

/-- The frequencies of cluster `c` set anew. -/
def retune (s : State) (c : Nat) : State := stepFresh (modClu s c (tuned s c))

/-- The frequencies of every cluster that `p` names set anew. -/
def retuneAll (s : State) (p : Nat → Bool) : State := stepFresh (modClus s p (tuned s))

/-! ### CLU_ISL_STAT (R512) -/

/-- CLU_ISL_STAT.PARK. -/
def parkCode (k : Clu) : Nat := if k.compOff then 3 else if k.parkHw then 2 else if k.parkStw then 1 else 0

/-- CLU_ISL_STAT. -/
def islStat (s : State) (c : Nat) : Nat :=
  let k := getClu s c
  codeOf 8 k.tj * 2 ^ 24 + k.cfreq * 256 + (lowestCap (capsOf s c k)).1 * 4 + parkCode k

end Sys2Proof.Machine
end

