-- ==== Sys2Proof/Machine/Eclipse.lean ====
section
/-! DEFINITION. Eclipse, and the ephemeris ring's switch (R477 to R483, R484, R489, R556). -/

namespace Sys2Proof.Machine

/-- Offsets of DBG_ECL_T and DBG_ECL_RT (R597). -/
def aEclT : Nat := dbgAddr 0x0
def aEclRt : Nat := dbgAddr 0x8

/-- A command is refused. -/
def eclRefuse (s : State) : State := { markSet s aEclStat (2 ^ 31) with ecl.refused := true }

/-- A write of CMD = ARM or CANCEL waits for the next event-tick boundary (R477). -/
def eclPend (arm : Bool) (s : State) : State := { s with ecl.cmd := some (arm, eventTick s) }

/-- ARM at that boundary (R477, R556). -/
def doEclArm (s : State) : State :=
  let s := { s with ecl.cmd := none }
  let t := reg s aEclT
  if s.ecl.st != .idle || decide (t < s.clock.ftc + 20000) || s.mng.testing then eclRefuse s
  else { s with ecl.st := .armed, ecl.t := t }

/-- ECL_ARM. -/
def execEclArm (s : State) : Host.Outcome State Fault Refusal := hubCmd s doEclArm

/-- CANCEL at that boundary: an armed module becomes idle. -/
def doEclCancel (s : State) : State :=
  { s with ecl := { s.ecl with cmd := none, st := if s.ecl.st == .armed then .idle else s.ecl.st } }

/-- ECL_CANCEL. -/
def execEclCancel (s : State) : Host.Outcome State Fault Refusal := hubCmd s doEclCancel

/-- RESUME (R482): of a stopped module, at least 20,000 ticks ahead. -/
def doEclResume (s : State) : State :=
  let t := reg s aEclRt
  if s.ecl.st != .stopped || decide (t < s.clock.ftc + 20000) then eclRefuse s
  else { s with ecl.st := .resuming, ecl.rt := t }

/-- ECL_RESUME. -/
def execEclResume (s : State) : Host.Outcome State Fault Refusal := hubCmd s doEclResume

/-- ECLIPSE_STOP: the FTC has reached T (R478). -/
def doEclStop (s : State) : State :=
  if s.ecl.st == .armed && decide (s.ecl.t ≤ s.clock.ftc) then { s with ecl.st := .stopping } else s

/-- ECLIPSE_STOP. -/
def execEclipseStop (s : State) : Host.Outcome State Fault Refusal := hubCmd s doEclStop

/-- A command that waits for an event-tick boundary meets it. -/
def eclBoundary (s : State) : State :=
  match s.ecl.cmd with
  | none => s
  | some (arm, t) => if t = eventTick s then s else if arm then doEclArm s else doEclCancel s

/-- The DMA operations in flight, each with its cluster. -/
def dmaOps (s : State) : List (Nat × Op) := s.cl.clus.flatMap (fun p => (p.2.ops.filter dmaOpen).map (fun o => (p.1, o)))

/-- The reloads of weight tiles in flight whose stacks have not answered: cluster and tile. -/
def openReloads (s : State) : List (Nat × Nat) :=
  (s.cl.tiles.filter (fun p => p.2.st == .reloading && p.2.back.isSome && p.2.got.isNone)).map (fun p => (p.1 / 32768, p.1 % 32768))

/-- The copies in flight whose memory requests have not completed. -/
def openCopies (s : State) : List Item := s.hub.items.filter (fun i => i.st == .copying && !s.ecl.copies.any (fun x => x.1 == i.id))

/-- The memory requests of a copy that were issued before T complete: a free part of its bytes has been asked for (R479; DESIGN CHOICE,
log entry 67). Writes of data from the host are made; data read from device memory is held. -/
def copyHolds (s : State) (i : Item) : State :=
  let d := i.desc
  let n := min (dLen d - i.moved) (32 * Config.copied s.fresh)
  if copyStalls s i then s
  else if dDir d = 0 then
    let (s, st) := copyMove (stepFresh s) i n
    let s := if st ≠ 0 then s else modItem s i.id (fun x => { x with moved := x.moved + n })
    { s with ecl.copies := s.ecl.copies ++ [(i.id, [], st)] }
  else match tenRead (stepFresh s) i.cls i.f (dSrc d + i.moved) n with
    | none => { stepFresh s with ecl.copies := s.ecl.copies ++ [(i.id, [], 0x16)] }
    | some (s, bs, poi) => { s with ecl.copies := s.ecl.copies ++ [(i.id, bs, if poi then 0x18 else 0)] }

/-- The stacks complete the operations that were issued before T; their answers are held (R479). -/
def stacksFinish (s : State) : State :=
  let s := (dmaOps s).foldl (fun s p => stackHolds p.1 s p.2) s
  let s := (openReloads s).foldl (fun s p => tileHolds p.1 p.2 s) s
  (openCopies s).foldl copyHolds s

/-- Every memory operation has completed at its stack. -/
def stacksDone (s : State) : Bool :=
  s.mem.atoms.isEmpty && (dmaOps s).isEmpty && (openReloads s).isEmpty && (openCopies s).isEmpty

/-- ECLIPSE_STOPPED: at an event-tick boundary after T, once every memory operation has completed at its stack (R479, R480). -/
def doEclStopped (s : State) : State :=
  if s.ecl.st != .stopping then s
  else
    let s := stacksFinish s
    if stacksDone s && decide (s.ecl.t < 16 * eventTick s) then
      resumeForReset { s with ecl.st := .stopped }
    else s

/-- ECLIPSE_STOPPED. -/
def execEclipseStopped (s : State) : Host.Outcome State Fault Refusal := hubCmd s doEclStopped

/-! ### The shift of R482 -/

/-- A message's first flit has its SFTC in bytes 24 to 27 of its payload (R336). -/
def flMessage (b : List Byte) : Bool := flFirst b && decide (3 ≤ flType b) && decide (flType b ≤ 7)

/-- A flit with `d` added to its SFTC, and its CRC made good. -/
def shiftFlit (d : Nat) (b : List Byte) : List Byte :=
  if flMessage b then flPut b 40 (leBytes 4 ((flitN b 40 4 + d) % 2 ^ 32)) else b

/-- A reassembly slot with `d` added to its SFTC. -/
def shiftReasm (d : Nat) (r : Reasm) : Reasm :=
  { r with payload := r.payload.take 24 ++ leBytes 4 ((flitN r.payload 24 4 + d) % 2 ^ 32) ++ r.payload.drop 28 }

/-- A port's held flits shifted. -/
def shiftPort (d : Nat) (p : Port) : Port :=
  { p with
    egress := p.egress.map (fun x => (x.1, shiftFlit d x.2)), rx := p.rx.map (shiftFlit d)
    replay := p.replay.map (shiftFlit d) }

/-- Messages, flits and reassembly slots shifted by `d`. -/
def shiftAll (s : State) (d : Nat) : State :=
  { s with
    lnk.msgs := s.lnk.msgs.map (fun m => if m.sent then { m with sftc := m.sftc + d } else m)
    lnk.ports := s.lnk.ports.map (fun p => (p.1, shiftPort d p.2))
    lnk.reasm := s.lnk.reasm.map (shiftReasm d) }

/-- Held flits go on. -/
def portsResume (s : State) : State := (List.range Config.ports).foldl (fun s n => pump (drain s n) n) s

/-- The acknowledgements held since the stop. -/
def acksResume (s : State) : State :=
  s.ecl.acks.foldl (fun s a => stackAcks s a.1 a.2) { s with ecl.acks := [] }

/-- The data of a copy that was held since the stop is delivered, or the copy ends (R395, R482). Where its host requests have stopped
meanwhile the data is read again. -/
def copyGoes (s : State) (x : Nat × List Byte × Nat) : State :=
  match s.hub.items.find? (fun i => i.id == x.1 && i.st == .copying) with
  | none => s
  | some i =>
    let dst := dDst i.desc + i.moved
    if x.2.2 ≠ 0 then complete s i x.2.2 0 false
    else if x.2.1.isEmpty || (dDir i.desc == 1 && dmaHeld s i.f) || copyStalls s i then s
    else if dDir i.desc ≠ 1 && !tenOk s i.f dst x.2.1.length then complete s i 0x16 0 false
    else
      let s := if dDir i.desc = 1 then hostWrite s dst x.2.1 else tenStore s i.cls i.f dst x.2.1 false
      modItem s i.id (fun i => { i with moved := i.moved + x.2.1.length })

/-- The data of copies held since the stop. -/
def copiesResume (s : State) : State := s.ecl.copies.foldl copyGoes { s with ecl.copies := [] }

/-- ECLIPSE_RESTART: the FTC has reached RT (R482); resets that waited run their steps (R483). -/
def doEclRestart (s : State) : State :=
  if s.ecl.st == .resuming && decide (s.ecl.rt ≤ s.clock.ftc) then
    let rs := s.ecl.resets
    let s := shiftAll s (s.ecl.rt - s.ecl.t)
    let s := copiesResume <| acksResume <| portsResume { s with ecl := { s.ecl with st := .idle, resets := [], flrAt := none } }
    rs.foldl runReset (retuneAll s (fun _ => true))
  else s

/-- ECLIPSE_RESTART. -/
def execEclipseRestart (s : State) : Host.Outcome State Fault Refusal := hubCmd s doEclRestart

/-! ### TEN_EPHCFG (R484, R489) -/

/-- Fields of TEN_EPHCFG that can be written. -/
def ephMask : Nat := 0xE0FF_001F

/-- A write of TEN_EPHCFG: fields other than EN only while EN is 0; EN = 1 sets TAIL and HEAD to 0. -/
def doEphWrite (f v : Nat) (s : State) : State :=
  let a := tenAddr f oEphCfg
  let old := reg s a
  let v := v &&& ephMask
  let s := setReg s a (if bitB old 31 then old % 2 ^ 31 + v / 2 ^ 31 * 2 ^ 31 else v)
  if bitB v 31 then modFunc s f (fun k => { k with ephHead := 0, ephTail := 0, ephDropped := 0 }) else s

/-- EPH_ENABLE. -/
def execEphEnable (f v : Nat) (s : State) : Host.Outcome State Fault Refusal := funcCmd s f (doEphWrite f v)

end Sys2Proof.Machine
end

