-- ==== Sys2Proof/Machine/Power.lean ====
section
/-! DEFINITION. Power domains, supply, thermal limits, the stewards and their registers (R490 to R512, R134). -/

namespace Sys2Proof.Machine

/-- A steward restarts, or its image has failed verification (R505). -/
def stwIsDown (s : State) (k : Nat) : Bool := s.pow.stwDown.contains k || s.pow.stwFail.contains k

/-! ### Compute domains (R134, R490, R491, R591) -/

/-- The cluster holds no valid partition, no fenced panel and no RESIDENT weight tile. -/
def domainIdle (s : State) (c : Nat) : Bool :=
  (List.range 4).all (fun n => !(getSlot s c n).pvalid) && (getClu s c).fence == 0 &&
    (tabRange s.cl.tiles (32768 * c) 32768).all (fun t => t.2.st != .resident)

/-- A slot whose compute domain goes off: its registers of the fabric-station domain stay. -/
def slotLost (k : Slot) : Slot := { slotReset with seed := k.seed, seedPend := k.seedPend, trc := k.trc.gone }

/-- Scratchpad, weight store and sequencer state are lost. -/
def domainLose (s : State) (c : Nat) : State :=
  let s := (List.range 4).foldl (fun s n => modSlot s c n slotLost) s
  let s :=
    { s with
      cl.spad := memZero s.cl.spad (spadKey c 0) (2 ^ 25)
      cl.spadPoi := tabDrop s.cl.spadPoi (wordKey c 0) (2 ^ 20)
      cl.spadErr := tabDrop s.cl.spadErr (wordKey c 0) (2 ^ 20)
      cl.wst := memZero s.cl.wst (2 ^ 27 * c) (2 ^ 27)
      cl.wErr := tabDrop s.cl.wErr (2 ^ 21 * c) (2 ^ 21)
      cl.tiles := tabDrop s.cl.tiles (32768 * c) 32768 }
  modClu s c (fun k => { k with ops := [], gather := [], banks := [], lb := [], accHeld := [], trcBuf := [], rr := [] })

/-- A compute domain is switched off, once bring-up is READY (R556). -/
def doPowerOff (c : Nat) (s : State) : State :=
  let k := getClu s c
  if s.mng.testing || !emIdleOff s || stwIsDown s (stwOfClu c) || islStopped k || !domainIdle s c || s.pow.shut.isSome then s
  else retune (modClu (domainLose (settleCyc s c) c) c (fun k => { k with compOff := true })) c

/-- IDLE_POWER_OFF: the condition of R490 has held for 1 ms. -/
def execIdlePowerOff (c : Nat) (s : State) : Host.Outcome State Fault Refusal := cluCmd s c (doPowerOff c)

/-- A compute domain comes back on, all 16 panels fenced for the scrub of R134. -/
def doPowerUp (c : Nat) (s : State) : State :=
  if !(getClu s c).compOff || s.pow.shut.isSome then s
  else
    let s := settleCyc s c
    retune (fencePanels (modClu s c (fun k => { k with compOff := false })) c 0 16) c

/-- CLUSTER_POWER_UP: the dispatch unit or the load path needs the cluster. -/
def execClusterPowerUp (c : Nat) (s : State) : Host.Outcome State Fault Refusal := cluCmd s c (doPowerUp c)

/-! ### Supply (R494 to R496) -/

/-- Of the microseconds before number `now`, at most a second of them, those whose sample lay in one row of R567's table: 60 to 66 V,
or 66 to 72 V. -/
def highTime (l : List (Nat × Nat × Bool)) (now : Nat) (top : Bool) : Nat :=
  natSum ((l.filter (fun r => r.2.2 == top)).map (fun r => r.1 + r.2.1 - max r.1 (now - 1000000)))

/-- The input lies above the envelope: above 72 V, or a row's duration is exceeded in the last second (R567). Each row's own samples
count for it (DEDUCED, log entry 97). -/
def aboveEnvelope (s : State) (mv : Nat) : Bool :=
  decide (72000 < mv) || decide (100000 < highTime s.pow.high s.pow.us false) || decide (1000 < highTime s.pow.high s.pow.us true)

/-- `us` samples in a row of the input, each of 1 µs and of `mv` millivolts, in which the module drew `uj` microjoules. -/
def doSupply (mv uj us : Nat) (s : State) : State :=
  let p := s.pow
  let runs := if 60000 < mv ∧ mv ≤ 72000 then p.high ++ [(p.us, us, decide (66000 < mv))] else p.high
  let s := { s with pow.vin := min 65535 (mv / 10), pow.uj := min (2 ^ 64 - 1) (p.uj + uj), pow.us := p.us + us
                    pow.high := runs.filter (fun r => decide (p.us + us < r.1 + r.2.1 + 1000000)) }
  if aboveEnvelope s mv || decide (mv < 36000) then causeShut s false
  else if mv < 42000 then
    let s := { s with pow.low := true }
    if s.pow.brown then s
    else retuneAll (markSet { s with pow.brown := true, pow.brSeen := true } aSupply (2 ^ 30)) (fun _ => true)
  else { s with pow.low := false }

/-- SUPPLY_SAMPLE. -/
def execSupplySample (mv uj us : Nat) (s : State) : Host.Outcome State Fault Refusal :=
  hubCmd s (doSupply mv uj us)

/-- The brownout cap is released: the input has stayed at 43 V or more for 1 ms. -/
def doBrownRelease (s : State) : State :=
  if s.pow.brown && decide (4300 ≤ s.pow.vin) then retuneAll { s with pow.brown := false } (fun _ => true) else s

/-- BROWNOUT_RELEASE. -/
def execBrownoutRelease (s : State) : Host.Outcome State Fault Refusal := hubCmd s doBrownRelease

/-- BROWNOUT_TIMEOUT: 36 to 42 V for more than 10 ms. -/
def execBrownoutTimeout (s : State) : Host.Outcome State Fault Refusal :=
  hubCmd s (fun s => if s.pow.brown && s.pow.low then causeShut s false else s)

/-- The module without power: it retains fuses and flash; every output contact is released (R495, R496, R573). -/
def unpowered (s : State) : State :=
  { State.reset with
    pending := s.pending
    pow := { powerReset with on := false, pwrGood := false }
    mng := { manageReset with linkUp := false, perst := false }
    fuses := s.fuses
    host := s.host
    fresh := s.fresh
    out := s.out }

/-- ORDERLY_SHUTDOWN: a shutdown that has been caused is carried out. -/
def execOrderlyShutdown (s : State) : Host.Outcome State Fault Refusal :=
  hubCmd s (fun s => if s.pow.shut.isSome then unpowered s else s)

/-! ### Sensors and parks (R497, R498) -/

/-- A cluster's sensor reads `t`: at 110 °C or more hardware parks it. -/
def cluSensor (s : State) (p : Nat × Int) : State :=
  let c := p.1
  let s := modClu s c (fun k => { k with tj := p.2 })
  let k := getClu s c
  let s := if 115 ≤ p.2 then causeShut s true else s
  if 110 ≤ p.2 ∧ k.parkHw = false ∧ k.compOff = false then
    bump (retune (modClu (settleCyc s c) c (fun k => { k with parkHw := true, clkStop := true })) c) aThermPark 1
  else s

/-- The sensors of listed clusters and die uncores, and that of the hub die, are read. A reading of an uncore outside −40 to 150 °C is
no reading: it fences its die (R541). -/
def doSensors (clu die : List (Nat × Int)) (hub : Int) (s : State) : State :=
  let s := clu.foldl cluSensor s
  let good := die.filter (fun p => decide (-40 ≤ p.2) && decide (p.2 ≤ 150))
  let s := { s with pow.uncore := good.foldl (fun m p => tabSet m p.1 p.2) s.pow.uncore, pow.hubT := hub }
  let s := (die.filter (fun p => !good.contains p)).foldl (fun s p => fenceDie s p.1) s
  if good.any (fun p => decide (110 ≤ p.2)) || decide (110 ≤ hub) then causeShut s true else s

/-- SENSOR_READ. -/
def execSensorRead (clu die : List (Nat × Int)) (hub : Int) (s : State) : Host.Outcome State Fault Refusal :=
  if clu.all (fun p => decide (p.1 < Config.clusters)) then
    (if die.all (fun p => decide (p.1 < Config.dies)) then hubCmd s (doSensors clu die hub) else .fault .noSuchDie)
  else .fault .noSuchCluster

/-- The clock of a cluster restarts: every park is released. -/
def doClockRestart (c : Nat) (s : State) : State :=
  let k := getClu s c
  if k.clkStop && !k.parkStw && !k.parkHw then
    retune (modClu (settleCyc s c) c (fun k => { k with clkStop := false })) c
  else s

/-- CLOCK_RESTART. -/
def execClockRestart (c : Nat) (s : State) : Host.Outcome State Fault Refusal := cluCmd s c (doClockRestart c)

/-! ### Power limits (R499 to R501) -/

/-- Cap 4 is due: 24 kW over 10 µs, or 20 kW in each of the last 9 milliseconds. -/
def fastDue (w10 : Nat) (ms : List Nat) : Bool :=
  decide (24000 < w10) || (decide (9 ≤ ms.length) && (ms.take 9).all (fun w => decide (20000 < w)))

/-- A measurement of the fast limiter: the average over 10 µs, those of the last milliseconds, newest first, and whether the
1 ms average has stayed below 19 kW for 1 ms. -/
def doFastLimit (w10 : Nat) (ms : List Nat) (low : Bool) (s : State) : State :=
  let on := fastDue w10 ms || (s.pow.fastCap && !low)
  if on == s.pow.fastCap then s else retuneAll { s with pow.fastCap := on } (fun _ => true)

/-- FAST_LIMITER_SAMPLE. -/
def execFastLimiterSample (w10 : Nat) (ms : List Nat) (low : Bool) (s : State) : Host.Outcome State Fault Refusal :=
  hubCmd s (doFastLimit w10 ms low)

/-- Shares in proportion to requests, none below `fl`: a share that falls below is `fl`, and the rest is divided again. -/
def divide (fl : Nat) : Nat → Nat → List (Nat × Nat) → List (Nat × Nat)
  | 0, _, l => l.map (fun p => (p.1, fl))
  | n + 1, rest, l =>
    let sum := natSum (l.map (fun p => p.2))
    let part := fun (r : Nat) => if sum = 0 then 0 else rest * r / sum
    let low := l.filter (fun p => decide (part p.2 < fl))
    let high := l.filter (fun p => !decide (part p.2 < fl))
    if low.isEmpty then l.map (fun p => (p.1, part p.2))
    else low.map (fun p => (p.1, fl)) ++ divide fl n (rest - fl * low.length) high

/-- The budget is divided: `other` watts go to the hub, the link ports and the memory PHYs, and each steward's dies have
requested `req`. The share of a restarting steward stays. -/
def doBudget (other : Nat) (req : List Nat) (s : State) : State :=
  let b := emLimit s - other
  let down := stwIsDown s
  let ks := (List.range 4).filter (fun k => !down k)
  let kept := natSum (((List.range 4).filter down).map (nth 0 s.pow.shares))
  let new := divide (ceilDiv (15 * b) 100) 4 (b - kept) (ks.map (fun k => (k, nth 0 req k)))
  { s with
    pow.shares := (List.range 4).map (fun k =>
      match new.find? (fun p => p.1 == k) with | some p => p.2 | none => nth 0 s.pow.shares k) }

/-- BUDGET_DIVIDE. -/
def execBudgetDivide (other : Nat) (req : List Nat) (s : State) : Host.Outcome State Fault Refusal :=
  hubCmd s (doBudget other req)

/-! ### The stewards' loop (R501 to R504) -/

/-- The last reading of the uncore sensor of die `d`, and that of its stack. -/
def uncoreT (s : State) (d : Nat) : Int := tabGet 0 s.pow.uncore d
def stackT (s : State) (d : Nat) : Option Int := (dieStack d).map (fun k => (getStack s k).temp)

/-- The degrees by which a reading exceeds its target. -/
def excess (t lim : Int) : Nat := (t - lim).toNat

/-- The steps by which thermal control lowers cap 1 of a cluster. -/
def thermLower (s : State) (c : Nat) (k : Clu) : Nat :=
  let d := dieOf c
  excess k.tj (emTarget s : Int) + excess (uncoreT s d) 100 +
    (match stackT s d with | some t => excess t 95 | none => 0) + (if 100 < s.pow.hubT then 1 else 0)

/-- Every sensor lets cap 1 of the cluster rise. -/
def thermCool (s : State) (c : Nat) (k : Clu) : Bool :=
  let d := dieOf c
  decide (k.tj + 2 ≤ (emTarget s : Int)) && decide (uncoreT s d ≤ 98) &&
    (match stackT s d with | some t => decide (t ≤ 93) | none => true) && decide (s.pow.hubT ≤ 98)

/-- Step 2 of the loop on one cluster: cap 1, and the steward's park. -/
def thermStep (s : State) (c : Nat) (k : Clu) : Clu :=
  let n := thermLower s c k
  let c1 := capAt k 1
  let new := if 0 < n then max 14 (c1 - n) else if thermCool s c k then min 56 (c1 + 4) else c1
  let park := k.cfreq == 14 && decide ((emTarget s : Int) + 5 ≤ k.tj) && !k.compOff
  let k := if park then settled s.clock.run k else k
  { k with caps := tabSet k.caps 1 new, parkStw := k.parkStw || park, clkStop := k.clkStop || park }

/-- How late the power loop lowers an island: by the highest class of its contexts. -/
def classRank (s : State) (c : Nat) : Nat :=
  natMax ((List.range 4).map (fun n =>
    let k := getSlot s c n
    if k.ctx.isNone then 0 else match k.cls with | .u => 2 | .i => 1 | .b => 0))

/-- The running islands of a steward in the order in which the power loop lowers them. -/
def lowerOrder (s : State) (k : Nat) : List Nat :=
  let lt := fun (a b : Nat × Int × Nat) =>
    decide (a.1 < b.1) || (a.1 == b.1 && (decide (b.2.1 < a.2.1) || (a.2.1 == b.2.1 && decide (a.2.2 < b.2.2))))
  let cs := (List.range Config.clusters).filter (fun c => stwOfClu c == k && !islStopped (getClu s c))
  (sortBy lt (cs.map (fun c => (classRank s c, (getClu s c).tj, c)))).map (fun p => p.2.2)

/-- Cap 2 of islands is lowered, by up to 8 steps each, until `e` watts are covered. -/
def coverExcess (s : State) : List Nat → Nat → State
  | [], _ => s
  | c :: l, e =>
    if e = 0 then s
    else
      let k := getClu s c
      let f := capFreq s c k
      let w := Config.stepPower s.fresh c
      let n := min 8 (min (f - 14) (if w = 0 then 8 else ceilDiv e w))
      let s := if n = 0 then s else modClu s c (fun k => { k with caps := tabSet k.caps 2 (f - n) })
      coverExcess s l (e - n * w)

/-- Cap 2 of islands is raised, by up to 4 steps each and up to caps 0 and 1, until `e` watts are used (log entry 92). -/
def useRoom (s : State) : List Nat → Nat → State
  | [], _ => s
  | c :: l, e =>
    if e = 0 then s
    else
      let k := getClu s c
      let w := Config.stepPower s.fresh c
      let n := min (min 4 (if w = 0 then 4 else ceilDiv e w)) (min (emFmax s (dieOf c)) (capAt k 1) - capAt k 2)
      let s := if n = 0 then s else modClu s c (fun k => { k with caps := tabSet k.caps 2 (capAt k 2 + n) })
      useRoom s l (e - n * w)

/-- Step 3 of the loop: the steward's dies drew `w` watts. -/
def powerStep (s : State) (k w : Nat) : State :=
  let share := nth 0 s.pow.shares k
  if share < w then stepFresh (coverExcess s (lowerOrder s k) (w - share))
  else if 100 * w < 95 * share then stepFresh (useRoom s (lowerOrder s k).reverse (share - w))
  else s

/-- Step 4 of the loop: parks are released. -/
def releaseParks (t : Int) (k : Clu) : Clu :=
  { k with parkStw := k.parkStw && !decide (k.tj ≤ t), parkHw := k.parkHw && !decide (k.tj ≤ 95) }

/-- EMU_DIEd_STAT of die `d` as its steward measures it. -/
def dieStat (s : State) (d : Nat) : Nat :=
  let ks := (dieClusters d).map (getClu s)
  let run := ks.filter (fun k => !islStopped k)
  let tmax := ks.foldl (fun m k => if m < k.tj then k.tj else m) (uncoreT s d)
  let flow := run.foldl (fun m k => min m k.cfreq) 63
  codeOf 8 tmax * 2 ^ 24 + (if run.isEmpty then 0 else flow) * 2 ^ 16 + natMax (ks.map (fun k => k.cfreq)) * 2 ^ 8 +
    (ks.filter (fun k => k.parkStw || k.parkHw)).length

/-- One loop of steward `k`: the power of its dies over the loop, and what steward 0 measures of the module. -/
def doLoop (k : Nat) (die : List Nat) (pavg pmax1 : Nat) (s : State) : State :=
  if stwIsDown s k then s
  else
    let mine := fun c => stwOfClu c == k
    let s := modClus s mine (thermStep s)
    let s := powerStep s k (natSum die)
    let t := (emTarget s : Int) - 5
    let s := retuneAll (modClus s mine (fun _ v => releaseParks t v)) mine
    let s := if k = 0 then { s with pow.pavg := min 65535 pavg, pow.pmax1 := min 65535 pmax1 } else s
    ((List.range 6).map (fun i => 6 * k + i)).foldl (fun s d => setReg s (emuAddr (0x200 + 4 * d)) (dieStat s d)) s

/-- STEWARD_LOOP. -/
def execStewardLoop (k : Nat) (die : List Nat) (pavg pmax1 : Nat) (s : State) : Host.Outcome State Fault Refusal :=
  stwCmd s k (doLoop k die pavg pmax1)

/-! ### EM registers (R508 to R511, R596) -/

/-- The steward that serves an offset of the EMU block. -/
def emServer (off : Nat) : Option Nat :=
  if off % 4 ≠ 0 then none
  else if off < 0xC then some 0
  else if 0x100 ≤ off ∧ off < 0x160 then some (stwOf ((off - 0x100) / 4))
  else if 0x200 ≤ off ∧ off < 0x260 then some (stwOf ((off - 0x200) / 4))
  else none

/-- The writable bits of an offset. -/
def emMask (off : Nat) : Nat :=
  if off = 0 then 0xFF else if off = 8 then 0x8000_00FF else if 0x100 ≤ off ∧ off < 0x160 then 0x3F else 0

/-- What a served offset reads. -/
def emValue (s : State) (off : Nat) : Nat := if off = 4 then s.pow.pmax1 * 65536 + s.pow.pavg else reg s (emuAddr off)

/-- A steward completes a write: the shadow takes the value (R510). -/
def emApply (s : State) (w : EmWrite) : State :=
  if emMask w.off = 0 then s
  else
    let s := setReg s (emuAddr w.off) (w.v &&& emMask w.off)
    if 0x100 ≤ w.off then retuneAll s (fun c => dieOf c == (w.off - 0x100) / 4) else s

/-- The writes that wait for steward `k` are completed, oldest first. -/
def emDrain (s : State) (k : Nat) : State :=
  let mine := fun (w : EmWrite) => emServer w.off == some k
  (s.pow.emq.filter mine).foldl emApply { s with pow.emq := s.pow.emq.filter (fun w => !mine w) }

/-- The oldest write that waits for steward `k` is completed. -/
def emNext (s : State) (k : Nat) : State :=
  match takeFirst (fun (w : EmWrite) => emServer w.off == some k) s.pow.emq with
  | none => s
  | some (w, l) => emApply { s with pow.emq := l } w

/-- A read of the EMU block, and its value. -/
def emReadOf (s : State) (f off size : Nat) : State × Nat :=
  if f ≠ 0 then (s, 0)
  else if size ≠ 4 then (s, 2 ^ (8 * size) - 1)
  else match emServer off with
    | none => (s, 0)
    | some k =>
      if stwIsDown s k then ({ markSet s aHubStat (2 ^ 31) with pow.emuDown := true }, 0xFFFF_FFFF)
      else let s := emDrain s k; (s, emValue s off)

/-- A read of the EMU block. -/
def doEmRead (f off size : Nat) (s : State) : State :=
  let (s, v) := emReadOf s f off size
  emit s (.read f (emuAddr off) size v)

/-- EM_READ. -/
def execEmRead (f off size : Nat) (s : State) : Host.Outcome State Fault Refusal :=
  if off + size ≤ 0x1000 then funcCmd s f (doEmRead f off size) else .fault .noSuchAddress

/-- A write of the EMU block: queued, or dropped and counted. While 256 writes are queued, the hub takes no further one
until its stewards have completed the oldest. -/
def doEmWrite (f off size v : Nat) (s : State) : State :=
  if f ≠ 0 then s
  else if size ≠ 4 then bump s aEmuWdrop 1
  else match emServer off with
    | none => s
    | some k =>
      if stwIsDown s k then bump s aEmuWdrop 1
      else
        let s := if s.pow.emq.length < 256 then s
          else match s.pow.emq with
            | [] => s
            | w :: l => emApply { s with pow.emq := l } w
        { s with pow.emq := s.pow.emq ++ [⟨f, off, v % 2 ^ 32⟩] }

/-- EM_WRITE. -/
def execEmWrite (f off size v : Nat) (s : State) : Host.Outcome State Fault Refusal :=
  if off + size ≤ 0x1000 then funcCmd s f (doEmWrite f off size v) else .fault .noSuchAddress

/-- EM_WRITE_APPLY: steward `k` completes its oldest write. -/
def execEmWriteApply (k : Nat) (s : State) : Host.Outcome State Fault Refusal :=
  stwCmd s k (fun s => if stwIsDown s k then s else emNext s k)

/-! ### Restarts and the floor governor (R505 to R507, R511) -/

/-- The watchdog of steward `k` fires. -/
def doWatchdog (k : Nat) (s : State) : State :=
  if stwIsDown s k then s
  else
    let mine := fun (w : EmWrite) => emServer w.off == some k
    let s := bump (bump s aStwRestart 1) aEmuWdrop (s.pow.emq.filter mine).length
    let s := { s with pow.stwDown := s.pow.stwDown ++ [k], pow.emq := s.pow.emq.filter (fun w => !mine w) }
    let own := fun c => stwOfClu c == k
    retuneAll (modClus s own (fun _ v => { v with caps := tabSet v.caps 3 28 })) own

/-- WATCHDOG_FIRE. -/
def execWatchdogFire (k : Nat) (s : State) : Host.Outcome State Fault Refusal := stwCmd s k (doWatchdog k)

/-- An island goes back to its steward at the frequency that the governor left. -/
def fromFloor (v : Clu) : Clu := { v with caps := tabDel (tabSet v.caps 2 (min (capAt v 2) (capAt v 3))) 3 }

/-- A firmware copy passes steps 3 to 5 of R515: its public key has the fused digest, its signature verifies, its SVN is high
enough. -/
def copyBoots (s : State) (b : Bool) : Bool :=
  let u := s.fuses
  if b then u.keyB == u.fwKey && u.okB && decide (u.minSvn ≤ u.svnB) else u.keyA == u.fwKey && u.okA && decide (u.minSvn ≤ u.svnA)

/-- The copy that was measured at power-on still verifies, and its digest equals measurement 2 (R516). -/
def copyStands (s : State) : Bool :=
  copyBoots s s.sec.bootB && (if s.sec.bootB then s.fuses.digB else s.fuses.digA) == s.sec.dig

/-- Steward `k` runs its first loop (`ok`: its image has passed the hardware's verification), or its image has failed. -/
def doStwRestart (k : Nat) (ok : Bool) (s : State) : State :=
  if !s.pow.stwDown.contains k || s.pow.stwFail.contains k then s
  else if ok && copyStands s then
    let own := fun c => stwOfClu c == k
    retuneAll (modClus { s with pow.stwDown := s.pow.stwDown.erase k } own (fun _ v => fromFloor v)) own
  else { s with pow.stwFail := s.pow.stwFail ++ [k] }

/-- STEWARD_RESTART_DONE. -/
def execStewardRestartDone (k : Nat) (ok : Bool) (s : State) : Host.Outcome State Fault Refusal :=
  stwCmd s k (doStwRestart k ok)

/-- The governor moves cap 3 of one island: its dies draw `w` watts against 60 % of the frozen share. -/
def floorStep (s : State) (w share c : Nat) (v : Clu) : Clu :=
  let c3 := capAt v 3
  let new := if 60 * share < 100 * w then max 14 (min c3 (capFreq s c v) - 1)
    else if 100 * w < 60 * share then min 28 (c3 + 1) else c3
  let v := { v with caps := tabSet v.caps 3 (if 100 ≤ v.tj then 14 else new) }
  { v with parkStw := v.parkStw && !decide (v.tj ≤ 95), parkHw := v.parkHw && !decide (v.tj ≤ 95) }

/-- A comparison of the floor governor of steward `k`. -/
def doFloorTick (k w : Nat) (s : State) : State :=
  if !stwIsDown s k then s
  else
    let own := fun c => stwOfClu c == k
    retuneAll (modClus s own (floorStep s w (nth 0 s.pow.shares k))) own

/-- FLOOR_GOVERNOR_TICK. -/
def execFloorGovernorTick (k w : Nat) (s : State) : Host.Outcome State Fault Refusal := stwCmd s k (doFloorTick k w)

end Sys2Proof.Machine
end

