-- ==== Sys2Proof/Machine/Security.lean ====
section
/-! DEFINITION. The security block: firmware copies, image keys, attestation (R513 to R523, R530). SPDM messages are laid out as
DMTF DSP0274 lays them out, without their DOE header (log entry 41). -/

namespace Sys2Proof.Machine

/-! ### Registers (R530) -/

/-- HUB_SEC_STAT. -/
def secStat (s : State) : Nat :=
  s.sec.upd * 2 ^ 30 + b2n s.sec.bootB * 2 ^ 29 + s.fuses.minSvn % 64 * 256 + s.sec.svn % 64

/-! ### Firmware copies (R515, R517, R518) -/

/-- What the module knows of a firmware copy: the digest of its public key, whether its signature verifies, its SVN, its digest. -/
def putCopy (s : State) (b ok : Bool) (key : List Byte) (svn : Nat) (dig : List Byte) : State :=
  if b then { s with fuses := { s.fuses with okB := ok, keyB := key, svnB := svn, digB := dig } }
  else { s with fuses := { s.fuses with okA := ok, keyA := key, svnA := svn, digA := dig } }

/-- Bytes are written into the copy that the flash header does not name; what that copy is now is open. -/
def doFwWrite (f off : Nat) (data : List Byte) (s : State) : State :=
  if f ≠ 0 ∨ s.sec.upd = 1 ∨ (data.length ≠ 4 ∧ data.length ≠ 8) then s
  else
    let b := !s.fuses.headB
    let s := if b then { s with fuses := { s.fuses with fwB := memPut s.fuses.fwB off data } }
      else { s with fuses := { s.fuses with fwA := memPut s.fuses.fwA off data } }
    let x := Config.fwCopy s.fresh
    stepFresh (putCopy s b (x 0 % 2 == 1) (leBytes 64 (x 3)) (x 1 % 64) (leBytes 64 (x 2)))

/-- FW_WRITE. -/
def execFwWrite (f off : Nat) (data : List Byte) (s : State) : Host.Outcome State Fault Refusal :=
  if off + data.length ≤ 2 ^ 25 then funcCmd s f (doFwWrite f off data) else .fault .noSuchAddress

/-- CMD = VERIFY: verification begins. -/
def doFwVerify (f : Nat) (s : State) : State := if f ≠ 0 then s else { s with sec.upd := 1 }

/-- FW_VERIFY. -/
def execFwVerify (f : Nat) (s : State) : Host.Outcome State Fault Refusal := funcCmd s f (doFwVerify f)

/-- Verification ends: `ok` says that steps 3 and 4 of R515 passed, and step 5 compares the copy's SVN. -/
def doFwDone (ok : Bool) (svn : Nat) (dig : List Byte) (s : State) : State :=
  if s.sec.upd ≠ 1 then s
  else
    let b := !s.fuses.headB
    let s := putCopy s b ok (if ok then s.fuses.fwKey else if b then s.fuses.keyB else s.fuses.keyA) svn dig
    if copyBoots s b then { s with fuses := { s.fuses with headB := b }, sec.upd := 2 }
    else { s with sec.upd := 3 }

/-- FW_VERIFY_DONE. -/
def execFwVerifyDone (ok : Bool) (svn : Nat) (dig : List Byte) (s : State) : Host.Outcome State Fault Refusal :=
  hubCmd s (doFwDone ok svn dig)

/-- SVNCOMMIT: MINSVN takes the SVN of the running firmware, and never falls. -/
def doSvnCommit (f : Nat) (s : State) : State :=
  if f ≠ 0 then s else { s with fuses := { s.fuses with minSvn := max s.fuses.minSvn s.sec.svn } }

/-- SVN_COMMIT. -/
def execSvnCommit (f : Nat) (s : State) : Host.Outcome State Fault Refusal := funcCmd s f (doSvnCommit f)

/-! ### Image keys (R522) -/

/-- KEYLOCK is set. -/
def doKeylock (f : Nat) (s : State) : State := if f ≠ 0 then s else { s with sec.keylock := true }

/-- KEYLOCK_SET. -/
def execKeylockSet (f : Nat) (s : State) : Host.Outcome State Fault Refusal := funcCmd s f (doKeylock f)

/-- The bits of the 8 bytes at offset `o` of a slot that are not reserved. -/
def keyMask (o : Nat) : Nat :=
  if o = 0 then 0x03FF_0003 else if o < 136 then 2 ^ 64 - 1 else if o = 136 then 2 ^ 32 - 1 else 0

/-- An 8-byte write of the key window. -/
def doKeyWrite (f off v : Nat) (s : State) : State :=
  if f ≠ 0 || s.sec.keylock || decide (off < 256) || off % 8 != 0 then s
  else { s with sec.keys := memPutNat s.sec.keys off 8 (v &&& keyMask (off % 256)) }

/-- KEY_SLOT_WRITE. -/
def execKeySlotWrite (f off v : Nat) (s : State) : Host.Outcome State Fault Refusal :=
  if off + 8 ≤ 4096 then funcCmd s f (doKeyWrite f off v) else .fault .noSuchAddress

/-! ### Measurements (R521) -/

/-- A digest field of 64 bytes. -/
def fit (n : Nat) (b : List Byte) : List Byte := (b ++ List.replicate n 0).take n

/-- The 16 key slots and KEYLOCK, as measurement 4 covers them. -/
def keyImage (s : State) : List Byte :=
  memBytes s.fuses.key0 0 256 ++ memBytes s.sec.keys 256 3840 ++ [BitVec.ofNat 8 (b2n s.sec.keylock)]

/-- The shipped defect map: its header and its entries. -/
def dmapImage (s : State) : List Byte := memBytes s.fuses.dmap 0 (32 + 8 * memNat s.fuses.dmap 6 2)

/-- The digests of a function's loads in ascending RBASE. -/
def loadDigests (s : State) (f : Nat) : List Byte :=
  (sortBy (fun (a b : Load) => decide (a.rbase < b.rbase)) (s.hub.loads.filter (fun l => l.f == f))).flatMap (fun l => l.digest)

/-- A cluster of a function's regions is shared. -/
def anyShared (s : State) (f : Nat) : Bool :=
  s.hub.regions.any (fun r => r.2.f == f && r.2.members.any (fun c => (getClu s c).share))

/-- A measurement as DMTF value type and value: bit 7 of the type marks a value that is no digest. -/
def measurement (s : State) (f i : Nat) : Nat × List Byte :=
  match i with
  | 1 => (0x00, fit 64 s.fuses.rom)
  | 2 => (0x01, fit 64 s.sec.dig)
  | 3 => (0x86, leBytes 1 s.sec.svn ++ leBytes 1 s.fuses.minSvn)
  | 4 => (0x02, sha512 (keyImage s))
  | 5 => (0x02, sha512 (dmapImage s))
  | 6 => (0x01, let d := loadDigests s f; if d.isEmpty then List.replicate 64 0 else sha512 d)
  | _ => (0x82, leBytes 1 (bits (tenReg s f oDbgCon) 0 0) ++ leBytes 1 (b2n (anyShared s f)))

/-- A measurement block. -/
def measBlock (s : State) (f i : Nat) : List Byte :=
  let m := measurement s f i
  leBytes 1 i ++ leBytes 1 1 ++ leBytes 2 (m.2.length + 3) ++ leBytes 1 m.1 ++ leBytes 2 m.2.length ++ m.2

/-! ### SPDM (R519, R520) -/

/-- The exchange of a function. -/
def getSpdm (s : State) (f : Nat) : Spdm := tabGet spdmReset s.sec.spdm f

/-- `s` with a function's exchange. -/
def putSpdm (s : State) (f : Nat) (x : Spdm) : State := { s with sec.spdm := tabSet s.sec.spdm f x }

/-- An ERROR response. -/
def spdmErr (ver code : Nat) : List Byte := leBytes 1 ver ++ [0x7F] ++ leBytes 1 code ++ [0]

/-- Byte `i` of a request. -/
def rq (r : List Byte) (i : Nat) : Nat := (nth 0 r i).toNat

/-- A request is answered with an error. -/
def spdmFail (s : State) (f ver code : Nat) : State := emit s (.doe f (spdmErr ver code))

/-- A request of the code and at least the length given, in the state and the version that it needs; else an ERROR: invalid
request, version mismatch, unexpected request. -/
def spdmReq (s : State) (f : Nat) (r : List Byte) (code len : Nat) (st : SpdmSt) (g : State → Spdm → State) : State :=
  let x := getSpdm s f
  if r.length < len ∨ rq r 1 ≠ code then spdmFail s f x.ver 0x01
  else if rq r 0 ≠ x.ver then spdmFail s f x.ver 0x41
  else if x.st != st then spdmFail s f x.ver 0x04
  else g s x

/-- GET_VERSION: versions 1.2 and 1.3; the exchange begins anew. -/
def doGetVersion (f : Nat) (r : List Byte) (s : State) : State :=
  if r.length < 4 ∨ rq r 1 ≠ 0x84 then spdmFail s f 0x10 0x01
  else if rq r 0 ≠ 0x10 then spdmFail s f 0x10 0x41
  else
    let a : List Byte := [0x10, 0x04, 0, 0, 0, 2, 0x00, 0x12, 0x00, 0x13]
    emit (putSpdm s f { spdmReset with st := .version, nego := r ++ a }) (.doe f a)

/-- GET_VERSION. -/
def execGetVersion (f : Nat) (req : List Byte) (s : State) : Host.Outcome State Fault Refusal :=
  funcCmd s f (doGetVersion f req)

/-- GET_CAPABILITIES: certificates, challenge, signed measurements. -/
def doGetCapabilities (f : Nat) (r : List Byte) (s : State) : State :=
  let v := rq r 0
  let s := if (getSpdm s f).st == .version && (v == 0x12 || v == 0x13) then putSpdm s f { getSpdm s f with ver := v } else s
  spdmReq s f r 0xE1 20 .version (fun s x =>
    let p := Config.spdmParam
    let a := leBytes 1 x.ver ++ [0x61, 0, 0, 0] ++ leBytes 1 (p 0) ++ [0, 0] ++ leBytes 4 0x16 ++ leBytes 4 (p 1) ++ leBytes 4 (p 2)
    emit (putSpdm s f { x with st := .caps, nego := x.nego ++ r ++ a }) (.doe f a))

/-- GET_CAPABILITIES. -/
def execGetCapabilities (f : Nat) (req : List Byte) (s : State) : Host.Outcome State Fault Refusal :=
  funcCmd s f (doGetCapabilities f req)

/-- NEGOTIATE_ALGORITHMS: ECDSA on P-521 (bit 8) and SHA-512 (bit 2), and no other. -/
def doNegotiate (f : Nat) (r : List Byte) (s : State) : State :=
  spdmReq s f r 0xE3 32 .caps (fun s x =>
    if !bitB (descN r 8 4) 8 || !bitB (descN r 12 4) 2 then spdmFail s f x.ver 0x01
    else
      let a := leBytes 1 x.ver ++ [0x63, 0, 0] ++ leBytes 2 36 ++ leBytes 1 (bits (rq r 6) 0 0) ++ [0] ++ leBytes 4 8 ++
        leBytes 4 0x100 ++ leBytes 4 4 ++ List.replicate 16 0
      emit (putSpdm s f { x with st := .algs, nego := x.nego ++ r ++ a }) (.doe f a))

/-- NEGOTIATE_ALGORITHMS. -/
def execNegotiateAlgorithms (f : Nat) (req : List Byte) (s : State) : Host.Outcome State Fault Refusal :=
  funcCmd s f (doNegotiate f req)

/-- An answer that joins the transcript of digests and certificates. -/
def certAnswer (s : State) (f : Nat) (x : Spdm) (r a : List Byte) : State :=
  emit (putSpdm s f { x with certs := x.certs ++ r ++ a, meas := [] }) (.doe f a)

/-- GET_DIGESTS: slot 0. -/
def doGetDigests (f : Nat) (r : List Byte) (s : State) : State :=
  spdmReq s f r 0x81 4 .algs (fun s x =>
    certAnswer s f x r (leBytes 1 x.ver ++ [0x01] ++ leBytes 1 (if x.ver = 0x13 then 1 else 0) ++ [1] ++ sha512 s.fuses.chain))

/-- GET_DIGESTS. -/
def execGetDigests (f : Nat) (req : List Byte) (s : State) : Host.Outcome State Fault Refusal :=
  funcCmd s f (doGetDigests f req)

/-- GET_CERTIFICATE: a portion of the chain of slot 0. -/
def doGetCertificate (f : Nat) (r : List Byte) (s : State) : State :=
  spdmReq s f r 0x82 8 .algs (fun s x =>
    let o := descN r 4 2
    let all := s.fuses.chain.length
    if bits (rq r 2) 3 0 ≠ 0 ∨ all ≤ o then spdmFail s f x.ver 0x01
    else
      let n := min (descN r 6 2) (all - o)
      certAnswer s f x r (leBytes 1 x.ver ++ [0x02, 0, 0] ++ leBytes 2 n ++ leBytes 2 (all - o - n) ++
        (s.fuses.chain.drop o).take n))

/-- GET_CERTIFICATE. -/
def execGetCertificate (f : Nat) (req : List Byte) (s : State) : Host.Outcome State Fault Refusal :=
  funcCmd s f (doGetCertificate f req)

/-- The bytes of a text. -/
def textBytes (t : String) : List Byte := t.toList.map (fun c => BitVec.ofNat 8 c.toNat)

/-- What a signature of version `v` covers: a prefix of 100 bytes that names its purpose, and the transcript's digest. -/
def signDigest (v : Nat) (purpose : String) (m : List Byte) : List Byte :=
  let p := textBytes (if v = 0x13 then "dmtf-spdm-v1.3.*" else "dmtf-spdm-v1.2.*")
  let c := textBytes purpose
  sha512 (p ++ p ++ p ++ p ++ List.replicate (36 - c.length) 0 ++ c ++ sha512 m)

/-- The device identity private key, derived from the unique device secret (R514). -/
def identityKey (s : State) : Nat := Config.deriveKey s.fuses.secret

/-- A signature of a transcript with the device identity key: 132 bytes. -/
def spdmSign (s : State) (v : Nat) (purpose : String) (m : List Byte) : List Byte :=
  fit 132 (Config.deviceSign (identityKey s) (signDigest v purpose m))

/-- The requester's context of version 1.3, at byte `o` of the request. -/
def spdmCtx (v : Nat) (r : List Byte) (o : Nat) : List Byte := if v = 0x13 then fit 8 (r.drop o) else []

/-- The summary of measurements that a CHALLENGE asks for: none, the trusted computing base, all. -/
def measSummary (s : State) (f t : Nat) : List Byte :=
  let is := (List.range 7).map (· + 1)
  if t = 0 then [] else sha512 ((if t = 1 then is.filter Config.spdmTcb else is).flatMap (measBlock s f))

/-- CHALLENGE: signed over the negotiation, digests and certificates, and itself. -/
def doChallenge (f : Nat) (r : List Byte) (s : State) : State :=
  spdmReq s f r 0x83 36 .algs (fun s x =>
    let t := rq r 3
    if bits (rq r 2) 3 0 ≠ 0 ∨ (t ≠ 0 ∧ t ≠ 1 ∧ t ≠ 0xFF) then spdmFail s f x.ver 0x01
    else
      let a := leBytes 1 x.ver ++ [0x03, 0, 1] ++ sha512 s.fuses.chain ++ fit 32 (Config.nonce s.fresh) ++ measSummary s f t ++
        [0, 0] ++ spdmCtx x.ver r 36
      let sg := spdmSign s x.ver "responder-challenge_auth signing" (x.nego ++ x.certs ++ r ++ a)
      emit (stepFresh (putSpdm s f { x with certs := [], meas := [] })) (.doe f (a ++ sg)))

/-- CHALLENGE. -/
def execChallenge (f : Nat) (req : List Byte) (s : State) : Host.Outcome State Fault Refusal :=
  funcCmd s f (doChallenge f req)

/-- GET_MEASUREMENTS: the number of indices, one index or all, signed where the request asks for it. -/
def doGetMeasurements (f : Nat) (r : List Byte) (s : State) : State :=
  let signed := bitB (rq r 2) 0
  spdmReq s f r 0xE0 (if signed then 37 else 4) .algs (fun s x =>
    let op := rq r 3
    if (7 < op ∧ op ≠ 0xFF) ∨ (signed = true ∧ bits (rq r 36) 3 0 ≠ 0) then spdmFail s f x.ver 0x01
    else
      let is := if op = 0 then [] else if op = 0xFF then (List.range 7).map (· + 1) else [op]
      let m := is.flatMap (measBlock s f)
      let a := leBytes 1 x.ver ++ [0x60] ++ leBytes 1 (if op = 0 then 7 else 0) ++ [0] ++ leBytes 1 is.length ++
        leBytes 3 m.length ++ m ++ fit 32 (Config.nonce s.fresh) ++ [0, 0] ++ spdmCtx x.ver r (if signed then 37 else 4)
      let l := x.meas ++ r ++ a
      let sg := if signed then spdmSign s x.ver "responder-measurements signing" (x.nego ++ l) else []
      emit (stepFresh (putSpdm s f { x with meas := if signed then [] else l })) (.doe f (a ++ sg)))

/-- GET_MEASUREMENTS. -/
def execGetMeasurements (f : Nat) (req : List Byte) (s : State) : Host.Outcome State Fault Refusal :=
  funcCmd s f (doGetMeasurements f req)

end Sys2Proof.Machine
end

