-- ==== Sys2Proof/Machine/BringUp.lean ====
section
/-! DEFINITION. Power-on and bring-up, turning off, the reference clock, the coolant sensors (R515, R546, R547, R549 to R562, R574,
R577, R583). -/

namespace Sys2Proof.Machine

/-! ### Findings (R546, R547, R551, R554)

A finding is a kind of R546, a cluster and a core; of kind 4 it is 32·stack + channel and a lane, command/address lanes from
256 on; of kind 3 the third number is the part that is dead: sequencer, scratchpad, attention unit, vector unit, link interface from
0 on. A cluster that the map names as dead compute has neither a link interface nor a scratchpad (DESIGN CHOICE, log entry 87). -/

/-- The findings that the shipped defect map names. -/
def dmapFound (s : State) : List (Nat × Nat × Nat) :=
  (dmapEntries s).map (fun e =>
    if dmapByte e 0 = 4 then (4, 32 * dmapByte e 1 + dmapByte e 2, 256 * dmapByte e 3 + dmapByte e 4)
    else (dmapByte e 0, dmapClu e, if dmapByte e 0 = 3 then 4 else dmapByte e 4))

/-- A cluster ends LOST at bring-up: no region exists yet, and no record is written. -/
def foundLost (s : State) (c : Nat) (byp dead : Bool) : State :=
  modClu s c (fun k => { k with lost := true, bypass := k.bypass || byp, ifDead := k.ifDead || dead })

/-- A dead core found: the spare takes the place of the first dead core, where that is one of cores 0 to 7; two dead cores lose the
cluster (R147, R554). -/
def foundCore (s : State) (c p : Nat) : State :=
  let k := getClu s c
  if k.dead.contains p then s
  else
    let dead := k.dead ++ [p]
    modClu s c (fun k => { k with dead := dead, spareUsed := k.spareUsed || (dead.length == 1 && decide (p < 8)), lost := k.lost || decide (1 < dead.length) })

/-- A stack lane found failing takes a spare; none left fails the stack. -/
def foundLane (s : State) (k ch : Nat) (ca : Bool) (l : Nat) : State :=
  match laneAdd (tabGet 0 (getStack s k).lanes ch) ca l with
  | some v => modStack s k (fun x => { x with lanes := tabSet x.lanes ch v })
  | none => modStack s k (fun x => { x with st := .failed })

/-- One finding; clusters of a fenced die are skipped. -/
def foundOne (s : State) (p : Nat × Nat × Nat) : State :=
  let c := p.2.1
  let skip := s.hub.fenced.contains (dieOf c)
  if p.1 = 4 then foundLane s (c / 32) (c % 32) (decide (256 ≤ p.2.2)) (p.2.2 % 256)
  else if p.1 = 1 then (if skip then s else foundCore s c p.2.2)
  else if p.1 = 2 then (if skip then s else foundLost s c true false)
  else if p.1 = 3 then (if skip then s else foundLost s c false (p.2.2 == 1 || p.2.2 == 4))
  else s

/-- A die fenced at bring-up, without a record; its stack is FAILED (R551). -/
def foundDie (s : State) (d : Nat) : State :=
  if s.hub.fenced.contains d then s
  else
    let s := { s with hub.fenced := s.hub.fenced ++ [d] }
    let s := (dieClusters d).foldl (fun s c => modClu s c (fun k => { k with lost := true, stationOff := true })) s
    match dieStack d with | some k => modStack s k (fun x => { x with st := .failed }) | none => s

/-- Wires that bring-up finds failing: two spares in each direction replace them; where more fail, the compute die of a channel to the
hub is fenced, else the die with the higher ID (R551). -/
def foundChan (s : State) (x : ChanFind) : State :=
  if 2 < x.out ∨ 2 < x.back then foundDie s (match x.peer with | none => x.die | some d => max x.die d) else s

/-- HUB_BOOT.NLOST counted. -/
def countLost (s : State) : State := { s with mng.nlost := (s.cl.clus.filter (fun p => p.2.lost)).length }

/-! ### Measured boot (R515) -/

/-- The copy that boots: the one that the flash header names, else the other. -/
def bootCopy (s : State) : Option Bool :=
  if copyBoots s s.fuses.headB then some s.fuses.headB
  else if copyBoots s (!s.fuses.headB) then some (!s.fuses.headB) else none

/-- The stewards that do not start run under their floor governors. -/
def stwNotStarted (s : State) (ks : List Nat) : State :=
  if ks.isEmpty then s
  else
    let own := fun c => ks.contains (stwOfClu c)
    retuneAll (modClus { s with pow.stwFail := ks } own (fun _ v => { v with caps := tabSet v.caps 3 28 })) own

/-- The stewards start, but for those whose image fails. -/
def bootStewards (s : State) (bad : List Nat) : State :=
  match bootCopy s with
  | none => stwNotStarted s [0, 1, 2, 3]
  | some b =>
    let s := { s with sec.bootB := b, sec.svn := if b then s.fuses.svnB else s.fuses.svnA, sec.dig := if b then s.fuses.digB else s.fuses.digA }
    stwNotStarted s ((List.range 4).filter (fun k => bad.contains k))

/-! ### Bring-up (R549 to R556) -/

/-- The module as power-on leaves it before anything is found: the input at `mv` millivolts, fuses and flash as they are. -/
def poweredOn (s : State) (mv : Nat) : State :=
  { State.reset with
    pending := s.pending
    pow := { powerReset with vin := min 65535 (mv / 10) }
    fuses := s.fuses
    mng := { manageReset with testing := true, hjWant := true, linkUp := false, perst := false }
    host := s.host
    fresh := s.fresh
    out := s.out }

/-- The hub die fails its own self-test: a finding of kind 5. -/
def hubFails (found : List (Nat × Nat × Nat)) : Bool := found.any (fun p => p.1 == 5)

/-- Steps 1 to 6 of R550: channels and links whose wires fail, stacks that fail to train, stewards whose image fails, and what the
structural self-test finds beside the defect map. -/
def doPowerOn (mv : Nat) (found : List (Nat × Nat × Nat)) (dies : List ChanFind) (stks stw : List Nat) (s : State) : State :=
  let s := bootStewards (poweredOn s mv) stw
  let s := stks.foldl (fun s k => modStack s k (fun x => { x with st := .failed })) s
  let s := dies.foldl foundChan s
  countLost ((dmapFound s ++ found).foldl foundOne s)

/-- Step 8: what the at-speed self-test finds; rounds whose steward has failed ran slowly. -/
def doAtSpeed (found : List (Nat × Nat × Nat)) (s : State) : State :=
  let s := countLost (found.foldl foundOne s)
  { s with mng.testing := false, mng.slow := s.pow.stwFail }

/-- A finding names a part that exists. -/
def foundOk (p : Nat × Nat × Nat) : Bool :=
  if p.1 = 4 then decide (p.2.1 < 512) else decide (p.2.1 < Config.clusters) && (p.1 != 1 || decide (p.2.2 < 9)) && (p.1 != 3 || decide (p.2.2 < 5))

/-- Bring-up goes on with step 7, the endpoint's link, once PERST# has been deasserted, and then with step 8 (R550, R552). -/
def bringOn (found : List (Nat × Nat × Nat)) (s : State) : State :=
  if !s.mng.testing || s.pow.shut.isSome || s.mng.hubBad then s
  else if s.mng.linkUp then doAtSpeed found s
  else if s.mng.perst then { s with mng.linkUp := true } else s

/-- BRING_UP: of a module that is off, with 42 V or more and after PWR_EN has been deasserted for at least 100 ms
(R495, R549), steps 1 to 6, of which a failing hub die carries out none further; of a module in TESTING, the next of steps 7 and 8
(log entry 42). -/
def execBringUp (p : PwrIn) (found : List (Nat × Nat × Nat)) (dies : List ChanFind) (stks stw : List Nat) (s : State) :
    Host.Outcome State Fault Refusal :=
  if !found.all foundOk then .fault .noSuchAddress
  else if !dies.all (fun x => decide (x.die < Config.dies) && decide (x.peer.getD 0 < Config.dies)) then .fault .noSuchDie
  else if !stks.all (fun k => decide (k < Config.stacks)) then .fault .noSuchStack
  else if !stw.all (fun k => decide (k < 4)) then .fault .noSuchSteward
  else .next (
    if s.pow.on then bringOn found s
    else if p.mv < 42000 ∨ p.off < 100 then s
    else if hubFails found then
      let s := poweredOn s p.mv
      { s with mng.hubBad := true, pow.pwrGood := false }
    else doPowerOn p.mv found dies stks stw s)

/-- A cause that stops bring-up: the hub die's failure, the reference's absence, PERST# deasserted with no link. The command's sender
sees their times run out (R553). -/
def stopCause (s : State) : Bool := s.mng.hubBad || s.clock.holdover || (s.mng.perst && !s.mng.linkUp)

/-- Bring-up stops: ALERT is asserted, PWR_GOOD deasserted, and the shutdown of R495 follows (R553). -/
def doBringUpStop (s : State) : State :=
  if !s.pow.on || !s.mng.testing || s.pow.shut.isSome || !stopCause s then s
  else { s with pow := { s.pow with alert := true, pwrGood := false, shut := some false } }

/-- BRING_UP_STOP. -/
def execBringUpStop (s : State) : Host.Outcome State Fault Refusal := .next (doBringUpStop s)

/-- PWR_EN_DEASSERT: for 10 µs (R561). -/
def execPwrEnDeassert (s : State) : Host.Outcome State Fault Refusal := hubCmd s (fun s => causeShut s false)

/-! ### Reference and coolant (R577, R583) -/

/-- REFERENCE_LOSS: holdover begins. -/
def execReferenceLoss (s : State) : Host.Outcome State Fault Refusal :=
  hubCmd s (fun s => { markSet s aClkStat (2 ^ 31) with clock := { s.clock with refLoss := true, holdover := true } })

/-- HOLDOVER_EXIT: the reference has been present for 1 ms. -/
def execHoldoverExit (s : State) : Host.Outcome State Fault Refusal :=
  hubCmd s (fun s => { s with clock := { s.clock with holdover := false } })

/-- COOLANT_SENSOR_READ. -/
def execCoolantSensorRead (tin tout : Int) (s : State) : Host.Outcome State Fault Refusal :=
  hubCmd s (fun s => { s with pow := { s.pow with tin := tin, tout := tout } })

/-! ### Registers (R562, R585) -/

/-- HUB_BOOT. -/
def hubBoot (s : State) : Nat :=
  natSum (s.mng.slow.map (fun k => 2 ^ (28 + k))) + s.mng.nlost * 1024 + (if s.mng.testing then 1 else 2)

/-- HUB_COOL. -/
def hubCool (s : State) : Nat := codeOf 8 s.pow.tout * 2 ^ 24 + codeOf 8 s.pow.tin * 2 ^ 16

/-- HUB_CLKSTAT. -/
def clkStat (s : State) : Nat := b2n s.clock.refLoss * 2 ^ 31 + b2n s.clock.holdover * 2 ^ 30

end Sys2Proof.Machine
end

