-- ==== Sys2Proof/Machine/I3c.lean ====
section
/-! DEFINITION. The management bus: the I3C target and PLDM (R557 to R559). The event bits of ENEC and DISEC, the order of an
answer's bytes and the headers of a PLDM message are MIPI's and DMTF's (log entry 40). -/

namespace Sys2Proof.Machine

/-- PID [31:0]: the low half of the mixed serial number. -/
def pidLow (s : State) : Nat := (mix64 (BitVec.ofNat 64 s.fuses.serial)).toNat % 2 ^ 32

/-- The 48 bits of the PID. -/
def pid48 (s : State) : Nat := (0x1C6B * 2 + 1) * 2 ^ 32 + pidLow s

/-- BCR and DCR. -/
def bcr : Nat := 0x06
def dcr : Nat := 0x00

/-- HUB_I3C. -/
def hubI3c (s : State) : Nat :=
  pidLow s * 2 ^ 32 + (match s.mng.da with | some a => 0x80 + a % 128 | none => 0)

/-- The target answers on the bus. -/
def i3cSay (s : State) (b : List Byte) : State := emit s (.i3c b)

/-- A CCC sent to the target's dynamic address; without one it does not answer. -/
def i3cDirect (s : State) (g : State → State) : Host.Outcome State Fault Refusal :=
  hubCmd s (fun s => if s.mng.da.isSome then g s else s)

/-- ENTDAA: a target without an address sends PID, BCR and DCR, and takes the address. -/
def doEntdaa (a : Nat) (s : State) : State :=
  if s.mng.da.isSome then s
  else i3cSay { s with mng.da := some (a % 128), mng.hjWant := false } (beBytes 6 (pid48 s) ++ beBytes 1 bcr ++ beBytes 1 dcr)

/-- ENTDAA. -/
def execEntdaa (a : Nat) (s : State) : Host.Outcome State Fault Refusal := hubCmd s (doEntdaa a)

/-- RSTDAA: the address is dropped, and Hot-Join is requested again. -/
def execRstdaa (s : State) : Host.Outcome State Fault Refusal :=
  hubCmd s (fun s => { s with mng.da := none, mng.hjWant := true })

/-- SETNEWDA. -/
def execSetnewda (a : Nat) (s : State) : Host.Outcome State Fault Refusal :=
  i3cDirect s (fun s => { s with mng.da := some (a % 128) })

/-- GETPID. -/
def execGetpid (s : State) : Host.Outcome State Fault Refusal := i3cDirect s (fun s => i3cSay s (beBytes 6 (pid48 s)))

/-- GETBCR. -/
def execGetbcr (s : State) : Host.Outcome State Fault Refusal := i3cDirect s (fun s => i3cSay s (beBytes 1 bcr))

/-- GETDCR. -/
def execGetdcr (s : State) : Host.Outcome State Fault Refusal := i3cDirect s (fun s => i3cSay s (beBytes 1 dcr))

/-- GETSTATUS. -/
def execGetstatus (s : State) : Host.Outcome State Fault Refusal :=
  i3cDirect s (fun s => stepFresh (i3cSay s (beBytes 2 (Config.i3cStatus s.fresh))))

/-- Target events of a mask, in-band interrupts (bit 0) and Hot-Join (bit 3), are enabled or disabled. -/
def setEvents (mask : Nat) (on : Bool) (s : State) : State :=
  { s with
    mng.ibiEn := if bitB mask 0 then on else s.mng.ibiEn
    mng.hjEn := if bitB mask 3 then on else s.mng.hjEn }

/-- ENEC. -/
def execEnec (mask : Nat) (s : State) : Host.Outcome State Fault Refusal := hubCmd s (setEvents mask true)

/-- DISEC. -/
def execDisec (mask : Nat) (s : State) : Host.Outcome State Fault Refusal := hubCmd s (setEvents mask false)

/-- A Hot-Join request, unless it is disabled: the reserved address 2. -/
def doHotJoin (s : State) : State :=
  if s.mng.hjWant && s.mng.hjEn && s.mng.da.isNone then i3cSay { s with mng.hjWant := false } [0x04] else s

/-- HOT_JOIN. -/
def execHotJoin (s : State) : Host.Outcome State Fault Refusal := hubCmd s doHotJoin

/-- The header of the response to a PLDM request: its three bytes with the request bit clear. -/
def pldmHead (r : List Byte) : List Byte := (nth 0 r 0 &&& 0x7F) :: (r.drop 1).take 2

/-- A PLDM request: steward 0 answers; while it has not started or restarts, ERROR_NOT_READY. -/
def doPldm (r : List Byte) (s : State) : State :=
  if stwIsDown s 0 then i3cSay s (pldmHead r ++ [0x04])
  else stepFresh (i3cSay s (pldmHead r ++ Config.pldmAnswer s.fresh r))

/-- PLDM_REQUEST. -/
def execPldmRequest (req : List Byte) (s : State) : Host.Outcome State Fault Refusal := i3cDirect s (doPldm req)

end Sys2Proof.Machine
end

