-- ==== Sys2Proof/Machine/RegRead.lean ====
section
/-! DEFINITION. Reading registers and the windows of BAR0 (R18, R19, R21, R303, R382, R586 to R597, and the register maps of the
chapters). -/

namespace Sys2Proof.Machine

/-! ### Where an address lies (R586) -/

/-- An address of the TEN block, of a CLU block, of the LNK, MEM and DBG blocks, of the HUB block. -/
def inTen (a : Nat) : Bool := decide (0x10_0000 ≤ a) && decide (a < 0x14_0000)
def inClu (a : Nat) : Bool := decide (cluAddr 0 0 ≤ a) && decide (a < cluAddr 1536 0)
def inLnk (a : Nat) : Bool := decide (0x14_0000 ≤ a) && decide (a < 0x16_0000)
def inMem (a : Nat) : Bool := decide (0x16_0000 ≤ a) && decide (a < 0x16_2000)
def inEmu (a : Nat) : Bool := decide (0x17_0000 ≤ a) && decide (a < 0x17_1000)
def inDbg (a : Nat) : Bool := decide (0x18_0000 ≤ a) && decide (a < 0x18_1000)

/-- Cluster and offset of an address of a CLU block. -/
def cluOfAddr (a : Nat) : Nat := (a - cluAddr 0 0) / 0x1000
def cluOff (a : Nat) : Nat := a % 0x1000

/-- The windows of R587, and the MSI-X table and PBA. -/
inductive Win where
  | key | desc | dmap | fw | rt | dbg | msix | pba
  deriving DecidableEq, Repr

/-- First address and size of a window. -/
def winBase (w : Win) : Nat :=
  match w with
  | .key => 0x3000 | .desc => 0x1_0000 | .dmap => 0x2_0000 | .fw => 0x400_0000 | .rt => lnkAddr 0x1_0000 | .dbg => 0x200_0000
  | .msix => 0x19_0000 | .pba => 0x19_8000
def winSize (w : Win) : Nat :=
  match w with
  | .key => 0x1000 | .desc => 0xE000 | .dmap => 0x1_0000 | .fw => 2 ^ 25 | .rt => 0x1_0000 | .dbg => 2 ^ 25
  | .msix => 0x8000 | .pba => 0x100

/-- The window that holds an address. -/
def winOf (a : Nat) : Option Win :=
  [Win.key, .desc, .dmap, .fw, .rt, .dbg, .msix, .pba].find? (fun w => decide (winBase w ≤ a) && decide (a < winBase w + winSize w))

/-- The key of a register's address for the accessing function. -/
def keyOf (f a : Nat) : Nat := if inTen a then 0x1000_0000 * f + a else a

/-- A 64-bit register begins at the address. -/
def is64 (a : Nat) : Bool :=
  if a % 8 ≠ 0 then false
  else if inTen a then
    let o := a - 0x10_0000
    [0x8, 0x18, 0x40, 0x50].contains o || (decide (0x800 ≤ o) && decide (o < 0xA00)) || (decide (0x1000 ≤ o) && decide (o < 0x2000)) ||
      (decide (0x1_0000 ≤ o) && decide (o < 0x3_0000) && decide (o % 32 < 16))
  else if inClu a then
    let o := cluOff a
    decide (o < 0x800) || (decide (0x8C0 ≤ o) && decide (o < 0x8E0)) || (decide (0x900 ≤ o) && decide (o < 0x950)) ||
      (decide (0x9C0 ≤ o) && decide (o < 0x9E0)) || (decide (0xB00 ≤ o) && decide (o < 0xB40)) || o == 0xB80
  else if inLnk a then
    let o := a - 0x14_0000
    decide (0x100 ≤ o) && decide (o < 0x300) && [0x10, 0x18, 0x20].contains (o % 64)
  else if inMem a then
    let o := a - 0x16_0000
    o == 8 || (decide (0x1000 ≤ o) && [0x18, 0x20].contains (o % 256))
  else if inDbg a then decide (a - 0x18_0000 < 16)
  else [0x8, 0x18, 0x20, 0x30, 0x50, 0x148, 0x180].contains a || (decide (0x2400 ≤ a) && decide (a < 0x2440))

/-- A 32-bit counter of type RC lies at the address. -/
def isRc32 (a : Nat) : Bool :=
  if a % 4 ≠ 0 then false
  else if inTen a then [oDbDrop, oAperDrop, oFrLost, oEphLost].contains (a - 0x10_0000)
  else if inClu a then
    let o := cluOff a
    let within := fun lo hi => decide (lo ≤ o) && decide (o ≤ hi)
    within 0x814 0x828 || within 0x850 0x85C || within 0x880 0x888 || within 0x890 0x8B4 || within 0x980 0x9A0 || within 0x9E4 0x9F0 ||
      within 0xA00 0xA10 || within 0xA40 0xA4C || within 0xA84 0xA8C || within 0xAC4 0xAC8 || within 0xB40 0xB5C
  else if inLnk a then
    let o := a - 0x14_0000
    (decide (0x40 ≤ o) && decide (o < 0x60)) || (decide (0x100 ≤ o) && decide (o < 0x300) && [0xC, 0x28, 0x2C].contains (o % 64))
  else if inMem a then
    let o := a - 0x16_0000
    decide (0x1000 ≤ o) && [0x8, 0xC, 0x10].contains (o % 256)
  else [aEmuWdrop, aStwRestart, aThermPark, aNoReach, aDspWarm, aDspCold, aMbxDrop, aPfxMatch, aPfxEvict, aPfxUnder].contains a

/-- A 64-bit counter of type RC begins at the address. -/
def isRc64 (a : Nat) : Bool := inClu a && decide (0x900 ≤ cluOff a) && decide (cluOff a < 0x950)

/-- A log of type RC begins at the address: MEM_STKn_CELOG or MEM_STKn_UELOG. -/
def isLog (a : Nat) : Bool := inMem a && is64 a && a != aSave

/-! ### Who reads what (R382, R589, R590) -/

/-- The slot of a per-slot register of a CLU block. -/
def slotOfReg (o : Nat) : Option Nat :=
  if 0x800 ≤ o ∧ o < 0x810 then some ((o - 0x800) / 4)
  else if 0x840 ≤ o ∧ o < 0x850 then some ((o - 0x840) / 4)
  else if 0x8C0 ≤ o ∧ o < 0x8E0 then some ((o - 0x8C0) / 8)
  else if 0x9C0 ≤ o ∧ o < 0x9E0 then some ((o - 0x9C0) / 8)
  else if 0xB00 ≤ o ∧ o < 0xB20 then some ((o - 0xB00) / 8)
  else if 0xB20 ≤ o ∧ o < 0xB40 then some ((o - 0xB20) / 8)
  else if 0xB40 ≤ o ∧ o < 0xB60 then some ((o - 0xB40) / 4 % 4)
  else none

/-- Entry `i` of a cluster's accord table. -/
def accEnt (s : State) (c i : Nat) : Nat := (tabGet 0 (getClu s c).acc i).toNat

/-- Function `f` reads offset `o` of cluster `c`'s block. -/
def mayClu (s : State) (f c o : Nat) : Bool :=
  match slotOfReg o with
  | some n => slotReach s f c n
  | none =>
    if o < 0x800 then slotReach s f c (bits (accEnt s c (o / 8)) 63 62)
    else if o = 0xACC ∨ (0xB80 ≤ o ∧ o < 0xB8C) then cluReach s f c
    else wideReach s f c

/-- Function `f` reads the address; a virtual function has its TEN block, its MSI-X table and PBA, the region descriptors, and
CLU blocks. -/
def mayRead (s : State) (f a : Nat) : Bool :=
  if inClu a then mayClu s f (cluOfAddr a) (cluOff a)
  else f == 0 || inTen a || (match winOf a with | some .desc => true | some .msix => true | some .pba => true | _ => false)

/-! ### Values of 32-bit registers -/

/-- A mask of the numbers of a list. -/
def maskOf (l : List Nat) : Nat := natSum ((uniq l).map (fun k => 2 ^ k))

/-- HUB_LOAD_STAT (R377). -/
def loadStat (s : State) : Nat :=
  let waiting := s.hub.loadQ.length
  match headJob s with
  | none => 0
  | some j =>
    let ph := if j.unload then 4 else match j.phase with | .idle => 0 | .validation => 1 | .commit => 2 | .unwind => 3 | .unload => 4
    if ph = 0 then waiting else 2 ^ 31 + ph * 2 ^ 28 + j.f * 2 ^ 16 + (waiting - 1)

/-- HUB_CLU_MAPi: one nibble for each of eight clusters (R314). -/
def cluMap (s : State) (i : Nat) : Nat :=
  natSum ((List.range 8).map (fun n =>
    let k := getClu s (8 * i + n)
    (8 * b2n k.bypass + 4 * b2n k.share + cluState s (8 * i + n)) * 16 ^ n))

/-- HUB_FTC_STAT (R489). -/
def ftcStat (s : State) : Nat :=
  let k := s.clock
  b2n k.loss * 2 ^ 31 + b2n k.pulseErr * 2 ^ 30 + b2n k.lock * 2 ^ 16 + codeOf 16 (max (-32767) (min 32767 k.res))

/-- A 32-bit register of the HUB block that is no counter. -/
def hubVal (s : State) (a : Nat) : Nat :=
  if a = aHubStat then b2n s.pow.emuDown * 2 ^ 31 + maskOf s.pow.stwFail * 2 ^ 8 + maskOf s.pow.stwDown
  else if a = 0x10 then hubBoot s
  else if a = aFtcStat then ftcStat s
  else if a = aClkStat then clkStat s
  else if a = 0x44 then hubCool s
  else if a = aSupply then b2n s.pow.brown * 2 ^ 31 + b2n s.pow.brSeen * 2 ^ 30 + s.pow.vin
  else if a = 0x80 then secStat s
  else if a = 0x84 then b2n s.sec.keylock * 2 ^ 31
  else if a = aDieFence then b2n s.hub.fenceRefused * 2 ^ 31 + maskOf s.hub.fenced
  else if a = aRsvCtl then b2n s.hub.rsvRefused * 2 ^ 31 + s.hub.rsvCount
  else if a = 0x140 then loadStat s
  else if a = aWinStat then b2n s.hub.winPend.isSome * 2 ^ 31 + b2n s.hub.winRefused * 2 ^ 30 + s.hub.winReason
  else if a = aFtcCtl ∨ a = aPfVec then reg s a
  else if 0x1000 ≤ a ∧ a < 0x2000 then
    let f := (a - 0x1000) / 4
    b2n (s.hub.qaRefused.contains f) * 2 ^ 31 + reg s (aQAssign f)
  else if 0x2000 ≤ a ∧ a < 0x2300 then cluMap s ((a - 0x2000) / 4)
  else if 0x2300 ≤ a ∧ a < 0x23C0 then
    let i := (a - 0x2300) / 4
    b2n (tabFind s.hub.rmap i).isSome * 2 ^ 31 + tabGet 0 s.hub.rsrc i
  else if a = aGstat then b2n s.hub.grantRefused * 2 ^ 31 + maskOf ((List.range 8).filter (grantUsed s))
  else if 0x2480 ≤ a ∧ a < 0x2500 then
    let i := (a - 0x2480) / 4
    maskOf ((List.range 32).filter (fun n => (getFunc s (32 * i + n)).hbexp))
  else 0

/-- A queue's STATE. -/
def queueCode (s : State) (f q : Nat) : Nat := qstCode (getQueue s f q).st

/-- A 32-bit register of function `f`'s TEN block that is no counter. -/
def tenVal (s : State) (f o : Nat) : Nat :=
  if o = 0 then qaCount s f * 2 ^ 16 + qaBase s f
  else if o = oTenStat then
    let k := getFunc s f
    b2n k.hbexp * 2 ^ 31 + b2n (!k.bme) * 2 ^ 30 + b2n k.flrbusy * 2 ^ 29 + b2n k.frovf * 2 ^ 28 + b2n k.cqlost * 2 ^ 27
  else if o = oFrCfg ∨ o = oHbCtl ∨ o = oEphCfg ∨ o = oDbgCon then tenReg s f o
  else if 0x1_0000 ≤ o ∧ o < 0x2_0000 ∧ o % 32 = 16 then
    let q := (o - 0x1_0000) / 32
    if queueLives s f q then tenReg s f o + queueCode s f q * 2 ^ 28 else 0
  else if 0x2_0000 ≤ o ∧ o < 0x3_0000 ∧ o % 32 = 16 then
    let r := (o - 0x2_0000) / 32
    let k := getRing s f r
    tenReg s f o + b2n (k.en && sub32 k.tail k.head == cqSize s f r) * 2 ^ 30
  else 0

/-- CLU_CTX_CLASS: the fields of the slots that function `f` reaches. -/
def ctxClass (s : State) (f c : Nat) : Nat :=
  natSum ((List.range 4).map (fun n => if slotReach s f c n then clsCode (getSlot s c n).cls * 4 ^ n else 0))

/-- CLU_SEQ_STATn (R188). -/
def seqStat (s : State) (c n : Nat) : Nat :=
  let k := getSlot s c n
  let st := match k.st with | .empty => 0 | .running => 1 | .waiting => 2 | .faulted => 3 | .halted => 4
  let why := match k.why with | .none => 0 | .overlap => 1 | .room => 2 | .waitc => 3 | .waitop => 4 | .fence => 5 | .interlock => 6
  k.pc.toNat * 2 ^ 18 + why * 16 + st

/-- A 32-bit register of cluster `c`'s block that is no counter. -/
def cluVal (s : State) (f c o : Nat) : Nat :=
  let k := getClu s c
  if 0x800 ≤ o ∧ o < 0x810 then
    let x := getSlot s c ((o - 0x800) / 4)
    if x.pvalid then 2 ^ 31 + x.pcount * 16 + x.pbase else 0
  else if o = 0x810 then k.fence
  else if o = 0x82C then 2 * b2n (k.spareUsed || k.dead.contains 8 || spareShort k) + b2n k.spareUsed
  else if 0x840 ≤ o ∧ o < 0x850 then seqStat s c ((o - 0x840) / 4)
  else if o = oPrecCtl ∨ o = oSplit then cluReg s c o
  else if o = 0xA80 then k.sfreq * 256 + 2 * b2n (stationRouted s c) + b2n (islStopped k)
  else if o = 0xACC then ctxClass s f c
  else if o = 0xB88 then islStat s c
  else 0

/-- A 32-bit register of the LNK block that is no counter. -/
def lnkVal (s : State) (o : Nat) : Nat :=
  if o = 0 then b2n s.lnk.dup * 2 ^ 31 + s.lnk.epoch * 2 ^ 16 + s.lnk.node
  else if o = 4 then reg s aLnkCtl
  else if 0x100 ≤ o ∧ o < 0x300 then
    let n := (o - 0x100) / 64
    let p := getPort s n
    if o % 64 = 0 then portCtl s n
    else if o % 64 = 4 then b2n p.peerchg * 2 ^ 31 + p.groups * 2 ^ 8 + portCode p.st
    else if o % 64 = 8 then p.pport * 2 ^ 16 + p.pnode
    else 0
  else if 0x1000 ≤ o ∧ o < 0x2000 then reg s (lnkAddr o)
  else 0

/-- Spares in use of a stack's channels: data and check, command and address. -/
def dataSpares (k : Stack) : Nat := natSum (k.lanes.map (fun p => bit p.2 31 + bit p.2 23))
def caSpares (k : Stack) : Nat := natSum (k.lanes.map (fun p => bit p.2 15))

/-- A 32-bit register of the MEM block that is no counter. -/
def memVal (s : State) (o : Nat) : Nat :=
  if o = 0 then reg s aPrio
  else if o = 0x10 then natSum (s.mem.scrub.map (fun j => ceilDiv j.n unit2M))
  else if 0x1000 ≤ o ∧ o < 0x2000 then
    let k := getStack s ((o - 0x1000) / 256)
    let i := o % 256
    if i = 0 then
      let st := match k.st with | .training => 0 | .ready => 1 | .retrain => 2 | .failed => 3
      codeOf 8 k.temp * 2 ^ 24 + dataSpares k * 2 ^ 17 + caSpares k * 2 ^ 11 + st
    else if i = 4 then 2 * b2n k.patrol
    else if 0x80 ≤ i then tabGet 0 k.lanes ((i - 0x80) / 4)
    else 0
  else 0

/-- DBG_SEL. -/
def aDbgSel : Nat := dbgAddr 0x20

/-- A 32-bit register of the DBG block. -/
def dbgVal (s : State) (a : Nat) : Nat :=
  if a = aEclStat then b2n s.ecl.refused * 2 ^ 31 + b2n s.ecl.flrres * 2 ^ 30 + eclCode s.ecl.st
  else if a = aDbgSel then reg s a
  else 0

/-- The value of a 32-bit register that is no counter, as function `f` reads it; 0 at a reserved offset (R21). -/
def val32 (s : State) (f a : Nat) : Nat :=
  if inTen a then tenVal s f (a - 0x10_0000)
  else if inClu a then cluVal s f (cluOfAddr a) (cluOff a)
  else if inLnk a then lnkVal s (a - 0x14_0000)
  else if inMem a then memVal s (a - 0x16_0000)
  else if inDbg a then dbgVal s a
  else hubVal s a

/-! ### Values of 64-bit registers -/

/-- A 64-bit register of function `f`'s TEN block. -/
def tenVal64 (s : State) (f o : Nat) : Nat :=
  let k := getFunc s f
  if o = oFrAddr ∨ o = oEphAddr then tenReg s f o
  else if o = 0x18 then k.frTail * 2 ^ 32 + k.frHead
  else if o = 0x50 then k.ephTail * 2 ^ 32 + k.ephHead
  else if 0x800 ≤ o ∧ o < 0xA00 then
    (match tabFind k.wins ((o - 0x800) / 8) with | some w => 2 ^ 63 + w.size * 2 ^ 20 + w.tbase | none => 0)
  else if 0x1000 ≤ o ∧ o < 0x2000 then tenReg s f o
  else if 0x1_0000 ≤ o ∧ o < 0x2_0000 then
    let q := (o - 0x1_0000) / 32
    if !queueLives s f q then 0
    else if o % 32 = 0 then tenReg s f o
    else (getQueue s f q).tail * 2 ^ 32 + (getQueue s f q).head
  else if 0x2_0000 ≤ o ∧ o < 0x3_0000 then
    let r := (o - 0x2_0000) / 32
    if o % 32 = 0 then tenReg s f o else (getRing s f r).tail * 2 ^ 32 + (getRing s f r).head
  else 0

/-- A 64-bit register of cluster `c`'s block that is no counter. -/
def cluVal64 (s : State) (c o : Nat) : Nat :=
  if o < 0x800 then accEnt s c (o / 8)
  else if 0x8C0 ≤ o ∧ o < 0x8E0 then
    let k := getSlot s c ((o - 0x8C0) / 8)
    (k.seedPend.getD k.seed).toNat
  else if 0x9C0 ≤ o ∧ o < 0x9E0 then
    (match (getSlot s c ((o - 0x9C0) / 8)).kvdir with | some a => a / 64 * 64 + 1 | none => 0)
  else if 0xB00 ≤ o ∧ o < 0xB20 then cluReg s c o
  else if 0xB20 ≤ o ∧ o < 0xB40 then
    let t := (getSlot s c ((o - 0xB20) / 8)).trc
    t.tail * 2 ^ 32 + t.head
  else if o = 0xB80 then perfCyc s c % 2 ^ 64
  else 0

/-- A 64-bit register of the HUB block. -/
def hubVal64 (s : State) (a : Nat) : Nat :=
  if a = 0x8 then s.fuses.serial % 2 ^ 64
  else if a = 0x18 then hubI3c s
  else if a = 0x20 then s.clock.ftc % 2 ^ 64
  else if a = aFtcArm ∨ a = aWinArg then reg s a
  else if a = 0x50 then s.pow.uj
  else if a = aLoadBytes then ctr s a
  else if 0x2400 ≤ a ∧ a < 0x2440 then grantNext s ((a - 0x2400) / 8)
  else 0

/-- The value of a 64-bit register that is no counter and no log. -/
def val64 (s : State) (f a : Nat) : Nat :=
  if inTen a then tenVal64 s f (a - 0x10_0000)
  else if inClu a then cluVal64 s (cluOfAddr a) (cluOff a)
  else if inLnk a then
    let o := a - 0x14_0000
    let p := getPort s ((o - 0x100) / 64)
    if o % 64 = 0x10 then p.pser else if o % 64 = 0x18 then p.theta else p.delta
  else if inMem a then b2n s.mem.saveRefused * 2 ^ 63 + saveSize s * 2 ^ 20 + saveBase s
  else if inDbg a then reg s a
  else hubVal64 s a

/-! ### Counters of type RC (R18, R19) -/

/-- A read of the counter at key `a`: its value before the present event tick's increments, which stay and count from 0. -/
def rcRead (s : State) (a : Nat) : State × Nat :=
  let (v, k) := nowCount s a
  let s := nowSync s
  ({ s with ctrs := tabPut 0 s.ctrs a k, nowCtr := if k = 0 then tabDel s.nowCtr a else tabSet s.nowCtr a (0, k) }, v)

/-- A read of a whole 32-bit register. -/
def read32 (s : State) (f a : Nat) : State × Nat :=
  if !mayRead s f a then (s, 0)
  else if isRc32 a then rcRead s (keyOf f a)
  else if is64 (a / 8 * 8) then (s, 0)
  else (s, val32 s f a)

/-- A read of a whole 64-bit register. -/
def read64 (s : State) (f a : Nat) : State × Nat :=
  if !mayRead s f a then (s, 0)
  else if isRc64 a then rcRead s a
  else if isLog a then ({ s with ctrs := tabPut 0 s.ctrs a 0 }, ctr s a)
  else (s, val64 s f a)

/-! ### Windows (R303, R522, R546, R586, R587) -/

/-- Byte `i` of a region descriptor. -/
def descByte (d : Region) (i : Nat) : Nat :=
  if i = 0 then 1 + 2 * b2n d.pipe + 4 * b2n d.shared + 8 * b2n d.degraded
  else if i = 2 ∨ i = 3 then bits d.f (8 * (i - 2) + 7) (8 * (i - 2))
  else if i = 4 then (if d.pipe then d.x0 else 0)
  else if i = 5 then (if d.pipe then d.y0 else 0)
  else if i = 6 then (if d.pipe then d.w else 0)
  else if i = 7 then (if d.pipe then d.h else 0)
  else if i = 8 ∨ i = 9 then bits d.members.length (8 * (i - 8) + 7) (8 * (i - 8))
  else if i = 10 then (if d.pipe then d.grant % 256 else 0xFF)
  else if 16 ≤ i ∧ i < 24 then bits d.loadftc (8 * (i - 16) + 7) (8 * (i - 16))
  else 0

/-- Byte `i` of the member bitmap of a pool region. -/
def memberByte (d : Region) (i : Nat) : Nat :=
  if d.pipe then 0 else maskOf ((List.range 8).filter (fun b => d.members.contains (8 * i + b)))

/-- Byte `o` of the HUB_RGN_DESC window, as function `f` reads it. -/
def rgnByte (s : State) (f o : Nat) : Nat :=
  let r := if o < 0x2000 then o / 32 else (o - 0x2000) / 192
  match getRegion s r with
  | none => 0
  | some d => if f ≠ 0 ∧ d.f ≠ f then 0 else if o < 0x2000 then descByte d (o % 32) else memberByte d ((o - 0x2000) % 192)

/-- Byte `o` of a function's MSI-X table: the mask bit of an entry is 1 after reset (log entry 32). -/
def msixByte (s : State) (f o : Nat) : Nat :=
  let v := memGet (getFunc s f).msix o
  (if o % 16 = 12 then v ^^^ 1 else v).toNat

/-- Byte `o` of a function's PBA. -/
def pbaByte (s : State) (f o : Nat) : Nat :=
  maskOf ((List.range 8).filter (fun b => (getFunc s f).pba.contains (8 * o + b)))

/-- Bytes of a little-endian number from a byte function. -/
def gatherBytes (g : Nat → Nat) (o n : Nat) : Nat := leNat ((List.range n).map (fun i => BitVec.ofNat 8 (g (o + i))))

end Sys2Proof.Machine
end

