-- ==== Sys2Proof/Machine/DebugWindow.lean ====
section
/-! DEFINITION. The DBG window (R481, R526, R597 to R600). -/

namespace Sys2Proof.Machine

/-- The physical function's DBG reads withhold what belongs to function `f` (R526). -/
def withheld (s : State) (f : Nat) : Bool := f != 0 && !bitB (tenReg s f oDbgCon) 0

/-- What slot `n` of cluster `c` holds is withheld. -/
def slotWithheld (s : State) (c n : Nat) : Bool :=
  match slotCtx s c n with
  | some x => withheld s x.f
  | none => false

/-- What a flit or a message with tag `t` belongs to is withheld. -/
def tagWithheld (s : State) (t : Nat) : Bool :=
  match tagFunc s t with
  | some f => withheld s f
  | none => false

/-- KIND 0: byte `p` of a cluster's scratchpad; fenced panels, withheld partitions and those of a
released context read as zeros (R133, R526, R529). -/
def dbgSpad (s : State) (c p : Nat) : Nat :=
  let n := p / 2 ^ 21
  let own := fun i =>
    let k := getSlot s c i
    k.pvalid && decide (k.pbase ≤ n) && decide (n < k.pbase + k.pcount) && (k.releasing || slotWithheld s c i)
  if bitB (getClu s c).fence n || (List.range 4).any own then 0
  else match gatherEnt s c (p / 32) with
    | some e => if e.dirty && bitB e.en (p % 32) then (nth 0 e.data (p % 32)).toNat else (memGet s.cl.spad (spadKey c p)).toNat
    | none => (memGet s.cl.spad (spadKey c p)).toNat

/-- The pending ranges of a slot with their tickets (R174). -/
def slotRanges (s : State) (c n : Nat) : List (Rng32 × Nat) :=
  ((getClu s c).ops.filter (fun o => o.sl == n)).flatMap (fun o => o.ranges.map (fun r => (r, o.ticket.toNat)))

/-- A RANGE entry of 16 bytes. -/
def rangeBytes (r : Rng32 × Nat) : List Byte :=
  leBytes 4 (32 * r.1.w0 + 2 ^ 31) ++ leBytes 4 (32 * (r.1.w0 + r.1.n) - 1) ++ leBytes 4 r.2 ++ leBytes 4 (b2n r.1.wr)

/-- Byte `i` of a number. -/
def byteOf (v i : Nat) : Nat := bits v (8 * i + 7) (8 * i)

/-- KIND 1: byte `o` of the state of slot `n` (R599). -/
def dbgSlot (s : State) (c n o : Nat) : Nat :=
  let k := getSlot s c n
  if slotWithheld s c n then 0
  else if o < 256 then byteOf (tabGet 0 k.regs (o / 8)).toNat (o % 8)
  else if o < 258 then byteOf k.pc.toNat (o - 256)
  else if 260 ≤ o ∧ o < 264 then byteOf k.ticket.toNat (o - 260)
  else if 264 ≤ o ∧ o < 268 then byteOf (seqStat s c n) (o - 264)
  else if o = 268 then clsCode k.cls
  else if 384 ≤ o ∧ o < 512 then byteOf (tabGet 0 k.ac ((o - 384) / 4)).toNat (o % 4)
  else if 512 ≤ o ∧ o < 768 then (tabGet (0 : Byte) k.td (o - 512)).toNat
  else if 1024 ≤ o ∧ o < 5120 then
    (match (slotRanges s c n)[(o - 1024) / 16]? with | some r => (nth 0 (rangeBytes r) (o % 16)).toNat | none => 0)
  else 0

/-- A word held in a station or in a switch: target cluster and slot, function, context address, bytes, poison (R600). -/
structure HeldWord where
  clu : Nat
  slot : Nat
  f : Nat
  addr : Nat
  data : List Byte
  poison : Bool
  deriving DecidableEq, Repr

/-- The place of an output: station of a cluster, or the switch of a die behind the 1,536 stations. -/
def outPlace (out : Nat) : Nat := if out < 2 ^ 14 then out / 8 else Config.clusters + (out - 2 ^ 14) / 2048

/-- Where byte `i` of a transfer's data is held: at the output that it has yet to move through; once it has no more of these, in the
target's station. -/
def bytePlace (s : State) (x : Xfer) (i : Nat) : Nat :=
  let ahead := if i + x.way.left < x.size then x.way.hops.drop 1 else x.way.hops
  match ahead with | h :: _ => outPlace h.out | [] => boundClu s x.tclu

/-- The words of the transfers on their way, oldest first, each with its offset in its transfer's data. -/
def xferWords (x : Xfer) : List (Nat × HeldWord) :=
  let ws := x.data.flatMap (fun d => (splitWords d.1 d.2.1).map (fun w => (⟨x.tclu, x.tslot, x.f, w.1, w.2, d.2.2⟩ : HeldWord)))
  (List.range ws.length).zip ws |>.map (fun p => (natSum ((ws.take p.1).map (fun w => w.data.length)), p.2))

/-- The words of the transfers that stand at a place (log entry 43). -/
def placeHeld (s : State) (n : Nat) : List HeldWord :=
  s.hub.xfers.flatMap (fun x => ((xferWords x).filter (fun p => bytePlace s x p.1 == n)).map (·.2))

/-- The DMAG data held in the express switch of die `d`, in the order in which the stacks returned it (R479, R481). -/
def switchWords (s : State) (d : Nat) : List HeldWord :=
  let gots := s.cl.clus.flatMap (fun p => p.2.ops.filterMap (fun o => o.got.map (fun g => (p.1, o, g))))
  (sortBy (fun a b => decide (a.2.2.no < b.2.2.no)) gots).flatMap (fun p =>
    let f := slotFn s p.1 p.2.1.sl
    match p.2.1.kind with
    | .dmag spad dev _ _ =>
      let at0 := fun i => match tenPhys s f (dev + 32 * i) with | some q => stackDie (stackOf q) == d | none => false
      ((List.range (p.2.2.bytes.length / 32)).filter at0).map (fun i =>
        ⟨p.1, p.2.1.sl, f, spad + 32 * i, (p.2.2.bytes.drop (32 * i)).take 32, p.2.2.poi.contains i⟩)
    | _ => [])

/-- A held word's 64 bytes in the window (R600). -/
def heldBytes (s : State) (w : HeldWord) : List Byte :=
  if withheld s w.f then List.replicate 64 0
  else leBytes 2 w.clu ++ leBytes 2 (w.slot + 4 * b2n w.poison) ++ leBytes 4 w.f ++ leBytes 8 (w.addr / 32 * 32) ++
    List.replicate 16 0 ++ padBytes 32 (List.replicate (w.addr % 32) 0 ++ w.data)

/-- KIND 2 and KIND 3: byte `o` of a window that lists held words. -/
def dbgHeld (s : State) (ws : List HeldWord) (o : Nat) : Nat :=
  if o < 4 then byteOf ws.length o
  else if o < 64 then 0
  else match ws[(o - 64) / 64]? with
    | some w => (nth 0 (heldBytes s w) (o % 64)).toNat
    | none => 0

/-- KIND 2: byte `o` of the words held in a cluster's station. -/
def dbgStation (s : State) (c o : Nat) : Nat := dbgHeld s (placeHeld s c) o

/-- KIND 3: byte `o` of the words held in a die's express switch: those that halted there, then what the stacks have returned. -/
def dbgSwitch (s : State) (d o : Nat) : Nat := dbgHeld s (placeHeld s (Config.clusters + d) ++ switchWords s d) o

/-- The tag of the message that a flit is a part of: in its FIRST flit's message header, which is found among the held flits and the
reassembly slots by SNODE and MTAG. -/
def flitTag (s : State) (b : List Byte) : Option Nat :=
  let same := fun (x : List Byte) => flFirst x && decide (3 ≤ flType x) && decide (flType x ≤ 7) && flSnode x == flSnode b && flMtag x == flMtag b
  if flFirst b then some (flitN b 22 2)
  else match (s.lnk.ports.flatMap (fun p => p.2.egress.map (·.2) ++ p.2.replay ++ p.2.rx)).find? same with
    | some x => some (flitN x 22 2)
    | none => (s.lnk.reasm.find? (isCopy (flSnode b) (flMtag b))).map (fun r => flitN r.payload 6 2)

/-- A held flit; it belongs to the function whose tag its message carries. One whose message has no FIRST flit here any more is
withheld (DESIGN CHOICE, log entry 89). -/
def flitShown (s : State) (b : List Byte) : List Byte :=
  let hide := decide (3 ≤ flType b) && decide (flType b ≤ 7) && (match flitTag s b with | some t => tagWithheld s t | none => true)
  if hide then List.replicate 256 0 else b

/-- KIND 4: byte `o` of the flits held by port `n`. -/
def dbgPort (s : State) (n o : Nat) : Nat :=
  let p := getPort s n
  let fs := p.egress.map (·.2) ++ p.replay ++ p.rx
  if o < 4 then byteOf p.egress.length o
  else if o < 8 then byteOf p.replay.length (o - 4)
  else if o < 12 then byteOf p.rx.length (o - 8)
  else if o < 256 then 0
  else match fs[(o - 256) / 256]? with
    | some b => (nth 0 (flitShown s b) (o % 256)).toNat
    | none => 0

/-- KIND 5: byte `o` of a reassembly slot in use; of a withheld one only the count of bytes received shows (R598). -/
def dbgReasm (s : State) (r : Reasm) (o : Nat) : Nat :=
  if 4 ≤ o ∧ o < 8 then byteOf r.payload.length (o - 4)
  else if tagWithheld s (flitN r.payload 6 2) then 0
  else if o < 2 then byteOf r.snode o
  else if o < 4 then byteOf r.mtag (o - 2)
  else if o = 8 then 1
  else if o < 64 then 0
  else (nth 0 r.payload (o - 64)).toNat

/-- Byte `o` of the window that DBG_SEL selects. -/
def dbgByte (s : State) (o : Nat) : Nat :=
  let v := reg s aDbgSel
  let i := bits v 10 0
  let stopped := s.ecl.st == .stopped
  match bits v 31 28 with
  | 0 => if i < Config.clusters then dbgSpad s i o else 0
  | 1 => if i < Config.clusters then dbgSlot s i (bits v 12 11) o else 0
  | 2 => if stopped && decide (i < Config.clusters) then dbgStation s i o else 0
  | 3 => if stopped && decide (i < Config.dies) then dbgSwitch s i o else 0
  | 4 => if stopped && decide (i < Config.ports) then dbgPort s i o else 0
  | 5 => if stopped then (match s.lnk.reasm[i]? with | some r => dbgReasm s r o | none => 0) else 0
  | _ => 0

end Sys2Proof.Machine
end

