-- ==== Sys2Proof/Machine/Registers.lean ====
section
/-! DEFINITION. Accesses to BAR0: RC_READ and REGISTER_WRITE (R18 to R21, R382, R586 to R592, R602). -/

namespace Sys2Proof.Machine

/-! ### Reads (R587) -/

/-- A window's value of `n` bytes at offset `o`. -/
def readWin (s : State) (f : Nat) (w : Win) (o n : Nat) : Nat :=
  match w with
  | .key => gatherBytes (fun i => keyBytes s (i / 256) (i % 256) 1) o n
  | .desc => gatherBytes (rgnByte s f) o n
  | .dmap => gatherBytes (fun i => (memGet s.fuses.dmap i).toNat) o n
  | .fw => 0
  | .rt => gatherBytes (fun i => (memGet s.lnk.rt i).toNat) o n
  | .dbg => gatherBytes (dbgByte s) o n
  | .msix => gatherBytes (msixByte s f) o n
  | .pba => gatherBytes (pbaByte s f) o n

/-- A window takes an access of `n` bytes. -/
def winTakes (w : Win) (n : Nat) : Bool :=
  n == 4 || n == 8 || (w == .rt && (n == 1 || n == 2))

/-- A read of a register: its state after the read, and the value. -/
def readReg (s : State) (f a n : Nat) : State × Nat :=
  if n = 4 then read32 s f a
  else if n = 8 then
    (if is64 a then read64 s f a
     else
       let (s, lo) := read32 s f a
       let (s, hi) := read32 s f (a + 4)
       (s, lo + 2 ^ 32 * hi))
  else (s, 0)

/-- An access starts where one of its size may: at a multiple of its size, 8 bytes at a multiple of 4 (R587, log entry 44). -/
def startsWell (a n : Nat) : Bool := n != 0 && a % min n 4 == 0

/-- A read of BAR0. -/
def readBar (s : State) (f a n : Nat) : State × Nat :=
  if inEmu a then emReadOf s f (a - 0x17_0000) n
  else if !startsWell a n then (s, 0)
  else match winOf a with
    | some w => (s, if mayRead s f a && winTakes w n && winOf (a + n - 1) == some w then readWin s f w (a - winBase w) n else 0)
    | none => readReg s f a n

/-- A read of BAR0 completes. -/
def doRead (f a n : Nat) (s : State) : State :=
  let (s, v) := readBar s f a n
  emit s (.read f a n v)

/-- RC_READ. -/
def execRcRead (f addr size : Nat) (s : State) : Host.Outcome State Fault Refusal :=
  if addr + size ≤ 2 ^ 28 then funcCmd s f (doRead f addr size) else .fault .noSuchAddress

/-! ### Writes of the physical function's registers -/

/-- A write of a W1C bit `i` clears it by `g`. -/
def w1c (s : State) (a i v : Nat) (g : State → State) : State := if w1cTakes s a i v then g s else s

/-- HUB_FTC_CTL: in FREE mode c is 0 (R464). -/
def doFtcCtl (v : Nat) (s : State) : State :=
  let s := setReg s aFtcCtl (v &&& 0xC7FF_0001)
  if ftcMode s = 0 then { s with clock := { s.clock with res := 0 } } else s

/-- HUB_SEC_CTL. -/
def doSecCtl (v : Nat) (s : State) : State :=
  let s := if bitB v 31 then doKeylock 0 s else s
  if bitB v 0 then doSvnCommit 0 s else s

/-- HUB_CLU_MAPi: the SHARE bits of eight clusters. -/
def doCluMap (i v : Nat) (s : State) : State :=
  (List.range 8).foldl (fun s n => doShareWrite (8 * i + n) (bitB v (4 * n + 2)) s) s

/-- A 32-bit register of the HUB block. -/
def hubWrite (a v : Nat) (s : State) : State :=
  if a = aHubStat then w1c s a 31 v (fun s => { s with pow.emuDown := false })
  else if a = aFtcCtl then doFtcCtl v s
  else if a = aFtcStat then
    let s := w1c s a 31 v (fun s => { s with clock := { s.clock with loss := false } })
    w1c s a 30 v (fun s => { s with clock := { s.clock with pulseErr := false } })
  else if a = aClkStat then w1c s a 31 v (fun s => { s with clock := { s.clock with refLoss := false } })
  else if a = aSupply then w1c s a 30 v (fun s => { s with pow.brSeen := false })
  else if a = 0x84 then doSecCtl v s
  else if a = 0x88 then (if bits v 1 0 = 1 then doFwVerify 0 s else s)
  else if a = aDieFence then w1c s a 31 v (fun s => { s with hub.fenceRefused := false })
  else if a = 0xC4 then doDieFcmd v s
  else if a = aRsvCtl then doRsvWrite v s
  else if a = 0x188 then doWinCmd v s
  else if a = aWinStat then w1c s a 30 v (fun s => { s with hub.winRefused := false })
  else if a = aPfVec then setReg s a (v &&& 0x87FF_87FF)
  else if 0x1000 ≤ a ∧ a < 0x2000 then doQassign ((a - 0x1000) / 4) v s
  else if 0x2000 ≤ a ∧ a < 0x2300 then doCluMap ((a - 0x2000) / 4) v s
  else if a = aGstat then w1c s a 31 v (fun s => { s with hub.grantRefused := false })
  else s

/-- LNK_PORTn_CTL; a change of ATR changes the port's own record, and a DISC says so at once (R331). -/
def doPortCtl (n v : Nat) (s : State) : State :=
  let en := bitB v 0
  let was := bitB (portCtl s n) 0
  let atr := portAtr s n
  let s := setReg s (portAddr n 0) ((v &&& 0xCC) + b2n was)
  let s := if en && !was then doPortEnable n s else if !en && was then doPortDisable n s else s
  let s := if bitB v 2 != atr then sendDisc s n else s
  if bitB v 4 then doRetrainPort n s else s

/-- A 32-bit register of the LNK block. -/
def lnkWrite (o v : Nat) (s : State) : State :=
  if o = 0 then nodeWrite v s
  else if o = 4 then setReg s aLnkCtl (v &&& 0xFFFF_00FF)
  else if 0x100 ≤ o ∧ o < 0x300 ∧ o % 64 = 0 then doPortCtl ((o - 0x100) / 64) v s
  else if 0x100 ≤ o ∧ o < 0x300 ∧ o % 64 = 4 then
    w1c s (lnkAddr o) 31 v (fun s => modPort s ((o - 0x100) / 64) (fun p => { p with peerchg := false }))
  else if 0x1000 ≤ o ∧ o < 0x2000 then setReg s (lnkAddr o) (v % 65536)
  else s

/-- MEM_STKn_CTL. -/
def doStkCtl (k v : Nat) (s : State) : State :=
  let s := modStack s k (fun x => { x with patrol := bitB v 1 })
  if bitB v 0 then doStackRetrain k s else s

/-- A 32-bit register of the MEM block. -/
def memWrite (o v : Nat) (s : State) : State :=
  if o = 0 then doPrioWrite v s
  else if 0x1000 ≤ o ∧ o < 0x2000 ∧ o % 256 = 4 then doStkCtl ((o - 0x1000) / 256) v s
  else s

/-- DBG_ECL_CTL. -/
def doEclCtl (v : Nat) (s : State) : State :=
  match bits v 1 0 with
  | 1 => eclPend true s
  | 2 => doEclResume s
  | 3 => eclPend false s
  | _ => s

/-- A 32-bit register of the DBG block. -/
def dbgWrite (a v : Nat) (s : State) : State :=
  if a = dbgAddr 0x10 then doEclCtl v s
  else if a = aEclStat then
    let s := w1c s a 31 v (fun s => { s with ecl.refused := false })
    w1c s a 30 v (fun s => { s with ecl.flrres := false })
  else if a = aDbgSel then setReg s a (v &&& 0xF000_1FFF)
  else s

/-! ### Writes of a function's own TEN block (R386, R399, R404, R408) -/

/-- TEN_SQCFGq: its fields in OFF, and EN. -/
def doSqCfg (f q v : Nat) (s : State) : State :=
  if !queueLives s f q then s
  else
    let a := tenAddr f (oSqCfg q)
    let lg := if bits v 4 0 < 4 ∨ 16 < bits v 4 0 then 4 else bits v 4 0
    let s := if (getQueue s f q).st == .off then setReg s a ((v &&& 0x00FF_FE00) + lg + reg s a / 2 ^ 31 * 2 ^ 31) else s
    if bitB v 31 then doQueueEnable f q s else doQueueDisable f q s

/-- TEN_CQCFGr: its fields while EN is 0, and EN. -/
def doCqCfg (f r v : Nat) (s : State) : State :=
  let a := tenAddr f (oCqCfg r)
  let s := if bitB (reg s a) 31 then s else setReg s a (v &&& 0x07FF_FF3F)
  if bitB v 31 then doCqEnable f r s else if bitB (reg s a) 31 then doCqDisable f r s else s

/-- TEN_STAT. -/
def doTenStat (f v : Nat) (s : State) : State :=
  let a := tenAddr f oTenStat
  let s := if bitB v 31 then doHbClear f s else s
  let s := w1c s a 28 v (fun s => modFunc s f (fun k => { k with frovf := false }))
  w1c s a 27 v (fun s => modFunc s f (fun k => { k with cqlost := false }))

/-- A 32-bit register of function `f`'s TEN block. -/
def tenRegWrite (f o v : Nat) (s : State) : State :=
  if o = oFrCfg then setReg s (tenAddr f o) (v &&& 0x87FF_003F)
  else if o = oHbCtl then doHbCtl f v s
  else if o = 0x24 then doKick f s
  else if o = oTenStat then doTenStat f v s
  else if o = oEphCfg then doEphWrite f v s
  else if o = oDbgCon then setReg s (tenAddr f o) (v % 2)
  else if o = 0x64 then doRgnAbort f v s
  else if 0x1_0000 ≤ o ∧ o < 0x2_0000 ∧ o % 32 = 16 then doSqCfg f ((o - 0x1_0000) / 32) v s
  else if 0x2_0000 ≤ o ∧ o < 0x3_0000 ∧ o % 32 = 16 then doCqCfg f ((o - 0x2_0000) / 32) v s
  else s

/-- A 64-bit register of function `f`'s TEN block. -/
def tenRegWrite64 (f o v : Nat) (s : State) : State :=
  if o = oFrAddr ∨ o = oEphAddr then setReg s (tenAddr f o) (v / 256 * 256)
  else if o = 0x18 then modFunc s f (fun k => { k with frHead := v % 2 ^ 32 })
  else if o = 0x50 then modFunc s f (fun k => { k with ephHead := v % 2 ^ 32 })
  else if 0x1000 ≤ o ∧ o < 0x2000 then doPipeWrite f ((o - 0x1000) / 16) (o % 16 == 8) v s
  else if 0x1_0000 ≤ o ∧ o < 0x2_0000 then
    let q := (o - 0x1_0000) / 32
    if o % 32 = 0 ∧ queueLives s f q = true ∧ (getQueue s f q).st = .off then setReg s (tenAddr f o) (v / 1024 * 1024) else s
  else if 0x2_0000 ≤ o ∧ o < 0x3_0000 then
    let r := (o - 0x2_0000) / 32
    if o % 32 = 0 then setReg s (tenAddr f o) (v / 256 * 256) else doCqHead f r v s
  else s

/-! ### Writes of CLU blocks (R589, R590) -/

/-- A 32-bit register of cluster `c`'s block. -/
def cluWrite (f c o v : Nat) (s : State) : State :=
  if o = oPrecCtl then doPrecWrite f c v s
  else if o = 0x9E0 then doKvInval f c (v % 16) s
  else if o = oSplit then (if f = 0 then putSplit s c (v &&& 0x8FFF_0777) else s)
  else s

/-- A 64-bit register of cluster `c`'s block. -/
def cluWrite64 (f c o v : Nat) (s : State) : State :=
  if 0x8C0 ≤ o ∧ o < 0x8E0 then doSeedWrite f c ((o - 0x8C0) / 8) v s
  else if 0xB00 ≤ o ∧ o < 0xB20 then doTraceWrite f c ((o - 0xB00) / 8) v s
  else if 0xB20 ≤ o ∧ o < 0xB40 then
    let n := (o - 0xB20) / 8
    if slotReach s f c n then trcPay c (modTrc s c n (fun t => { t with head := v % 2 ^ 32 })) n else s
  else s

/-! ### Writes of BAR0 (R382, R587) -/

/-- A write of a whole 32-bit register. -/
def write32 (f a v : Nat) (s : State) : State :=
  if a % 4 ≠ 0 ∨ is64 (a / 8 * 8) = true then s
  else if inTen a then tenRegWrite f (a - 0x10_0000) v s
  else if inClu a then cluWrite f (cluOfAddr a) (cluOff a) v s
  else if f ≠ 0 then s
  else if inLnk a then lnkWrite (a - 0x14_0000) v s
  else if inMem a then memWrite (a - 0x16_0000) v s
  else if inDbg a then dbgWrite a v s
  else hubWrite a v s

/-- A write of a whole 64-bit register. -/
def write64 (f a v : Nat) (s : State) : State :=
  if inTen a then tenRegWrite64 f (a - 0x10_0000) v s
  else if inClu a then cluWrite64 f (cluOfAddr a) (cluOff a) v s
  else if f ≠ 0 then s
  else if inMem a then (if a = aSave then doSaveWrite v s else s)
  else if inDbg a then setReg s a v
  else if a = aFtcArm then setReg s a v
  else if a = aWinArg then setReg s a (v % 2 ^ 60)
  else if 0x2400 ≤ a ∧ a < 0x2440 then doGrantWrite ((a - 0x2400) / 8) v s
  else s

/-- Bytes written into a function's MSI-X table; an unmasked vector that is pending is written (R398). -/
def writeMsix (f o : Nat) (bs : List Byte) (s : State) : State :=
  let put := fun (m : Mem) i => memSet m (o + i) (if (o + i) % 16 = 12 then nth 0 bs i ^^^ 1 else nth 0 bs i)
  flushVecs (modFunc s f (fun k => { k with msix := (List.range bs.length).foldl put k.msix })) f

/-- A write of `n` bytes at offset `o` of a window. -/
def writeWin (f : Nat) (w : Win) (o n v : Nat) (s : State) : State :=
  match w with
  | .msix => writeMsix f o (leBytes n v) s
  | .key => if n = 8 then doKeyWrite f o v s else s
  | .fw => doFwWrite f o (leBytes n v) s
  | .rt => if f = 0 then { s with lnk.rt := memPut s.lnk.rt o (leBytes n v) } else s
  | .desc => s
  | .dmap => s
  | .dbg => s
  | .pba => s

/-- A write of BAR0. -/
def writeBar (f a n v : Nat) (s : State) : State :=
  let v := v % 2 ^ (8 * n)
  if inEmu a then doEmWrite f (a - 0x17_0000) n v s
  else if !startsWell a n then s
  else match winOf a with
    | some w => if winTakes w n && winOf (a + n - 1) == some w then writeWin f w (a - winBase w) n v s else s
    | none =>
      if n = 4 then write32 f a v s
      else if n = 8 then
        (if is64 a then write64 f a v s else write32 f (a + 4) (v / 2 ^ 32) (write32 f a (v % 2 ^ 32) s))
      else s

/-- REGISTER_WRITE. -/
def execRegisterWrite (f addr size v : Nat) (s : State) : Host.Outcome State Fault Refusal :=
  if addr + size ≤ 2 ^ 28 then funcCmd s f (writeBar f addr size v) else .fault .noSuchAddress

end Sys2Proof.Machine
end

