-- ==== Sys2Proof/Machine/SeqExec.lean ====
section
/-! DEFINITION. The sequencer's commands: each is carried out by its slot while the cluster's compute clock runs. A command
of an instruction stands for the instruction that the slot has fetched (log entry 28). -/

namespace Sys2Proof.Machine

/-- ADD. -/
def execAdd (c sl : Nat) (rd rs1 rs2 : BitVec 5) (s : State) : Host.Outcome State Fault Refusal :=
  slotRun s c sl (doAdd c sl rd rs1 rs2)

/-- SUB. -/
def execSub (c sl : Nat) (rd rs1 rs2 : BitVec 5) (s : State) : Host.Outcome State Fault Refusal :=
  slotRun s c sl (doSub c sl rd rs1 rs2)

/-- AND. -/
def execAnd (c sl : Nat) (rd rs1 rs2 : BitVec 5) (s : State) : Host.Outcome State Fault Refusal :=
  slotRun s c sl (doAnd c sl rd rs1 rs2)

/-- OR. -/
def execOr (c sl : Nat) (rd rs1 rs2 : BitVec 5) (s : State) : Host.Outcome State Fault Refusal :=
  slotRun s c sl (doOr c sl rd rs1 rs2)

/-- XOR. -/
def execXor (c sl : Nat) (rd rs1 rs2 : BitVec 5) (s : State) : Host.Outcome State Fault Refusal :=
  slotRun s c sl (doXor c sl rd rs1 rs2)

/-- SLL. -/
def execSll (c sl : Nat) (rd rs1 rs2 : BitVec 5) (s : State) : Host.Outcome State Fault Refusal :=
  slotRun s c sl (doSll c sl rd rs1 rs2)

/-- SRL. -/
def execSrl (c sl : Nat) (rd rs1 rs2 : BitVec 5) (s : State) : Host.Outcome State Fault Refusal :=
  slotRun s c sl (doSrl c sl rd rs1 rs2)

/-- SRA. -/
def execSra (c sl : Nat) (rd rs1 rs2 : BitVec 5) (s : State) : Host.Outcome State Fault Refusal :=
  slotRun s c sl (doSra c sl rd rs1 rs2)

/-- SLT. -/
def execSlt (c sl : Nat) (rd rs1 rs2 : BitVec 5) (s : State) : Host.Outcome State Fault Refusal :=
  slotRun s c sl (doSlt c sl rd rs1 rs2)

/-- SLTU. -/
def execSltu (c sl : Nat) (rd rs1 rs2 : BitVec 5) (s : State) : Host.Outcome State Fault Refusal :=
  slotRun s c sl (doSltu c sl rd rs1 rs2)

/-- MUL. -/
def execMul (c sl : Nat) (rd rs1 rs2 : BitVec 5) (s : State) : Host.Outcome State Fault Refusal :=
  slotRun s c sl (doMul c sl rd rs1 rs2)

/-- MIN. -/
def execMin (c sl : Nat) (rd rs1 rs2 : BitVec 5) (s : State) : Host.Outcome State Fault Refusal :=
  slotRun s c sl (doMin c sl rd rs1 rs2)

/-- MAX. -/
def execMax (c sl : Nat) (rd rs1 rs2 : BitVec 5) (s : State) : Host.Outcome State Fault Refusal :=
  slotRun s c sl (doMax c sl rd rs1 rs2)

/-- MINU. -/
def execMinu (c sl : Nat) (rd rs1 rs2 : BitVec 5) (s : State) : Host.Outcome State Fault Refusal :=
  slotRun s c sl (doMinu c sl rd rs1 rs2)

/-- MAXU. -/
def execMaxu (c sl : Nat) (rd rs1 rs2 : BitVec 5) (s : State) : Host.Outcome State Fault Refusal :=
  slotRun s c sl (doMaxu c sl rd rs1 rs2)

/-- ADDI. -/
def execAddi (c sl : Nat) (rd rs1 : BitVec 5) (imm : BitVec 16) (s : State) : Host.Outcome State Fault Refusal :=
  slotRun s c sl (doAddi c sl rd rs1 imm)

/-- ANDI. -/
def execAndi (c sl : Nat) (rd rs1 : BitVec 5) (imm : BitVec 16) (s : State) : Host.Outcome State Fault Refusal :=
  slotRun s c sl (doAndi c sl rd rs1 imm)

/-- ORI. -/
def execOri (c sl : Nat) (rd rs1 : BitVec 5) (imm : BitVec 16) (s : State) : Host.Outcome State Fault Refusal :=
  slotRun s c sl (doOri c sl rd rs1 imm)

/-- XORI. -/
def execXori (c sl : Nat) (rd rs1 : BitVec 5) (imm : BitVec 16) (s : State) : Host.Outcome State Fault Refusal :=
  slotRun s c sl (doXori c sl rd rs1 imm)

/-- SLLI. -/
def execSlli (c sl : Nat) (rd rs1 : BitVec 5) (imm : BitVec 16) (s : State) : Host.Outcome State Fault Refusal :=
  slotRun s c sl (doSlli c sl rd rs1 imm)

/-- SRLI. -/
def execSrli (c sl : Nat) (rd rs1 : BitVec 5) (imm : BitVec 16) (s : State) : Host.Outcome State Fault Refusal :=
  slotRun s c sl (doSrli c sl rd rs1 imm)

/-- SRAI. -/
def execSrai (c sl : Nat) (rd rs1 : BitVec 5) (imm : BitVec 16) (s : State) : Host.Outcome State Fault Refusal :=
  slotRun s c sl (doSrai c sl rd rs1 imm)

/-- SLTI. -/
def execSlti (c sl : Nat) (rd rs1 : BitVec 5) (imm : BitVec 16) (s : State) : Host.Outcome State Fault Refusal :=
  slotRun s c sl (doSlti c sl rd rs1 imm)

/-- LDI. -/
def execLdi (c sl : Nat) (rd : BitVec 5) (z : BitVec 3) (q : BitVec 2) (imm : BitVec 16) (s : State) :
    Host.Outcome State Fault Refusal :=
  slotRun s c sl (doLdi c sl rd z q imm)

/-- BEQ. -/
def execBeq (c sl : Nat) (rs1 rs2 : BitVec 5) (off : BitVec 16) (s : State) : Host.Outcome State Fault Refusal :=
  slotRun s c sl (doBeq c sl rs1 rs2 off)

/-- BNE. -/
def execBne (c sl : Nat) (rs1 rs2 : BitVec 5) (off : BitVec 16) (s : State) : Host.Outcome State Fault Refusal :=
  slotRun s c sl (doBne c sl rs1 rs2 off)

/-- BLT. -/
def execBlt (c sl : Nat) (rs1 rs2 : BitVec 5) (off : BitVec 16) (s : State) : Host.Outcome State Fault Refusal :=
  slotRun s c sl (doBlt c sl rs1 rs2 off)

/-- BGE. -/
def execBge (c sl : Nat) (rs1 rs2 : BitVec 5) (off : BitVec 16) (s : State) : Host.Outcome State Fault Refusal :=
  slotRun s c sl (doBge c sl rs1 rs2 off)

/-- BLTU. -/
def execBltu (c sl : Nat) (rs1 rs2 : BitVec 5) (off : BitVec 16) (s : State) : Host.Outcome State Fault Refusal :=
  slotRun s c sl (doBltu c sl rs1 rs2 off)

/-- BGEU. -/
def execBgeu (c sl : Nat) (rs1 rs2 : BitVec 5) (off : BitVec 16) (s : State) : Host.Outcome State Fault Refusal :=
  slotRun s c sl (doBgeu c sl rs1 rs2 off)

/-- JAL. -/
def execJal (c sl : Nat) (rd : BitVec 5) (off : BitVec 21) (s : State) : Host.Outcome State Fault Refusal :=
  slotRun s c sl (doJal c sl rd off)

/-- JALR. -/
def execJalr (c sl : Nat) (rd rs1 : BitVec 5) (imm : BitVec 16) (s : State) : Host.Outcome State Fault Refusal :=
  slotRun s c sl (doJalr c sl rd rs1 imm)

/-- HALT. -/
def execHalt (c sl : Nat) (z : BitVec 26) (s : State) : Host.Outcome State Fault Refusal :=
  slotRun s c sl (doHalt c sl z)

/-- PROGRAM_END. -/
def execProgramEnd (c sl : Nat) (s : State) : Host.Outcome State Fault Refusal :=
  slotRun s c sl (doProgramEnd c sl)

/-- LD. -/
def execLd (c sl : Nat) (rd rs1 : BitVec 5) (imm : BitVec 16) (s : State) : Host.Outcome State Fault Refusal :=
  slotRun s c sl (doLd c sl rd rs1 imm)

/-- LW. -/
def execLw (c sl : Nat) (rd rs1 : BitVec 5) (imm : BitVec 16) (s : State) : Host.Outcome State Fault Refusal :=
  slotRun s c sl (doLw c sl rd rs1 imm)

/-- LH. -/
def execLh (c sl : Nat) (rd rs1 : BitVec 5) (imm : BitVec 16) (s : State) : Host.Outcome State Fault Refusal :=
  slotRun s c sl (doLh c sl rd rs1 imm)

/-- LB. -/
def execLb (c sl : Nat) (rd rs1 : BitVec 5) (imm : BitVec 16) (s : State) : Host.Outcome State Fault Refusal :=
  slotRun s c sl (doLb c sl rd rs1 imm)

/-- SD. -/
def execSd (c sl : Nat) (rs2 rs1 : BitVec 5) (imm : BitVec 16) (s : State) : Host.Outcome State Fault Refusal :=
  slotRun s c sl (doSd c sl rs2 rs1 imm)

/-- SW. -/
def execSw (c sl : Nat) (rs2 rs1 : BitVec 5) (imm : BitVec 16) (s : State) : Host.Outcome State Fault Refusal :=
  slotRun s c sl (doSw c sl rs2 rs1 imm)

/-- SH. -/
def execSh (c sl : Nat) (rs2 rs1 : BitVec 5) (imm : BitVec 16) (s : State) : Host.Outcome State Fault Refusal :=
  slotRun s c sl (doSh c sl rs2 rs1 imm)

/-- SB. -/
def execSb (c sl : Nat) (rs2 rs1 : BitVec 5) (imm : BitVec 16) (s : State) : Host.Outcome State Fault Refusal :=
  slotRun s c sl (doSb c sl rs2 rs1 imm)

/-- TDZ. -/
def execTdz (c sl : Nat) (td : BitVec 2) (z : BitVec 24) (s : State) : Host.Outcome State Fault Refusal :=
  slotRun s c sl (doTdz c sl td z)

/-- TDW. -/
def execTdw (c sl : Nat) (td w : BitVec 2) (z1 : BitVec 1) (rs1 : BitVec 5) (z10 : BitVec 10) (off : BitVec 6) (s : State) :
    Host.Outcome State Fault Refusal :=
  slotRun s c sl (doTdw c sl td w z1 rs1 z10 off)

/-- TDI. -/
def execTdi (c sl : Nat) (td : BitVec 2) (z : BitVec 2) (off : BitVec 6) (imm : BitVec 16) (s : State) :
    Host.Outcome State Fault Refusal :=
  slotRun s c sl (doTdi c sl td z off imm)

/-- TISS. -/
def execTiss (c sl : Nat) (td : BitVec 2) (z3 : BitVec 3) (rd : BitVec 5) (z16 : BitVec 16) (s : State) :
    Host.Outcome State Fault Refusal :=
  slotRun s c sl (doTiss c sl td z3 rd z16)

/-- DMAG. -/
def execDmag (c sl : Nat) (rd rs1 rs2 rs3 : BitVec 5) (cen : BitVec 1) (ctr : BitVec 5) (s : State) :
    Host.Outcome State Fault Refusal :=
  slotRun s c sl (doDmag c sl rd rs1 rs2 rs3 cen ctr)

/-- DMAP. -/
def execDmap (c sl : Nat) (rd rs1 rs2 rs3 : BitVec 5) (cen : BitVec 1) (ctr : BitVec 5) (s : State) :
    Host.Outcome State Fault Refusal :=
  slotRun s c sl (doDmap c sl rd rs1 rs2 rs3 cen ctr)

/-- WAITC. -/
def execWaitc (c sl : Nat) (rs1 n : BitVec 5) (z : BitVec 16) (s : State) : Host.Outcome State Fault Refusal :=
  slotRun s c sl (doWaitc c sl rs1 n z)

/-- WAITOP. -/
def execWaitop (c sl : Nat) (z5 rs1 : BitVec 5) (z16 : BitVec 16) (s : State) : Host.Outcome State Fault Refusal :=
  slotRun s c sl (doWaitop c sl z5 rs1 z16)

/-- FENCE. -/
def execFence (c sl : Nat) (z : BitVec 26) (s : State) : Host.Outcome State Fault Refusal :=
  slotRun s c sl (doFence c sl z)

/-- WAITC_RESUME. -/
def execWaitcResume (c sl : Nat) (s : State) : Host.Outcome State Fault Refusal :=
  slotRun s c sl (doWaitcResume c sl)

/-- WAITOP_RESUME. -/
def execWaitopResume (c sl : Nat) (s : State) : Host.Outcome State Fault Refusal :=
  slotRun s c sl (doWaitopResume c sl)

/-- FENCE_RESUME. -/
def execFenceResume (c sl : Nat) (s : State) : Host.Outcome State Fault Refusal :=
  slotRun s c sl (doFenceResume c sl)

/-- INTERLOCK_RESUME. -/
def execInterlockResume (c sl : Nat) (s : State) : Host.Outcome State Fault Refusal :=
  slotRun s c sl (doInterlockResume c sl)

/-- ISSUE_RESUME. -/
def execIssueResume (c sl : Nat) (s : State) : Host.Outcome State Fault Refusal :=
  slotRun s c sl (doIssueResume c sl)

/-- LDST_RESUME. -/
def execLdstResume (c sl : Nat) (s : State) : Host.Outcome State Fault Refusal :=
  slotRun s c sl (doLdstResume c sl)

/-- SRD. -/
def execSrd (c sl : Nat) (rd rs1 n : BitVec 5) (z : BitVec 7) (s : State) : Host.Outcome State Fault Refusal :=
  slotRun s c sl (doSrd c sl rd rs1 n z)

/-- ACRD. -/
def execAcrd (c sl : Nat) (rd rs1 n : BitVec 5) (z : BitVec 7) (s : State) : Host.Outcome State Fault Refusal :=
  slotRun s c sl (doAcrd c sl rd rs1 n z)

/-- ACSET. -/
def execAcset (c sl : Nat) (rd rs1 n : BitVec 5) (z : BitVec 7) (s : State) : Host.Outcome State Fault Refusal :=
  slotRun s c sl (doAcset c sl rd rs1 n z)

/-- TMARK. -/
def execTmark (c sl : Nat) (rd rs1 n : BitVec 5) (z : BitVec 7) (s : State) : Host.Outcome State Fault Refusal :=
  slotRun s c sl (doTmark c sl rd rs1 n z)

/-- YIELD. -/
def execYield (c sl : Nat) (rd rs1 n : BitVec 5) (z : BitVec 7) (s : State) : Host.Outcome State Fault Refusal :=
  slotRun s c sl (doYield c sl rd rs1 n z)

end Sys2Proof.Machine
end

