-- ==== Sys2Proof/Machine/Dispatch.lean ====
section
/-! DEFINITION. Dispatch: one arm for each command. -/

namespace Sys2Proof.Machine

/-- The effect of a command on everything but the queue. -/
def exec (i : Instr) (s : State) : Host.Outcome State Fault Refusal :=
  match i with
  | .add c sl rd rs1 rs2 => Sys2Proof.Machine.execAdd c sl rd rs1 rs2 s
  | .sub c sl rd rs1 rs2 => Sys2Proof.Machine.execSub c sl rd rs1 rs2 s
  | .and c sl rd rs1 rs2 => Sys2Proof.Machine.execAnd c sl rd rs1 rs2 s
  | .or c sl rd rs1 rs2 => Sys2Proof.Machine.execOr c sl rd rs1 rs2 s
  | .xor c sl rd rs1 rs2 => Sys2Proof.Machine.execXor c sl rd rs1 rs2 s
  | .sll c sl rd rs1 rs2 => Sys2Proof.Machine.execSll c sl rd rs1 rs2 s
  | .srl c sl rd rs1 rs2 => Sys2Proof.Machine.execSrl c sl rd rs1 rs2 s
  | .sra c sl rd rs1 rs2 => Sys2Proof.Machine.execSra c sl rd rs1 rs2 s
  | .slt c sl rd rs1 rs2 => Sys2Proof.Machine.execSlt c sl rd rs1 rs2 s
  | .sltu c sl rd rs1 rs2 => Sys2Proof.Machine.execSltu c sl rd rs1 rs2 s
  | .mul c sl rd rs1 rs2 => Sys2Proof.Machine.execMul c sl rd rs1 rs2 s
  | .min c sl rd rs1 rs2 => Sys2Proof.Machine.execMin c sl rd rs1 rs2 s
  | .max c sl rd rs1 rs2 => Sys2Proof.Machine.execMax c sl rd rs1 rs2 s
  | .minu c sl rd rs1 rs2 => Sys2Proof.Machine.execMinu c sl rd rs1 rs2 s
  | .maxu c sl rd rs1 rs2 => Sys2Proof.Machine.execMaxu c sl rd rs1 rs2 s
  | .addi c sl rd rs1 imm => Sys2Proof.Machine.execAddi c sl rd rs1 imm s
  | .andi c sl rd rs1 imm => Sys2Proof.Machine.execAndi c sl rd rs1 imm s
  | .ori c sl rd rs1 imm => Sys2Proof.Machine.execOri c sl rd rs1 imm s
  | .xori c sl rd rs1 imm => Sys2Proof.Machine.execXori c sl rd rs1 imm s
  | .slli c sl rd rs1 imm => Sys2Proof.Machine.execSlli c sl rd rs1 imm s
  | .srli c sl rd rs1 imm => Sys2Proof.Machine.execSrli c sl rd rs1 imm s
  | .srai c sl rd rs1 imm => Sys2Proof.Machine.execSrai c sl rd rs1 imm s
  | .slti c sl rd rs1 imm => Sys2Proof.Machine.execSlti c sl rd rs1 imm s
  | .ldi c sl rd z q imm => Sys2Proof.Machine.execLdi c sl rd z q imm s
  | .beq c sl rs1 rs2 off => Sys2Proof.Machine.execBeq c sl rs1 rs2 off s
  | .bne c sl rs1 rs2 off => Sys2Proof.Machine.execBne c sl rs1 rs2 off s
  | .blt c sl rs1 rs2 off => Sys2Proof.Machine.execBlt c sl rs1 rs2 off s
  | .bge c sl rs1 rs2 off => Sys2Proof.Machine.execBge c sl rs1 rs2 off s
  | .bltu c sl rs1 rs2 off => Sys2Proof.Machine.execBltu c sl rs1 rs2 off s
  | .bgeu c sl rs1 rs2 off => Sys2Proof.Machine.execBgeu c sl rs1 rs2 off s
  | .jal c sl rd off => Sys2Proof.Machine.execJal c sl rd off s
  | .jalr c sl rd rs1 imm => Sys2Proof.Machine.execJalr c sl rd rs1 imm s
  | .halt c sl z => Sys2Proof.Machine.execHalt c sl z s
  | .programEnd c sl => Sys2Proof.Machine.execProgramEnd c sl s
  | .ld c sl rd rs1 imm => Sys2Proof.Machine.execLd c sl rd rs1 imm s
  | .lw c sl rd rs1 imm => Sys2Proof.Machine.execLw c sl rd rs1 imm s
  | .lh c sl rd rs1 imm => Sys2Proof.Machine.execLh c sl rd rs1 imm s
  | .lb c sl rd rs1 imm => Sys2Proof.Machine.execLb c sl rd rs1 imm s
  | .sd c sl rs2 rs1 imm => Sys2Proof.Machine.execSd c sl rs2 rs1 imm s
  | .sw c sl rs2 rs1 imm => Sys2Proof.Machine.execSw c sl rs2 rs1 imm s
  | .sh c sl rs2 rs1 imm => Sys2Proof.Machine.execSh c sl rs2 rs1 imm s
  | .sb c sl rs2 rs1 imm => Sys2Proof.Machine.execSb c sl rs2 rs1 imm s
  | .tdz c sl td z => Sys2Proof.Machine.execTdz c sl td z s
  | .tdw c sl td w z1 rs1 z10 off => Sys2Proof.Machine.execTdw c sl td w z1 rs1 z10 off s
  | .tdi c sl td z off imm => Sys2Proof.Machine.execTdi c sl td z off imm s
  | .tiss c sl td z3 rd z16 => Sys2Proof.Machine.execTiss c sl td z3 rd z16 s
  | .dmag c sl rd rs1 rs2 rs3 cen ctr => Sys2Proof.Machine.execDmag c sl rd rs1 rs2 rs3 cen ctr s
  | .dmap c sl rd rs1 rs2 rs3 cen ctr => Sys2Proof.Machine.execDmap c sl rd rs1 rs2 rs3 cen ctr s
  | .waitc c sl rs1 n z => Sys2Proof.Machine.execWaitc c sl rs1 n z s
  | .waitop c sl z5 rs1 z16 => Sys2Proof.Machine.execWaitop c sl z5 rs1 z16 s
  | .fence c sl z => Sys2Proof.Machine.execFence c sl z s
  | .waitcResume c sl => Sys2Proof.Machine.execWaitcResume c sl s
  | .waitopResume c sl => Sys2Proof.Machine.execWaitopResume c sl s
  | .fenceResume c sl => Sys2Proof.Machine.execFenceResume c sl s
  | .interlockResume c sl => Sys2Proof.Machine.execInterlockResume c sl s
  | .issueResume c sl => Sys2Proof.Machine.execIssueResume c sl s
  | .ldstResume c sl => Sys2Proof.Machine.execLdstResume c sl s
  | .srd c sl rd rs1 n z => Sys2Proof.Machine.execSrd c sl rd rs1 n z s
  | .acrd c sl rd rs1 n z => Sys2Proof.Machine.execAcrd c sl rd rs1 n z s
  | .acset c sl rd rs1 n z => Sys2Proof.Machine.execAcset c sl rd rs1 n z s
  | .tmark c sl rd rs1 n z => Sys2Proof.Machine.execTmark c sl rd rs1 n z s
  | .yield c sl rd rs1 n z => Sys2Proof.Machine.execYield c sl rd rs1 n z s
  | .faultRecordWrite f => Sys2Proof.Machine.execFaultRecordWrite f s
  | .tla c sl t => Sys2Proof.Machine.execTla c sl t s
  | .xnp c sl t => Sys2Proof.Machine.execXnp c sl t s
  | .gate c sl t => Sys2Proof.Machine.execGate c sl t s
  | .passAbandon c sl t => Sys2Proof.Machine.execPassAbandon c sl t s
  | .tileReplay c sl t => Sys2Proof.Machine.execTileReplay c sl t s
  | .passComplete c sl t => Sys2Proof.Machine.execPassComplete c sl t s
  | .qnt c sl t => Sys2Proof.Machine.execQnt c sl t s
  | .act c sl t => Sys2Proof.Machine.execAct c sl t s
  | .nrm c sl t => Sys2Proof.Machine.execNrm c sl t s
  | .att c sl t => Sys2Proof.Machine.execAtt c sl t s
  | .attSuspend c sl t => Sys2Proof.Machine.execAttSuspend c sl t s
  | .attResume c sl t => Sys2Proof.Machine.execAttResume c sl t s
  | .kva c sl t => Sys2Proof.Machine.execKva c sl t s
  | .commit c sl t => Sys2Proof.Machine.execCommit c sl t s
  | .mov c sl t => Sys2Proof.Machine.execMov c sl t s
  | .red c sl t => Sys2Proof.Machine.execRed c sl t s
  | .mrg c sl t => Sys2Proof.Machine.execMrg c sl t s
  | .cmpCompress c sl t => Sys2Proof.Machine.execCmpCompress c sl t s
  | .cmpExpand c sl t => Sys2Proof.Machine.execCmpExpand c sl t s
  | .sync c sl t => Sys2Proof.Machine.execSync c sl t s
  | .operationComplete c sl e => Sys2Proof.Machine.execOperationComplete c sl e s
  | .weightReloadDone c tile => Sys2Proof.Machine.execWeightReloadDone c tile s
  | .weightReloadFail c tile => Sys2Proof.Machine.execWeightReloadFail c tile s
  | .gatherWriteback c word => Sys2Proof.Machine.execGatherWriteback c word s
  | .partitionFence c sl => Sys2Proof.Machine.execPartitionFence c sl s
  | .scrubDone c => Sys2Proof.Machine.execScrubDone c s
  | .transferArrival id ce ue => Sys2Proof.Machine.execTransferArrival id ce ue s
  | .switchNoreach id => Sys2Proof.Machine.execSwitchNoreach id s
  | .codewordRead p => Sys2Proof.Machine.execCodewordRead p s
  | .codewordWrite p data poison => Sys2Proof.Machine.execCodewordWrite p data poison s
  | .partialWrite p data poison => Sys2Proof.Machine.execPartialWrite p data poison s
  | .atomicApply k => Sys2Proof.Machine.execAtomicApply k s
  | .patrolRead p => Sys2Proof.Machine.execPatrolRead p s
  | .stackTempRead k t => Sys2Proof.Machine.execStackTempRead k t s
  | .stackRetrain k => Sys2Proof.Machine.execStackRetrain k s
  | .stackRetrainDone k ok lanes => Sys2Proof.Machine.execStackRetrainDone k ok lanes s
  | .stackFail k => Sys2Proof.Machine.execStackFail k s
  | .releaseScrubDone => Sys2Proof.Machine.execReleaseScrubDone s
  | .kvInval f c mask => Sys2Proof.Machine.execKvInval f c mask s
  | .lookup => Sys2Proof.Machine.execLookup s
  | .insert => Sys2Proof.Machine.execInsert s
  | .release => Sys2Proof.Machine.execRelease s
  | .evict => Sys2Proof.Machine.execEvict s
  | .accordLinesFree c ent => Sys2Proof.Machine.execAccordLinesFree c ent s
  | .rsvCountWrite v => Sys2Proof.Machine.execRsvCountWrite v s
  | .shareWrite c v => Sys2Proof.Machine.execShareWrite c v s
  | .grantWrite g v => Sys2Proof.Machine.execGrantWrite g v s
  | .grantApply => Sys2Proof.Machine.execGrantApply s
  | .clusterLost c => Sys2Proof.Machine.execClusterLost c s
  | .portSignalDetect n groups => Sys2Proof.Machine.execPortSignalDetect n groups s
  | .trainingTimeout n => Sys2Proof.Machine.execTrainingTimeout n s
  | .trainingDone n groups => Sys2Proof.Machine.execTrainingDone n groups s
  | .trainingRetry n => Sys2Proof.Machine.execTrainingRetry n s
  | .laneLockLoss n => Sys2Proof.Machine.execLaneLockLoss n s
  | .fecErrorLimit n => Sys2Proof.Machine.execFecErrorLimit n s
  | .signalLoss n => Sys2Proof.Machine.execSignalLoss n s
  | .portRetrain n => Sys2Proof.Machine.execPortRetrain n s
  | .portDisable n => Sys2Proof.Machine.execPortDisable n s
  | .portEnable n => Sys2Proof.Machine.execPortEnable n s
  | .flitReceive n flit => Sys2Proof.Machine.execFlitReceive n flit s
  | .nakReceive n ack => Sys2Proof.Machine.execNakReceive n ack s
  | .replayTimeout n => Sys2Proof.Machine.execReplayTimeout n s
  | .ackTimer n => Sys2Proof.Machine.execAckTimer n s
  | .creditReturnTimer n => Sys2Proof.Machine.execCreditReturnTimer n s
  | .discSend n => Sys2Proof.Machine.execDiscSend n s
  | .discReceive n flit => Sys2Proof.Machine.execDiscReceive n flit s
  | .nodeAssign v => Sys2Proof.Machine.execNodeAssign v s
  | .nodeUnassign => Sys2Proof.Machine.execNodeUnassign s
  | .messageSend id => Sys2Proof.Machine.execMessageSend id s
  | .reassemblyStart n => Sys2Proof.Machine.execReassemblyStart n s
  | .messageDeliver snode mtag => Sys2Proof.Machine.execMessageDeliver snode mtag s
  | .reassemblyTimeout snode mtag => Sys2Proof.Machine.execReassemblyTimeout snode mtag s
  | .eackReceive dnode aseq epoch status => Sys2Proof.Machine.execEackReceive dnode aseq epoch status s
  | .messageResend dnode aseq => Sys2Proof.Machine.execMessageResend dnode aseq s
  | .messageLost dnode aseq => Sys2Proof.Machine.execMessageLost dnode aseq s
  | .tsyncRequest n => Sys2Proof.Machine.execTsyncRequest n s
  | .tsyncAnswer n => Sys2Proof.Machine.execTsyncAnswer n s
  | .tsyncResponse n tseq t1 t2 t3 t4 => Sys2Proof.Machine.execTsyncResponse n tseq t1 t2 t3 t4 s
  | .loadLayout => Sys2Proof.Machine.execLoadLayout s
  | .loadValidate => Sys2Proof.Machine.execLoadValidate s
  | .loadCommit => Sys2Proof.Machine.execLoadCommit s
  | .loadWaitEnd => Sys2Proof.Machine.execLoadWaitEnd s
  | .loadUnwind => Sys2Proof.Machine.execLoadUnwind s
  | .unloadLayout => Sys2Proof.Machine.execUnloadLayout s
  | .unload => Sys2Proof.Machine.execUnload s
  | .tailDoorbell f q tail => Sys2Proof.Machine.execTailDoorbell f q tail s
  | .inlineDescriptor f q desc => Sys2Proof.Machine.execInlineDescriptor f q desc s
  | .dispatchTake => Sys2Proof.Machine.execDispatchTake s
  | .classBPromotion f q => Sys2Proof.Machine.execClassBPromotion f q s
  | .ringFetch f q err => Sys2Proof.Machine.execRingFetch f q err s
  | .queueEnable f q => Sys2Proof.Machine.execQueueEnable f q s
  | .queueDisable f q => Sys2Proof.Machine.execQueueDisable f q s
  | .queueStopped f q => Sys2Proof.Machine.execQueueStopped f q s
  | .nop => Sys2Proof.Machine.execNop s
  | .run => Sys2Proof.Machine.execRun s
  | .runHeldStart => Sys2Proof.Machine.execRunHeldStart s
  | .pfxLookup => Sys2Proof.Machine.execPfxLookup s
  | .seqClose => Sys2Proof.Machine.execSeqClose s
  | .pfxInsert => Sys2Proof.Machine.execPfxInsert s
  | .pfxRelease => Sys2Proof.Machine.execPfxRelease s
  | .pfxEvict => Sys2Proof.Machine.execPfxEvict s
  | .memcpyHostToDevice => Sys2Proof.Machine.execMemcpyHostToDevice s
  | .memcpyDeviceToHost => Sys2Proof.Machine.execMemcpyDeviceToHost s
  | .memcpyDeviceToDevice => Sys2Proof.Machine.execMemcpyDeviceToDevice s
  | .memcpyRemote => Sys2Proof.Machine.execMemcpyRemote s
  | .mailboxWrite => Sys2Proof.Machine.execMailboxWrite s
  | .cqEnable f r => Sys2Proof.Machine.execCqEnable f r s
  | .cqDisable f r => Sys2Proof.Machine.execCqDisable f r s
  | .cqHeadWrite f r v => Sys2Proof.Machine.execCqHeadWrite f r v s
  | .irqModerationEnd f r => Sys2Proof.Machine.execIrqModerationEnd f r s
  | .apertureRead f a n => Sys2Proof.Machine.execApertureRead f a n s
  | .apertureWrite f a data poison => Sys2Proof.Machine.execApertureWrite f a data poison s
  | .winAssign => Sys2Proof.Machine.execWinAssign s
  | .winRelease => Sys2Proof.Machine.execWinRelease s
  | .qassignWrite f v => Sys2Proof.Machine.execQassignWrite f v s
  | .bmeClear f => Sys2Proof.Machine.execBmeClear f s
  | .bmeSet f => Sys2Proof.Machine.execBmeSet f s
  | .heartbeatKick f => Sys2Proof.Machine.execHeartbeatKick f s
  | .heartbeatExpire f => Sys2Proof.Machine.execHeartbeatExpire f s
  | .hbexpClear f => Sys2Proof.Machine.execHbexpClear f s
  | .flr f => Sys2Proof.Machine.execFlr f s
  | .pfFlr => Sys2Proof.Machine.execPfFlr s
  | .flrDone f => Sys2Proof.Machine.execFlrDone f s
  | .hotReset => Sys2Proof.Machine.execHotReset s
  | .perstDeassert => Sys2Proof.Machine.execPerstDeassert s
  | .configRequest f off size w => Sys2Proof.Machine.execConfigRequest f off size w s
  | .pipeConfigWrite f r b v => Sys2Proof.Machine.execPipeConfigWrite f r b v s
  | .splitWindowEnd c => Sys2Proof.Machine.execSplitWindowEnd c s
  | .contextSwitch c => Sys2Proof.Machine.execContextSwitch c s
  | .switchDone c sl => Sys2Proof.Machine.execSwitchDone c sl s
  | .stormWindowEnd c => Sys2Proof.Machine.execStormWindowEnd c s
  | .ftcPeriodEnd => Sys2Proof.Machine.execFtcPeriodEnd s
  | .syncPulse => Sys2Proof.Machine.execSyncPulse s
  | .ftcStep => Sys2Proof.Machine.execFtcStep s
  | .ftcSyncTimeout => Sys2Proof.Machine.execFtcSyncTimeout s
  | .traceEnable f c sl v => Sys2Proof.Machine.execTraceEnable f c sl v s
  | .traceRingWrite c => Sys2Proof.Machine.execTraceRingWrite c s
  | .traceStamp c sl => Sys2Proof.Machine.execTraceStamp c sl s
  | .eclArm => Sys2Proof.Machine.execEclArm s
  | .eclCancel => Sys2Proof.Machine.execEclCancel s
  | .eclResume => Sys2Proof.Machine.execEclResume s
  | .eclipseStop => Sys2Proof.Machine.execEclipseStop s
  | .eclipseStopped => Sys2Proof.Machine.execEclipseStopped s
  | .eclipseRestart => Sys2Proof.Machine.execEclipseRestart s
  | .ephEnable f v => Sys2Proof.Machine.execEphEnable f v s
  | .idlePowerOff c => Sys2Proof.Machine.execIdlePowerOff c s
  | .clusterPowerUp c => Sys2Proof.Machine.execClusterPowerUp c s
  | .supplySample mv uj us => Sys2Proof.Machine.execSupplySample mv uj us s
  | .brownoutRelease => Sys2Proof.Machine.execBrownoutRelease s
  | .brownoutTimeout => Sys2Proof.Machine.execBrownoutTimeout s
  | .orderlyShutdown => Sys2Proof.Machine.execOrderlyShutdown s
  | .sensorRead clu die hub => Sys2Proof.Machine.execSensorRead clu die hub s
  | .clockRestart c => Sys2Proof.Machine.execClockRestart c s
  | .fastLimiterSample w10 ms low => Sys2Proof.Machine.execFastLimiterSample w10 ms low s
  | .budgetDivide other req => Sys2Proof.Machine.execBudgetDivide other req s
  | .stewardLoop k die pavg pmax1 => Sys2Proof.Machine.execStewardLoop k die pavg pmax1 s
  | .watchdogFire k => Sys2Proof.Machine.execWatchdogFire k s
  | .stewardRestartDone k ok => Sys2Proof.Machine.execStewardRestartDone k ok s
  | .floorGovernorTick k w => Sys2Proof.Machine.execFloorGovernorTick k w s
  | .emRead f off size => Sys2Proof.Machine.execEmRead f off size s
  | .emWrite f off size v => Sys2Proof.Machine.execEmWrite f off size v s
  | .emWriteApply k => Sys2Proof.Machine.execEmWriteApply k s
  | .fwWrite f off data => Sys2Proof.Machine.execFwWrite f off data s
  | .fwVerify f => Sys2Proof.Machine.execFwVerify f s
  | .svnCommit f => Sys2Proof.Machine.execSvnCommit f s
  | .keylockSet f => Sys2Proof.Machine.execKeylockSet f s
  | .keySlotWrite f off v => Sys2Proof.Machine.execKeySlotWrite f off v s
  | .getVersion f req => Sys2Proof.Machine.execGetVersion f req s
  | .getCapabilities f req => Sys2Proof.Machine.execGetCapabilities f req s
  | .negotiateAlgorithms f req => Sys2Proof.Machine.execNegotiateAlgorithms f req s
  | .getDigests f req => Sys2Proof.Machine.execGetDigests f req s
  | .getCertificate f req => Sys2Proof.Machine.execGetCertificate f req s
  | .challenge f req => Sys2Proof.Machine.execChallenge f req s
  | .getMeasurements f req => Sys2Proof.Machine.execGetMeasurements f req s
  | .coreHeartbeatSample c missed => Sys2Proof.Machine.execCoreHeartbeatSample c missed s
  | .coreLost c core eng lane => Sys2Proof.Machine.execCoreLost c core eng lane s
  | .dieFence d => Sys2Proof.Machine.execDieFence d s
  | .dieFenceCmd v => Sys2Proof.Machine.execDieFenceCmd v s
  | .rgnAbort f v => Sys2Proof.Machine.execRgnAbort f v s
  | .bringUp p found dies stks stw => Sys2Proof.Machine.execBringUp p found dies stks stw s
  | .bringUpStop => Sys2Proof.Machine.execBringUpStop s
  | .pwrEnDeassert => Sys2Proof.Machine.execPwrEnDeassert s
  | .referenceLoss => Sys2Proof.Machine.execReferenceLoss s
  | .holdoverExit => Sys2Proof.Machine.execHoldoverExit s
  | .coolantSensorRead tin tout => Sys2Proof.Machine.execCoolantSensorRead tin tout s
  | .entdaa a => Sys2Proof.Machine.execEntdaa a s
  | .rstdaa => Sys2Proof.Machine.execRstdaa s
  | .setnewda a => Sys2Proof.Machine.execSetnewda a s
  | .getpid => Sys2Proof.Machine.execGetpid s
  | .getbcr => Sys2Proof.Machine.execGetbcr s
  | .getdcr => Sys2Proof.Machine.execGetdcr s
  | .getstatus => Sys2Proof.Machine.execGetstatus s
  | .enec mask => Sys2Proof.Machine.execEnec mask s
  | .disec mask => Sys2Proof.Machine.execDisec mask s
  | .hotJoin => Sys2Proof.Machine.execHotJoin s
  | .pldmRequest req => Sys2Proof.Machine.execPldmRequest req s
  | .seedWrite f c sl v => Sys2Proof.Machine.execSeedWrite f c sl v s
  | .seedApply c sl => Sys2Proof.Machine.execSeedApply c sl s
  | .precCtlWrite f c v => Sys2Proof.Machine.execPrecCtlWrite f c v s
  | .saveAreaWrite v => Sys2Proof.Machine.execSaveAreaWrite v s
  | .prioWrite v => Sys2Proof.Machine.execPrioWrite v s
  | .rcRead f addr size => Sys2Proof.Machine.execRcRead f addr size s
  | .registerWrite f addr size v => Sys2Proof.Machine.execRegisterWrite f addr size v s
  | .fwVerifyDone ok svn dig => Sys2Proof.Machine.execFwVerifyDone ok svn dig s
  | .heartbeatDisable f => Sys2Proof.Machine.execHeartbeatDisable f s
  | .memcpyComplete id hostErr => Sys2Proof.Machine.execMemcpyComplete id hostErr s

end Sys2Proof.Machine
end

