-- ==== Sys2Proof/Machine/Tick.lean ====
section
/-! DEFINITION. What an idle tick does (log entry 45): time passes, each cluster's sequencer issues at most one instruction of its
program (R151, R153, R157), and the engine waits of the split's window are counted (R424). -/

namespace Sys2Proof.Machine

/-- A slot that waits tries to go on, by the reason of its wait. -/
def resumeSlot (c sl : Nat) (s : State) : State :=
  let k := getSlot s c sl
  match k.waiting with
  | none => s
  | some i =>
    if inHalt k then doProgramEnd c sl s
    else match k.why with
      | .waitc => doWaitcResume c sl s
      | .waitop => doWaitopResume c sl s
      | .fence => doFenceResume c sl s
      | .interlock => if (srcRegs i).all (rready k) then doInterlockResume c sl s else s
      | .overlap => if isLdst i then doLdstResume c sl s else doIssueResume c sl s
      | .room => doIssueResume c sl s
      | .none => doLdstResume c sl s

/-- A running slot issues the instruction at its PC. -/
def fetchRun (c sl : Nat) (s : State) : State :=
  let k := getSlot s c sl
  match decodeSeq c sl (tabGet 0 k.prog k.pc.toNat) with
  | some i => runSeq c sl i s
  | none => issueWith s c sl [] (.halt c sl 0) (fun s => instrFault s c sl cSeqIllegal 0)

/-- A slot tries to issue: at its PC where it runs, the waiting instruction where it waits. -/
def trySlot (c sl : Nat) (s : State) : State :=
  match (getSlot s c sl).st with
  | .running => fetchRun c sl s
  | .waiting => resumeSlot c sl s
  | _ => s

/-- The slot may try to issue: it waits, or runs, has not just yielded, and its region is not DEGRADED (R151, R156, R538). -/
def ableSlot (s : State) (c sl : Nat) : Bool :=
  let k := getSlot s c sl
  match k.st with
  | .running => !k.yielded && !slotDegraded s c sl
  | .waiting => true
  | _ => false

/-- A slot `k` that became `k'` by trying is held by a wait or an interlock and has issued nothing: it waits on, or has come to wait
for a value, for ranges, for room or for trace room (R151, R158, R174, R473). -/
def stillHeld (k k' : Slot) : Bool :=
  match k'.st with
  | .waiting => match k'.why with
    | .waitc | .waitop | .fence => k.why == k'.why
    | _ => true
  | .running => k'.trcWait == k.trcWait + 1
  | _ => false

/-- The slot is ready (R151): what it tries is held by no wait and no interlock. -/
def slotReady (s : State) (c sl : Nat) : Bool :=
  ableSlot s c sl && !stillHeld (getSlot s c sl) (getSlot (trySlot c sl s) c sl)

/-- The slot that issues: the highest class first, slots of one class in round-robin order (R151). -/
def pickSlot (s : State) (c : Nat) : Option Nat :=
  let code := fun n => clsCode (getSlot s c n).cls
  let turn := fun n => (n + 4 - tabGet 0 (getClu s c).rr (code n) % 4) % 4
  (sortBy (fun a b => decide (code a < code b) || (code a == code b && decide (turn a < turn b)))
    ((List.range 4).filter (slotReady s c))).head?

/-- One cycle of a cluster's sequencer: the slot of R151 issues, and each slot that is held waits a cycle, which is counted by the
wait's present kind (R174, R188, R473). -/
def seqCycle (s : State) (c : Nat) : State :=
  if !cluRuns s c then s
  else
    let slept := (List.range 4).filter (fun n => (getSlot s c n).yielded)
    let pick := pickSlot s c
    let rest := (List.range 4).filter (fun n => pick != some n && !(getSlot s c n).busy.isEmpty)
    let s := rest.foldl (fun s n => modSlot s c n (fun k => ageBusy k 1)) s
    let held := (List.range 4).filter (fun n => pick != some n && ableSlot s c n && !slotReady s c n)
    let s := held.foldl (fun s n => trySlot c n s) s
    let s := match pick with
      | none => s
      | some n =>
        let cls := (getSlot s c n).cls
        modClu (trySlot c n s) c (fun k => { k with rr := tabSet k.rr (clsCode cls) ((n + 1) % 4) })
    slept.foldl (fun s n => modSlot s c n (fun k => { k with yielded := false })) s

/-- Clusters with a slot that runs or waits. -/
def busyClusters (s : State) : List Nat :=
  uniq ((s.cl.slots.filter (fun p => p.2.st == .running || p.2.st == .waiting)).map (fun p => p.1 / 4))

/-- The engine operations of a cluster that wait for engines, to start or to replay, of class U or of the others (R424). -/
def waitingOps (k : Clu) (u : Bool) : Nat :=
  (k.ops.filter (fun o => isEngine o && waitsEngines o.phase && (o.cls == .u) == u)).length

/-- A tick's contribution to the averages of R424. -/
def addWaits (k : Clu) : Clu :=
  if k.ops.isEmpty then k else { k with sumU := k.sumU + waitingOps k true, sumN := k.sumN + waitingOps k false }

/-- One cycle of the waits at the engine split of a cluster whose clock runs: CLU_SPLIT_WAIT counts each tile that it holds
(R422). -/
def splitCycle (s : State) (c : Nat) : State :=
  if cluRuns s c then
    bumpC s c oSplitWait
      (((getClu s c).ops.filter (fun o => isEngine o && waitsEngines o.phase && splitBlocks s c o)).length)
  else s

/-- Clusters with operations in flight. -/
def opClusters (s : State) : List Nat := (s.cl.clus.filter (fun p => !p.2.ops.isEmpty)).map (·.1)

/-- Clusters at whose banks a requester waits. -/
def bankClusters (s : State) : List Nat := (s.cl.clus.filter (fun p => !p.2.banks.isEmpty)).map (·.1)

/-- One cycle of the banks of a cluster whose clock runs (R124). -/
def bankCycles (s : State) (c : Nat) : State := if cluRuns s c then bankTick s c else s

/-- An idle tick. -/
def tick (s : State) : State :=
  if !s.pow.on then s
  else
    let s := (opClusters s).foldl splitCycle ((busyClusters s).foldl seqCycle s)
    let s := memTick (wayTick ((bankClusters s).foldl bankCycles s))
    eclBoundary <| passTick { s with cl.clus := s.cl.clus.map (fun p => (p.1, addWaits p.2)) }

end Sys2Proof.Machine
end

