-- ==== Sys2Proof/Safety.lean ====
section
/-! DEFINITION. What claims call a good state and a good outcome. -/

namespace Sys2Proof.Machine

/-- Every byte memory of the state has the canonical form, and the tables of poison marks and of errors list rising keys. -/
def State.memOk (s : State) : Bool :=
  Memory.wf s.cl.spad && Memory.wf s.cl.wst && Memory.wf s.mem.dev && Memory.wf s.host && Memory.wf s.lnk.rt &&
    Memory.wf s.sec.keys && tabSorted s.cl.spadPoi && tabSorted s.cl.spadErr && tabSorted s.cl.wErr &&
    tabSorted s.mem.devPoi && tabSorted s.mem.devErr

/-- The outcome is a next state. -/
def goesOn (o : Host.Outcome State Fault Refusal) : Bool :=
  match o with
  | .next _ => true
  | .fault _ => false
  | .refused _ => false

/-! ### What statements speak of -/

/-- Command `i` answers a next state, and `p` holds of it. -/
def gives (i : Instr) (s : State) (p : State → Prop) : Prop := ∃ t, exec i s = .next t ∧ p t

/-- Slot `sl` of cluster `c` exists, the module is on and the cluster's compute clock runs. -/
def slotLive (s : State) (c sl : Nat) : Prop := c < Config.clusters ∧ sl < 4 ∧ s.pow.on = true ∧ cluRuns s c = true

/-- Slot `sl` of cluster `c` issues in its next cycle an instruction that reads the registers `rs` (R151, R153, R158). -/
def ready (s : State) (c sl : Nat) (rs : List (BitVec 5)) : Prop := slotLive s c sl ∧ canIssue s c sl rs = true

/-- `t` is `s` but for slots, and in these but for slot `sl` of cluster `c`. -/
def onlySlot (c sl : Nat) (s t : State) : Prop :=
  t = { s with cl.slots := t.cl.slots } ∧
    ∀ k, k ≠ 4 * c + sl → tabGet slotReset t.cl.slots k = tabGet slotReset s.cl.slots k

/-- `t` is `s` but for the cluster parts, slots and counters: no memory, no other unit changes; the other slots and the other
clusters stay. -/
def onlyCluster (c sl : Nat) (s t : State) : Prop :=
  t = { s with cl := { s.cl with clus := t.cl.clus, slots := t.cl.slots }, ctrs := t.ctrs, nowTick := t.nowTick
               nowCtr := t.nowCtr, nowSet := t.nowSet, fresh := t.fresh } ∧
    (∀ k, k ≠ 4 * c + sl → tabGet slotReset t.cl.slots k = tabGet slotReset s.cl.slots k) ∧
    ∀ k, k ≠ c → getClu t k = getClu s k

/-- Slot `l` is slot `k` after an instruction that writes no register but `rd`; PC, the interlock, its trace and the time of the last
issue may change. -/
def onlyReg (rd : BitVec 5) (k l : Slot) : Prop :=
  l = { k with regs := l.regs, busy := l.busy, pc := l.pc, lastIssue := l.lastIssue, yielded := l.yielded, trc := l.trc
               trcWait := l.trcWait } ∧
    ∀ r, r ≠ rd → rget l r = rget k r

/-- An instruction of the slot has written `v` to `rd` (nothing where `rd` is s0) and put PC at `pc`, and nothing else. -/
def wrote (c sl : Nat) (rd : BitVec 5) (v : Word) (pc : BitVec 14) (s t : State) : Prop :=
  onlySlot c sl s t ∧ onlyReg rd (getSlot s c sl) (getSlot t c sl) ∧
    sreg t c sl rd = (if rd = 0 then 0 else v) ∧ (getSlot t c sl).pc = pc

/-- PC of a slot, and the PC behind it. -/
def pcOf (s : State) (c sl : Nat) : BitVec 14 := (getSlot s c sl).pc
def pcNext (s : State) (c sl : Nat) : BitVec 14 := (getSlot s c sl).pc + 1

/-- The byte at physical scratchpad address `p` of a cluster as a narrow access sees it: the gather buffer's where it holds
the word, else the array's (R125, R126). -/
def seenByte (s : State) (c p : Nat) : Byte :=
  match gatherEnt s c (p / 32) with
  | some e => nth 0 e.data (p % 32)
  | none => memGet s.cl.spad (spadKey c p)

/-- The number that `n` bytes from `p` spell, as a narrow access sees them. -/
def seenNat (s : State) (c p n : Nat) : Nat := leNat ((List.range n).map (fun i => seenByte s c (p + i)))

/-- The context address of a load or store. -/
def ldAddr (s : State) (c sl : Nat) (rs1 : BitVec 5) (imm : BitVec 16) : Nat := (sreg s c sl rs1 + imm.signExtend 64).toNat

/-- A load or store of `n` bytes at context address `a` goes on: aligned, inside the partition, no pending range in the way,
the word sound, and room in the gather buffer (R125, R127, R157, R175). -/
def accessGoes (s : State) (c sl a n : Nat) (write : Bool) : Prop :=
  a % n = 0 ∧ a + n ≤ partSize s c sl ∧ rngWaits s c (toWords (partBase s c sl + a) n write) = false ∧
    wordPoi s c ((partBase s c sl + a) / 32) = false ∧
    tabGet 0 s.cl.spadErr (wordKey c ((partBase s c sl + a) / 32)) = 0 ∧
    ((gatherEnt s c ((partBase s c sl + a) / 32)).isSome = true ∨ (makeRoom (getClu s c).gather).isSome = true)

/-- `t` is `s` but for the cluster part of `c` and the counters: no array, no slot, no other unit and no other cluster
changes. -/
def onlyOps (c : Nat) (s t : State) : Prop :=
  t = { s with cl.clus := t.cl.clus, ctrs := t.ctrs, nowTick := t.nowTick, nowCtr := t.nowCtr, nowSet := t.nowSet
               fresh := t.fresh } ∧ ∀ k, k ≠ c → getClu t k = getClu s k

/-- As `onlyOps`, and the scratchpads with their marks and the cluster's gather buffer are those of `w`. -/
def onlyStored (c : Nat) (s w t : State) : Prop :=
  t = { s with cl := { s.cl with clus := t.cl.clus, spad := w.cl.spad, spadPoi := w.cl.spadPoi, spadErr := w.cl.spadErr }
               ctrs := t.ctrs, nowTick := t.nowTick, nowCtr := t.nowCtr, nowSet := t.nowSet, fresh := t.fresh } ∧
    (getClu t c).gather = (getClu w c).gather ∧ ∀ k, k ≠ c → getClu t k = getClu s k

/-- Operation `o` of slot `sl` with ticket `tk` is in flight in phase `ph`, and its cluster's clock runs. -/
def hasOp (s : State) (c sl tk : Nat) (o : Op) (ph : Phase) : Prop :=
  slotLive s c sl ∧ findOp s c sl tk = some o ∧ o.phase = ph

/-- The operation is in flight in phase `ph`, nothing else of it changed. -/
def nowIn (t : State) (c sl tk : Nat) (o : Op) (ph : Phase) : Prop := findOp t c sl tk = some { o with phase := ph }

/-- The counter at `a`, of `w` bits, has been raised by `n` and holds at its largest value. -/
def raised (w a n : Nat) (s t : State) : Prop :=
  ctr t a = if n = 0 then ctr s a else min (ctr s a + n) (2 ^ w - 1)

/-- `t` is `s` but for the common part of cluster `c`: no array, no slot, no counter, no other unit and no other cluster changes. -/
def onlyClu (c : Nat) (s t : State) : Prop := t = { s with cl.clus := t.cl.clus } ∧ ∀ k, k ≠ c → getClu t k = getClu s k

/-- Operands of a slot are read in state `s`, each as its first bytes, and no word of them holds errors, is poisoned or awaits a
write-back; an absent operand reads as no bytes. In `t`, behind the reads, only banks and gather buffer of the cluster are not
as they were. -/
def clean (c : Nat) (u : BankUser) (sl : Nat) : List (Opnd × Nat × List Byte) → State → State → Prop
  | [], s, t => t = s
  | (r, n, bs) :: l, s, t => ∃ s1, readOpnd s c u sl r n = (s1, bs, false) ∧ onlyClu c s s1 ∧ clean c u sl l s1 t

/-- The byte strings `ws` are written over operands of the slot, no poisoned word refuses, and the arrays are then `w`'s. -/
def puts (s : State) (c : Nat) (u : BankUser) (sl : Nat) (ws : List (Opnd × Nat × List Byte)) (w : State) : Prop :=
  writeAll s c u sl ws = (w, false)

/-- The gains `gs` that `n` rows take from the named GAIN operand `r`: without an accord, or where its entry names no gain table, the
operand's own; else the table's where it has an entry for the row (R283). `t` is the state behind the reads and counts. -/
def gainsAre (c : Nat) (o : Op) (r : Opnd) (n : Nat) (gs : List W32) (s t : State) : Prop :=
  ((o.accord = 0 ∨ ∃ x, findEnt s c o.sl o.accord = some x ∧ entGcount x = 0) ∧
    ∃ own, clean c .vec o.sl [(r, 2 * n, own)] s t ∧ gs = readVals .bf16 n own) ∨
  ∃ x tb ps own s1 s2, o.accord ≠ 0 ∧ findEnt s c o.sl o.accord = some x ∧ entGcount x ≠ 0 ∧
    32 * entGbase x + 8 * entGcount x ≤ partSize s c o.sl ∧
    spadRead s c .vec (partBase s c o.sl + 32 * entGbase x) (8 * entGcount x) = (s1, tb, ps) ∧ ps.any id = false ∧
    onlyClu c s s1 ∧
    let ents := gainEnts (gainTable tb) none
    clean c .vec o.sl [(r, 2 * n, own)] (bumpC s1 c oAccDrop ents.2) s2 ∧ gs = (gainVals r n own ents.1).1 ∧
      t = bumpC s2 c oAccGpatch (gainVals r n own ents.1).2

/-- `vs` are the values of an accumulator block `bs` of `n` rows with the gains of operand `r`, where it is present (R55, R603). -/
def blockIs (c : Nat) (o : Op) (r : Opnd) (n : Nat) (bs : List Byte) (vs : List FV) (s t : State) : Prop :=
  (r.present = false ∧ t = s ∧ vs = blockVals n bs none) ∨
    (r.present = true ∧ ∃ gs, gainsAre c o r n gs s t ∧ vs = blockVals n bs (some gs))

/-- An access of the weight store meets a RESIDENT tile without errors. -/
def accSound (s : State) (c : Nat) (x : WAcc) : Prop :=
  let whole := fun (a : Nat) => (getTile s c (a / 4096)).st = .resident ∧ ∀ y ∈ lineChunks a, tabGet 0 s.cl.wErr (chunkKey c y) = 0
  match x with
  | .dir a => whole a
  | .rline a => whole a
  | .line a _ => whole a
  | .chunk a _ => (getTile s c (a / 4096)).st = .resident ∧ tabGet 0 s.cl.wErr (chunkKey c a) = 0
  | .record ok _ => ok = true

/-- Every access of a pass is sound. -/
def weightsSound (s : State) (c : Nat) (o : Op) (src mask : List Byte) : Prop :=
  ∀ x ∈ passAccs s c o src (passRun s c o src mask), accSound s c x.2

/-- The byte of row `r` and group `j` of share `e` in the run that a descriptor names (R139). -/
def runByte (s : State) (c : Nat) (d : List Byte) (e r j : Nat) : Nat :=
  let g := groupsPerTile (shareQ d)
  wByte s c (quarterBase d e + 4096 * (firstTile d + j / g) + (j % g * shareQ d + (r - e * shareQ d)))


/-- `t` is `s` but for the requests that wait at the memory stacks. -/
def onlyAsks (s t : State) : Prop := t = { s with mq := t.mq }

/-- `n` bytes of function `f`'s device memory at `a` read as `bs` for a requester of class `k`, and no codeword of them holds errors
or is poisoned; `t` is the state behind the read. -/
def sees (k : Cls) (f a n : Nat) (bs : List Byte) (s t : State) : Prop := tenRead s k f a n = some (t, bs, false) ∧ onlyAsks s t

/-- No codeword of a stack holds errors or is poisoned, no lane has failed and no stack. -/
def stacksSound (s : State) : Prop :=
  s.mem.devErr = [] ∧ s.mem.devPoi = [] ∧ ∀ k, (getStack s k).bad = [] ∧ stackFailed s k = false

/-- SEQ and LAYER of an operation select share `sh` in the directory of its slot (R215, R606); `t` is the state behind the reads of
the share record and its layout. -/
def shareIs (c : Nat) (o : Op) (h : KvHdr) (sh : Share) (s t : State) : Prop :=
  (getSlot s c o.sl).kvHdr = some h ∧ kSeq o.desc % 2 ^ 24 < h.seqcap ∧ h.l0 ≤ kLayer o.desc ∧
    kLayer o.desc < h.l0 + h.nl ∧
    ∃ r l s1, sees o.cls (slotFn s c o.sl) (shareAddr h (kSeq o.desc % 2 ^ 24) (kLayer o.desc)) 576 r s s1 ∧
      bitB (leAt r 0 4) 0 = true ∧ bits (leAt r 0 4) 15 8 = kSeq o.desc / 2 ^ 24 ∧
      sees o.cls (slotFn s c o.sl) (leAt r 32 8) 136 l s1 t ∧ layOk l = true ∧
      sh = mkShare (shareAddr h (kSeq o.desc % 2 ^ 24) (kLayer o.desc)) (kSeq o.desc % 2 ^ 24) (kLayer o.desc) r l ∧
      sh.f ≤ sh.c ∧ sh.c ≤ sh.f + sh.cap

/-- As `onlyOps`; the requests at the memory stacks may change too. -/
def onlyRead (c : Nat) (s t : State) : Prop :=
  t = { s with cl.clus := t.cl.clus, mq := t.mq, ctrs := t.ctrs, nowTick := t.nowTick, nowCtr := t.nowCtr, nowSet := t.nowSet
               fresh := t.fresh } ∧ ∀ k, k ≠ c → getClu t k = getClu s k

/-- As `onlyStored`, and the memory stacks, the requests there and the reports of mailbox writes are those of `m`; the walker's
header of the slot may change. -/
def onlyKv (c sl : Nat) (s w m t : State) : Prop :=
  t = { s with cl := { s.cl with clus := t.cl.clus, slots := t.cl.slots, spad := w.cl.spad, spadPoi := w.cl.spadPoi
                                 spadErr := w.cl.spadErr }
               mem := m.mem, mq := m.mq, hub := { s.hub with mbx := m.hub.mbx }, ctrs := t.ctrs, nowTick := t.nowTick
               nowCtr := t.nowCtr, nowSet := t.nowSet, fresh := t.fresh } ∧
    (getClu t c).gather = (getClu w c).gather ∧
    (∀ k, k ≠ c → getClu t k = getClu s k) ∧
    ∀ k, tabGet slotReset t.cl.slots k = { tabGet slotReset s.cl.slots k with kvHdr := (tabGet slotReset t.cl.slots k).kvHdr } ∧
      (k ≠ 4 * c + sl → tabGet slotReset t.cl.slots k = tabGet slotReset s.cl.slots k)


/-- The stored register at `a` has become `v`; no other register and nothing else has changed. -/
def setsReg (a v : Nat) (s t : State) : Prop :=
  t = { s with regs := t.regs } ∧ reg t a = v ∧ ∀ x, x ≠ a → reg t x = reg s x

/-- The bytes from `a` have become `bs`; every other byte of the memory is as it was. -/
def bytesNow (m n : Mem) (a : Nat) (bs : List Byte) : Prop :=
  ∀ x, memGet n x = if a ≤ x ∧ x < a + bs.length then nth 0 bs (x - a) else memGet m x

/-- The `k` bytes from `a` have become zero; every other byte of the memory is as it was. -/
def zeroNow (m n : Mem) (a k : Nat) : Prop := ∀ x, memGet n x = if a ≤ x ∧ x < a + k then 0 else memGet m x

/-- The work items of function `f` that a loss of the regions `rs` faults (R394, R538). -/
def lostItems (s : State) (f : Nat) (rs : List Nat) : List Nat :=
  (rs.filter (fun r => match getRegion s r with | some d => d.f == f | none => false)).flatMap (faultItems s)

/-- Function `f` exists, and the module is on. -/
def funcLive (s : State) (f : Nat) : Prop := f < Config.functions ∧ f ≤ s.hub.numVfs ∧ s.pow.on = true


/-- The dispatch unit, the load path and the prefix walker work. -/
def dispLive (s : State) : Prop := s.pow.on = true ∧ eclHalted s = false ∧ s.pow.shut = none

/-- The completion record of item `i` can be written now: to ring `r`, in host memory. -/
def toRing (s : State) (i : Item) (r : Nat) : Prop :=
  (getFunc s i.f).flrbusy = false ∧ recRing s i.f i.q i.desc = some r ∧ dmaHeld s i.f = false ∧ cqFull s i.f r = false ∧
    (getRing s i.f r).held = [] ∧ bitB (tenReg s i.f (oCqCfg r)) 5 = false

/-- Item `i` has completed: it is gone, its record with `status` and `result` is the next of ring `r`, whose vector may have
been raised; nothing else has changed from `w`. -/
def recorded (w : State) (i : Item) (r status result : Nat) (frec : Bool) (t : State) : Prop :=
  let n := (getRing w i.f r).tail
  let x : CRec := { utag := dUtag i.desc, result := result % 2 ^ 32, sq := i.q, sqpos := i.pos % 2 ^ 16, status := status
                    frec := frec, irq := dIrq i.desc || status != 0 }
  t = { w with
        hub := { w.hub with items := w.hub.items.filter (fun y => y.id != i.id), rings := t.hub.rings, funcs := t.hub.funcs }
        host := memPut w.host (tenReg w i.f (oCqAddr r) + 16 * (n % cqSize w i.f r)) (recBytes x n (cqSize w i.f r))
        out := t.out } ∧
    (getRing t i.f r).tail = (n + 1) % 2 ^ 32

/-- Item `i` is the dispatch unit's next start of opcode `opc`, it passes checks 2 and 3, its ring is not full, its
function's memory answers, and no ephemeris ring captures it. -/
def startable (s : State) (opc : Nat) (i : Item) : Prop :=
  dispLive s ∧ takenItem s opc = some i ∧ earlyCheck s i = none ∧ ringFull s i.f i.q i.desc = false ∧
    funcWaits s i.f = false ∧ ephQueue s i.f i.q = false

/-- The item passes checks 4 to 8 on region `r`, which is not held; `t` is the state behind the reads of check 6. -/
def reaches (s : State) (i : Item) (r : Nat) (d : Region) (t : State) : Prop :=
  reachRegion s i = .ok r ∧ getRegion s r = some d ∧ d.replaceHold = false ∧ d.closing = false ∧
    seqCheck s i.desc r = (t, 0) ∧ onlyAsks s t ∧ (d.degraded = false ∨ dOpc i.desc = 0x11) ∧ rangesOk s i = true

/-- Bytes written at a tenant address. -/
def ten (k : Cls) (f a : Nat) (bs : List Byte) (s : State) : State := tenWrite s k f a bs false

end Sys2Proof.Machine
end

