-- ==== Sys2Proof/Certificates/Slice0/Obligations.lean ====
section
/-! DEFINITION. The statements for the provers. `gives i s p` says that command `i` answers a next state of which `p` holds;
the words that the statements share stand in Safety.lean. -/

open Sys2Proof Sys2Proof.Machine

/-! ### The sequencer (06_sequencer.md) -/

/-- R155: what the func field selects, 15 to 2,047 reserved, and the fifteen three-register operations; the frame: nothing but rd,
PC and the interlock changes. -/
def Obligations.AluRegisters : Prop :=
  ∀ (s : State) (c sl : Nat) (rd rs1 rs2 : BitVec 5),
    let a := sreg s c sl rs1
    let b := sreg s c sl rs2
    let n := b.toNat % 64
    let res := fun (i : Instr) (v : Word) => gives i s (wrote c sl rd v (pcNext s c sl) s)
    let op := fun (g : Nat → Nat → BitVec 5 → BitVec 5 → BitVec 5 → Instr) => g c sl rd rs1 rs2
    (∀ f : BitVec 11, decodeSeq c sl ((0 : BitVec 6) ++ rd ++ rs1 ++ rs2 ++ f) =
      [op .add, op .sub, op .and, op .or, op .xor, op .sll, op .srl, op .sra, op .slt, op .sltu, op .mul, op .min,
        op .max, op .minu, op .maxu][f.toNat]?) ∧
    (ready s c sl [rs1, rs2] →
      res (.add c sl rd rs1 rs2) (a + b) ∧ res (.sub c sl rd rs1 rs2) (a - b) ∧
      res (.and c sl rd rs1 rs2) (a &&& b) ∧ res (.or c sl rd rs1 rs2) (a ||| b) ∧ res (.xor c sl rd rs1 rs2) (a ^^^ b) ∧
      res (.sll c sl rd rs1 rs2) (a <<< n) ∧ res (.srl c sl rd rs1 rs2) (a >>> n) ∧
      res (.sra c sl rd rs1 rs2) (a.sshiftRight n) ∧
      res (.slt c sl rd rs1 rs2) (if a.toInt < b.toInt then 1 else 0) ∧
      res (.sltu c sl rd rs1 rs2) (if a.toNat < b.toNat then 1 else 0) ∧
      res (.mul c sl rd rs1 rs2) (BitVec.ofNat 64 (a.toNat * b.toNat)) ∧
      res (.min c sl rd rs1 rs2) (if a.toInt ≤ b.toInt then a else b) ∧
      res (.max c sl rd rs1 rs2) (if a.toInt ≤ b.toInt then b else a) ∧
      res (.minu c sl rd rs1 rs2) (if a.toNat ≤ b.toNat then a else b) ∧
      res (.maxu c sl rd rs1 rs2) (if a.toNat ≤ b.toNat then b else a))

/-- R154: the immediate operations and LDI, with the extensions of their immediates; shifts with imm[15:6] = 0, LDI with its
field [20:18] = 0. -/
def Obligations.AluImmediates : Prop :=
  ∀ (s : State) (c sl : Nat) (rd rs1 : BitVec 5) (imm : BitVec 16),
    let a := sreg s c sl rs1
    let res := fun (i : Instr) (v : Word) => gives i s (wrote c sl rd v (pcNext s c sl) s)
    (ready s c sl [rs1] →
      res (.addi c sl rd rs1 imm) (a + imm.signExtend 64) ∧ res (.andi c sl rd rs1 imm) (a &&& imm.zeroExtend 64) ∧
        res (.ori c sl rd rs1 imm) (a ||| imm.zeroExtend 64) ∧ res (.xori c sl rd rs1 imm) (a ^^^ imm.zeroExtend 64) ∧
        res (.slti c sl rd rs1 imm) (if a.toInt < imm.toInt then 1 else 0)) ∧
    (ready s c sl [rs1] → imm.toNat < 64 →
      res (.slli c sl rd rs1 imm) (a <<< imm.toNat) ∧ res (.srli c sl rd rs1 imm) (a >>> imm.toNat) ∧
        res (.srai c sl rd rs1 imm) (a.sshiftRight imm.toNat)) ∧
    (ready s c sl [rd] → ∀ q : BitVec 2, ∃ v : Word, res (.ldi c sl rd 0 q imm) v ∧
      ∀ i, i < 64 → v.getLsbD i =
        if 16 * q.toNat ≤ i ∧ i < 16 * q.toNat + 16 then imm.getLsbD (i - 16 * q.toNat) else (sreg s c sl rd).getLsbD i)

/-- R154: the six comparisons, JAL and JALR. A branch is held only where stall mode of the trace has no room (R473). -/
def Obligations.Branches : Prop :=
  ∀ (s : State) (c sl : Nat) (rd rs1 rs2 : BitVec 5) (off imm : BitVec 16) (o21 : BitVec 21),
    let a := sreg s c sl rs1
    let b := sreg s c sl rs2
    let goes := fun (i : Instr) (p : Prop) => gives i s (fun t =>
      onlyCluster c sl s t ∧ (∀ r, sreg t c sl r = sreg s c sl r) ∧ (getSlot t c sl).st = .running ∧
        (p → pcOf t c sl = pcOf s c sl + (off.signExtend 64).truncate 14) ∧ (¬ p → pcOf t c sl = pcNext s c sl))
    (ready s c sl [rs1, rs2] → branchStalls s c sl = false →
      goes (.beq c sl rs1 rs2 off) (a = b) ∧ goes (.bne c sl rs1 rs2 off) (a ≠ b) ∧
        goes (.blt c sl rs1 rs2 off) (a.toInt < b.toInt) ∧ goes (.bge c sl rs1 rs2 off) (b.toInt ≤ a.toInt) ∧
        goes (.bltu c sl rs1 rs2 off) (a.toNat < b.toNat) ∧ goes (.bgeu c sl rs1 rs2 off) (b.toNat ≤ a.toNat)) ∧
    (ready s c sl [] → gives (.jal c sl rd o21) s
      (wrote c sl rd ((pcOf s c sl).zeroExtend 64 + 1) (pcOf s c sl + (o21.signExtend 64).truncate 14) s)) ∧
    (ready s c sl [rs1] → trcStalls s c sl 1 = false → gives (.jalr c sl rd rs1 imm) s (fun t =>
      onlyCluster c sl s t ∧ (∀ r, r ≠ rd → sreg t c sl r = sreg s c sl r) ∧
        sreg t c sl rd = (if rd = 0 then 0 else (pcOf s c sl).zeroExtend 64 + 1) ∧
        pcOf t c sl = (a + imm.signExtend 64).truncate 14))

/-- R154, R158, R175: loads read 8, 4, 2 or 1 bytes, zero-extended, as the gather buffer shows them; no byte of any memory
changes, and the value is there 4 cycles after issue where the buffer held the word, else 8. -/
def Obligations.Loads : Prop :=
  ∀ (s : State) (c sl : Nat) (rd rs1 : BitVec 5) (imm : BitVec 16), ready s c sl [rs1] →
    let a := ldAddr s c sl rs1 imm
    let p := partBase s c sl + a
    let res := fun (i : Instr) (n : Nat) => accessGoes s c sl a n false → gives i s (fun t =>
      onlyCluster c sl s t ∧ (∀ r, r ≠ rd → sreg t c sl r = sreg s c sl r) ∧
        sreg t c sl rd = (if rd = 0 then 0 else BitVec.ofNat 64 (seenNat s c p n)) ∧ pcOf t c sl = pcNext s c sl ∧
        (rd ≠ 0 → tabGet 0 (getSlot t c sl).busy rd.toNat = if (gatherEnt s c (p / 32)).isSome then 4 else 8))
    res (.ld c sl rd rs1 imm) 8 ∧ res (.lw c sl rd rs1 imm) 4 ∧ res (.lh c sl rd rs1 imm) 2 ∧ res (.lb c sl rd rs1 imm) 1

/-- R154, R125, R126: stores put the low 8, 4, 2 or 1 bytes of rs2 where later narrow accesses see them. No register changes
and no byte of the arrays; every other byte is seen as before, where no clean entry had to be given up. -/
def Obligations.Stores : Prop :=
  ∀ (s : State) (c sl : Nat) (rs2 rs1 : BitVec 5) (imm : BitVec 16), ready s c sl [rs2, rs1] →
    let a := ldAddr s c sl rs1 imm
    let p := partBase s c sl + a
    let res := fun (i : Instr) (n : Nat) => accessGoes s c sl a n true → gives i s (fun t =>
      onlyCluster c sl s t ∧ (∀ r, sreg t c sl r = sreg s c sl r) ∧ pcOf t c sl = pcNext s c sl ∧
        (∀ k, k < n → seenByte t c (p + k) = BitVec.ofNat 8 ((sreg s c sl rs2).toNat / 256 ^ k)) ∧
        ((gatherEnt s c (p / 32)).isSome = true ∨ (getClu s c).gather.length < 16 →
          ∀ x, (x < p ∨ p + n ≤ x) → seenByte t c x = seenByte s c x))
    res (.sd c sl rs2 rs1 imm) 8 ∧ res (.sw c sl rs2 rs1 imm) 4 ∧ res (.sh c sl rs2 rs1 imm) 2 ∧ res (.sb c sl rs2 rs1 imm) 1

/-- R154, R159: TDZ, TDW and TDI write the bytes that the encoding names of one descriptor entry, and nothing else of the
buffer. -/
def Obligations.DescriptorBuffer : Prop :=
  ∀ (s : State) (c sl : Nat) (td w : BitVec 2) (rs1 : BitVec 5) (off : BitVec 6) (imm : BitVec 16),
    let old := fun j => tabGet (0 : Byte) (getSlot s c sl).td j
    let wrt := fun (i : Instr) (o n : Nat) (v : Nat) => gives i s (fun t =>
      onlySlot c sl s t ∧ (∀ r, sreg t c sl r = sreg s c sl r) ∧ pcOf t c sl = pcNext s c sl ∧
        ∀ j, tabGet (0 : Byte) (getSlot t c sl).td j =
          if 64 * td.toNat + o ≤ j ∧ j < 64 * td.toNat + o + n then BitVec.ofNat 8 (v / 256 ^ (j - (64 * td.toNat + o)))
          else old j)
    (ready s c sl [] → wrt (.tdz c sl td 0) 0 64 0) ∧
    (ready s c sl [rs1] → off.toNat % 2 ^ w.toNat = 0 →
      wrt (.tdw c sl td w 0 rs1 0 off) off.toNat (2 ^ w.toNat) (sreg s c sl rs1).toNat) ∧
    (ready s c sl [] → off.toNat % 2 = 0 → wrt (.tdi c sl td 0 off imm) off.toNat 2 imm.toNat)

/-- R154, R159, R172, R174, R182: TISS, DMAG and DMAP that pass the checks of R172 take the slot's next ticket, enter the
scoreboard and write the ticket to rd. A check that fails consumes the ticket and issues nothing (here for a slot whose pool region
has no work item). -/
def Obligations.IssueOperations : Prop :=
  ∀ (s : State) (c sl : Nat) (td : BitVec 2) (rd rs1 rs2 rs3 : BitVec 5) (cen : BitVec 1) (ctr : BitVec 5),
    let t0 := nextTicket (getSlot s c sl).ticket
    let d := tdBytes (getSlot s c sl) td
    let a := (sreg s c sl rs1).toNat
    let dev := (sreg s c sl rs2).toNat
    let len := (sreg s c sl rs3).toNat
    let n := if cen = 1 then some ctr.toNat else none
    let free := fun (r : Req) => mustWait s c r = false ∧ noRoom s c r.ranges.length = false ∧ trcStalls s c sl 1 = false
    let iss := fun (i : Instr) (r : Req) => gives i s (fun t =>
      onlyCluster c sl s t ∧ (∀ x, x ≠ rd → sreg t c sl x = sreg s c sl x) ∧ pcOf t c sl = pcNext s c sl ∧
        sreg t c sl rd = (if rd = 0 then 0 else t0.zeroExtend 64) ∧ (getSlot t c sl).ticket = t0 ∧
        (∃ o, (getClu t c).ops = (getClu s c).ops ++ [o] ∧ o.sl = sl ∧ o.ticket = t0 ∧ o.kind = r.kind ∧
          o.ranges = r.ranges ∧ o.phase = .issued) ∧
        Sys2Proof.Machine.ctr t (cluAddr c oSeqIssue) =
          min (Sys2Proof.Machine.ctr s (cluAddr c oSeqIssue) + 1) (2 ^ 32 - 1))
    (ready s c sl [31] → checkTile s c sl d = none → free (tileReq s c sl d) →
      iss (.tiss c sl td 0 rd 0) (tileReq s c sl d)) ∧
    (ready s c sl [rs1, rs2, rs3] → checkDma s c sl a dev len = none →
      (free (dmaReq s c sl true a dev len n) →
        iss (.dmag c sl rd rs1 rs2 rs3 cen ctr) (dmaReq s c sl true a dev len n)) ∧
      (free (dmaReq s c sl false a dev len n) →
        iss (.dmap c sl rd rs1 rs2 rs3 cen ctr) (dmaReq s c sl false a dev len n))) ∧
    (∀ x code detail, slotCtx s c sl = some x → x.pipe = false → runItems s x.region = [] → wideFault code = false →
      let fails := fun (i : Instr) => gives i s (fun t => (getSlot t c sl).ticket = t0 ∧ (getClu t c).ops = (getClu s c).ops ∧
        (getSlot t c sl).st = .faulted ∧ ∀ y, sreg t c sl y = sreg s c sl y)
      (ready s c sl [31] → checkTile s c sl d = some (code, detail) → fails (.tiss c sl td 0 rd 0)) ∧
      (ready s c sl [rs1, rs2, rs3] → checkDma s c sl a dev len = some (code, detail) →
        fails (.dmag c sl rd rs1 rs2 rs3 cen ctr) ∧ fails (.dmap c sl rd rs1 rs2 rs3 cen ctr)))

/-- R172, R182, R183, R174, R159: when TISS, DMAG and DMAP issue. Each has a next state with the operation in the scoreboard under
the slot's next ticket, for every descriptor and all register values that meet the checks of R172 one by one, where no range of it
overlaps a pending one, the scoreboard has room, and stall mode of the trace does not hold it (R473). -/
def Obligations.IssueCompletes : Prop :=
  ∀ (s : State) (c sl : Nat) (td : BitVec 2) (rd rs1 rs2 rs3 : BitVec 5) (cen : BitVec 1) (ctr : BitVec 5),
    c < Config.clusters → sl < 4 → s.pow.on = true → cluRuns s c = true → trcStalls s c sl 1 = false →
    let t0 := nextTicket (getSlot s c sl).ticket
    let d := tdBytes (getSlot s c sl) td
    let a := (sreg s c sl rs1).toNat
    let dev := (sreg s c sl rs2).toNat
    let len := (sreg s c sl rs3).toNat
    let enters := fun (t : State) (k : OpKind) (ranges : List Rng32) =>
      sreg t c sl rd = (if rd = 0 then 0 else t0.zeroExtend 64) ∧ pcOf t c sl = pcNext s c sl ∧
        ∃ o, (getClu t c).ops = (getClu s c).ops ++ [o] ∧ o.sl = sl ∧ o.ticket = t0 ∧ o.kind = k ∧ o.ranges = ranges
    let dmaFits := canIssue s c sl [rs1, rs2, rs3] = true ∧ a % 32 = 0 ∧ dev % 32 = 0 ∧ len % 32 = 0 ∧ 32 ≤ len ∧
      len ≤ 2 ^ 24 ∧ a + len ≤ partSize s c sl ∧ tenOk s (slotFn s c sl) dev len = true ∧ (getClu s c).ops.length < 64 ∧
      (pendingRanges s c).length < 256
    (canIssue s c sl [31] = true → 1 ≤ dOp d → dOp d ≤ 14 → fieldsOk s c sl d = true → badStride d = false →
      spadBeyond s c sl d = none → anyPair rngConflict (opRanges s c sl d) = false → (dOp d ≤ 3 → weightOk d = true) →
      aliases s c (opRng s c sl d) = false → (∀ r ∈ opRanges s c sl d, rngWaits s c r = false) →
      (getClu s c).ops.length < 64 → (pendingRanges s c).length + (opRanges s c sl d).length ≤ 256 →
      ∃ t, exec (.tiss c sl td 0 rd 0) s = .next t ∧ enters t (.tile d) (opRanges s c sl d)) ∧
    (dmaFits → rngWaits s c (toWords (partBase s c sl + a) len true) = false →
      ∃ t, exec (.dmag c sl rd rs1 rs2 rs3 cen ctr) s = .next t ∧
        enters t (.dmag a dev len (if cen = 1 then some ctr.toNat else none)) [toWords (partBase s c sl + a) len true]) ∧
    (dmaFits → rngWaits s c (toWords (partBase s c sl + a) len false) = false →
      ∃ t, exec (.dmap c sl rd rs1 rs2 rs3 cen ctr) s = .next t ∧
        enters t (.dmap a dev len (if cen = 1 then some ctr.toNat else none)) [toWords (partBase s c sl + a) len false])

/-- R154, R159, R181, R185: what WAITC, WAITOP, FENCE and HALT wait for; where it already holds WAITC, WAITOP and FENCE go on,
else the slot is WAITING with the instruction. HALT always waits as FENCE does, and PROGRAM_END ends the program. -/
def Obligations.Waits : Prop :=
  ∀ (s : State) (c sl : Nat) (rs1 n : BitVec 5),
    let k := getSlot s c sl
    let tgt : BitVec 32 := (sreg s c sl rs1).truncate 32
    let ac : BitVec 32 := tabGet 0 k.ac n.toNat
    let quiet := fun (t : State) => onlySlot c sl s t ∧ ∀ r, sreg t c sl r = sreg s c sl r
    let goesOn := fun (i : Instr) => gives i s (fun t =>
      quiet t ∧ (getSlot t c sl).st = .running ∧ pcOf t c sl = pcNext s c sl)
    let waits := fun (i : Instr) (w : WaitWhy) => gives i s (fun t =>
      quiet t ∧ (getSlot t c sl).st = .waiting ∧ (getSlot t c sl).why = w ∧ (getSlot t c sl).waiting = some i ∧
        pcOf t c sl = pcOf s c sl)
    (ready s c sl [rs1] → 0 ≤ (ac - tgt).toInt → goesOn (.waitc c sl rs1 n 0)) ∧
    (ready s c sl [rs1] → (ac - tgt).toInt < 0 → waits (.waitc c sl rs1 n 0) .waitc) ∧
    (ready s c sl [rs1] → (tgt = 0 ∨ 0 ≤ (k.ticket - tgt).toInt ∧ ticketEnded s c sl tgt = true) →
      goesOn (.waitop c sl 0 rs1 0)) ∧
    (ready s c sl [rs1] → tgt ≠ 0 → 0 ≤ (k.ticket - tgt).toInt → ticketEnded s c sl tgt = false →
      waits (.waitop c sl 0 rs1 0) .waitop) ∧
    (ready s c sl [] → fenceDone s c sl = true → goesOn (.fence c sl 0)) ∧
    (ready s c sl [] → fenceDone s c sl = false → waits (.fence c sl 0) .fence) ∧
    (ready s c sl [] → waits (.halt c sl 0) .fence) ∧
    (slotLive s c sl → k.st = .waiting → k.waiting = some (.halt c sl 0) → fenceDone s c sl = true →
      trcStalls s c sl 1 = false →
      (∀ x, slotCtx s c sl = some x → runItems s x.region = []) →
      gives (.programEnd c sl) s (fun t => (getSlot t c sl).st = .halted ∧ ∀ r, sreg t c sl r = sreg s c sl r))

/-- R113, R154, R158, R159, R174, R175, R181, R257: each wait ends when its condition holds. An instruction that waited on the
interlock, and a load or store that waited, is carried out as its command carries it out once the slot waits no more; TISS, DMAG and
DMAP issue once their ranges and the scoreboard allow it and the checks made again then hold. -/
def Obligations.Resumes : Prop :=
  ∀ (s : State) (c sl : Nat) (rd rs1 rs2 n : BitVec 5) (imm : BitVec 16), slotLive s c sl →
    let k := getSlot s c sl
    let aged := fun (i : Instr) => modSlot s c sl (fun k => ageBusy (unwait k) (busyFor k (srcRegs i)))
    let freed := modSlot s c sl unwait
    let t0 := nextTicket k.ticket
    let gone := fun (i : Instr) => gives i s (fun t =>
      onlySlot c sl s t ∧ (∀ r, sreg t c sl r = sreg s c sl r) ∧ (getSlot t c sl).st = .running ∧
        (getSlot t c sl).waiting = none ∧ pcOf t c sl = pcNext s c sl)
    let holds := fun (i : Instr) (w : WaitWhy) => k.st = .waiting ∧ k.why = w ∧ k.waiting = some i
    (holds (.waitc c sl rs1 n 0) .waitc → 0 ≤ ((tabGet 0 k.ac n.toNat : BitVec 32) - (sreg s c sl rs1).truncate 32).toInt →
      gone (.waitcResume c sl)) ∧
    (holds (.waitop c sl 0 rs1 0) .waitop → ticketEnded s c sl ((sreg s c sl rs1).truncate 32) = true →
      gone (.waitopResume c sl)) ∧
    (holds (.fence c sl 0) .fence → fenceDone s c sl = true → gone (.fenceResume c sl)) ∧
    (slotDegraded s c sl = false → ∀ i, encodeSeq i ≠ none → seqSlot i = (c, sl) →
      (holds i .interlock → exec (.interlockResume c sl) s = exec i (aged i)) ∧
      (isLdst i = true → (holds i .overlap ∨ holds i .none) → exec (.ldstResume c sl) s = exec i freed)) ∧
    (holds (.add c sl rd rs1 rs2) .interlock → canIssue (aged (.add c sl rd rs1 rs2)) c sl [rs1, rs2] = true →
      slotDegraded s c sl = false → gives (.interlockResume c sl) s (fun t =>
        onlySlot c sl s t ∧ (getSlot t c sl).st = .running ∧ pcOf t c sl = pcNext s c sl ∧
          sreg t c sl rd = if rd = 0 then 0 else sreg s c sl rs1 + sreg s c sl rs2)) ∧
    (∀ i x r, waitingReq s c sl = some (i, x, r) → (holds i .overlap ∨ holds i .room) → slotDegraded s c sl = false →
      mustWait s c r = false → noRoom s c r.ranges.length = false → lateCheck freed c sl r = none → trcStalls s c sl 1 = false →
      gives (.issueResume c sl) s (fun t =>
        onlyCluster c sl s t ∧ (getSlot t c sl).st = .running ∧ (getSlot t c sl).ticket = t0 ∧ pcOf t c sl = pcNext s c sl ∧
          sreg t c sl x = (if x = 0 then 0 else t0.zeroExtend 64) ∧ (∀ y, y ≠ x → sreg t c sl y = sreg s c sl y) ∧
          ∃ o, (getClu t c).ops = (getClu s c).ops ++ [o] ∧ o.sl = sl ∧ o.ticket = t0 ∧ o.kind = r.kind ∧
            o.ranges = r.ranges ∧ o.phase = .issued)) ∧
    (holds (.ld c sl rd rs1 imm) .overlap ∨ holds (.ld c sl rd rs1 imm) .none → slotDegraded s c sl = false →
      k.stopReq = false → k.pc.toNat < k.plen → rready k rs1 = true → accessGoes s c sl (ldAddr s c sl rs1 imm) 8 false →
      gives (.ldstResume c sl) s (fun t =>
        onlyCluster c sl s t ∧ (getSlot t c sl).st = .running ∧ pcOf t c sl = pcNext s c sl ∧
          sreg t c sl rd = if rd = 0 then 0 else BitVec.ofNat 64 (seenNat s c (partBase s c sl + ldAddr s c sl rs1 imm) 8)))

/-- R156, R178, R310, R472: SRD's four values, ACRD, ACSET, TMARK and YIELD. -/
def Obligations.SystemGroup : Prop :=
  ∀ (s : State) (c sl : Nat) (rd rs1 n : BitVec 5),
    let k := getSlot s c sl
    let res := fun (i : Instr) (v : Word) => gives i s (wrote c sl rd v (pcNext s c sl) s)
    (ready s c sl [] →
      res (.srd c sl rd rs1 0 0) (BitVec.ofNat 64 (seenId s c)) ∧ res (.srd c sl rd rs1 1 0) (BitVec.ofNat 64 sl) ∧
        res (.srd c sl rd rs1 2 0) (BitVec.ofNat 64 s.clock.ftc) ∧ res (.srd c sl rd rs1 3 0) (k.ticket.zeroExtend 64) ∧
        res (.acrd c sl rd rs1 n 0) ((tabGet (0 : BitVec 32) k.ac n.toNat).zeroExtend 64) ∧
        gives (.yield c sl rd rs1 n 0) s (fun t =>
          onlySlot c sl s t ∧ (∀ r, sreg t c sl r = sreg s c sl r) ∧ (getSlot t c sl).yielded = true ∧
            pcOf t c sl = pcNext s c sl)) ∧
    (ready s c sl [rs1] →
      gives (.acset c sl rd rs1 n 0) s (fun t =>
        onlySlot c sl s t ∧ (∀ r, sreg t c sl r = sreg s c sl r) ∧ pcOf t c sl = pcNext s c sl ∧
          ∀ j, tabGet (0 : BitVec 32) (getSlot t c sl).ac j =
            if j = n.toNat then (sreg s c sl rs1).truncate 32 else tabGet 0 k.ac j)) ∧
    (ready s c sl [rs1] → trcStalls s c sl 1 = false →
      gives (.tmark c sl rd rs1 n 0) s (fun t =>
        onlyCluster c sl s t ∧ (∀ r, sreg t c sl r = sreg s c sl r) ∧ pcOf t c sl = pcNext s c sl ∧
          (trcOn s c sl = true → k.trc.branchBits = 0 → k.trc.dropped = 0 → k.trc.stampDue = false →
            k.trc.owed = [] → trcRoom s c sl 1 = true → ∃ r, (getClu t c).trcBuf = (getClu s c).trcBuf ++ [r] ∧ r.sl = sl ∧
              r.bytes.length = 32 ∧ r.bytes.take 1 = leBytes 1 (6 + 16 * sl) ∧
              (r.bytes.drop 8).take 8 = leBytes 8 (sreg s c sl rs1).toNat)))

/-- R153, R157, R159, R186: the faults of instructions, for a slot whose pool region has no other item: one report with the
code, OP 0, TICKET 0 and the slot's PC, and the slot FAULTED. -/
def Obligations.SequencerFaults : Prop :=
  ∀ (s : State) (c sl : Nat) (rd rs1 rs2 n : BitVec 5) (imm : BitVec 16) (off : BitVec 6) (td w : BitVec 2) (z : BitVec 26)
    (x : Ctx), slotLive s c sl → slotCtx s c sl = some x → x.pipe = false → runItems s x.region = [] →
    let k := getSlot s c sl
    let faults := fun (i : Instr) (code detail : Nat) => gives i s (fun t =>
      (getSlot t c sl).st = .faulted ∧ (∀ r, sreg t c sl r = sreg s c sl r) ∧
        ∃ r, t.hub.reports = s.hub.reports ++ [r] ∧ r.f = x.f ∧ r.code = code ∧ r.clu = c ∧ r.slot = sl ∧ r.op = 0 ∧
          r.ticket = 0 ∧ r.pc = k.pc.toNat ∧ r.detail = detail ∧ r.tick = 16 * eventTick s)
    (k.st = .running → k.stopReq = false → slotDegraded s c sl = false → k.plen ≤ k.pc.toNat →
      faults (.add c sl rd rs1 rs2) 0x0503 0) ∧
    (canIssue s c sl [] = true → z ≠ 0 → faults (.fence c sl z) 0x0501 0) ∧
    (canIssue s c sl [] = true → 3 < n.toNat → faults (.srd c sl rd rs1 n 0) 0x0501 0) ∧
    (canIssue s c sl [rs1] = true → 64 ≤ imm.toNat → faults (.slli c sl rd rs1 imm) 0x0501 0) ∧
    (canIssue s c sl [rs1] = true → off.toNat % 2 ^ w.toNat ≠ 0 → faults (.tdw c sl td w 0 rs1 0 off) 0x0501 0) ∧
    (canIssue s c sl [rs1] = true → ldAddr s c sl rs1 imm % 4 ≠ 0 → faults (.lw c sl rd rs1 imm) 0x0502 0) ∧
    (canIssue s c sl [rs1] = true → ldAddr s c sl rs1 imm % 8 = 0 → partSize s c sl < ldAddr s c sl rs1 imm + 8 →
      faults (.ld c sl rd rs1 imm) 0x0104 (ldAddr s c sl rs1 imm)) ∧
    (canIssue s c sl [rs1] = true → (sreg s c sl rs1).truncate 32 ≠ (0 : BitVec 32) →
      (k.ticket - (sreg s c sl rs1).truncate 32).toInt < 0 → faults (.waitop c sl 0 rs1 0) 0x0504 0)

/-! ### Tile operations (05, 07, 08, 09, 11) -/

/-- R86, R87, R107, R114: TLA, XNP and GATE without a stream and without an accord, once the arbiter gives them their engines:
the first pass over the weights that the run names, in the result that the lanes compute. No array changes. -/
def Obligations.EngineStarts : Prop :=
  ∀ (s s1 : State) (c sl tk : Nat) (o : Op) (src mask : List Byte), hasOp s c sl tk o .issued → mayStart s c o = true →
    coreDead s c o.desc = none → (opnd o.desc 16).sat = false → o.accord = 0 → o.ent = none → freshPass o = o →
    let d := o.desc
    clean c .engine sl [(opnd d 16, (opnd d 16).size, src), (opnd d 40, ceilDiv (dRows d) 8, mask)] s s1 →
    weightsSound s1 c o src mask →
    let r := passOf o src mask (runByte s c d) (fun e => (passTiles s c o src e).flatMap (tileItems d e))
    let n := r.count r.limit
    let starts := fun (i : Instr) => gives i s (fun t =>
      onlyOps c s t ∧ nowIn t c sl tk { o with checked := true } (.pass r.out) ∧
        raised 64 (cluAddr c oItems) n.items s t ∧ raised 64 (cluAddr c oSkip) n.skip s t ∧
        raised 64 (cluAddr c oFwait) n.fwait s t ∧ raised 64 (cluAddr c oInval) n.inval s t)
    (dOp d = opTLA → starts (.tla c sl tk)) ∧ (dOp d = opXNP → starts (.xnp c sl tk)) ∧
      (dOp d = opGATE → starts (.gate c sl tk))

/-- R75, R76, R101, R103, R107, R186: the end of a pass. With a saturation event it is abandoned: q below 3 waits to replay, q = 3
ends in a fault, whose report carries the operation and the k of the clamping token (here for a pool region with no item in flight, or just ended). A replay is a pass with q raised by one. Without an event the destination and SATDST are written once. -/
def Obligations.EngineEnds : Prop :=
  ∀ (s : State) (c sl tk : Nat) (o : Op), isEngine o = true →
    let d := o.desc
    (∀ p at_, hasOp s c sl tk o (.pass p) → p.abandon = some at_ → o.q < 3 →
      gives (.passAbandon c sl tk) s (fun t =>
        onlyOps c s t ∧ nowIn t c sl tk o .replay ∧ raised 64 (cluAddr c oAsat) 1 s t)) ∧
    (∀ p at_, hasOp s c sl tk o (.pass p) → p.abandon = some at_ → ¬ o.q < 3 →
      let lost := fun (t : State) => findOp t c sl tk = none ∧ (getSlot t c sl).st = .faulted ∧
        t.cl.spad = s.cl.spad ∧ raised 64 (cluAddr c oAsat) 1 s t
      (slotCtx s c sl = none → gives (.passAbandon c sl tk) s (fun t => lost t ∧ t.hub.reports.length = s.hub.reports.length)) ∧
      (∀ x, slotCtx s c sl = some x → x.pipe = false → faultItems s x.region = [] →
        gives (.passAbandon c sl tk) s (fun t => lost t ∧ ∃ rs r, t.hub.reports = rs ++ [r] ∧ rs.length = s.hub.reports.length ∧
          r.f = x.f ∧ r.code = 0x0202 ∧ r.clu = c ∧ r.slot = sl ∧ r.op = dOp d ∧ r.ticket = tk ∧ r.pc = o.pc.toNat ∧
          r.region = x.region ∧ r.detail = codeOf 64 (nth 0 p.ks at_.2) ∧ r.tick = 16 * eventTick s))) ∧
    (∀ src mask s1, hasOp s c sl tk o .replay → mayReplay s c o = true → coreDead s c d = none → o.ent = none → freshPass o = o →
      let o1 := { o with q := o.q + 1 }
      clean c .engine sl [(opnd d 16, (opnd d 16).size, src), (opnd d 40, ceilDiv (dRows d) 8, mask)]
        (bumpC (putOp s c o1) c oReplay 1) s1 →
      weightsSound s1 c o1 src mask →
      gives (.tileReplay c sl tk) s (fun t =>
        onlyOps c s t ∧ nowIn t c sl tk o1 (.pass (passOf o1 src mask (runByte s c d)
          (fun e => (passTiles s c o1 src e).flatMap (tileItems d e))).out) ∧ raised 32 (cluAddr c oReplay) 1 s t)) ∧
    (∀ p mask s1 w, hasOp s c sl tk o (.pass p) → p.abandon = none →
      clean c .engine sl [(opnd d 40, ceilDiv (dRows d) 8, mask)] s s1 → dOp d ≠ opGATE → dAcc d = 0 →
      let x := tlaDest 0 (dRows d) (opnd d 32).present (rowMask d mask) p [] []
      puts s1 c .engine sl [(opnd d 24, 0, x.dst), (opnd d 32, 0, x.satdst)] w →
      gives (.passComplete c sl tk) s (fun t =>
        onlyStored c s w t ∧ nowIn t c sl tk o .done ∧ raised 64 (cluAddr c oTiles) 1 s t ∧
          raised 64 (cluAddr c oDsat) x.dsat s t)) ∧
    (∀ p mask s1 w, hasOp s c sl tk o (.pass p) → p.abandon = none →
      clean c .engine sl [(opnd d 40, ceilDiv (dRows d) 8, mask)] s s1 → dOp d = opGATE →
      let x := gateDest (dRows d) o.audit (BitVec.ofNat 32 (dThr d)) (rowMask d mask) p
      puts s1 c .engine sl [(opnd d 24, 0, x.dst), (opnd d 32, 0, x.satdst)] w →
      gives (.passComplete c sl tk) s (fun t =>
        onlyStored c s w t ∧ nowIn t c sl tk o .done ∧
          raised 32 (cluAddr c oAudit) (if o.audit then 1 else 0) s t)) ∧
    (∀ p mask old oldSat s1 w, hasOp s c sl tk o (.pass p) → p.abandon = none → dOp d ≠ opGATE → dAcc d ≠ 0 →
      clean c .engine sl [(opnd d 40, ceilDiv (dRows d) 8, mask),
        (opnd d 24, if dAcc d = 1 then dTokens d * (16 + 4 * dRows d) else 4 * dRows d * dTokens d, old),
        (opnd d 32, 4 * dRows d * dTokens d, oldSat)] s s1 →
      let x := tlaDest (dAcc d) (dRows d) (opnd d 32).present (rowMask d mask) p old oldSat
      puts s1 c .engine sl [(opnd d 24, 0, x.dst), (opnd d 32, 0, x.satdst)] w →
      gives (.passComplete c sl tk) s (fun t => onlyStored c s w t ∧ nowIn t c sl tk o .done))

/-- R97 to R100, R117, R167, R283, R603: QNT from F32 and BF16, from an accumulator block with its gains, and from an image, into an
activation format, as a widening, and into F32, BF16, F8 and B1; ACT with its gains and the counts of its GATE record; NRM. The
result is written over DST in one go, and nothing else of the arrays. (Of markers in a widening: the model's choice, log entry 11.) -/
def Obligations.VectorUnit : Prop :=
  ∀ (s s1 : State) (c sl tk : Nat) (o : Op), hasOp s c sl tk o .issued →
    let d := o.desc
    let fm := fun (off : Nat) => (fmtOf (opnd d off).fmt).getD .f32
    let reads := fun (l : List (Opnd × Nat × List Byte)) => clean c .vec sl l s s1
    let fin := fun (i : Instr) (w : State) => gives i s (fun t => onlyStored c s w t ∧ nowIn t c sl tk o .done)
    let tf := (fmtOf (opnd d 24).fmt).getD .a8
    let fx := (fmtOf (qFmax d)).getD tf
    let sup := fun (sc : List Byte) => if (opnd d 40).present then some (sc.map BitVec.toNat) else none
    let noted := fun (sc : List Byte) (s2 : State) =>
      bumpC s2 c oFmtScale ((((sup sc).getD []).filter (fun x => x == 255)).length)
    let side := fun (cal sc : List Byte) =>
      [(opnd d 32, ceilDiv (qElems d) 8 + 2 * ceilDiv (qElems d) 32, cal), (opnd d 40, ceilDiv (qElems d) 32, sc)]
    let codes := fun (off : Nat) (vs : List FV) =>
      (List.range vs.length).map (fun i => f32ToCode (fm off) (rngAt o.rng i) (nth fvZero vs i))
    let bytes := fun (off : Nat) (vs : List FV) => dataBytes (fm off) ((codes off vs).map (·.c))
    let qnt := fun (s2 : State) (cal sc : List Byte) (els : List QEl) (bad : List Nat) (w : State) =>
      (fmtIsAct tf = true → puts (noted sc s2) c .vec sl (qntWrites d (qntRun tf fx (qOpol d) (opnd d 24).sat (qThr d) o.rng els
        (calOf (qElems d) cal) (sup sc) bad)) w → fin (.qnt c sl tk) w) ∧
      (fmtIsAct tf = false → puts s2 c .vec sl [(opnd d 24, 0, bytes 24 (els.map (fun e =>
        match e.mark with | some v => fvOf (bf16ToF32 v) | none => e.v)))] w → fin (.qnt c sl tk) w)
    (dOp d = opQNT → ∀ cal sc bs s2 w,
      (qAcc d = false → fmtIsAct (fm 16) = false → reads (side cal sc ++ [(opnd d 16, dataSize (fm 16) (qElems d), bs)]) →
        qnt s1 cal sc ((readVals (fm 16) (qElems d) bs).map (fun v => ⟨fvOf v, none⟩)) [] w) ∧
      (∀ vs, qAcc d = true → reads (side cal sc ++ [(opnd d 16, 16 + 4 * qElems d, bs)]) →
        blockIs c o (opnd d 56) (qElems d) bs vs s1 s2 → qnt s2 cal sc (vs.map (fun v => ⟨v, none⟩)) [] w) ∧
      (qAcc d = false → fmtIsAct (fm 16) = true →
        reads (side cal sc ++ [(opnd d 16, imageSize (fm 16) (qElems d) (opnd d 16).sat, bs)]) →
        let img := readImg (fm 16) (qElems d)
          (if (opnd d 16).sat then some (dataSize (fm 16) (qElems d) + scaleSize (fm 16) (qElems d)) else none) bs
        let bad := (List.range img.e8.length).filter (fun g => nth 0 img.e8 g == 255)
        s2 = bumpC (bumpC s1 c oFmtScale bad.length) c oSatMeta img.metaErr →
        (qntIsWiden (fm 16) (fm 24) = true → puts s2 c .vec sl (qntWrites d (qntWiden (fm 24) ((fmtOf (qFmax d)).getD (fm 24))
          (qOpol d) (opnd d 24).sat o.rng img (calOf (qElems d) cal))) w → fin (.qnt c sl tk) w) ∧
        (qntIsWiden (fm 16) (fm 24) = false → qnt s2 cal sc (imgEls img) bad w))) ∧
    (dOp d = opACT → ∀ bs s2 s3 bs2 rec xs w,
      ((aAcc d = false ∧ reads [(opnd d 16, dataSize (fm 16) (aElems d), bs)] ∧ s2 = s1 ∧
          xs = (readVals (fm 16) (aElems d) bs).map fvOf) ∨
        (aAcc d = true ∧ reads [(opnd d 16, 16 + 4 * aElems d, bs)] ∧ blockIs c o (opnd d 48) (aElems d) bs xs s1 s2)) →
      clean c .vec sl [(opnd d 24, dataSize (fm 24) (aElems d), bs2), (opnd d 40, 8 + 2 * ceilDiv (aElems d) 8, rec)] s2 s3 →
      let ys := if (opnd d 24).present then (readVals (fm 24) (aElems d) bs2).map fvOf else []
      let zs := (List.range xs.length).map (fun i => actFn (aFunc d) (nth fvZero xs i) (nth fvZero ys i))
      let g := if rec.isEmpty then (0, 0)
        else gateCounts xs.length rec (fun r => codeZero (fm 32) (nth ⟨0, false, false⟩ (codes 32 zs) r).c)
      puts s3 c .vec sl [(opnd d 32, 0, bytes 32 zs)] w →
      gives (.act c sl tk) s (fun t => onlyStored c s w t ∧ nowIn t c sl tk o .done ∧
        raised 32 (cluAddr c oWaste) g.1 s t ∧ raised 32 (cluAddr c oMiss) g.2 s t)) ∧
    (dOp d = opNRM → ∀ bs bs2 w,
      reads [(opnd d 16, dataSize (fm 16) (nElems d), bs), (opnd d 32, dataSize (fm 32) (nElems d), bs2)] →
      let xs := (readVals (fm 16) (nElems d) bs).map fvOf
      let g := if (opnd d 32).present then some ((readVals (fm 32) (nElems d) bs2).map fvOf) else none
      puts s1 c .vec sl [(opnd d 24, 0, bytes 24 (nrmRun (nKind d == 1) (nEps d) xs g))] w → fin (.nrm c sl tk) w)

/-- R190, R193, R195 to R197, R205, R206: the attention unit starts a pass over the positions that the descriptor and the share give;
a pass suspends after a page for an urgent operation, also on its way to its end, and goes on when none waits; after its last page
OUT holds each head's result at its place, and the operation has left the scoreboard. -/
def Obligations.AttentionUnit : Prop :=
  ∀ (s : State) (c sl tk : Nat) (o : Op), dOp o.desc = opATT →
    let d := o.desc
    (∀ h sh bs s1 s2, hasOp s c sl tk o .issued → attTakes s c o = true → funcWaits s (slotFn s c sl) = false →
      shareIs c o h sh s s1 → attBad d sh = none →
      clean c .att sl [(opnd d 16, imageSize ((fmtOf (opnd d 16).fmt).getD .a8) (kHeads d * sh.d) false, bs)] s1 s2 →
      let n := if attNpos d = 0 then sh.c else attNpos d
      gives (.att c sl tk) s (fun t =>
        onlyRead c { s with mem := t.mem } t ∧ (stacksSound s → t.mem = s.mem) ∧
          raised 32 (cluAddr c oMaskDrop) (attTail d sh).2 s t ∧ ∃ a : AttPass,
          nowIn t c sl tk o (.att a) ∧ a.f = sh.f ∧ a.c = sh.c ∧ a.n = n ∧ a.qs = (attQueries d sh.d bs).1 ∧ a.page = 0 ∧
            a.tail = (attTail d sh).1 ∧ a.pages = ceilDiv (n - sh.f) 256 + (if a.tail = [] then 0 else 1) ∧
            a.heads = a.qs.map (fun _ => headInit sh.d))) ∧
    (∀ a s1 a1, hasOp s c sl tk o (.att a) → o.cls ≠ .u → urgentWaits s c o = true → a.page < a.pages →
      funcWaits s (slotFn s c sl) = false → (∀ g, attStep s c o a g = g s1 a1) → a1.page < a1.pages →
      findOp s1 c sl tk = some o → urgentWaits s1 c o = true →
      ∀ i, i = .attSuspend c sl tk ∨ i = .operationComplete c sl ⟨tk, 0, []⟩ → gives i s (fun t =>
        onlyOps c s1 t ∧ nowIn t c sl tk o (.suspended a1) ∧ raised 32 (cluAddr c oSuspend) 1 s1 t)) ∧
    (∀ a s1 a1 w, hasOp s c sl tk o (.att a) → funcWaits s (slotFn s c sl) = false →
      ((a.pages ≤ a.page ∧ s1 = s ∧ a1 = a) ∨
        (a.page + 1 = a.pages ∧ (∀ g, attStep s c o a g = g s1 a1) ∧ a1.pages ≤ a1.page)) → findOp s1 c sl tk = some o →
      (∀ x, slotCtx s1 c sl = some x → runItems s1 x.region = []) →
      let dst := opnd d 24
      let out := (List.range a1.heads.length).flatMap (fun i => (headOut (if dst.fmt = 0 then none else fmtOf dst.fmt) o.rng
        (i * a1.d) (nth (headInit a1.d) a1.heads i)).1)
      puts s1 c .att sl [(dst, 0, out)] w →
      gives (.operationComplete c sl ⟨tk, 0, []⟩) s (fun t => findOp t c sl tk = none ∧ t.cl.spad = w.cl.spad ∧
        t.cl.spadPoi = w.cl.spadPoi ∧ t.mem = s1.mem ∧ raised 32 (cluAddr c oPasses) 1 s1 t ∧
        raised 32 (cluAddr c oAttEmpty) (a1.heads.filter headEmpty).length s1 t)) ∧
    (∀ a, hasOp s c sl tk o (.suspended a) → (∀ x ∈ (getClu s c).ops, inPass x.phase = false) →
      (∀ x ∈ (getClu s c).ops, attWaits (getClu s c).ops x = true → x.cls ≠ .u) →
      gives (.attResume c sl tk) s (fun t => onlyOps c s t ∧ t.ctrs = s.ctrs ∧ nowIn t c sl tk o (.att a)))

/-- R221, R223, R224, R227 to R229: KVA writes one row of each head into its page, the mask and the occupied bit of its tail
slot, and takes a page from a stack where the position has none; COMMIT copies the path's rows, raises C, clears the tail and
frees the pages above. -/
def Obligations.KvRows : Prop :=
  ∀ (s s0 : State) (c sl tk : Nat) (o : Op) (h : KvHdr) (sh : Share), hasOp s c sl tk o .issued → attTakes s c o = true →
    funcWaits s (slotFn s c sl) = false → shareIs c o h sh s s0 →
    let d := o.desc
    let f := slotFn s c sl
    let pos := sh.c + kvaTslot d
    let page := (pos - sh.f) / 256
    let fm := fun (off : Nat) => (fmtOf (opnd d off).fmt).getD .f32
    let elems := fun (off : Nat) (bs : List Byte) => (readVals (fm off) (kHeads d * sh.d) bs).map fvOf
    let rows := fun (kb vb : List Byte) => [(opnd d 16, dataSize (fm 16) (kHeads d * sh.d), kb),
      (opnd d 24, dataSize (fm 24) (kHeads d * sh.d), vb)]
    let tail := fun (w : State) => ten o.cls f (sh.addr + 24) (leBytes 8 (sh.occ ||| 2 ^ kvaTslot d))
      (ten o.cls f (sh.addr + 64 + 8 * kvaTslot d) (leBytes 8 (kvaAnc d)) w)
    let moved := fun (n : Nat) (w : State) => ten o.cls f (sh.addr + 24) (leBytes 8 0) (ten o.cls f (sh.addr + 4) (leBytes 4 n) w)
    (dOp d = opKVA → kvaBad d sh = none → ∀ e kb vb s1 w, (getClu s c).lb.find? (lbIs sl sh.seq sh.layer page) = some e →
      pteTier e.pte ≠ 0 → pteShared e.pte = false → pteOk s c sl e.pte (pageBytes sh.d sh.nkv) = true →
      clean c .att sl (rows kb vb) (modClu s0 c (fun k => { k with lb := lbPut k.lb e })) s1 →
      let ps := kvaPieces sh ((pos - sh.f) % 256) (kvaRows o sh (elems 16 kb) (elems 24 vb))
      piecesOk s c sl e.pte ps = true → piecesWrite s1 c o e.pte ps = (w, false) →
      gives (.kva c sl tk) s (fun t => onlyKv c sl s w (tail w) t ∧ t.cl.slots = s.cl.slots ∧ nowIn t c sl tk o .done)) ∧
    (dOp d = opKVA → kvaBad d sh = none → ∀ z e kb vb s1 s2 s3 w,
      (getClu s c).lb.find? (lbIs sl sh.seq sh.layer page) = none →
      sees o.cls f (sh.pt + 8 * page) 8 z (bumpC s0 c oLbMiss 1) s1 → pteTier (leNat z) = 0 → h.hcount ≠ 0 →
      sees o.cls f (h.hpool + 8 * (h.hcount - 1)) 8 e s1 s2 → pteOk s c sl (leNat e) (pageBytes sh.d sh.nkv) = true →
      clean c .att sl (rows kb vb) s2 s3 →
      let p := leNat e - 4 * bit (leNat e) 2
      let ps := kvaPieces sh ((pos - sh.f) % 256) (kvaRows o sh (elems 16 kb) (elems 24 vb))
      let taken := modHdr s3 c sl (fun h => { h with hcount := h.hcount - 1 })
      piecesOk s c sl p ps = true →
      piecesWrite (bumpC (ten o.cls f (sh.pt + 8 * page) (leBytes 8 p) taken) c oKvAlloc 1) c o p ps = (w, false) →
      gives (.kva c sl tk) s (fun t => onlyKv c sl s w (tail w) t ∧ nowIn t c sl tk o .done ∧
        (getSlot t c sl).kvHdr = some { h with hcount := h.hcount - 1 } ∧ raised 32 (cluAddr c oKvAlloc) 1 s t)) ∧
    (dOp d = opCOMMIT → comTree d = false → pathOk sh (List.range (comNacc d)) 0 none = true → ∀ bs s1,
      let pages := pagesFrom sh (sh.c + comNacc d)
      sees o.cls f (sh.pt + 8 * nth 0 pages 0) (8 * pages.length) bs s0 s1 → pushOk s c sl h (freed pages bs) = true →
      let m := (freed pages bs).foldl (freePage c o sh) (moved (sh.c + comNacc d) s1)
      gives (.commit c sl tk) s (fun t => onlyKv c sl s s m t ∧ nowIn t c sl tk o .done ∧
        raised 32 (cluAddr c oKvFree) (freed pages bs).length s t)) ∧
    (dOp d = opCOMMIT → comTree d = true → ∀ pb src dst rows bs s1 s2 s3 s4 s5 w, clean c .att sl [(opnd d 40, comNacc d, pb)] s0 s1 →
      let path := pb.map BitVec.toNat
      let cs := copies sh.c path
      let pages := pagesFrom sh (sh.c + path.length)
      pathOk sh path 0 none = true → (∀ g, withPlaces c o sh g (cs.map (·.1)) [] s1 = g s2 src) →
      (∀ g, withPlaces c o sh g (cs.map (·.2)) [] s2 = g s3 dst) → (∀ g, readPlaces c o sh g src [] s3 = g s4 rows) →
      sees o.cls f (sh.pt + 8 * nth 0 pages 0) (8 * pages.length) bs s4 s5 → onlyRead c s s5 → findOp s5 c sl tk = some o →
      freed pages bs = [] → writePlaces c o sh (dst.zip rows) s5 = (w, false) →
      (dst.zip rows).all (fun x => piecesOk s c sl x.1.1 (placePieces sh x.1.2 x.2)) = true →
      gives (.commit c sl tk) s (fun t => onlyKv c sl s w (moved (sh.c + comNacc d) w) t ∧ nowIn t c sl tk o .done ∧
        raised 32 (cluAddr c oKvCopy) (sh.nkv * dst.length) w t))

/-- R170, R171, R242, R335, R345: MOV, RED, MRG and SYNC. Within the own partition the result is stored; to another cluster of the
module one transfer sets out; to another module messages wait to be sent, 16,384 bytes in each but the last of a MOV. (That a RED on
the module converts by its transport format as one between modules does: the model's choice, log entry 53.) -/
def Obligations.LinkInterface : Prop :=
  ∀ (s s1 : State) (c sl tk : Nat) (o : Op), hasOp s c sl tk o .issued →
    let d := o.desc
    let src := opnd d 16
    let dst := opnd d 24
    let srcUser := opndUser .link src
    let here := tnodeOf s d = 0xFFFF
    let away := tnodeOf s d ≠ 0xFFFF ∧ noRoute s (slotFn s c sl) (dTnode d) = false
    let stored := fun (i : Instr) (w : State) => gives i s (fun t => onlyStored c s w t ∧ nowIn t c sl tk o .done)
    let xfer := fun (i : Instr) (k : XKind) (ps : List Piece) (ph : Phase) => gives i s (fun t =>
      onlyOps c { s with hub.xfers := t.hub.xfers, hub.nextXfer := s.hub.nextXfer + 1 } t ∧ nowIn t c sl tk o ph ∧
        ∃ x : Xfer, t.hub.xfers = s.hub.xfers ++ [x] ∧ x.id = s.hub.nextXfer ∧ x.kind = k ∧ x.data = ps ∧
          x.tclu = targetClu c d ∧ x.tslot = dTslot d ∧ x.f = slotFn s c sl ∧ x.load = some (slotLoad s c sl) ∧
          x.ctr = dTctr d ∧ x.eack = none ∧ x.way.cls = o.cls ∧ x.op = if ph = .done then none else some (c, sl, tk))
    let msgs := fun (i : Instr) (ty : MType) (n : Nat) (p : Msg → Nat → Prop) => gives i s (fun t =>
      t.cl.spad = s.cl.spad ∧ t.mem = s.mem ∧ t.hub = s.hub ∧ nowIn t c sl tk o (.sent n false) ∧
        ∃ ms : List Msg, t.lnk.msgs = s.lnk.msgs ++ ms ∧ ms.length = n ∧ ∀ k m, ms[k]? = some m →
          m.ty = ty ∧ m.dnode = dTnode d ∧ m.owner = .op c sl tk ∧ m.sent = false ∧ m.cls = o.cls ∧
            m.final = decide (k + 1 = n) ∧ m.ctr = (if k + 1 = n then dTctr d else none) ∧ p m k)
    let atomic := fun (i : Instr) (k : AKind) (ps : List (Nat × Nat)) (bs : List Byte) => gives i s (fun t =>
      t.cl.spad = s.cl.spad ∧ t.mem.dev = s.mem.dev ∧ nowIn t c sl tk o (.sent 1 false) ∧
        ∃ a : Atom, (∀ k, tabGet [] t.mem.atoms k =
            tabGet [] s.mem.atoms k ++ if ps.any (fun p => stackOf p.1 == k) then [a] else []) ∧
          a.kind = k ∧ a.cls = o.cls ∧ a.pieces = ps ∧ a.data = bs ∧ a.poi = [] ∧ a.ctr = dTctr d)
    (dOp d = opMOV → ∀ bs w, clean c .link sl [(src, src.size, bs)] s s1 →
      (isLocal s d = true → puts s1 c .link sl [(dst, 0, bs)] w → stored (.mov c sl tk) w) ∧
      (here → isLocal s d = false →
        xfer (.mov c sl tk) .write (piecesOf (targetSpans dst bs.length) bs) (.sent 1 false)) ∧
      (away → 0 < bs.length → msgs (.mov c sl tk) .write (ceilDiv bs.length 16384) (fun m k =>
        m.src = .spad c srcUser sl src.spans (16384 * k) (Nat.min 16384 (bs.length - 16384 * k)) ∧ m.addr = dst.addr + 16384 * k))) ∧
    (dOp d = opRED → ∀ bs, clean c .link sl [(src, src.size, bs)] s s1 →
      let tb := (redTransport o bs).1
      let ws := redWords (redBf16 d) tb
      let into := opndUser .link dst
      (here → dTmem d = false → dTclu d ≠ 0xFFFF →
        xfer (.red c sl tk) (.red (dRop d)) (piecesOf (targetSpans dst ws.length) ws) (.sent 1 false)) ∧
      (here → dTmem d = false → dTclu d = 0xFFFF → ∀ cur ps s2 w,
        readSpans s1 c into (partBase s c sl) (targetSpans dst ws.length) = (s2, cur, ps) → ps.any id = false → onlyClu c s1 s2 →
        writeSpans s2 c into (partBase s c sl) ((redVals (dRop d) cur ws).flatMap f32Bytes) (targetSpans dst ws.length) = (w, 0) →
        stored (.red c sl tk) w) ∧
      (here → dTmem d = true → ∀ ps, tenPieces s (slotFn s c sl) (dTaddr d) ws.length = some ps →
        atomic (.red c sl tk) (.red (dRop d)) ps ws) ∧
      (away → msgs (.red c sl tk) .red 1 (fun m _ =>
        m.rop = dRop d ∧ m.fmt = (opnd d 24).fmt ∧ (m.addr = if dTmem d then dTaddr d else dst.addr) ∧
          m.src = if redBf16 d then .red c srcUser sl src.spans src.size o.rng else .spad c srcUser sl src.spans 0 src.size))) ∧
    (dOp d = opMRG → ∀ bs, clean c .link sl [(src, mrgHeads d * (16 + 4 * dDim d), bs)] s s1 →
      (here → ∀ ps, tenPieces s (slotFn s c sl) (dTaddr d) (mrgHeads d * (16 + 4 * dDim d)) = some ps →
        atomic (.mrg c sl tk) (.mrg (dDim d)) ps ((chunks (16 + 4 * dDim d) bs).flatMap (mrgMessage (dDim d)))) ∧
      (away → msgs (.mrg c sl tk) .mrg 1 (fun m _ =>
        m.src = .mrg c srcUser sl src.spans (mrgHeads d * (16 + 4 * dDim d)) (dDim d) ∧ m.dim = dDim d ∧ m.addr = dTaddr d))) ∧
    (dOp d = opSYNC → earlierEnded s c o = true →
      (dTctr d = none → gives (.sync c sl tk) s (fun t => onlyOps c s t ∧ t.ctrs = s.ctrs ∧ nowIn t c sl tk o .done)) ∧
      (here → dTctr d ≠ none → xfer (.sync c sl tk) .sig [] .done) ∧
      (away → dTctr d ≠ none → msgs (.sync c sl tk) .sig 1 (fun m _ => m.src = .bytes [] ∧ m.addr = 0)))

/-- R251, R255 to R260: CMP. A compressing CMP writes the tiles' pieces and the index; an expanding one checks header and index
and writes the image, and counts tiles. -/
def Obligations.Compression : Prop :=
  ∀ (s s1 : State) (c sl tk : Nat) (o : Op), hasOp s c sl tk o .issued → dOp o.desc = opCMP →
    let d := o.desc
    let src := opnd d 16
    let dst := opnd d 24
    let idx := opnd d 32
    (cmpPacks d = true → ∀ img w, clean c .link sl [(src, src.size, img)] s s1 →
      let f := (fmtOf src.fmt).getD .a8
      let x := atrCompress f src.sat (cmpPlace d) (cmpBudget d) (attarTiles f src.sat src.size) img
      puts s1 c .link sl (x.pieces.map (fun p => (dst, p.1, p.2)) ++ [(idx, 0, x.index)]) w →
      gives (.cmpCompress c sl tk) s (fun t => onlyStored c s w t ∧ nowIn t c sl tk o .done ∧
        raised 32 (cluAddr c oAtrTiles) x.tiles s t ∧ raised 32 (cluAddr c oAtrRaw) x.raw s t ∧
          raised 32 (cluAddr c oAtrDrop) x.drops s t)) ∧
    (cmpPacks d = false → ∀ hb ib img surplus tiles s2 s3 w, clean c .link sl [(src, 32, hb)] s s1 →
      let f := (fmtOf dst.fmt).getD .a8
      let n := min idx.size (8 * (atrHdr hb).nt)
      clean c .link sl [(idx, n, ib)] s1 s2 →
      atrExpand f dst.sat dst.size (peekOpnd s1 c sl src 0 src.size) (peekOpnd s1 c sl idx 0 n) = .ok img surplus tiles →
      (∀ g, opParts c o src g (streamParts f (atrHdr hb) ib) s2 = g s3) → onlyClu c s2 s3 → findOp s3 c sl tk = some o →
      puts s3 c .link sl [(dst, 0, img)] w →
      gives (.cmpExpand c sl tk) s (fun t => onlyStored c s w t ∧ nowIn t c sl tk o .done ∧
        raised 32 (cluAddr c oAtrExp) tiles s t ∧ raised 32 (cluAddr c oAtrMeta) surplus s t))

/-- R159, R174, R178, R182, R183: an operation that is done leaves the scoreboard with its ranges and raises its arrival
counter by one; a DMA moves its bytes first. The context's region has no work item that this could end. -/
def Obligations.OperationEnds : Prop :=
  ∀ (s : State) (c sl tk : Nat) (o : Op), slotLive s c sl → findOp s c sl tk = some o →
    (∀ x, slotCtx s c sl = some x → runItems s x.region = []) →
    let f := slotFn s c sl
    let ended := fun (t : State) => findOp t c sl tk = none ∧
      (∀ n, tabGet (0 : BitVec 32) (getSlot t c sl).ac n =
        tabGet 0 (getSlot s c sl).ac n + if o.ctr = some n then 1 else 0) ∧
      (∀ r, sreg t c sl r = sreg s c sl r) ∧ pcOf t c sl = pcOf s c sl ∧ (∀ k, k ≠ c → getClu t k = getClu s k) ∧
      ∀ x, (x.sl ≠ sl ∨ x.ticket.toNat ≠ tk) → (x ∈ (getClu t c).ops ↔ x ∈ (getClu s c).ops)
    (∀ d ce ue, o.kind = .tile d → o.phase = .done →
      gives (.operationComplete c sl ⟨tk, ce, ue⟩) s (fun t => ended t ∧ t.cl.spad = s.cl.spad ∧ t.mem = s.mem ∧ t.ctrs = s.ctrs)) ∧
    (∀ a dev n ct ce bs s1 w k, o.kind = .dmag a dev n ct → o.got = none → tenWaits s f dev n = false →
      sees o.cls f dev n bs s s1 → spadWrite (bumpC s1 c oFabCorr ce) c .dma (partBase s c sl + a) bs false = (w, k) →
      gives (.operationComplete c sl ⟨tk, ce, []⟩) s (fun t => ended t ∧ t.cl.spad = w.cl.spad ∧ t.mem = s.mem ∧
        raised 32 (cluAddr c oFabCorr) ce s t)) ∧
    (∀ a dev n ct ce ue bs s1 ps, o.kind = .dmap a dev n ct → o.got = none → tenWaits s f dev n = false →
      tenOk s f dev n = true → spadRead s c .dma (partBase s c sl + a) n = (s1, bs, ps) → ps.any id = false → onlyClu c s s1 →
      mailboxes s f = [] →
      gives (.operationComplete c sl ⟨tk, ce, ue⟩) s (fun t => ended t ∧ t.cl.spad = s.cl.spad ∧
        t.mem = ((markPieces dev bs ue).foldl (fun w p => tenWrite w o.cls f p.1 p.2.1 p.2.2) s).mem))

/-- R145, R146, R294, R479: a reload rewrites the tile from its backing record, or from what its stack had returned before an Eclipse
stop, makes it RESIDENT and counts, with the words that the express network corrected; a failed one makes it EMPTY, and so does a word
beyond repair (the model's choice, log entry 95). No reader waits in any of them. -/
def Obligations.WeightReloads : Prop :=
  ∀ (s : State) (c n : Nat), c < Config.clusters → n < 32768 → s.pow.on = true → cluRuns s c = true →
    (getTile s c n).st = .reloading →
    tileWaiters s c n = [] → tabSorted s.cl.tiles = true →
    (∀ b bs ce ue, (getTile s c n).back = some b →
      ((getTile s c n).got = some (bs, false) ∧ bs.length = 4096 ∨
        (getTile s c n).got = none ∧ physOk b = true ∧ stackFailed s (stackOf b) = false ∧ stackWaits s (stackOf b) = false ∧
          cwMarked s b 4096 = false ∧ bs = memBytes s.mem.dev b 4096) →
      let frame := fun (t : State) =>
        t = { s with cl := { s.cl with tiles := t.cl.tiles, wst := t.cl.wst, wErr := t.cl.wErr }, mq := t.mq, ctrs := t.ctrs
                     nowTick := t.nowTick, nowCtr := t.nowCtr, nowSet := t.nowSet } ∧
          (∀ k, k ≠ 32768 * c + n → tabGet tileReset t.cl.tiles k = tabGet tileReset s.cl.tiles k) ∧
          raised 32 (cluAddr c oFabCorr) ce s t ∧ raised 32 (cluAddr c oFabUncorr) ue.length s t
      (ue = [] → Memory.wf s.cl.wst = true → gives (.weightReloadDone c ⟨n, ce, ue⟩) s (fun t =>
        frame t ∧ getTile t c n = { getTile s c n with st := .resident, got := none } ∧
          (∀ x, memGet t.cl.wst x = if wstKey c (4096 * n) ≤ x ∧ x < wstKey c (4096 * n) + 4096
            then nth 0 bs (x - wstKey c (4096 * n)) else memGet s.cl.wst x) ∧
          raised 32 (cluAddr c oWstReload) 1 s t)) ∧
      (ue ≠ [] → gives (.weightReloadDone c ⟨n, ce, ue⟩) s (fun t =>
        frame t ∧ getTile t c n = tileReset ∧ t.cl.wst = s.cl.wst))) ∧
    gives (.weightReloadFail c n) s (fun t => t = { s with cl.tiles := t.cl.tiles } ∧ getTile t c n = tileReset ∧
      ∀ k, k ≠ 32768 * c + n → tabGet tileReset t.cl.tiles k = tabGet tileReset s.cl.tiles k)

/-- R108, R112, R116, R125, R131 to R134, R218, R271, R485: a cluster's housekeeping: write-back of a gather entry, fence and scrub of
a partition, accord lines, the look-aside buffer, the seed with its ephemeris record, the precision control and the storm window. -/
def Obligations.ClusterHousekeeping : Prop :=
  ∀ (s : State) (c : Nat), c < Config.clusters → s.pow.on = true → s.memOk = true →
    let k := getClu s c
    let others := fun (t : State) => ∀ x, x ≠ c → getClu t x = getClu s x
    (cluRuns s c = true → ∀ w e, w < 2 ^ 20 → gatherEnt s c w = some e → e.dirty = true → wordPoi s c w = false →
      tabGet 0 s.cl.spadErr (wordKey c w) = 0 →
      gives (.gatherWriteback c w) s (fun t =>
        t = { s with cl.clus := t.cl.clus, cl.spad := t.cl.spad } ∧ others t ∧
          gatherEnt t c w = some { e with dirty := false, en := 0 } ∧
          bytesNow s.cl.spad t.cl.spad (spadKey c (32 * w)) ((List.range 32).map (fun i =>
            if bitB e.en i then nth 0 e.data i else memGet s.cl.spad (spadKey c (32 * w) + i))))) ∧
    (∀ sl, sl < 4 → eclHalted s = false → (getSlot s c sl).releasing = true → (getSlot s c sl).pvalid = true →
      gives (.partitionFence c sl) s (fun t =>
        t = { s with cl.clus := t.cl.clus, cl.slots := t.cl.slots } ∧ others t ∧
          (getClu t c).fence = k.fence ||| panelBits (getSlot s c sl).pbase (getSlot s c sl).pcount ∧
          (getClu t c).scrubQ = k.scrubQ ++ [((getSlot s c sl).pbase, (getSlot s c sl).pcount)] ∧
          (getSlot t c sl).pvalid = false ∧ (getSlot t c sl).releasing = false ∧
          ∀ x, x ≠ 4 * c + sl → tabGet slotReset t.cl.slots x = tabGet slotReset s.cl.slots x)) ∧
    (cluRuns s c = true → ∀ b n l, k.scrubQ = (b, n) :: l →
      gives (.scrubDone c) s (fun t =>
        t = { s with cl := { s.cl with clus := t.cl.clus, spad := t.cl.spad, spadPoi := t.cl.spadPoi, spadErr := t.cl.spadErr } } ∧
          others t ∧ getClu t c = { k with scrubQ := l, fence := k.fence - (k.fence &&& panelBits b n) } ∧
          zeroNow s.cl.spad t.cl.spad (spadKey c (2 ^ 21 * b)) (2 ^ 21 * n) ∧
          ∀ w, w / 65536 < b + n → b ≤ w / 65536 → wordPoi t c w = false)) ∧
    (∀ ent v, tabFind k.accHeld ent = some v → tabSorted k.accHeld = true → tabSorted s.cl.tiles = true →
      (∀ o ∈ k.ops, o.ent ≠ some v.toNat) →
      let freed := fun (n : Nat) => n ∈ accTiles s c v.toNat ∧ loadedTile s c n = false ∧
        ∀ x u, x ≠ ent → tabFind k.accHeld x = some u → n ∉ accTiles s c u.toNat
      gives (.accordLinesFree c ent) s (fun t => t = { s with cl := { s.cl with clus := t.cl.clus, tiles := t.cl.tiles } } ∧ others t ∧
        getClu t c = { k with accHeld := (getClu t c).accHeld } ∧ tabFind (getClu t c).accHeld ent = none ∧
          (∀ x, x ≠ ent → tabFind (getClu t c).accHeld x = tabFind k.accHeld x) ∧
          (∀ n, n < 32768 → (freed n → getTile t c n = tileReset) ∧ (¬ freed n → getTile t c n = getTile s c n)) ∧
          ∀ x n, x ≠ c → n < 32768 → getTile t x n = getTile s x n)) ∧
    (∀ f mask, gives (.kvInval f c mask) s (fun t => t = { s with cl.clus := t.cl.clus } ∧ others t ∧
        getClu t c = { k with lb := (getClu t c).lb } ∧
        ∀ e, e ∈ (getClu t c).lb ↔ e ∈ k.lb ∧ ¬ (e.sl < 4 ∧ bitB mask e.sl = true ∧ slotReach s f c e.sl = true))) ∧
    (∀ f sl v, sl < 4 → slotReach s f c sl = true →
      (∀ x, slotCtx s c sl = some x → bitB (tenReg s x.f oEphCfg) 31 = false) →
      gives (.seedWrite f c sl v) s (fun t => onlySlot c sl s t ∧
        getSlot t c sl = { getSlot s c sl with seedPend := some (BitVec.ofNat 64 v) })) ∧
    (∀ f sl v x, sl < 4 → slotReach s f c sl = true → slotCtx s c sl = some x → bitB (tenReg s x.f oEphCfg) 31 = true →
      bitB (tenReg s x.f oEphCfg) 29 = false → dmaHeld s x.f = false → (getFunc s x.f).ephDropped = 0 →
      2 ≤ ephSize s x.f - sub32 (getFunc s x.f).ephTail (getFunc s x.f).ephHead →
      let at_ := fun (n : Nat) => tenReg s x.f oEphAddr + 16 * (n % ephSize s x.f)
      let tail := (getFunc s x.f).ephTail
      let b := ephBytes s.clock.ftc 3 0x7FF 0 (leBytes 2 c ++ leBytes 1 sl ++ leBytes 5 0 ++ leBytes 8 v)
      gives (.seedWrite f c sl v) s (fun t =>
        getSlot t c sl = { getSlot s c sl with seedPend := some (BitVec.ofNat 64 v) } ∧
          t.host = memPut (memPut s.host (at_ tail) (b.take 16)) (at_ ((tail + 1) % 2 ^ 32)) (b.drop 16) ∧
          (getFunc t x.f).ephTail = ((tail + 1) % 2 ^ 32 + 1) % 2 ^ 32 ∧ t.mem = s.mem ∧ t.ctrs = s.ctrs)) ∧
    (∀ sl v, sl < 4 → (getSlot s c sl).seedPend = some v →
      gives (.seedApply c sl) s (fun t => onlySlot c sl s t ∧
        getSlot t c sl = { getSlot s c sl with seed := v, seedPend := none, rng := [] })) ∧
    (∀ f v, wideReach s f c = true →
      gives (.precCtlWrite f c v) s (fun t => others t ∧ getClu t c = { k with gateNo := 1 } ∧
        setsReg (cluAddr c oPrecCtl) (v % 2 ^ 32) { s with cl.clus := t.cl.clus } t)) ∧
    gives (.stormWindowEnd c) s (fun t => onlyOps c s t ∧ getClu t c = { k with fbWin := 0 } ∧
      raised 32 (cluAddr c oStorm)
        (if 0 < bits (cluReg s c oPrecCtl) 15 0 ∧ bits (cluReg s c oPrecCtl) 15 0 ≤ k.fbWin then 1 else 0) s t)

/-- R130, R178, R289, R297 to R299, R313, R341, R345, R431: the arrival of a transfer (signal, write, reduction) for a resident and
for a swapped-out context, and for none; the end of one whose target cannot be reached; the acknowledgement to its operation and to
another module. One that is not the first at its output, or stands behind an earlier RED from another module, waits (R291, R346; of two
promoted ones: the model's choice, log entry 95). -/
def Obligations.Transfers : Prop :=
  ∀ (s : State) (x : Xfer), s.pow.on = true → s.memOk = true → findXfer s x.id = some x → x.item = none →
    let c := boundClu s x.tclu
    let rest := s.hub.xfers.filter (fun y => y.id != x.id)
    let gone := { s with hub.xfers := rest }
    let comes := noReach s c = false ∧ cluRuns s c = true ∧ servedFirst s.hub.xfers x = true ∧ redWaits s x = false
    let arrives := fun (p : State → Prop) => gives (.transferArrival x.id [] []) s p
    let here := fun (y : Ctx) => selectCtx s x.f x.load x.tclu x.tslot = some y ∧ y.switching = false
    (∀ y, x.eack = none → x.op = none → comes → here y → y.resident = true →
      (x.kind = .sig → x.data = [] → ∀ n, x.ctr = some n → arrives (fun t =>
          t = { gone with cl.slots := t.cl.slots } ∧ onlySlot y.clu y.slot gone t ∧
            ∀ j, tabGet (0 : BitVec 32) (getSlot t y.clu y.slot).ac j =
              tabGet 0 (getSlot s y.clu y.slot).ac j + if j = n then 1 else 0)) ∧
      (∀ a bs w k, x.kind = .write → x.data = [(a, bs, false)] → x.ctr = none → a + bs.length ≤ partSize s y.clu y.slot →
        spadWrite s y.clu .link (partBase s y.clu y.slot + a) bs false = (w, k) →
        arrives (fun t => t.hub.xfers = rest ∧ t.cl.slots = s.cl.slots ∧ onlyStored y.clu gone w t ∧
          raised 32 (cluAddr y.clu oSpadDrop) k w t)) ∧
      (∀ rop a bs s2 cur ps w k, x.kind = .red rop → x.data = [(a, bs, false)] → x.ctr = none → splitWords a bs = [(a, bs)] →
        a + bs.length ≤ partSize s y.clu y.slot →
        spadRead s y.clu .link (partBase s y.clu y.slot + a) bs.length = (s2, cur, ps) → ps.any id = false → onlyClu y.clu s s2 →
        spadWrite s2 y.clu .link (partBase s y.clu y.slot + a) ((redVals rop cur bs).flatMap f32Bytes) false = (w, k) →
        arrives (fun t => t.hub.xfers = rest ∧ t.cl.slots = s.cl.slots ∧ onlyStored y.clu gone w t ∧
          raised 32 (cluAddr y.clu oSpadDrop) k w t))) ∧
    (∀ y, x.eack = none → x.op = none → comes → here y → y.resident = false → stackWaits s (stackOf y.saveAt) = false →
      (x.kind = .sig → x.data = [] → ∀ n, x.ctr = some n → arrives (fun t =>
        t = { gone with hub.ctxs := s.hub.ctxs.map (fun z => if z.id = y.id then
          { z with saved := z.saved.map (fun k => { k with ac := tabSet k.ac n (tabGet 0 k.ac n + 1) }) } else z) })) ∧
      (∀ a bs, x.data = [(a, bs, false)] → x.ctr = none → a + bs.length ≤ y.panels * 2 ^ 21 → stacksSound s →
        stackOf (y.saveAt + a + bs.length) = stackOf y.saveAt → stackOf (y.saveAt + a) = stackOf y.saveAt →
        (x.kind = .write → arrives (fun t => t = { gone with mem.dev := t.mem.dev, mq := t.mq } ∧
          bytesNow s.mem.dev t.mem.dev (y.saveAt + a) bs)) ∧
        (∀ rop, x.kind = .red rop → splitWords a bs = [(a, bs)] → arrives (fun t =>
          t.cl.spad = s.cl.spad ∧ t.cl.slots = s.cl.slots ∧ t.hub.ctxs = s.hub.ctxs ∧ t.hub.xfers = rest ∧
            bytesNow s.mem.dev t.mem.dev (y.saveAt + a)
              ((redVals rop (memBytes s.mem.dev (y.saveAt + a) bs.length) bs).flatMap f32Bytes))))) ∧
    (x.eack = none → x.op = none → comes → x.kind ≠ .read → selectCtx s x.f x.load x.tclu x.tslot = none →
      arrives (fun t => t = { gone with ctrs := t.ctrs, nowTick := t.nowTick, nowCtr := t.nowCtr, nowSet := t.nowSet } ∧
        raised 32 (cluAddr c oSpadDrop) (natSum (x.data.map (fun p => (wordsOf p.1 p.2.1.length).length))) s t ∧
        raised 32 (cluAddr c oAcDrop) (if x.ctr.isSome then 1 else 0) s t)) ∧
    (∀ y, selectCtx s x.f x.load x.tclu x.tslot = some y → y.switching = true → arrives (fun t => t = s)) ∧
    ((servedFirst s.hub.xfers x = false ∨ redWaits s x = true) → arrives (fun t => t = s)) ∧
    (noReach s c = true → eclHalted s = false → x.kind ≠ .read → ∀ ce ue,
      let ends := fun (p : State → Prop) => gives (.switchNoreach ⟨x.id, ce, ue⟩) s p
      (x.eack = none → x.op = none → ends (fun t =>
        t = { gone with ctrs := t.ctrs, nowTick := t.nowTick, nowCtr := t.nowCtr, nowSet := t.nowSet } ∧
          raised 32 aNoReach 1 s t ∧ ∀ k, k < Config.clusters →
            raised 32 (cluAddr k oFabCorr) (ce.filter (fun i => linkEnd x c i == k)).length s t ∧
            raised 32 (cluAddr k oFabUncorr) (ue.filter (fun p => linkEnd x c p.1 == k)).length s t)) ∧
      (∀ e, x.op = none → x.eack = some e → ends (fun t => t.lnk = (sendEack s e 0).lnk ∧ t.hub.xfers = rest ∧ t.cl = s.cl))) ∧
    (∀ c1 sl1 tk1 o n p, x.eack = none → x.op = some (c1, sl1, tk1) → findOp s c1 sl1 tk1 = some o → o.phase = .sent n p →
      let acked := fun (t : State) => t.hub.xfers = rest ∧
        findOp t c1 sl1 tk1 = some { o with phase := if n ≤ 1 then .done else .sent (n - 1) p }
      (∀ y, comes → here y → y.resident = true → x.kind = .write ∨ x.kind = .sig → arrives acked) ∧
      (noReach s c = true → eclHalted s = false → x.kind ≠ .read → gives (.switchNoreach ⟨x.id, [], []⟩) s acked))

/-- R440 to R443, R449, R457: codewords of a stack that takes requests. A whole write replaces 64 bytes and clears marks; a
partial one keeps the other bytes; a read counts and logs a correction, and a pattern beyond repair becomes poison; the patrol
writes back what it corrects. -/
def Obligations.Codewords : Prop :=
  ∀ (s : State) (p : Nat), s.pow.on = true → s.memOk = true → physOk p = true → stackWaits s (stackOf p) = false →
    stackFailed s (stackOf p) = false → (getStack s (stackOf p)).bad = [] →
    let cw := p / 64
    let es := tabGet [] s.mem.devErr cw
    let poi := tabGet 0 s.mem.devPoi cw
    let raw := applyErrs (memBytes s.mem.dev (64 * cw) 64) es
    let counted := fun (t : State) => { s with mq := t.mq, ctrs := t.ctrs, nowTick := t.nowTick, nowCtr := t.nowCtr, nowSet := t.nowSet }
    let off := offsetOf (64 * cw)
    (es = [] → gives (.codewordRead p) s (fun t => onlyAsks s t)) ∧
    (∀ fix, es ≠ [] → cwClass (es ++ (if poi = 1 then poisonPattern else [])) = .corrected fix →
      gives (.codewordRead p) s (fun t => t = counted t ∧ raised 32 (stkAddr (stackOf p) 0x8) 1 s t ∧
        ctr t (stkAddr (stackOf p) 0x18) = ceLog off fix) ∧
      ((getStack s (stackOf p)).patrol = true →
        gives (.patrolRead p) s (fun t => bytesNow s.mem.dev t.mem.dev (64 * cw) (applyErrs raw fix) ∧
          tabGet [] t.mem.devErr cw = [] ∧ tabGet 0 t.mem.devPoi cw = 0 ∧ raised 32 (stkAddr (stackOf p) 0x8) 1 s t ∧
          t = { counted t with mem := { s.mem with dev := t.mem.dev, devPoi := t.mem.devPoi, devErr := t.mem.devErr } }))) ∧
    (es ≠ [] → cwClass (es ++ (if poi = 1 then poisonPattern else [])) = .bad →
      gives (.codewordRead p) s (fun t => tabGet 0 t.mem.devPoi cw = 1 ∧ tabGet [] t.mem.devErr cw = [] ∧
        raised 32 (stkAddr (stackOf p) 0xC) 1 s t ∧ ctr t (stkAddr (stackOf p) 0x20) = ueLog off)) ∧
    (∀ data poison, data.length = 64 →
      gives (.codewordWrite p data poison) s (fun t => bytesNow s.mem.dev t.mem.dev (64 * cw) data ∧
        tabGet 0 t.mem.devPoi cw = (if poison then 1 else 0) ∧ tabGet [] t.mem.devErr cw = [] ∧
        (∀ x, x ≠ cw → tabGet 0 t.mem.devPoi x = tabGet 0 s.mem.devPoi x ∧
          tabGet [] t.mem.devErr x = tabGet [] s.mem.devErr x) ∧
        t = { s with mem := { s.mem with dev := t.mem.dev, devPoi := t.mem.devPoi, devErr := t.mem.devErr }, mq := t.mq })) ∧
    (∀ data, es = [] → poi = 0 → 0 < data.length → p % 64 + data.length ≤ 64 →
      gives (.partialWrite p data false) s (fun t => bytesNow s.mem.dev t.mem.dev p data ∧
        (∀ x, tabGet 0 t.mem.devPoi x = tabGet 0 s.mem.devPoi x ∧ tabGet [] t.mem.devErr x = tabGet [] s.mem.devErr x) ∧
        t = { s with mem := { s.mem with dev := t.mem.dev, devPoi := t.mem.devPoi, devErr := t.mem.devErr }, mq := t.mq }))

/-- R346, R448 to R457, R460, R461, R497, R543: the stacks: temperature, retrain, failure, the atomic units, the release scrub,
MEM_SAVE and MEM_PRIO. -/
def Obligations.MemoryStacks : Prop :=
  ∀ (s : State), s.pow.on = true → s.memOk = true →
    (∀ k, k < Config.stacks →
      let st := getStack s k
      let onlyStk := fun (t : State) (v : Stack) => t = { s with mem.stks := t.mem.stks } ∧ getStack t k = v ∧
        ∀ x, x ≠ k → getStack t x = getStack s x
      (∀ d : Int, d < 105 → gives (.stackTempRead k d) s (fun t => onlyStk t { st with temp := d })) ∧
      (∀ d : Int, 105 ≤ d → s.pow.shut = none → gives (.stackTempRead k d) s (fun t =>
        getStack t k = { st with temp := d } ∧ t.pow.shut = some true ∧ t.pow.thermTrip = true ∧ t.pow.pwrGood = false)) ∧
      (st.st = .ready → gives (.stackRetrain k) s (fun t => onlyStk t { st with st := .retrain })) ∧
      (∀ lanes v, st.st = .retrain → lanesAdd (lanes ++ st.bad.map symLane) st.lanes = some v →
        (∀ r ∈ s.hub.rings, r.2.held = []) →
        let done := { st with st := .ready, lanes := v, bad := [] }
        (s.mem.held = [] → gives (.stackRetrainDone k true lanes) s (fun t => onlyStk t done)) ∧
        (∀ p bs, s.mem.held = [⟨p, bs, false⟩] → stackOf p = k → s.mem.devErr = [] → s.mem.devPoi = [] →
          gives (.stackRetrainDone k true lanes) s (fun t => getStack t k = done ∧ t.mem.held = [] ∧
            bytesNow s.mem.dev t.mem.dev p bs))) ∧
      (st.st ≠ .failed → s.hub.loads = [] → s.mem.held = [] →
        gives (.stackFail k) s (fun t =>
          t = { s with mem.stks := t.mem.stks, hub.reports := t.hub.reports } ∧ getStack t k = { st with st := .failed } ∧
            t.hub.reports = s.hub.reports ++ (windowFuncs s k).map (fun f => moduleReport s f cStackFailed 0x7FF k false))) ∧
      (∀ a l p n rop ue, tabGet [] s.mem.atoms k = a :: l → a.kind = .red rop → a.pieces = [(p, n)] → stackOf p = k → a.poi = [] →
        a.data.length = n → n % 4 = 0 → eclHalted s = false → a.ctr = none → a.op = none → a.eack = none → stackWaits s (stackOf p) = false →
        stackFailed s (stackOf p) = false → cwMarked s p n = false → stackOf (p + n) = stackOf p →
        gives (.atomicApply ⟨k, ue⟩) s (fun t =>
          t = { s with mem := { s.mem with dev := t.mem.dev, devPoi := t.mem.devPoi, devErr := t.mem.devErr, atoms := t.mem.atoms }
                       mq := t.mq, hub.mbx := t.hub.mbx } ∧
          tabGet [] t.mem.atoms k = l ∧ (∀ x, x ≠ k → tabGet [] t.mem.atoms x = tabGet [] s.mem.atoms x) ∧
          (ue = [] → ∀ x, tabGet 0 t.mem.devPoi x = tabGet 0 s.mem.devPoi x ∧ tabGet [] t.mem.devErr x = tabGet [] s.mem.devErr x) ∧
          (0 ∈ ue → 0 < n → tabGet 0 t.mem.devPoi (p / 64) = 1) ∧
          bytesNow s.mem.dev t.mem.dev p ((redVals rop (memBytes s.mem.dev p n) a.data).flatMap f32Bytes)))) ∧
    (∀ j js, s.mem.scrub = j :: js → stackWaits s (stackOf j.p) = false → stackFailed s (stackOf j.p) = false →
      gives .releaseScrubDone s (fun t => t = { s with mem := { s.mem with scrub := js, dev := t.mem.dev
                                                                           devPoi := t.mem.devPoi, devErr := t.mem.devErr },
                                                                                mq := t.mq } ∧
        zeroNow s.mem.dev t.mem.dev j.p j.n)) ∧
    (∀ v, v < 2 ^ 63 → nothingLoaded s = true → gives (.saveAreaWrite v) s (setsReg aSave (v % 2 ^ 40) s)) ∧
    (∀ v, v < 2 ^ 63 → nothingLoaded s = false →
      gives (.saveAreaWrite v) s (fun t => t.mem = { s.mem with saveRefused := true } ∧ t.regs = s.regs)) ∧
    (∀ v, bits v 23 16 + bits v 15 8 + bits v 7 0 ≤ 32 → gives (.prioWrite v) s (setsReg aPrio (v % 2 ^ 24) s)) ∧
    (∀ v, 32 < bits v 23 16 + bits v 15 8 + bits v 7 0 → gives (.prioWrite v) s (fun t => t = s))

/-- R305, R307, R308, R412, R538, R548: the reserve count, SHARE, the grants, and RGN_ABORT of a region without work items, whose
contexts become class B. (A grant is checked against the grants that wait, too: the model's choice, log entry 56.) -/
def Obligations.RegionControls : Prop :=
  ∀ (s : State), s.pow.on = true →
    (∀ v, v < 2 ^ 31 → nothingLoaded s = true →
      gives (.rsvCountWrite v) s (fun t => t = { s with hub.rsvCount := v % 4 })) ∧
    (∀ v, v < 2 ^ 31 → nothingLoaded s = false →
      gives (.rsvCountWrite v) s (fun t => t.hub = { s.hub with rsvRefused := true } ∧ t.regs = s.regs ∧ t.cl = s.cl)) ∧
    (∀ c b, c < Config.clusters → (b = true ∨ (functionsOn s (fun x => x == c)).length ≤ 1) →
      gives (.shareWrite c b) s (fun t => t = { s with cl.clus := t.cl.clus } ∧ getClu t c = { getClu s c with share := b } ∧
        ∀ x, x ≠ c → getClu t x = getClu s x)) ∧
    (∀ c, c < Config.clusters → 1 < (functionsOn s (fun x => x == c)).length → gives (.shareWrite c false) s (fun t => t = s)) ∧
    (∀ g v, g < 8 → grantUsed s g = false → (∀ h, h < 8 → h ≠ g → grantsMeet (v &&& grantMask) (grantNext s h) = false) →
      gives (.grantWrite g v) s (fun t =>
        t = { s with hub.grantPend := s.hub.grantPend ++ [(g, BitVec.ofNat 64 (v &&& grantMask))] })) ∧
    (∀ g v, g < 8 → (grantUsed s g = true ∨ ∃ h, h < 8 ∧ h ≠ g ∧ grantsMeet (v &&& grantMask) (grantNext s h) = true) →
      gives (.grantWrite g v) s (fun t => t.hub = { s.hub with grantRefused := true } ∧ t.regs = s.regs ∧ t.cl = s.cl)) ∧
    (tabSorted s.hub.grants = true → gives .grantApply s (fun t =>
      t = { s with hub.grants := t.hub.grants, hub.grantPend := [] } ∧ ∀ g, grantAt t g = grantNext s g)) ∧
    (∀ f v d, funcLive s f → bitB v 31 = true → getRegion s (v % 256) = some d → d.f = f → d.degraded = false →
      (∀ i ∈ s.hub.items, i.region ≠ v % 256) → regionFaulted s (v % 256) = false →
      gives (.rgnAbort f v) s (fun t => t.hub.items = s.hub.items ∧ t.mem = s.mem ∧
        getRegion t (v % 256) = some { d with degraded := true } ∧
        (∀ r, r ≠ v % 256 → getRegion t r = getRegion s r) ∧
        ∀ x ∈ regionCtxs s (v % 256), x.resident = true → (getSlot t x.clu x.slot).cls = .b))

/-- R309, R534, R535, R537, R539, R541, R542: a lost cluster, a lost core that the spare replaces, a fenced die. -/
def Obligations.Losses : Prop :=
  ∀ (s : State), s.pow.on = true →
    let loses := fun (i : Instr) (c p : Nat) => gives i s (fun t =>
      t = { s with cl := { s.cl with clus := t.cl.clus, tiles := t.cl.tiles } } ∧
        getClu t c = { getClu s c with dead := (getClu s c).dead ++ [p], lostSlice := some p } ∧
        (∀ x, x ≠ c → getClu t x = getClu s x) ∧
        ∀ j, getTile t c j = if j / 4096 = p ∧ j < 32768 then tileReset else getTile s c j)
    let fences := fun (i : Instr) (d : Nat) => gives i s (fun t =>
      t.hub.fenced = s.hub.fenced ++ [d] ∧ (∀ c ∈ dieClusters d, (getClu t c).lost = true ∧ (getClu t c).stationOff = true ∧
        ∀ n, n < 4 → (getSlot t c n).st = .faulted) ∧ (∀ c, c ∉ dieClusters d → getClu t c = getClu s c) ∧
        (∀ k, dieStack d = some k → (getStack t k).st = .failed) ∧
        ∀ f ∈ dieFuncs s d, ∃ r ∈ t.hub.reports, r.f = f ∧ r.code = cDieFenced ∧ r.clu = 0x7FF ∧ r.detail = d)
    (∀ c, c < Config.clusters → (getClu s c).lost = false →
      gives (.clusterLost c) s (fun t => (getClu t c).lost = true ∧
        (getClu t c).bypassPend = ((getClu s c).bypassPend || !(getClu s c).bypass) ∧
        (∀ x, x ≠ c → getClu t x = getClu s x) ∧ (∀ n, n < 4 → (getSlot t c n).st = .faulted) ∧
        t.hub.reports = s.hub.reports ++ (functionsOn s (fun x => x == c)).map (fun f =>
          { moduleReport s f cClusterLost c 0 (freshlyDegraded s f (regionsOn s (fun x => x == c))) with
            items := lostItems s f (regionsOn s (fun x => x == c)) }) ∧
        ∀ r ∈ regionsOn s (fun x => x == c), ∀ d, getRegion t r = some d → d.degraded = true)) ∧
    (∀ c p, c < Config.clusters → p < 8 → (getClu s c).dead = [] → (getClu s c).spareUsed = false →
      (∀ o ∈ (getClu s c).ops, runsOn p o = false) → (∀ r ∈ s.hub.reports, r.clu ≠ c) → regionsOn s (fun x => x == c) = [] → tabSorted s.cl.tiles = true →
      (∀ eng lane, loses (.coreLost c p eng lane) c p) ∧ (cluRuns s c = true → loses (.coreHeartbeatSample c [p]) c p)) ∧
    (∀ d, d < Config.dies → s.hub.fenced.contains d = false → s.hub.items = [] → fences (.dieFence d) d) ∧
    (∀ v, bitB v 31 = true → v % 32 < 24 → s.hub.fenced.contains (v % 32) = false → s.hub.items = [] →
      (dieUsed s (v % 32) = false → fences (.dieFenceCmd v) (v % 32)) ∧
      (dieUsed s (v % 32) = true → gives (.dieFenceCmd v) s (fun t =>
        t.hub = { s.hub with fenceRefused := true } ∧ t.cl = s.cl)))

/-- R186, R187, R394, R399, R470: the first report of a function becomes the next record of its fault ring in host memory, or is dropped
and counted where the ring is full; the items that it is for have FREC. (Which report is first, and when FREC is set: the model's
choice, log entries 79 and 93.) -/
def Obligations.FaultRing : Prop :=
  ∀ (s : State) (f : Nat) (r : Report), funcLive s f → dmaHeld s f = false → (getFunc s f).flrbusy = false →
    bitB (tenReg s f oFrCfg) 31 = true → bitB (tenReg s f oFrCfg) 5 = false →
    (sortBy reportLt (s.hub.reports.filter (fun r => r.f == f))).head? = some r → r.f = f →
    let k := getFunc s f
    let size := 2 ^ ringLog (tenReg s f oFrCfg)
    (sub32 k.frTail k.frHead < size →
      gives (.faultRecordWrite f) s (fun t => t.hub.reports = s.hub.reports.erase r ∧
        t.host = memPut s.host (tenReg s f oFrAddr + 32 * (k.frTail % size)) (faultBytes r) ∧
        (getFunc t f).frTail = (k.frTail + 1) % 2 ^ 32 ∧ (getFunc t f).frovf = k.frovf ∧ t.mem = s.mem ∧ t.cl = s.cl ∧
        ∀ id ∈ r.items, ∀ i, getItem t id = some i → i.frec = true)) ∧
    (size ≤ sub32 k.frTail k.frHead →
      gives (.faultRecordWrite f) s (fun t => t.hub.reports = s.hub.reports.erase r ∧ t.host = s.host ∧
        getFunc t f = { k with frovf := true } ∧ raised 32 (tenAddr f oFrLost) 1 s t ∧ t.mem = s.mem ∧ t.cl = s.cl))

/-- R317 to R319, R351: the states of a port and what moves it between them. A move leaves the other ports and the rest of the
module as they are; one out of ACTIVE counts. (The egress queue is kept on leaving, and a port is ACTIVE only once it has seen a DISC
since its training: the model's choice, log entry 57.) -/
def Obligations.PortStates : Prop :=
  ∀ (s : State) (n : Nat), n < Config.ports → s.pow.on = true →
    let p := getPort s n
    let only := fun (t : State) => t = { s with lnk.ports := t.lnk.ports, ctrs := t.ctrs, nowTick := t.nowTick
                                                nowCtr := t.nowCtr, nowSet := t.nowSet } ∧
      (∀ k, k ≠ n → getPort t k = getPort s k) ∧ raised 32 (portAddr n 0x2C) (if p.st = .active then 1 else 0) s t
    let trains := fun (i : Instr) (m : Nat) => gives i s (fun t => only t ∧
      getPort t n = { linkInit p with st := .training, groups := 0, maxw := m, seen := (getPort t n).seen })
    let falls := fun (i : Instr) => gives i s (fun t => only t ∧ (getPort t n).st = .down ∧ (getPort t n).groups = 0 ∧
      (getPort t n).egress = p.egress ∧ (portUp p = true → (getPort t n).replay = [] ∧ (getPort t n).rx = []))
    (∀ g, p.st = .down → nth 0 (portWidths n) (portMinw s n) ≤ groupCount n g →
      trains (.portSignalDetect n g) p.maxw ∧ gives (.portSignalDetect n g) s (fun t => (getPort t n).seen = g)) ∧
    (p.st = .training → falls (.trainingTimeout n)) ∧
    (∀ g w, p.st = .training → pickWidth s n (groupCount n (soundGroups s n g)) p.maxw = some w →
      gives (.trainingDone n g) s (fun t => (getPort t n).groups = nth 0 (portWidths n) w ∧
        (getPort t n).st = (if s.lnk.node ≠ 0xFFFF ∧ p.pnode ≠ 0xFFFF ∧ p.pnode ≠ s.lnk.node ∧ s.lnk.dup = false ∧
          p.discSeen = true then .active else .discovery) ∧ ∀ k, k ≠ n → getPort t k = getPort s k)) ∧
    (∀ g, p.st = .training → pickWidth s n (groupCount n (soundGroups s n g)) p.maxw = none → falls (.trainingDone n g)) ∧
    (p.st = .down → trains (.trainingRetry n) p.maxw) ∧
    (portUp p = true → portMinw s n ≤ portWidth s n → falls (.laneLockLoss n) ∧ falls (.fecErrorLimit n) ∧
      gives (.laneLockLoss n) s (fun t => (getPort t n).maxw = portWidth s n)) ∧
    (portUp p = true → portWidth s n < portMinw s n →
      trains (.laneLockLoss n) (portWidth s n + 1) ∧ trains (.fecErrorLimit n) (portWidth s n + 1)) ∧
    (p.st ≠ .disabled → falls (.signalLoss n) ∧ gives (.signalLoss n) s (fun t => (getPort t n).maxw = 0)) ∧
    (portUp p = true → trains (.portRetrain n) 0) ∧
    gives (.portDisable n) s (fun t => (getPort t n).st = .disabled ∧ bitB (portCtl t n) 0 = false ∧
      (∀ a, a ≠ portAddr n 0 → reg t a = reg s a) ∧ ∀ k, k ≠ n → getPort t k = getPort s k) ∧
    (p.st = .disabled → gives (.portEnable n) s (fun t => getPort t n = { p with st := .down } ∧ bitB (portCtl t n) 0 = true ∧
      t = { s with lnk.ports := t.lnk.ports, regs := t.regs } ∧ ∀ k, k ≠ n → getPort t k = getPort s k))

/-- R321, R323, R327 to R329, R331, R349: the link layer of a port: what a received flit does, acknowledgement, replay, credits,
discovery. (DOWN at the trigger after eight rounds, the ACK of itself only at 64 flits, and credits returned on IDLE flits are the
model's choice, log entry 57.) -/
def Obligations.LinkLayer : Prop :=
  ∀ (s : State) (n : Nat), n < Config.ports → s.pow.on = true →
    let p := getPort s n
    let outP := fun (t : State) (v : Port) => t = { s with lnk.ports := t.lnk.ports, out := t.out } ∧ getPort t n = v ∧
      ∀ k, k ≠ n → getPort t k = getPort s k
    let good := fun (b : List Byte) => flCrcOk b = true ∧ flKnown b = true ∧ flNak b = false ∧ flAckv b = false ∧
      flCrcnt b = 0 ∧ flLseq b = p.expect ∧ p.unacked < 63
    let again := fun (i : Instr) => gives i s (fun t => t.out = (p.replay.map (Out.flit n)).reverse ++ s.out ∧
      getPort t n = { p with rounds := p.rounds + 1 } ∧ (∀ k, k ≠ n → getPort t k = getPort s k) ∧
      raised 32 (portAddr n 0x28) p.replay.length s t)
    (∀ b, portHears s n = true → (flCrcOk b = false ∨ flKnown b = false) →
      (p.nakAt = none ∧ p.heard = true ∨ ∃ t0, p.nakAt = some t0 ∧ t0 + 2000 ≤ s.clock.ftc) →
      gives (.flitReceive n b) s (fun t => (getPort t n).nakAt = some s.clock.ftc ∧ (getPort t n).expect = p.expect ∧
        t.out = .flit n (idleFlit true true ((p.expect + 65535) % 65536) 0 0) :: s.out ∧
        raised 32 (portAddr n 0xC) 1 s t ∧ t.cl = s.cl ∧ t.hub = s.hub ∧ t.mem = s.mem)) ∧
    (∀ b, p.st = .active → good b → 3 ≤ flType b → flType b ≤ 7 → waitsSlot s b = true → p.rx = [] →
      gives (.flitReceive n b) s (fun t =>
        outP t { p with expect := (p.expect + 1) % 65536, heard := true, nakAt := none, unacked := p.unacked + 1, rx := [b] } ∧
          t.out = s.out)) ∧
    (∀ b, p.st = .active → good b → flType b = 2 → bitB (flitN (flPayload b) 2 1) 0 = false →
      gives (.flitReceive n b) s (fun t =>
        outP t { p with expect := (p.expect + 1) % 65536, heard := true, nakAt := none, unacked := p.unacked + 1
                        owed := listSet p.owed 3 (nth 0 p.owed 3 + 1)
                        tsAsk := p.tsAsk ++ [(flitN (flPayload b) 0 2, flitN (flPayload b) 8 8, s.clock.ftc)] } ∧ t.out = s.out)) ∧
    (∀ b, portHears s n = true → good b → flType b = 1 →
      gives (.discReceive n b) s (fun t => (getPort t n).pser = flitN (flPayload b) 0 8 ∧
        (getPort t n).pnode = flitN (flPayload b) 8 2 ∧ (getPort t n).pport = bits (flitN (flPayload b) 10 1) 2 0 ∧
        (getPort t n).patrc = bitB (flitN (flPayload b) 11 1) 0 ∧ (getPort t n).discSeen = true ∧
        (getPort t n).expect = (p.expect + 1) % 65536 ∧
        (flitN (flPayload b) 8 2 = s.lnk.node → s.lnk.node ≠ 0xFFFF → t.lnk.dup = true) ∧ t.cl = s.cl ∧ t.mem = s.mem)) ∧
    (∀ a, portUp p = true → eclHalted s = false → p.rounds < 8 → p.replay ≠ [] → p.egress = [] →
      (∀ b ∈ p.replay, serial16Ge a (flLseq b) = false) → again (.nakReceive n a)) ∧
    (portUp p = true → eclHalted s = false → p.rounds < 8 → p.replay ≠ [] → again (.replayTimeout n)) ∧
    (portUp p = true → eclHalted s = false → 8 ≤ p.rounds → p.replay ≠ [] → gives (.replayTimeout n) s (fun t =>
      (getPort t n).st = .down ∧ (getPort t n).replay = [] ∧ t.out = s.out)) ∧
    (portUp p = true → 0 < p.unacked → gives (.ackTimer n) s (fun t => outP t { p with unacked := 0 } ∧
      t.out = .flit n (idleFlit true false ((p.expect + 65535) % 65536) 0 0) :: s.out)) ∧
    (∀ a b c d, portUp p = true → p.owed = [a, b, c, d] → a ≤ 4095 → b ≤ 4095 → c ≤ 4095 → d ≤ 4095 →
      gives (.creditReturnTimer n) s (fun t => outP t { p with owed := [0, 0, 0, 0] } ∧
        t.out = (([(0, a), (1, b), (2, c), (3, d)].filter (fun x => x.2 != 0)).map (fun x =>
          Out.flit n (idleFlit false false 0 x.1 x.2))).reverse ++ s.out)) ∧
    (portHears s n = true → p.egress = [] → p.replay.length < 8192 → 0 < nth 0 p.credits 3 →
      gives (.discSend n) s (fun t => t.out = .flit n (flSetLseq (discFlit s n) p.lseq) :: s.out ∧
        outP t { p with lseq := (p.lseq + 1) % 65536, replay := p.replay ++ [flSetLseq (discFlit s n) p.lseq]
                        credits := listSet p.credits 3 (nth 0 p.credits 3 - 1) }))

/-- R332, R335 to R339, R341 to R343: node IDs; a message takes its number at its first send and keeps it in every copy; a
whole message that arrives is judged by age, epoch and number before it is applied; an EACK ends it; one that is lost faults its
operation, with a report where its slot has a context. (A FIRST flit with the SNODE and MTAG of a copy under way replaces that copy, and
a resend without a route counts: the model's choice, log entry 58.) -/
def Obligations.NodesAndMessages : Prop :=
  ∀ (s : State), s.pow.on = true →
    let rest := fun (t : State) => t.cl = s.cl ∧ t.mem = s.mem ∧ t.hub = s.hub ∧ t.lnk.msgs = s.lnk.msgs
    let tag := freeTag (usedTags s) (usedTags s).length ((s.lnk.mtag + 1) % 65536)
    (∀ v, v < 0xFFFF → s.lnk.node = 0xFFFF → gives (.nodeAssign v) s (fun t => rest t ∧ t.lnk.node = v ∧
      t.lnk.epoch = (s.lnk.epoch + 1) % 256 ∧ (∀ d, nextAseq t d = 1) ∧ t.lnk.dup = false)) ∧
    (∀ v, v < 0xFFFF → s.lnk.node ≠ 0xFFFF → gives (.nodeAssign v) s (fun t => t = s)) ∧
    (s.lnk.msgs = [] → gives .nodeUnassign s (fun t => rest t ∧ t.lnk.node = 0xFFFF ∧ t.lnk.dup = false ∧
      t.lnk.dedup = [] ∧ t.lnk.epoch = s.lnk.epoch)) ∧
    (eclHalted s = false →
      (∀ m b c sl tk, s.lnk.msgs.find? (fun x => x.id == m.id) = some m → sendReady s m = true → msgWaits s m = false →
        noRoute s m.f m.dnode = false → m.src = .bytes b → m.owner = .op c sl tk →
        gives (.messageSend m.id) s (fun t => t.cl = s.cl ∧ t.mem = s.mem ∧ t.hub = s.hub ∧
          nextAseq t m.dnode = (nextAseq s m.dnode + 1) % 2 ^ 32 ∧ t.lnk.mtag = tag ∧
          t.lnk.msgs = s.lnk.msgs.map (fun x => if x.id == m.id then
            { m with sent := true, aseq := nextAseq s m.dnode, epoch := s.lnk.epoch, sftc := s.clock.ftc % 2 ^ 32
                     mtag := tag, port := (routePort s m.dnode).getD 8 } else x))) ∧
      (∀ n b, n < Config.ports → s.lnk.reasm.length < 1024 → (getPort s n).rx = [b] → waitsSlot s b = true →
        gives (.reassemblyStart n) s (fun t => rest t ∧ (getPort t n).rx = [] ∧ ∃ r : Reasm,
          t.lnk.reasm = s.lnk.reasm.filter (fun x => !isCopy (flSnode b) (flMtag b) x) ++ [r] ∧ r.snode = flSnode b ∧
            r.mtag = flMtag b ∧ r.ty = flType b ∧ r.payload = flBody b ∧ r.whole = flLast b ∧ r.port = n)) ∧
      (∀ sn tag, s.lnk.reasm.any (fun r => isCopy sn tag r && !r.whole) = true →
        gives (.reassemblyTimeout sn tag) s (fun t =>
          t = { s with lnk.reasm := s.lnk.reasm.filter (fun r => !isCopy sn tag r) })) ∧
      (∀ r m, s.lnk.reasm.find? (isCopy r.snode r.mtag) = some r → r.whole = true → rmsgOf r = some m → rmsgWaits s m = false →
        let age := (s.clock.ftc + 2 ^ 32 - m.h.sftc) % 2 ^ 32
        let freed := s.lnk.reasm.filter (fun x => !isCopy r.snode r.mtag x)
        (1000000 ≤ age → gives (.messageDeliver r.snode r.mtag) s (fun t => rest t ∧ t.lnk.reasm = freed ∧
          raised 32 aRxAged 1 s t)) ∧
        (age < 1000000 → dedupEpoch (dedupOf s r.snode) m.h.epoch = none →
          gives (.messageDeliver r.snode r.mtag) s (fun t => rest t ∧ t.lnk.reasm = freed ∧ raised 32 aRxEpoch 1 s t)) ∧
        (∀ w f, age < 1000000 → dedupEpoch (dedupOf s r.snode) m.h.epoch = some w → dedupHit w m.h.aseq = false →
          tagFunc s m.h.tag = some f → m.ty = 3 → (selectCtx s f none m.h.tclu m.h.tslot).isSome = true →
          gives (.messageDeliver r.snode r.mtag) s (fun t => t.cl = s.cl ∧ t.mem = s.mem ∧ t.lnk.reasm = freed ∧
            dedupOf t r.snode = dedupMark w m.h.aseq ∧ ∃ x : Xfer, t.hub.xfers = s.hub.xfers ++ [x] ∧ x.kind = .write ∧
              x.f = f ∧ x.load = none ∧ x.tclu = m.h.tclu ∧ x.tslot = m.h.tslot ∧
              x.data = markPieces m.h.addr m.data m.poi ∧ x.ctr = m.h.ctr ∧ x.eack = some m.eack))) ∧
      (∀ d a m st c sl tk o k p, sentMsg s d a = some m → m.owner = .op c sl tk → findOp s c sl tk = some o →
        o.phase = .sent k p →
        gives (.eackReceive d a m.epoch st) s (fun t => onlyOps c { s with lnk.msgs := t.lnk.msgs } t ∧
          t.lnk.msgs = s.lnk.msgs.filter (fun x => x.id != m.id) ∧
          nowIn t c sl tk o (if k ≤ 1 then .done else .sent (k - 1) p))) ∧
      (∀ d a m b c sl tk, sentMsg s d a = some m → m.src = .bytes b → m.owner = .op c sl tk → msgWaits s m = false →
        gives (.messageResend d a) s (fun t => t.cl = s.cl ∧ t.mem = s.mem ∧ t.hub = s.hub ∧ raised 32 aMsgResend 1 s t ∧
          t.lnk.mtag = tag ∧
          t.lnk.msgs = s.lnk.msgs.map (fun x => if x.id == m.id then
            { m with mtag := tag, port := (routePort s m.dnode).getD 8 } else x))) ∧
      (∀ d a m c sl tk o, sentMsg s d a = some m → m.owner = .op c sl tk → findOp s c sl tk = some o →
        let lost := fun (t : State) => t.lnk.msgs = s.lnk.msgs.filter (fun x => x.owner != m.owner) ∧
          findOp t c sl tk = none ∧ (getSlot t c sl).st = .faulted ∧ raised 32 aMsgLost 1 s t ∧ t.cl.spad = s.cl.spad
        (slotCtx s c sl = none → gives (.messageLost d a) s (fun t => lost t ∧ t.hub.reports.length = s.hub.reports.length)) ∧
        (∀ x, slotCtx s c sl = some x → x.pipe = false → faultItems s x.region = [] →
          gives (.messageLost d a) s (fun t => lost t ∧ ∃ rs r, t.hub.reports = rs ++ [r] ∧ rs.length = s.hub.reports.length ∧
            r.f = x.f ∧ r.code = 0x0901 ∧ r.clu = c ∧ r.slot = sl ∧ r.op = opCode o.kind ∧ r.ticket = tk ∧ r.pc = o.pc.toNat ∧
            r.region = x.region ∧ r.detail = d * 2 ^ 32 + a ∧ r.tick = 16 * eventTick s))))

/-- R349, R350, R462 to R466, R577: the fabric time counter: the last tick of a period, sync pulses, a waiting step, the loss of
synchronisation, the time records of a port, and the reference clock. (A pulse out of its place is the reference of the next, ARM
acts in any mode, a step sets LOSS, and a timeout is judged by MODE alone: the model's choice, log entry 70; SYNC_PULSE stands for
the reference edge before the pulse: log entry 98.) -/
def Obligations.FabricTime : Prop :=
  ∀ (s : State), s.pow.on = true →
    let k := s.clock
    let mode := ftcMode s
    (k.tick = 1023 → gives .ftcPeriodEnd s (fun t => t = { s with clock := t.clock } ∧ t.clock.tick = 0 ∧
      t.clock.raw = k.raw + 1 ∧
      (0 < k.res → t.clock.ftc = k.ftc + 2 ∧ t.clock.res = k.res - 1) ∧
      (k.res < 0 → t.clock.ftc = k.ftc ∧ t.clock.res = k.res + 1) ∧
      (k.res = 0 → t.clock.ftc = k.ftc + 1 ∧ t.clock.res = 0))) ∧
    (k.holdover = true → gives .syncPulse s (fun t => t = s)) ∧
    (k.holdover = false → pulseGood k = false → gives .syncPulse s (fun t =>
      t.clock = { k with pulseErr := true, lastPulse := some k.raw } ∧ t.regs = s.regs ∧ t.cl = s.cl)) ∧
    (k.holdover = false → pulseGood k = true → bitB (reg s aFtcArm) 63 = true → gives .syncPulse s (fun t =>
      t.clock = { k with ftc := reg s aFtcArm % 2 ^ 63, res := 0, lastPulse := some k.raw } ∧
        setsReg aFtcArm (reg s aFtcArm % 2 ^ 63) { s with clock := t.clock } t)) ∧
    (k.holdover = false → pulseGood k = true → bitB (reg s aFtcArm) 63 = false → mode = 1 → gives .syncPulse s (fun t =>
      t.clock.ftc = k.ftc ∧ t.clock.res = -pulseErrOf k.ftc ∧ t.clock.lastPulse = some k.raw ∧
        t.clock.near = (if (pulseErrOf k.ftc).natAbs ≤ 2 then min 4 (k.near + 1) else 0) ∧
        t.clock.lock = ((k.lock || t.clock.near == 4) && decide ((pulseErrOf k.ftc).natAbs ≤ 100)) ∧
        t.clock.loss = (k.loss || decide (100 < (pulseErrOf k.ftc).natAbs)) ∧ t.regs = s.regs ∧ t.cl = s.cl)) ∧
    (∀ v, k.step = some v → gives .ftcStep s (fun t =>
      t = { s with clock := { k with ftc := ((k.ftc : Int) + v).toNat, res := 0, step := none } })) ∧
    (mode ≠ 0 → gives .ftcSyncTimeout s (fun t => t.clock = { k with lock := false, loss := true, near := 0 } ∧
      t.regs = s.regs ∧ t.cl = s.cl)) ∧
    gives .referenceLoss s (fun t => t.clock = { k with refLoss := true, holdover := true } ∧ t.cl = s.cl ∧ t.hub = s.hub) ∧
    gives .holdoverExit s (fun t => t = { s with clock := { k with holdover := false } }) ∧
    (∀ n, n < Config.ports → (getPort s n).st = .active →
      let p := getPort s n
      (portFollows s n = true → p.egress = [] → p.replay.length < 8192 → 0 < nth 0 p.credits 3 →
        gives (.tsyncRequest n) s (fun t => t = { s with lnk.ports := t.lnk.ports, out := t.out } ∧
          (getPort t n).tseq = (p.tseq + 1) % 65536 ∧ (getPort t n).t1 = k.ftc ∧ (getPort t n).tsOpen = true ∧
          ∃ b, t.out = .flit n b :: s.out ∧ flType b = 2 ∧ flitN (flPayload b) 0 2 = (p.tseq + 1) % 65536 ∧
            flitN (flPayload b) 8 8 = k.ftc % 2 ^ 64)) ∧
      (∀ q t1 t2 l, p.tsAsk = (q, t1, t2) :: l → p.egress = [] → p.replay.length < 8192 → 0 < nth 0 p.credits 3 →
        gives (.tsyncAnswer n) s (fun t => t = { s with lnk.ports := t.lnk.ports, out := t.out } ∧
          (getPort t n).tsAsk = l ∧ ∃ b, t.out = .flit n b :: s.out ∧ flType b = 2 ∧
            flitN (flPayload b) 0 2 = q % 65536 ∧ bitB (flitN (flPayload b) 2 1) 0 = true ∧
            flitN (flPayload b) 24 8 = k.ftc % 2 ^ 64)) ∧
      (∀ t1 t2 t3 t4 : Nat, p.tsOpen = true →
        let theta := Int.tdiv (((t2 : Int) - t1) - ((t4 : Int) - t3)) 2
        let delta := Int.tdiv (((t2 : Int) - t1) + ((t4 : Int) - t3)) 2
        let read := fun (t : State) =>
          getPort t n = { p with tsOpen := false, theta := codeOf 64 theta, delta := codeOf 64 delta }
        (mode ≠ 2 → gives (.tsyncResponse n p.tseq t1 t2 t3 t4) s (fun t => t = { s with lnk.ports := t.lnk.ports } ∧ read t)) ∧
        (mode = 2 → ftcPort s = n → delta ≤ ((16 * ftcDmax s : Nat) : Int) → theta.natAbs ≤ 65536 →
          gives (.tsyncResponse n p.tseq t1 t2 t3 t4) s (fun t => read t ∧ t.clock.ftc = k.ftc ∧ t.clock.res = theta ∧
            t.clock.near = (if theta.natAbs ≤ 16 then min 4 (k.near + 1) else 0) ∧ t.cl = s.cl)) ∧
        (mode = 2 → ftcPort s = n → delta ≤ ((16 * ftcDmax s : Nat) : Int) → 65536 < theta.natAbs → ftcStepOk s = true →
          k.lock = false → s.hub.regions = [] →
          gives (.tsyncResponse n p.tseq t1 t2 t3 t4) s (fun t => read t ∧
            t.clock = { k with step := some theta, near := 0, loss := true } ∧ t.cl = s.cl))))

/-- R471 to R474, R484: switching a trace and an ephemeris ring on, the trace buffer's oldest record becoming a word of its
ring, and the stamp of a period in which something was recorded. (A write of EN = 1 where EN was 1 restarts the ring too: the model's
choice, log entry 71; it forgets the records kept for want of room: the model's choice, log entry 83; and a record whose ring lies
outside the partition is written nowhere: the model's choice, log entry 98.) -/
def Obligations.Recording : Prop :=
  ∀ (s : State) (c sl : Nat), c < Config.clusters → sl < 4 → s.pow.on = true →
    let k := getSlot s c sl
    let a := cluAddr c (oTrcCfg sl)
    (∀ f v, slotReach s f c sl = true → bitB (v &&& trcMask) 63 = true → trcFits s c sl (v &&& trcMask) = true →
      gives (.traceEnable f c sl v) s (fun t => setsReg a (v &&& trcMask) { s with cl.slots := t.cl.slots } t ∧
        onlySlot c sl { s with regs := t.regs } t ∧
        getSlot t c sl = { k with trc := { k.trc with tail := 0, stampDue := true, last := eventTick s, owed := [] } })) ∧
    (∀ f v, slotReach s f c sl = true → bitB (v &&& trcMask) 63 = true → trcFits s c sl (v &&& trcMask) = false →
      gives (.traceEnable f c sl v) s (setsReg a (reg s a % 2 ^ 63) s)) ∧
    (cluRuns s c = true → ∀ r l, (getClu s c).trcBuf = r :: l → r.sl = sl → trcFits s c sl (cluReg s c (oTrcCfg sl)) = false →
      gives (.traceRingWrite c) s (fun t => onlyClu c s t ∧ getClu t c = { getClu s c with trcBuf := l })) ∧
    (cluRuns s c = true → ∀ r l w n, (getClu s c).trcBuf = r :: l → r.sl = sl → (∀ x, x < 4 → (getSlot s c x).trc.owed = []) →
      trcFits s c sl (cluReg s c (oTrcCfg sl)) = true →
      spadWrite (modClu s c (fun k => { k with trcBuf := l })) c .trace (partBase s c sl + (trcBase (cluReg s c (oTrcCfg sl)) + 32 * (k.trc.tail % trcSize s c sl))) r.bytes false =
        (w, n) →
      gives (.traceRingWrite c) s (fun t => t.cl.spad = w.cl.spad ∧ (getClu t c).trcBuf = l ∧
        getSlot t c sl = { k with trc := { k.trc with tail := (k.trc.tail + 1) % 2 ^ 32 } } ∧ t.mem = s.mem ∧ t.hub = s.hub)) ∧
    (cluRuns s c = true → trcOn s c sl = true → k.trc.traffic = true →
      bits (cluReg s c (oTrcCfg sl)) 55 48 ≠ 0 → k.trc.branchBits = 0 → k.trc.dropped = 0 → k.trc.stampDue = false → k.trc.owed = [] →
      trcRoom s c sl 1 = true →
      gives (.traceStamp c sl) s (fun t => onlyCluster c sl s t ∧ (getSlot t c sl).trc.traffic = false ∧
        ∃ r, (getClu t c).trcBuf = (getClu s c).trcBuf ++ [r] ∧ r.sl = sl ∧ r.bytes.length = 32 ∧
          r.bytes.take 1 = leBytes 1 (1 + 16 * sl) ∧ (r.bytes.drop 8).take 8 = leBytes 8 s.clock.ftc)) ∧
    (∀ f v, funcLive s f →
      (bitB (v &&& ephMask) 31 = true →
        gives (.ephEnable f v) s (fun t =>
          setsReg (tenAddr f oEphCfg) (if bitB (tenReg s f oEphCfg) 31 then tenReg s f oEphCfg % 2 ^ 31 + 2 ^ 31 else v &&& ephMask)
              { s with hub.funcs := t.hub.funcs } t ∧
            getFunc t f = { getFunc s f with ephHead := 0, ephTail := 0, ephDropped := 0 } ∧
            ∀ x, x ≠ f → getFunc t x = getFunc s x)) ∧
      (bitB (tenReg s f oEphCfg) 31 = true → bitB (v &&& ephMask) 31 = false →
        gives (.ephEnable f v) s (setsReg (tenAddr f oEphCfg) (tenReg s f oEphCfg % 2 ^ 31) s)))

/-- R477 to R482, R556: ARM takes a time at least 20,000 ticks ahead of an idle module that is not TESTING, else it is refused; CANCEL
makes an armed module idle; RESUME takes a time of a stopped module. At T every cluster's clock stops; the module is STOPPED at an
event-tick boundary after T once atomics, DMA operations, reloads and copies have completed at the stacks; at RT it goes on, with the
stamps of sent messages shifted by the time between. (RESUME refused outside STOPPED and CANCEL without effect outside ARMED: the
model's choice, log entry 72.) -/
def Obligations.EclipseSteps : Prop :=
  ∀ (s : State), s.pow.on = true →
    let e := s.ecl
    let now := s.clock.ftc
    let refuses := fun (i : Instr) (w : Option (Bool × Nat)) => gives i s (fun t => t.ecl = { e with cmd := w, refused := true } ∧ t.cl = s.cl ∧ t.hub = s.hub)
    (e.st = .idle → now + 20000 ≤ reg s aEclT → s.mng.testing = false →
      gives .eclArm s (fun t => t = { s with ecl := { e with cmd := none, st := .armed, t := reg s aEclT } })) ∧
    (e.st ≠ .idle ∨ reg s aEclT < now + 20000 ∨ s.mng.testing = true → refuses .eclArm none) ∧
    gives .eclCancel s (fun t => t = { s with ecl := { e with cmd := none, st := if e.st = .armed then .idle else e.st } }) ∧
    (e.st = .stopped → now + 20000 ≤ reg s aEclRt →
      gives .eclResume s (fun t => t = { s with ecl := { e with st := .resuming, rt := reg s aEclRt } })) ∧
    (e.st ≠ .stopped ∨ reg s aEclRt < now + 20000 → refuses .eclResume e.cmd) ∧
    (e.st = .armed → e.t ≤ now → gives .eclipseStop s (fun t => t = { s with ecl := { e with st := .stopping } } ∧
      ∀ c, cluRuns t c = false)) ∧
    (e.st = .stopping → s.mem.atoms = [] → dmaOps s = [] → openReloads s = [] → openCopies s = [] → e.t < 16 * eventTick s → e.flrAt = none →
      gives .eclipseStopped s (fun t => t = { s with ecl := { e with st := .stopped } })) ∧
    (e.st = .resuming → e.rt ≤ now → e.resets = [] → e.acks = [] → e.copies = [] → (∀ n, n < Config.ports → (getPort s n).rx = []) →
      gives .eclipseRestart s (fun t => t.ecl = { e with st := .idle, resets := [], flrAt := none } ∧ t.clock = s.clock ∧
        t.cl.slots = s.cl.slots ∧ t.cl.spad = s.cl.spad ∧ t.mem = s.mem ∧ t.hub = s.hub ∧
        t.lnk.msgs = s.lnk.msgs.map (fun m => if m.sent then { m with sftc := m.sftc + (e.rt - e.t) } else m)))

/-- R422, R424, R427 to R431: the engine split's window, and the switch of pool contexts in a slot. (An empty claimed slot is entered
without a victim, and quiet windows count in a row: the model's choice, log entry 68.) -/
def Obligations.Switching : Prop :=
  ∀ (s : State) (c : Nat), c < Config.clusters → s.pow.on = true → cluRuns s c = true →
    let k := getClu s c
    let v := cluReg s c oSplit
    let du := k.sumU * 16 / 10000
    let dn := k.sumN * 16 / 10000
    let q := if du = 0 then k.quiet + 1 else 0
    let dec := nextDec v du dn q
    let mine := fun (t : State) (x : Ctx) (p : Ctx → Prop) => ∃ y ∈ t.hub.ctxs, y.id = x.id ∧ p y
    (bitB v 31 = false → gives (.splitWindowEnd c) s (fun t => onlyOps c s t ∧ t.ctrs = s.ctrs ∧
      getClu t c = { k with sumU := 0, sumN := 0, quiet := q })) ∧
    (bitB v 31 = true → dec ≠ min 4 (bits v 2 0) → gives (.splitWindowEnd c) s (fun t =>
      cluReg t c oSplit = v / 8 * 8 + dec ∧ dec ≤ 4 ∧ (getClu t c).sumU = 0 ∧ (getClu t c).sumN = 0 ∧
        raised 32 (cluAddr c oSplitChg) 1 s t ∧ t.cl.slots = s.cl.slots ∧ t.cl.spad = s.cl.spad)) ∧
    (∀ n y, emptyClaimed s c = some n → entrant s c n = some y →
      gives (.contextSwitch c) s (fun t => t = { s with hub.ctxs := t.hub.ctxs } ∧
        t.hub.ctxs = s.hub.ctxs.map (fun x => if x.id == y.id then { x with switching := true, entering := true } else x))) ∧
    (∀ x y, emptyClaimed s c = none → victim s c = some x → slotOps s c x.slot = [] → stackWaits s (stackOf x.saveAt) = false → entrant s c x.slot = some y →
      let o := getSlot s c x.slot
      gives (.contextSwitch c) s (fun t => (getSlot t c x.slot).st = .empty ∧ (getSlot t c x.slot).ctx = none ∧
        (getSlot t c x.slot).releasing = o.pvalid ∧
        mine t x (fun z => z.resident = false ∧ z.switching = true ∧ z.saved =
          some { o with pvalid := false, pbase := 0, pcount := 0, kvdir := none, kvHdr := none }) ∧
        mine t y (fun z => z.switching = true ∧ z.entering = true))) ∧
    (∀ sl x o p, sl < 4 → s.hub.ctxs.find? (fun x => x.clu == c && x.slot == sl && x.entering) = some x → x.saved = some o →
      firstFit (usedPanels s c (fun _ _ => true) ||| (getClu s c).fence) x.panels = some p → slotFree s (c, sl) = true →
      restoreWaits s x = false → x.kvdir = 0 → runItems s x.region = [] → coldTiles s x = [] →
      gives (.switchDone c sl) s (fun t =>
        getSlot t c sl = { o with pvalid := true, pbase := p, pcount := x.panels, ctx := some x.id } ∧
          mine t x (fun z => z.resident = true ∧ z.saved = none ∧ z.switching = false) ∧ raised 32 aDspWarm 1 s t))

/-- R385 to R390, R402, R410: queues and doorbells, the fetch of ring entries, the promotion of a waiting class B entry, and the
taking of one entry: of the queues whose next entry may start, the first by class, then by function and by queue in round-robin order. -/
def Obligations.Queues : Prop :=
  ∀ (s : State) (f q : Nat), funcLive s f → q < 2048 →
    let k := getQueue s f q
    let only := fun (t : State) (v : Queue) => t = { s with hub.queues := t.hub.queues } ∧ getQueue t f q = v ∧
      ∀ j, j ≠ 2048 * f + q → tabGet queueReset t.hub.queues j = tabGet queueReset s.hub.queues j
    let cfg := tenAddr f (oSqCfg q)
    (∀ v, takesBells s f q = true → sub32 (v % 2 ^ 32) k.tail < 2 ^ 31 → sub32 (v % 2 ^ 32) k.head ≤ sqSize s f q →
      gives (.tailDoorbell f q v) s (fun t => only t { k with tail := v % 2 ^ 32 })) ∧
    (∀ v, (takesBells s f q = false ∨ 2 ^ 31 ≤ sub32 (v % 2 ^ 32) k.tail ∨ sqSize s f q < sub32 (v % 2 ^ 32) k.head) →
      gives (.tailDoorbell f q v) s (fun t => t.hub = s.hub ∧ raised 32 (tenAddr f oDbDrop) 1 s t)) ∧
    (∀ d, takesBells s f q = true → d.length = 64 → sub32 k.tail k.head < sqSize s f q → k.inl.length < 8 →
      gives (.inlineDescriptor f q d) s (fun t =>
        only t { k with inl := k.inl ++ [(k.tail, d)], tail := (k.tail + 1) % 2 ^ 32 })) ∧
    (k.st = .run → k.head ≠ k.tail → sqClass s f q = .b → gives (.classBPromotion f q) s (fun t =>
      only t { k with promoted := true })) ∧
    (eclHalted s = false → dmaHeld s f = false → k.st = .run → k.fetched = [] → fetchList k 8 k.head ≠ [] → sqDevice s f q = false →
      gives (.ringFetch f q false) s (fun t => only t { k with fetched := (fetchList k 8 k.head).map (fun n =>
        (n, memBytes s.host (sqBase s f q + 64 * (n % sqSize s f q)) 64)) }) ∧
      gives (.ringFetch f q true) s (fun t => only t { k with st := .error })) ∧
    (queueLives s f q = true → (getFunc s f).flrbusy = false → k.st = .off → gives (.queueEnable f q) s (fun t =>
      getQueue t f q = { queueReset with st := if dmaHeld s f then .hold else .run } ∧
        setsReg cfg (reg s cfg ||| 2 ^ 31) { s with hub.queues := t.hub.queues } t)) ∧
    (queueLives s f q = true → (k.st = .run ∨ k.st = .hold ∨ k.st = .error) → gives (.queueDisable f q) s (fun t =>
      getQueue t f q = { k with st := .stopping, inl := [], fetched := [] } ∧
        setsReg cfg (reg s cfg % 2 ^ 31) { s with hub.queues := t.hub.queues } t)) ∧
    (k.st = .stopping → queueItems s f q = [] → recHeld s f q = false →
      gives (.queueStopped f q) s (fun t => only t { k with st := .off })) ∧
    (∀ c, firstCand s (cands s) = some c →
      let fd := fun (x : Cand) => rrDist 1024 (tabFind s.hub.rrF x.cls) x.f
      let qd := fun (x : Cand) => rrDist 2048 (tabFind s.hub.rrQ (4 * x.f + x.cls)) x.q
      c ∈ cands s ∧ ∀ x ∈ cands s, c.cls ≤ x.cls ∧ (x.cls = c.cls → fd c ≤ fd x ∧ (fd x = fd c → qd c ≤ qd x))) ∧
    (firstCand s (cands s) = none ↔ cands s = []) ∧
    (∀ x, x ∈ cands s → x.k.st = .run ∧ x.k.head ≠ x.k.tail ∧ x.cls = takeClass s x.f x.q x.k ∧
      entryMayStart s x.f x.q x.k = true) ∧
    (∀ n l x, l < n → x < n → rrDist n (some l) x = if l < x then x - l - 1 else x + n - l - 1) ∧
    (dispLive s → (∀ i ∈ s.hub.items, takenReady s i = false) → ∀ c d, firstCand s (cands s) = some c → headEntry c.k = some d →
      opcValid (dOpc d) = true → getQueue s c.f c.q = c.k →
      gives .dispatchTake s (fun t => t.cl = s.cl ∧ t.mem = s.mem ∧ t.host = s.host ∧
        getQueue t c.f c.q = { c.k with head := (c.k.head + 1) % 2 ^ 32, promoted := false
                                        inl := c.k.inl.filter (fun e => e.1 != c.k.head)
                                        fetched := c.k.fetched.filter (fun e => e.1 != c.k.head) } ∧
        ∃ i : Item, t.hub.items = s.hub.items ++ [i] ∧ i.id = s.hub.nextItem ∧ i.f = c.f ∧ i.q = c.q ∧ i.pos = c.k.head ∧
          i.desc = d ∧ i.st = .taken ∧ i.took = s.clock.ftc ∧
        tabFind t.hub.rrF c.cls = some c.f ∧ tabFind t.hub.rrQ (4 * c.f + c.cls) = some c.q))

/-- R392, R394, R413, R416 to R418: NOP; RUN on a pool region and on a pipeline region; the start of a held one; a mailbox
report. -/
def Obligations.RunItems : Prop :=
  ∀ (s : State) (i : Item) (rg : Nat),
    let d := i.desc
    let w64 := fun n => BitVec.ofNat 64 n
    let piped := fun (i0 : Instr) (i : Item) (r : Nat) (g : Region) (e : Nat) => gives i0 s (fun t =>
      getItem t i.id = some { i with st := .running, region := r, entry := e, step := g.step } ∧
        getRegion t r = some { g with step := g.step + 1 } ∧
        t.mem = (ten i.cls g.f (entryAddr s g.f r e) (entryBytes { i with step := g.step } true) s).mem ∧ t.cl.spad = s.cl.spad ∧
        ∃ x : Xfer, t.hub.xfers = s.hub.xfers ++ [x] ∧ x.kind = .write ∧ x.f = g.f ∧ x.load = some g.load ∧
          x.tclu = bits (tenReg s g.f (oPipeB r)) 10 0 ∧ x.tslot = bits (tenReg s g.f (oPipeB r)) 12 11 ∧
          x.ctr = some (bits (tenReg s g.f (oPipeB r)) 17 13) ∧
          x.data = [(bits (tenReg s g.f (oPipeB r)) 43 25 * 64 + 64 * (g.step % intakeSize s g.f r),
            intakeRec { i with step := g.step, entry := e }, false)])
    (startable s 0 i → toRing s i rg → gives .nop s (recorded s i rg 0 0 false)) ∧
    (∀ r g x s1, startable s 1 i → reaches s i r g s1 → g.pipe = false → runItems s r = [] → firstWaiting s r = none →
      (∀ y ∈ s.hub.items, y.id = i.id → y = i) → regionCtxs s r = [x] → canStart s x = true → (∀ y ∈ s.hub.ctxs, y.id = x.id → y = x) →
      gives .run s (fun t => t.mem = s.mem ∧ t.host = s.host ∧
        getItem t i.id = some { i with st := .running, region := r, num := g.runs + 1 } ∧
        getRegion t r = some { g with runs := g.runs + 1 } ∧ (getSlot t x.clu x.slot).st = .running ∧
        pcOf t x.clu x.slot = BitVec.ofNat 14 x.entry ∧ (getSlot t x.clu x.slot).cls = clsOf (dClass d) ∧
        sreg t x.clu x.slot 1 = w64 (dArg d 0) ∧ sreg t x.clu x.slot 2 = w64 (dArg d 1) ∧
        sreg t x.clu x.slot 3 = w64 (dArg d 2) ∧ sreg t x.clu x.slot 4 = w64 (dArg d 3) ∧
        sreg t x.clu x.slot 5 = w64 (dSeq d) ∧
        sreg t x.clu x.slot 6 = w64 (dModel d + 2 ^ 16 * dAccord d + 2 ^ 32 * dClass d) ∧
        sreg t x.clu x.slot 7 = w64 (dUtag d) ∧ sreg t x.clu x.slot 8 = w64 (g.runs + 1) ∧
        ∀ n : BitVec 5, 8 < n.toNat → sreg t x.clu x.slot n = sreg s x.clu x.slot n)) ∧
    (∀ r g e s1, startable s 1 i → reaches s i r g s1 → g.pipe = true → g.degraded = false → firstWaiting s r = none →
      (∀ y ∈ s.hub.items, y.id = i.id → y = i) → freeEntry s r g = some e → piped .run i r g e) ∧
    (∀ g e, dispLive s → s.hub.items.find? (fun y => y.st == .waiting && (match getRegion s y.region with
        | some g => g.pipe && !g.degraded && (freeEntry s y.region g).isSome | none => false)) = some i →
      firstWaiting s i.region = some i → getRegion s i.region = some g → freeEntry s i.region g = some e →
      piped .runHeldStart i i.region g e) ∧
    (∀ r e bs l g, dispLive s → s.hub.mbx = (g.f, r, e, bs) :: l → getRegion s r = some g → g.pipe = true →
      (runItems s r).find? (fun y => y.entry == e) = some i → bitB (leAt bs 8 1) 0 = true → leAt bs 0 4 = i.step % 2 ^ 32 →
      funcWaits s g.f = false → toRing s i rg →
      let w := ten i.cls g.f (entryAddr s g.f r e) (entryBytes i false) { s with hub.mbx := l }
      gives .mailboxWrite s (fun t => t.hub.mbx = w.hub.mbx ∧ t.mem = w.mem ∧
        t.hub.items = s.hub.items.filter (fun y => y.id != i.id) ∧
        (getRing t i.f rg).tail = ((getRing s i.f rg).tail + 1) % 2 ^ 32)) ∧
    (∀ f r e bs l, dispLive s → s.hub.mbx = (f, r, e, bs) :: l → funcWaits s f = false → (bitB (leAt bs 8 1) 0 = false ∨ getRegion s r = none) →
      gives .mailboxWrite s (fun t => t.hub = { s.hub with mbx := l } ∧ t.mem = s.mem ∧ t.host = s.host ∧
        raised 32 aMbxDrop 1 s t))

/-- R392, R395: MEMCPY in its four directions. (All bytes move at MEMCPY_COMPLETE, and before a host error the part that the error's
place gives: the model's choice, log entry 67.) -/
def Obligations.Memcpy : Prop :=
  ∀ (s : State) (i : Item),
    let d := i.desc
    let begins := fun (i0 : Instr) => gives i0 s (fun t => t = { s with hub.items := s.hub.items.map (fun x =>
      if x.id == i.id then { x with st := .copying } else x) })
    (startable s 8 i → rangesOk s i = true → (dDir d = 0 → begins .memcpyHostToDevice) ∧ (dDir d = 1 → begins .memcpyDeviceToHost) ∧
      (dDir d = 2 → begins .memcpyDeviceToDevice) ∧
      (dDir d = 3 → dNode d ≠ 0xFFFF → dNode d ≠ s.lnk.node → noRoute s i.f (dNode d) = false → 0 < dLen d →
        gives .memcpyRemote s (fun t => t.mem = s.mem ∧ t.cl = s.cl ∧ t.host = s.host ∧
          t.hub.items = s.hub.items.map (fun x => if x.id == i.id then { x with st := .remote (ceilDiv (dLen d) 16384) } else x) ∧
          ∃ ms : List Msg, t.lnk.msgs = s.lnk.msgs ++ ms ∧ ms.length = ceilDiv (dLen d) 16384 ∧ ∀ k m, ms[k]? = some m →
            m.ty = .memw ∧ m.owner = .item i.id ∧ m.dnode = dNode d ∧ m.sent = false ∧ m.addr = dDst d + 16384 * k ∧
              m.src = .dev i.f (dSrc d + 16384 * k) (Nat.min 16384 (dLen d - 16384 * k)) ∧
              m.final = decide (k + 1 = ms.length)))) ∧
    (∀ r, dispLive s → s.hub.items.find? (fun x => x.id == i.id && x.st == .copying) = some i → dOpc d = 8 → copyWaits s i = false →
      toRing s i r → mailboxes s i.f = [] →
      let src := dSrc d + i.moved
      let dst := dDst d + i.moved
      let left := dLen d - i.moved
      (dDir d = 0 → tenOk s i.f dst left = true →
        gives (.memcpyComplete i.id none) s (recorded (ten i.cls i.f dst (memBytes s.host src left) s) i r 0 0 false)) ∧
      (∀ n, dDir d = 0 →
        let m := max i.moved (min n (dLen d) / 32 * 32)
        tenOk s i.f dst (m - i.moved) = true →
        gives (.memcpyComplete i.id (some n)) s
          (recorded (ten i.cls i.f dst (memBytes s.host src (m - i.moved)) s) i r 0x17 (m / 32) false)) ∧
      (∀ bs e s1, dDir d = 1 → sees i.cls i.f src left bs s s1 →
        gives (.memcpyComplete i.id e) s (recorded { s1 with host := memPut s1.host dst bs } i r 0 0 false)) ∧
      (∀ bs e s1, dDir d = 2 → sees i.cls i.f src left bs s s1 → tenOk s i.f dst left = true →
        gives (.memcpyComplete i.id e) s (recorded (ten i.cls i.f dst bs s1) i r 0 0 false)))

/-- R233, R237 to R240, R420: the prefix opcodes join the walker's queue; the walker serves its oldest request: LOOKUP holds the
matching chain, INSERT holds or adds a node, RELEASE lets a chain go, EVICT removes the node that goes first; SEQ_CLOSE of a
region without directories drops the binding. (A new node keeps the LRU bytes, and an evicted one loses VALID: the model's choice, log
entry 66.) -/
def Obligations.Prefixes : Prop :=
  ∀ (s : State) (i : Item) (rg : Nat),
    let d := i.desc
    let f := i.f
    let k := i.cls
    let joins := fun (i0 : Instr) (opc : Nat) => startable s opc i → ∀ r g s1, reaches s i r g s1 →
      gives i0 s (fun t => t.hub.items = s.hub.items.filter (fun x => x.id != i.id) ++ [{ i with st := .prefixWait, region := r }] ∧
        t = { s1 with hub.items := t.hub.items })
    let tree := fun (s t : State) (p : PTree) => itemTree s i ≠ 0 ∧ ∃ bs, sees k f (itemTree s i) 32 bs s t ∧ p = treeOf (itemTree s i) bs
    let serves := fun (opc : Nat) => dispLive s ∧ walkerItem s [opc] = some i ∧ funcWaits s f = false ∧ toRing s i rg
    joins .pfxLookup 2 ∧ joins .pfxInsert 4 ∧ joins .pfxRelease 5 ∧ joins .pfxEvict 6 ∧
    (serves 2 → dOpen d = false → dChAddr d = 0 → ∀ t toks s1 s2 s3, tree s s1 t →
      sees k f (dTokAddr d) (1024 * dBlocks d) toks s1 s2 → onlyAsks s s3 →
      ((∀ g, lookBlocks i t toks g (List.range (dBlocks d)) 0 [] s2 = g s3 []) →
        gives .lookup s (recorded s3 i rg 0 0 false)) ∧
      (∀ c bs s4, (∀ g, lookBlocks i t toks g (List.range (dBlocks d)) 0 [] s2 = g s3 [c]) → sees k f c 64 bs s3 s4 →
        tenOk s f (c + 24) 4 = true → tenOk s f (c + 32) 8 = true →
        gives .lookup s (fun u => raised 32 aPfxMatch 1 s u ∧ u.hub.items = s.hub.items.filter (fun y => y.id != i.id) ∧
          u.mem = (ten k f (c + 32) (leBytes 8 s.clock.ftc) (ten k f (c + 24) (leBytes 4 (nRef bs + 1)) s4)).mem))) ∧
    (serves 4 → dNblk d = 1 → dirCtxs s i.region = [] → ∀ t toks c head s1 s2 s3,
      sees k f (dTokAddr d) (1024 * (dB0 d + 1)) toks s s1 → tree s1 s2 t →
      (∀ g, blockNode i t (dParent d) (blockOf toks (dB0 d)) g s2 = g s3 c head) → onlyAsks s s3 →
      (∀ bs s4, c ≠ 0 → sees k f (c + 24) 4 bs s3 s4 → tenOk s f (c + 24) 4 = true →
        gives .insert s (recorded (ten k f (c + 24) (leBytes 4 (leNat bs + 1)) s4) i rg 0 1 false)) ∧
      (c = 0 → t.ncount = 0 → gives .insert s (recorded s3 i rg 0x30 0 false)) ∧
      (∀ nb s4, c = 0 → 0 < t.ncount → sees k f (t.pool + 8 * (t.ncount - 1)) 8 nb s3 s4 → dParent d = 0 →
        let n := leNat nb
        let blk := blockOf toks (dB0 d)
        let fill := leBytes 1 1 ++ leBytes 23 0 ++ blk
        tenOk s f (t.base + 24) 4 = true → tenOk s f n 32 = true → tenOk s f (n + 40) fill.length = true →
        tenOk s f (bucketAddr t 0 blk) 8 = true →
        gives .insert s (recorded (ten k f (bucketAddr t 0 blk) (leBytes 8 n) (ten k f (n + 40) fill (ten k f n
          (leBytes 8 0 ++ leBytes 8 head ++ leBytes 8 0 ++ leBytes 4 1 ++ leBytes 4 0)
          (ten k f (t.base + 24) (leBytes 4 (t.ncount - 1)) s4)))) i rg 0 0 false))) ∧
    (serves 5 → ∀ nb cb bs s1 s2 s3, sees k f (dChAddr d) 8 nb s s1 → leNat nb = 1 → tenOk s f (dChAddr d + 8) 8 = true →
      sees k f (dChAddr d + 8) 8 cb s1 s2 → sees k f (leNat cb) 64 bs s2 s3 → tenOk s f (leNat cb + 24) 4 = true →
      tenOk s f (leNat cb + 32) 8 = true →
      gives .release s (fun u => u.hub.items = s.hub.items.filter (fun y => y.id != i.id) ∧
        u.mem = (ten k f (leNat cb + 32) (leBytes 8 s.clock.ftc) (ten k f (leNat cb + 24) (leBytes 4 (nRef bs - 1)) s3)).mem ∧
        raised 32 aPfxUnder (if nRef bs = 0 then 1 else 0) s u)) ∧
    (serves 6 → dNevict d = 1 → dirCtxs s i.region = [] → ∀ t l s1 s2, tree s s1 t → onlyAsks s s2 →
      (∀ g, scanBuckets i t g (List.range t.nb) [] s1 = g s2 l) →
      (firstNode l = none → gives .evict s (recorded s2 i rg 0 0 false)) ∧
      (∀ x, firstNode l = some x → nParent x.bs = 0 → tenOk s f x.link 8 = true → tenOk s f (x.addr + 40) 1 = true →
        tenOk s f (t.pool + 8 * t.ncount) 8 = true → tenOk s f (t.base + 24) 4 = true →
        gives .evict s (fun u => raised 32 aPfxEvict 1 s u ∧ u.hub.items = s.hub.items.filter (fun y => y.id != i.id) ∧
          u.mem = (ten k f (t.base + 24) (leBytes 4 (t.ncount + 1)) (ten k f (t.pool + 8 * t.ncount) (leBytes 8 x.addr)
            (ten k f (x.addr + 40) (leBytes 1 (leAt x.bs 40 1 / 2 * 2)) (ten k f x.link (leBytes 8 (nNext x.bs)) s2)))).mem))) ∧
    (dispLive s → takenItem s 3 = none →
      s.hub.items.find? (fun x => x.st == .closing && seqQuiet s x && !funcWaits s x.f) = some i → dOpc d = 3 →
      dirCtxs s i.region = [] → dChAddr d = 0 → toRing s i rg →
      gives .seqClose s (recorded { s with hub.bindings := s.hub.bindings.filter (fun b =>
        !(b.f == i.f && b.model == dModel d && b.seq == dSeq d)) } i rg 0 0 false))

/-- R311, R367, R368, R371 to R375, R377: the load path: a load and an unload join its queue; validation samples and checks, and ends a
load that fails a check; commit waits, fails, or places the load: its tiles RESIDENT, its regions valid, its pipeline contexts
running, its record written, and its regions DEGRADED where a cluster of it has been lost since the sample; the unwind of a failed load;
an unload. (Validation in one step with 0x09 first, the second reading before anything is placed, and an unload of a region that has
gone as 0x14: the model's choice, log entries 59, 60 and 61.) -/
def Obligations.LoadPath : Prop :=
  ∀ (s : State) (i : Item) (j : LoadJob) (q : List LoadJob) (rg : Nat),
    let d := i.desc
    let ends := fun (t : State) => t.hub.loadQ = q ∧ ∀ y ∈ t.hub.items, y.id ≠ j.item
    let commits := fun (i0 : Instr) (w : State) =>
      let m := j.lay
      let b := j.bind
      let v := setLog w aLoadBytes (ctr w aLoadBytes + commitBytes w j m b)
      let sound := fun (t : State) (num : Nat) => ∀ x ∈ t.hub.ctxs, x.load = num → (getClu t x.clu).lost = false
      let valid := fun (u t : State) (num : Nat) => sound t num → ∀ k, k < (imgRegs m).length →
        getRegion t (j.rbase + k) = some (regionOf u j m ⟨b, j.gsel⟩ num k)
      (clusReady w (writtenClus j m b) = false → gives i0 s (fun t =>
        t = { w with hub := { w.hub with loadQ := { j with phase := .commit, waits := true } :: q } })) ∧
      (∀ qs saves, reloads w j m = false → clusReady w (writtenClus j m b) = true →
        givePanels w (takesSlot w j m b) (fun k => cxAt j b (entAt m 2 k)) 0 [] (ents m 2) = some qs →
        giveSaves w j m = some saves → loadReaches w j saves = true →
        (∀ u x, reread v j m b m.secs = (u, some x, []) → gives i0 s (fun t => t.cl = u.cl ∧
          t.hub = { u.hub with
            mbx := t.hub.mbx
            loadQ := { j with phase := .unwind, waits := false, status := x.st, detail := loadDet x.idx 0 } :: q } ∧
          (x.idx < secIdx m 7 → t.mem = u.mem))) ∧
        (∀ u wd, reread v j m b m.secs = (u, none, wd) → gives i0 s (fun t => ends t ∧ valid u t (freshLoad u) ∧
          (∃ accs, t.hub.loads = u.hub.loads ++ [loadRec j m b (freshLoad u) wd accs]) ∧
          (∀ x ∈ imgTiles j m b, (getTile t x.1 x.2.1).st = .resident) ∧
          (sound t (freshLoad u) → ∀ x ∈ t.hub.ctxs, x.load = freshLoad u → x.pipe = true → x.resident = true →
            (getSlot t x.clu x.slot).st = .running) ∧
          ∀ x ∈ t.hub.ctxs, x.load = freshLoad u → (getClu t x.clu).lost = true →
            (x.resident = true → (getSlot t x.clu x.slot).st = .faulted) ∧
              ∀ g, getRegion t x.region = some g → g.degraded = true))) ∧
      (∀ qs l u wd, reloads w j m = true → oldLoad w j = some l → clusReady w (writtenClus j m b) = true →
        givePanels w (movesCtx w j m b) (fun k => cxAt j b (entAt m 2 k)) 0 [] (ents m 2) = some qs →
        loadReaches w j [] = true → reread v j m b m.secs = (u, none, wd) →
        gives i0 s (fun t => ends t ∧ valid u t l.num ∧ t.hub.insts = w.hub.insts ∧
          t.hub.loads.map (fun x => x.num) = w.hub.loads.map (fun x => x.num)))
    (startable s 0x10 i →
      (rangesOk s i = true → gives .loadLayout s (fun t =>
        t = { s with hub := { s.hub with items := t.hub.items, loadQ := t.hub.loadQ } } ∧
        t.hub.items = s.hub.items.map (fun x => if x.id == i.id then { x with st := .loading } else x) ∧
        ∃ k, t.hub.loadQ = s.hub.loadQ ++ [k] ∧ k.item = i.id ∧ k.f = i.f ∧ k.unload = false ∧ k.image = dImage d ∧
          k.ilen = dIlen d ∧ k.rbase = dRegion d ∧ k.replace = dReplace d ∧ k.phase = .idle)) ∧
      (rangesOk s i = false → toRing s i rg → gives .loadLayout s (recorded s i rg 0x16 0 false))) ∧
    (∀ r g s1, startable s 0x11 i → reaches s i r g s1 → gives .unloadLayout s (fun t =>
      t = { s1 with hub := { s.hub with items := t.hub.items, loadQ := t.hub.loadQ, regions := t.hub.regions } } ∧
      t.hub.items = s.hub.items.map (fun x => if x.id == i.id then { x with st := .loading } else x) ∧
      t.hub.regions = s.hub.regions.map (fun p => if p.2.load = g.load then (p.1, { p.2 with closing := true }) else p) ∧
      ∃ k, t.hub.loadQ = s.hub.loadQ ++ [k] ∧ k.item = i.id ∧ k.f = i.f ∧ k.unload = true ∧ k.load = g.load ∧
        k.rbase = dRegion d)) ∧
    (dispLive s → s.hub.loadQ = j :: q →
      (j.unload = false → j.phase = .idle → s.mng.testing = false → funcWaits s j.f = false →
        let k := { sampled s j with phase := .validation }
        let w := setHold (setLog { s with hub := { s.hub with loadQ := k :: q } } aLoadBytes 0) (oldRegions k) true
        let drop := fun (v : State) => { v with hub := { v.hub with loadQ := q } }
        (tenOk s j.f j.image j.ilen = false → j.replace = false → getItem s j.item = some i → toRing (drop w) i rg →
          gives .loadValidate s (recorded (drop w) i rg 0x09 0xFF00_0000 false)) ∧
        (∀ h p m w1 w2, tenOk s j.f j.image j.ilen = true → headRead w k = (w1, h, p) → readSecs w1 k h p = (w2, m) →
          let v := if (formatBad m).isNone then setLog w2 aLoadBytes (64 + 96 * imgNsect h + plainBytes m) else w2
          (∀ pl, checkLoad v k m = .ok pl → gives .loadValidate s (fun t =>
            t = { v with hub := { v.hub with loadQ := { k with lay := m, bind := pl.bind, gsel := pl.grants } :: q } })) ∧
          (∀ st det, checkLoad v k m = .error (st, det) → st ≠ 0 → j.replace = false → getItem s j.item = some i →
            toRing (drop v) i rg → gives .loadValidate s (recorded (drop v) i rg st det false)))) ∧
      (j.unload = false → j.phase = .validation → (∀ r ∈ oldRegions j, regionBusy s r = false) →
        commits .loadCommit (commitFirst s j)) ∧
      (j.phase = .commit → j.waits = true → commits .loadWaitEnd s) ∧
      (j.phase = .unwind → gives .loadUnwind s (fun t => ends t ∧ t.cl = s.cl ∧
        (∀ y ∈ t.hub.items, ¬(y.st = .held ∧ y.region ∈ oldRegions j)) ∧
        ∀ r ∈ oldRegions j, ∀ g, getRegion t r = some g → g.replaceHold = false)) ∧
      (j.unload = true → getRegion s j.rbase = none → getItem s j.item = some i →
        toRing { s with hub := { s.hub with loadQ := q } } i rg →
        gives .unload s (recorded { s with hub := { s.hub with loadQ := q } } i rg 0x14 0 false)) ∧
      (∀ l g0, j.unload = true → getRegion s j.rbase = some g0 → g0.f = j.f →
        (∀ r g, (r, g) ∈ s.hub.regions → g.load = g0.load → regionBusy s r = false) →
        s.hub.loads.find? (fun x => x.num == g0.load) = some l → gives .unload s (fun t => ends t ∧
          t.hub.loads = s.hub.loads.filter (fun x => x.num != g0.load) ∧
          t.hub.insts = s.hub.insts.filter (fun x => x.load != g0.load) ∧
          (∀ r g, getRegion t r = some g → g.load ≠ g0.load) ∧ (∀ x ∈ t.hub.ctxs, x.load ≠ g0.load) ∧
          ∀ x ∈ l.tiles, (getClu t x.1).accHeld = [] → getTile t x.1 x.2 = tileReset)))

/-- R378, R386, R394, R396 to R398: completion rings: EN, HEAD with the record that was held for a full ring, and the vector that waited
for the moderation interval. (A vector that is masked, or whose function has MSI-X off or masked, becomes pending: the model's choice, log
entries 32 and 36; EN is left alone during a function reset: the model's choice, log entry 65.) -/
def Obligations.CompletionRings : Prop :=
  ∀ (s : State) (f r : Nat), funcLive s f → r < 2048 →
    let k := getRing s f r
    let cfg := tenAddr f (oCqCfg r)
    let vec := bits (tenReg s f (oCqCfg r)) 26 16
    let others := fun (t : State) => ∀ n, n ≠ 2048 * f + r → tabGet ringReset t.hub.rings n = tabGet ringReset s.hub.rings n
    (((getFunc s f).flrbusy = false) → (k.held = [] ∨ dmaHeld s f = true) → gives (.cqEnable f r) s (fun t =>
      others t ∧ getRing t f r = { k with en := true, head := 0, tail := 0 } ∧
        setsReg cfg (reg s cfg ||| 2 ^ 31) { s with hub.rings := t.hub.rings } t)) ∧
    ((getFunc s f).flrbusy = true → gives (.cqEnable f r) s (fun t => t = s)) ∧
    (ringNamed s f r = false → k.held = [] → gives (.cqDisable f r) s (fun t => others t ∧ getRing t f r = { k with en := false } ∧
      setsReg cfg (reg s cfg % 2 ^ 31) { s with hub.rings := t.hub.rings } t)) ∧
    ((ringNamed s f r = true ∨ k.held ≠ []) → gives (.cqDisable f r) s (fun t => t = s)) ∧
    (∀ v, cqSize s f r < sub32 k.tail (v % 2 ^ 32) → gives (.cqHeadWrite f r v) s (fun t => t = s)) ∧
    (∀ v, sub32 k.tail (v % 2 ^ 32) ≤ cqSize s f r → (k.held = [] ∨ dmaHeld s f = true) →
      gives (.cqHeadWrite f r v) s (fun t => others t ∧ getRing t f r = { k with head := v % 2 ^ 32 } ∧
        t = { s with hub.rings := t.hub.rings })) ∧
    (∀ v x, sub32 k.tail (v % 2 ^ 32) < cqSize s f r → k.held = [x] → x.irq = false → dmaHeld s f = false →
      bitB (reg s cfg) 5 = false → gives (.cqHeadWrite f r v) s (fun t => others t ∧
        getRing t f r = { k with head := v % 2 ^ 32, held := [], tail := (k.tail + 1) % 2 ^ 32 } ∧
        t.host = memPut s.host (tenReg s f (oCqAddr r) + 16 * (k.tail % cqSize s f r)) (recBytes x k.tail (cqSize s f r)) ∧
        t = { s with hub.rings := t.hub.rings, host := t.host })) ∧
    (k.irqPend = true → irqSoon s f r = false → gives (.irqModerationEnd f r) s (fun t => others t ∧
      getRing t f r = { k with lastIrq := some s.clock.ftc, irqPend := false } ∧
      ((dmaHeld s f = true ∨ msixOn s f = false ∨ vecMasked s f vec = true) → vec ∈ (getFunc t f).pba ∧ t.out = s.out) ∧
      (dmaHeld s f = false → msixOn s f = true → vecMasked s f vec = false → t.out = .irq f vec :: s.out ∧ t.hub.funcs = s.hub.funcs))) ∧
    (k.irqPend = false ∨ irqSoon s f r = true → gives (.irqModerationEnd f r) s (fun t => t = s))

/-- R400, R401, R415, R453, R455: the aperture; windows assigned and released, or refused with their REASON; the queue ranges; the
intake registers of a pipeline region. (An access beyond BAR4's size names no address and stops: the model's choice, log entries 15
and 36; BUSY falls at once: the model's choice, log entry 64.) -/
def Obligations.Windows : Prop :=
  ∀ (s : State) (f : Nat),
    let refused := fun (t : State) (r : Nat) =>
      t = { s with hub := { s.hub with winPend := none, winRefused := true, winReason := r }
                   nowTick := t.nowTick, nowCtr := t.nowCtr, nowSet := t.nowSet }
    (funcLive s f →
      (∀ a n, a + n ≤ aperSize s f → tenWaits s f a n = false → tenRead s .b f a n = none → gives (.apertureRead f a n) s (fun t =>
        t.out = .aper f a (List.replicate n 0xFF) false :: s.out ∧ raised 32 (tenAddr f oAperDrop) 1 s t ∧ t.mem = s.mem)) ∧
      (∀ a n w bs poi, a + n ≤ aperSize s f → tenWaits s f a n = false → tenRead s .b f a n = some (w, bs, poi) →
        gives (.apertureRead f a n) s (fun t => t = { w with out := .aper f a bs poi :: w.out })) ∧
      (∀ a bs poi, a + bs.length ≤ aperSize s f → tenWaits s f a bs.length = false → tenOk s f a bs.length = false →
        gives (.apertureWrite f a bs poi) s (fun t => t.mem = s.mem ∧ raised 32 (tenAddr f oAperDrop) 1 s t)) ∧
      (∀ a bs poi, a + bs.length ≤ aperSize s f → tenWaits s f a bs.length = false → tenOk s f a bs.length = true →
        mailboxes s f = [] → gives (.apertureWrite f a bs poi) s (fun t => t = tenWrite s .b f a bs poi)) ∧
      (∀ a n bs poi, aperSize s f < a + n → bs.length = n → exec (.apertureRead f a n) s = .fault .noSuchAddress ∧
        exec (.apertureWrite f a bs poi) s = .fault .noSuchAddress) ∧
      (∀ r b v d, r < 256 → getRegion s r = some d → d.pipe = true → d.f = f →
        (s.hub.items.any (fun i => i.region == r && dOpc i.desc == 1) = false → gives (.pipeConfigWrite f r b v) s
          (setsReg (tenAddr f (if b then oPipeB r else oPipeA r)) (v &&& pipeMask b) s)) ∧
        (s.hub.items.any (fun i => i.region == r && dOpc i.desc == 1) = true →
          gives (.pipeConfigWrite f r b v) s (fun t => t = s)))) ∧
    (s.pow.on = true → ∀ v a, s.hub.winPend = some (v, a) →
      let g := bits v 25 16
      let i := bits v 5 0
      (bits v 31 30 = 1 → assignReason s g i (winArg a) = 0 → gives .winAssign s (fun t =>
        t = { s with hub := { s.hub with winPend := none, winReason := 0, funcs := t.hub.funcs } } ∧
        getFunc t g = { getFunc s g with wins := (getFunc t g).wins } ∧ tabFind (getFunc t g).wins i = some (winArg a) ∧
        (∀ x, x ≠ i → tabFind (getFunc t g).wins x = tabFind (getFunc s g).wins x) ∧ ∀ h, h ≠ g → getFunc t h = getFunc s h)) ∧
      (bits v 31 30 = 1 → assignReason s g i (winArg a) ≠ 0 →
        gives .winAssign s (fun t => refused t (assignReason s g i (winArg a)))) ∧
      (∀ w, bits v 31 30 = 2 → releaseReason s g i = 0 → tabFind (getFunc s g).wins i = some w → gives .winRelease s (fun t =>
        t.hub.winPend = none ∧ t.hub.winReason = 0 ∧ t.hub.regions = s.hub.regions ∧ t.mem.dev = s.mem.dev ∧
        getFunc t g = { getFunc s g with wins := (getFunc t g).wins } ∧ tabFind (getFunc t g).wins i = none ∧
        (∀ x, x ≠ i → tabFind (getFunc t g).wins x = tabFind (getFunc s g).wins x) ∧ (∀ h, h ≠ g → getFunc t h = getFunc s h) ∧
        (w.size ≠ 0 → stackFailed s (stackOf (w.pbase * unit2M)) = false →
          t.mem.scrub = s.mem.scrub ++ [⟨w.pbase * unit2M, w.size * unit2M⟩]))) ∧
      (bits v 31 30 = 2 → releaseReason s g i ≠ 0 → gives .winRelease s (fun t => refused t (releaseReason s g i)))) ∧
    (s.pow.on = true → f < Config.functions → ∀ v, bitB v 31 = false →
      let b := bits v 15 0
      let n := bits v 27 16
      (funcLives s f = true → n ≤ 2048 → b + n ≤ 65536 → queuesBusy s f = false → (n = 0 ∨ qaMeets s f b n = false) →
        gives (.qassignWrite f v) s (fun t => t = { s with regs := t.regs } ∧ qaBase t f = b ∧ qaCount t f = n ∧
          ∀ x, x ≠ aQAssign f → reg t x = reg s x)) ∧
      (funcLives s f = false ∨ 2048 < n ∨ 65536 < b + n ∨ queuesBusy s f = true ∨ (0 < n ∧ qaMeets s f b n = true) →
        gives (.qassignWrite f v) s (fun t => t.regs = s.regs ∧ f ∈ t.hub.qaRefused)))

/-- R378, R379, R380, R381, R403 to R407, R483, R552, R602: Bus Master Enable and the heartbeat hold a function's requests; resets of a
virtual function, of the physical function, and the hot reset; the configuration space. (The offsets of SR-IOV and of the configuration
space: the model's choice, log entry 36; Bus Master Enable 0 after a hot reset, and FLR_DONE resetting again: the model's choice, log
entry 65.) -/
def Obligations.FunctionControl : Prop :=
  ∀ (s : State) (f : Nat), funcLive s f →
    let k := getFunc s f
    let hb := bitB (tenReg s f oHbCtl) 31
    let still := dmaHeld s f = true ∨ ∀ y ∈ s.hub.items, y.f = f → y.st ≠ .copying
    let free := !k.bme || s.pow.shut.isSome
    let follows := fun (t : State) (held : Bool) => ∀ n, n < 2048 → getQueue t f n = { getQueue s f n with st :=
      match (getQueue s f n).st with
      | .run => if held then .hold else .run
      | .hold => if held then .hold else .run
      | x => x }
    let fresh := fun (t : State) => getFunc t f = { funcReset with wins := k.wins, flrbusy := true, cfg := stickyCfg k.cfg } ∧
      t.hub.items = s.hub.items.filter (fun y => y.f != f) ∧ (∀ l ∈ t.hub.loads, l.f ≠ f) ∧
      (∀ n, n < 2048 → getQueue t f n = queueReset ∧ getRing t f n = ringReset) ∧
      ∀ o, o < 0x4_0000 → reg t (tenAddr f o) = resetOf (tenAddr f o)
    let all := fun (t : State) (bme : Bool) => t.hub.items = [] ∧ t.hub.loads = [] ∧ t.hub.numVfs = 0 ∧ t.hub.grants = [] ∧
      (∀ g, g < 1024 → reg t (aQAssign g) = 0 ∧ (getFunc t g).wins = []) ∧ (getFunc t 0).flrbusy = true ∧ (getFunc t 0).bme = bme
    let waits := fun (t : State) (x : Nat) => t.ecl.resets = s.ecl.resets ++ [x] ∧ t.ecl.flrres = true ∧
      (getFunc t (x % 1024)).flrbusy = true ∧ t.hub.items = s.hub.items
    (still → gives (.bmeClear f) s (fun t => follows t true ∧ getFunc t f = { k with bme := false } ∧
      t = { s with hub := { s.hub with funcs := t.hub.funcs, queues := t.hub.queues } })) ∧
    (k.hbexp = false → s.pow.shut = none → (∀ r, r < 2048 → (getRing s f r).held = []) → msixOn s f = true →
      (∀ v ∈ k.pba, vecMasked s f v = false) →
      gives (.bmeSet f) s (fun t => follows t false ∧ getFunc t f = { k with bme := true, pba := [] } ∧
        t.out = (k.pba.map (Out.irq f)).reverse ++ s.out ∧ t.host = s.host)) ∧
    (k.hbexp = true → gives (.bmeSet f) s (fun t => follows t true ∧ getFunc t f = { k with bme := true } ∧ t.out = s.out)) ∧
    (hb = true → gives (.heartbeatKick f) s (fun t => getFunc t f = { k with hbStart := s.clock.ftc } ∧
      t = { s with hub.funcs := t.hub.funcs })) ∧
    (hb = false → gives (.heartbeatKick f) s (fun t => t = s)) ∧
    (hb = true → k.hbexp = false → k.flrbusy = false → k.hbStart + hbPeriod s f ≤ s.clock.ftc → still →
      gives (.heartbeatExpire f) s (fun t => (getFunc t f).hbexp = true ∧
        follows t true ∧ t.cl = s.cl ∧ t.mem = s.mem ∧ t.host = s.host)) ∧
    (s.clock.ftc < k.hbStart + hbPeriod s f → gives (.heartbeatExpire f) s (fun t => t = s)) ∧
    (k.hbexp = true → w1cTakes s (tenAddr f oTenStat) 31 (2 ^ 31) = true → gives (.hbexpClear f) s (fun t =>
      (getFunc t f).hbexp = false ∧ (getFunc t f).hbStart = s.clock.ftc ∧ follows t free ∧ t.cl = s.cl)) ∧
    gives (.heartbeatDisable f) s (fun t => (getFunc t f).hbexp = false ∧ follows t free ∧ t.cl = s.cl ∧
      reg t (tenAddr f oHbCtl) = reg s (tenAddr f oHbCtl) % 65536) ∧
    (f ≠ 0 → eclHalted s = false → gives (.flr f) s fresh) ∧ (eclHalted s = true → gives (.flr f) s (fun t => waits t f)) ∧
    (eclHalted s = false → gives (.flr 0) s (fun t => all t true) ∧ gives .pfFlr s (fun t => all t true) ∧
      gives .hotReset s (fun t => all t false)) ∧
    (eclHalted s = true → gives .pfFlr s (fun t => waits t 0) ∧ gives .hotReset s (fun t => waits t hotMark)) ∧
    (s.ecl.resets.any (fun x => x % 1024 == f) = true → gives (.flrDone f) s (fun t => t = s)) ∧
    (s.ecl.resets.any (fun x => x % 1024 == f) = false →
      (f = 0 → gives (.flrDone f) s (fun t => ∀ g, (getFunc t g).flrbusy = false ∧ (getFunc t g).wins = (getFunc s g).wins ∧
        (getFunc t g).bme = (getFunc s g).bme)) ∧
      (f ≠ 0 → k.flrbusy = false → gives (.flrDone f) s (fun t => t = s)) ∧
      (f ≠ 0 → k.flrbusy = true → gives (.flrDone f) s (fun t =>
        getFunc t f = { funcReset with wins := k.wins, cfg := stickyCfg k.cfg, bme := k.bme } ∧
        (∀ g, g ≠ f → getFunc t g = getFunc s g) ∧
        (∀ n, n < 2048 → getQueue t f n = queueReset ∧ getRing t f n = ringReset) ∧
        (∀ o, o < 0x4_0000 → reg t (tenAddr f o) = resetOf (tenAddr f o)) ∧
        t = { s with regs := t.regs, ctrs := t.ctrs, sec := t.sec
                     hub := { s.hub with funcs := t.hub.funcs, queues := t.hub.queues, rings := t.hub.rings } }))) ∧
    gives .perstDeassert s (fun t => t = { s with mng.perst := true }) ∧
    (∀ o n w, o + n ≤ 4096 → s.mng.linkUp = false →
      gives (.configRequest f o n w) s (fun t => t = { s with out := .cfg f o none :: s.out })) ∧
    (s.mng.linkUp = true →
      gives (.configRequest f 2 2 none) s (fun t => t = { s with out := .cfg f 2 (some (if f = 0 then 0x5324 else 0x5325)) :: s.out }) ∧
      gives (.configRequest f 9 3 none) s (fun t => t = { s with out := .cfg f 9 (some 0x12_0000) :: s.out }) ∧
      (∀ o n v, 4 < o ∨ o + n ≤ 4 → 0x83 < o ∨ o + n ≤ 0x83 → o + n ≤ 4096 → ¬(f = 0 ∧ o ≤ 0x108 ∧ 0x108 < o + n) →
        gives (.configRequest f o n (some v)) s (fun t =>
          t = { s with hub.funcs := t.hub.funcs } ∧ getFunc t f = { k with cfg := (getFunc t f).cfg } ∧
          (∀ x, x < o ∨ o + n ≤ x → memGet (getFunc t f).cfg x = memGet k.cfg x) ∧
          (n = 1 → memGet (getFunc t f).cfg o =
            BitVec.ofNat 8 ((cfgLegal o (cfgByte s f o) (v % 256) ^^^ cfgInit s f o) &&& cfgMask s f o)))) ∧
      (∀ v, bitB v 2 = false → gives (.configRequest f 4 2 (some v)) s (fun t => (getFunc t f).bme = false ∧ follows t true)) ∧
      (∀ v, dmaHeld s f = false → (∀ n ∈ k.pba, vecMasked s f n = false) →
        gives (.configRequest f 0x83 1 (some v)) s (fun t => t.hub.items = s.hub.items ∧ (msixOn t f = true →
          (getFunc t f).pba = [] ∧ t.out = (k.pba.map (Out.irq f)).reverse ++ s.out))) ∧
      (∀ v, f = 0 → bitB v 0 = false → gives (.configRequest 0 0x108 2 (some v)) s (fun t =>
        t.hub.numVfs = 0 ∧ t.regs = s.regs ∧ t.ctrs = s.ctrs)) ∧
      (∀ v, f = 0 → s.hub.numVfs = 0 → bitB v 0 = true → gives (.configRequest 0 0x108 2 (some v)) s (fun t =>
        t.hub.numVfs = min 1023 (memNat k.cfg 0x110 2))))

/-- R18, R19, R20, R21, R382, R587, R592: register accesses: a counter reads its value from before the event tick and starts anew; other
registers read without a change; what a function does not reach reads 0 and takes no write; writes of stored registers, of W1C bits
and of read-only ones. An access of 8 bytes acts as two of 4 where no 64-bit register
begins. (That an access which starts at no multiple of 4 reads 0 is the model's choice, log entry 44.) -/
def Obligations.RegisterAccesses : Prop :=
  ∀ (s : State) (f a : Nat), funcLive s f → a + 8 ≤ 2 ^ 28 → inEmu a = false →
    let tells := fun (n v : Nat) => gives (.rcRead f a n) s (fun t => t = { s with out := .read f a n v :: s.out })
    let own := fun (o : Nat) => 0x10_0000 + o
    (a % 4 = 0 → winOf a = none → mayRead s f a = true →
      (isRc32 a = true → gives (.rcRead f a 4) s (fun t => t.out = .read f a 4 (nowCount s (keyOf f a)).1 :: s.out ∧
        ctr t (keyOf f a) = (nowCount s (keyOf f a)).2 ∧ (∀ x, x ≠ keyOf f a → ctr t x = ctr s x) ∧ t.regs = s.regs ∧
        t.cl = s.cl ∧ t.hub = s.hub ∧ t.mem = s.mem)) ∧
      (isRc32 a = false → is64 (a / 8 * 8) = false → tells 4 (val32 s f a))) ∧
    (a % 8 = 0 → winOf a = none → mayRead s f a = true → is64 a = true → isRc64 a = false → isLog a = false → tells 8 (val64 s f a)) ∧
    (a % 8 = 4 → winOf a = none → mayRead s f a = true → mayRead s f (a + 4) = true → isRc32 a = false → isRc32 (a + 4) = false →
      is64 (a / 8 * 8) = false → is64 (a + 4) = false → tells 8 (val32 s f a + 2 ^ 32 * val32 s f (a + 4))) ∧
    (a % 4 = 0 → mayRead s f a = false → tells 4 0) ∧ (∀ n, n = 0 ∨ a % min n 4 ≠ 0 → n ≤ 8 → tells n 0) ∧
    (∀ n v, n = 0 ∨ a % min n 4 ≠ 0 → n ≤ 8 → gives (.registerWrite f a n v) s (fun t => t = s)) ∧
    (∀ v, f ≠ 0 → inTen a = false → inClu a = false → winOf a = none → gives (.registerWrite f a 4 v) s (fun t => t = s)) ∧
    (∀ v,
      gives (.registerWrite f (own oFrAddr) 8 v) s (setsReg (tenAddr f oFrAddr) (v % 2 ^ 64 / 256 * 256) s) ∧
      gives (.registerWrite f (own oFrCfg) 4 v) s (setsReg (tenAddr f oFrCfg) (v % 2 ^ 32 &&& 0x87FF_003F) s) ∧
      gives (.registerWrite f (own oDbgCon) 4 v) s (setsReg (tenAddr f oDbgCon) (v % 2) s) ∧
      gives (.registerWrite 0 aPfVec 4 v) s (setsReg aPfVec (v % 2 ^ 32 &&& 0x87FF_87FF) s) ∧
      gives (.registerWrite 0 aFtcArm 8 v) s (setsReg aFtcArm (v % 2 ^ 64) s) ∧
      gives (.registerWrite 0 aWinArg 8 v) s (setsReg aWinArg (v % 2 ^ 60) s) ∧
      gives (.registerWrite 0 aLnkCtl 4 v) s (setsReg aLnkCtl (v % 2 ^ 32 &&& 0xFFFF_00FF) s) ∧
      gives (.registerWrite 0 0x44 4 v) s (fun t => t = s) ∧
      (w1cTakes s aHubStat 31 v = true →
        gives (.registerWrite 0 aHubStat 4 v) s (fun t => t = { s with pow := { s.pow with emuDown := false } })) ∧
      (w1cTakes s aHubStat 31 v = false → gives (.registerWrite 0 aHubStat 4 v) s (fun t => t = s)) ∧
      (∀ o, o < 0x1_0000 → gives (.registerWrite 0 (lnkAddr 0x1_0000 + o) 1 v) s (fun t => t = { s with lnk.rt := t.lnk.rt } ∧
        bytesNow s.lnk.rt t.lnk.rt o [BitVec.ofNat 8 v])))

/-- R134, R490, R491, R498, R591: a compute domain goes off and loses its arrays, comes on with its 16 panels fenced; a parked clock
restarts. (That a lost scratchpad and weight store read 0, and that seeds and trace counters stay: the model's choice, log entries 4
and 75.) -/
def Obligations.PowerDomains : Prop :=
  ∀ (s : State) (c : Nat), s.pow.on = true → c < Config.clusters → s.pow.shut = none →
    let k := getClu s c
    let rest := fun (t : State) => t.hub = s.hub ∧ t.mem = s.mem ∧ t.regs = s.regs ∧ t.pow = s.pow ∧
      ∀ d, d ≠ c → getClu t d = getClu s d
    let off := s.mng.testing = false ∧ emIdleOff s = true ∧ stwIsDown s (stwOfClu c) = false ∧ islStopped k = false ∧ domainIdle s c = true
    (off → gives (.idlePowerOff c) s (fun t => rest t ∧ (getClu t c).compOff = true ∧ (getClu t c).ops = [] ∧
      (getClu t c).gather = [] ∧ (getClu t c).acc = k.acc ∧ (∀ p, p < 2 ^ 25 → memGet t.cl.spad (spadKey c p) = 0) ∧
      (∀ p, p < 2 ^ 27 → memGet t.cl.wst (2 ^ 27 * c + p) = 0) ∧ cluRuns t c = false ∧
      ∀ n, n < 4 → getSlot t c n = { slotReset with seed := (getSlot s c n).seed, seedPend := (getSlot s c n).seedPend
                                                    trc := (getSlot s c n).trc.gone })) ∧
    (¬off → gives (.idlePowerOff c) s (fun t => t = s)) ∧
    (k.compOff = true → gives (.clusterPowerUp c) s (fun t => rest t ∧ (getClu t c).compOff = false ∧
      (getClu t c).fence = k.fence ||| 0xFFFF ∧ (getClu t c).scrubQ = k.scrubQ ++ [(0, 16)] ∧ t.cl.slots = s.cl.slots ∧
      t.cl.spad = s.cl.spad)) ∧
    (k.compOff = false → gives (.clusterPowerUp c) s (fun t => t = s)) ∧
    (k.clkStop = true → k.parkStw = false → k.parkHw = false → gives (.clockRestart c) s (fun t => rest t ∧
      (getClu t c).clkStop = false ∧ t.cl.slots = s.cl.slots ∧ t.cl.spad = s.cl.spad)) ∧
    ((k.clkStop = false ∨ k.parkStw = true ∨ k.parkHw = true) → gives (.clockRestart c) s (fun t => t = s))

/-- R494 to R499, R541, R561, R567, R583: supply samples, the overvoltage envelope and the brownout cap, what causes an orderly shutdown
and what is left after it, temperature sensors, the park of a cluster and the fence of a die, the fast limiter, the coolant sensors.
(HUB_ENERGY holds at its largest value, a shutdown leaves the state of reset, and the first cause stands: the model's choice, log entry
75; each row of the envelope counts its own samples: the model's choice, log entry 97.) -/
def Obligations.SupplyAndSensors : Prop :=
  ∀ (s : State), s.pow.on = true →
    let p := s.pow
    let causes := fun (i0 : Instr) (th : Bool) => p.shut = none → gives i0 s (fun t => t.pow.shut = some th ∧
      t.pow.pwrGood = false ∧ t.pow.thermTrip = th ∧ t.pow.on = true ∧ t.hub = s.hub ∧ t.mem = s.mem)
    let hot := fun (clu die : List (Nat × Int)) (hub : Int) =>
      (∃ x ∈ clu, 115 ≤ x.2) ∨ (∃ x ∈ die, 110 ≤ x.2) ∨ 110 ≤ hub
    (∀ a n top, highTime [(a, n, top)] (a + n) top = min n 1000000 ∧ highTime [(a, n, top)] (a + n) (!top) = 0) ∧
    (∀ mv uj us,
      let now := p.us + us
      let runs := (if 60000 < mv ∧ mv ≤ 72000 then p.high ++ [(p.us, us, decide (66000 < mv))] else p.high).filter
        (fun r => decide (now < r.1 + r.2.1 + 1000000))
      let above := 72000 < mv ∨ 100000 < highTime runs now false ∨ 1000 < highTime runs now true
      let p1 := { p with vin := min 65535 (mv / 10), uj := min (2 ^ 64 - 1) (p.uj + uj), us := now, high := runs }
      ((above ∨ mv < 36000) → causes (.supplySample mv uj us) false) ∧
      (¬above → 42000 ≤ mv → gives (.supplySample mv uj us) s (fun t => t = { s with pow := { p1 with low := false } })) ∧
      (¬above → 36000 ≤ mv → mv < 42000 → p.brown = false → eclHalted s = false → gives (.supplySample mv uj us) s (fun t =>
      t.pow = { p1 with low := true, brown := true, brSeen := true } ∧
      (∀ c, c < Config.clusters → islStopped (getClu s c) = false → (getClu t c).cfreq = 14 ∧ (getClu t c).sfreq = 14) ∧
      t.hub = s.hub ∧ t.mem = s.mem))) ∧
    (p.brown = true → 4300 ≤ p.vin → gives .brownoutRelease s (fun t => t.pow = { p with brown := false } ∧ t.hub = s.hub)) ∧
    ((p.brown = false ∨ p.vin < 4300) → gives .brownoutRelease s (fun t => t = s)) ∧
    (p.brown = true → p.low = true → causes .brownoutTimeout false) ∧ causes .pwrEnDeassert false ∧
    (p.shut ≠ none → gives .orderlyShutdown s (fun t => t.pow.on = false ∧ t.pow.pwrGood = false ∧ t.fuses = s.fuses ∧
      t.pending = s.pending ∧ t.cl = State.reset.cl ∧ t.mem = State.reset.mem ∧ t.hub = State.reset.hub ∧
      t.sec = State.reset.sec ∧ t.lnk = State.reset.lnk)) ∧
    (p.shut = none → gives .orderlyShutdown s (fun t => t = s)) ∧
    (∀ clu die hub, (∀ x ∈ clu, x.1 < Config.clusters) →
      (∀ x ∈ die, x.1 < Config.dies ∧ -40 ≤ x.2 ∧ x.2 ≤ 150) →
      (hot clu die hub → causes (.sensorRead clu die hub) true) ∧
      (¬hot clu die hub → gives (.sensorRead clu die hub) s (fun t => t.pow.shut = p.shut ∧ t.pow.hubT = hub ∧ t.hub = s.hub))) ∧
    (∀ (c : Nat) (v : Int), c < Config.clusters → v < 115 →
      (110 ≤ v → (getClu s c).parkHw = false → (getClu s c).compOff = false → gives (.sensorRead [(c, v)] [] 0) s (fun t =>
        (getClu t c).tj = v ∧ (getClu t c).parkHw = true ∧ cluRuns t c = false ∧ raised 32 aThermPark 1 s t ∧
        ∀ d, d ≠ c → getClu t d = getClu s d)) ∧
      (v < 110 → gives (.sensorRead [(c, v)] [] 0) s (fun t => getClu t c = { getClu s c with tj := v } ∧
        ∀ d, d ≠ c → getClu t d = getClu s d))) ∧
    (∀ (d : Nat) (v : Int), d < Config.dies → (v < -40 ∨ 150 < v) → s.hub.fenced.contains d = false → s.hub.items = [] →
      gives (.sensorRead [] [(d, v)] 25) s (fun t => t.hub.fenced = s.hub.fenced ++ [d] ∧ t.pow.uncore = p.uncore ∧
        t.pow.shut = p.shut ∧ ∀ c ∈ dieClusters d, (getClu t c).lost = true)) ∧
    (∀ tin tout, gives (.coolantSensorRead tin tout) s (fun t => t = { s with pow := { p with tin := tin, tout := tout } })) ∧
    (∀ w ms low, (fastDue w ms = true ∨ (p.fastCap = true ∧ low = false)) →
      gives (.fastLimiterSample w ms low) s (fun t => t.pow = { p with fastCap := true } ∧
        (p.fastCap = false → eclHalted s = false → ∀ c, c < Config.clusters → islStopped (getClu s c) = false →
          (getClu t c).cfreq ≤ 28))) ∧
    (∀ w ms, fastDue w ms = false → gives (.fastLimiterSample w ms true) s (fun t => t.pow = { p with fastCap := false }))

/-- R515, R547, R549 to R554, R556: bring-up of a module that is off, steps 1 to 6: what it finds, the stewards and the firmware that
start, a hub die that fails; step 7, the endpoint's link, once PERST# is deasserted; step 8, the at-speed tests; the three causes that
stop it. (That BRING_UP stands for three parts of it, and that its sender sees the times of the causes run out, is the model's choice,
log entries 42 and 75.) -/
def Obligations.BringUp : Prop :=
  ∀ (s : State) (mv off : Nat) (found : List (Nat × Nat × Nat)) (dies : List ChanFind) (stks stw : List Nat),
    (∀ x ∈ found, foundOk x = true) → (∀ x ∈ dies, x.die < Config.dies ∧ x.peer.getD 0 < Config.dies) →
    (∀ k ∈ stks, k < Config.stacks) → (∀ k ∈ stw, k < 4) →
    let up := fun (p : State → Prop) => gives (.bringUp ⟨mv, off⟩ found dies stks stw) s p
    let bad := fun (d : Nat) => ∃ x ∈ dies, (2 < x.out ∨ 2 < x.back) ∧
      d = match x.peer with | none => x.die | some e => max x.die e
    let cause := s.mng.hubBad = true ∨ s.clock.holdover = true ∨ (s.mng.perst = true ∧ s.mng.linkUp = false)
    (s.pow.on = false → 42000 ≤ mv → 100 ≤ off → (∀ x ∈ found, x.1 ≠ 5) → up (fun t => t.pow.on = true ∧ t.pow.shut = none ∧
      t.mng.testing = true ∧ t.mng.linkUp = false ∧ t.mng.hubBad = false ∧
      t.fuses = s.fuses ∧ t.pending = s.pending ∧ t.hub.regions = [] ∧ t.lnk.node = 0xFFFF ∧
      (∀ d, d ∈ t.hub.fenced ↔ bad d) ∧ (∀ c, c < Config.clusters → bad (dieOf c) → (getClu t c).lost = true) ∧
      (∀ k ∈ stks, (getStack t k).st = .failed) ∧ (∀ k ∈ stw, k ∈ t.pow.stwFail) ∧
      (∀ x ∈ found, x.1 = 2 → ¬bad (dieOf x.2.1) → (getClu t x.2.1).lost = true ∧ (getClu t x.2.1).bypass = true) ∧
      (∀ b, bootCopy s = some b → t.sec.bootB = b ∧ t.sec.svn = if b then s.fuses.svnB else s.fuses.svnA) ∧
      (bootCopy s = none → ∀ k, k < 4 → k ∈ t.pow.stwFail) ∧
      t.mng.nlost = (t.cl.clus.filter (fun x => x.2.lost)).length)) ∧
    (s.pow.on = false → 42000 ≤ mv → 100 ≤ off → (∃ x ∈ found, x.1 = 5) → up (fun t => t.pow.on = true ∧ t.pow.pwrGood = false ∧
      t.mng.testing = true ∧ t.mng.hubBad = true ∧ t.fuses = s.fuses)) ∧
    (s.pow.on = false → (mv < 42000 ∨ off < 100) → up (fun t => t = s)) ∧
    (s.pow.on = true → s.mng.testing = true → s.pow.shut = none → s.mng.hubBad = false →
      (s.mng.linkUp = false → s.mng.perst = true → up (fun t => t = { s with mng.linkUp := true })) ∧
      (s.mng.linkUp = false → s.mng.perst = false → up (fun t => t = s)) ∧
      (s.mng.linkUp = true → up (fun t => t.mng.testing = false ∧ t.mng.linkUp = true ∧
        t.mng.slow = s.pow.stwFail ∧ t.pow = s.pow ∧ t.mng.nlost = (t.cl.clus.filter (fun x => x.2.lost)).length ∧
        ∀ x ∈ found, (x.1 = 2 ∨ x.1 = 3) → s.hub.fenced.contains (dieOf x.2.1) = false → (getClu t x.2.1).lost = true))) ∧
    (s.pow.on = true → (s.mng.testing = false ∨ s.mng.hubBad = true) → up (fun t => t = s)) ∧
    (s.pow.on = true → s.mng.testing = true → s.pow.shut = none → cause → gives .bringUpStop s (fun t =>
      t = { s with pow := { s.pow with alert := true, pwrGood := false, shut := some false } })) ∧
    (s.pow.on = false ∨ s.mng.testing = false ∨ s.pow.shut ≠ none ∨ ¬cause → gives .bringUpStop s (fun t => t = s))

/-- R493, R500 to R507: the division of the power budget, a steward's thermal and power loop, the watchdog, the restart, the floor
governor. (Cap 3 handed to cap 2 at a restart, the range 14 to 28, and up to 4 steps read as all that fit: the model's choice, log
entry 73.) -/
def Obligations.Stewards : Prop :=
  ∀ (s : State) (k : Nat), k < 4 → s.pow.on = true →
    let mine := fun (w : EmWrite) => emServer w.off == some k
    let others := fun (t : State) => (∀ c, c < Config.clusters → stwOfClu c ≠ k → getClu t c = getClu s c) ∧ t.hub = s.hub ∧
      t.mem = s.mem ∧ t.cl.slots = s.cl.slots
    let own := fun (p : Nat → Clu → Prop) => ∀ c, c < Config.clusters → stwOfClu c = k → p c (getClu s c)
    (∀ other req, (∀ i, i < 4 → stwIsDown s i = false) →
      let b := emLimit s - other
      let fl := ceilDiv (15 * b) 100
      let sum := natSum ((List.range 4).map (nth 0 req))
      4 * fl ≤ b → gives (.budgetDivide other req) s (fun t => t = { s with pow := { s.pow with shares := t.pow.shares } } ∧
        t.pow.shares.length = 4 ∧ (∀ i, i < 4 → fl ≤ nth 0 t.pow.shares i) ∧ natSum t.pow.shares ≤ b ∧
        ((∀ i, i < 4 → fl ≤ b * nth 0 req i / sum) → ∀ i, i < 4 → nth 0 t.pow.shares i = b * nth 0 req i / sum))) ∧
    (∀ other req, stwIsDown s k = true → gives (.budgetDivide other req) s (fun t =>
      nth 0 t.pow.shares k = nth 0 s.pow.shares k)) ∧
    (∀ die pavg pmax1, stwIsDown s k = false → gives (.stewardLoop k die pavg pmax1) s (fun t => others t ∧
      own (fun c v => (getClu t c).tj = v.tj ∧
        capAt (getClu t c) 1 = (if 0 < thermLower s c v then max 14 (capAt v 1 - thermLower s c v)
          else if thermCool s c v then min 56 (capAt v 1 + 4) else capAt v 1) ∧
        (v.cfreq = 14 → (emTarget s : Int) + 5 ≤ v.tj → v.compOff = false →
          (getClu t c).parkStw = true ∧ (getClu t c).clkStop = true)) ∧
      (k = 0 → t.pow.pavg = min 65535 pavg ∧ t.pow.pmax1 = min 65535 pmax1))) ∧
    (∀ die pavg pmax1, stwIsDown s k = true → gives (.stewardLoop k die pavg pmax1) s (fun t => t = s)) ∧
    (stwIsDown s k = false → gives (.watchdogFire k) s (fun t => others t ∧ t.pow.stwDown = s.pow.stwDown ++ [k] ∧
      t.pow.emq = s.pow.emq.filter (fun w => !mine w) ∧ raised 32 aStwRestart 1 s t ∧
      raised 32 aEmuWdrop (s.pow.emq.filter mine).length s t ∧
      own (fun c v => tabFind (getClu t c).caps 3 = some 28 ∧
        (eclHalted s = false → islStopped v = false → (getClu t c).cfreq ≤ 28)))) ∧
    (s.pow.stwDown.contains k = true → s.pow.stwFail.contains k = false →
      (copyStands s = true → gives (.stewardRestartDone k true) s (fun t => others t ∧
        t.pow = { s.pow with stwDown := s.pow.stwDown.erase k } ∧
        own (fun c v => tabFind (getClu t c).caps 3 = none ∧ capAt (getClu t c) 2 = min (capAt v 2) (capAt v 3)))) ∧
      ∀ ok, (ok = false ∨ copyStands s = false) → gives (.stewardRestartDone k ok) s (fun t =>
        t = { s with pow := { s.pow with stwFail := s.pow.stwFail ++ [k] } })) ∧
    (∀ w, stwIsDown s k = true → gives (.floorGovernorTick k w) s (fun t => others t ∧ t.pow = s.pow ∧
      own (fun c v => capAt (getClu t c) 3 =
        if 100 ≤ v.tj then 14
        else if 60 * nth 0 s.pow.shares k < 100 * w then max 14 (min (capAt v 3) (capFreq s c v) - 1)
        else if 100 * w < 60 * nth 0 s.pow.shares k then min 28 (capAt v 3 + 1) else capAt v 3))) ∧
    (∀ w, stwIsDown s k = false → gives (.floorGovernorTick k w) s (fun t => t = s))

/-- R508 to R511, R596: the steward registers: a read, a write that waits for its steward, its completion, accesses while the steward
restarts or of another size, and reserved offsets. (The size is judged before the offset: the model's choice, log entry 74.) -/
def Obligations.StewardRegisters : Prop :=
  ∀ (s : State), s.pow.on = true →
    let tells := fun (i0 : Instr) (f off n v : Nat) =>
      gives i0 s (fun t => t = { s with out := .read f (emuAddr off) n v :: s.out })
    (∀ f off n, funcLive s f → f ≠ 0 → off + n ≤ 0x1000 → tells (.emRead f off n) f off n 0 ∧
      ∀ v, gives (.emWrite f off n v) s (fun t => t = s)) ∧
    (∀ off n, off + n ≤ 0x1000 → n ≠ 4 → tells (.emRead 0 off n) 0 off n (2 ^ (8 * n) - 1) ∧
      ∀ v, gives (.emWrite 0 off n v) s (fun t => t.pow = s.pow ∧ t.regs = s.regs ∧ raised 32 aEmuWdrop 1 s t)) ∧
    (∀ off, off + 4 ≤ 0x1000 → emServer off = none → tells (.emRead 0 off 4) 0 off 4 0 ∧
      ∀ v, gives (.emWrite 0 off 4 v) s (fun t => t = s)) ∧
    (∀ off k, off + 4 ≤ 0x1000 → emServer off = some k →
      (stwIsDown s k = false → s.pow.emq.filter (fun w => emServer w.off == some k) = [] →
        tells (.emRead 0 off 4) 0 off 4 (emValue s off)) ∧
      (stwIsDown s k = true → gives (.emRead 0 off 4) s (fun t => t.out = .read 0 (emuAddr off) 4 0xFFFF_FFFF :: s.out ∧
        t.pow = { s.pow with emuDown := true } ∧ t.regs = s.regs)) ∧
      (∀ v, stwIsDown s k = false → s.pow.emq.length < 256 → gives (.emWrite 0 off 4 v) s (fun t =>
        t = { s with pow := { s.pow with emq := s.pow.emq ++ [⟨0, off, v % 2 ^ 32⟩] } })) ∧
      (∀ v, stwIsDown s k = true → gives (.emWrite 0 off 4 v) s (fun t => t.pow = s.pow ∧ t.regs = s.regs ∧
        raised 32 aEmuWdrop 1 s t))) ∧
    (∀ k, k < 4 → stwIsDown s k = false →
      (∀ w l, takeFirst (fun (x : EmWrite) => emServer x.off == some k) s.pow.emq = some (w, l) →
        gives (.emWriteApply k) s (fun t => t.pow = { s.pow with emq := l } ∧
          (emMask w.off ≠ 0 → reg t (emuAddr w.off) = w.v &&& emMask w.off) ∧
          ∀ x, (x ≠ emuAddr w.off ∨ emMask w.off = 0) → reg t x = reg s x)) ∧
      (takeFirst (fun (x : EmWrite) => emServer x.off == some k) s.pow.emq = none → gives (.emWriteApply k) s (fun t => t = s))) ∧
    (∀ k, k < 4 → stwIsDown s k = true → gives (.emWriteApply k) s (fun t => t = s))

/-- R515, R517, R518, R522: firmware bytes, their verification, MINSVN, the image keys and their lock. What a copy that has been
written into is before VERIFY ends stays open (log entry 39). -/
def Obligations.FirmwareAndKeys : Prop :=
  ∀ (s : State) (f : Nat), funcLive s f →
    let z := s.fuses
    (∀ off d, off + d.length ≤ 2 ^ 25 → s.sec.upd ≠ 1 → (d.length = 4 ∨ d.length = 8) → gives (.fwWrite 0 off d) s (fun t =>
      t.sec = s.sec ∧ t.fuses.headB = z.headB ∧ t.fuses.minSvn = z.minSvn ∧ t.hub = s.hub ∧ t.cl = s.cl ∧
      (z.headB = false → bytesNow z.fwB t.fuses.fwB off d ∧ t.fuses.fwA = z.fwA ∧ t.fuses.okA = z.okA ∧ t.fuses.svnA = z.svnA) ∧
      (z.headB = true → bytesNow z.fwA t.fuses.fwA off d ∧ t.fuses.fwB = z.fwB ∧ t.fuses.okB = z.okB ∧ t.fuses.svnB = z.svnB))) ∧
    (∀ off d, off + d.length ≤ 2 ^ 25 → (f ≠ 0 ∨ s.sec.upd = 1) → gives (.fwWrite f off d) s (fun t => t = s)) ∧
    gives (.fwVerify 0) s (fun t => t = { s with sec := { s.sec with upd := 1 } }) ∧
    (f ≠ 0 → gives (.fwVerify f) s (fun t => t = s) ∧ gives (.svnCommit f) s (fun t => t = s) ∧
      gives (.keylockSet f) s (fun t => t = s)) ∧
    (∀ ok svn dig, s.sec.upd = 1 →
      let held := fun (t : State) => t.fuses.minSvn = z.minSvn ∧ t.fuses.key0 = z.key0 ∧ t.hub = s.hub ∧ t.cl = s.cl ∧
        (z.headB = false → t.fuses.okB = ok ∧ t.fuses.svnB = svn ∧ t.fuses.digB = dig ∧ t.fuses.okA = z.okA) ∧
        (z.headB = true → t.fuses.okA = ok ∧ t.fuses.svnA = svn ∧ t.fuses.digA = dig ∧ t.fuses.okB = z.okB)
      (ok = true → z.minSvn ≤ svn → gives (.fwVerifyDone ok svn dig) s (fun t => held t ∧ t.fuses.headB = !z.headB ∧
        t.sec = { s.sec with upd := 2 })) ∧
      ((ok = false ∨ svn < z.minSvn) → gives (.fwVerifyDone ok svn dig) s (fun t => held t ∧ t.fuses.headB = z.headB ∧
        t.sec = { s.sec with upd := 3 }))) ∧
    (∀ ok svn dig, s.sec.upd ≠ 1 → gives (.fwVerifyDone ok svn dig) s (fun t => t = s)) ∧
    gives (.svnCommit 0) s (fun t => t = { s with fuses := { z with minSvn := max z.minSvn s.sec.svn } }) ∧
    gives (.keylockSet 0) s (fun t => t = { s with sec := { s.sec with keylock := true } }) ∧
    (∀ off v, off + 8 ≤ 4096 →
      (s.sec.keylock = false → 256 ≤ off → off % 8 = 0 → gives (.keySlotWrite 0 off v) s (fun t =>
        t = { s with sec := { s.sec with keys := t.sec.keys } } ∧
        bytesNow s.sec.keys t.sec.keys off (leBytes 8 (v &&& keyMask (off % 256))))) ∧
      ((f ≠ 0 ∨ s.sec.keylock = true ∨ off < 256 ∨ off % 8 ≠ 0) → gives (.keySlotWrite f off v) s (fun t => t = s)))

/-- R519 to R521: the SPDM responder: each request moves the function's exchange on and is answered; a request out of turn, or of
another version, is answered with an ERROR. The messages' layout is DMTF's (log entry 41). -/
def Obligations.Attestation : Prop :=
  ∀ (s : State) (f : Nat) (r : List Byte), funcLive s f →
    let x := getSpdm s f
    let tells := fun (i0 : Instr) (n : Nat) (y : Spdm) (p : List Byte → Prop) => gives i0 s (fun t => ∃ a,
      t = { s with sec := { s.sec with spdm := t.sec.spdm }, out := .doe f a :: s.out, fresh := s.fresh + n } ∧ p a ∧
        getSpdm t f = y ∧ ∀ g, g ≠ f → getSpdm t g = getSpdm s g)
    let fails := fun (i0 : Instr) (code : Nat) => gives i0 s (fun t =>
      t = { s with out := .doe f (spdmErr x.ver code) :: s.out })
    let asks := fun (code len : Nat) (st : SpdmSt) => len ≤ r.length ∧ rq r 1 = code ∧ rq r 0 = x.ver ∧ x.st = st
    let early := fun (i0 : Instr) (code len : Nat) => len ≤ r.length → rq r 1 = code →
      (rq r 0 ≠ x.ver → fails i0 0x41) ∧ (rq r 0 = x.ver → x.st ≠ .algs → fails i0 0x04)
    let ver := leBytes 1 x.ver
    let chain := s.fuses.chain
    (4 ≤ r.length → rq r 1 = 0x84 → rq r 0 = 0x10 →
      let a : List Byte := [0x10, 0x04, 0, 0, 0, 2, 0x00, 0x12, 0x00, 0x13]
      tells (.getVersion f r) 0 ⟨.version, 0x12, r ++ a, [], []⟩ (fun b => b = a)) ∧
    (20 ≤ r.length → rq r 1 = 0xE1 → (rq r 0 = 0x12 ∨ rq r 0 = 0x13) → x.st = .version → gives (.getCapabilities f r) s (fun t =>
      ∃ a, t.out = .doe f a :: s.out ∧ getSpdm t f = { x with ver := rq r 0, st := .caps, nego := x.nego ++ r ++ a } ∧
        a.length = 20 ∧ rq a 0 = rq r 0 ∧ rq a 1 = 0x61 ∧ descN a 8 4 = 0x16)) ∧
    (asks 0xE3 32 .caps → bitB (descN r 8 4) 8 = true → bitB (descN r 12 4) 2 = true → gives (.negotiateAlgorithms f r) s (fun t =>
      ∃ a, t.out = .doe f a :: s.out ∧ getSpdm t f = { x with st := .algs, nego := x.nego ++ r ++ a } ∧ a.length = 36 ∧
        rq a 1 = 0x63 ∧ descN a 12 4 = 0x100 ∧ descN a 16 4 = 4)) ∧
    (asks 0xE3 32 .caps → (bitB (descN r 8 4) 8 = false ∨ bitB (descN r 12 4) 2 = false) → fails (.negotiateAlgorithms f r) 0x01) ∧
    (asks 0x81 4 .algs →
      let a := ver ++ [0x01] ++ leBytes 1 (if x.ver = 0x13 then 1 else 0) ++ [1] ++ sha512 chain
      tells (.getDigests f r) 0 { x with certs := x.certs ++ r ++ a, meas := [] } (fun b => b = a)) ∧
    (asks 0x82 8 .algs → bits (rq r 2) 3 0 = 0 → descN r 4 2 < chain.length →
      let n := min (descN r 6 2) (chain.length - descN r 4 2)
      let a := ver ++ [0x02, 0, 0] ++ leBytes 2 n ++ leBytes 2 (chain.length - descN r 4 2 - n) ++ (chain.drop (descN r 4 2)).take n
      tells (.getCertificate f r) 0 { x with certs := x.certs ++ r ++ a, meas := [] } (fun b => b = a)) ∧
    (asks 0x83 36 .algs → bits (rq r 2) 3 0 = 0 → (rq r 3 = 0 ∨ rq r 3 = 1 ∨ rq r 3 = 0xFF) →
      tells (.challenge f r) 1 { x with certs := [], meas := [] } (fun b => ∃ a, b = a ++ spdmSign s x.ver
        "responder-challenge_auth signing" (x.nego ++ x.certs ++ r ++ a) ∧ a.take 4 = ver ++ [0x03, 0, 1] ∧
        (a.drop 4).take (sha512 chain).length = sha512 chain)) ∧
    (asks 0xE0 4 .algs → bitB (rq r 2) 0 = false → 1 ≤ rq r 3 → rq r 3 ≤ 7 → gives (.getMeasurements f r) s (fun t =>
      ∃ a, t.out = .doe f a :: s.out ∧ getSpdm t f = { x with meas := x.meas ++ r ++ a } ∧ rq a 1 = 0x60 ∧ rq a 4 = 1 ∧
        (a.drop 8).take (measBlock s f (rq r 3)).length = measBlock s f (rq r 3) ∧ t.hub = s.hub)) ∧
    (asks 0xE0 37 .algs → bitB (rq r 2) 0 = true → (rq r 3 ≤ 7 ∨ rq r 3 = 0xFF) → bits (rq r 36) 3 0 = 0 →
      tells (.getMeasurements f r) 1 { x with meas := [] } (fun b => ∃ a, b = a ++ spdmSign s x.ver "responder-measurements signing"
        (x.nego ++ (x.meas ++ r ++ a)) ∧ rq a 1 = 0x60)) ∧
    early (.getDigests f r) 0x81 4 ∧ early (.getCertificate f r) 0x82 8 ∧ early (.challenge f r) 0x83 36

/-- R557 to R559: the management bus: dynamic addresses, identification, status, events, Hot-Join, and PLDM. The order of an answer's
bytes, the event bits and the PLDM header are MIPI's and DMTF's; the status and PLDM answers stay open (log entry 40). (The address taken modulo 128, a Hot-Join no longer wanted
after ENTDAA, and silence without an address: the model's choice, log entry 77.) -/
def Obligations.ManagementBus : Prop :=
  ∀ (s : State), s.pow.on = true →
    let m := s.mng
    let tells := fun (b : List Byte) (t : State) => t = { s with out := .i3c b :: s.out }
    let silent := fun (i0 : Instr) => gives i0 s (fun t => t = s)
    (pid48 s / 2 ^ 33 = 0x1C6B ∧ pid48 s / 2 ^ 32 % 2 = 1) ∧
    (∀ a, m.da = none → gives (.entdaa a) s (fun t =>
      t = { s with mng := { m with da := some (a % 128), hjWant := false }
                   out := .i3c (beBytes 6 (pid48 s) ++ [0x06, 0x00]) :: s.out })) ∧
    (∀ a, m.da ≠ none → silent (.entdaa a) ∧
      gives (.setnewda a) s (fun t => t = { s with mng := { m with da := some (a % 128) } })) ∧
    gives .rstdaa s (fun t => t = { s with mng := { m with da := none, hjWant := true } }) ∧
    (m.da ≠ none → gives .getpid s (tells (beBytes 6 (pid48 s))) ∧ gives .getbcr s (tells [0x06]) ∧ gives .getdcr s (tells [0x00]) ∧
      gives .getstatus s (fun t => ∃ b, b.length = 2 ∧ t = { s with out := .i3c b :: s.out, fresh := s.fresh + 1 })) ∧
    (m.da = none → silent .getpid ∧ silent .getbcr ∧ silent .getdcr ∧ silent .getstatus ∧ (∀ a, silent (.setnewda a)) ∧
      ∀ r, silent (.pldmRequest r)) ∧
    (∀ v, gives (.enec v) s (fun t => t = { s with mng := { m with ibiEn := m.ibiEn || bitB v 0, hjEn := m.hjEn || bitB v 3 } }) ∧
      gives (.disec v) s (fun t =>
        t = { s with mng := { m with ibiEn := m.ibiEn && !bitB v 0, hjEn := m.hjEn && !bitB v 3 } })) ∧
    (m.hjWant = true → m.hjEn = true → m.da = none → gives .hotJoin s (fun t =>
      t = { s with mng := { m with hjWant := false }, out := .i3c [0x04] :: s.out })) ∧
    ((m.hjWant = false ∨ m.hjEn = false ∨ m.da ≠ none) → silent .hotJoin) ∧
    (∀ r, m.da ≠ none →
      (stwIsDown s 0 = true → gives (.pldmRequest r) s (tells (pldmHead r ++ [0x04]))) ∧
      (stwIsDown s 0 = false → gives (.pldmRequest r) s (fun t => ∃ b,
        t = { s with out := .i3c (pldmHead r ++ b) :: s.out, fresh := s.fresh + 1 })))

/-- The step of a block: the command at the front of the queue is carried out on the state with the queue's rest. -/
def Obligations.StepRunsTheFrontCommand : Prop :=
  ∀ (s : State) (c : Instr) (rest : List Instr), s.pending = c :: rest → step s = exec c { s with pending := rest }

/-- R151, R153, R154, R157, R462, R463: on an empty queue a tick passes (the model's choice, log entry 45): a module that is off does
nothing; where no slot runs or waits and nothing is in flight, only time moves. A cluster's sequencer takes the ready slot of the
highest class, of one class the next in its round; what that slot issues in the tick is what the instruction's command does. -/
def Obligations.Ticks : Prop :=
  ∀ (s : State),
    (s.pending = [] → step s = .next (tick s)) ∧ (s.pow.on = false → tick s = s) ∧
    (s.pow.on = true → (∀ p ∈ s.cl.slots, p.2.st ≠ .running ∧ p.2.st ≠ .waiting) → (∀ p ∈ s.cl.clus, p.2.ops = [] ∧ p.2.banks = []) →
      s.hub.xfers = [] → s.mq = [] → s.ecl.cmd = none →
      let k := s.clock
      tick s = { s with clock := (tick s).clock } ∧ (tick s).clock.raw = k.raw + 1 ∧
        (tick s).clock.tick = (k.tick + 1) % 1024 ∧
        (k.tick ≠ 1023 → (tick s).clock.ftc = k.ftc + 1 ∧ (tick s).clock.res = k.res) ∧
        (k.tick = 1023 → (tick s).clock.ftc = k.ftc + (if 0 < k.res then 2 else if k.res < 0 then 0 else 1) ∧
          (tick s).clock.res = k.res + (if 0 < k.res then -1 else if k.res < 0 then 1 else 0))) ∧
    (∀ c,
      let code := fun n => clsCode (getSlot s c n).cls
      let turn := fun n => (n + 4 - tabGet 0 (getClu s c).rr (code n) % 4) % 4
      (∀ n, pickSlot s c = some n → n < 4 ∧ slotReady s c n = true ∧
        ∀ m, m < 4 → slotReady s c m = true → code n ≤ code m ∧ (code m = code n → turn n ≤ turn m)) ∧
      (pickSlot s c = none ↔ ∀ m, m < 4 → slotReady s c m = false) ∧
      (∀ n, s.pow.on = true → cluRuns s c = true → busyClusters s = [c] → pickSlot s c = some n → (getSlot s c n).st = .running →
        (∀ m, m < 4 → m ≠ n → (getSlot s c m).st ≠ .running ∧ (getSlot s c m).st ≠ .waiting ∧ (getSlot s c m).busy = []) →
        (∀ m, m < 4 → (getSlot s c m).yielded = false) →
        let u := modClu (fetchRun c n s) c (fun k => { k with rr := tabSet k.rr (code n) ((n + 1) % 4) })
        (∀ p ∈ u.cl.clus, p.2.ops = [] ∧ p.2.banks = []) → u.hub.xfers = [] → u.mq = [] → u.ecl.cmd = none →
        tick s = { u with clock := (tick s).clock })) ∧
    (∀ c sl i, slotLive s c sl → encodeSeq i ≠ none → seqSlot i = (c, sl) → exec i s = .next (runSeq c sl i s)) ∧
    (∀ c sl w i, slotLive s c sl → (getSlot s c sl).pc.toNat < (getSlot s c sl).plen →
      tabGet 0 (getSlot s c sl).prog (getSlot s c sl).pc.toNat = w → decodeSeq c sl w = some i →
      exec i s = .next (fetchRun c sl s))

/-- R22, R303, R351, R448, R489, R590 to R597, R601: the state after reset: the module is READY with nothing attached, assigned or
loaded, its memories have their canonical form, and stored registers read their Reset column. (The stacks READY and the module through
bring-up: the model's choice, log entry 2; registers of EMPTY slots 0: log entry 3; memories and weight store reading 0: log entry 4.) -/
def Obligations.ResetState : Prop :=
  let s := State.reset
  s.memOk = true ∧ s.pending = [] ∧ s.pow.on = true ∧ s.pow.pwrGood = true ∧ s.pow.shut = none ∧ s.mng.testing = false ∧
    s.clock.ftc = 0 ∧ s.ecl.st = .idle ∧ s.hub.regions = [] ∧ s.hub.numVfs = 0 ∧ s.hub.rsvCount = 2 ∧ s.lnk.node = 0xFFFF ∧
    s.sec.keylock = false ∧ s.mng.da = none ∧
    (∀ a, memGet s.mem.dev a = 0 ∧ memGet s.cl.spad a = 0 ∧ memGet s.cl.wst a = 0 ∧ ctr s a = 0) ∧
    (∀ k, (getStack s k).st = .ready) ∧ (∀ n, (getPort s n).st = .down) ∧
    (∀ f q, (getQueue s f q).st = .off ∧ (getRing s f q).en = false) ∧
    (∀ c n, (getSlot s c n).st = .empty ∧ (getSlot s c n).pvalid = false ∧ ∀ r, sreg s c n r = 0) ∧
    reg s aFtcCtl = 0x0040_0001 ∧ reg s aLnkCtl = 0x007D_0032 ∧ reg s aPrio = 0x0002_0408 ∧
    reg s (emuAddr 0) = 0xC8 ∧ reg s (emuAddr 8) = 0x8000_005F ∧
    (∀ f, f < Config.functions → tenReg s f oFrCfg = 4 ∧ tenReg s f oHbCtl = 0x03E8) ∧
    ∀ c, c < Config.clusters → cluReg s c oPrecCtl = 4 ∧ cluReg s c oSplit = 0x8308_0400 ∧
      ∀ n, n < 4 → cluReg s c (oTrcCfg n) = 0x0610_0000_0000_0000

/-- Every step, a command's or the tick of an empty queue, from a state whose byte memories have their canonical form, and whose
tables of poison marks and stored errors list rising keys, answers such a state. -/
def Obligations.CanonicalFormKept : Prop := ∀ (s t : State), s.memOk = true → step s = .next t → t.memOk = true

/-- R514, R518, R522, and the queue of the block: no command changes the queue, and a step takes at most its front command from it; the
minimum security version never falls, and only a command of the physical function that commits it raises it; locked image keys keep
their bytes and stay locked until the module is turned off and on again: over every command, and over every step, an empty queue's
tick among them. -/
def Obligations.QueueAndLocks : Prop :=
  (∀ (i : Instr) (s t : State), exec i s = .next t → t.pending = s.pending ∧ s.fuses.minSvn ≤ t.fuses.minSvn ∧
    (t.fuses.minSvn = s.fuses.minSvn ∨ i = .svnCommit 0) ∧
    (s.sec.keylock = true → i ≠ .orderlyShutdown → (∀ p found dies stks stw, i ≠ .bringUp p found dies stks stw) →
      t.sec.keylock = true ∧ t.sec.keys = s.sec.keys)) ∧
  ∀ (s t : State), step s = .next t → t.pending = s.pending.drop 1 ∧ s.fuses.minSvn ≤ t.fuses.minSvn ∧
    (t.fuses.minSvn = s.fuses.minSvn ∨ s.pending.head? = some (.svnCommit 0)) ∧
    (s.sec.keylock = true → s.pending.head? ≠ some .orderlyShutdown →
      (∀ p found dies stks stw, s.pending.head? ≠ some (.bringUp p found dies stks stw)) →
      t.sec.keylock = true ∧ t.sec.keys = s.sec.keys)

/-- R154 to R156: encoding and decoding of the sequencer's words agree: the word of an instruction decodes to it, with every operand
at every value, and a word that decodes is the word of what it decodes to. -/
def Obligations.SequencerWords : Prop :=
  (∀ (i : Instr) (w : W32), encodeSeq i = some w → decodeSeq (seqSlot i).1 (seqSlot i).2 w = some i) ∧
    ∀ (c sl : Nat) (w : W32) (i : Instr), decodeSeq c sl w = some i → encodeSeq i = some w ∧ seqSlot i = (c, sl)

/-- R4 to R6, R290: where clusters and dies lie, and the way of a torus transfer between two clusters of a pipeline region's
rectangle: along X, then along Y, with its turn at the target's X and the source's Y, each step to a neighbour; the shorter way round an axis that
the rectangle spans in full; never out of the rectangle. -/
def Obligations.Geometry : Prop :=
  (∀ x y, x < 48 → y < 32 → cluAt x y = y * 48 + x ∧ cluAt x y < 1536 ∧ cluX (cluAt x y) = x ∧ cluY (cluAt x y) = y ∧
    dieOf (cluAt x y) = y / 8 * 6 + x / 8 ∧ x / 8 < 6 ∧ y / 8 < 4 ∧ dieOf (cluAt x y) < 24 ∧
    cluAt x y ∈ dieClusters (y / 8 * 6 + x / 8)) ∧
  ∀ (d : Region) (c t : Nat), d.pipe = true → d.x0 < 48 → d.y0 < 32 → 1 ≤ d.w → d.w ≤ 48 → 1 ≤ d.h → d.h ≤ 32 →
    c < 1536 → t < 1536 → regionRect d c = true → regionRect d t = true → c ≠ t →
    let dx := (cluX t + 48 - cluX c) % 48
    let dy := (cluY t + 32 - cluY c) % 32
    (∀ p ∈ torusPath d c t, regionRect d p = true) ∧
    ∃ xs ys : List Nat, torusPath d c t = xs.map (fun x => cluAt x (cluY c)) ++ ys.map (fun y => cluAt (cluX t) y) ∧
      (xs ≠ [] → xs.getLast? = some (cluX t)) ∧ (cluX c ≠ cluX t → xs ≠ []) ∧
      (ys ≠ [] → ys.getLast? = some (cluY t)) ∧ (cluY c ≠ cluY t → ys ≠ []) ∧
      (∀ i b, (cluX c :: xs)[i + 1]? = some b → ∃ a, (cluX c :: xs)[i]? = some a ∧ (b = (a + 1) % 48 ∨ a = (b + 1) % 48)) ∧
      (∀ i b, (cluY c :: ys)[i + 1]? = some b → ∃ a, (cluY c :: ys)[i]? = some a ∧ (b = (a + 1) % 32 ∨ a = (b + 1) % 32)) ∧
      xs.Nodup ∧ ys.Nodup ∧
      (d.w = 48 → xs = if dx ≤ 24 then (List.range dx).map (fun i => (cluX c + i + 1) % 48)
        else (List.range (48 - dx)).map (fun i => (cluX c + 96 - i - 1) % 48)) ∧
      (d.h = 32 → ys = if dy ≤ 16 then (List.range dy).map (fun i => (cluY c + i + 1) % 32)
        else (List.range (32 - dy)).map (fun i => (cluY c + 64 - i - 1) % 32))

/-- R19, R20, R119: a counter that hardware raises in the event tick of its read; a W1C bit that hardware sets in the event tick of
the write that would clear it; 4-byte accesses of a seed register. -/
def Obligations.RegisterRules : Prop :=
  ∀ (s : State) (f a : Nat), funcLive s f → a + 8 ≤ 2 ^ 28 → inEmu a = false → winOf a = none →
    (∀ n, a % 4 = 0 → mayRead s f a = true → isRc32 a = true →
      let v := (nowCount s (keyOf f a)).1
      let k := (nowCount s (keyOf f a)).2
      gives (.rcRead f a 4) (bump s (keyOf f a) n) (fun t => t.out = .read f a 4 v :: s.out ∧ ctr t (keyOf f a) = k + n ∧
        ∀ m, ctr (bump t (keyOf f a) m) (keyOf f a) = if m = 0 then k + n else min (k + n + m) (2 ^ 32 - 1))) ∧
    (∀ n, a % 8 = 0 → is64 a = true → mayRead s f a = true → isRc64 a = true →
      let v := (nowCount s a).1
      let k := (nowCount s a).2
      gives (.rcRead f a 8) (bumpW 64 s a n) (fun t => t.out = .read f a 8 v :: s.out ∧ ctr t a = k + n)) ∧
    (∀ x i v, bitB v i = true → w1cTakes (markSet s x (2 ^ i)) x i v = false) ∧
    (∀ x i v, bitB v i = true → s.nowTick ≠ eventTick s → w1cTakes s x i v = true) ∧
    (∀ v, s.pow.emuDown = true → gives (.registerWrite 0 aHubStat 4 v) (markSet s aHubStat (2 ^ 31)) (fun t =>
      t.pow.emuDown = true)) ∧
    (∀ v, bitB v 31 = true → s.nowTick ≠ eventTick s → gives (.registerWrite 0 aHubStat 4 v) s (fun t => t.pow.emuDown = false)) ∧
    (∀ c n, c < Config.clusters → n < 8 →
      gives (.rcRead f (cluAddr c (0x8C0 + 4 * n)) 4) s (fun t =>
        t = { s with out := .read f (cluAddr c (0x8C0 + 4 * n)) 4 0 :: s.out }) ∧
      ∀ v, gives (.registerWrite f (cluAddr c (0x8C0 + 4 * n)) 4 v) s (fun t => t = s))
end

