-- ==== Sys2Proof/Laws/Mem.lean ====
section
/-! SUPPORT. Sparse tables and byte memories: a read after a write, and the canonical form that every memory operation keeps. -/

namespace Sys2Proof.Machine

/-! ### Sorted tables -/

/-- Every key of a table is above `k`. -/
def tabAbove {α : Type} (k : Nat) (t : Tab α) : Prop := ∀ p ∈ t, k < p.1

theorem tabSorted_cons {α : Type} (p : Nat × α) (t : Tab α) :
    tabSorted (p :: t) = true ↔ tabAbove p.1 t ∧ tabSorted t = true := by
  induction t generalizing p with
  | nil => simp [tabSorted, tabAbove]
  | cons r t ih =>
    obtain ⟨a, v⟩ := p
    obtain ⟨b, w⟩ := r
    simp only [tabSorted, Bool.and_eq_true, decide_eq_true_eq, tabAbove, List.mem_cons, forall_eq_or_imp]
    constructor
    · rintro ⟨hab, hs⟩
      exact ⟨⟨hab, fun p hp => Nat.lt_trans hab (((ih (b, w)).mp hs).1 p hp)⟩, hs⟩
    · rintro ⟨⟨hab, _⟩, hs⟩
      exact ⟨hab, hs⟩

theorem tabSorted_tail {α : Type} {p : Nat × α} {t : Tab α} (h : tabSorted (p :: t) = true) : tabSorted t = true :=
  ((tabSorted_cons p t).mp h).2

theorem tabAbove_set {α : Type} {k : Nat} {t : Tab α} (h : tabAbove k t) {a : Nat} (hka : k < a) (v : α) :
    tabAbove k (tabSet t a v) := by
  induction t with
  | nil => simpa [tabSet, tabAbove] using hka
  | cons p t ih =>
    have hp : k < p.1 := h p (by simp)
    have ht : tabAbove k t := fun r hr => h r (by simp [hr])
    simp only [tabSet]
    split
    · intro r hr
      rcases List.mem_cons.mp hr with rfl | hr
      · exact hka
      · exact ht r hr
    · split
      · intro r hr
        rcases List.mem_cons.mp hr with rfl | hr
        · exact hka
        · exact h r hr
      · intro r hr
        rcases List.mem_cons.mp hr with rfl | hr
        · exact hp
        · exact ih ht r hr

theorem tabSorted_set {α : Type} {t : Tab α} (h : tabSorted t = true) (a : Nat) (v : α) : tabSorted (tabSet t a v) = true := by
  induction t with
  | nil => rfl
  | cons p t ih =>
    obtain ⟨b, w⟩ := p
    obtain ⟨hab, hs⟩ := (tabSorted_cons _ _).mp h
    simp only [tabSet]
    split
    · subst_vars
      exact (tabSorted_cons _ _).mpr ⟨hab, hs⟩
    · split
      · refine (tabSorted_cons _ _).mpr ⟨?_, h⟩
        intro r hr
        rcases List.mem_cons.mp hr with rfl | hr
        · exact ‹a < b›
        · exact Nat.lt_trans ‹a < b› (hab r hr)
      · exact (tabSorted_cons _ _).mpr ⟨tabAbove_set hab (by omega) v, ih hs⟩

theorem tabSorted_filter {α : Type} {t : Tab α} (h : tabSorted t = true) (f : Nat × α → Bool) :
    tabSorted (t.filter f) = true := by
  induction t with
  | nil => rfl
  | cons p t ih =>
    obtain ⟨hab, hs⟩ := (tabSorted_cons _ _).mp h
    simp only [List.filter_cons]
    split
    · exact (tabSorted_cons _ _).mpr ⟨fun r hr => hab r (List.mem_filter.mp hr).1, ih hs⟩
    · exact ih hs

theorem tabSorted_del {α : Type} {t : Tab α} (h : tabSorted t = true) (a : Nat) : tabSorted (tabDel t a) = true :=
  tabSorted_filter h _

/-! ### Reading a table after a change -/

@[simp] theorem tabGet_set_self {α : Type} (d : α) (t : Tab α) (k : Nat) (v : α) : tabGet d (tabSet t k v) k = v := by
  induction t with
  | nil => simp [tabSet, tabGet]
  | cons p t ih =>
    simp only [tabSet]
    split
    · simp [tabGet]
    · split
      · simp [tabGet]
      · simpa [tabGet, *] using ih

theorem tabGet_set_other {α : Type} (d : α) {t : Tab α} (k j : Nat) (v : α) (hjk : j ≠ k) :
    tabGet d (tabSet t k v) j = tabGet d t j := by
  induction t with
  | nil => simp [tabSet, tabGet, Ne.symm hjk]
  | cons p t ih =>
    simp only [tabSet]
    split
    · rename_i hpk
      simp [tabGet, hpk, Ne.symm hjk]
    · split
      · simp [tabGet, Ne.symm hjk]
      · simp [tabGet, ih]

/-- A second write to a key of a table takes the place of the first. -/
theorem tabSet_set_self {α : Type} (t : Tab α) (k : Nat) (a b : α) : tabSet (tabSet t k a) k b = tabSet t k b := by
  induction t with
  | nil => simp [tabSet]
  | cons p t ih =>
    obtain ⟨k', v'⟩ := p
    simp only [tabSet]
    split
    · simp [tabSet]
    · rename_i h
      split
      · simp [tabSet]
      · rename_i h2
        simp [tabSet, h, h2, ih]

@[simp] theorem tabFind_set_self {α : Type} (t : Tab α) (k : Nat) (v : α) : tabFind (tabSet t k v) k = some v := by
  induction t with
  | nil => simp [tabSet, tabFind]
  | cons p t ih =>
    simp only [tabSet]
    split
    · simp [tabFind]
    · split
      · simp [tabFind]
      · simpa [tabFind, *] using ih

theorem tabFind_set_other {α : Type} {t : Tab α} (k j : Nat) (v : α) (hjk : j ≠ k) :
    tabFind (tabSet t k v) j = tabFind t j := by
  induction t with
  | nil => simp [tabSet, tabFind, Ne.symm hjk]
  | cons p t ih =>
    simp only [tabSet]
    split
    · rename_i hpk
      simp [tabFind, hpk, Ne.symm hjk]
    · split
      · simp [tabFind, Ne.symm hjk]
      · simp [tabFind, ih]

/-- A table without the entries that `f` drops: a kept key reads as before, a dropped one as the default. -/
theorem tabGet_filter {α : Type} (d : α) (t : Tab α) (f : Nat → Bool) (j : Nat) :
    tabGet d (t.filter (fun p => f p.1)) j = if f j then tabGet d t j else d := by
  induction t with
  | nil => simp [tabGet]
  | cons p t ih =>
    simp only [List.filter_cons]
    by_cases hp : p.1 = j
    · subst hp
      by_cases hf : f p.1 = true <;> simp_all [tabGet]
    · by_cases hf : f p.1 = true <;> simp_all [tabGet]

theorem tabFind_filter {α : Type} (t : Tab α) (f : Nat → Bool) (j : Nat) :
    tabFind (t.filter (fun p => f p.1)) j = if f j then tabFind t j else none := by
  induction t with
  | nil => simp [tabFind]
  | cons p t ih =>
    simp only [List.filter_cons]
    by_cases hp : p.1 = j
    · subst hp
      by_cases hf : f p.1 = true <;> simp_all [tabFind]
    · by_cases hf : f p.1 = true <;> simp_all [tabFind]

@[simp] theorem tabGet_del_self {α : Type} (d : α) (t : Tab α) (k : Nat) : tabGet d (tabDel t k) k = d := by
  simp [tabDel, tabGet_filter d t (fun j => j != k) k]

theorem tabGet_del_other {α : Type} (d : α) (t : Tab α) (k j : Nat) (hjk : j ≠ k) :
    tabGet d (tabDel t k) j = tabGet d t j := by
  simp [tabDel, tabGet_filter d t (fun j => j != k) j, hjk]

/-- A table reads the value put at a key. -/
@[simp] theorem tabGet_put_self {α : Type} [DecidableEq α] (d : α) (t : Tab α) (k : Nat) (v : α) :
    tabGet d (tabPut d t k v) k = v := by
  unfold tabPut
  split
  · subst_vars
    exact tabGet_del_self _ t k
  · simp

/-- A put leaves every other key as it was. -/
theorem tabGet_put_other {α : Type} [DecidableEq α] (d : α) (t : Tab α) (k j : Nat) (v : α)
    (hjk : j ≠ k) : tabGet d (tabPut d t k v) j = tabGet d t j := by
  unfold tabPut
  split
  · exact tabGet_del_other d t k j hjk
  · exact tabGet_set_other d k j v hjk

/-- A range that is dropped reads as the default, every other key as before. -/
theorem tabGet_drop {α : Type} (d : α) (t : Tab α) (lo n j : Nat) :
    tabGet d (tabDrop t lo n) j = if lo ≤ j ∧ j < lo + n then d else tabGet d t j := by
  unfold tabDrop
  rw [tabGet_filter d t (fun k => !(decide (lo ≤ k) && decide (k < lo + n))) j]
  by_cases h : lo ≤ j ∧ j < lo + n
  · simp [h]
  · rw [if_neg h, if_pos (by simp only [Bool.not_eq_true', Bool.and_eq_false_imp, decide_eq_true_eq, decide_eq_false_iff_not]; omega)]

/-! ### Byte memories -/

theorem Memory.wf_iff (m : Mem) : Memory.wf m = true ↔ tabSorted m = true ∧ ∀ p ∈ m, p.2 ≠ memDefault := by
  simp [Memory.wf]

theorem Memory.wf_nil : Memory.wf [] = true := rfl

theorem Memory.sorted {m : Mem} (h : Memory.wf m = true) : tabSorted m = true := ((Memory.wf_iff m).mp h).1

theorem tabSet_mem {α : Type} (t : Tab α) (a : Nat) (v : α) : ∀ p ∈ tabSet t a v, p = (a, v) ∨ p ∈ t := by
  induction t with
  | nil => intro p hp; left; simpa [tabSet] using hp
  | cons q t ih =>
    intro p hp
    simp only [tabSet] at hp
    split at hp
    · rcases List.mem_cons.mp hp with rfl | hp
      · exact .inl rfl
      · exact .inr (by simp [hp])
    · split at hp
      · rcases List.mem_cons.mp hp with rfl | hp
        · exact .inl rfl
        · exact .inr hp
      · rcases List.mem_cons.mp hp with rfl | hp
        · right; simp
        · rcases ih p hp with h | h
          · exact .inl h
          · exact .inr (by simp [h])

theorem tabSorted_put {α : Type} [DecidableEq α] {d : α} {t : Tab α} (h : tabSorted t = true) (a : Nat) (v : α) :
    tabSorted (tabPut d t a v) = true := by
  unfold tabPut
  split
  · exact tabSorted_del h a
  · exact tabSorted_set h a v

theorem tabSorted_foldl {α β : Type} (g : Tab α → β → Tab α) (xs : List β)
    (hg : ∀ t y, tabSorted t = true → tabSorted (g t y) = true) {t : Tab α} (h : tabSorted t = true) :
    tabSorted (xs.foldl g t) = true := by
  induction xs generalizing t with
  | nil => exact h
  | cons y xs ih => exact ih (hg t y h)

theorem tabSorted_move {α : Type} (src : Tab α) {dst : Tab α} (h : tabSorted dst = true) (lo n dest : Nat) :
    tabSorted (tabMove src dst lo n dest) = true :=
  tabSorted_foldl _ _ (fun _ y ht => tabSorted_set ht _ y.2) (tabSorted_filter h _)

theorem memSet_wf {m : Mem} (h : Memory.wf m = true) (a : Nat) (b : Byte) : Memory.wf (memSet m a b) = true := by
  obtain ⟨hs, hn⟩ := (Memory.wf_iff m).mp h
  unfold memSet tabPut
  split
  · exact (Memory.wf_iff _).mpr ⟨tabSorted_del hs a, fun p hp => hn p (List.mem_filter.mp hp).1⟩
  · refine (Memory.wf_iff _).mpr ⟨tabSorted_set hs a b, fun p hp => ?_⟩
    rcases tabSet_mem m a b p hp with rfl | hp
    · exact by assumption
    · exact hn p hp

theorem memPut_wf {m : Mem} (h : Memory.wf m = true) (a : Nat) (bs : List Byte) : Memory.wf (memPut m a bs) = true := by
  induction bs generalizing m a with
  | nil => exact h
  | cons b bs ih => exact ih (memSet_wf h a b) (a + 1)

theorem memPutNat_wf {m : Mem} (h : Memory.wf m = true) (a n v : Nat) : Memory.wf (memPutNat m a n v) = true :=
  memPut_wf h a _

theorem filter_wf {m : Mem} (h : Memory.wf m = true) (f : Host.Cell → Bool) : Memory.wf (m.filter f) = true := by
  obtain ⟨hs, hn⟩ := (Memory.wf_iff m).mp h
  exact (Memory.wf_iff _).mpr ⟨tabSorted_filter hs f, fun p hp => hn p (List.mem_filter.mp hp).1⟩

theorem memZero_wf {m : Mem} (h : Memory.wf m = true) (a n : Nat) : Memory.wf (memZero m a n) = true := filter_wf h _

theorem memSetEntry_wf {m : Mem} (h : Memory.wf m = true) (a : Nat) (b : Byte) (hb : b ≠ memDefault) :
    Memory.wf (tabSet m a b) = true := by
  have := memSet_wf h a b
  simpa [memSet, tabPut, hb] using this

theorem tabDrop_wf {m : Mem} (h : Memory.wf m = true) (a n : Nat) : Memory.wf (tabDrop m a n) = true := filter_wf h _

theorem tabMove_wf {src dst : Mem} (hs : Memory.wf src = true) (hd : Memory.wf dst = true) (lo n dest : Nat) :
    Memory.wf (tabMove src dst lo n dest) = true := by
  have h0 : ∀ p ∈ tabRange src lo n, p.2 ≠ memDefault :=
    fun p hp => ((Memory.wf_iff src).mp hs).2 p (List.mem_filter.mp hp).1
  unfold tabMove
  generalize tabRange src lo n = l at h0
  have hd := tabDrop_wf hd dest n
  generalize tabDrop dst dest n = d at hd
  induction l generalizing d with
  | nil => exact hd
  | cons p l ih => exact ih (fun r hr => h0 r (by simp [hr])) _ (memSetEntry_wf hd _ _ (h0 p (by simp)))

/-- A byte reads as it was written. -/
@[simp] theorem memGet_memSet_self (m : Mem) (a : Nat) (b : Byte) : memGet (memSet m a b) a = b :=
  tabGet_put_self _ m a b

/-- A write of one byte leaves every other byte as it was. -/
theorem memGet_memSet_other (m : Mem) (a j : Nat) (b : Byte) (hj : j ≠ a) : memGet (memSet m a b) j = memGet m j :=
  tabGet_put_other _ m a j b hj

/-- Bytes set to zero read 0, every other byte as before. -/
theorem memGet_memZero (m : Mem) (a n j : Nat) :
    memGet (memZero m a n) j = if a ≤ j ∧ j < a + n then 0 else memGet m j := tabGet_drop _ m a n j

/-- A write leaves every byte outside it as it was. -/
theorem memGet_memPut_outside (m : Mem) (a : Nat) (bs : List Byte) (j : Nat)
    (hj : j < a ∨ a + bs.length ≤ j) : memGet (memPut m a bs) j = memGet m j := by
  induction bs generalizing m a with
  | nil => rfl
  | cons b bs ih =>
    simp only [List.length_cons] at hj
    rw [memPut, ih (memSet m a b) (a + 1) (by omega), memGet_memSet_other m a j b (by omega)]

/-- A byte of a write reads as it was written. -/
theorem memGet_memPut_inside (m : Mem) (a : Nat) (bs : List Byte) (i : Nat) (hi : i < bs.length) :
    memGet (memPut m a bs) (a + i) = bs[i] := by
  induction bs generalizing m a i with
  | nil => simp at hi
  | cons b bs ih =>
    cases i with
    | zero =>
      rw [memPut, memGet_memPut_outside (memSet m a b) (a + 1) bs (a + 0) (by omega)]
      simp
    | succ i =>
      have := ih (memSet m a b) (a + 1) i (by simpa using hi)
      rw [memPut, show a + (i + 1) = a + 1 + i by omega, this]
      simp

theorem memBytes_length (m : Mem) (a n : Nat) : (memBytes m a n).length = n := by
  induction n generalizing a with
  | zero => rfl
  | succ n ih => simp [memBytes, ih]

theorem memBytes_getElem (m : Mem) (a n i : Nat) (hi : i < (memBytes m a n).length) : (memBytes m a n)[i] = memGet m (a + i) := by
  induction n generalizing a i with
  | zero => simp [memBytes] at hi
  | succ n ih =>
    cases i with
    | zero => simp [memBytes]
    | succ i => simp only [memBytes, List.getElem_cons_succ]; rw [ih]; congr 1; omega

/-- The bytes read are the bytes written. -/
theorem memBytes_memPut (m : Mem) (a : Nat) (bs : List Byte) : memBytes (memPut m a bs) a bs.length = bs := by
  apply List.ext_getElem
  · exact memBytes_length _ _ _
  · intro i h1 h2
    rw [memBytes_getElem, memGet_memPut_inside m a bs i h2]

end Sys2Proof.Machine
end

