-- ==== Sys2Proof/Laws/State.lean ====
section
/-! SUPPORT. What each named update of State leaves as it was, field by field, and what a part reads after an update. -/

namespace Sys2Proof.Machine

/-! ### The parts of a cluster -/

@[simp] theorem putClu_pending (s : State) (c : Nat) (v : Clu) : (putClu s c v).pending = s.pending := rfl
@[simp] theorem putClu_mem (s : State) (c : Nat) (v : Clu) : (putClu s c v).mem = s.mem := rfl
@[simp] theorem putClu_hub (s : State) (c : Nat) (v : Clu) : (putClu s c v).hub = s.hub := rfl
@[simp] theorem putClu_lnk (s : State) (c : Nat) (v : Clu) : (putClu s c v).lnk = s.lnk := rfl
@[simp] theorem putClu_clock (s : State) (c : Nat) (v : Clu) : (putClu s c v).clock = s.clock := rfl
@[simp] theorem putClu_ecl (s : State) (c : Nat) (v : Clu) : (putClu s c v).ecl = s.ecl := rfl
@[simp] theorem putClu_pow (s : State) (c : Nat) (v : Clu) : (putClu s c v).pow = s.pow := rfl
@[simp] theorem putClu_fuses (s : State) (c : Nat) (v : Clu) : (putClu s c v).fuses = s.fuses := rfl
@[simp] theorem putClu_sec (s : State) (c : Nat) (v : Clu) : (putClu s c v).sec = s.sec := rfl
@[simp] theorem putClu_mng (s : State) (c : Nat) (v : Clu) : (putClu s c v).mng = s.mng := rfl
@[simp] theorem putClu_regs (s : State) (c : Nat) (v : Clu) : (putClu s c v).regs = s.regs := rfl
@[simp] theorem putClu_ctrs (s : State) (c : Nat) (v : Clu) : (putClu s c v).ctrs = s.ctrs := rfl
@[simp] theorem putClu_nowTick (s : State) (c : Nat) (v : Clu) : (putClu s c v).nowTick = s.nowTick := rfl
@[simp] theorem putClu_nowCtr (s : State) (c : Nat) (v : Clu) : (putClu s c v).nowCtr = s.nowCtr := rfl
@[simp] theorem putClu_nowSet (s : State) (c : Nat) (v : Clu) : (putClu s c v).nowSet = s.nowSet := rfl
@[simp] theorem putClu_host (s : State) (c : Nat) (v : Clu) : (putClu s c v).host = s.host := rfl
@[simp] theorem putClu_fresh (s : State) (c : Nat) (v : Clu) : (putClu s c v).fresh = s.fresh := rfl
@[simp] theorem putClu_out (s : State) (c : Nat) (v : Clu) : (putClu s c v).out = s.out := rfl
@[simp] theorem putClu_cl_slots (s : State) (c : Nat) (v : Clu) : (putClu s c v).cl.slots = s.cl.slots := rfl
@[simp] theorem putClu_cl_tiles (s : State) (c : Nat) (v : Clu) : (putClu s c v).cl.tiles = s.cl.tiles := rfl
@[simp] theorem putClu_cl_spad (s : State) (c : Nat) (v : Clu) : (putClu s c v).cl.spad = s.cl.spad := rfl
@[simp] theorem putClu_cl_spadPoi (s : State) (c : Nat) (v : Clu) : (putClu s c v).cl.spadPoi = s.cl.spadPoi := rfl
@[simp] theorem putClu_cl_spadErr (s : State) (c : Nat) (v : Clu) : (putClu s c v).cl.spadErr = s.cl.spadErr := rfl
@[simp] theorem putClu_cl_wst (s : State) (c : Nat) (v : Clu) : (putClu s c v).cl.wst = s.cl.wst := rfl
@[simp] theorem putClu_cl_wErr (s : State) (c : Nat) (v : Clu) : (putClu s c v).cl.wErr = s.cl.wErr := rfl

@[simp] theorem modClu_pending (s : State) (c : Nat) (g : Clu → Clu) : (modClu s c g).pending = s.pending := rfl
@[simp] theorem modClu_mem (s : State) (c : Nat) (g : Clu → Clu) : (modClu s c g).mem = s.mem := rfl
@[simp] theorem modClu_hub (s : State) (c : Nat) (g : Clu → Clu) : (modClu s c g).hub = s.hub := rfl
@[simp] theorem modClu_lnk (s : State) (c : Nat) (g : Clu → Clu) : (modClu s c g).lnk = s.lnk := rfl
@[simp] theorem modClu_clock (s : State) (c : Nat) (g : Clu → Clu) : (modClu s c g).clock = s.clock := rfl
@[simp] theorem modClu_ecl (s : State) (c : Nat) (g : Clu → Clu) : (modClu s c g).ecl = s.ecl := rfl
@[simp] theorem modClu_pow (s : State) (c : Nat) (g : Clu → Clu) : (modClu s c g).pow = s.pow := rfl
@[simp] theorem modClu_fuses (s : State) (c : Nat) (g : Clu → Clu) : (modClu s c g).fuses = s.fuses := rfl
@[simp] theorem modClu_sec (s : State) (c : Nat) (g : Clu → Clu) : (modClu s c g).sec = s.sec := rfl
@[simp] theorem modClu_mng (s : State) (c : Nat) (g : Clu → Clu) : (modClu s c g).mng = s.mng := rfl
@[simp] theorem modClu_regs (s : State) (c : Nat) (g : Clu → Clu) : (modClu s c g).regs = s.regs := rfl
@[simp] theorem modClu_ctrs (s : State) (c : Nat) (g : Clu → Clu) : (modClu s c g).ctrs = s.ctrs := rfl
@[simp] theorem modClu_nowTick (s : State) (c : Nat) (g : Clu → Clu) : (modClu s c g).nowTick = s.nowTick := rfl
@[simp] theorem modClu_nowCtr (s : State) (c : Nat) (g : Clu → Clu) : (modClu s c g).nowCtr = s.nowCtr := rfl
@[simp] theorem modClu_nowSet (s : State) (c : Nat) (g : Clu → Clu) : (modClu s c g).nowSet = s.nowSet := rfl
@[simp] theorem modClu_host (s : State) (c : Nat) (g : Clu → Clu) : (modClu s c g).host = s.host := rfl
@[simp] theorem modClu_fresh (s : State) (c : Nat) (g : Clu → Clu) : (modClu s c g).fresh = s.fresh := rfl
@[simp] theorem modClu_out (s : State) (c : Nat) (g : Clu → Clu) : (modClu s c g).out = s.out := rfl
@[simp] theorem modClu_cl_slots (s : State) (c : Nat) (g : Clu → Clu) : (modClu s c g).cl.slots = s.cl.slots := rfl
@[simp] theorem modClu_cl_tiles (s : State) (c : Nat) (g : Clu → Clu) : (modClu s c g).cl.tiles = s.cl.tiles := rfl
@[simp] theorem modClu_cl_spad (s : State) (c : Nat) (g : Clu → Clu) : (modClu s c g).cl.spad = s.cl.spad := rfl
@[simp] theorem modClu_cl_spadPoi (s : State) (c : Nat) (g : Clu → Clu) : (modClu s c g).cl.spadPoi = s.cl.spadPoi := rfl
@[simp] theorem modClu_cl_spadErr (s : State) (c : Nat) (g : Clu → Clu) : (modClu s c g).cl.spadErr = s.cl.spadErr := rfl
@[simp] theorem modClu_cl_wst (s : State) (c : Nat) (g : Clu → Clu) : (modClu s c g).cl.wst = s.cl.wst := rfl
@[simp] theorem modClu_cl_wErr (s : State) (c : Nat) (g : Clu → Clu) : (modClu s c g).cl.wErr = s.cl.wErr := rfl

@[simp] theorem putSlot_pending (s : State) (c n : Nat) (v : Slot) : (putSlot s c n v).pending = s.pending := rfl
@[simp] theorem putSlot_mem (s : State) (c n : Nat) (v : Slot) : (putSlot s c n v).mem = s.mem := rfl
@[simp] theorem putSlot_hub (s : State) (c n : Nat) (v : Slot) : (putSlot s c n v).hub = s.hub := rfl
@[simp] theorem putSlot_lnk (s : State) (c n : Nat) (v : Slot) : (putSlot s c n v).lnk = s.lnk := rfl
@[simp] theorem putSlot_clock (s : State) (c n : Nat) (v : Slot) : (putSlot s c n v).clock = s.clock := rfl
@[simp] theorem putSlot_ecl (s : State) (c n : Nat) (v : Slot) : (putSlot s c n v).ecl = s.ecl := rfl
@[simp] theorem putSlot_pow (s : State) (c n : Nat) (v : Slot) : (putSlot s c n v).pow = s.pow := rfl
@[simp] theorem putSlot_fuses (s : State) (c n : Nat) (v : Slot) : (putSlot s c n v).fuses = s.fuses := rfl
@[simp] theorem putSlot_sec (s : State) (c n : Nat) (v : Slot) : (putSlot s c n v).sec = s.sec := rfl
@[simp] theorem putSlot_mng (s : State) (c n : Nat) (v : Slot) : (putSlot s c n v).mng = s.mng := rfl
@[simp] theorem putSlot_regs (s : State) (c n : Nat) (v : Slot) : (putSlot s c n v).regs = s.regs := rfl
@[simp] theorem putSlot_ctrs (s : State) (c n : Nat) (v : Slot) : (putSlot s c n v).ctrs = s.ctrs := rfl
@[simp] theorem putSlot_nowTick (s : State) (c n : Nat) (v : Slot) : (putSlot s c n v).nowTick = s.nowTick := rfl
@[simp] theorem putSlot_nowCtr (s : State) (c n : Nat) (v : Slot) : (putSlot s c n v).nowCtr = s.nowCtr := rfl
@[simp] theorem putSlot_nowSet (s : State) (c n : Nat) (v : Slot) : (putSlot s c n v).nowSet = s.nowSet := rfl
@[simp] theorem putSlot_host (s : State) (c n : Nat) (v : Slot) : (putSlot s c n v).host = s.host := rfl
@[simp] theorem putSlot_fresh (s : State) (c n : Nat) (v : Slot) : (putSlot s c n v).fresh = s.fresh := rfl
@[simp] theorem putSlot_out (s : State) (c n : Nat) (v : Slot) : (putSlot s c n v).out = s.out := rfl
@[simp] theorem putSlot_cl_clus (s : State) (c n : Nat) (v : Slot) : (putSlot s c n v).cl.clus = s.cl.clus := rfl
@[simp] theorem putSlot_cl_tiles (s : State) (c n : Nat) (v : Slot) : (putSlot s c n v).cl.tiles = s.cl.tiles := rfl
@[simp] theorem putSlot_cl_spad (s : State) (c n : Nat) (v : Slot) : (putSlot s c n v).cl.spad = s.cl.spad := rfl
@[simp] theorem putSlot_cl_spadPoi (s : State) (c n : Nat) (v : Slot) : (putSlot s c n v).cl.spadPoi = s.cl.spadPoi := rfl
@[simp] theorem putSlot_cl_spadErr (s : State) (c n : Nat) (v : Slot) : (putSlot s c n v).cl.spadErr = s.cl.spadErr := rfl
@[simp] theorem putSlot_cl_wst (s : State) (c n : Nat) (v : Slot) : (putSlot s c n v).cl.wst = s.cl.wst := rfl
@[simp] theorem putSlot_cl_wErr (s : State) (c n : Nat) (v : Slot) : (putSlot s c n v).cl.wErr = s.cl.wErr := rfl

@[simp] theorem modSlot_pending (s : State) (c n : Nat) (g : Slot → Slot) : (modSlot s c n g).pending = s.pending := rfl
@[simp] theorem modSlot_mem (s : State) (c n : Nat) (g : Slot → Slot) : (modSlot s c n g).mem = s.mem := rfl
@[simp] theorem modSlot_hub (s : State) (c n : Nat) (g : Slot → Slot) : (modSlot s c n g).hub = s.hub := rfl
@[simp] theorem modSlot_lnk (s : State) (c n : Nat) (g : Slot → Slot) : (modSlot s c n g).lnk = s.lnk := rfl
@[simp] theorem modSlot_clock (s : State) (c n : Nat) (g : Slot → Slot) : (modSlot s c n g).clock = s.clock := rfl
@[simp] theorem modSlot_ecl (s : State) (c n : Nat) (g : Slot → Slot) : (modSlot s c n g).ecl = s.ecl := rfl
@[simp] theorem modSlot_pow (s : State) (c n : Nat) (g : Slot → Slot) : (modSlot s c n g).pow = s.pow := rfl
@[simp] theorem modSlot_fuses (s : State) (c n : Nat) (g : Slot → Slot) : (modSlot s c n g).fuses = s.fuses := rfl
@[simp] theorem modSlot_sec (s : State) (c n : Nat) (g : Slot → Slot) : (modSlot s c n g).sec = s.sec := rfl
@[simp] theorem modSlot_mng (s : State) (c n : Nat) (g : Slot → Slot) : (modSlot s c n g).mng = s.mng := rfl
@[simp] theorem modSlot_regs (s : State) (c n : Nat) (g : Slot → Slot) : (modSlot s c n g).regs = s.regs := rfl
@[simp] theorem modSlot_ctrs (s : State) (c n : Nat) (g : Slot → Slot) : (modSlot s c n g).ctrs = s.ctrs := rfl
@[simp] theorem modSlot_nowTick (s : State) (c n : Nat) (g : Slot → Slot) : (modSlot s c n g).nowTick = s.nowTick := rfl
@[simp] theorem modSlot_nowCtr (s : State) (c n : Nat) (g : Slot → Slot) : (modSlot s c n g).nowCtr = s.nowCtr := rfl
@[simp] theorem modSlot_nowSet (s : State) (c n : Nat) (g : Slot → Slot) : (modSlot s c n g).nowSet = s.nowSet := rfl
@[simp] theorem modSlot_host (s : State) (c n : Nat) (g : Slot → Slot) : (modSlot s c n g).host = s.host := rfl
@[simp] theorem modSlot_fresh (s : State) (c n : Nat) (g : Slot → Slot) : (modSlot s c n g).fresh = s.fresh := rfl
@[simp] theorem modSlot_out (s : State) (c n : Nat) (g : Slot → Slot) : (modSlot s c n g).out = s.out := rfl
@[simp] theorem modSlot_cl_clus (s : State) (c n : Nat) (g : Slot → Slot) : (modSlot s c n g).cl.clus = s.cl.clus := rfl
@[simp] theorem modSlot_cl_tiles (s : State) (c n : Nat) (g : Slot → Slot) : (modSlot s c n g).cl.tiles = s.cl.tiles := rfl
@[simp] theorem modSlot_cl_spad (s : State) (c n : Nat) (g : Slot → Slot) : (modSlot s c n g).cl.spad = s.cl.spad := rfl
@[simp] theorem modSlot_cl_spadPoi (s : State) (c n : Nat) (g : Slot → Slot) : (modSlot s c n g).cl.spadPoi = s.cl.spadPoi := rfl
@[simp] theorem modSlot_cl_spadErr (s : State) (c n : Nat) (g : Slot → Slot) : (modSlot s c n g).cl.spadErr = s.cl.spadErr := rfl
@[simp] theorem modSlot_cl_wst (s : State) (c n : Nat) (g : Slot → Slot) : (modSlot s c n g).cl.wst = s.cl.wst := rfl
@[simp] theorem modSlot_cl_wErr (s : State) (c n : Nat) (g : Slot → Slot) : (modSlot s c n g).cl.wErr = s.cl.wErr := rfl

@[simp] theorem putTile_pending (s : State) (c t : Nat) (v : WTile) : (putTile s c t v).pending = s.pending := rfl
@[simp] theorem putTile_mem (s : State) (c t : Nat) (v : WTile) : (putTile s c t v).mem = s.mem := rfl
@[simp] theorem putTile_hub (s : State) (c t : Nat) (v : WTile) : (putTile s c t v).hub = s.hub := rfl
@[simp] theorem putTile_lnk (s : State) (c t : Nat) (v : WTile) : (putTile s c t v).lnk = s.lnk := rfl
@[simp] theorem putTile_clock (s : State) (c t : Nat) (v : WTile) : (putTile s c t v).clock = s.clock := rfl
@[simp] theorem putTile_ecl (s : State) (c t : Nat) (v : WTile) : (putTile s c t v).ecl = s.ecl := rfl
@[simp] theorem putTile_pow (s : State) (c t : Nat) (v : WTile) : (putTile s c t v).pow = s.pow := rfl
@[simp] theorem putTile_fuses (s : State) (c t : Nat) (v : WTile) : (putTile s c t v).fuses = s.fuses := rfl
@[simp] theorem putTile_sec (s : State) (c t : Nat) (v : WTile) : (putTile s c t v).sec = s.sec := rfl
@[simp] theorem putTile_mng (s : State) (c t : Nat) (v : WTile) : (putTile s c t v).mng = s.mng := rfl
@[simp] theorem putTile_regs (s : State) (c t : Nat) (v : WTile) : (putTile s c t v).regs = s.regs := rfl
@[simp] theorem putTile_ctrs (s : State) (c t : Nat) (v : WTile) : (putTile s c t v).ctrs = s.ctrs := rfl
@[simp] theorem putTile_nowTick (s : State) (c t : Nat) (v : WTile) : (putTile s c t v).nowTick = s.nowTick := rfl
@[simp] theorem putTile_nowCtr (s : State) (c t : Nat) (v : WTile) : (putTile s c t v).nowCtr = s.nowCtr := rfl
@[simp] theorem putTile_nowSet (s : State) (c t : Nat) (v : WTile) : (putTile s c t v).nowSet = s.nowSet := rfl
@[simp] theorem putTile_host (s : State) (c t : Nat) (v : WTile) : (putTile s c t v).host = s.host := rfl
@[simp] theorem putTile_fresh (s : State) (c t : Nat) (v : WTile) : (putTile s c t v).fresh = s.fresh := rfl
@[simp] theorem putTile_out (s : State) (c t : Nat) (v : WTile) : (putTile s c t v).out = s.out := rfl
@[simp] theorem putTile_cl_clus (s : State) (c t : Nat) (v : WTile) : (putTile s c t v).cl.clus = s.cl.clus := rfl
@[simp] theorem putTile_cl_slots (s : State) (c t : Nat) (v : WTile) : (putTile s c t v).cl.slots = s.cl.slots := rfl
@[simp] theorem putTile_cl_spad (s : State) (c t : Nat) (v : WTile) : (putTile s c t v).cl.spad = s.cl.spad := rfl
@[simp] theorem putTile_cl_spadPoi (s : State) (c t : Nat) (v : WTile) : (putTile s c t v).cl.spadPoi = s.cl.spadPoi := rfl
@[simp] theorem putTile_cl_spadErr (s : State) (c t : Nat) (v : WTile) : (putTile s c t v).cl.spadErr = s.cl.spadErr := rfl
@[simp] theorem putTile_cl_wst (s : State) (c t : Nat) (v : WTile) : (putTile s c t v).cl.wst = s.cl.wst := rfl
@[simp] theorem putTile_cl_wErr (s : State) (c t : Nat) (v : WTile) : (putTile s c t v).cl.wErr = s.cl.wErr := rfl

/-! ### The parts of the hub -/

@[simp] theorem modFunc_pending (s : State) (f : Nat) (g : Func → Func) : (modFunc s f g).pending = s.pending := rfl
@[simp] theorem modFunc_cl (s : State) (f : Nat) (g : Func → Func) : (modFunc s f g).cl = s.cl := rfl
@[simp] theorem modFunc_mem (s : State) (f : Nat) (g : Func → Func) : (modFunc s f g).mem = s.mem := rfl
@[simp] theorem modFunc_lnk (s : State) (f : Nat) (g : Func → Func) : (modFunc s f g).lnk = s.lnk := rfl
@[simp] theorem modFunc_clock (s : State) (f : Nat) (g : Func → Func) : (modFunc s f g).clock = s.clock := rfl
@[simp] theorem modFunc_ecl (s : State) (f : Nat) (g : Func → Func) : (modFunc s f g).ecl = s.ecl := rfl
@[simp] theorem modFunc_pow (s : State) (f : Nat) (g : Func → Func) : (modFunc s f g).pow = s.pow := rfl
@[simp] theorem modFunc_fuses (s : State) (f : Nat) (g : Func → Func) : (modFunc s f g).fuses = s.fuses := rfl
@[simp] theorem modFunc_sec (s : State) (f : Nat) (g : Func → Func) : (modFunc s f g).sec = s.sec := rfl
@[simp] theorem modFunc_mng (s : State) (f : Nat) (g : Func → Func) : (modFunc s f g).mng = s.mng := rfl
@[simp] theorem modFunc_regs (s : State) (f : Nat) (g : Func → Func) : (modFunc s f g).regs = s.regs := rfl
@[simp] theorem modFunc_ctrs (s : State) (f : Nat) (g : Func → Func) : (modFunc s f g).ctrs = s.ctrs := rfl
@[simp] theorem modFunc_nowTick (s : State) (f : Nat) (g : Func → Func) : (modFunc s f g).nowTick = s.nowTick := rfl
@[simp] theorem modFunc_nowCtr (s : State) (f : Nat) (g : Func → Func) : (modFunc s f g).nowCtr = s.nowCtr := rfl
@[simp] theorem modFunc_nowSet (s : State) (f : Nat) (g : Func → Func) : (modFunc s f g).nowSet = s.nowSet := rfl
@[simp] theorem modFunc_host (s : State) (f : Nat) (g : Func → Func) : (modFunc s f g).host = s.host := rfl
@[simp] theorem modFunc_fresh (s : State) (f : Nat) (g : Func → Func) : (modFunc s f g).fresh = s.fresh := rfl
@[simp] theorem modFunc_out (s : State) (f : Nat) (g : Func → Func) : (modFunc s f g).out = s.out := rfl
@[simp] theorem modFunc_hub_queues (s : State) (f : Nat) (g : Func → Func) : (modFunc s f g).hub.queues = s.hub.queues := rfl
@[simp] theorem modFunc_hub_rings (s : State) (f : Nat) (g : Func → Func) : (modFunc s f g).hub.rings = s.hub.rings := rfl
@[simp] theorem modFunc_hub_items (s : State) (f : Nat) (g : Func → Func) : (modFunc s f g).hub.items = s.hub.items := rfl
@[simp] theorem modFunc_hub_nextItem (s : State) (f : Nat) (g : Func → Func) : (modFunc s f g).hub.nextItem = s.hub.nextItem := rfl
@[simp] theorem modFunc_hub_regions (s : State) (f : Nat) (g : Func → Func) : (modFunc s f g).hub.regions = s.hub.regions := rfl
@[simp] theorem modFunc_hub_ctxs (s : State) (f : Nat) (g : Func → Func) : (modFunc s f g).hub.ctxs = s.hub.ctxs := rfl
@[simp] theorem modFunc_hub_nextCtx (s : State) (f : Nat) (g : Func → Func) : (modFunc s f g).hub.nextCtx = s.hub.nextCtx := rfl
@[simp] theorem modFunc_hub_insts (s : State) (f : Nat) (g : Func → Func) : (modFunc s f g).hub.insts = s.hub.insts := rfl
@[simp] theorem modFunc_hub_bindings (s : State) (f : Nat) (g : Func → Func) : (modFunc s f g).hub.bindings = s.hub.bindings := rfl
@[simp] theorem modFunc_hub_reports (s : State) (f : Nat) (g : Func → Func) : (modFunc s f g).hub.reports = s.hub.reports := rfl
@[simp] theorem modFunc_hub_ended (s : State) (f : Nat) (g : Func → Func) : (modFunc s f g).hub.ended = s.hub.ended := rfl
@[simp] theorem modFunc_hub_loads (s : State) (f : Nat) (g : Func → Func) : (modFunc s f g).hub.loads = s.hub.loads := rfl
@[simp] theorem modFunc_hub_loadQ (s : State) (f : Nat) (g : Func → Func) : (modFunc s f g).hub.loadQ = s.hub.loadQ := rfl
@[simp] theorem modFunc_hub_nextLoad (s : State) (f : Nat) (g : Func → Func) : (modFunc s f g).hub.nextLoad = s.hub.nextLoad := rfl
@[simp] theorem modFunc_hub_mbx (s : State) (f : Nat) (g : Func → Func) : (modFunc s f g).hub.mbx = s.hub.mbx := rfl
@[simp] theorem modFunc_hub_rsvCount (s : State) (f : Nat) (g : Func → Func) : (modFunc s f g).hub.rsvCount = s.hub.rsvCount := rfl
@[simp] theorem modFunc_hub_rsvRefused (s : State) (f : Nat) (g : Func → Func) : (modFunc s f g).hub.rsvRefused = s.hub.rsvRefused := rfl
@[simp] theorem modFunc_hub_rmap (s : State) (f : Nat) (g : Func → Func) : (modFunc s f g).hub.rmap = s.hub.rmap := rfl
@[simp] theorem modFunc_hub_rsrc (s : State) (f : Nat) (g : Func → Func) : (modFunc s f g).hub.rsrc = s.hub.rsrc := rfl
@[simp] theorem modFunc_hub_grants (s : State) (f : Nat) (g : Func → Func) : (modFunc s f g).hub.grants = s.hub.grants := rfl
@[simp] theorem modFunc_hub_grantPend (s : State) (f : Nat) (g : Func → Func) : (modFunc s f g).hub.grantPend = s.hub.grantPend := rfl
@[simp] theorem modFunc_hub_grantRefused (s : State) (f : Nat) (g : Func → Func) : (modFunc s f g).hub.grantRefused = s.hub.grantRefused := rfl
@[simp] theorem modFunc_hub_winPend (s : State) (f : Nat) (g : Func → Func) : (modFunc s f g).hub.winPend = s.hub.winPend := rfl
@[simp] theorem modFunc_hub_winRefused (s : State) (f : Nat) (g : Func → Func) : (modFunc s f g).hub.winRefused = s.hub.winRefused := rfl
@[simp] theorem modFunc_hub_winReason (s : State) (f : Nat) (g : Func → Func) : (modFunc s f g).hub.winReason = s.hub.winReason := rfl
@[simp] theorem modFunc_hub_qaRefused (s : State) (f : Nat) (g : Func → Func) : (modFunc s f g).hub.qaRefused = s.hub.qaRefused := rfl
@[simp] theorem modFunc_hub_rrF (s : State) (f : Nat) (g : Func → Func) : (modFunc s f g).hub.rrF = s.hub.rrF := rfl
@[simp] theorem modFunc_hub_rrQ (s : State) (f : Nat) (g : Func → Func) : (modFunc s f g).hub.rrQ = s.hub.rrQ := rfl
@[simp] theorem modFunc_hub_numVfs (s : State) (f : Nat) (g : Func → Func) : (modFunc s f g).hub.numVfs = s.hub.numVfs := rfl
@[simp] theorem modFunc_hub_xfers (s : State) (f : Nat) (g : Func → Func) : (modFunc s f g).hub.xfers = s.hub.xfers := rfl
@[simp] theorem modFunc_hub_nextXfer (s : State) (f : Nat) (g : Func → Func) : (modFunc s f g).hub.nextXfer = s.hub.nextXfer := rfl
@[simp] theorem modFunc_hub_fenced (s : State) (f : Nat) (g : Func → Func) : (modFunc s f g).hub.fenced = s.hub.fenced := rfl
@[simp] theorem modFunc_hub_fenceRefused (s : State) (f : Nat) (g : Func → Func) : (modFunc s f g).hub.fenceRefused = s.hub.fenceRefused := rfl

@[simp] theorem modQueue_pending (s : State) (f q : Nat) (g : Queue → Queue) : (modQueue s f q g).pending = s.pending := rfl
@[simp] theorem modQueue_cl (s : State) (f q : Nat) (g : Queue → Queue) : (modQueue s f q g).cl = s.cl := rfl
@[simp] theorem modQueue_mem (s : State) (f q : Nat) (g : Queue → Queue) : (modQueue s f q g).mem = s.mem := rfl
@[simp] theorem modQueue_lnk (s : State) (f q : Nat) (g : Queue → Queue) : (modQueue s f q g).lnk = s.lnk := rfl
@[simp] theorem modQueue_clock (s : State) (f q : Nat) (g : Queue → Queue) : (modQueue s f q g).clock = s.clock := rfl
@[simp] theorem modQueue_ecl (s : State) (f q : Nat) (g : Queue → Queue) : (modQueue s f q g).ecl = s.ecl := rfl
@[simp] theorem modQueue_pow (s : State) (f q : Nat) (g : Queue → Queue) : (modQueue s f q g).pow = s.pow := rfl
@[simp] theorem modQueue_fuses (s : State) (f q : Nat) (g : Queue → Queue) : (modQueue s f q g).fuses = s.fuses := rfl
@[simp] theorem modQueue_sec (s : State) (f q : Nat) (g : Queue → Queue) : (modQueue s f q g).sec = s.sec := rfl
@[simp] theorem modQueue_mng (s : State) (f q : Nat) (g : Queue → Queue) : (modQueue s f q g).mng = s.mng := rfl
@[simp] theorem modQueue_regs (s : State) (f q : Nat) (g : Queue → Queue) : (modQueue s f q g).regs = s.regs := rfl
@[simp] theorem modQueue_ctrs (s : State) (f q : Nat) (g : Queue → Queue) : (modQueue s f q g).ctrs = s.ctrs := rfl
@[simp] theorem modQueue_nowTick (s : State) (f q : Nat) (g : Queue → Queue) : (modQueue s f q g).nowTick = s.nowTick := rfl
@[simp] theorem modQueue_nowCtr (s : State) (f q : Nat) (g : Queue → Queue) : (modQueue s f q g).nowCtr = s.nowCtr := rfl
@[simp] theorem modQueue_nowSet (s : State) (f q : Nat) (g : Queue → Queue) : (modQueue s f q g).nowSet = s.nowSet := rfl
@[simp] theorem modQueue_host (s : State) (f q : Nat) (g : Queue → Queue) : (modQueue s f q g).host = s.host := rfl
@[simp] theorem modQueue_fresh (s : State) (f q : Nat) (g : Queue → Queue) : (modQueue s f q g).fresh = s.fresh := rfl
@[simp] theorem modQueue_out (s : State) (f q : Nat) (g : Queue → Queue) : (modQueue s f q g).out = s.out := rfl
@[simp] theorem modQueue_hub_funcs (s : State) (f q : Nat) (g : Queue → Queue) : (modQueue s f q g).hub.funcs = s.hub.funcs := rfl
@[simp] theorem modQueue_hub_rings (s : State) (f q : Nat) (g : Queue → Queue) : (modQueue s f q g).hub.rings = s.hub.rings := rfl
@[simp] theorem modQueue_hub_items (s : State) (f q : Nat) (g : Queue → Queue) : (modQueue s f q g).hub.items = s.hub.items := rfl
@[simp] theorem modQueue_hub_nextItem (s : State) (f q : Nat) (g : Queue → Queue) : (modQueue s f q g).hub.nextItem = s.hub.nextItem := rfl
@[simp] theorem modQueue_hub_regions (s : State) (f q : Nat) (g : Queue → Queue) : (modQueue s f q g).hub.regions = s.hub.regions := rfl
@[simp] theorem modQueue_hub_ctxs (s : State) (f q : Nat) (g : Queue → Queue) : (modQueue s f q g).hub.ctxs = s.hub.ctxs := rfl
@[simp] theorem modQueue_hub_nextCtx (s : State) (f q : Nat) (g : Queue → Queue) : (modQueue s f q g).hub.nextCtx = s.hub.nextCtx := rfl
@[simp] theorem modQueue_hub_insts (s : State) (f q : Nat) (g : Queue → Queue) : (modQueue s f q g).hub.insts = s.hub.insts := rfl
@[simp] theorem modQueue_hub_bindings (s : State) (f q : Nat) (g : Queue → Queue) : (modQueue s f q g).hub.bindings = s.hub.bindings := rfl
@[simp] theorem modQueue_hub_reports (s : State) (f q : Nat) (g : Queue → Queue) : (modQueue s f q g).hub.reports = s.hub.reports := rfl
@[simp] theorem modQueue_hub_ended (s : State) (f q : Nat) (g : Queue → Queue) : (modQueue s f q g).hub.ended = s.hub.ended := rfl
@[simp] theorem modQueue_hub_loads (s : State) (f q : Nat) (g : Queue → Queue) : (modQueue s f q g).hub.loads = s.hub.loads := rfl
@[simp] theorem modQueue_hub_loadQ (s : State) (f q : Nat) (g : Queue → Queue) : (modQueue s f q g).hub.loadQ = s.hub.loadQ := rfl
@[simp] theorem modQueue_hub_nextLoad (s : State) (f q : Nat) (g : Queue → Queue) : (modQueue s f q g).hub.nextLoad = s.hub.nextLoad := rfl
@[simp] theorem modQueue_hub_mbx (s : State) (f q : Nat) (g : Queue → Queue) : (modQueue s f q g).hub.mbx = s.hub.mbx := rfl
@[simp] theorem modQueue_hub_rsvCount (s : State) (f q : Nat) (g : Queue → Queue) : (modQueue s f q g).hub.rsvCount = s.hub.rsvCount := rfl
@[simp] theorem modQueue_hub_rsvRefused (s : State) (f q : Nat) (g : Queue → Queue) : (modQueue s f q g).hub.rsvRefused = s.hub.rsvRefused := rfl
@[simp] theorem modQueue_hub_rmap (s : State) (f q : Nat) (g : Queue → Queue) : (modQueue s f q g).hub.rmap = s.hub.rmap := rfl
@[simp] theorem modQueue_hub_rsrc (s : State) (f q : Nat) (g : Queue → Queue) : (modQueue s f q g).hub.rsrc = s.hub.rsrc := rfl
@[simp] theorem modQueue_hub_grants (s : State) (f q : Nat) (g : Queue → Queue) : (modQueue s f q g).hub.grants = s.hub.grants := rfl
@[simp] theorem modQueue_hub_grantPend (s : State) (f q : Nat) (g : Queue → Queue) : (modQueue s f q g).hub.grantPend = s.hub.grantPend := rfl
@[simp] theorem modQueue_hub_grantRefused (s : State) (f q : Nat) (g : Queue → Queue) : (modQueue s f q g).hub.grantRefused = s.hub.grantRefused := rfl
@[simp] theorem modQueue_hub_winPend (s : State) (f q : Nat) (g : Queue → Queue) : (modQueue s f q g).hub.winPend = s.hub.winPend := rfl
@[simp] theorem modQueue_hub_winRefused (s : State) (f q : Nat) (g : Queue → Queue) : (modQueue s f q g).hub.winRefused = s.hub.winRefused := rfl
@[simp] theorem modQueue_hub_winReason (s : State) (f q : Nat) (g : Queue → Queue) : (modQueue s f q g).hub.winReason = s.hub.winReason := rfl
@[simp] theorem modQueue_hub_qaRefused (s : State) (f q : Nat) (g : Queue → Queue) : (modQueue s f q g).hub.qaRefused = s.hub.qaRefused := rfl
@[simp] theorem modQueue_hub_rrF (s : State) (f q : Nat) (g : Queue → Queue) : (modQueue s f q g).hub.rrF = s.hub.rrF := rfl
@[simp] theorem modQueue_hub_rrQ (s : State) (f q : Nat) (g : Queue → Queue) : (modQueue s f q g).hub.rrQ = s.hub.rrQ := rfl
@[simp] theorem modQueue_hub_numVfs (s : State) (f q : Nat) (g : Queue → Queue) : (modQueue s f q g).hub.numVfs = s.hub.numVfs := rfl
@[simp] theorem modQueue_hub_xfers (s : State) (f q : Nat) (g : Queue → Queue) : (modQueue s f q g).hub.xfers = s.hub.xfers := rfl
@[simp] theorem modQueue_hub_nextXfer (s : State) (f q : Nat) (g : Queue → Queue) : (modQueue s f q g).hub.nextXfer = s.hub.nextXfer := rfl
@[simp] theorem modQueue_hub_fenced (s : State) (f q : Nat) (g : Queue → Queue) : (modQueue s f q g).hub.fenced = s.hub.fenced := rfl
@[simp] theorem modQueue_hub_fenceRefused (s : State) (f q : Nat) (g : Queue → Queue) : (modQueue s f q g).hub.fenceRefused = s.hub.fenceRefused := rfl

@[simp] theorem modRing_pending (s : State) (f r : Nat) (g : Ring → Ring) : (modRing s f r g).pending = s.pending := rfl
@[simp] theorem modRing_cl (s : State) (f r : Nat) (g : Ring → Ring) : (modRing s f r g).cl = s.cl := rfl
@[simp] theorem modRing_mem (s : State) (f r : Nat) (g : Ring → Ring) : (modRing s f r g).mem = s.mem := rfl
@[simp] theorem modRing_lnk (s : State) (f r : Nat) (g : Ring → Ring) : (modRing s f r g).lnk = s.lnk := rfl
@[simp] theorem modRing_clock (s : State) (f r : Nat) (g : Ring → Ring) : (modRing s f r g).clock = s.clock := rfl
@[simp] theorem modRing_ecl (s : State) (f r : Nat) (g : Ring → Ring) : (modRing s f r g).ecl = s.ecl := rfl
@[simp] theorem modRing_pow (s : State) (f r : Nat) (g : Ring → Ring) : (modRing s f r g).pow = s.pow := rfl
@[simp] theorem modRing_fuses (s : State) (f r : Nat) (g : Ring → Ring) : (modRing s f r g).fuses = s.fuses := rfl
@[simp] theorem modRing_sec (s : State) (f r : Nat) (g : Ring → Ring) : (modRing s f r g).sec = s.sec := rfl
@[simp] theorem modRing_mng (s : State) (f r : Nat) (g : Ring → Ring) : (modRing s f r g).mng = s.mng := rfl
@[simp] theorem modRing_regs (s : State) (f r : Nat) (g : Ring → Ring) : (modRing s f r g).regs = s.regs := rfl
@[simp] theorem modRing_ctrs (s : State) (f r : Nat) (g : Ring → Ring) : (modRing s f r g).ctrs = s.ctrs := rfl
@[simp] theorem modRing_nowTick (s : State) (f r : Nat) (g : Ring → Ring) : (modRing s f r g).nowTick = s.nowTick := rfl
@[simp] theorem modRing_nowCtr (s : State) (f r : Nat) (g : Ring → Ring) : (modRing s f r g).nowCtr = s.nowCtr := rfl
@[simp] theorem modRing_nowSet (s : State) (f r : Nat) (g : Ring → Ring) : (modRing s f r g).nowSet = s.nowSet := rfl
@[simp] theorem modRing_host (s : State) (f r : Nat) (g : Ring → Ring) : (modRing s f r g).host = s.host := rfl
@[simp] theorem modRing_fresh (s : State) (f r : Nat) (g : Ring → Ring) : (modRing s f r g).fresh = s.fresh := rfl
@[simp] theorem modRing_out (s : State) (f r : Nat) (g : Ring → Ring) : (modRing s f r g).out = s.out := rfl
@[simp] theorem modRing_hub_funcs (s : State) (f r : Nat) (g : Ring → Ring) : (modRing s f r g).hub.funcs = s.hub.funcs := rfl
@[simp] theorem modRing_hub_queues (s : State) (f r : Nat) (g : Ring → Ring) : (modRing s f r g).hub.queues = s.hub.queues := rfl
@[simp] theorem modRing_hub_items (s : State) (f r : Nat) (g : Ring → Ring) : (modRing s f r g).hub.items = s.hub.items := rfl
@[simp] theorem modRing_hub_nextItem (s : State) (f r : Nat) (g : Ring → Ring) : (modRing s f r g).hub.nextItem = s.hub.nextItem := rfl
@[simp] theorem modRing_hub_regions (s : State) (f r : Nat) (g : Ring → Ring) : (modRing s f r g).hub.regions = s.hub.regions := rfl
@[simp] theorem modRing_hub_ctxs (s : State) (f r : Nat) (g : Ring → Ring) : (modRing s f r g).hub.ctxs = s.hub.ctxs := rfl
@[simp] theorem modRing_hub_nextCtx (s : State) (f r : Nat) (g : Ring → Ring) : (modRing s f r g).hub.nextCtx = s.hub.nextCtx := rfl
@[simp] theorem modRing_hub_insts (s : State) (f r : Nat) (g : Ring → Ring) : (modRing s f r g).hub.insts = s.hub.insts := rfl
@[simp] theorem modRing_hub_bindings (s : State) (f r : Nat) (g : Ring → Ring) : (modRing s f r g).hub.bindings = s.hub.bindings := rfl
@[simp] theorem modRing_hub_reports (s : State) (f r : Nat) (g : Ring → Ring) : (modRing s f r g).hub.reports = s.hub.reports := rfl
@[simp] theorem modRing_hub_ended (s : State) (f r : Nat) (g : Ring → Ring) : (modRing s f r g).hub.ended = s.hub.ended := rfl
@[simp] theorem modRing_hub_loads (s : State) (f r : Nat) (g : Ring → Ring) : (modRing s f r g).hub.loads = s.hub.loads := rfl
@[simp] theorem modRing_hub_loadQ (s : State) (f r : Nat) (g : Ring → Ring) : (modRing s f r g).hub.loadQ = s.hub.loadQ := rfl
@[simp] theorem modRing_hub_nextLoad (s : State) (f r : Nat) (g : Ring → Ring) : (modRing s f r g).hub.nextLoad = s.hub.nextLoad := rfl
@[simp] theorem modRing_hub_mbx (s : State) (f r : Nat) (g : Ring → Ring) : (modRing s f r g).hub.mbx = s.hub.mbx := rfl
@[simp] theorem modRing_hub_rsvCount (s : State) (f r : Nat) (g : Ring → Ring) : (modRing s f r g).hub.rsvCount = s.hub.rsvCount := rfl
@[simp] theorem modRing_hub_rsvRefused (s : State) (f r : Nat) (g : Ring → Ring) : (modRing s f r g).hub.rsvRefused = s.hub.rsvRefused := rfl
@[simp] theorem modRing_hub_rmap (s : State) (f r : Nat) (g : Ring → Ring) : (modRing s f r g).hub.rmap = s.hub.rmap := rfl
@[simp] theorem modRing_hub_rsrc (s : State) (f r : Nat) (g : Ring → Ring) : (modRing s f r g).hub.rsrc = s.hub.rsrc := rfl
@[simp] theorem modRing_hub_grants (s : State) (f r : Nat) (g : Ring → Ring) : (modRing s f r g).hub.grants = s.hub.grants := rfl
@[simp] theorem modRing_hub_grantPend (s : State) (f r : Nat) (g : Ring → Ring) : (modRing s f r g).hub.grantPend = s.hub.grantPend := rfl
@[simp] theorem modRing_hub_grantRefused (s : State) (f r : Nat) (g : Ring → Ring) : (modRing s f r g).hub.grantRefused = s.hub.grantRefused := rfl
@[simp] theorem modRing_hub_winPend (s : State) (f r : Nat) (g : Ring → Ring) : (modRing s f r g).hub.winPend = s.hub.winPend := rfl
@[simp] theorem modRing_hub_winRefused (s : State) (f r : Nat) (g : Ring → Ring) : (modRing s f r g).hub.winRefused = s.hub.winRefused := rfl
@[simp] theorem modRing_hub_winReason (s : State) (f r : Nat) (g : Ring → Ring) : (modRing s f r g).hub.winReason = s.hub.winReason := rfl
@[simp] theorem modRing_hub_qaRefused (s : State) (f r : Nat) (g : Ring → Ring) : (modRing s f r g).hub.qaRefused = s.hub.qaRefused := rfl
@[simp] theorem modRing_hub_rrF (s : State) (f r : Nat) (g : Ring → Ring) : (modRing s f r g).hub.rrF = s.hub.rrF := rfl
@[simp] theorem modRing_hub_rrQ (s : State) (f r : Nat) (g : Ring → Ring) : (modRing s f r g).hub.rrQ = s.hub.rrQ := rfl
@[simp] theorem modRing_hub_numVfs (s : State) (f r : Nat) (g : Ring → Ring) : (modRing s f r g).hub.numVfs = s.hub.numVfs := rfl
@[simp] theorem modRing_hub_xfers (s : State) (f r : Nat) (g : Ring → Ring) : (modRing s f r g).hub.xfers = s.hub.xfers := rfl
@[simp] theorem modRing_hub_nextXfer (s : State) (f r : Nat) (g : Ring → Ring) : (modRing s f r g).hub.nextXfer = s.hub.nextXfer := rfl
@[simp] theorem modRing_hub_fenced (s : State) (f r : Nat) (g : Ring → Ring) : (modRing s f r g).hub.fenced = s.hub.fenced := rfl
@[simp] theorem modRing_hub_fenceRefused (s : State) (f r : Nat) (g : Ring → Ring) : (modRing s f r g).hub.fenceRefused = s.hub.fenceRefused := rfl

@[simp] theorem modRegion_pending (s : State) (r : Nat) (g : Region → Region) : (modRegion s r g).pending = s.pending := by
  unfold modRegion; split <;> rfl
@[simp] theorem modRegion_cl (s : State) (r : Nat) (g : Region → Region) : (modRegion s r g).cl = s.cl := by
  unfold modRegion; split <;> rfl
@[simp] theorem modRegion_mem (s : State) (r : Nat) (g : Region → Region) : (modRegion s r g).mem = s.mem := by
  unfold modRegion; split <;> rfl
@[simp] theorem modRegion_lnk (s : State) (r : Nat) (g : Region → Region) : (modRegion s r g).lnk = s.lnk := by
  unfold modRegion; split <;> rfl
@[simp] theorem modRegion_clock (s : State) (r : Nat) (g : Region → Region) : (modRegion s r g).clock = s.clock := by
  unfold modRegion; split <;> rfl
@[simp] theorem modRegion_ecl (s : State) (r : Nat) (g : Region → Region) : (modRegion s r g).ecl = s.ecl := by
  unfold modRegion; split <;> rfl
@[simp] theorem modRegion_pow (s : State) (r : Nat) (g : Region → Region) : (modRegion s r g).pow = s.pow := by
  unfold modRegion; split <;> rfl
@[simp] theorem modRegion_fuses (s : State) (r : Nat) (g : Region → Region) : (modRegion s r g).fuses = s.fuses := by
  unfold modRegion; split <;> rfl
@[simp] theorem modRegion_sec (s : State) (r : Nat) (g : Region → Region) : (modRegion s r g).sec = s.sec := by
  unfold modRegion; split <;> rfl
@[simp] theorem modRegion_mng (s : State) (r : Nat) (g : Region → Region) : (modRegion s r g).mng = s.mng := by
  unfold modRegion; split <;> rfl
@[simp] theorem modRegion_regs (s : State) (r : Nat) (g : Region → Region) : (modRegion s r g).regs = s.regs := by
  unfold modRegion; split <;> rfl
@[simp] theorem modRegion_ctrs (s : State) (r : Nat) (g : Region → Region) : (modRegion s r g).ctrs = s.ctrs := by
  unfold modRegion; split <;> rfl
@[simp] theorem modRegion_nowTick (s : State) (r : Nat) (g : Region → Region) : (modRegion s r g).nowTick = s.nowTick := by
  unfold modRegion; split <;> rfl
@[simp] theorem modRegion_nowCtr (s : State) (r : Nat) (g : Region → Region) : (modRegion s r g).nowCtr = s.nowCtr := by
  unfold modRegion; split <;> rfl
@[simp] theorem modRegion_nowSet (s : State) (r : Nat) (g : Region → Region) : (modRegion s r g).nowSet = s.nowSet := by
  unfold modRegion; split <;> rfl
@[simp] theorem modRegion_host (s : State) (r : Nat) (g : Region → Region) : (modRegion s r g).host = s.host := by
  unfold modRegion; split <;> rfl
@[simp] theorem modRegion_fresh (s : State) (r : Nat) (g : Region → Region) : (modRegion s r g).fresh = s.fresh := by
  unfold modRegion; split <;> rfl
@[simp] theorem modRegion_out (s : State) (r : Nat) (g : Region → Region) : (modRegion s r g).out = s.out := by
  unfold modRegion; split <;> rfl
@[simp] theorem modRegion_hub_funcs (s : State) (r : Nat) (g : Region → Region) : (modRegion s r g).hub.funcs = s.hub.funcs := by
  unfold modRegion; split <;> rfl
@[simp] theorem modRegion_hub_queues (s : State) (r : Nat) (g : Region → Region) : (modRegion s r g).hub.queues = s.hub.queues := by
  unfold modRegion; split <;> rfl
@[simp] theorem modRegion_hub_rings (s : State) (r : Nat) (g : Region → Region) : (modRegion s r g).hub.rings = s.hub.rings := by
  unfold modRegion; split <;> rfl
@[simp] theorem modRegion_hub_items (s : State) (r : Nat) (g : Region → Region) : (modRegion s r g).hub.items = s.hub.items := by
  unfold modRegion; split <;> rfl
@[simp] theorem modRegion_hub_nextItem (s : State) (r : Nat) (g : Region → Region) : (modRegion s r g).hub.nextItem = s.hub.nextItem := by
  unfold modRegion; split <;> rfl
@[simp] theorem modRegion_hub_ctxs (s : State) (r : Nat) (g : Region → Region) : (modRegion s r g).hub.ctxs = s.hub.ctxs := by
  unfold modRegion; split <;> rfl
@[simp] theorem modRegion_hub_nextCtx (s : State) (r : Nat) (g : Region → Region) : (modRegion s r g).hub.nextCtx = s.hub.nextCtx := by
  unfold modRegion; split <;> rfl
@[simp] theorem modRegion_hub_insts (s : State) (r : Nat) (g : Region → Region) : (modRegion s r g).hub.insts = s.hub.insts := by
  unfold modRegion; split <;> rfl
@[simp] theorem modRegion_hub_bindings (s : State) (r : Nat) (g : Region → Region) : (modRegion s r g).hub.bindings = s.hub.bindings := by
  unfold modRegion; split <;> rfl
@[simp] theorem modRegion_hub_reports (s : State) (r : Nat) (g : Region → Region) : (modRegion s r g).hub.reports = s.hub.reports := by
  unfold modRegion; split <;> rfl
@[simp] theorem modRegion_hub_ended (s : State) (r : Nat) (g : Region → Region) : (modRegion s r g).hub.ended = s.hub.ended := by
  unfold modRegion; split <;> rfl
@[simp] theorem modRegion_hub_loads (s : State) (r : Nat) (g : Region → Region) : (modRegion s r g).hub.loads = s.hub.loads := by
  unfold modRegion; split <;> rfl
@[simp] theorem modRegion_hub_loadQ (s : State) (r : Nat) (g : Region → Region) : (modRegion s r g).hub.loadQ = s.hub.loadQ := by
  unfold modRegion; split <;> rfl
@[simp] theorem modRegion_hub_nextLoad (s : State) (r : Nat) (g : Region → Region) : (modRegion s r g).hub.nextLoad = s.hub.nextLoad := by
  unfold modRegion; split <;> rfl
@[simp] theorem modRegion_hub_mbx (s : State) (r : Nat) (g : Region → Region) : (modRegion s r g).hub.mbx = s.hub.mbx := by
  unfold modRegion; split <;> rfl
@[simp] theorem modRegion_hub_rsvCount (s : State) (r : Nat) (g : Region → Region) : (modRegion s r g).hub.rsvCount = s.hub.rsvCount := by
  unfold modRegion; split <;> rfl
@[simp] theorem modRegion_hub_rsvRefused (s : State) (r : Nat) (g : Region → Region) : (modRegion s r g).hub.rsvRefused = s.hub.rsvRefused := by
  unfold modRegion; split <;> rfl
@[simp] theorem modRegion_hub_rmap (s : State) (r : Nat) (g : Region → Region) : (modRegion s r g).hub.rmap = s.hub.rmap := by
  unfold modRegion; split <;> rfl
@[simp] theorem modRegion_hub_rsrc (s : State) (r : Nat) (g : Region → Region) : (modRegion s r g).hub.rsrc = s.hub.rsrc := by
  unfold modRegion; split <;> rfl
@[simp] theorem modRegion_hub_grants (s : State) (r : Nat) (g : Region → Region) : (modRegion s r g).hub.grants = s.hub.grants := by
  unfold modRegion; split <;> rfl
@[simp] theorem modRegion_hub_grantPend (s : State) (r : Nat) (g : Region → Region) : (modRegion s r g).hub.grantPend = s.hub.grantPend := by
  unfold modRegion; split <;> rfl
@[simp] theorem modRegion_hub_grantRefused (s : State) (r : Nat) (g : Region → Region) : (modRegion s r g).hub.grantRefused = s.hub.grantRefused := by
  unfold modRegion; split <;> rfl
@[simp] theorem modRegion_hub_winPend (s : State) (r : Nat) (g : Region → Region) : (modRegion s r g).hub.winPend = s.hub.winPend := by
  unfold modRegion; split <;> rfl
@[simp] theorem modRegion_hub_winRefused (s : State) (r : Nat) (g : Region → Region) : (modRegion s r g).hub.winRefused = s.hub.winRefused := by
  unfold modRegion; split <;> rfl
@[simp] theorem modRegion_hub_winReason (s : State) (r : Nat) (g : Region → Region) : (modRegion s r g).hub.winReason = s.hub.winReason := by
  unfold modRegion; split <;> rfl
@[simp] theorem modRegion_hub_qaRefused (s : State) (r : Nat) (g : Region → Region) : (modRegion s r g).hub.qaRefused = s.hub.qaRefused := by
  unfold modRegion; split <;> rfl
@[simp] theorem modRegion_hub_rrF (s : State) (r : Nat) (g : Region → Region) : (modRegion s r g).hub.rrF = s.hub.rrF := by
  unfold modRegion; split <;> rfl
@[simp] theorem modRegion_hub_rrQ (s : State) (r : Nat) (g : Region → Region) : (modRegion s r g).hub.rrQ = s.hub.rrQ := by
  unfold modRegion; split <;> rfl
@[simp] theorem modRegion_hub_numVfs (s : State) (r : Nat) (g : Region → Region) : (modRegion s r g).hub.numVfs = s.hub.numVfs := by
  unfold modRegion; split <;> rfl
@[simp] theorem modRegion_hub_xfers (s : State) (r : Nat) (g : Region → Region) : (modRegion s r g).hub.xfers = s.hub.xfers := by
  unfold modRegion; split <;> rfl
@[simp] theorem modRegion_hub_nextXfer (s : State) (r : Nat) (g : Region → Region) : (modRegion s r g).hub.nextXfer = s.hub.nextXfer := by
  unfold modRegion; split <;> rfl
@[simp] theorem modRegion_hub_fenced (s : State) (r : Nat) (g : Region → Region) : (modRegion s r g).hub.fenced = s.hub.fenced := by
  unfold modRegion; split <;> rfl
@[simp] theorem modRegion_hub_fenceRefused (s : State) (r : Nat) (g : Region → Region) : (modRegion s r g).hub.fenceRefused = s.hub.fenceRefused := by
  unfold modRegion; split <;> rfl

@[simp] theorem modCtxs_pending (s : State) (p : Ctx → Bool) (g : Ctx → Ctx) : (modCtxs s p g).pending = s.pending := rfl
@[simp] theorem modCtxs_cl (s : State) (p : Ctx → Bool) (g : Ctx → Ctx) : (modCtxs s p g).cl = s.cl := rfl
@[simp] theorem modCtxs_mem (s : State) (p : Ctx → Bool) (g : Ctx → Ctx) : (modCtxs s p g).mem = s.mem := rfl
@[simp] theorem modCtxs_lnk (s : State) (p : Ctx → Bool) (g : Ctx → Ctx) : (modCtxs s p g).lnk = s.lnk := rfl
@[simp] theorem modCtxs_clock (s : State) (p : Ctx → Bool) (g : Ctx → Ctx) : (modCtxs s p g).clock = s.clock := rfl
@[simp] theorem modCtxs_ecl (s : State) (p : Ctx → Bool) (g : Ctx → Ctx) : (modCtxs s p g).ecl = s.ecl := rfl
@[simp] theorem modCtxs_pow (s : State) (p : Ctx → Bool) (g : Ctx → Ctx) : (modCtxs s p g).pow = s.pow := rfl
@[simp] theorem modCtxs_fuses (s : State) (p : Ctx → Bool) (g : Ctx → Ctx) : (modCtxs s p g).fuses = s.fuses := rfl
@[simp] theorem modCtxs_sec (s : State) (p : Ctx → Bool) (g : Ctx → Ctx) : (modCtxs s p g).sec = s.sec := rfl
@[simp] theorem modCtxs_mng (s : State) (p : Ctx → Bool) (g : Ctx → Ctx) : (modCtxs s p g).mng = s.mng := rfl
@[simp] theorem modCtxs_regs (s : State) (p : Ctx → Bool) (g : Ctx → Ctx) : (modCtxs s p g).regs = s.regs := rfl
@[simp] theorem modCtxs_ctrs (s : State) (p : Ctx → Bool) (g : Ctx → Ctx) : (modCtxs s p g).ctrs = s.ctrs := rfl
@[simp] theorem modCtxs_nowTick (s : State) (p : Ctx → Bool) (g : Ctx → Ctx) : (modCtxs s p g).nowTick = s.nowTick := rfl
@[simp] theorem modCtxs_nowCtr (s : State) (p : Ctx → Bool) (g : Ctx → Ctx) : (modCtxs s p g).nowCtr = s.nowCtr := rfl
@[simp] theorem modCtxs_nowSet (s : State) (p : Ctx → Bool) (g : Ctx → Ctx) : (modCtxs s p g).nowSet = s.nowSet := rfl
@[simp] theorem modCtxs_host (s : State) (p : Ctx → Bool) (g : Ctx → Ctx) : (modCtxs s p g).host = s.host := rfl
@[simp] theorem modCtxs_fresh (s : State) (p : Ctx → Bool) (g : Ctx → Ctx) : (modCtxs s p g).fresh = s.fresh := rfl
@[simp] theorem modCtxs_out (s : State) (p : Ctx → Bool) (g : Ctx → Ctx) : (modCtxs s p g).out = s.out := rfl
@[simp] theorem modCtxs_hub_funcs (s : State) (p : Ctx → Bool) (g : Ctx → Ctx) : (modCtxs s p g).hub.funcs = s.hub.funcs := rfl
@[simp] theorem modCtxs_hub_queues (s : State) (p : Ctx → Bool) (g : Ctx → Ctx) : (modCtxs s p g).hub.queues = s.hub.queues := rfl
@[simp] theorem modCtxs_hub_rings (s : State) (p : Ctx → Bool) (g : Ctx → Ctx) : (modCtxs s p g).hub.rings = s.hub.rings := rfl
@[simp] theorem modCtxs_hub_items (s : State) (p : Ctx → Bool) (g : Ctx → Ctx) : (modCtxs s p g).hub.items = s.hub.items := rfl
@[simp] theorem modCtxs_hub_nextItem (s : State) (p : Ctx → Bool) (g : Ctx → Ctx) : (modCtxs s p g).hub.nextItem = s.hub.nextItem := rfl
@[simp] theorem modCtxs_hub_regions (s : State) (p : Ctx → Bool) (g : Ctx → Ctx) : (modCtxs s p g).hub.regions = s.hub.regions := rfl
@[simp] theorem modCtxs_hub_nextCtx (s : State) (p : Ctx → Bool) (g : Ctx → Ctx) : (modCtxs s p g).hub.nextCtx = s.hub.nextCtx := rfl
@[simp] theorem modCtxs_hub_insts (s : State) (p : Ctx → Bool) (g : Ctx → Ctx) : (modCtxs s p g).hub.insts = s.hub.insts := rfl
@[simp] theorem modCtxs_hub_bindings (s : State) (p : Ctx → Bool) (g : Ctx → Ctx) : (modCtxs s p g).hub.bindings = s.hub.bindings := rfl
@[simp] theorem modCtxs_hub_reports (s : State) (p : Ctx → Bool) (g : Ctx → Ctx) : (modCtxs s p g).hub.reports = s.hub.reports := rfl
@[simp] theorem modCtxs_hub_ended (s : State) (p : Ctx → Bool) (g : Ctx → Ctx) : (modCtxs s p g).hub.ended = s.hub.ended := rfl
@[simp] theorem modCtxs_hub_loads (s : State) (p : Ctx → Bool) (g : Ctx → Ctx) : (modCtxs s p g).hub.loads = s.hub.loads := rfl
@[simp] theorem modCtxs_hub_loadQ (s : State) (p : Ctx → Bool) (g : Ctx → Ctx) : (modCtxs s p g).hub.loadQ = s.hub.loadQ := rfl
@[simp] theorem modCtxs_hub_nextLoad (s : State) (p : Ctx → Bool) (g : Ctx → Ctx) : (modCtxs s p g).hub.nextLoad = s.hub.nextLoad := rfl
@[simp] theorem modCtxs_hub_mbx (s : State) (p : Ctx → Bool) (g : Ctx → Ctx) : (modCtxs s p g).hub.mbx = s.hub.mbx := rfl
@[simp] theorem modCtxs_hub_rsvCount (s : State) (p : Ctx → Bool) (g : Ctx → Ctx) : (modCtxs s p g).hub.rsvCount = s.hub.rsvCount := rfl
@[simp] theorem modCtxs_hub_rsvRefused (s : State) (p : Ctx → Bool) (g : Ctx → Ctx) : (modCtxs s p g).hub.rsvRefused = s.hub.rsvRefused := rfl
@[simp] theorem modCtxs_hub_rmap (s : State) (p : Ctx → Bool) (g : Ctx → Ctx) : (modCtxs s p g).hub.rmap = s.hub.rmap := rfl
@[simp] theorem modCtxs_hub_rsrc (s : State) (p : Ctx → Bool) (g : Ctx → Ctx) : (modCtxs s p g).hub.rsrc = s.hub.rsrc := rfl
@[simp] theorem modCtxs_hub_grants (s : State) (p : Ctx → Bool) (g : Ctx → Ctx) : (modCtxs s p g).hub.grants = s.hub.grants := rfl
@[simp] theorem modCtxs_hub_grantPend (s : State) (p : Ctx → Bool) (g : Ctx → Ctx) : (modCtxs s p g).hub.grantPend = s.hub.grantPend := rfl
@[simp] theorem modCtxs_hub_grantRefused (s : State) (p : Ctx → Bool) (g : Ctx → Ctx) : (modCtxs s p g).hub.grantRefused = s.hub.grantRefused := rfl
@[simp] theorem modCtxs_hub_winPend (s : State) (p : Ctx → Bool) (g : Ctx → Ctx) : (modCtxs s p g).hub.winPend = s.hub.winPend := rfl
@[simp] theorem modCtxs_hub_winRefused (s : State) (p : Ctx → Bool) (g : Ctx → Ctx) : (modCtxs s p g).hub.winRefused = s.hub.winRefused := rfl
@[simp] theorem modCtxs_hub_winReason (s : State) (p : Ctx → Bool) (g : Ctx → Ctx) : (modCtxs s p g).hub.winReason = s.hub.winReason := rfl
@[simp] theorem modCtxs_hub_qaRefused (s : State) (p : Ctx → Bool) (g : Ctx → Ctx) : (modCtxs s p g).hub.qaRefused = s.hub.qaRefused := rfl
@[simp] theorem modCtxs_hub_rrF (s : State) (p : Ctx → Bool) (g : Ctx → Ctx) : (modCtxs s p g).hub.rrF = s.hub.rrF := rfl
@[simp] theorem modCtxs_hub_rrQ (s : State) (p : Ctx → Bool) (g : Ctx → Ctx) : (modCtxs s p g).hub.rrQ = s.hub.rrQ := rfl
@[simp] theorem modCtxs_hub_numVfs (s : State) (p : Ctx → Bool) (g : Ctx → Ctx) : (modCtxs s p g).hub.numVfs = s.hub.numVfs := rfl
@[simp] theorem modCtxs_hub_xfers (s : State) (p : Ctx → Bool) (g : Ctx → Ctx) : (modCtxs s p g).hub.xfers = s.hub.xfers := rfl
@[simp] theorem modCtxs_hub_nextXfer (s : State) (p : Ctx → Bool) (g : Ctx → Ctx) : (modCtxs s p g).hub.nextXfer = s.hub.nextXfer := rfl
@[simp] theorem modCtxs_hub_fenced (s : State) (p : Ctx → Bool) (g : Ctx → Ctx) : (modCtxs s p g).hub.fenced = s.hub.fenced := rfl
@[simp] theorem modCtxs_hub_fenceRefused (s : State) (p : Ctx → Bool) (g : Ctx → Ctx) : (modCtxs s p g).hub.fenceRefused = s.hub.fenceRefused := rfl

@[simp] theorem modItem_pending (s : State) (i : Nat) (g : Item → Item) : (modItem s i g).pending = s.pending := rfl
@[simp] theorem modItem_cl (s : State) (i : Nat) (g : Item → Item) : (modItem s i g).cl = s.cl := rfl
@[simp] theorem modItem_mem (s : State) (i : Nat) (g : Item → Item) : (modItem s i g).mem = s.mem := rfl
@[simp] theorem modItem_lnk (s : State) (i : Nat) (g : Item → Item) : (modItem s i g).lnk = s.lnk := rfl
@[simp] theorem modItem_clock (s : State) (i : Nat) (g : Item → Item) : (modItem s i g).clock = s.clock := rfl
@[simp] theorem modItem_ecl (s : State) (i : Nat) (g : Item → Item) : (modItem s i g).ecl = s.ecl := rfl
@[simp] theorem modItem_pow (s : State) (i : Nat) (g : Item → Item) : (modItem s i g).pow = s.pow := rfl
@[simp] theorem modItem_fuses (s : State) (i : Nat) (g : Item → Item) : (modItem s i g).fuses = s.fuses := rfl
@[simp] theorem modItem_sec (s : State) (i : Nat) (g : Item → Item) : (modItem s i g).sec = s.sec := rfl
@[simp] theorem modItem_mng (s : State) (i : Nat) (g : Item → Item) : (modItem s i g).mng = s.mng := rfl
@[simp] theorem modItem_regs (s : State) (i : Nat) (g : Item → Item) : (modItem s i g).regs = s.regs := rfl
@[simp] theorem modItem_ctrs (s : State) (i : Nat) (g : Item → Item) : (modItem s i g).ctrs = s.ctrs := rfl
@[simp] theorem modItem_nowTick (s : State) (i : Nat) (g : Item → Item) : (modItem s i g).nowTick = s.nowTick := rfl
@[simp] theorem modItem_nowCtr (s : State) (i : Nat) (g : Item → Item) : (modItem s i g).nowCtr = s.nowCtr := rfl
@[simp] theorem modItem_nowSet (s : State) (i : Nat) (g : Item → Item) : (modItem s i g).nowSet = s.nowSet := rfl
@[simp] theorem modItem_host (s : State) (i : Nat) (g : Item → Item) : (modItem s i g).host = s.host := rfl
@[simp] theorem modItem_fresh (s : State) (i : Nat) (g : Item → Item) : (modItem s i g).fresh = s.fresh := rfl
@[simp] theorem modItem_out (s : State) (i : Nat) (g : Item → Item) : (modItem s i g).out = s.out := rfl
@[simp] theorem modItem_hub_funcs (s : State) (i : Nat) (g : Item → Item) : (modItem s i g).hub.funcs = s.hub.funcs := rfl
@[simp] theorem modItem_hub_queues (s : State) (i : Nat) (g : Item → Item) : (modItem s i g).hub.queues = s.hub.queues := rfl
@[simp] theorem modItem_hub_rings (s : State) (i : Nat) (g : Item → Item) : (modItem s i g).hub.rings = s.hub.rings := rfl
@[simp] theorem modItem_hub_nextItem (s : State) (i : Nat) (g : Item → Item) : (modItem s i g).hub.nextItem = s.hub.nextItem := rfl
@[simp] theorem modItem_hub_regions (s : State) (i : Nat) (g : Item → Item) : (modItem s i g).hub.regions = s.hub.regions := rfl
@[simp] theorem modItem_hub_ctxs (s : State) (i : Nat) (g : Item → Item) : (modItem s i g).hub.ctxs = s.hub.ctxs := rfl
@[simp] theorem modItem_hub_nextCtx (s : State) (i : Nat) (g : Item → Item) : (modItem s i g).hub.nextCtx = s.hub.nextCtx := rfl
@[simp] theorem modItem_hub_insts (s : State) (i : Nat) (g : Item → Item) : (modItem s i g).hub.insts = s.hub.insts := rfl
@[simp] theorem modItem_hub_bindings (s : State) (i : Nat) (g : Item → Item) : (modItem s i g).hub.bindings = s.hub.bindings := rfl
@[simp] theorem modItem_hub_reports (s : State) (i : Nat) (g : Item → Item) : (modItem s i g).hub.reports = s.hub.reports := rfl
@[simp] theorem modItem_hub_ended (s : State) (i : Nat) (g : Item → Item) : (modItem s i g).hub.ended = s.hub.ended := rfl
@[simp] theorem modItem_hub_loads (s : State) (i : Nat) (g : Item → Item) : (modItem s i g).hub.loads = s.hub.loads := rfl
@[simp] theorem modItem_hub_loadQ (s : State) (i : Nat) (g : Item → Item) : (modItem s i g).hub.loadQ = s.hub.loadQ := rfl
@[simp] theorem modItem_hub_nextLoad (s : State) (i : Nat) (g : Item → Item) : (modItem s i g).hub.nextLoad = s.hub.nextLoad := rfl
@[simp] theorem modItem_hub_mbx (s : State) (i : Nat) (g : Item → Item) : (modItem s i g).hub.mbx = s.hub.mbx := rfl
@[simp] theorem modItem_hub_rsvCount (s : State) (i : Nat) (g : Item → Item) : (modItem s i g).hub.rsvCount = s.hub.rsvCount := rfl
@[simp] theorem modItem_hub_rsvRefused (s : State) (i : Nat) (g : Item → Item) : (modItem s i g).hub.rsvRefused = s.hub.rsvRefused := rfl
@[simp] theorem modItem_hub_rmap (s : State) (i : Nat) (g : Item → Item) : (modItem s i g).hub.rmap = s.hub.rmap := rfl
@[simp] theorem modItem_hub_rsrc (s : State) (i : Nat) (g : Item → Item) : (modItem s i g).hub.rsrc = s.hub.rsrc := rfl
@[simp] theorem modItem_hub_grants (s : State) (i : Nat) (g : Item → Item) : (modItem s i g).hub.grants = s.hub.grants := rfl
@[simp] theorem modItem_hub_grantPend (s : State) (i : Nat) (g : Item → Item) : (modItem s i g).hub.grantPend = s.hub.grantPend := rfl
@[simp] theorem modItem_hub_grantRefused (s : State) (i : Nat) (g : Item → Item) : (modItem s i g).hub.grantRefused = s.hub.grantRefused := rfl
@[simp] theorem modItem_hub_winPend (s : State) (i : Nat) (g : Item → Item) : (modItem s i g).hub.winPend = s.hub.winPend := rfl
@[simp] theorem modItem_hub_winRefused (s : State) (i : Nat) (g : Item → Item) : (modItem s i g).hub.winRefused = s.hub.winRefused := rfl
@[simp] theorem modItem_hub_winReason (s : State) (i : Nat) (g : Item → Item) : (modItem s i g).hub.winReason = s.hub.winReason := rfl
@[simp] theorem modItem_hub_qaRefused (s : State) (i : Nat) (g : Item → Item) : (modItem s i g).hub.qaRefused = s.hub.qaRefused := rfl
@[simp] theorem modItem_hub_rrF (s : State) (i : Nat) (g : Item → Item) : (modItem s i g).hub.rrF = s.hub.rrF := rfl
@[simp] theorem modItem_hub_rrQ (s : State) (i : Nat) (g : Item → Item) : (modItem s i g).hub.rrQ = s.hub.rrQ := rfl
@[simp] theorem modItem_hub_numVfs (s : State) (i : Nat) (g : Item → Item) : (modItem s i g).hub.numVfs = s.hub.numVfs := rfl
@[simp] theorem modItem_hub_xfers (s : State) (i : Nat) (g : Item → Item) : (modItem s i g).hub.xfers = s.hub.xfers := rfl
@[simp] theorem modItem_hub_nextXfer (s : State) (i : Nat) (g : Item → Item) : (modItem s i g).hub.nextXfer = s.hub.nextXfer := rfl
@[simp] theorem modItem_hub_fenced (s : State) (i : Nat) (g : Item → Item) : (modItem s i g).hub.fenced = s.hub.fenced := rfl
@[simp] theorem modItem_hub_fenceRefused (s : State) (i : Nat) (g : Item → Item) : (modItem s i g).hub.fenceRefused = s.hub.fenceRefused := rfl

/-! ### Stacks and ports -/

@[simp] theorem modStack_pending (s : State) (k : Nat) (g : Stack → Stack) : (modStack s k g).pending = s.pending := rfl
@[simp] theorem modStack_cl (s : State) (k : Nat) (g : Stack → Stack) : (modStack s k g).cl = s.cl := rfl
@[simp] theorem modStack_hub (s : State) (k : Nat) (g : Stack → Stack) : (modStack s k g).hub = s.hub := rfl
@[simp] theorem modStack_lnk (s : State) (k : Nat) (g : Stack → Stack) : (modStack s k g).lnk = s.lnk := rfl
@[simp] theorem modStack_clock (s : State) (k : Nat) (g : Stack → Stack) : (modStack s k g).clock = s.clock := rfl
@[simp] theorem modStack_ecl (s : State) (k : Nat) (g : Stack → Stack) : (modStack s k g).ecl = s.ecl := rfl
@[simp] theorem modStack_pow (s : State) (k : Nat) (g : Stack → Stack) : (modStack s k g).pow = s.pow := rfl
@[simp] theorem modStack_fuses (s : State) (k : Nat) (g : Stack → Stack) : (modStack s k g).fuses = s.fuses := rfl
@[simp] theorem modStack_sec (s : State) (k : Nat) (g : Stack → Stack) : (modStack s k g).sec = s.sec := rfl
@[simp] theorem modStack_mng (s : State) (k : Nat) (g : Stack → Stack) : (modStack s k g).mng = s.mng := rfl
@[simp] theorem modStack_regs (s : State) (k : Nat) (g : Stack → Stack) : (modStack s k g).regs = s.regs := rfl
@[simp] theorem modStack_ctrs (s : State) (k : Nat) (g : Stack → Stack) : (modStack s k g).ctrs = s.ctrs := rfl
@[simp] theorem modStack_nowTick (s : State) (k : Nat) (g : Stack → Stack) : (modStack s k g).nowTick = s.nowTick := rfl
@[simp] theorem modStack_nowCtr (s : State) (k : Nat) (g : Stack → Stack) : (modStack s k g).nowCtr = s.nowCtr := rfl
@[simp] theorem modStack_nowSet (s : State) (k : Nat) (g : Stack → Stack) : (modStack s k g).nowSet = s.nowSet := rfl
@[simp] theorem modStack_host (s : State) (k : Nat) (g : Stack → Stack) : (modStack s k g).host = s.host := rfl
@[simp] theorem modStack_fresh (s : State) (k : Nat) (g : Stack → Stack) : (modStack s k g).fresh = s.fresh := rfl
@[simp] theorem modStack_out (s : State) (k : Nat) (g : Stack → Stack) : (modStack s k g).out = s.out := rfl
@[simp] theorem modStack_mem_dev (s : State) (k : Nat) (g : Stack → Stack) : (modStack s k g).mem.dev = s.mem.dev := rfl
@[simp] theorem modStack_mem_devPoi (s : State) (k : Nat) (g : Stack → Stack) : (modStack s k g).mem.devPoi = s.mem.devPoi := rfl
@[simp] theorem modStack_mem_devErr (s : State) (k : Nat) (g : Stack → Stack) : (modStack s k g).mem.devErr = s.mem.devErr := rfl
@[simp] theorem modStack_mem_held (s : State) (k : Nat) (g : Stack → Stack) : (modStack s k g).mem.held = s.mem.held := rfl
@[simp] theorem modStack_mem_atoms (s : State) (k : Nat) (g : Stack → Stack) : (modStack s k g).mem.atoms = s.mem.atoms := rfl
@[simp] theorem modStack_mem_scrub (s : State) (k : Nat) (g : Stack → Stack) : (modStack s k g).mem.scrub = s.mem.scrub := rfl
@[simp] theorem modStack_mem_saveRefused (s : State) (k : Nat) (g : Stack → Stack) : (modStack s k g).mem.saveRefused = s.mem.saveRefused := rfl

@[simp] theorem modPort_pending (s : State) (n : Nat) (g : Port → Port) : (modPort s n g).pending = s.pending := rfl
@[simp] theorem modPort_cl (s : State) (n : Nat) (g : Port → Port) : (modPort s n g).cl = s.cl := rfl
@[simp] theorem modPort_mem (s : State) (n : Nat) (g : Port → Port) : (modPort s n g).mem = s.mem := rfl
@[simp] theorem modPort_hub (s : State) (n : Nat) (g : Port → Port) : (modPort s n g).hub = s.hub := rfl
@[simp] theorem modPort_clock (s : State) (n : Nat) (g : Port → Port) : (modPort s n g).clock = s.clock := rfl
@[simp] theorem modPort_ecl (s : State) (n : Nat) (g : Port → Port) : (modPort s n g).ecl = s.ecl := rfl
@[simp] theorem modPort_pow (s : State) (n : Nat) (g : Port → Port) : (modPort s n g).pow = s.pow := rfl
@[simp] theorem modPort_fuses (s : State) (n : Nat) (g : Port → Port) : (modPort s n g).fuses = s.fuses := rfl
@[simp] theorem modPort_sec (s : State) (n : Nat) (g : Port → Port) : (modPort s n g).sec = s.sec := rfl
@[simp] theorem modPort_mng (s : State) (n : Nat) (g : Port → Port) : (modPort s n g).mng = s.mng := rfl
@[simp] theorem modPort_regs (s : State) (n : Nat) (g : Port → Port) : (modPort s n g).regs = s.regs := rfl
@[simp] theorem modPort_ctrs (s : State) (n : Nat) (g : Port → Port) : (modPort s n g).ctrs = s.ctrs := rfl
@[simp] theorem modPort_nowTick (s : State) (n : Nat) (g : Port → Port) : (modPort s n g).nowTick = s.nowTick := rfl
@[simp] theorem modPort_nowCtr (s : State) (n : Nat) (g : Port → Port) : (modPort s n g).nowCtr = s.nowCtr := rfl
@[simp] theorem modPort_nowSet (s : State) (n : Nat) (g : Port → Port) : (modPort s n g).nowSet = s.nowSet := rfl
@[simp] theorem modPort_host (s : State) (n : Nat) (g : Port → Port) : (modPort s n g).host = s.host := rfl
@[simp] theorem modPort_fresh (s : State) (n : Nat) (g : Port → Port) : (modPort s n g).fresh = s.fresh := rfl
@[simp] theorem modPort_out (s : State) (n : Nat) (g : Port → Port) : (modPort s n g).out = s.out := rfl
@[simp] theorem modPort_lnk_node (s : State) (n : Nat) (g : Port → Port) : (modPort s n g).lnk.node = s.lnk.node := rfl
@[simp] theorem modPort_lnk_epoch (s : State) (n : Nat) (g : Port → Port) : (modPort s n g).lnk.epoch = s.lnk.epoch := rfl
@[simp] theorem modPort_lnk_dup (s : State) (n : Nat) (g : Port → Port) : (modPort s n g).lnk.dup = s.lnk.dup := rfl
@[simp] theorem modPort_lnk_aseq (s : State) (n : Nat) (g : Port → Port) : (modPort s n g).lnk.aseq = s.lnk.aseq := rfl
@[simp] theorem modPort_lnk_mtag (s : State) (n : Nat) (g : Port → Port) : (modPort s n g).lnk.mtag = s.lnk.mtag := rfl
@[simp] theorem modPort_lnk_msgs (s : State) (n : Nat) (g : Port → Port) : (modPort s n g).lnk.msgs = s.lnk.msgs := rfl
@[simp] theorem modPort_lnk_nextMsg (s : State) (n : Nat) (g : Port → Port) : (modPort s n g).lnk.nextMsg = s.lnk.nextMsg := rfl
@[simp] theorem modPort_lnk_nextTr (s : State) (n : Nat) (g : Port → Port) : (modPort s n g).lnk.nextTr = s.lnk.nextTr := rfl
@[simp] theorem modPort_lnk_reasm (s : State) (n : Nat) (g : Port → Port) : (modPort s n g).lnk.reasm = s.lnk.reasm := rfl
@[simp] theorem modPort_lnk_dedup (s : State) (n : Nat) (g : Port → Port) : (modPort s n g).lnk.dedup = s.lnk.dedup := rfl
@[simp] theorem modPort_lnk_rt (s : State) (n : Nat) (g : Port → Port) : (modPort s n g).lnk.rt = s.lnk.rt := rfl

/-! ### Counters, stored registers, free values, the record of what leaves -/

@[simp] theorem nowSync_pending (s : State) : (nowSync s).pending = s.pending := rfl
@[simp] theorem nowSync_cl (s : State) : (nowSync s).cl = s.cl := rfl
@[simp] theorem nowSync_mem (s : State) : (nowSync s).mem = s.mem := rfl
@[simp] theorem nowSync_hub (s : State) : (nowSync s).hub = s.hub := rfl
@[simp] theorem nowSync_lnk (s : State) : (nowSync s).lnk = s.lnk := rfl
@[simp] theorem nowSync_clock (s : State) : (nowSync s).clock = s.clock := rfl
@[simp] theorem nowSync_ecl (s : State) : (nowSync s).ecl = s.ecl := rfl
@[simp] theorem nowSync_pow (s : State) : (nowSync s).pow = s.pow := rfl
@[simp] theorem nowSync_fuses (s : State) : (nowSync s).fuses = s.fuses := rfl
@[simp] theorem nowSync_sec (s : State) : (nowSync s).sec = s.sec := rfl
@[simp] theorem nowSync_mng (s : State) : (nowSync s).mng = s.mng := rfl
@[simp] theorem nowSync_regs (s : State) : (nowSync s).regs = s.regs := rfl
@[simp] theorem nowSync_ctrs (s : State) : (nowSync s).ctrs = s.ctrs := rfl
@[simp] theorem nowSync_host (s : State) : (nowSync s).host = s.host := rfl
@[simp] theorem nowSync_fresh (s : State) : (nowSync s).fresh = s.fresh := rfl
@[simp] theorem nowSync_out (s : State) : (nowSync s).out = s.out := rfl

@[simp] theorem bumpW_pending (w : Nat) (s : State) (a n : Nat) : (bumpW w s a n).pending = s.pending := rfl
@[simp] theorem bumpW_cl (w : Nat) (s : State) (a n : Nat) : (bumpW w s a n).cl = s.cl := rfl
@[simp] theorem bumpW_mem (w : Nat) (s : State) (a n : Nat) : (bumpW w s a n).mem = s.mem := rfl
@[simp] theorem bumpW_hub (w : Nat) (s : State) (a n : Nat) : (bumpW w s a n).hub = s.hub := rfl
@[simp] theorem bumpW_lnk (w : Nat) (s : State) (a n : Nat) : (bumpW w s a n).lnk = s.lnk := rfl
@[simp] theorem bumpW_clock (w : Nat) (s : State) (a n : Nat) : (bumpW w s a n).clock = s.clock := rfl
@[simp] theorem bumpW_ecl (w : Nat) (s : State) (a n : Nat) : (bumpW w s a n).ecl = s.ecl := rfl
@[simp] theorem bumpW_pow (w : Nat) (s : State) (a n : Nat) : (bumpW w s a n).pow = s.pow := rfl
@[simp] theorem bumpW_fuses (w : Nat) (s : State) (a n : Nat) : (bumpW w s a n).fuses = s.fuses := rfl
@[simp] theorem bumpW_sec (w : Nat) (s : State) (a n : Nat) : (bumpW w s a n).sec = s.sec := rfl
@[simp] theorem bumpW_mng (w : Nat) (s : State) (a n : Nat) : (bumpW w s a n).mng = s.mng := rfl
@[simp] theorem bumpW_regs (w : Nat) (s : State) (a n : Nat) : (bumpW w s a n).regs = s.regs := rfl
@[simp] theorem bumpW_host (w : Nat) (s : State) (a n : Nat) : (bumpW w s a n).host = s.host := rfl
@[simp] theorem bumpW_fresh (w : Nat) (s : State) (a n : Nat) : (bumpW w s a n).fresh = s.fresh := rfl
@[simp] theorem bumpW_out (w : Nat) (s : State) (a n : Nat) : (bumpW w s a n).out = s.out := rfl

@[simp] theorem bump_pending (s : State) (a n : Nat) : (bump s a n).pending = s.pending := rfl
@[simp] theorem bump_cl (s : State) (a n : Nat) : (bump s a n).cl = s.cl := rfl
@[simp] theorem bump_mem (s : State) (a n : Nat) : (bump s a n).mem = s.mem := rfl
@[simp] theorem bump_hub (s : State) (a n : Nat) : (bump s a n).hub = s.hub := rfl
@[simp] theorem bump_lnk (s : State) (a n : Nat) : (bump s a n).lnk = s.lnk := rfl
@[simp] theorem bump_clock (s : State) (a n : Nat) : (bump s a n).clock = s.clock := rfl
@[simp] theorem bump_ecl (s : State) (a n : Nat) : (bump s a n).ecl = s.ecl := rfl
@[simp] theorem bump_pow (s : State) (a n : Nat) : (bump s a n).pow = s.pow := rfl
@[simp] theorem bump_fuses (s : State) (a n : Nat) : (bump s a n).fuses = s.fuses := rfl
@[simp] theorem bump_sec (s : State) (a n : Nat) : (bump s a n).sec = s.sec := rfl
@[simp] theorem bump_mng (s : State) (a n : Nat) : (bump s a n).mng = s.mng := rfl
@[simp] theorem bump_regs (s : State) (a n : Nat) : (bump s a n).regs = s.regs := rfl
@[simp] theorem bump_host (s : State) (a n : Nat) : (bump s a n).host = s.host := rfl
@[simp] theorem bump_fresh (s : State) (a n : Nat) : (bump s a n).fresh = s.fresh := rfl
@[simp] theorem bump_out (s : State) (a n : Nat) : (bump s a n).out = s.out := rfl

@[simp] theorem bumpC_pending (s : State) (c o n : Nat) : (bumpC s c o n).pending = s.pending := rfl
@[simp] theorem bumpC_cl (s : State) (c o n : Nat) : (bumpC s c o n).cl = s.cl := rfl
@[simp] theorem bumpC_mem (s : State) (c o n : Nat) : (bumpC s c o n).mem = s.mem := rfl
@[simp] theorem bumpC_hub (s : State) (c o n : Nat) : (bumpC s c o n).hub = s.hub := rfl
@[simp] theorem bumpC_lnk (s : State) (c o n : Nat) : (bumpC s c o n).lnk = s.lnk := rfl
@[simp] theorem bumpC_clock (s : State) (c o n : Nat) : (bumpC s c o n).clock = s.clock := rfl
@[simp] theorem bumpC_ecl (s : State) (c o n : Nat) : (bumpC s c o n).ecl = s.ecl := rfl
@[simp] theorem bumpC_pow (s : State) (c o n : Nat) : (bumpC s c o n).pow = s.pow := rfl
@[simp] theorem bumpC_fuses (s : State) (c o n : Nat) : (bumpC s c o n).fuses = s.fuses := rfl
@[simp] theorem bumpC_sec (s : State) (c o n : Nat) : (bumpC s c o n).sec = s.sec := rfl
@[simp] theorem bumpC_mng (s : State) (c o n : Nat) : (bumpC s c o n).mng = s.mng := rfl
@[simp] theorem bumpC_regs (s : State) (c o n : Nat) : (bumpC s c o n).regs = s.regs := rfl
@[simp] theorem bumpC_host (s : State) (c o n : Nat) : (bumpC s c o n).host = s.host := rfl
@[simp] theorem bumpC_fresh (s : State) (c o n : Nat) : (bumpC s c o n).fresh = s.fresh := rfl
@[simp] theorem bumpC_out (s : State) (c o n : Nat) : (bumpC s c o n).out = s.out := rfl

@[simp] theorem bumpC64_pending (s : State) (c o n : Nat) : (bumpC64 s c o n).pending = s.pending := rfl
@[simp] theorem bumpC64_cl (s : State) (c o n : Nat) : (bumpC64 s c o n).cl = s.cl := rfl
@[simp] theorem bumpC64_mem (s : State) (c o n : Nat) : (bumpC64 s c o n).mem = s.mem := rfl
@[simp] theorem bumpC64_hub (s : State) (c o n : Nat) : (bumpC64 s c o n).hub = s.hub := rfl
@[simp] theorem bumpC64_lnk (s : State) (c o n : Nat) : (bumpC64 s c o n).lnk = s.lnk := rfl
@[simp] theorem bumpC64_clock (s : State) (c o n : Nat) : (bumpC64 s c o n).clock = s.clock := rfl
@[simp] theorem bumpC64_ecl (s : State) (c o n : Nat) : (bumpC64 s c o n).ecl = s.ecl := rfl
@[simp] theorem bumpC64_pow (s : State) (c o n : Nat) : (bumpC64 s c o n).pow = s.pow := rfl
@[simp] theorem bumpC64_fuses (s : State) (c o n : Nat) : (bumpC64 s c o n).fuses = s.fuses := rfl
@[simp] theorem bumpC64_sec (s : State) (c o n : Nat) : (bumpC64 s c o n).sec = s.sec := rfl
@[simp] theorem bumpC64_mng (s : State) (c o n : Nat) : (bumpC64 s c o n).mng = s.mng := rfl
@[simp] theorem bumpC64_regs (s : State) (c o n : Nat) : (bumpC64 s c o n).regs = s.regs := rfl
@[simp] theorem bumpC64_host (s : State) (c o n : Nat) : (bumpC64 s c o n).host = s.host := rfl
@[simp] theorem bumpC64_fresh (s : State) (c o n : Nat) : (bumpC64 s c o n).fresh = s.fresh := rfl
@[simp] theorem bumpC64_out (s : State) (c o n : Nat) : (bumpC64 s c o n).out = s.out := rfl

@[simp] theorem markSet_pending (s : State) (a m : Nat) : (markSet s a m).pending = s.pending := rfl
@[simp] theorem markSet_cl (s : State) (a m : Nat) : (markSet s a m).cl = s.cl := rfl
@[simp] theorem markSet_mem (s : State) (a m : Nat) : (markSet s a m).mem = s.mem := rfl
@[simp] theorem markSet_hub (s : State) (a m : Nat) : (markSet s a m).hub = s.hub := rfl
@[simp] theorem markSet_lnk (s : State) (a m : Nat) : (markSet s a m).lnk = s.lnk := rfl
@[simp] theorem markSet_clock (s : State) (a m : Nat) : (markSet s a m).clock = s.clock := rfl
@[simp] theorem markSet_ecl (s : State) (a m : Nat) : (markSet s a m).ecl = s.ecl := rfl
@[simp] theorem markSet_pow (s : State) (a m : Nat) : (markSet s a m).pow = s.pow := rfl
@[simp] theorem markSet_fuses (s : State) (a m : Nat) : (markSet s a m).fuses = s.fuses := rfl
@[simp] theorem markSet_sec (s : State) (a m : Nat) : (markSet s a m).sec = s.sec := rfl
@[simp] theorem markSet_mng (s : State) (a m : Nat) : (markSet s a m).mng = s.mng := rfl
@[simp] theorem markSet_regs (s : State) (a m : Nat) : (markSet s a m).regs = s.regs := rfl
@[simp] theorem markSet_ctrs (s : State) (a m : Nat) : (markSet s a m).ctrs = s.ctrs := rfl
@[simp] theorem markSet_host (s : State) (a m : Nat) : (markSet s a m).host = s.host := rfl
@[simp] theorem markSet_fresh (s : State) (a m : Nat) : (markSet s a m).fresh = s.fresh := rfl
@[simp] theorem markSet_out (s : State) (a m : Nat) : (markSet s a m).out = s.out := rfl

@[simp] theorem setReg_pending (s : State) (a v : Nat) : (setReg s a v).pending = s.pending := rfl
@[simp] theorem setReg_cl (s : State) (a v : Nat) : (setReg s a v).cl = s.cl := rfl
@[simp] theorem setReg_mem (s : State) (a v : Nat) : (setReg s a v).mem = s.mem := rfl
@[simp] theorem setReg_hub (s : State) (a v : Nat) : (setReg s a v).hub = s.hub := rfl
@[simp] theorem setReg_lnk (s : State) (a v : Nat) : (setReg s a v).lnk = s.lnk := rfl
@[simp] theorem setReg_clock (s : State) (a v : Nat) : (setReg s a v).clock = s.clock := rfl
@[simp] theorem setReg_ecl (s : State) (a v : Nat) : (setReg s a v).ecl = s.ecl := rfl
@[simp] theorem setReg_pow (s : State) (a v : Nat) : (setReg s a v).pow = s.pow := rfl
@[simp] theorem setReg_fuses (s : State) (a v : Nat) : (setReg s a v).fuses = s.fuses := rfl
@[simp] theorem setReg_sec (s : State) (a v : Nat) : (setReg s a v).sec = s.sec := rfl
@[simp] theorem setReg_mng (s : State) (a v : Nat) : (setReg s a v).mng = s.mng := rfl
@[simp] theorem setReg_ctrs (s : State) (a v : Nat) : (setReg s a v).ctrs = s.ctrs := rfl
@[simp] theorem setReg_nowTick (s : State) (a v : Nat) : (setReg s a v).nowTick = s.nowTick := rfl
@[simp] theorem setReg_nowCtr (s : State) (a v : Nat) : (setReg s a v).nowCtr = s.nowCtr := rfl
@[simp] theorem setReg_nowSet (s : State) (a v : Nat) : (setReg s a v).nowSet = s.nowSet := rfl
@[simp] theorem setReg_host (s : State) (a v : Nat) : (setReg s a v).host = s.host := rfl
@[simp] theorem setReg_fresh (s : State) (a v : Nat) : (setReg s a v).fresh = s.fresh := rfl
@[simp] theorem setReg_out (s : State) (a v : Nat) : (setReg s a v).out = s.out := rfl

@[simp] theorem stepFresh_pending (s : State) : (stepFresh s).pending = s.pending := rfl
@[simp] theorem stepFresh_cl (s : State) : (stepFresh s).cl = s.cl := rfl
@[simp] theorem stepFresh_mem (s : State) : (stepFresh s).mem = s.mem := rfl
@[simp] theorem stepFresh_hub (s : State) : (stepFresh s).hub = s.hub := rfl
@[simp] theorem stepFresh_lnk (s : State) : (stepFresh s).lnk = s.lnk := rfl
@[simp] theorem stepFresh_clock (s : State) : (stepFresh s).clock = s.clock := rfl
@[simp] theorem stepFresh_ecl (s : State) : (stepFresh s).ecl = s.ecl := rfl
@[simp] theorem stepFresh_pow (s : State) : (stepFresh s).pow = s.pow := rfl
@[simp] theorem stepFresh_fuses (s : State) : (stepFresh s).fuses = s.fuses := rfl
@[simp] theorem stepFresh_sec (s : State) : (stepFresh s).sec = s.sec := rfl
@[simp] theorem stepFresh_mng (s : State) : (stepFresh s).mng = s.mng := rfl
@[simp] theorem stepFresh_regs (s : State) : (stepFresh s).regs = s.regs := rfl
@[simp] theorem stepFresh_ctrs (s : State) : (stepFresh s).ctrs = s.ctrs := rfl
@[simp] theorem stepFresh_nowTick (s : State) : (stepFresh s).nowTick = s.nowTick := rfl
@[simp] theorem stepFresh_nowCtr (s : State) : (stepFresh s).nowCtr = s.nowCtr := rfl
@[simp] theorem stepFresh_nowSet (s : State) : (stepFresh s).nowSet = s.nowSet := rfl
@[simp] theorem stepFresh_host (s : State) : (stepFresh s).host = s.host := rfl
@[simp] theorem stepFresh_out (s : State) : (stepFresh s).out = s.out := rfl

@[simp] theorem bumpFree_pending (s : State) (c o : Nat) : (bumpFree s c o).pending = s.pending := rfl
@[simp] theorem bumpFree_cl (s : State) (c o : Nat) : (bumpFree s c o).cl = s.cl := rfl
@[simp] theorem bumpFree_mem (s : State) (c o : Nat) : (bumpFree s c o).mem = s.mem := rfl
@[simp] theorem bumpFree_hub (s : State) (c o : Nat) : (bumpFree s c o).hub = s.hub := rfl
@[simp] theorem bumpFree_lnk (s : State) (c o : Nat) : (bumpFree s c o).lnk = s.lnk := rfl
@[simp] theorem bumpFree_clock (s : State) (c o : Nat) : (bumpFree s c o).clock = s.clock := rfl
@[simp] theorem bumpFree_ecl (s : State) (c o : Nat) : (bumpFree s c o).ecl = s.ecl := rfl
@[simp] theorem bumpFree_pow (s : State) (c o : Nat) : (bumpFree s c o).pow = s.pow := rfl
@[simp] theorem bumpFree_fuses (s : State) (c o : Nat) : (bumpFree s c o).fuses = s.fuses := rfl
@[simp] theorem bumpFree_sec (s : State) (c o : Nat) : (bumpFree s c o).sec = s.sec := rfl
@[simp] theorem bumpFree_mng (s : State) (c o : Nat) : (bumpFree s c o).mng = s.mng := rfl
@[simp] theorem bumpFree_regs (s : State) (c o : Nat) : (bumpFree s c o).regs = s.regs := rfl
@[simp] theorem bumpFree_host (s : State) (c o : Nat) : (bumpFree s c o).host = s.host := rfl
@[simp] theorem bumpFree_out (s : State) (c o : Nat) : (bumpFree s c o).out = s.out := rfl

@[simp] theorem bumpFree64_pending (s : State) (c o : Nat) : (bumpFree64 s c o).pending = s.pending := rfl
@[simp] theorem bumpFree64_cl (s : State) (c o : Nat) : (bumpFree64 s c o).cl = s.cl := rfl
@[simp] theorem bumpFree64_mem (s : State) (c o : Nat) : (bumpFree64 s c o).mem = s.mem := rfl
@[simp] theorem bumpFree64_hub (s : State) (c o : Nat) : (bumpFree64 s c o).hub = s.hub := rfl
@[simp] theorem bumpFree64_lnk (s : State) (c o : Nat) : (bumpFree64 s c o).lnk = s.lnk := rfl
@[simp] theorem bumpFree64_clock (s : State) (c o : Nat) : (bumpFree64 s c o).clock = s.clock := rfl
@[simp] theorem bumpFree64_ecl (s : State) (c o : Nat) : (bumpFree64 s c o).ecl = s.ecl := rfl
@[simp] theorem bumpFree64_pow (s : State) (c o : Nat) : (bumpFree64 s c o).pow = s.pow := rfl
@[simp] theorem bumpFree64_fuses (s : State) (c o : Nat) : (bumpFree64 s c o).fuses = s.fuses := rfl
@[simp] theorem bumpFree64_sec (s : State) (c o : Nat) : (bumpFree64 s c o).sec = s.sec := rfl
@[simp] theorem bumpFree64_mng (s : State) (c o : Nat) : (bumpFree64 s c o).mng = s.mng := rfl
@[simp] theorem bumpFree64_regs (s : State) (c o : Nat) : (bumpFree64 s c o).regs = s.regs := rfl
@[simp] theorem bumpFree64_host (s : State) (c o : Nat) : (bumpFree64 s c o).host = s.host := rfl
@[simp] theorem bumpFree64_out (s : State) (c o : Nat) : (bumpFree64 s c o).out = s.out := rfl

@[simp] theorem emit_pending (s : State) (o : Out) : (emit s o).pending = s.pending := rfl
@[simp] theorem emit_cl (s : State) (o : Out) : (emit s o).cl = s.cl := rfl
@[simp] theorem emit_mem (s : State) (o : Out) : (emit s o).mem = s.mem := rfl
@[simp] theorem emit_hub (s : State) (o : Out) : (emit s o).hub = s.hub := rfl
@[simp] theorem emit_lnk (s : State) (o : Out) : (emit s o).lnk = s.lnk := rfl
@[simp] theorem emit_clock (s : State) (o : Out) : (emit s o).clock = s.clock := rfl
@[simp] theorem emit_ecl (s : State) (o : Out) : (emit s o).ecl = s.ecl := rfl
@[simp] theorem emit_pow (s : State) (o : Out) : (emit s o).pow = s.pow := rfl
@[simp] theorem emit_fuses (s : State) (o : Out) : (emit s o).fuses = s.fuses := rfl
@[simp] theorem emit_sec (s : State) (o : Out) : (emit s o).sec = s.sec := rfl
@[simp] theorem emit_mng (s : State) (o : Out) : (emit s o).mng = s.mng := rfl
@[simp] theorem emit_regs (s : State) (o : Out) : (emit s o).regs = s.regs := rfl
@[simp] theorem emit_ctrs (s : State) (o : Out) : (emit s o).ctrs = s.ctrs := rfl
@[simp] theorem emit_nowTick (s : State) (o : Out) : (emit s o).nowTick = s.nowTick := rfl
@[simp] theorem emit_nowCtr (s : State) (o : Out) : (emit s o).nowCtr = s.nowCtr := rfl
@[simp] theorem emit_nowSet (s : State) (o : Out) : (emit s o).nowSet = s.nowSet := rfl
@[simp] theorem emit_host (s : State) (o : Out) : (emit s o).host = s.host := rfl
@[simp] theorem emit_fresh (s : State) (o : Out) : (emit s o).fresh = s.fresh := rfl

@[simp] theorem settleCyc_pending (s : State) (c : Nat) : (settleCyc s c).pending = s.pending := rfl
@[simp] theorem settleCyc_mem (s : State) (c : Nat) : (settleCyc s c).mem = s.mem := rfl
@[simp] theorem settleCyc_hub (s : State) (c : Nat) : (settleCyc s c).hub = s.hub := rfl
@[simp] theorem settleCyc_lnk (s : State) (c : Nat) : (settleCyc s c).lnk = s.lnk := rfl
@[simp] theorem settleCyc_clock (s : State) (c : Nat) : (settleCyc s c).clock = s.clock := rfl
@[simp] theorem settleCyc_ecl (s : State) (c : Nat) : (settleCyc s c).ecl = s.ecl := rfl
@[simp] theorem settleCyc_pow (s : State) (c : Nat) : (settleCyc s c).pow = s.pow := rfl
@[simp] theorem settleCyc_fuses (s : State) (c : Nat) : (settleCyc s c).fuses = s.fuses := rfl
@[simp] theorem settleCyc_sec (s : State) (c : Nat) : (settleCyc s c).sec = s.sec := rfl
@[simp] theorem settleCyc_mng (s : State) (c : Nat) : (settleCyc s c).mng = s.mng := rfl
@[simp] theorem settleCyc_regs (s : State) (c : Nat) : (settleCyc s c).regs = s.regs := rfl
@[simp] theorem settleCyc_ctrs (s : State) (c : Nat) : (settleCyc s c).ctrs = s.ctrs := rfl
@[simp] theorem settleCyc_nowTick (s : State) (c : Nat) : (settleCyc s c).nowTick = s.nowTick := rfl
@[simp] theorem settleCyc_nowCtr (s : State) (c : Nat) : (settleCyc s c).nowCtr = s.nowCtr := rfl
@[simp] theorem settleCyc_nowSet (s : State) (c : Nat) : (settleCyc s c).nowSet = s.nowSet := rfl
@[simp] theorem settleCyc_host (s : State) (c : Nat) : (settleCyc s c).host = s.host := rfl
@[simp] theorem settleCyc_fresh (s : State) (c : Nat) : (settleCyc s c).fresh = s.fresh := rfl
@[simp] theorem settleCyc_out (s : State) (c : Nat) : (settleCyc s c).out = s.out := rfl
@[simp] theorem settleCyc_cl_slots (s : State) (c : Nat) : (settleCyc s c).cl.slots = s.cl.slots := rfl
@[simp] theorem settleCyc_cl_tiles (s : State) (c : Nat) : (settleCyc s c).cl.tiles = s.cl.tiles := rfl
@[simp] theorem settleCyc_cl_spad (s : State) (c : Nat) : (settleCyc s c).cl.spad = s.cl.spad := rfl
@[simp] theorem settleCyc_cl_spadPoi (s : State) (c : Nat) : (settleCyc s c).cl.spadPoi = s.cl.spadPoi := rfl
@[simp] theorem settleCyc_cl_spadErr (s : State) (c : Nat) : (settleCyc s c).cl.spadErr = s.cl.spadErr := rfl
@[simp] theorem settleCyc_cl_wst (s : State) (c : Nat) : (settleCyc s c).cl.wst = s.cl.wst := rfl
@[simp] theorem settleCyc_cl_wErr (s : State) (c : Nat) : (settleCyc s c).cl.wErr = s.cl.wErr := rfl

/-! ### Reading a part after its update -/

@[simp] theorem getClu_put_self (s : State) (c : Nat) (v : Clu) : getClu (putClu s c v) c = v := by simp [getClu, putClu]

theorem getClu_put_other (s : State) (c d : Nat) (v : Clu) (h : d ≠ c) : getClu (putClu s c v) d = getClu s d :=
  tabGet_set_other _ _ _ _ h

@[simp] theorem getClu_mod_self (s : State) (c : Nat) (g : Clu → Clu) : getClu (modClu s c g) c = g (getClu s c) :=
  getClu_put_self s c _

theorem getClu_mod_other (s : State) (c d : Nat) (g : Clu → Clu) (h : d ≠ c) : getClu (modClu s c g) d = getClu s d :=
  getClu_put_other s c d _ h

@[simp] theorem getSlot_put_self (s : State) (c n : Nat) (v : Slot) : getSlot (putSlot s c n v) c n = v := by
  simp [getSlot, putSlot]

theorem getSlot_put_other (s : State) (c n d m : Nat) (v : Slot) (h : 4 * d + m ≠ 4 * c + n) :
    getSlot (putSlot s c n v) d m = getSlot s d m := tabGet_set_other _ _ _ _ h

@[simp] theorem getSlot_mod_self (s : State) (c n : Nat) (g : Slot → Slot) : getSlot (modSlot s c n g) c n = g (getSlot s c n) :=
  getSlot_put_self s c n _

theorem getSlot_mod_other (s : State) (c n d m : Nat) (g : Slot → Slot) (h : 4 * d + m ≠ 4 * c + n) :
    getSlot (modSlot s c n g) d m = getSlot s d m := getSlot_put_other s c n d m _ h

@[simp] theorem getTile_put_self (s : State) (c t : Nat) (v : WTile) : getTile (putTile s c t v) c t = v := by
  simp [getTile, putTile]

theorem getTile_put_other (s : State) (c t d u : Nat) (v : WTile) (h : 32768 * d + u ≠ 32768 * c + t) :
    getTile (putTile s c t v) d u = getTile s d u := tabGet_put_other _ _ _ _ _ h

@[simp] theorem getFunc_mod_self (s : State) (a : Nat) (g : Func → Func) : getFunc (modFunc s a g) a = g (getFunc s a) := by
  simp [getFunc, modFunc]

theorem getFunc_mod_other (s : State) (a b : Nat) (g : Func → Func) (h : b ≠ a) : getFunc (modFunc s a g) b = getFunc s b :=
  tabGet_set_other _ _ _ _ h

@[simp] theorem getStack_mod_self (s : State) (a : Nat) (g : Stack → Stack) : getStack (modStack s a g) a = g (getStack s a) := by
  simp [getStack, modStack]

theorem getStack_mod_other (s : State) (a b : Nat) (g : Stack → Stack) (h : b ≠ a) : getStack (modStack s a g) b = getStack s b :=
  tabGet_set_other _ _ _ _ h

@[simp] theorem getPort_mod_self (s : State) (a : Nat) (g : Port → Port) : getPort (modPort s a g) a = g (getPort s a) := by
  simp [getPort, modPort]

theorem getPort_mod_other (s : State) (a b : Nat) (g : Port → Port) (h : b ≠ a) : getPort (modPort s a g) b = getPort s b :=
  tabGet_set_other _ _ _ _ h

@[simp] theorem getQueue_mod_self (s : State) (f q : Nat) (g : Queue → Queue) : getQueue (modQueue s f q g) f q = g (getQueue s f q) := by
  simp [getQueue, modQueue]

theorem getQueue_mod_other (s : State) (f q e p : Nat) (g : Queue → Queue) (h : 2048 * e + p ≠ 2048 * f + q) :
    getQueue (modQueue s f q g) e p = getQueue s e p := tabGet_set_other _ _ _ _ h

@[simp] theorem getRing_mod_self (s : State) (f q : Nat) (g : Ring → Ring) : getRing (modRing s f q g) f q = g (getRing s f q) := by
  simp [getRing, modRing]

theorem getRing_mod_other (s : State) (f q e p : Nat) (g : Ring → Ring) (h : 2048 * e + p ≠ 2048 * f + q) :
    getRing (modRing s f q g) e p = getRing s e p := tabGet_set_other _ _ _ _ h

theorem getRegion_mod (s : State) (r q : Nat) (g : Region → Region) :
    getRegion (modRegion s r g) q = if q = r then (getRegion s r).map g else getRegion s q := by
  unfold modRegion
  split <;> rename_i h
  · split
    · rename_i e; subst e; rw [h]; rfl
    · rfl
  · split
    · rename_i e; subst e; rw [h]; exact tabFind_set_self _ _ _
    · rename_i e; exact tabFind_set_other _ _ _ e

@[simp] theorem reg_set_self (s : State) (a v : Nat) : reg (setReg s a v) a = v % 2 ^ 64 := by simp [reg, setReg]

theorem reg_set_other (s : State) (a b v : Nat) (h : b ≠ a) : reg (setReg s a v) b = reg s b := by
  unfold reg setReg; simp only []; rw [tabGet_set_other _ _ _ _ h]

/-! ### Reading a part after the update of another -/

@[simp] theorem getClu_putSlot (s : State) (c n : Nat) (v : Slot) (d : Nat) : getClu (putSlot s c n v) d = getClu s d := rfl
@[simp] theorem getClu_modSlot (s : State) (c n : Nat) (g : Slot → Slot) (d : Nat) : getClu (modSlot s c n g) d = getClu s d := rfl
@[simp] theorem getClu_bump (s : State) (a n : Nat) (d : Nat) : getClu (bump s a n) d = getClu s d := rfl
@[simp] theorem getClu_bumpC (s : State) (c o n : Nat) (d : Nat) : getClu (bumpC s c o n) d = getClu s d := rfl
@[simp] theorem getClu_setReg (s : State) (a v : Nat) (d : Nat) : getClu (setReg s a v) d = getClu s d := rfl
@[simp] theorem getClu_emit (s : State) (o : Out) (d : Nat) : getClu (emit s o) d = getClu s d := rfl
@[simp] theorem getClu_stepFresh (s : State) (d : Nat) : getClu (stepFresh s) d = getClu s d := rfl
@[simp] theorem getClu_markSet (s : State) (a m : Nat) (d : Nat) : getClu (markSet s a m) d = getClu s d := rfl

@[simp] theorem getSlot_modClu (s : State) (c : Nat) (g : Clu → Clu) (d m : Nat) : getSlot (modClu s c g) d m = getSlot s d m := rfl
@[simp] theorem getSlot_putClu (s : State) (c : Nat) (v : Clu) (d m : Nat) : getSlot (putClu s c v) d m = getSlot s d m := rfl
@[simp] theorem getSlot_bump (s : State) (a n : Nat) (d m : Nat) : getSlot (bump s a n) d m = getSlot s d m := rfl
@[simp] theorem getSlot_bumpC (s : State) (c o n : Nat) (d m : Nat) : getSlot (bumpC s c o n) d m = getSlot s d m := rfl
@[simp] theorem getSlot_setReg (s : State) (a v : Nat) (d m : Nat) : getSlot (setReg s a v) d m = getSlot s d m := rfl
@[simp] theorem getSlot_emit (s : State) (o : Out) (d m : Nat) : getSlot (emit s o) d m = getSlot s d m := rfl
@[simp] theorem getSlot_stepFresh (s : State) (d m : Nat) : getSlot (stepFresh s) d m = getSlot s d m := rfl
@[simp] theorem getSlot_markSet (s : State) (a m : Nat) (d m : Nat) : getSlot (markSet s a m) d m = getSlot s d m := rfl

@[simp] theorem getFunc_modClu (s : State) (c : Nat) (g : Clu → Clu) (e : Nat) : getFunc (modClu s c g) e = getFunc s e := rfl
@[simp] theorem getFunc_putClu (s : State) (c : Nat) (v : Clu) (e : Nat) : getFunc (putClu s c v) e = getFunc s e := rfl
@[simp] theorem getFunc_putSlot (s : State) (c n : Nat) (v : Slot) (e : Nat) : getFunc (putSlot s c n v) e = getFunc s e := rfl
@[simp] theorem getFunc_modSlot (s : State) (c n : Nat) (g : Slot → Slot) (e : Nat) : getFunc (modSlot s c n g) e = getFunc s e := rfl
@[simp] theorem getFunc_bump (s : State) (a n : Nat) (e : Nat) : getFunc (bump s a n) e = getFunc s e := rfl
@[simp] theorem getFunc_bumpC (s : State) (c o n : Nat) (e : Nat) : getFunc (bumpC s c o n) e = getFunc s e := rfl
@[simp] theorem getFunc_setReg (s : State) (a v : Nat) (e : Nat) : getFunc (setReg s a v) e = getFunc s e := rfl
@[simp] theorem getFunc_emit (s : State) (o : Out) (e : Nat) : getFunc (emit s o) e = getFunc s e := rfl
@[simp] theorem getFunc_stepFresh (s : State) (e : Nat) : getFunc (stepFresh s) e = getFunc s e := rfl
@[simp] theorem getFunc_markSet (s : State) (a m : Nat) (e : Nat) : getFunc (markSet s a m) e = getFunc s e := rfl

@[simp] theorem getStack_modClu (s : State) (c : Nat) (g : Clu → Clu) (e : Nat) : getStack (modClu s c g) e = getStack s e := rfl
@[simp] theorem getStack_putClu (s : State) (c : Nat) (v : Clu) (e : Nat) : getStack (putClu s c v) e = getStack s e := rfl
@[simp] theorem getStack_putSlot (s : State) (c n : Nat) (v : Slot) (e : Nat) : getStack (putSlot s c n v) e = getStack s e := rfl
@[simp] theorem getStack_modSlot (s : State) (c n : Nat) (g : Slot → Slot) (e : Nat) : getStack (modSlot s c n g) e = getStack s e := rfl
@[simp] theorem getStack_bump (s : State) (a n : Nat) (e : Nat) : getStack (bump s a n) e = getStack s e := rfl
@[simp] theorem getStack_bumpC (s : State) (c o n : Nat) (e : Nat) : getStack (bumpC s c o n) e = getStack s e := rfl
@[simp] theorem getStack_setReg (s : State) (a v : Nat) (e : Nat) : getStack (setReg s a v) e = getStack s e := rfl
@[simp] theorem getStack_emit (s : State) (o : Out) (e : Nat) : getStack (emit s o) e = getStack s e := rfl
@[simp] theorem getStack_stepFresh (s : State) (e : Nat) : getStack (stepFresh s) e = getStack s e := rfl
@[simp] theorem getStack_markSet (s : State) (a m : Nat) (e : Nat) : getStack (markSet s a m) e = getStack s e := rfl

@[simp] theorem getPort_modClu (s : State) (c : Nat) (g : Clu → Clu) (e : Nat) : getPort (modClu s c g) e = getPort s e := rfl
@[simp] theorem getPort_putClu (s : State) (c : Nat) (v : Clu) (e : Nat) : getPort (putClu s c v) e = getPort s e := rfl
@[simp] theorem getPort_putSlot (s : State) (c n : Nat) (v : Slot) (e : Nat) : getPort (putSlot s c n v) e = getPort s e := rfl
@[simp] theorem getPort_modSlot (s : State) (c n : Nat) (g : Slot → Slot) (e : Nat) : getPort (modSlot s c n g) e = getPort s e := rfl
@[simp] theorem getPort_bump (s : State) (a n : Nat) (e : Nat) : getPort (bump s a n) e = getPort s e := rfl
@[simp] theorem getPort_bumpC (s : State) (c o n : Nat) (e : Nat) : getPort (bumpC s c o n) e = getPort s e := rfl
@[simp] theorem getPort_setReg (s : State) (a v : Nat) (e : Nat) : getPort (setReg s a v) e = getPort s e := rfl
@[simp] theorem getPort_emit (s : State) (o : Out) (e : Nat) : getPort (emit s o) e = getPort s e := rfl
@[simp] theorem getPort_stepFresh (s : State) (e : Nat) : getPort (stepFresh s) e = getPort s e := rfl
@[simp] theorem getPort_markSet (s : State) (a m : Nat) (e : Nat) : getPort (markSet s a m) e = getPort s e := rfl

@[simp] theorem getQueue_modClu (s : State) (c : Nat) (g : Clu → Clu) (e p : Nat) : getQueue (modClu s c g) e p = getQueue s e p := rfl
@[simp] theorem getQueue_putClu (s : State) (c : Nat) (v : Clu) (e p : Nat) : getQueue (putClu s c v) e p = getQueue s e p := rfl
@[simp] theorem getQueue_putSlot (s : State) (c n : Nat) (v : Slot) (e p : Nat) : getQueue (putSlot s c n v) e p = getQueue s e p := rfl
@[simp] theorem getQueue_modSlot (s : State) (c n : Nat) (g : Slot → Slot) (e p : Nat) : getQueue (modSlot s c n g) e p = getQueue s e p := rfl
@[simp] theorem getQueue_bump (s : State) (a n : Nat) (e p : Nat) : getQueue (bump s a n) e p = getQueue s e p := rfl
@[simp] theorem getQueue_bumpC (s : State) (c o n : Nat) (e p : Nat) : getQueue (bumpC s c o n) e p = getQueue s e p := rfl
@[simp] theorem getQueue_setReg (s : State) (a v : Nat) (e p : Nat) : getQueue (setReg s a v) e p = getQueue s e p := rfl
@[simp] theorem getQueue_emit (s : State) (o : Out) (e p : Nat) : getQueue (emit s o) e p = getQueue s e p := rfl
@[simp] theorem getQueue_stepFresh (s : State) (e p : Nat) : getQueue (stepFresh s) e p = getQueue s e p := rfl
@[simp] theorem getQueue_markSet (s : State) (a m : Nat) (e p : Nat) : getQueue (markSet s a m) e p = getQueue s e p := rfl

@[simp] theorem getRing_modClu (s : State) (c : Nat) (g : Clu → Clu) (e p : Nat) : getRing (modClu s c g) e p = getRing s e p := rfl
@[simp] theorem getRing_putClu (s : State) (c : Nat) (v : Clu) (e p : Nat) : getRing (putClu s c v) e p = getRing s e p := rfl
@[simp] theorem getRing_putSlot (s : State) (c n : Nat) (v : Slot) (e p : Nat) : getRing (putSlot s c n v) e p = getRing s e p := rfl
@[simp] theorem getRing_modSlot (s : State) (c n : Nat) (g : Slot → Slot) (e p : Nat) : getRing (modSlot s c n g) e p = getRing s e p := rfl
@[simp] theorem getRing_bump (s : State) (a n : Nat) (e p : Nat) : getRing (bump s a n) e p = getRing s e p := rfl
@[simp] theorem getRing_bumpC (s : State) (c o n : Nat) (e p : Nat) : getRing (bumpC s c o n) e p = getRing s e p := rfl
@[simp] theorem getRing_setReg (s : State) (a v : Nat) (e p : Nat) : getRing (setReg s a v) e p = getRing s e p := rfl
@[simp] theorem getRing_emit (s : State) (o : Out) (e p : Nat) : getRing (emit s o) e p = getRing s e p := rfl
@[simp] theorem getRing_stepFresh (s : State) (e p : Nat) : getRing (stepFresh s) e p = getRing s e p := rfl
@[simp] theorem getRing_markSet (s : State) (a m : Nat) (e p : Nat) : getRing (markSet s a m) e p = getRing s e p := rfl

@[simp] theorem reg_modClu (s : State) (c : Nat) (g : Clu → Clu) (x : Nat) : reg (modClu s c g) x = reg s x := rfl
@[simp] theorem reg_putClu (s : State) (c : Nat) (v : Clu) (x : Nat) : reg (putClu s c v) x = reg s x := rfl
@[simp] theorem reg_putSlot (s : State) (c n : Nat) (v : Slot) (x : Nat) : reg (putSlot s c n v) x = reg s x := rfl
@[simp] theorem reg_modSlot (s : State) (c n : Nat) (g : Slot → Slot) (x : Nat) : reg (modSlot s c n g) x = reg s x := rfl
@[simp] theorem reg_bump (s : State) (a n : Nat) (x : Nat) : reg (bump s a n) x = reg s x := rfl
@[simp] theorem reg_bumpC (s : State) (c o n : Nat) (x : Nat) : reg (bumpC s c o n) x = reg s x := rfl
@[simp] theorem reg_emit (s : State) (o : Out) (x : Nat) : reg (emit s o) x = reg s x := rfl
@[simp] theorem reg_stepFresh (s : State) (x : Nat) : reg (stepFresh s) x = reg s x := rfl
@[simp] theorem reg_markSet (s : State) (a m : Nat) (x : Nat) : reg (markSet s a m) x = reg s x := rfl

@[simp] theorem ctr_modClu (s : State) (c : Nat) (g : Clu → Clu) (x : Nat) : ctr (modClu s c g) x = ctr s x := rfl
@[simp] theorem ctr_putClu (s : State) (c : Nat) (v : Clu) (x : Nat) : ctr (putClu s c v) x = ctr s x := rfl
@[simp] theorem ctr_putSlot (s : State) (c n : Nat) (v : Slot) (x : Nat) : ctr (putSlot s c n v) x = ctr s x := rfl
@[simp] theorem ctr_modSlot (s : State) (c n : Nat) (g : Slot → Slot) (x : Nat) : ctr (modSlot s c n g) x = ctr s x := rfl
@[simp] theorem ctr_setReg (s : State) (a v : Nat) (x : Nat) : ctr (setReg s a v) x = ctr s x := rfl
@[simp] theorem ctr_emit (s : State) (o : Out) (x : Nat) : ctr (emit s o) x = ctr s x := rfl
@[simp] theorem ctr_stepFresh (s : State) (x : Nat) : ctr (stepFresh s) x = ctr s x := rfl
@[simp] theorem ctr_markSet (s : State) (a m : Nat) (x : Nat) : ctr (markSet s a m) x = ctr s x := rfl

@[simp] theorem getRegion_modClu (s : State) (c : Nat) (g : Clu → Clu) (e : Nat) : getRegion (modClu s c g) e = getRegion s e := rfl
@[simp] theorem getRegion_putClu (s : State) (c : Nat) (v : Clu) (e : Nat) : getRegion (putClu s c v) e = getRegion s e := rfl
@[simp] theorem getRegion_putSlot (s : State) (c n : Nat) (v : Slot) (e : Nat) : getRegion (putSlot s c n v) e = getRegion s e := rfl
@[simp] theorem getRegion_modSlot (s : State) (c n : Nat) (g : Slot → Slot) (e : Nat) : getRegion (modSlot s c n g) e = getRegion s e := rfl
@[simp] theorem getRegion_bump (s : State) (a n : Nat) (e : Nat) : getRegion (bump s a n) e = getRegion s e := rfl
@[simp] theorem getRegion_bumpC (s : State) (c o n : Nat) (e : Nat) : getRegion (bumpC s c o n) e = getRegion s e := rfl
@[simp] theorem getRegion_setReg (s : State) (a v : Nat) (e : Nat) : getRegion (setReg s a v) e = getRegion s e := rfl
@[simp] theorem getRegion_emit (s : State) (o : Out) (e : Nat) : getRegion (emit s o) e = getRegion s e := rfl
@[simp] theorem getRegion_stepFresh (s : State) (e : Nat) : getRegion (stepFresh s) e = getRegion s e := rfl
@[simp] theorem getRegion_markSet (s : State) (a m : Nat) (e : Nat) : getRegion (markSet s a m) e = getRegion s e := rfl

end Sys2Proof.Machine
end

