-- ==== Sys2Proof/Laws/Access.lean ====
section
/-! SUPPORT. What narrow accesses, the gather buffer and byte tables do (R120 to R124, R155, R158). -/

namespace Sys2Proof.Machine

/-- The bytes of a range one by one. -/
theorem memBytes_nth (m : Mem) (a n k : Nat) (h : k < n) : nth 0 (memBytes m a n) k = memGet m (a + k) := by
  induction n generalizing a k with
  | zero => omega
  | succ n ih =>
    cases k with
    | zero => rfl
    | succ k =>
      have := ih (a + 1) k (by omega)
      simp only [memBytes, nth, List.getD_cons_succ] at this ⊢
      rw [this]; congr 1; omega

/-- What a narrow access to a sound word does: the entry it works on holds the bytes seen before, the gather buffer holds that
entry last, and where no entry held the word a requester of its bank reads it. -/
theorem narrow_spec {s : State} {c w : Nat} (hp : wordPoi s c w = false) (he : tabGet 0 s.cl.spadErr (wordKey c w) = 0)
    (hr : (gatherEnt s c w).isSome = true ∨ (makeRoom (getClu s c).gather).isSome = true) :
    ∃ g bk e, narrow s c w = .got (modClu s c (fun k => { k with gather := g, banks := bk })) e (gatherEnt s c w).isSome ∧
      e.word = w ∧ (∀ o, o < 32 → nth 0 e.data o = seenByte s c (32 * w + o)) ∧
      (gatherEnt s c w = some e ∧ g = (getClu s c).gather.filter (fun x => x.word != w) ++ [e] ∨
        gatherEnt s c w = none ∧ ∃ g0, makeRoom (getClu s c).gather = some g0 ∧ g = g0 ++ [e]) := by
  cases hg : gatherEnt s c w with
  | some e =>
    have hw : e.word = w := by
      have := List.find?_some hg
      simpa using this
    refine ⟨(getClu s c).gather.filter (fun x => x.word != w) ++ [e], (getClu s c).banks, e, ?_, hw, ?_, Or.inl ⟨rfl, rfl⟩⟩
    · unfold narrow; rw [hg]; simp only [hp]
      unfold touchEnt; rw [hw]; rfl
    · intro o ho
      have h1 : (32 * w + o) / 32 = w := by omega
      have h2 : (32 * w + o) % 32 = o := by omega
      unfold seenByte; rw [h1, h2, hg]
  | none =>
    rw [hg] at hr
    simp at hr
    obtain ⟨g0, h0⟩ := Option.isSome_iff_exists.mp hr
    have hc : wordCheck (bankUse s c .gather w 1 1) c w = (bankUse s c .gather w 1 1, false) := by
      unfold wordCheck
      have h1 : (bankUse s c .gather w 1 1).cl.spadErr = s.cl.spadErr := rfl
      rw [h1, he]
      exact congrArg _ hp
    refine ⟨g0 ++ [{ word := w, en := 0, data := memBytes s.cl.spad (spadKey c (32 * w)) 32, dirty := false }],
      (getClu (bankUse s c .gather w 1 1) c).banks,
      { word := w, en := 0, data := memBytes s.cl.spad (spadKey c (32 * w)) 32, dirty := false }, ?_, rfl, ?_,
      Or.inr ⟨rfl, g0, h0, rfl⟩⟩
    · unfold narrow; rw [hg, h0]
      unfold allocEnt
      simp only [hc]
      have q : (bankUse s c .gather w 1 1).cl.spad = s.cl.spad := rfl
      simp only [q, bankUse, modClu, putClu, getClu, tabGet_set_self, tabSet_set_self]
      rfl
    · intro o ho
      have h1 : (32 * w + o) / 32 = w := by omega
      unfold seenByte; rw [h1, hg]
      simp only []
      rw [memBytes_nth _ _ _ _ ho]
      unfold spadKey; rw [Nat.add_assoc]

/-- An aligned access lies in one word. -/
theorem wordOf {p a b n : Nat} (hb : b % 32 = 0) (hn : n = 1 ∨ n = 2 ∨ n = 4 ∨ n = 8) (ha : a % n = 0) (hp : p = b + a) : p % 32 + n ≤ 32 := by
  subst hp
  rcases hn with h | h | h | h <;> subst h <;> omega

/-- A partition begins at a whole word. -/
theorem partBase_mod (s : State) (c sl : Nat) : partBase s c sl % 32 = 0 := by
  unfold partBase partOf
  simp only []
  cases (getSlot s c sl).pvalid
  · simp
  · have : (getSlot s c sl).pbase * 2 ^ 21 = 32 * ((getSlot s c sl).pbase * 2 ^ 16) := by
      rw [show (2 : Nat) ^ 21 = 32 * 2 ^ 16 from rfl]; ac_rfl
    simp only [if_true]
    rw [this]; exact Nat.mul_mod_right _ _

/-- A number read from the first bytes of a list. -/
theorem leNat_eq (l : List Byte) (n : Nat) : leNat (l.take n) = leNat ((List.range n).map (fun i => nth 0 l i)) := by
  induction l generalizing n with
  | nil =>
    have h : ∀ n, leNat (List.replicate n (0 : Byte)) = 0 := by
      intro n
      induction n with
      | zero => rfl
      | succ n ih => rw [List.replicate_succ, leNat, ih]; rfl
    have h2 : (List.range n).map (fun i => nth (0 : Byte) [] i) = List.replicate n 0 := by
      apply List.ext_getElem (by simp)
      intros; simp [nth]
    rw [List.take_nil, h2, h]; rfl
  | cons b l ih =>
    cases n with
    | zero => rfl
    | succ n =>
      rw [List.range_succ_eq_map]
      simp only [List.take_succ_cons, leNat, List.map_cons, List.map_map]
      rw [ih n]; rfl

theorem find_filter_ne (l : List GEnt) (w v : Nat) (h : v ≠ w) :
    (l.filter (fun x => x.word != w)).find? (fun e => e.word == v) = l.find? (fun e => e.word == v) := by
  induction l with
  | nil => rfl
  | cons a l ih =>
    by_cases ha : a.word = w
    · have : ¬ w = v := fun e => h e.symm
      simp [ha, ih, List.find?_cons, this]
    · by_cases hv : a.word = v
      · simp [ha, hv, List.find?_cons, h]
      · simp [ha, hv, List.find?_cons, ih]

theorem find_filter_eq (l : List GEnt) (w : Nat) :
    (l.filter (fun x => x.word != w)).find? (fun e => e.word == w) = none := by
  rw [List.find?_eq_none]
  intro x hx
  have := (List.mem_filter.mp hx).2
  simpa using this

/-- A byte of a little-endian number. -/
theorem leBytes_nth (n v k : Nat) (h : k < n) : nth 0 (leBytes n v) k = BitVec.ofNat 8 (v / 256 ^ k) := by
  induction n generalizing v k with
  | zero => omega
  | succ n ih =>
    cases k with
    | zero => simp [leBytes, nth]
    | succ k =>
      have := ih (v / 256) k (by omega)
      simp only [leBytes, nth, List.getD_cons_succ] at this ⊢
      rw [this, Nat.div_div_eq_div_mul, Nat.pow_succ, Nat.mul_comm]

theorem leBytes_length (n v : Nat) : (leBytes n v).length = n := by
  induction n generalizing v with
  | zero => rfl
  | succ n ih => simp [leBytes, ih]

/-- What is seen after an entry has been touched. -/
theorem seen_touch (s : State) (c : Nat) (e : GEnt) (x : Nat) :
    seenByte (touchEnt s c e) c x = if x / 32 = e.word then nth 0 e.data (x % 32) else seenByte s c x := by
  unfold seenByte
  have hg : gatherEnt (touchEnt s c e) c (x / 32) = if x / 32 = e.word then some e else gatherEnt s c (x / 32) := by
    unfold gatherEnt touchEnt modClu getClu putClu
    simp only [tabGet_set_self]
    rw [List.find?_append]
    split
    · rename_i h; rw [h, find_filter_eq]; simp
    · rename_i h; rw [find_filter_ne _ _ _ h]
      have : ¬ e.word = x / 32 := fun y => h y.symm
      simp [this]
  rw [hg]
  by_cases h : x / 32 = e.word
  · simp [h]
  · rw [if_neg h]
    show _ = if x / 32 = e.word then _ else _
    rw [if_neg h]; rfl

/-- Bytes written into a table of bytes. -/
theorem bytesSet_get (t : Tab Byte) (a : Nat) (bs : List Byte) (j : Nat) :
    tabGet 0 (bytesSet t a bs) j = if a ≤ j ∧ j < a + bs.length then nth 0 bs (j - a) else tabGet 0 t j := by
  induction bs generalizing t a with
  | nil => rw [bytesSet, if_neg (by simp only [List.length_nil]; omega)]
  | cons b bs ih =>
    rw [bytesSet, ih]
    by_cases h : j = a
    · subst h; rw [if_neg (by omega), tabGet_set_self, if_pos (by simp only [List.length_cons]; omega), Nat.sub_self]; rfl
    · rw [tabGet_set_other _ _ _ _ h]
      by_cases h1 : a ≤ j ∧ j < a + (b :: bs).length
      · have : a + 1 ≤ j ∧ j < a + 1 + bs.length := by simp at h1; omega
        rw [if_pos h1, if_pos this]
        have : j - a = (j - (a + 1)) + 1 := by omega
        rw [this]; simp [nth]
      · have : ¬ (a + 1 ≤ j ∧ j < a + 1 + bs.length) := by simp at h1; omega
        rw [if_neg h1, if_neg this]

/-- A counter raised by at least one. -/
theorem ctr_bumpW (w : Nat) (hw : 0 < w) (s : State) (a n : Nat) (hn : n ≠ 0) : ctr (bumpW w s a n) a = min (ctr s a + n) (2 ^ w - 1) := by
  have h1 : min (ctr s a + n) (2 ^ w - 1) ≠ 0 := by
    have : 2 ^ 1 ≤ 2 ^ w := Nat.pow_le_pow_right (by decide) hw
    omega
  unfold bumpW
  rw [if_neg hn]
  unfold ctr at *
  simp

/-- Raising a counter leaves every other. -/
theorem ctr_bumpW_other (w : Nat) (s : State) (a n x : Nat) (h : x ≠ a) : ctr (bumpW w s a n) x = ctr s x := by
  unfold bumpW ctr
  simp only []
  split
  · rfl
  · exact tabGet_put_other _ _ _ _ _ h

end Sys2Proof.Machine
end

