-- ==== Sys2Proof/Laws/Device.lean ====
section
/-! SUPPORT. Reads of device memory where nothing is marked, and of bytes that have been put there. -/

namespace Sys2Proof.Laws

open Sys2Proof.Machine

/-- A request changes the controllers' queues alone. -/
theorem memAsk_only (s : State) (lv p n : Nat) : onlyAsks s (memAsk s lv p n) := by
  unfold memAsk; split <;> rfl

/-- A read of a range without marked codewords on a stack in service. -/
theorem physRead_clean {s : State} (k : Cls) {p n : Nat} (h : cwMarked s p n = false) (f : stackFailed s (stackOf p) = false) :
    physRead s k p n = (memAsk s (reqLevel true k) p n, memBytes s.mem.dev p n, (cwsOf p n).map (fun _ => false)) := by
  have a := memAsk_only s (reqLevel true k) p n
  have h2 : cwMarked (memAsk s (reqLevel true k) p n) p n = false := by rw [a]; exact h
  have f2 : stackFailed (memAsk s (reqLevel true k) p n) (stackOf p) = false := by rw [a]; exact f
  have m : (memAsk s (reqLevel true k) p n).mem = s.mem := by rw [a]
  simp [physRead, h2, f2, m]

/-- A tenant read that lies in one window. -/
theorem tenRead_clean {s : State} (k : Cls) {f t n p : Nat} (hp : tenPieces s f t n = some [(p, n)]) (h : cwMarked s p n = false)
    (hs : stackFailed s (stackOf p) = false) : sees k f t n (memBytes s.mem.dev p n) s (memAsk s (reqLevel true k) p n) := by
  refine ⟨?_, memAsk_only _ _ _ _⟩
  simp [tenRead, hp, readPieces, physRead_clean k h hs]

/-- A tenant range that ends in the window where it begins is one piece. -/
theorem tenPieces_one {s : State} {f t n : Nat} {w : Window} (hw : tenWin s f t = some w) (h0 : n ≠ 0)
    (hin : t + n ≤ (w.tbase + w.size) * unit2M) :
    tenPieces s f t n = some [((w.pbase + t / unit2M - w.tbase) * unit2M + t % unit2M, n)] := by
  have m : min n ((w.tbase + w.size) * unit2M - t) = n := Nat.min_eq_left (by omega)
  rw [tenPieces, tenPiecesAux, if_neg h0, hw]
  simp only [m, Nat.sub_self]
  rw [tenPiecesAux, if_pos rfl]
  rfl

/-- Part of a byte string that has been put into a memory. -/
theorem memBytes_part (m : Mem) (a o n : Nat) (bs : List Byte) (h : o + n ≤ bs.length) :
    memBytes (memPut m a bs) (a + o) n = (bs.drop o).take n := by
  apply List.ext_getElem
  · simp [memBytes_length]; omega
  · intro i h1 h2
    rw [memBytes_length] at h1
    rw [memBytes_getElem, Nat.add_assoc, memGet_memPut_inside m a bs (o + i) (by omega)]
    simp

end Sys2Proof.Laws
end

