-- ==== Sys2Proof/Laws/Guards.lean ====
section
/-! SUPPORT. What the guards of the commands answer, and what setting frequencies anew leaves of each cluster. -/

namespace Sys2Proof.Machine

theorem hubCmd_on {s : State} (h : s.pow.on = true) (g : State → State) : hubCmd s g = .next (g s) := by simp [hubCmd, h]

theorem hubCmd_off {s : State} (h : s.pow.on = false) (g : State → State) : hubCmd s g = .next s := by simp [hubCmd, h]

theorem dispCmd_live {s : State} (h : dispLive s) (g : State → State) : dispCmd s g = .next (g s) := by
  obtain ⟨a, b, c⟩ := h
  simp [dispCmd, hubCmd, a, b, c]

theorem cluCmd_on {s : State} {c : Nat} (hc : c < Config.clusters) (h : s.pow.on = true) (g : State → State) :
    cluCmd s c g = .next (g s) := by simp [cluCmd, hc, hubCmd_on h]

theorem cluRun_gives {s : State} {c : Nat} (hc : c < Config.clusters) (h : s.pow.on = true) (hr : cluRuns s c = true) (g : State → State) :
    cluRun s c g = .next (g s) := by simp [cluRun, cluCmd_on hc h, hr]

theorem cluRun_stopped {s : State} {c : Nat} (hc : c < Config.clusters) (h : s.pow.on = true) (hr : cluRuns s c = false) (g : State → State) :
    cluRun s c g = .next s := by simp [cluRun, cluCmd_on hc h, hr]

theorem slotCmd_on {s : State} {c sl : Nat} (hc : c < Config.clusters) (hs : sl < 4) (h : s.pow.on = true) (g : State → State) :
    slotCmd s c sl g = .next (g s) := by simp [slotCmd, hc, hs, hubCmd_on h]

theorem funcCmd_live {s : State} {f : Nat} (h : funcLive s f) (g : State → State) : funcCmd s f g = .next (g s) := by
  obtain ⟨a, b, c⟩ := h
  simp [funcCmd, a, b, hubCmd, c]

theorem queueCmd_live {s : State} {f q : Nat} (hq : q < 2048) (h : funcLive s f) (g : State → State) :
    queueCmd s f q g = .next (g s) := by simp [queueCmd, hq, funcCmd_live h]

theorem portCmd_on {s : State} {n : Nat} (hn : n < Config.ports) (h : s.pow.on = true) (g : State → State) :
    portCmd s n g = .next (g s) := by simp [portCmd, hn, hubCmd_on h]

theorem stackCmd_on {s : State} {k : Nat} (hk : k < Config.stacks) (h : s.pow.on = true) (g : State → State) :
    stackCmd s k g = .next (g s) := by simp [stackCmd, hk, hubCmd_on h]

theorem stwCmd_on {s : State} {k : Nat} (hk : k < 4) (h : s.pow.on = true) (g : State → State) :
    stwCmd s k g = .next (g s) := by simp [stwCmd, hk, hubCmd_on h]

/-- A command that answers a next state by a guard gives what its meaning gives. -/
theorem gives_of {i : Instr} {s t : State} {p : State → Prop} (h : exec i s = .next t) (hp : p t) : gives i s p := ⟨t, h, hp⟩

/-! ### Clusters changed together -/

theorem tabGet_filterMap (d : Clu) (l : List Nat) (g : Nat → Clu) (c : Nat) (hl : l.Nodup) :
    tabGet d (l.filterMap (fun x => if g x = d then none else some (x, g x))) c = if c ∈ l then g c else d := by
  induction l with
  | nil => simp [tabGet]
  | cons x l ih =>
    have hn := List.nodup_cons.mp hl
    have ih := ih hn.2
    by_cases hx : g x = d
    · rw [List.filterMap_cons, if_pos hx]
      show tabGet d (l.filterMap _) c = _
      rw [ih]
      by_cases hc : c = x
      · subst hc; simp [hn.1, hx]
      · simp [hc]
    · rw [List.filterMap_cons, if_neg hx]
      show tabGet d ((x, g x) :: l.filterMap _) c = _
      by_cases hc : c = x
      · subst hc; simp [tabGet]
      · have : tabGet d ((x, g x) :: l.filterMap (fun x => if g x = d then none else some (x, g x))) c =
            tabGet d (l.filterMap (fun x => if g x = d then none else some (x, g x))) c := by
          rw [tabGet, if_neg (fun e => hc e.symm)]
        rw [this, ih]; simp [hc]

theorem tabGet_rangeMap (d : Clu) (n : Nat) (g : Nat → Clu) (c : Nat) (hc : c < n) :
    tabGet d ((List.range n).filterMap (fun x => if g x = d then none else some (x, g x))) c = g c := by
  rw [tabGet_filterMap d _ g c List.nodup_range, if_pos (List.mem_range.mpr hc)]

/-- What a change of many clusters leaves of each. -/
theorem getClu_modClus (s : State) (p : Nat → Bool) (g : Nat → Clu → Clu) (c : Nat) (hc : c < Config.clusters) :
    getClu (modClus s p g) c = if p c = true then g c (getClu s c) else getClu s c := by
  unfold getClu modClus
  generalize Config.clusters = n at hc
  exact tabGet_rangeMap cluReset n (fun c => if p c then g c (tabGet cluReset s.cl.clus c) else tabGet cluReset s.cl.clus c) c hc

theorem getClu_retuneAll (s : State) (p : Nat → Bool) (c : Nat) (hc : c < Config.clusters) :
    getClu (retuneAll s p) c = if p c = true then tuned s c (getClu s c) else getClu s c := by
  have h : getClu (retuneAll s p) c = getClu (modClus s p (tuned s)) c := by unfold retuneAll stepFresh getClu; rfl
  rw [h, getClu_modClus s p (tuned s) c hc]

theorem getClu_retune (s : State) (c : Nat) : getClu (retune s c) c = tuned s c (getClu s c) := getClu_mod_self s c _

/-! ### What a change of many clusters leaves -/

@[simp] theorem modClus_pending (s : State) (p : Nat → Bool) (g : Nat → Clu → Clu) : (modClus s p g).pending = s.pending := by unfold modClus; rfl
@[simp] theorem retune_pending (s : State) (c : Nat) : (retune s c).pending = s.pending := by unfold retune; rfl
@[simp] theorem retuneAll_pending (s : State) (p : Nat → Bool) : (retuneAll s p).pending = s.pending := by
  unfold retuneAll; rw [stepFresh_pending, modClus_pending]
@[simp] theorem modClus_mem (s : State) (p : Nat → Bool) (g : Nat → Clu → Clu) : (modClus s p g).mem = s.mem := by unfold modClus; rfl
@[simp] theorem retune_mem (s : State) (c : Nat) : (retune s c).mem = s.mem := by unfold retune; rfl
@[simp] theorem retuneAll_mem (s : State) (p : Nat → Bool) : (retuneAll s p).mem = s.mem := by
  unfold retuneAll; rw [stepFresh_mem, modClus_mem]
@[simp] theorem modClus_hub (s : State) (p : Nat → Bool) (g : Nat → Clu → Clu) : (modClus s p g).hub = s.hub := by unfold modClus; rfl
@[simp] theorem retune_hub (s : State) (c : Nat) : (retune s c).hub = s.hub := by unfold retune; rfl
@[simp] theorem retuneAll_hub (s : State) (p : Nat → Bool) : (retuneAll s p).hub = s.hub := by
  unfold retuneAll; rw [stepFresh_hub, modClus_hub]
@[simp] theorem modClus_lnk (s : State) (p : Nat → Bool) (g : Nat → Clu → Clu) : (modClus s p g).lnk = s.lnk := by unfold modClus; rfl
@[simp] theorem retune_lnk (s : State) (c : Nat) : (retune s c).lnk = s.lnk := by unfold retune; rfl
@[simp] theorem retuneAll_lnk (s : State) (p : Nat → Bool) : (retuneAll s p).lnk = s.lnk := by
  unfold retuneAll; rw [stepFresh_lnk, modClus_lnk]
@[simp] theorem modClus_clock (s : State) (p : Nat → Bool) (g : Nat → Clu → Clu) : (modClus s p g).clock = s.clock := by unfold modClus; rfl
@[simp] theorem retune_clock (s : State) (c : Nat) : (retune s c).clock = s.clock := by unfold retune; rfl
@[simp] theorem retuneAll_clock (s : State) (p : Nat → Bool) : (retuneAll s p).clock = s.clock := by
  unfold retuneAll; rw [stepFresh_clock, modClus_clock]
@[simp] theorem modClus_ecl (s : State) (p : Nat → Bool) (g : Nat → Clu → Clu) : (modClus s p g).ecl = s.ecl := by unfold modClus; rfl
@[simp] theorem retune_ecl (s : State) (c : Nat) : (retune s c).ecl = s.ecl := by unfold retune; rfl
@[simp] theorem retuneAll_ecl (s : State) (p : Nat → Bool) : (retuneAll s p).ecl = s.ecl := by
  unfold retuneAll; rw [stepFresh_ecl, modClus_ecl]
@[simp] theorem modClus_pow (s : State) (p : Nat → Bool) (g : Nat → Clu → Clu) : (modClus s p g).pow = s.pow := by unfold modClus; rfl
@[simp] theorem retune_pow (s : State) (c : Nat) : (retune s c).pow = s.pow := by unfold retune; rfl
@[simp] theorem retuneAll_pow (s : State) (p : Nat → Bool) : (retuneAll s p).pow = s.pow := by
  unfold retuneAll; rw [stepFresh_pow, modClus_pow]
@[simp] theorem modClus_fuses (s : State) (p : Nat → Bool) (g : Nat → Clu → Clu) : (modClus s p g).fuses = s.fuses := by unfold modClus; rfl
@[simp] theorem retune_fuses (s : State) (c : Nat) : (retune s c).fuses = s.fuses := by unfold retune; rfl
@[simp] theorem retuneAll_fuses (s : State) (p : Nat → Bool) : (retuneAll s p).fuses = s.fuses := by
  unfold retuneAll; rw [stepFresh_fuses, modClus_fuses]
@[simp] theorem modClus_sec (s : State) (p : Nat → Bool) (g : Nat → Clu → Clu) : (modClus s p g).sec = s.sec := by unfold modClus; rfl
@[simp] theorem retune_sec (s : State) (c : Nat) : (retune s c).sec = s.sec := by unfold retune; rfl
@[simp] theorem retuneAll_sec (s : State) (p : Nat → Bool) : (retuneAll s p).sec = s.sec := by
  unfold retuneAll; rw [stepFresh_sec, modClus_sec]
@[simp] theorem modClus_mng (s : State) (p : Nat → Bool) (g : Nat → Clu → Clu) : (modClus s p g).mng = s.mng := by unfold modClus; rfl
@[simp] theorem retune_mng (s : State) (c : Nat) : (retune s c).mng = s.mng := by unfold retune; rfl
@[simp] theorem retuneAll_mng (s : State) (p : Nat → Bool) : (retuneAll s p).mng = s.mng := by
  unfold retuneAll; rw [stepFresh_mng, modClus_mng]
@[simp] theorem modClus_regs (s : State) (p : Nat → Bool) (g : Nat → Clu → Clu) : (modClus s p g).regs = s.regs := by unfold modClus; rfl
@[simp] theorem retune_regs (s : State) (c : Nat) : (retune s c).regs = s.regs := by unfold retune; rfl
@[simp] theorem retuneAll_regs (s : State) (p : Nat → Bool) : (retuneAll s p).regs = s.regs := by
  unfold retuneAll; rw [stepFresh_regs, modClus_regs]
@[simp] theorem modClus_ctrs (s : State) (p : Nat → Bool) (g : Nat → Clu → Clu) : (modClus s p g).ctrs = s.ctrs := by unfold modClus; rfl
@[simp] theorem retune_ctrs (s : State) (c : Nat) : (retune s c).ctrs = s.ctrs := by unfold retune; rfl
@[simp] theorem retuneAll_ctrs (s : State) (p : Nat → Bool) : (retuneAll s p).ctrs = s.ctrs := by
  unfold retuneAll; rw [stepFresh_ctrs, modClus_ctrs]
@[simp] theorem modClus_nowTick (s : State) (p : Nat → Bool) (g : Nat → Clu → Clu) : (modClus s p g).nowTick = s.nowTick := by unfold modClus; rfl
@[simp] theorem retune_nowTick (s : State) (c : Nat) : (retune s c).nowTick = s.nowTick := by unfold retune; rfl
@[simp] theorem retuneAll_nowTick (s : State) (p : Nat → Bool) : (retuneAll s p).nowTick = s.nowTick := by
  unfold retuneAll; rw [stepFresh_nowTick, modClus_nowTick]
@[simp] theorem modClus_nowCtr (s : State) (p : Nat → Bool) (g : Nat → Clu → Clu) : (modClus s p g).nowCtr = s.nowCtr := by unfold modClus; rfl
@[simp] theorem retune_nowCtr (s : State) (c : Nat) : (retune s c).nowCtr = s.nowCtr := by unfold retune; rfl
@[simp] theorem retuneAll_nowCtr (s : State) (p : Nat → Bool) : (retuneAll s p).nowCtr = s.nowCtr := by
  unfold retuneAll; rw [stepFresh_nowCtr, modClus_nowCtr]
@[simp] theorem modClus_nowSet (s : State) (p : Nat → Bool) (g : Nat → Clu → Clu) : (modClus s p g).nowSet = s.nowSet := by unfold modClus; rfl
@[simp] theorem retune_nowSet (s : State) (c : Nat) : (retune s c).nowSet = s.nowSet := by unfold retune; rfl
@[simp] theorem retuneAll_nowSet (s : State) (p : Nat → Bool) : (retuneAll s p).nowSet = s.nowSet := by
  unfold retuneAll; rw [stepFresh_nowSet, modClus_nowSet]
@[simp] theorem modClus_host (s : State) (p : Nat → Bool) (g : Nat → Clu → Clu) : (modClus s p g).host = s.host := by unfold modClus; rfl
@[simp] theorem retune_host (s : State) (c : Nat) : (retune s c).host = s.host := by unfold retune; rfl
@[simp] theorem retuneAll_host (s : State) (p : Nat → Bool) : (retuneAll s p).host = s.host := by
  unfold retuneAll; rw [stepFresh_host, modClus_host]
@[simp] theorem modClus_fresh (s : State) (p : Nat → Bool) (g : Nat → Clu → Clu) : (modClus s p g).fresh = s.fresh := by unfold modClus; rfl
@[simp] theorem modClus_out (s : State) (p : Nat → Bool) (g : Nat → Clu → Clu) : (modClus s p g).out = s.out := by unfold modClus; rfl
@[simp] theorem retune_out (s : State) (c : Nat) : (retune s c).out = s.out := by unfold retune; rfl
@[simp] theorem retuneAll_out (s : State) (p : Nat → Bool) : (retuneAll s p).out = s.out := by
  unfold retuneAll; rw [stepFresh_out, modClus_out]
@[simp] theorem modClus_cl_slots (s : State) (p : Nat → Bool) (g : Nat → Clu → Clu) : (modClus s p g).cl.slots = s.cl.slots := by unfold modClus; rfl
@[simp] theorem retune_cl_slots (s : State) (c : Nat) : (retune s c).cl.slots = s.cl.slots := by unfold retune; rfl
@[simp] theorem retuneAll_cl_slots (s : State) (p : Nat → Bool) : (retuneAll s p).cl.slots = s.cl.slots := by
  unfold retuneAll; rw [stepFresh_cl, modClus_cl_slots]
@[simp] theorem modClus_cl_tiles (s : State) (p : Nat → Bool) (g : Nat → Clu → Clu) : (modClus s p g).cl.tiles = s.cl.tiles := by unfold modClus; rfl
@[simp] theorem retune_cl_tiles (s : State) (c : Nat) : (retune s c).cl.tiles = s.cl.tiles := by unfold retune; rfl
@[simp] theorem retuneAll_cl_tiles (s : State) (p : Nat → Bool) : (retuneAll s p).cl.tiles = s.cl.tiles := by
  unfold retuneAll; rw [stepFresh_cl, modClus_cl_tiles]
@[simp] theorem modClus_cl_spad (s : State) (p : Nat → Bool) (g : Nat → Clu → Clu) : (modClus s p g).cl.spad = s.cl.spad := by unfold modClus; rfl
@[simp] theorem retune_cl_spad (s : State) (c : Nat) : (retune s c).cl.spad = s.cl.spad := by unfold retune; rfl
@[simp] theorem retuneAll_cl_spad (s : State) (p : Nat → Bool) : (retuneAll s p).cl.spad = s.cl.spad := by
  unfold retuneAll; rw [stepFresh_cl, modClus_cl_spad]
@[simp] theorem modClus_cl_spadPoi (s : State) (p : Nat → Bool) (g : Nat → Clu → Clu) : (modClus s p g).cl.spadPoi = s.cl.spadPoi := by unfold modClus; rfl
@[simp] theorem retune_cl_spadPoi (s : State) (c : Nat) : (retune s c).cl.spadPoi = s.cl.spadPoi := by unfold retune; rfl
@[simp] theorem retuneAll_cl_spadPoi (s : State) (p : Nat → Bool) : (retuneAll s p).cl.spadPoi = s.cl.spadPoi := by
  unfold retuneAll; rw [stepFresh_cl, modClus_cl_spadPoi]
@[simp] theorem modClus_cl_spadErr (s : State) (p : Nat → Bool) (g : Nat → Clu → Clu) : (modClus s p g).cl.spadErr = s.cl.spadErr := by unfold modClus; rfl
@[simp] theorem retune_cl_spadErr (s : State) (c : Nat) : (retune s c).cl.spadErr = s.cl.spadErr := by unfold retune; rfl
@[simp] theorem retuneAll_cl_spadErr (s : State) (p : Nat → Bool) : (retuneAll s p).cl.spadErr = s.cl.spadErr := by
  unfold retuneAll; rw [stepFresh_cl, modClus_cl_spadErr]
@[simp] theorem modClus_cl_wst (s : State) (p : Nat → Bool) (g : Nat → Clu → Clu) : (modClus s p g).cl.wst = s.cl.wst := by unfold modClus; rfl
@[simp] theorem retune_cl_wst (s : State) (c : Nat) : (retune s c).cl.wst = s.cl.wst := by unfold retune; rfl
@[simp] theorem retuneAll_cl_wst (s : State) (p : Nat → Bool) : (retuneAll s p).cl.wst = s.cl.wst := by
  unfold retuneAll; rw [stepFresh_cl, modClus_cl_wst]
@[simp] theorem modClus_cl_wErr (s : State) (p : Nat → Bool) (g : Nat → Clu → Clu) : (modClus s p g).cl.wErr = s.cl.wErr := by unfold modClus; rfl
@[simp] theorem retune_cl_wErr (s : State) (c : Nat) : (retune s c).cl.wErr = s.cl.wErr := by unfold retune; rfl
@[simp] theorem retuneAll_cl_wErr (s : State) (p : Nat → Bool) : (retuneAll s p).cl.wErr = s.cl.wErr := by
  unfold retuneAll; rw [stepFresh_cl, modClus_cl_wErr]

end Sys2Proof.Machine
end

