-- ==== Sys2Proof/Laws/Issue.lean ====
section
/-! SUPPORT. What issuing, retiring and tracing a sequencer instruction can do (R148, R151, R157, R471). -/

namespace Sys2Proof.Machine

/-- Setting a slot changes that slot alone. -/
theorem onlySlot_put (c sl : Nat) (s : State) (v : Slot) : onlySlot c sl s (putSlot s c sl v) :=
  ⟨rfl, fun k hk => by simp only [putSlot]; exact tabGet_set_other _ _ _ _ hk⟩

/-- A slot's command on a running clock answers what its meaning answers. -/
theorem slotRun_gives {s : State} {c sl : Nat} (h : slotLive s c sl) (g : State → State) :
    slotRun s c sl g = .next (g s) := by
  obtain ⟨a, b, d, e⟩ := h
  simp [slotRun, cluRun, cluCmd, hubCmd, a, b, d, e]

/-- An instruction that can issue runs its meaning. -/
theorem issueWith_go {s : State} {c sl : Nat} {rs : List (BitVec 5)} (h : canIssue s c sl rs = true) (i : Instr) (g : State → State) :
    issueWith s c sl rs i g = g s := by
  simp [canIssue] at h
  obtain ⟨⟨⟨⟨a, b⟩, d⟩, e⟩, f⟩ := h
  simp [issueWith, a, b, d, Nat.not_le.mpr e]
  intro x hx hy
  simp [f x hx] at hy

/-- A register written reads as written, register 0 as 0 (R148). -/
theorem rget_rset_self (k : Slot) (r : BitVec 5) (v : Word) : rget (rset k r v) r = if r = 0 then 0 else v := by
  unfold rget rset; split <;> simp_all

theorem rget_rset_other (k : Slot) (r x : BitVec 5) (v : Word) (h : x ≠ r) : rget (rset k r v) x = rget k x := by
  unfold rget rset
  split
  · rfl
  · split
    · rfl
    · simp only []
      apply tabGet_set_other
      intro e; exact h (BitVec.eq_of_toNat_eq e)

theorem rget_rsetLate_self (k : Slot) (r : BitVec 5) (v : Word) (n : Nat) : rget (rsetLate k r v n) r = if r = 0 then 0 else v := by
  unfold rget rsetLate; split <;> simp_all

theorem rget_rsetLate_other (k : Slot) (r x : BitVec 5) (v : Word) (n : Nat) (h : x ≠ r) : rget (rsetLate k r v n) x = rget k x := by
  unfold rget rsetLate
  split
  · rfl
  · split
    · rfl
    · simp only []
      apply tabGet_set_other
      intro e; exact h (BitVec.eq_of_toNat_eq e)

theorem onlyReg_rset (k : Slot) (r : BitVec 5) (v : Word) (s : State) (pc : BitVec 14) :
    onlyReg r k { rset (issued s k) r v with pc := pc } := by
  refine ⟨?_, ?_⟩
  · unfold rset issued ageBusy; split <;> rfl
  · intro x hx
    show rget (rset (issued s k) r v) x = _
    rw [rget_rset_other _ _ _ _ hx]; rfl

theorem onlyReg_rsetLate (k : Slot) (r : BitVec 5) (v : Word) (n : Nat) (s : State) (pc : BitVec 14) :
    onlyReg r k { rsetLate (issued s k) r v n with pc := pc } := by
  refine ⟨?_, ?_⟩
  · unfold rsetLate issued ageBusy; split <;> rfl
  · intro x hx
    show rget (rsetLate (issued s k) r v n) x = _
    rw [rget_rsetLate_other _ _ _ _ _ hx]; rfl

/-- All that an ALU instruction does: its register, the PC, the ageing of the scoreboard. -/
theorem wrote_alu (s : State) (c sl : Nat) (rd : BitVec 5) (v : Word) : wrote c sl rd v (pcNext s c sl) s (retireAlu s c sl rd v) := by
  refine ⟨onlySlot_put _ _ _ _, ?_, ?_, ?_⟩
  · unfold retireAlu retire; rw [getSlot_put_self]; unfold nextPc
    exact onlyReg_rset _ _ _ _ _
  · unfold sreg retireAlu retire; rw [getSlot_put_self]
    show rget (rset _ rd v) rd = _
    exact rget_rset_self _ _ _
  · unfold retireAlu retire; rw [getSlot_put_self]; unfold nextPc rset issued ageBusy pcNext; split <;> rfl

/-- All that a multiply or a load does: its register, marked late, and the PC. -/
theorem wrote_mul (s : State) (c sl : Nat) (rd : BitVec 5) (v : Word) : wrote c sl rd v (pcNext s c sl) s (retireMul s c sl rd v) := by
  refine ⟨onlySlot_put _ _ _ _, ?_, ?_, ?_⟩
  · unfold retireMul retire; rw [getSlot_put_self]; unfold nextPc
    exact onlyReg_rsetLate _ _ _ _ _ _
  · unfold sreg retireMul retire; rw [getSlot_put_self]
    show rget (rsetLate _ rd v _) rd = _
    exact rget_rsetLate_self _ _ _ _
  · unfold retireMul retire; rw [getSlot_put_self]; unfold nextPc rsetLate issued ageBusy pcNext; split <;> rfl

/-- A three-register instruction that issues writes its function of the two sources. -/
theorem rrr {s : State} {c sl : Nat} {rd rs1 rs2 : BitVec 5} (h : ready s c sl [rs1, rs2]) (i : Instr) (f : Word → Word → Word) (v : Word)
    (hi : exec i s = slotRun s c sl (aluRRR i c sl rd rs1 rs2 f)) (hv : f (sreg s c sl rs1) (sreg s c sl rs2) = v) :
    gives i s (wrote c sl rd v (pcNext s c sl) s) := by
  refine ⟨_, ?_, wrote_alu s c sl rd v⟩
  rw [hi, slotRun_gives h.1, aluRRR, issueWith_go h.2, hv]

/-- An immediate instruction that issues writes its function of the source. -/
theorem rri {s : State} {c sl : Nat} {rd rs1 : BitVec 5} (h : ready s c sl [rs1]) (i : Instr) (bad : Bool) (f : Word → Word) (v : Word)
    (hb : bad = false) (hi : exec i s = slotRun s c sl (aluRRI i c sl rd rs1 bad f)) (hv : f (sreg s c sl rs1) = v) :
    gives i s (wrote c sl rd v (pcNext s c sl) s) := by
  refine ⟨_, ?_, wrote_alu s c sl rd v⟩
  subst hb
  rw [hi, slotRun_gives h.1, aluRRI, issueWith_go h.2, ← hv]; rfl

/-- An instruction that issues answers the state its own effect gives. -/
theorem run_gives {s : State} {c sl : Nat} {rs : List (BitVec 5)} (h : ready s c sl rs) (i : Instr) (g : State → State)
    (p : State → Prop) (hi : exec i s = slotRun s c sl (fun s => issueWith s c sl rs i g)) (hp : p (g s)) : gives i s p := by
  refine ⟨_, ?_, hp⟩
  rw [hi, slotRun_gives h.1, issueWith_go h.2]

/-- Only the trace of a slot, its cluster's part and counters differ. -/
def trcOnly (c sl : Nat) (s t : State) : Prop :=
  onlyCluster c sl s t ∧ getSlot t c sl = { getSlot s c sl with trc := (getSlot t c sl).trc }

theorem onlyCluster_refl (c sl : Nat) (s : State) : onlyCluster c sl s s := ⟨rfl, fun _ _ => rfl, fun _ _ => rfl⟩

theorem onlyCluster_trans {c sl : Nat} {s t u : State} (h : onlyCluster c sl s t) (g : onlyCluster c sl t u) : onlyCluster c sl s u := by
  refine ⟨?_, fun k hk => (g.2.1 k hk).trans (h.2.1 k hk), fun k hk => (g.2.2 k hk).trans (h.2.2 k hk)⟩
  rw [g.1, h.1]

theorem onlyCluster_put (c sl : Nat) (s : State) (v : Slot) : onlyCluster c sl s (putSlot s c sl v) :=
  ⟨rfl, fun k hk => tabGet_set_other _ _ _ _ hk, fun _ _ => rfl⟩

theorem onlyCluster_clu (c sl : Nat) (s : State) (g : Clu → Clu) : onlyCluster c sl s (modClu s c g) :=
  ⟨rfl, fun k hk => rfl, fun k hk => tabGet_set_other _ _ _ _ hk⟩

theorem onlyCluster_bump (c sl w : Nat) (s : State) (a n : Nat) : onlyCluster c sl s (bumpW w s a n) := ⟨rfl, fun _ _ => rfl, fun _ _ => rfl⟩

theorem getSlot_bumpW (w : Nat) (s : State) (a n c sl : Nat) : getSlot (bumpW w s a n) c sl = getSlot s c sl := rfl

theorem trcOnly_refl (c sl : Nat) (s : State) : trcOnly c sl s s := ⟨onlyCluster_refl _ _ _, rfl⟩

theorem trcOnly_trans {c sl : Nat} {s t u : State} (h : trcOnly c sl s t) (g : trcOnly c sl t u) : trcOnly c sl s u := by
  refine ⟨onlyCluster_trans h.1 g.1, ?_⟩
  rw [g.2, h.2]

theorem trcOnly_mod (c sl : Nat) (s : State) (g : SlotTrc → SlotTrc) : trcOnly c sl s (modTrc s c sl g) := by
  refine ⟨onlyCluster_put _ _ _ _, ?_⟩
  unfold modTrc modSlot; rw [getSlot_put_self]

theorem trcOnly_clu (c sl : Nat) (s : State) (g : Clu → Clu) : trcOnly c sl s (modClu s c g) := ⟨onlyCluster_clu _ _ _ _, rfl⟩

theorem trcOnly_bump (c sl : Nat) (s : State) (o n : Nat) : trcOnly c sl s (bumpC s c o n) := by
  refine ⟨onlyCluster_bump _ _ _ _ _ _, ?_⟩
  unfold bumpC bump; rw [getSlot_bumpW]

theorem trcOnly_append (c sl : Nat) (s : State) (t : Nat) (b : List Byte) : trcOnly c sl s (trcAppend s c sl t b) := by
  unfold trcAppend
  exact trcOnly_trans (trcOnly_clu c sl s _) (trcOnly_mod c sl _ _)

theorem trcOnly_one (c sl : Nat) (s : State) (t : Nat) (b : List Byte) : trcOnly c sl s (trcOne s c sl t b) := by
  unfold trcOne
  simp only []
  split
  · refine trcOnly_trans ?_ (trcOnly_mod c sl _ _)
    refine trcOnly_trans ?_ (trcOnly_append c sl _ _ _)
    split
    · refine trcOnly_trans ?_ (trcOnly_append c sl _ _ _)
      split
      · exact trcOnly_append c sl _ _ _
      · exact trcOnly_refl _ _ _
    · split
      · exact trcOnly_append c sl _ _ _
      · exact trcOnly_refl _ _ _
  · split
    · exact trcOnly_mod c sl s _
    · exact trcOnly_trans (trcOnly_bump c sl s _ _) (trcOnly_mod c sl _ _)

theorem trcOnly_flush (c sl : Nat) (s : State) : trcOnly c sl s (trcFlushBranch s c sl) := by
  unfold trcFlushBranch
  simp only []
  split
  · exact trcOnly_refl _ _ _
  · exact trcOnly_trans (trcOnly_one c sl s _ _) (trcOnly_mod c sl _ _)

/-- A trace record changes its slot's trace, the cluster's trace buffer and counters. -/
theorem trcOnly_put (c sl : Nat) (s : State) (t : Nat) (b : List Byte) : trcOnly c sl s (trcPut s c sl t b) := by
  unfold trcPut
  split
  · exact trcOnly_trans (trcOnly_flush c sl s) (trcOnly_one c sl _ _ _)
  · exact trcOnly_refl _ _ _

/-- So does the record of a branch. -/
theorem trcOnly_branch (c sl : Nat) (s : State) (pc : Nat) (b : Bool) : trcOnly c sl s (trcBranch s c sl pc b) := by
  unfold trcBranch
  split
  · simp only []
    split
    · exact trcOnly_trans (trcOnly_mod c sl s _) (trcOnly_flush c sl _)
    · exact trcOnly_mod c sl s _
  · exact trcOnly_refl _ _ _

theorem trcOnly.reg {c sl : Nat} {s t : State} (h : trcOnly c sl s t) (r : BitVec 5) : sreg t c sl r = sreg s c sl r := by
  unfold sreg; rw [h.2]; rfl

theorem trcOnly.pc {c sl : Nat} {s t : State} (h : trcOnly c sl s t) : pcOf t c sl = pcOf s c sl := by
  unfold pcOf; rw [h.2]

theorem trcOnly.st {c sl : Nat} {s t : State} (h : trcOnly c sl s t) : (getSlot t c sl).st = (getSlot s c sl).st := by
  rw [h.2]

theorem canIssue_st {s : State} {c sl : Nat} {rs : List (BitVec 5)} (h : canIssue s c sl rs = true) : (getSlot s c sl).st = .running := by
  simp [canIssue] at h; exact h.1.1.1.1

/-- Retiring changes the slot alone. -/
theorem onlyCluster_retire (c sl : Nat) (s : State) (g : Slot → Slot) : onlyCluster c sl s (retire s c sl g) := onlyCluster_put _ _ _ _

theorem getSlot_retire (c sl : Nat) (s : State) (g : Slot → Slot) : getSlot (retire s c sl g) c sl = g (issued s (getSlot s c sl)) := by
  unfold retire; rw [getSlot_put_self]
end Sys2Proof.Machine
end

