-- ==== Sys2Proof/Laws/Keep.lean ====
section
/-! SUPPORT. What every command keeps, as one predicate whose lemmas stand in Laws/Keep1 to Keep7: the queue, the canonical form
of memories and of the tables of poison marks and errors, locked image keys, the minimum security version. -/

namespace Sys2Proof.Machine

/-- What is kept: a queue; canonical memories and tables, where asked; locked keys, where asked; a lower bound of MIN_SVN. -/
structure KeepArgs where
  queue : List Instr
  canon : Bool
  lock : Option Mem
  svn : Nat

/-- The canonical form of the parts that `State.memOk` names. -/
structure Canon (spad wst dev host rt keys : Mem) (sp se we dp : Tab Nat) (de : Tab (List (Nat × Nat))) : Prop where
  spadOk : Memory.wf spad = true
  wstOk : Memory.wf wst = true
  devOk : Memory.wf dev = true
  hostOk : Memory.wf host = true
  rtOk : Memory.wf rt = true
  keysOk : Memory.wf keys = true
  spOk : tabSorted sp = true
  seOk : tabSorted se = true
  weOk : tabSorted we = true
  dpOk : tabSorted dp = true
  deOk : tabSorted de = true

/-- The predicate over the parts of a state that it reads. -/
def KeepV (q : KeepArgs) (p : List Instr) (spad wst dev host rt keys : Mem) (sp se we dp : Tab Nat) (de : Tab (List (Nat × Nat)))
    (locked : Bool) (svn : Nat) : Prop :=
  p = q.queue ∧ (q.canon = true → Canon spad wst dev host rt keys sp se we dp de) ∧
    (∀ k, q.lock = some k → locked = true ∧ keys = k) ∧ q.svn ≤ svn

/-- The predicate over a state. -/
def Keep (q : KeepArgs) (s : State) : Prop :=
  KeepV q s.pending s.cl.spad s.cl.wst s.mem.dev s.host s.lnk.rt s.sec.keys s.cl.spadPoi s.cl.spadErr s.cl.wErr s.mem.devPoi s.mem.devErr
    s.sec.keylock s.fuses.minSvn

theorem keep_mk (q : KeepArgs) (a : List Instr) (b : Clusters) (c : Stacks) (d : Hub) (e : Links) (f : Clock) (g : Eclipse)
    (h : Power) (i : Fuses) (j : Security) (k : Manage) (l : Tab Word) (m : Tab Nat) (n : Nat) (o : Tab (Nat × Nat))
    (p : Tab Nat) (z : Tab PcQ) (r : Mem) (t : Nat) (u : List Out) :
    Keep q (State.mk a b c d e f g h i j k l m n o p z r t u) ↔
      KeepV q a b.spad b.wst c.dev r e.rt j.keys b.spadPoi b.spadErr b.wErr c.devPoi c.devErr
        j.keylock i.minSvn := ⟨fun x => x, fun x => x⟩

theorem keep_fold (q : KeepArgs) (s : State) :
    KeepV q s.pending s.cl.spad s.cl.wst s.mem.dev s.host s.lnk.rt s.sec.keys s.cl.spadPoi s.cl.spadErr s.cl.wErr s.mem.devPoi s.mem.devErr
      s.sec.keylock s.fuses.minSvn ↔ Keep q s := ⟨fun x => x, fun x => x⟩

theorem keep_if {q : KeepArgs} {c : Prop} [Decidable c] {a b : State} (ha : Keep q a) (hb : Keep q b) :
    Keep q (if c then a else b) := by
  split
  · exact ha
  · exact hb

theorem keep_foldl {α : Type} (q : KeepArgs) (g : State → α → State) (l : List α) (s : State)
    (hg : ∀ s x, Keep q s → Keep q (g s x)) (h : Keep q s) : Keep q (l.foldl g s) := by
  induction l generalizing s with
  | nil => exact h
  | cons x l ih => exact ih (g s x) (hg s x h)

section
variable {q : KeepArgs} {p : List Instr} {spad wst dev host rt keys : Mem} {sp se we dp : Tab Nat} {de : Tab (List (Nat × Nat))}
  {l : Bool} {n : Nat}

theorem keepV_spad (k : Nat) (bs : List Byte) (x : KeepV q p spad wst dev host rt keys sp se we dp de l n) :
    KeepV q p (memPut spad k bs) wst dev host rt keys sp se we dp de l n :=
  ⟨x.1, fun c => { x.2.1 c with spadOk := memPut_wf (x.2.1 c).spadOk k bs }, x.2.2⟩

theorem keepV_wst (k : Nat) (bs : List Byte) (x : KeepV q p spad wst dev host rt keys sp se we dp de l n) :
    KeepV q p spad (memPut wst k bs) dev host rt keys sp se we dp de l n :=
  ⟨x.1, fun c => { x.2.1 c with wstOk := memPut_wf (x.2.1 c).wstOk k bs }, x.2.2⟩

theorem keepV_dev (k : Nat) (bs : List Byte) (x : KeepV q p spad wst dev host rt keys sp se we dp de l n) :
    KeepV q p spad wst (memPut dev k bs) host rt keys sp se we dp de l n :=
  ⟨x.1, fun c => { x.2.1 c with devOk := memPut_wf (x.2.1 c).devOk k bs }, x.2.2⟩

theorem keepV_host (k : Nat) (bs : List Byte) (x : KeepV q p spad wst dev host rt keys sp se we dp de l n) :
    KeepV q p spad wst dev (memPut host k bs) rt keys sp se we dp de l n :=
  ⟨x.1, fun c => { x.2.1 c with hostOk := memPut_wf (x.2.1 c).hostOk k bs }, x.2.2⟩

theorem keepV_rt (k : Nat) (bs : List Byte) (x : KeepV q p spad wst dev host rt keys sp se we dp de l n) :
    KeepV q p spad wst dev host (memPut rt k bs) keys sp se we dp de l n :=
  ⟨x.1, fun c => { x.2.1 c with rtOk := memPut_wf (x.2.1 c).rtOk k bs }, x.2.2⟩

theorem keepV_spadZero (k m : Nat) (x : KeepV q p spad wst dev host rt keys sp se we dp de l n) :
    KeepV q p (memZero spad k m) wst dev host rt keys sp se we dp de l n :=
  ⟨x.1, fun c => { x.2.1 c with spadOk := memZero_wf (x.2.1 c).spadOk k m }, x.2.2⟩

theorem keepV_wstZero (k m : Nat) (x : KeepV q p spad wst dev host rt keys sp se we dp de l n) :
    KeepV q p spad (memZero wst k m) dev host rt keys sp se we dp de l n :=
  ⟨x.1, fun c => { x.2.1 c with wstOk := memZero_wf (x.2.1 c).wstOk k m }, x.2.2⟩

theorem keepV_devZero (k m : Nat) (x : KeepV q p spad wst dev host rt keys sp se we dp de l n) :
    KeepV q p spad wst (memZero dev k m) host rt keys sp se we dp de l n :=
  ⟨x.1, fun c => { x.2.1 c with devOk := memZero_wf (x.2.1 c).devOk k m }, x.2.2⟩

theorem keepV_spadMove (i j k : Nat) (x : KeepV q p spad wst dev host rt keys sp se we dp de l n) :
    KeepV q p (tabMove spad spad i j k) wst dev host rt keys sp se we dp de l n :=
  ⟨x.1, fun c => { x.2.1 c with spadOk := tabMove_wf (x.2.1 c).spadOk (x.2.1 c).spadOk i j k }, x.2.2⟩

theorem keepV_spadIn (i j k : Nat) (x : KeepV q p spad wst dev host rt keys sp se we dp de l n) :
    KeepV q p (tabMove dev spad i j k) wst dev host rt keys sp se we dp de l n :=
  ⟨x.1, fun c => { x.2.1 c with spadOk := tabMove_wf (x.2.1 c).devOk (x.2.1 c).spadOk i j k }, x.2.2⟩

theorem keepV_devOut (i j k : Nat) (x : KeepV q p spad wst dev host rt keys sp se we dp de l n) :
    KeepV q p spad wst (tabMove spad dev i j k) host rt keys sp se we dp de l n :=
  ⟨x.1, fun c => { x.2.1 c with devOk := tabMove_wf (x.2.1 c).spadOk (x.2.1 c).devOk i j k }, x.2.2⟩

theorem keepV_spPut (k : Nat) (v : Nat) (x : KeepV q p spad wst dev host rt keys sp se we dp de l n) :
    KeepV q p spad wst dev host rt keys (tabPut 0 sp k v) se we dp de l n :=
  ⟨x.1, fun c => { x.2.1 c with spOk := tabSorted_put (x.2.1 c).spOk k v }, x.2.2⟩

theorem keepV_spDrop (k m : Nat) (x : KeepV q p spad wst dev host rt keys sp se we dp de l n) :
    KeepV q p spad wst dev host rt keys (tabDrop sp k m) se we dp de l n :=
  ⟨x.1, fun c => { x.2.1 c with spOk := tabSorted_filter (x.2.1 c).spOk _ }, x.2.2⟩

theorem keepV_spSet (k : Nat) (v : Nat) (x : KeepV q p spad wst dev host rt keys sp se we dp de l n) :
    KeepV q p spad wst dev host rt keys (tabSet sp k v) se we dp de l n :=
  ⟨x.1, fun c => { x.2.1 c with spOk := tabSorted_set (x.2.1 c).spOk k v }, x.2.2⟩

theorem keepV_spDel (k : Nat) (x : KeepV q p spad wst dev host rt keys sp se we dp de l n) :
    KeepV q p spad wst dev host rt keys (tabDel sp k) se we dp de l n :=
  ⟨x.1, fun c => { x.2.1 c with spOk := tabSorted_del (x.2.1 c).spOk k }, x.2.2⟩

theorem keepV_sePut (k : Nat) (v : Nat) (x : KeepV q p spad wst dev host rt keys sp se we dp de l n) :
    KeepV q p spad wst dev host rt keys sp (tabPut 0 se k v) we dp de l n :=
  ⟨x.1, fun c => { x.2.1 c with seOk := tabSorted_put (x.2.1 c).seOk k v }, x.2.2⟩

theorem keepV_seDrop (k m : Nat) (x : KeepV q p spad wst dev host rt keys sp se we dp de l n) :
    KeepV q p spad wst dev host rt keys sp (tabDrop se k m) we dp de l n :=
  ⟨x.1, fun c => { x.2.1 c with seOk := tabSorted_filter (x.2.1 c).seOk _ }, x.2.2⟩

theorem keepV_seSet (k : Nat) (v : Nat) (x : KeepV q p spad wst dev host rt keys sp se we dp de l n) :
    KeepV q p spad wst dev host rt keys sp (tabSet se k v) we dp de l n :=
  ⟨x.1, fun c => { x.2.1 c with seOk := tabSorted_set (x.2.1 c).seOk k v }, x.2.2⟩

theorem keepV_seDel (k : Nat) (x : KeepV q p spad wst dev host rt keys sp se we dp de l n) :
    KeepV q p spad wst dev host rt keys sp (tabDel se k) we dp de l n :=
  ⟨x.1, fun c => { x.2.1 c with seOk := tabSorted_del (x.2.1 c).seOk k }, x.2.2⟩

theorem keepV_wePut (k : Nat) (v : Nat) (x : KeepV q p spad wst dev host rt keys sp se we dp de l n) :
    KeepV q p spad wst dev host rt keys sp se (tabPut 0 we k v) dp de l n :=
  ⟨x.1, fun c => { x.2.1 c with weOk := tabSorted_put (x.2.1 c).weOk k v }, x.2.2⟩

theorem keepV_weDrop (k m : Nat) (x : KeepV q p spad wst dev host rt keys sp se we dp de l n) :
    KeepV q p spad wst dev host rt keys sp se (tabDrop we k m) dp de l n :=
  ⟨x.1, fun c => { x.2.1 c with weOk := tabSorted_filter (x.2.1 c).weOk _ }, x.2.2⟩

theorem keepV_weSet (k : Nat) (v : Nat) (x : KeepV q p spad wst dev host rt keys sp se we dp de l n) :
    KeepV q p spad wst dev host rt keys sp se (tabSet we k v) dp de l n :=
  ⟨x.1, fun c => { x.2.1 c with weOk := tabSorted_set (x.2.1 c).weOk k v }, x.2.2⟩

theorem keepV_weDel (k : Nat) (x : KeepV q p spad wst dev host rt keys sp se we dp de l n) :
    KeepV q p spad wst dev host rt keys sp se (tabDel we k) dp de l n :=
  ⟨x.1, fun c => { x.2.1 c with weOk := tabSorted_del (x.2.1 c).weOk k }, x.2.2⟩

theorem keepV_dpPut (k : Nat) (v : Nat) (x : KeepV q p spad wst dev host rt keys sp se we dp de l n) :
    KeepV q p spad wst dev host rt keys sp se we (tabPut 0 dp k v) de l n :=
  ⟨x.1, fun c => { x.2.1 c with dpOk := tabSorted_put (x.2.1 c).dpOk k v }, x.2.2⟩

theorem keepV_dpDrop (k m : Nat) (x : KeepV q p spad wst dev host rt keys sp se we dp de l n) :
    KeepV q p spad wst dev host rt keys sp se we (tabDrop dp k m) de l n :=
  ⟨x.1, fun c => { x.2.1 c with dpOk := tabSorted_filter (x.2.1 c).dpOk _ }, x.2.2⟩

theorem keepV_dpSet (k : Nat) (v : Nat) (x : KeepV q p spad wst dev host rt keys sp se we dp de l n) :
    KeepV q p spad wst dev host rt keys sp se we (tabSet dp k v) de l n :=
  ⟨x.1, fun c => { x.2.1 c with dpOk := tabSorted_set (x.2.1 c).dpOk k v }, x.2.2⟩

theorem keepV_dpDel (k : Nat) (x : KeepV q p spad wst dev host rt keys sp se we dp de l n) :
    KeepV q p spad wst dev host rt keys sp se we (tabDel dp k) de l n :=
  ⟨x.1, fun c => { x.2.1 c with dpOk := tabSorted_del (x.2.1 c).dpOk k }, x.2.2⟩

theorem keepV_dePut (k : Nat) (v : List (Nat × Nat)) (x : KeepV q p spad wst dev host rt keys sp se we dp de l n) :
    KeepV q p spad wst dev host rt keys sp se we dp (tabPut [] de k v) l n :=
  ⟨x.1, fun c => { x.2.1 c with deOk := tabSorted_put (x.2.1 c).deOk k v }, x.2.2⟩

theorem keepV_deDrop (k m : Nat) (x : KeepV q p spad wst dev host rt keys sp se we dp de l n) :
    KeepV q p spad wst dev host rt keys sp se we dp (tabDrop de k m) l n :=
  ⟨x.1, fun c => { x.2.1 c with deOk := tabSorted_filter (x.2.1 c).deOk _ }, x.2.2⟩

theorem keepV_deSet (k : Nat) (v : List (Nat × Nat)) (x : KeepV q p spad wst dev host rt keys sp se we dp de l n) :
    KeepV q p spad wst dev host rt keys sp se we dp (tabSet de k v) l n :=
  ⟨x.1, fun c => { x.2.1 c with deOk := tabSorted_set (x.2.1 c).deOk k v }, x.2.2⟩

theorem keepV_deDel (k : Nat) (x : KeepV q p spad wst dev host rt keys sp se we dp de l n) :
    KeepV q p spad wst dev host rt keys sp se we dp (tabDel de k) l n :=
  ⟨x.1, fun c => { x.2.1 c with deOk := tabSorted_del (x.2.1 c).deOk k }, x.2.2⟩

theorem keepV_spMove (i j k : Nat) (x : KeepV q p spad wst dev host rt keys sp se we dp de l n) :
    KeepV q p spad wst dev host rt keys (tabMove sp sp i j k) se we dp de l n :=
  ⟨x.1, fun c => { x.2.1 c with spOk := tabSorted_move _ (x.2.1 c).spOk i j k }, x.2.2⟩

theorem keepV_spFold  {α : Type} (g : Tab Nat → α → Tab Nat) (xs : List α) (hg : ∀ t y, tabSorted t = true → tabSorted (g t y) = true) (x : KeepV q p spad wst dev host rt keys sp se we dp de l n) :
    KeepV q p spad wst dev host rt keys (xs.foldl g sp) se we dp de l n :=
  ⟨x.1, fun c => { x.2.1 c with spOk := tabSorted_foldl g xs hg (x.2.1 c).spOk }, x.2.2⟩

theorem keepV_lock (x : KeepV q p spad wst dev host rt keys sp se we dp de l n) : KeepV q p spad wst dev host rt keys sp se we dp de true n :=
  ⟨x.1, x.2.1, fun k hk => ⟨rfl, (x.2.2.1 k hk).2⟩, x.2.2.2⟩

theorem keepV_svn (m : Nat) (x : KeepV q p spad wst dev host rt keys sp se we dp de l n) :
    KeepV q p spad wst dev host rt keys sp se we dp de l (max n m) :=
  ⟨x.1, x.2.1, x.2.2.1, Nat.le_trans x.2.2.2 (Nat.le_max_left n m)⟩

end

/-- The predicate over the outcome of a narrow access. -/
def KeepN (q : KeepArgs) : Narrow → Prop
  | .got s _ _ => Keep q s
  | .poisoned s => Keep q s
  | .waits => True

/-- The predicate over the outcome of a read of the weight store. -/
def KeepW (q : KeepArgs) : WRes → Prop
  | .ok s => Keep q s
  | .reload s _ _ => Keep q s
  | .lost s _ _ => Keep q s
  | .badRecord s _ => Keep q s

section
variable {q : KeepArgs} {s : State}

theorem keepN_got (e : GEnt) (b : Bool) (h : Keep q s) : KeepN q (.got s e b) := h
theorem keepN_poisoned (h : Keep q s) : KeepN q (.poisoned s) := h
theorem keepN_waits : KeepN q .waits := True.intro
theorem keepW_ok (h : Keep q s) : KeepW q (.ok s) := h
theorem keepW_reload (t n : Nat) (h : Keep q s) : KeepW q (.reload s t n) := h
theorem keepW_lost (t n : Nat) (h : Keep q s) : KeepW q (.lost s t n) := h
theorem keepW_badRecord (n : Nat) (h : Keep q s) : KeepW q (.badRecord s n) := h

theorem keep_ofPair {α : Type} {x : State × α} {r : α} (y : x = (s, r)) (h : Keep q x.1) : Keep q s := by
  subst y; exact h

theorem keepN_ofGot {x : Narrow} {e : GEnt} {b : Bool} (y : x = .got s e b) (h : KeepN q x) : Keep q s := by
  subst y; exact h
theorem keepN_ofPoisoned {x : Narrow} (y : x = .poisoned s) (h : KeepN q x) : Keep q s := by
  subst y; exact h
theorem keepW_ofOk {x : WRes} (y : x = .ok s) (h : KeepW q x) : Keep q s := by
  subst y; exact h
theorem keepW_ofReload {x : WRes} {t n : Nat} (y : x = .reload s t n) (h : KeepW q x) : Keep q s := by
  subst y; exact h
theorem keepW_ofLost {x : WRes} {t n : Nat} (y : x = .lost s t n) (h : KeepW q x) : Keep q s := by
  subst y; exact h
theorem keepW_ofBad {x : WRes} {n : Nat} (y : x = .badRecord s n) (h : KeepW q x) : Keep q s := by
  subst y; exact h

end

/-- `State.memOk` and the canonical form that `Keep` speaks of are the same. -/
theorem memOk_iff (s : State) :
    s.memOk = true ↔ Canon s.cl.spad s.cl.wst s.mem.dev s.host s.lnk.rt s.sec.keys s.cl.spadPoi s.cl.spadErr s.cl.wErr
      s.mem.devPoi s.mem.devErr := by
  unfold State.memOk
  constructor
  · intro h
    simp only [Bool.and_eq_true] at h
    obtain ⟨⟨⟨⟨⟨⟨⟨⟨⟨⟨a, b⟩, c⟩, d⟩, e⟩, f⟩, g⟩, i⟩, j⟩, k⟩, l⟩ := h
    exact ⟨a, b, c, d, e, f, g, i, j, k, l⟩
  · intro ⟨a, b, c, d, e, f, g, i, j, k, l⟩
    simp only [a, b, c, d, e, f, g, i, j, k, l, Bool.and_self]

end Sys2Proof.Machine
end

