-- ==== Sys2Proof/Laws/Keep1.lean ====
section
/-! SUPPORT. One lemma per operation and per command: it keeps what `Keep` says (part 1 of 7, callees before callers). -/

namespace Sys2Proof.Machine

set_option linter.unusedSimpArgs false
set_option linter.unusedVariables false

theorem setReg_keeps (q : KeepArgs) (s : State) (a : Nat) (v : Nat) (h : Keep q s) : Keep q (setReg s a v) := by
  unfold setReg
  repeat' with_reducible
    first
    | assumption | intro _ | split | simp only [keep_mk, keep_fold, id_eq]

theorem nowSync_keeps (q : KeepArgs) (s : State) (h : Keep q s) : Keep q (nowSync s) := by
  unfold nowSync
  repeat' with_reducible
    first
    | assumption | intro _ | split | simp only [keep_mk, keep_fold, id_eq]

theorem bumpW_keeps (q : KeepArgs) (w : Nat) (s : State) (a : Nat) (n : Nat) (h : Keep q s) : Keep q (bumpW w s a n) := by
  unfold bumpW
  repeat' with_reducible
    first
    | assumption | apply nowSync_keeps | apply keepV_spPut | apply keepV_sePut | apply keepV_dpPut | apply keepV_dePut
    | intro _ | split | simp only [keep_mk, keep_fold, id_eq]

theorem bump_keeps (q : KeepArgs) (s : State) (a : Nat) (n : Nat) (h : Keep q s) : Keep q (bump s a n) := by
  unfold bump
  repeat' with_reducible
    first
    | assumption | apply bumpW_keeps | intro _ | split | simp only [keep_mk, keep_fold, id_eq]

theorem bumpC_keeps (q : KeepArgs) (s : State) (c : Nat) (off : Nat) (n : Nat) (h : Keep q s) : Keep q (bumpC s c off n) := by
  unfold bumpC
  repeat' with_reducible
    first
    | assumption | apply bump_keeps | intro _ | split | simp only [keep_mk, keep_fold, id_eq]

theorem hubCmd_keeps (q : KeepArgs) (s : State) (g : State → State) (h_g : ∀ (y0 : State), Keep q y0 → Keep q (g y0)) (h :
    Keep q s) : ∀ u, (hubCmd s g) = .next u → Keep q u := by
  intro u hu; unfold hubCmd at hu; first | (cases hu <;> ((repeat' with_reducible first | assumption | apply h_g | intro _ | split | simp only [keep_mk, keep_fold, id_eq]); done))

theorem dispCmd_keeps (q : KeepArgs) (s : State) (g : State → State) (h_g : ∀ (y0 : State), Keep q y0 → Keep q (g y0)) (h :
    Keep q s) : ∀ u, (dispCmd s g) = .next u → Keep q u := by
  intro u hu; unfold dispCmd at hu; refine hubCmd_keeps q _ _ ?_ h _ hu
  repeat' with_reducible
    first
    | assumption | apply h_g | intro _ | split | simp only [keep_mk, keep_fold, id_eq]

theorem modRing_keeps (q : KeepArgs) (s : State) (f : Nat) (r : Nat) (g : Ring → Ring) (h : Keep q s) : Keep q (modRing s f r
    g) := by
  unfold modRing
  repeat' with_reducible
    first
    | assumption | intro _ | split | simp only [keep_mk, keep_fold, id_eq]

theorem markSet_keeps (q : KeepArgs) (s : State) (a : Nat) (mask : Nat) (h : Keep q s) : Keep q (markSet s a mask) := by
  unfold markSet
  repeat' with_reducible
    first
    | assumption | apply nowSync_keeps | intro _ | split | simp only [keep_mk, keep_fold, id_eq]

theorem cluCmd_keeps (q : KeepArgs) (s : State) (c : Nat) (g : State → State) (h_g : ∀ (y0 : State), Keep q y0 → Keep q (g
    y0)) (h : Keep q s) : ∀ u, (cluCmd s c g) = .next u → Keep q u := by
  intro u hu; unfold cluCmd at hu; (try simp only [] at hu); (repeat' split at hu) <;> first | (cases hu <;> ((repeat' with_reducible first | assumption | apply h_g | intro _ | split | simp only [keep_mk, keep_fold, id_eq]); done)) | (refine hubCmd_keeps q _ _ ?_ ?_ _ hu <;> ((repeat' with_reducible first | assumption | apply h_g | intro _ | split | simp only [keep_mk, keep_fold, id_eq]); done))

theorem putSlot_keeps (q : KeepArgs) (s : State) (c : Nat) (n : Nat) (v : Slot) (h : Keep q s) : Keep q (putSlot s c n v) := by
  unfold putSlot
  repeat' with_reducible
    first
    | assumption | intro _ | split | simp only [keep_mk, keep_fold, id_eq]

theorem stackCmd_keeps (q : KeepArgs) (s : State) (k : Nat) (g : State → State) (h_g : ∀ (y0 : State), Keep q y0 → Keep q (g
    y0)) (h : Keep q s) : ∀ u, (stackCmd s k g) = .next u → Keep q u := by
  intro u hu; unfold stackCmd at hu; (try simp only [] at hu); (repeat' split at hu) <;> first | (cases hu <;> ((repeat' with_reducible first | assumption | apply h_g | intro _ | split | simp only [keep_mk, keep_fold, id_eq]); done)) | (refine hubCmd_keeps q _ _ ?_ ?_ _ hu <;> ((repeat' with_reducible first | assumption | apply h_g | intro _ | split | simp only [keep_mk, keep_fold, id_eq]); done))

theorem modStack_keeps (q : KeepArgs) (s : State) (k : Nat) (g : Stack → Stack) (h : Keep q s) : Keep q (modStack s k g) := by
  unfold modStack
  repeat' with_reducible
    first
    | assumption | intro _ | split | simp only [keep_mk, keep_fold, id_eq]

theorem modFunc_keeps (q : KeepArgs) (s : State) (f : Nat) (g : Func → Func) (h : Keep q s) : Keep q (modFunc s f g) := by
  unfold modFunc
  repeat' with_reducible
    first
    | assumption | intro _ | split | simp only [keep_mk, keep_fold, id_eq]

theorem putClu_keeps (q : KeepArgs) (s : State) (c : Nat) (v : Clu) (h : Keep q s) : Keep q (putClu s c v) := by
  unfold putClu
  repeat' with_reducible
    first
    | assumption | intro _ | split | simp only [keep_mk, keep_fold, id_eq]

theorem modClu_keeps (q : KeepArgs) (s : State) (c : Nat) (g : Clu → Clu) (h : Keep q s) : Keep q (modClu s c g) := by
  unfold modClu
  repeat' with_reducible
    first
    | assumption | apply putClu_keeps | intro _ | split | simp only [keep_mk, keep_fold, id_eq]

theorem settleCyc_keeps (q : KeepArgs) (s : State) (c : Nat) (h : Keep q s) : Keep q (settleCyc s c) := by
  unfold settleCyc
  repeat' with_reducible
    first
    | assumption | apply modClu_keeps | intro _ | split | simp only [keep_mk, keep_fold, id_eq]

theorem stepFresh_keeps (q : KeepArgs) (s : State) (h : Keep q s) : Keep q (stepFresh s) := by
  unfold stepFresh
  repeat' with_reducible
    first
    | assumption | intro _ | split | simp only [keep_mk, keep_fold, id_eq]

theorem bumpC64_keeps (q : KeepArgs) (s : State) (c : Nat) (off : Nat) (n : Nat) (h : Keep q s) : Keep q (bumpC64 s c off n)
    := by
  unfold bumpC64
  repeat' with_reducible
    first
    | assumption | apply bumpW_keeps | intro _ | split | simp only [keep_mk, keep_fold, id_eq]

theorem bumpFree64_keeps (q : KeepArgs) (s : State) (c : Nat) (off : Nat) (h : Keep q s) : Keep q (bumpFree64 s c off) := by
  unfold bumpFree64
  repeat' with_reducible
    first
    | assumption | apply stepFresh_keeps | apply bumpC64_keeps | intro _ | split | simp only [keep_mk, keep_fold, id_eq]

theorem slotCmd_keeps (q : KeepArgs) (s : State) (c : Nat) (sl : Nat) (g : State → State) (h_g : ∀ (y0 : State), Keep q y0 →
    Keep q (g y0)) (h : Keep q s) : ∀ u, (slotCmd s c sl g) = .next u → Keep q u := by
  intro u hu; unfold slotCmd at hu; (try simp only [] at hu); (repeat' split at hu) <;> first | (cases hu <;> ((repeat' with_reducible first | assumption | apply h_g | intro _ | split | simp only [keep_mk, keep_fold, id_eq]); done)) | (refine hubCmd_keeps q _ _ ?_ ?_ _ hu <;> ((repeat' with_reducible first | assumption | apply h_g | intro _ | split | simp only [keep_mk, keep_fold, id_eq]); done))

theorem cluRun_keeps (q : KeepArgs) (s : State) (c : Nat) (g : State → State) (h_g : ∀ (y0 : State), Keep q y0 → Keep q (g
    y0)) (h : Keep q s) : ∀ u, (cluRun s c g) = .next u → Keep q u := by
  intro u hu; unfold cluRun at hu; refine cluCmd_keeps q _ _ _ ?_ h _ hu
  repeat' with_reducible
    first
    | assumption | apply h_g | intro _ | split | simp only [keep_mk, keep_fold, id_eq]

theorem funcCmd_keeps (q : KeepArgs) (s : State) (f : Nat) (g : State → State) (h_g : ∀ (y0 : State), Keep q y0 → Keep q (g
    y0)) (h : Keep q s) : ∀ u, (funcCmd s f g) = .next u → Keep q u := by
  intro u hu; unfold funcCmd at hu; (try simp only [] at hu); (repeat' split at hu) <;> first | (cases hu <;> ((repeat' with_reducible first | assumption | apply h_g | intro _ | split | simp only [keep_mk, keep_fold, id_eq]); done)) | (refine hubCmd_keeps q _ _ ?_ ?_ _ hu <;> ((repeat' with_reducible first | assumption | apply h_g | intro _ | split | simp only [keep_mk, keep_fold, id_eq]); done))

theorem queueCmd_keeps (q : KeepArgs) (s : State) (f : Nat) (x2 : Nat) (g : State → State) (h_g : ∀ (y0 : State), Keep q y0 →
    Keep q (g y0)) (h : Keep q s) : ∀ u, (queueCmd s f x2 g) = .next u → Keep q u := by
  intro u hu; unfold queueCmd at hu; (try simp only [] at hu); (repeat' split at hu) <;> first | (cases hu <;> ((repeat' with_reducible first | assumption | apply h_g | intro _ | split | simp only [keep_mk, keep_fold, id_eq]); done)) | (refine funcCmd_keeps q _ _ _ ?_ ?_ _ hu <;> ((repeat' with_reducible first | assumption | apply h_g | intro _ | split | simp only [keep_mk, keep_fold, id_eq]); done))

theorem modRegion_keeps (q : KeepArgs) (s : State) (r : Nat) (g : Region → Region) (h : Keep q s) : Keep q (modRegion s r g)
    := by
  unfold modRegion
  repeat' with_reducible
    first
    | assumption | intro _ | split | simp only [keep_mk, keep_fold, id_eq]

theorem modCtxs_keeps (q : KeepArgs) (s : State) (p : Ctx → Bool) (g : Ctx → Ctx) (h : Keep q s) : Keep q (modCtxs s p g) := by
  unfold modCtxs
  repeat' with_reducible
    first
    | assumption | intro _ | split | simp only [keep_mk, keep_fold, id_eq]

theorem emit_keeps (q : KeepArgs) (s : State) (o : Out) (h : Keep q s) : Keep q (emit s o) := by
  unfold emit
  repeat' with_reducible
    first
    | assumption | intro _ | split | simp only [keep_mk, keep_fold, id_eq]

theorem modItem_keeps (q : KeepArgs) (s : State) (i : Nat) (g : Item → Item) (h : Keep q s) : Keep q (modItem s i g) := by
  unfold modItem
  repeat' with_reducible
    first
    | assumption | intro _ | split | simp only [keep_mk, keep_fold, id_eq]

theorem bumpFree_keeps (q : KeepArgs) (s : State) (c : Nat) (off : Nat) (h : Keep q s) : Keep q (bumpFree s c off) := by
  unfold bumpFree
  repeat' with_reducible
    first
    | assumption | apply stepFresh_keeps | apply bumpC_keeps | intro _ | split | simp only [keep_mk, keep_fold, id_eq]

theorem modQueue_keeps (q : KeepArgs) (s : State) (f : Nat) (x2 : Nat) (g : Queue → Queue) (h : Keep q s) : Keep q (modQueue
    s f x2 g) := by
  unfold modQueue
  repeat' with_reducible
    first
    | assumption | intro _ | split | simp only [keep_mk, keep_fold, id_eq]

theorem slotRun_keeps (q : KeepArgs) (s : State) (c : Nat) (sl : Nat) (g : State → State) (h_g : ∀ (y0 : State), Keep q y0 →
    Keep q (g y0)) (h : Keep q s) : ∀ u, (slotRun s c sl g) = .next u → Keep q u := by
  intro u hu; unfold slotRun at hu; (try simp only [] at hu); (repeat' split at hu) <;> first | (cases hu <;> ((repeat' with_reducible first | assumption | apply h_g | intro _ | split | simp only [keep_mk, keep_fold, id_eq]); done)) | (refine cluRun_keeps q _ _ _ ?_ ?_ _ hu <;> ((repeat' with_reducible first | assumption | apply h_g | intro _ | split | simp only [keep_mk, keep_fold, id_eq]); done))

theorem causeShut_keeps (q : KeepArgs) (s : State) (thermal : Bool) (h : Keep q s) : Keep q (causeShut s thermal) := by
  unfold causeShut
  repeat' with_reducible
    first
    | assumption | intro _ | split | simp only [keep_mk, keep_fold, id_eq]

theorem portCmd_keeps (q : KeepArgs) (s : State) (n : Nat) (g : State → State) (h_g : ∀ (y0 : State), Keep q y0 → Keep q (g
    y0)) (h : Keep q s) : ∀ u, (portCmd s n g) = .next u → Keep q u := by
  intro u hu; unfold portCmd at hu; (try simp only [] at hu); (repeat' split at hu) <;> first | (cases hu <;> ((repeat' with_reducible first | assumption | apply h_g | intro _ | split | simp only [keep_mk, keep_fold, id_eq]); done)) | (refine hubCmd_keeps q _ _ ?_ ?_ _ hu <;> ((repeat' with_reducible first | assumption | apply h_g | intro _ | split | simp only [keep_mk, keep_fold, id_eq]); done))

theorem putTile_keeps (q : KeepArgs) (s : State) (c : Nat) (t : Nat) (v : WTile) (h : Keep q s) : Keep q (putTile s c t v) := by
  unfold putTile
  repeat' with_reducible
    first
    | assumption | apply keepV_spPut | apply keepV_sePut | apply keepV_dpPut | apply keepV_dePut | intro _ | split
    | simp only [keep_mk, keep_fold, id_eq]

theorem modPort_keeps (q : KeepArgs) (s : State) (n : Nat) (g : Port → Port) (h : Keep q s) : Keep q (modPort s n g) := by
  unfold modPort
  repeat' with_reducible
    first
    | assumption | intro _ | split | simp only [keep_mk, keep_fold, id_eq]

theorem stwCmd_keeps (q : KeepArgs) (s : State) (k : Nat) (g : State → State) (h_g : ∀ (y0 : State), Keep q y0 → Keep q (g
    y0)) (h : Keep q s) : ∀ u, (stwCmd s k g) = .next u → Keep q u := by
  intro u hu; unfold stwCmd at hu; (try simp only [] at hu); (repeat' split at hu) <;> first | (cases hu <;> ((repeat' with_reducible first | assumption | apply h_g | intro _ | split | simp only [keep_mk, keep_fold, id_eq]); done)) | (refine hubCmd_keeps q _ _ ?_ ?_ _ hu <;> ((repeat' with_reducible first | assumption | apply h_g | intro _ | split | simp only [keep_mk, keep_fold, id_eq]); done))

theorem modSlot_keeps (q : KeepArgs) (s : State) (c : Nat) (n : Nat) (g : Slot → Slot) (h : Keep q s) : Keep q (modSlot s c n
    g) := by
  unfold modSlot
  repeat' with_reducible
    first
    | assumption | apply putSlot_keeps | intro _ | split | simp only [keep_mk, keep_fold, id_eq]

theorem memAsk_keeps (q : KeepArgs) (s : State) (lv : Nat) (p : Nat) (n : Nat) (h : Keep q s) : Keep q (memAsk s lv p n) := by
  unfold memAsk
  repeat' with_reducible
    first
    | assumption | apply keep_foldl | intro _ | split | simp only [keep_mk, keep_fold, id_eq]

theorem setLog_keeps (q : KeepArgs) (s : State) (a : Nat) (v : Nat) (h : Keep q s) : Keep q (setLog s a v) := by
  unfold setLog
  repeat' with_reducible
    first
    | assumption | apply keepV_spPut | apply keepV_sePut | apply keepV_dpPut | apply keepV_dePut | intro _ | split
    | simp only [keep_mk, keep_fold, id_eq]

theorem setCw_keeps (q : KeepArgs) (s : State) (cw : Nat) (poi : Bool) (es : List (Nat × Nat)) (h : Keep q s) : Keep q (setCw
    s cw poi es) := by
  unfold setCw
  repeat' with_reducible
    first
    | assumption | apply keepV_spPut | apply keepV_sePut | apply keepV_dpPut | apply keepV_dePut | intro _ | split
    | simp only [keep_mk, keep_fold, id_eq]

theorem storeCw_keeps (q : KeepArgs) (s : State) (cw : Nat) (poi : Bool) (h : Keep q s) : Keep q (storeCw s cw poi) := by
  unfold storeCw
  repeat' with_reducible
    first
    | assumption | apply setCw_keeps | intro _ | split | simp only [keep_mk, keep_fold, id_eq]

theorem cwRead_keeps (q : KeepArgs) (s : State) (cw : Nat) (h : Keep q s) : Keep q (cwRead s cw).1 := by
  unfold cwRead
  repeat' with_reducible
    first
    | assumption | apply setLog_keeps | apply bump_keeps | apply storeCw_keeps | apply keepV_spad | apply keepV_wst
    | apply keepV_dev | apply keepV_host | apply keepV_rt | intro _ | split | simp only [keep_mk, keep_fold, id_eq]

theorem cwMerge_keeps (q : KeepArgs) (s : State) (cw : Nat) (h : Keep q s) : Keep q (cwMerge s cw).1 := by
  unfold cwMerge
  repeat' with_reducible
    first
    | assumption | apply cwRead_keeps | apply keepV_spad | apply keepV_wst | apply keepV_dev | apply keepV_host
    | apply keepV_rt | intro _ | refine keep_ofPair (by assumption) ?_ | split | simp only [keep_mk, keep_fold, id_eq]

theorem cwMergeAll_keeps (q : KeepArgs) (s : State) (x1 : List Nat) (h : Keep q s) : Keep q (cwMergeAll s x1).1 := by
  induction x1 generalizing s with
  | nil =>
    unfold cwMergeAll; (try simp only [])
    repeat' with_reducible
      first
      | assumption | apply cwMerge_keeps | intro _ | refine keep_ofPair (by assumption) ?_ | split
      | simp only [keep_mk, keep_fold, id_eq]
  | cons _ _ ih =>
    unfold cwMergeAll; (try simp only [])
    repeat' with_reducible
      first
      | assumption | apply cwMerge_keeps | apply ih | intro _ | refine keep_ofPair (by assumption) ?_ | split
      | simp only [keep_mk, keep_fold, id_eq]

theorem cwReadAll_keeps (q : KeepArgs) (s : State) (x1 : List Nat) (h : Keep q s) : Keep q (cwReadAll s x1).1 := by
  induction x1 generalizing s with
  | nil =>
    unfold cwReadAll; (try simp only [])
    repeat' with_reducible
      first
      | assumption | apply cwRead_keeps | intro _ | refine keep_ofPair (by assumption) ?_ | split
      | simp only [keep_mk, keep_fold, id_eq]
  | cons _ _ ih =>
    unfold cwReadAll; (try simp only [])
    repeat' with_reducible
      first
      | assumption | apply cwRead_keeps | apply ih | intro _ | refine keep_ofPair (by assumption) ?_ | split
      | simp only [keep_mk, keep_fold, id_eq]

theorem physRead_keeps (q : KeepArgs) (s : State) (k : Cls) (p : Nat) (n : Nat) (h : Keep q s) : Keep q (physRead s k p n).1
    := by
  unfold physRead
  repeat' with_reducible
    first
    | assumption | apply memAsk_keeps | apply cwReadAll_keeps | intro _ | refine keep_ofPair (by assumption) ?_ | split
    | simp only [keep_mk, keep_fold, id_eq]

theorem readPieces_keeps (q : KeepArgs) (s : State) (k : Cls) (x2 : List (Nat × Nat)) (h : Keep q s) : Keep q (readPieces s k
    x2).1 := by
  induction x2 generalizing s k with
  | nil =>
    unfold readPieces; (try simp only [])
    repeat' with_reducible
      first
      | assumption | apply physRead_keeps | intro _ | refine keep_ofPair (by assumption) ?_ | split
      | simp only [keep_mk, keep_fold, id_eq]
  | cons _ _ ih =>
    unfold readPieces; (try simp only [])
    repeat' with_reducible
      first
      | assumption | apply physRead_keeps | apply ih | intro _ | refine keep_ofPair (by assumption) ?_ | split
      | simp only [keep_mk, keep_fold, id_eq]

theorem tenRead_keeps (q : KeepArgs) (s : State) (k : Cls) (f : Nat) (t : Nat) (n : Nat) (h : Keep q s) : ∀ u r, (tenRead s k
    f t n) = some (u, r) → Keep q u := by
  intro u r hu; unfold tenRead at hu; (try simp only [] at hu); (repeat' split at hu) <;> first | (cases hu <;> ((repeat' with_reducible first | assumption | apply readPieces_keeps | intro _ | refine keep_ofPair (by assumption) ?_ | split | simp only [keep_mk, keep_fold, id_eq]); done))

theorem mailReport_keeps (q : KeepArgs) (s : State) (f : Nat) (ps : List (Nat × Nat)) (h : Keep q s) : Keep q (mailReport s f
    ps) := by
  unfold mailReport
  repeat' with_reducible
    first
    | assumption | intro _ | split | simp only [keep_mk, keep_fold, id_eq]

theorem askWrite_keeps (q : KeepArgs) (s : State) (k : Cls) (p : Nat) (n : Nat) (h : Keep q s) : Keep q (askWrite s k p n) := by
  unfold askWrite
  repeat' with_reducible
    first
    | assumption | apply memAsk_keeps | apply keep_foldl | intro _ | split | simp only [keep_mk, keep_fold, id_eq]

theorem storePhys_keeps (q : KeepArgs) (s : State) (p : Nat) (bs : List Byte) (poison : Bool) (h : Keep q s) : Keep q
    (storePhys s p bs poison) := by
  unfold storePhys
  repeat' with_reducible
    first
    | assumption | apply bump_keeps | apply cwMergeAll_keeps | apply storeCw_keeps | apply keep_foldl | apply keepV_spad
    | apply keepV_wst | apply keepV_dev | apply keepV_host | apply keepV_rt | intro _
    | refine keep_ofPair (by assumption) ?_ | split | simp only [keep_mk, keep_fold, id_eq]

theorem physWrite_keeps (q : KeepArgs) (s : State) (k : Cls) (p : Nat) (bs : List Byte) (poison : Bool) (h : Keep q s) : Keep
    q (physWrite s k p bs poison) := by
  unfold physWrite
  repeat' with_reducible
    first
    | assumption | apply askWrite_keeps | apply storePhys_keeps | intro _ | split | simp only [keep_mk, keep_fold, id_eq]

theorem writePieces_keeps (q : KeepArgs) (s : State) (k : Cls) (bs : List Byte) (poison : Bool) (x4 : List (Nat × Nat)) (h :
    Keep q s) : Keep q (writePieces s k bs poison x4) := by
  induction x4 generalizing s k bs poison with
  | nil =>
    unfold writePieces; (try simp only [])
    repeat' with_reducible
      first
      | assumption | apply physWrite_keeps | intro _ | split | simp only [keep_mk, keep_fold, id_eq]
  | cons _ _ ih =>
    unfold writePieces; (try simp only [])
    repeat' with_reducible
      first
      | assumption | apply physWrite_keeps | apply ih | intro _ | split | simp only [keep_mk, keep_fold, id_eq]

theorem tenWrite_keeps (q : KeepArgs) (s : State) (k : Cls) (f : Nat) (t : Nat) (bs : List Byte) (poison : Bool) (h : Keep q
    s) : Keep q (tenWrite s k f t bs poison) := by
  unfold tenWrite
  repeat' with_reducible
    first
    | assumption | apply mailReport_keeps | apply writePieces_keeps | intro _ | split | simp only [keep_mk, keep_fold, id_eq]

theorem hostWrite_keeps (q : KeepArgs) (s : State) (a : Nat) (bs : List Byte) (h : Keep q s) : Keep q (hostWrite s a bs) := by
  unfold hostWrite
  repeat' with_reducible
    first
    | assumption | apply keepV_spad | apply keepV_wst | apply keepV_dev | apply keepV_host | apply keepV_rt | intro _
    | split | simp only [keep_mk, keep_fold, id_eq]

theorem locWrite_keeps (q : KeepArgs) (s : State) (f : Nat) (loc : Bool) (a : Nat) (bs : List Byte) (h : Keep q s) : Keep q
    (locWrite s f loc a bs) := by
  unfold locWrite
  repeat' with_reducible
    first
    | assumption | apply tenWrite_keeps | apply hostWrite_keeps | intro _ | split | simp only [keep_mk, keep_fold, id_eq]

theorem physCmd_keeps (q : KeepArgs) (s : State) (p : Nat) (g : State → State) (h_g : ∀ (y0 : State), Keep q y0 → Keep q (g
    y0)) (h : Keep q s) : ∀ u, (physCmd s p g) = .next u → Keep q u := by
  intro u hu; unfold physCmd at hu; (try simp only [] at hu); (repeat' split at hu) <;> first | (cases hu <;> ((repeat' with_reducible first | assumption | apply h_g | intro _ | split | simp only [keep_mk, keep_fold, id_eq]); done)) | (refine hubCmd_keeps q _ _ ?_ ?_ _ hu <;> ((repeat' with_reducible first | assumption | apply h_g | intro _ | split | simp only [keep_mk, keep_fold, id_eq]); done))

theorem memTick_keeps (q : KeepArgs) (s : State) (h : Keep q s) : Keep q (memTick s) := by
  unfold memTick
  repeat' with_reducible
    first
    | assumption | intro _ | split | simp only [keep_mk, keep_fold, id_eq]

theorem storeHeld_keeps (q : KeepArgs) (s : State) (k : Nat) (h : Keep q s) : Keep q (storeHeld s k) := by
  unfold storeHeld
  repeat' with_reducible
    first
    | assumption | apply storePhys_keeps | apply keep_foldl | intro _ | split | simp only [keep_mk, keep_fold, id_eq]

theorem physZero_keeps (q : KeepArgs) (s : State) (p : Nat) (n : Nat) (h : Keep q s) : Keep q (physZero s p n) := by
  unfold physZero
  repeat' with_reducible
    first
    | assumption | apply storeCw_keeps | apply keep_foldl | apply keepV_spadZero | apply keepV_wstZero
    | apply keepV_devZero | apply keepV_spDrop | apply keepV_seDrop | apply keepV_weDrop | apply keepV_dpDrop
    | apply keepV_deDrop | intro _ | split | simp only [keep_mk, keep_fold, id_eq]

theorem cfgPut_keeps (q : KeepArgs) (f : Nat) (o : Nat) (s : State) (b : Byte) (h : Keep q s) : Keep q (cfgPut f o s b) := by
  unfold cfgPut
  repeat' with_reducible
    first
    | assumption | apply modFunc_keeps | intro _ | split | simp only [keep_mk, keep_fold, id_eq]

theorem cfgPuts_keeps (q : KeepArgs) (f : Nat) (x1 : Nat) (x2 : List Byte) (x3 : State) (h : Keep q x3) : Keep q (cfgPuts f
    x1 x2 x3) := by
  induction x2 generalizing f x1 x3 with
  | nil =>
    unfold cfgPuts; (try simp only [])
    repeat' with_reducible
      first
      | assumption | apply cfgPut_keeps | intro _ | split | simp only [keep_mk, keep_fold, id_eq]
  | cons _ _ ih =>
    unfold cfgPuts; (try simp only [])
    repeat' with_reducible
      first
      | assumption | apply cfgPut_keeps | apply ih | intro _ | split | simp only [keep_mk, keep_fold, id_eq]

theorem raiseVec_keeps (q : KeepArgs) (s : State) (f : Nat) (vec : Nat) (h : Keep q s) : Keep q (raiseVec s f vec) := by
  unfold raiseVec
  repeat' with_reducible
    first
    | assumption | apply modFunc_keeps | apply emit_keeps | intro _ | split | simp only [keep_mk, keep_fold, id_eq]

theorem raiseRing_keeps (q : KeepArgs) (s : State) (f : Nat) (r : Nat) (h : Keep q s) : Keep q (raiseRing s f r) := by
  unfold raiseRing
  repeat' with_reducible
    first
    | assumption | apply modRing_keeps | apply raiseVec_keeps | intro _ | split | simp only [keep_mk, keep_fold, id_eq]

theorem writeRec_keeps (q : KeepArgs) (s : State) (f : Nat) (r : Nat) (x : CRec) (h : Keep q s) : Keep q (writeRec s f r x)
    := by
  unfold writeRec
  repeat' with_reducible
    first
    | assumption | apply locWrite_keeps | apply modRing_keeps | apply raiseRing_keeps | intro _ | split
    | simp only [keep_mk, keep_fold, id_eq]

theorem writeFault_keeps (q : KeepArgs) (s : State) (r : Report) (h : Keep q s) : Keep q (writeFault s r) := by
  unfold writeFault
  repeat' with_reducible
    first
    | assumption | apply bump_keeps | apply modFunc_keeps | apply markSet_keeps | apply locWrite_keeps
    | apply raiseVec_keeps | intro _ | split | simp only [keep_mk, keep_fold, id_eq]

theorem ephUnit_keeps (q : KeepArgs) (s : State) (f : Nat) (b : List Byte) (h : Keep q s) : Keep q (ephUnit s f b) := by
  unfold ephUnit
  repeat' with_reducible
    first
    | assumption | apply locWrite_keeps | apply modFunc_keeps | intro _ | split | simp only [keep_mk, keep_fold, id_eq]

theorem ephPutAt_keeps (q : KeepArgs) (s : State) (f : Nat) (ftc : Nat) (typ : Nat) (sq : Nat) (sqpos : Nat) (body : List
    Byte) (h : Keep q s) : Keep q (ephPutAt s f ftc typ sq sqpos body) := by
  unfold ephPutAt
  repeat' with_reducible
    first
    | assumption | apply modFunc_keeps | apply bump_keeps | apply ephUnit_keeps | apply keep_foldl | intro _ | split
    | simp only [keep_mk, keep_fold, id_eq]

theorem ephPut_keeps (q : KeepArgs) (s : State) (f : Nat) (typ : Nat) (sq : Nat) (sqpos : Nat) (body : List Byte) (h : Keep q
    s) : Keep q (ephPut s f typ sq sqpos body) := by
  unfold ephPut
  repeat' with_reducible
    first
    | assumption | apply ephPutAt_keeps | intro _ | split | simp only [keep_mk, keep_fold, id_eq]

theorem flushAux_keeps (q : KeepArgs) (f : Nat) (r : Nat) (x2 : Nat) (x3 : State) (h : Keep q x3) : Keep q (flushAux f r x2
    x3) := by
  induction x2 generalizing f r x3 with
  | zero =>
    unfold flushAux; (try simp only [])
    repeat' with_reducible
      first
      | assumption | apply writeRec_keeps | apply modRing_keeps | intro _ | split | simp only [keep_mk, keep_fold, id_eq]
  | succ _ ih =>
    unfold flushAux; (try simp only [])
    repeat' with_reducible
      first
      | assumption | apply writeRec_keeps | apply modRing_keeps | apply ih | intro _ | split
      | simp only [keep_mk, keep_fold, id_eq]

theorem flushRing_keeps (q : KeepArgs) (s : State) (f : Nat) (r : Nat) (h : Keep q s) : Keep q (flushRing s f r) := by
  unfold flushRing
  repeat' with_reducible
    first
    | assumption | apply flushAux_keeps | intro _ | split | simp only [keep_mk, keep_fold, id_eq]

theorem flushVecs_keeps (q : KeepArgs) (s : State) (f : Nat) (h : Keep q s) : Keep q (flushVecs s f) := by
  unfold flushVecs
  repeat' with_reducible
    first
    | assumption | apply raiseVec_keeps | apply modFunc_keeps | apply keep_foldl | intro _ | split
    | simp only [keep_mk, keep_fold, id_eq]

theorem raisePf_keeps (q : KeepArgs) (s : State) (en : Nat) (hi : Nat) (lo : Nat) (h : Keep q s) : Keep q (raisePf s en hi
    lo) := by
  unfold raisePf
  repeat' with_reducible
    first
    | assumption | apply raiseVec_keeps | apply markSet_keeps | intro _ | split | simp only [keep_mk, keep_fold, id_eq]

theorem putRec_keeps (q : KeepArgs) (s : State) (f : Nat) (r : Nat) (x : CRec) (h : Keep q s) : Keep q (putRec s f r x) := by
  unfold putRec
  repeat' with_reducible
    first
    | assumption | apply modRing_keeps | apply writeRec_keeps | intro _ | split | simp only [keep_mk, keep_fold, id_eq]

theorem noteEnd_keeps (q : KeepArgs) (s : State) (i : Item) (r : Nat) (x : CRec) (h : Keep q s) : Keep q (noteEnd s i r x) := by
  unfold noteEnd
  repeat' with_reducible
    first
    | assumption | intro _ | split | simp only [keep_mk, keep_fold, id_eq]

theorem complete_keeps (q : KeepArgs) (s : State) (i : Item) (status : Nat) (result : Nat) (frec : Bool) (h : Keep q s) :
    Keep q (complete s i status result frec) := by
  unfold complete
  repeat' with_reducible
    first
    | assumption | apply putRec_keeps | apply noteEnd_keeps | apply modFunc_keeps | apply markSet_keeps | intro _ | split
    | simp only [keep_mk, keep_fold, id_eq]

theorem modTrc_keeps (q : KeepArgs) (s : State) (c : Nat) (sl : Nat) (g : SlotTrc → SlotTrc) (h : Keep q s) : Keep q (modTrc
    s c sl g) := by
  unfold modTrc
  repeat' with_reducible
    first
    | assumption | apply modSlot_keeps | intro _ | split | simp only [keep_mk, keep_fold, id_eq]

theorem trcAppend_keeps (q : KeepArgs) (s : State) (c : Nat) (sl : Nat) (typ : Nat) (body : List Byte) (h : Keep q s) : Keep
    q (trcAppend s c sl typ body) := by
  unfold trcAppend
  repeat' with_reducible
    first
    | assumption | apply modClu_keeps | apply modTrc_keeps | intro _ | split | simp only [keep_mk, keep_fold, id_eq]

theorem trcOne_keeps (q : KeepArgs) (s : State) (c : Nat) (sl : Nat) (typ : Nat) (body : List Byte) (h : Keep q s) : Keep q
    (trcOne s c sl typ body) := by
  unfold trcOne
  repeat' with_reducible
    first
    | assumption | apply trcAppend_keeps | apply modTrc_keeps | apply bumpC_keeps | intro _ | split
    | simp only [keep_mk, keep_fold, id_eq]

theorem trcFlushBranch_keeps (q : KeepArgs) (s : State) (c : Nat) (sl : Nat) (h : Keep q s) : Keep q (trcFlushBranch s c sl)
    := by
  unfold trcFlushBranch
  repeat' with_reducible
    first
    | assumption | apply modTrc_keeps | apply trcOne_keeps | intro _ | split | simp only [keep_mk, keep_fold, id_eq]

theorem trcPut_keeps (q : KeepArgs) (s : State) (c : Nat) (sl : Nat) (typ : Nat) (body : List Byte) (h : Keep q s) : Keep q
    (trcPut s c sl typ body) := by
  unfold trcPut
  repeat' with_reducible
    first
    | assumption | apply trcOne_keeps | apply trcFlushBranch_keeps | intro _ | split | simp only [keep_mk, keep_fold, id_eq]

theorem stallTrc_keeps (q : KeepArgs) (s : State) (c : Nat) (sl : Nat) (h : Keep q s) : Keep q (stallTrc s c sl) := by
  unfold stallTrc
  repeat' with_reducible
    first
    | assumption | apply modSlot_keeps | apply bumpC_keeps | intro _ | split | simp only [keep_mk, keep_fold, id_eq]

theorem trcPay_keeps (q : KeepArgs) (c : Nat) (s : State) (sl : Nat) (h : Keep q s) : Keep q (trcPay c s sl) := by
  unfold trcPay
  repeat' with_reducible
    first
    | assumption | apply trcOne_keeps | apply modTrc_keeps | apply keep_foldl | intro _ | split
    | simp only [keep_mk, keep_fold, id_eq]

theorem trcBranch_keeps (q : KeepArgs) (s : State) (c : Nat) (sl : Nat) (pc : Nat) (taken : Bool) (h : Keep q s) : Keep q
    (trcBranch s c sl pc taken) := by
  unfold trcBranch
  repeat' with_reducible
    first
    | assumption | apply modTrc_keeps | apply trcFlushBranch_keeps | intro _ | split | simp only [keep_mk, keep_fold, id_eq]

theorem startCtx_keeps (q : KeepArgs) (s : State) (x : Ctx) (i : Item) (h : Keep q s) : Keep q (startCtx s x i) := by
  unfold startCtx
  repeat' with_reducible
    first
    | assumption | apply modSlot_keeps | apply modCtxs_keeps | intro _ | split | simp only [keep_mk, keep_fold, id_eq]

theorem startWanted_keeps (q : KeepArgs) (s : State) (r : Nat) (h : Keep q s) : Keep q (startWanted s r) := by
  unfold startWanted
  repeat' with_reducible
    first
    | assumption | apply startCtx_keeps | apply keep_foldl | intro _ | split | simp only [keep_mk, keep_fold, id_eq]

theorem beginPool_keeps (q : KeepArgs) (s : State) (r : Nat) (i : Item) (h : Keep q s) : Keep q (beginPool s r i) := by
  unfold beginPool
  repeat' with_reducible
    first
    | assumption | apply modRegion_keeps | apply modItem_keeps | apply modCtxs_keeps | apply startWanted_keeps | intro _
    | split | simp only [keep_mk, keep_fold, id_eq]

theorem nextPool_keeps (q : KeepArgs) (s : State) (r : Nat) (h : Keep q s) : Keep q (nextPool s r) := by
  unfold nextPool
  repeat' with_reducible
    first
    | assumption | apply beginPool_keeps | intro _ | split | simp only [keep_mk, keep_fold, id_eq]

theorem setClass_keeps (q : KeepArgs) (s : State) (r : Nat) (k : Cls) (h : Keep q s) : Keep q (setClass s r k) := by
  unfold setClass
  repeat' with_reducible
    first
    | assumption | apply modSlot_keeps | apply keep_foldl | intro _ | split | simp only [keep_mk, keep_fold, id_eq]

theorem poolCheck_keeps (q : KeepArgs) (s : State) (r : Nat) (h : Keep q s) : Keep q (poolCheck s r) := by
  unfold poolCheck
  repeat' with_reducible
    first
    | assumption | apply complete_keeps | apply nextPool_keeps | apply setClass_keeps | intro _ | split
    | simp only [keep_mk, keep_fold, id_eq]

theorem takeBack_keeps (q : KeepArgs) (s : State) (f : Nat) (r : Nat) (m : Nat) (y : CRec) (h : Keep q s) : Keep q (takeBack
    s f r m y) := by
  unfold takeBack
  repeat' with_reducible
    first
    | assumption | apply modRing_keeps | intro _ | split | simp only [keep_mk, keep_fold, id_eq]

theorem amendEnd_keeps (q : KeepArgs) (s : State) (e : Ended) (h : Keep q s) : Keep q (amendEnd s e) := by
  unfold amendEnd
  repeat' with_reducible
    first
    | assumption | apply modRing_keeps | apply takeBack_keeps | apply locWrite_keeps | apply raiseRing_keeps | intro _
    | split | simp only [keep_mk, keep_fold, id_eq]

theorem amendEnds_keeps (q : KeepArgs) (s : State) (r : Nat) (h : Keep q s) : Keep q (amendEnds s r) := by
  unfold amendEnds
  repeat' with_reducible
    first
    | assumption | apply amendEnd_keeps | apply keep_foldl | intro _ | split | simp only [keep_mk, keep_fold, id_eq]

theorem haltSlot_keeps (q : KeepArgs) (s : State) (c : Nat) (sl : Nat) (h : Keep q s) : Keep q (haltSlot s c sl) := by
  unfold haltSlot
  repeat' with_reducible
    first
    | assumption | apply trcPut_keeps | apply modSlot_keeps | intro _ | split | simp only [keep_mk, keep_fold, id_eq]

theorem stopCtx_keeps (q : KeepArgs) (s : State) (x : Ctx) (h : Keep q s) : Keep q (stopCtx s x) := by
  unfold stopCtx
  repeat' with_reducible
    first
    | assumption | apply haltSlot_keeps | apply modSlot_keeps | apply modCtxs_keeps | intro _ | split
    | simp only [keep_mk, keep_fold, id_eq]

theorem haltFaulted_keeps (q : KeepArgs) (s : State) (c : Nat) (sl : Nat) (h : Keep q s) : Keep q (haltFaulted s c sl) := by
  unfold haltFaulted
  repeat' with_reducible
    first
    | assumption | apply trcPut_keeps | apply modSlot_keeps | intro _ | split | simp only [keep_mk, keep_fold, id_eq]

theorem addReport_keeps (q : KeepArgs) (s : State) (r : Report) (h : Keep q s) : Keep q (addReport s r) := by
  unfold addReport
  repeat' with_reducible
    first
    | assumption | intro _ | split | simp only [keep_mk, keep_fold, id_eq]

theorem dropItem_keeps (q : KeepArgs) (s : State) (d : Region) (r : Nat) (faulted : Bool) (i : Item) (h : Keep q s) : Keep q
    (dropItem s d r faulted i) := by
  unfold dropItem
  repeat' with_reducible
    first
    | assumption | apply tenWrite_keeps | apply complete_keeps | intro _ | split | simp only [keep_mk, keep_fold, id_eq]

theorem degradeRegion_keeps (q : KeepArgs) (s : State) (r : Nat) (faulted : Bool) (h : Keep q s) : Keep q (degradeRegion s r
    faulted) := by
  unfold degradeRegion
  repeat' with_reducible
    first
    | assumption | apply modRegion_keeps | apply amendEnds_keeps | apply dropItem_keeps | apply modCtxs_keeps
    | apply setClass_keeps | apply keep_foldl | intro _ | split | simp only [keep_mk, keep_fold, id_eq]

theorem failPool_keeps (q : KeepArgs) (s : State) (r : Nat) (h : Keep q s) : Keep q (failPool s r) := by
  unfold failPool
  repeat' with_reducible
    first
    | assumption | apply modItem_keeps | apply modCtxs_keeps | apply stopCtx_keeps | apply poolCheck_keeps
    | apply keep_foldl | intro _ | split | simp only [keep_mk, keep_fold, id_eq]

theorem slotFaultAt_keeps (q : KeepArgs) (s : State) (c : Nat) (sl : Nat) (code : Nat) (op : Nat) (ticket : Nat) (pc : Nat)
    (detail : Nat) (core : Nat) (h : Keep q s) : Keep q (slotFaultAt s c sl code op ticket pc detail core) := by
  unfold slotFaultAt
  repeat' with_reducible
    first
    | assumption | apply haltFaulted_keeps | apply addReport_keeps | apply amendEnds_keeps | apply degradeRegion_keeps
    | apply failPool_keeps | intro _ | split | simp only [keep_mk, keep_fold, id_eq]

theorem degradeAll_keeps (q : KeepArgs) (s : State) (rs : List Nat) (h : Keep q s) : Keep q (degradeAll s rs) := by
  unfold degradeAll
  repeat' with_reducible
    first
    | assumption | apply degradeRegion_keeps | apply keep_foldl | intro _ | split | simp only [keep_mk, keep_fold, id_eq]

theorem slotFault_keeps (q : KeepArgs) (s : State) (c : Nat) (sl : Nat) (code : Nat) (op : Nat) (ticket : Nat) (pc : Nat)
    (detail : Nat) (h : Keep q s) : Keep q (slotFault s c sl code op ticket pc detail) := by
  unfold slotFault
  repeat' with_reducible
    first
    | assumption | apply slotFaultAt_keeps | intro _ | split | simp only [keep_mk, keep_fold, id_eq]

theorem instrFault_keeps (q : KeepArgs) (s : State) (c : Nat) (sl : Nat) (code : Nat) (detail : Nat) (h : Keep q s) : Keep q
    (instrFault s c sl code detail) := by
  unfold instrFault
  repeat' with_reducible
    first
    | assumption | apply slotFault_keeps | intro _ | split | simp only [keep_mk, keep_fold, id_eq]

theorem refreshClass_keeps (q : KeepArgs) (s : State) (r : Nat) (h : Keep q s) : Keep q (refreshClass s r) := by
  unfold refreshClass
  repeat' with_reducible
    first
    | assumption | apply modSlot_keeps | apply keep_foldl | intro _ | split | simp only [keep_mk, keep_fold, id_eq]

theorem touchEnt_keeps (q : KeepArgs) (s : State) (c : Nat) (e : GEnt) (h : Keep q s) : Keep q (touchEnt s c e) := by
  unfold touchEnt
  repeat' with_reducible
    first
    | assumption | apply modClu_keeps | intro _ | split | simp only [keep_mk, keep_fold, id_eq]

theorem setWord_keeps (q : KeepArgs) (s : State) (c : Nat) (w : Nat) (poi : Bool) (h : Keep q s) : Keep q (setWord s c w poi)
    := by
  unfold setWord
  repeat' with_reducible
    first
    | assumption | apply keepV_spPut | apply keepV_sePut | apply keepV_dpPut | apply keepV_dePut | intro _ | split
    | simp only [keep_mk, keep_fold, id_eq]

theorem wordCheck_keeps (q : KeepArgs) (s : State) (c : Nat) (w : Nat) (h : Keep q s) : Keep q (wordCheck s c w).1 := by
  unfold wordCheck
  repeat' with_reducible
    first
    | assumption | apply setWord_keeps | apply bumpC_keeps | intro _ | split | simp only [keep_mk, keep_fold, id_eq]

theorem bankUse_keeps (q : KeepArgs) (s : State) (c : Nat) (x2 : BankUser) (w : Nat) (n : Nat) (k : Nat) (h : Keep q s) :
    Keep q (bankUse s c x2 w n k) := by
  unfold bankUse
  repeat' with_reducible
    first
    | assumption | apply modClu_keeps | apply keep_foldl | intro _ | split | simp only [keep_mk, keep_fold, id_eq]

theorem writeBack_keeps (q : KeepArgs) (s : State) (c : Nat) (w : Nat) (h : Keep q s) : Keep q (writeBack s c w) := by
  unfold writeBack
  repeat' with_reducible
    first
    | assumption | apply wordCheck_keeps | apply bankUse_keeps | apply modClu_keeps | apply keepV_spad | apply keepV_wst
    | apply keepV_dev | apply keepV_host | apply keepV_rt | intro _ | refine keep_ofPair (by assumption) ?_ | split
    | simp only [keep_mk, keep_fold, id_eq]

theorem roomFor_keeps (q : KeepArgs) (s : State) (c : Nat) (h : Keep q s) : Keep q (roomFor s c).1 := by
  unfold roomFor
  repeat' with_reducible
    first
    | assumption | apply writeBack_keeps | intro _ | split | simp only [keep_mk, keep_fold, id_eq]

theorem allocEnt_keeps (q : KeepArgs) (s : State) (c : Nat) (w : Nat) (g : List GEnt) (h : Keep q s) : Keep q (allocEnt s c w
    g).1 := by
  unfold allocEnt
  repeat' with_reducible
    first
    | assumption | apply wordCheck_keeps | apply bankUse_keeps | apply modClu_keeps | intro _
    | refine keep_ofPair (by assumption) ?_ | split | simp only [keep_mk, keep_fold, id_eq]

theorem unitEnt_keeps (q : KeepArgs) (s : State) (c : Nat) (w : Nat) (h : Keep q s) : Keep q (unitEnt s c w).1 := by
  unfold unitEnt
  repeat' with_reducible
    first
    | assumption | apply touchEnt_keeps | apply roomFor_keeps | apply allocEnt_keeps | intro _
    | refine keep_ofPair (by assumption) ?_ | split | simp only [keep_mk, keep_fold, id_eq]

theorem narrowPut_keeps (q : KeepArgs) (s : State) (c : Nat) (e : GEnt) (o : Nat) (bs : List Byte) (h : Keep q s) : Keep q
    (narrowPut s c e o bs) := by
  unfold narrowPut
  repeat' with_reducible
    first
    | assumption | apply touchEnt_keeps | apply keep_foldl | intro _ | split | simp only [keep_mk, keep_fold, id_eq]

theorem narrowWrite_keeps (q : KeepArgs) (s : State) (c : Nat) (p : Nat) (bs : List Byte) (h : Keep q s) : Keep q
    (narrowWrite s c p bs).1 := by
  unfold narrowWrite
  repeat' with_reducible
    first
    | assumption | apply unitEnt_keeps | apply narrowPut_keeps | intro _ | refine keep_ofPair (by assumption) ?_ | split
    | simp only [keep_mk, keep_fold, id_eq]

theorem flushRange_keeps (q : KeepArgs) (s : State) (c : Nat) (p : Nat) (n : Nat) (h : Keep q s) : Keep q (flushRange s c p
    n) := by
  unfold flushRange
  repeat' with_reducible
    first
    | assumption | apply writeBack_keeps | apply keep_foldl | intro _ | split | simp only [keep_mk, keep_fold, id_eq]

theorem bankTick_keeps (q : KeepArgs) (s : State) (c : Nat) (h : Keep q s) : Keep q (bankTick s c) := by
  unfold bankTick
  repeat' with_reducible
    first
    | assumption | apply modClu_keeps | apply bumpC_keeps | intro _ | split | simp only [keep_mk, keep_fold, id_eq]

theorem narrowRead_keeps (q : KeepArgs) (s : State) (c : Nat) (p : Nat) (n : Nat) (h : Keep q s) : Keep q (narrowRead s c p
    n).1 := by
  unfold narrowRead
  repeat' with_reducible
    first
    | assumption | apply unitEnt_keeps | intro _ | refine keep_ofPair (by assumption) ?_ | split
    | simp only [keep_mk, keep_fold, id_eq]

theorem storeWord_keeps (q : KeepArgs) (s : State) (c : Nat) (p : Nat) (bs : List Byte) (poison : Bool) (w : Nat) (h : Keep q
    s) : Keep q (storeWord s c p bs poison w).1 := by
  unfold storeWord
  repeat' with_reducible
    first
    | assumption | apply setWord_keeps | apply wordCheck_keeps | apply keepV_spad | apply keepV_wst | apply keepV_dev
    | apply keepV_host | apply keepV_rt | intro _ | refine keep_ofPair (by assumption) ?_ | split
    | simp only [keep_mk, keep_fold, id_eq]

theorem storeWords_keeps (q : KeepArgs) (s : State) (c : Nat) (p : Nat) (bs : List Byte) (poison : Bool) (x5 : List Nat) (h :
    Keep q s) : Keep q (storeWords s c p bs poison x5).1 := by
  induction x5 generalizing s c p bs poison with
  | nil =>
    unfold storeWords; (try simp only [])
    repeat' with_reducible
      first
      | assumption | apply storeWord_keeps | intro _ | refine keep_ofPair (by assumption) ?_ | split
      | simp only [keep_mk, keep_fold, id_eq]
  | cons _ _ ih =>
    unfold storeWords; (try simp only [])
    repeat' with_reducible
      first
      | assumption | apply storeWord_keeps | apply ih | intro _ | refine keep_ofPair (by assumption) ?_ | split
      | simp only [keep_mk, keep_fold, id_eq]

theorem refreshGather_keeps (q : KeepArgs) (s : State) (c : Nat) (p : Nat) (n : Nat) (h : Keep q s) : Keep q (refreshGather s
    c p n) := by
  unfold refreshGather
  repeat' with_reducible
    first
    | assumption | apply modClu_keeps | intro _ | split | simp only [keep_mk, keep_fold, id_eq]

theorem wideWrite_keeps (q : KeepArgs) (s : State) (c : Nat) (x2 : BankUser) (p : Nat) (bs : List Byte) (poison : Bool) (h :
    Keep q s) : Keep q (wideWrite s c x2 p bs poison).1 := by
  unfold wideWrite
  repeat' with_reducible
    first
    | assumption | apply bankUse_keeps | apply flushRange_keeps | apply refreshGather_keeps | apply storeWords_keeps
    | apply keepV_spad | apply keepV_wst | apply keepV_dev | apply keepV_host | apply keepV_rt | intro _
    | refine keep_ofPair (by assumption) ?_ | split | simp only [keep_mk, keep_fold, id_eq]

theorem writeCuts_keeps (q : KeepArgs) (s : State) (c : Nat) (x2 : BankUser) (bs : List Byte) (x4 : List (Nat × Nat × Bool))
    (h : Keep q s) : Keep q (writeCuts s c x2 bs x4).1 := by
  induction x4 generalizing s c x2 bs with
  | nil =>
    unfold writeCuts; (try simp only [])
    repeat' with_reducible
      first
      | assumption | apply wideWrite_keeps | apply narrowWrite_keeps | intro _ | refine keep_ofPair (by assumption) ?_
      | split | simp only [keep_mk, keep_fold, id_eq]
  | cons _ _ ih =>
    unfold writeCuts; (try simp only [])
    repeat' with_reducible
      first
      | assumption | apply wideWrite_keeps | apply narrowWrite_keeps | apply ih | intro _
      | refine keep_ofPair (by assumption) ?_ | split | simp only [keep_mk, keep_fold, id_eq]

theorem checkWords_keeps (q : KeepArgs) (s : State) (c : Nat) (x2 : List Nat) (h : Keep q s) : Keep q (checkWords s c x2).1
    := by
  induction x2 generalizing s c with
  | nil =>
    unfold checkWords; (try simp only [])
    repeat' with_reducible
      first
      | assumption | apply wordCheck_keeps | intro _ | refine keep_ofPair (by assumption) ?_ | split
      | simp only [keep_mk, keep_fold, id_eq]
  | cons _ _ ih =>
    unfold checkWords; (try simp only [])
    repeat' with_reducible
      first
      | assumption | apply wordCheck_keeps | apply ih | intro _ | refine keep_ofPair (by assumption) ?_ | split
      | simp only [keep_mk, keep_fold, id_eq]

theorem wideRead_keeps (q : KeepArgs) (s : State) (c : Nat) (x2 : BankUser) (p : Nat) (n : Nat) (h : Keep q s) : Keep q
    (wideRead s c x2 p n).1 := by
  unfold wideRead
  repeat' with_reducible
    first
    | assumption | apply bankUse_keeps | apply flushRange_keeps | apply checkWords_keeps | intro _
    | refine keep_ofPair (by assumption) ?_ | split | simp only [keep_mk, keep_fold, id_eq]

theorem readCuts_keeps (q : KeepArgs) (s : State) (c : Nat) (x2 : BankUser) (x3 : List (Nat × Nat × Bool)) (h : Keep q s) :
    Keep q (readCuts s c x2 x3).1 := by
  induction x3 generalizing s c x2 with
  | nil =>
    unfold readCuts; (try simp only [])
    repeat' with_reducible
      first
      | assumption | apply wideRead_keeps | apply narrowRead_keeps | intro _ | refine keep_ofPair (by assumption) ?_
      | split | simp only [keep_mk, keep_fold, id_eq]
  | cons _ _ ih =>
    unfold readCuts; (try simp only [])
    repeat' with_reducible
      first
      | assumption | apply wideRead_keeps | apply narrowRead_keeps | apply ih | intro _
      | refine keep_ofPair (by assumption) ?_ | split | simp only [keep_mk, keep_fold, id_eq]

theorem spadRead_keeps (q : KeepArgs) (s : State) (c : Nat) (x2 : BankUser) (p : Nat) (n : Nat) (h : Keep q s) : Keep q
    (spadRead s c x2 p n).1 := by
  unfold spadRead
  repeat' with_reducible
    first
    | assumption | apply readCuts_keeps | intro _ | refine keep_ofPair (by assumption) ?_ | split
    | simp only [keep_mk, keep_fold, id_eq]

theorem readSpans_keeps (q : KeepArgs) (s : State) (c : Nat) (x2 : BankUser) (base : Nat) (x4 : List (Nat × Nat)) (h : Keep q
    s) : Keep q (readSpans s c x2 base x4).1 := by
  induction x4 generalizing s c x2 base with
  | nil =>
    unfold readSpans; (try simp only [])
    repeat' with_reducible
      first
      | assumption | apply spadRead_keeps | intro _ | refine keep_ofPair (by assumption) ?_ | split
      | simp only [keep_mk, keep_fold, id_eq]
  | cons _ _ ih =>
    unfold readSpans; (try simp only [])
    repeat' with_reducible
      first
      | assumption | apply spadRead_keeps | apply ih | intro _ | refine keep_ofPair (by assumption) ?_ | split
      | simp only [keep_mk, keep_fold, id_eq]

theorem narrow_keeps (q : KeepArgs) (s : State) (c : Nat) (w : Nat) (h : Keep q s) : KeepN q (narrow s c w) := by
  unfold narrow
  repeat' with_reducible
    first
    | assumption | refine keepN_ofGot (by assumption) ?_ | refine keepN_ofPoisoned (by assumption) ?_ | exact keepN_waits
    | apply keepN_got | apply keepN_poisoned | apply touchEnt_keeps | apply allocEnt_keeps | intro _
    | refine keep_ofPair (by assumption) ?_ | split | simp only [keep_mk, keep_fold, id_eq]

theorem readOpnd_keeps (q : KeepArgs) (s : State) (c : Nat) (x2 : BankUser) (sl : Nat) (r : Opnd) (n : Nat) (h : Keep q s) :
    Keep q (readOpnd s c x2 sl r n).1 := by
  unfold readOpnd
  repeat' with_reducible
    first
    | assumption | apply readSpans_keeps | intro _ | refine keep_ofPair (by assumption) ?_ | split
    | simp only [keep_mk, keep_fold, id_eq]

theorem spadWrite_keeps (q : KeepArgs) (s : State) (c : Nat) (x2 : BankUser) (p : Nat) (bs : List Byte) (poison : Bool) (h :
    Keep q s) : Keep q (spadWrite s c x2 p bs poison).1 := by
  unfold spadWrite
  repeat' with_reducible
    first
    | assumption | apply wideWrite_keeps | apply writeCuts_keeps | intro _ | refine keep_ofPair (by assumption) ?_ | split
    | simp only [keep_mk, keep_fold, id_eq]

theorem writeSpans_keeps (q : KeepArgs) (s : State) (c : Nat) (x2 : BankUser) (base : Nat) (bs : List Byte) (x5 : List (Nat ×
    Nat)) (h : Keep q s) : Keep q (writeSpans s c x2 base bs x5).1 := by
  induction x5 generalizing s c x2 base bs with
  | nil =>
    unfold writeSpans; (try simp only [])
    repeat' with_reducible
      first
      | assumption | apply spadWrite_keeps | intro _ | refine keep_ofPair (by assumption) ?_ | split
      | simp only [keep_mk, keep_fold, id_eq]
  | cons _ _ ih =>
    unfold writeSpans; (try simp only [])
    repeat' with_reducible
      first
      | assumption | apply spadWrite_keeps | apply ih | intro _ | refine keep_ofPair (by assumption) ?_ | split
      | simp only [keep_mk, keep_fold, id_eq]

theorem waitWith_keeps (q : KeepArgs) (s : State) (c : Nat) (sl : Nat) (why : WaitWhy) (i : Instr) (h : Keep q s) : Keep q
    (waitWith s c sl why i) := by
  unfold waitWith
  repeat' with_reducible
    first
    | assumption | apply modSlot_keeps | intro _ | split | simp only [keep_mk, keep_fold, id_eq]

theorem issueWith_keeps (q : KeepArgs) (s : State) (c : Nat) (sl : Nat) (rs : List (BitVec 5)) (i : Instr) (g : State →
    State) (h_g : ∀ (y0 : State), Keep q y0 → Keep q (g y0)) (h : Keep q s) : Keep q (issueWith s c sl rs i g) := by
  unfold issueWith
  repeat' with_reducible
    first
    | assumption | apply haltSlot_keeps | apply poolCheck_keeps | apply instrFault_keeps | apply waitWith_keeps | apply h_g
    | intro _ | split | simp only [keep_mk, keep_fold, id_eq]

theorem issueCmd_keeps (q : KeepArgs) (s : State) (c : Nat) (sl : Nat) (rs : List (BitVec 5)) (i : Instr) (g : State → State)
    (h_g : ∀ (y0 : State), Keep q y0 → Keep q (g y0)) (h : Keep q s) : ∀ u, (issueCmd s c sl rs i g) = .next u → Keep q u := by
  intro u hu; unfold issueCmd at hu; refine slotRun_keeps q _ _ _ _ ?_ h _ hu
  repeat' with_reducible
    first
    | assumption | apply issueWith_keeps | apply h_g | intro _ | split | simp only [keep_mk, keep_fold, id_eq]

theorem retire_keeps (q : KeepArgs) (s : State) (c : Nat) (sl : Nat) (g : Slot → Slot) (h : Keep q s) : Keep q (retire s c sl
    g) := by
  unfold retire
  repeat' with_reducible
    first
    | assumption | apply putSlot_keeps | intro _ | split | simp only [keep_mk, keep_fold, id_eq]

theorem retireMul_keeps (q : KeepArgs) (s : State) (c : Nat) (sl : Nat) (rd : BitVec 5) (v : Word) (h : Keep q s) : Keep q
    (retireMul s c sl rd v) := by
  unfold retireMul
  repeat' with_reducible
    first
    | assumption | apply retire_keeps | intro _ | split | simp only [keep_mk, keep_fold, id_eq]

theorem retireAlu_keeps (q : KeepArgs) (s : State) (c : Nat) (sl : Nat) (rd : BitVec 5) (v : Word) (h : Keep q s) : Keep q
    (retireAlu s c sl rd v) := by
  unfold retireAlu
  repeat' with_reducible
    first
    | assumption | apply retire_keeps | intro _ | split | simp only [keep_mk, keep_fold, id_eq]

theorem legal_keeps (q : KeepArgs) (s : State) (c : Nat) (sl : Nat) (bad : Bool) (g : State → State) (h_g : ∀ (y0 : State),
    Keep q y0 → Keep q (g y0)) (h : Keep q s) : Keep q (legal s c sl bad g) := by
  unfold legal
  repeat' with_reducible
    first
    | assumption | apply instrFault_keeps | apply h_g | intro _ | split | simp only [keep_mk, keep_fold, id_eq]

theorem aluRRR_keeps (q : KeepArgs) (i : Instr) (c : Nat) (sl : Nat) (rd : BitVec 5) (rs1 : BitVec 5) (rs2 : BitVec 5) (f :
    Word → Word → Word) (s : State) (h : Keep q s) : Keep q (aluRRR i c sl rd rs1 rs2 f s) := by
  unfold aluRRR
  repeat' with_reducible
    first
    | assumption | apply issueWith_keeps | apply retireAlu_keeps | intro _ | split | simp only [keep_mk, keep_fold, id_eq]

theorem doMax_keeps (q : KeepArgs) (c : Nat) (sl : Nat) (rd : BitVec 5) (rs1 : BitVec 5) (rs2 : BitVec 5) (s : State) (h :
    Keep q s) : Keep q (doMax c sl rd rs1 rs2 s) := by
  unfold doMax
  repeat' with_reducible
    first
    | assumption | apply aluRRR_keeps | intro _ | split | simp only [keep_mk, keep_fold, id_eq]

theorem aluRRI_keeps (q : KeepArgs) (i : Instr) (c : Nat) (sl : Nat) (rd : BitVec 5) (rs1 : BitVec 5) (bad : Bool) (f : Word
    → Word) (s : State) (h : Keep q s) : Keep q (aluRRI i c sl rd rs1 bad f s) := by
  unfold aluRRI
  repeat' with_reducible
    first
    | assumption | apply issueWith_keeps | apply legal_keeps | apply retireAlu_keeps | intro _ | split
    | simp only [keep_mk, keep_fold, id_eq]

theorem accessOk_keeps (q : KeepArgs) (s : State) (c : Nat) (sl : Nat) (a : Nat) (n : Nat) (g : State → State) (h_g : ∀ (y0 :
    State), Keep q y0 → Keep q (g y0)) (h : Keep q s) : Keep q (accessOk s c sl a n g) := by
  unfold accessOk
  repeat' with_reducible
    first
    | assumption | apply instrFault_keeps | apply h_g | intro _ | split | simp only [keep_mk, keep_fold, id_eq]

theorem load_keeps (q : KeepArgs) (i : Instr) (c : Nat) (sl : Nat) (rd : BitVec 5) (rs1 : BitVec 5) (imm : BitVec 16) (n :
    Nat) (s : State) (h : Keep q s) : Keep q (load i c sl rd rs1 imm n s) := by
  unfold load
  repeat' with_reducible
    first
    | assumption | refine keepN_ofGot (by assumption) ?_ | refine keepN_ofPoisoned (by assumption) ?_ | exact keepN_waits
    | apply keepN_got | apply keepN_poisoned | apply issueWith_keeps | apply accessOk_keeps | apply waitWith_keeps
    | apply narrow_keeps | apply instrFault_keeps | apply retire_keeps | intro _ | split | simp only [keep_mk, keep_fold, id_eq]

theorem doLb_keeps (q : KeepArgs) (c : Nat) (sl : Nat) (rd : BitVec 5) (rs1 : BitVec 5) (imm : BitVec 16) (s : State) (h :
    Keep q s) : Keep q (doLb c sl rd rs1 imm s) := by
  unfold doLb
  repeat' with_reducible
    first
    | assumption | apply load_keeps | intro _ | split | simp only [keep_mk, keep_fold, id_eq]

theorem doSrai_keeps (q : KeepArgs) (c : Nat) (sl : Nat) (rd : BitVec 5) (rs1 : BitVec 5) (imm : BitVec 16) (s : State) (h :
    Keep q s) : Keep q (doSrai c sl rd rs1 imm s) := by
  unfold doSrai
  repeat' with_reducible
    first
    | assumption | apply aluRRI_keeps | intro _ | split | simp only [keep_mk, keep_fold, id_eq]

theorem doWaitc_keeps (q : KeepArgs) (c : Nat) (sl : Nat) (rs1 : BitVec 5) (n : BitVec 5) (z : BitVec 16) (s : State) (h :
    Keep q s) : Keep q (doWaitc c sl rs1 n z s) := by
  unfold doWaitc
  repeat' with_reducible
    first
    | assumption | apply issueWith_keeps | apply legal_keeps | apply retire_keeps | apply waitWith_keeps | intro _ | split
    | simp only [keep_mk, keep_fold, id_eq]

theorem store_keeps (q : KeepArgs) (i : Instr) (c : Nat) (sl : Nat) (rs2 : BitVec 5) (rs1 : BitVec 5) (imm : BitVec 16) (n :
    Nat) (s : State) (h : Keep q s) : Keep q (store i c sl rs2 rs1 imm n s) := by
  unfold store
  repeat' with_reducible
    first
    | assumption | refine keepN_ofGot (by assumption) ?_ | refine keepN_ofPoisoned (by assumption) ?_ | exact keepN_waits
    | apply keepN_got | apply keepN_poisoned | apply issueWith_keeps | apply accessOk_keeps | apply waitWith_keeps
    | apply narrow_keeps | apply instrFault_keeps | apply narrowPut_keeps | apply retire_keeps | intro _ | split
    | simp only [keep_mk, keep_fold, id_eq]

theorem doSw_keeps (q : KeepArgs) (c : Nat) (sl : Nat) (rs2 : BitVec 5) (rs1 : BitVec 5) (imm : BitVec 16) (s : State) (h :
    Keep q s) : Keep q (doSw c sl rs2 rs1 imm s) := by
  unfold doSw
  repeat' with_reducible
    first
    | assumption | apply store_keeps | intro _ | split | simp only [keep_mk, keep_fold, id_eq]

theorem doSltu_keeps (q : KeepArgs) (c : Nat) (sl : Nat) (rd : BitVec 5) (rs1 : BitVec 5) (rs2 : BitVec 5) (s : State) (h :
    Keep q s) : Keep q (doSltu c sl rd rs1 rs2 s) := by
  unfold doSltu
  repeat' with_reducible
    first
    | assumption | apply aluRRR_keeps | intro _ | split | simp only [keep_mk, keep_fold, id_eq]

theorem doLdi_keeps (q : KeepArgs) (c : Nat) (sl : Nat) (rd : BitVec 5) (z : BitVec 3) (x4 : BitVec 2) (imm : BitVec 16) (s :
    State) (h : Keep q s) : Keep q (doLdi c sl rd z x4 imm s) := by
  unfold doLdi
  repeat' with_reducible
    first
    | assumption | apply aluRRI_keeps | intro _ | split | simp only [keep_mk, keep_fold, id_eq]

end Sys2Proof.Machine
end

