-- ==== Sys2Proof/Laws/Keep2.lean ====
section
/-! SUPPORT. One lemma per operation and per command: it keeps what `Keep` says (part 2 of 7, callees before callers). -/

namespace Sys2Proof.Machine

set_option linter.unusedSimpArgs false
set_option linter.unusedVariables false

theorem doMin_keeps (q : KeepArgs) (c : Nat) (sl : Nat) (rd : BitVec 5) (rs1 : BitVec 5) (rs2 : BitVec 5) (s : State) (h :
    Keep q s) : Keep q (doMin c sl rd rs1 rs2 s) := by
  unfold doMin
  repeat' with_reducible
    first
    | assumption | apply aluRRR_keeps | intro _ | split | simp only [keep_mk, keep_fold, id_eq]

theorem doSlti_keeps (q : KeepArgs) (c : Nat) (sl : Nat) (rd : BitVec 5) (rs1 : BitVec 5) (imm : BitVec 16) (s : State) (h :
    Keep q s) : Keep q (doSlti c sl rd rs1 imm s) := by
  unfold doSlti
  repeat' with_reducible
    first
    | assumption | apply aluRRI_keeps | intro _ | split | simp only [keep_mk, keep_fold, id_eq]

theorem doWaitop_keeps (q : KeepArgs) (c : Nat) (sl : Nat) (z5 : BitVec 5) (rs1 : BitVec 5) (z16 : BitVec 16) (s : State) (h
    : Keep q s) : Keep q (doWaitop c sl z5 rs1 z16 s) := by
  unfold doWaitop
  repeat' with_reducible
    first
    | assumption | apply issueWith_keeps | apply legal_keeps | apply retire_keeps | apply instrFault_keeps
    | apply waitWith_keeps | intro _ | split | simp only [keep_mk, keep_fold, id_eq]

theorem branch_keeps (q : KeepArgs) (i : Instr) (c : Nat) (sl : Nat) (rs1 : BitVec 5) (rs2 : BitVec 5) (off : BitVec 16) (p :
    Word → Word → Bool) (s : State) (h : Keep q s) : Keep q (branch i c sl rs1 rs2 off p s) := by
  unfold branch
  repeat' with_reducible
    first
    | assumption | apply issueWith_keeps | apply stallTrc_keeps | apply trcBranch_keeps | apply retire_keeps | intro _
    | split | simp only [keep_mk, keep_fold, id_eq]

theorem doBgeu_keeps (q : KeepArgs) (c : Nat) (sl : Nat) (rs1 : BitVec 5) (rs2 : BitVec 5) (off : BitVec 16) (s : State) (h :
    Keep q s) : Keep q (doBgeu c sl rs1 rs2 off s) := by
  unfold doBgeu
  repeat' with_reducible
    first
    | assumption | apply branch_keeps | intro _ | split | simp only [keep_mk, keep_fold, id_eq]

theorem doMaxu_keeps (q : KeepArgs) (c : Nat) (sl : Nat) (rd : BitVec 5) (rs1 : BitVec 5) (rs2 : BitVec 5) (s : State) (h :
    Keep q s) : Keep q (doMaxu c sl rd rs1 rs2 s) := by
  unfold doMaxu
  repeat' with_reducible
    first
    | assumption | apply aluRRR_keeps | intro _ | split | simp only [keep_mk, keep_fold, id_eq]

theorem doSrli_keeps (q : KeepArgs) (c : Nat) (sl : Nat) (rd : BitVec 5) (rs1 : BitVec 5) (imm : BitVec 16) (s : State) (h :
    Keep q s) : Keep q (doSrli c sl rd rs1 imm s) := by
  unfold doSrli
  repeat' with_reducible
    first
    | assumption | apply aluRRI_keeps | intro _ | split | simp only [keep_mk, keep_fold, id_eq]

theorem doSlli_keeps (q : KeepArgs) (c : Nat) (sl : Nat) (rd : BitVec 5) (rs1 : BitVec 5) (imm : BitVec 16) (s : State) (h :
    Keep q s) : Keep q (doSlli c sl rd rs1 imm s) := by
  unfold doSlli
  repeat' with_reducible
    first
    | assumption | apply aluRRI_keeps | intro _ | split | simp only [keep_mk, keep_fold, id_eq]

theorem doLw_keeps (q : KeepArgs) (c : Nat) (sl : Nat) (rd : BitVec 5) (rs1 : BitVec 5) (imm : BitVec 16) (s : State) (h :
    Keep q s) : Keep q (doLw c sl rd rs1 imm s) := by
  unfold doLw
  repeat' with_reducible
    first
    | assumption | apply load_keeps | intro _ | split | simp only [keep_mk, keep_fold, id_eq]

theorem doSrd_keeps (q : KeepArgs) (c : Nat) (sl : Nat) (rd : BitVec 5) (rs1 : BitVec 5) (n : BitVec 5) (z : BitVec 7) (s :
    State) (h : Keep q s) : Keep q (doSrd c sl rd rs1 n z s) := by
  unfold doSrd
  repeat' with_reducible
    first
    | assumption | apply issueWith_keeps | apply legal_keeps | apply retireAlu_keeps | intro _ | split
    | simp only [keep_mk, keep_fold, id_eq]

theorem doWaitcResume_keeps (q : KeepArgs) (c : Nat) (sl : Nat) (s : State) (h : Keep q s) : Keep q (doWaitcResume c sl s) := by
  unfold doWaitcResume
  repeat' with_reducible
    first
    | assumption | apply modSlot_keeps | intro _ | split | simp only [keep_mk, keep_fold, id_eq]

theorem doAcset_keeps (q : KeepArgs) (c : Nat) (sl : Nat) (rd : BitVec 5) (rs1 : BitVec 5) (n : BitVec 5) (z : BitVec 7) (s :
    State) (h : Keep q s) : Keep q (doAcset c sl rd rs1 n z s) := by
  unfold doAcset
  repeat' with_reducible
    first
    | assumption | apply issueWith_keeps | apply legal_keeps | apply retire_keeps | intro _ | split
    | simp only [keep_mk, keep_fold, id_eq]

theorem doOr_keeps (q : KeepArgs) (c : Nat) (sl : Nat) (rd : BitVec 5) (rs1 : BitVec 5) (rs2 : BitVec 5) (s : State) (h :
    Keep q s) : Keep q (doOr c sl rd rs1 rs2 s) := by
  unfold doOr
  repeat' with_reducible
    first
    | assumption | apply aluRRR_keeps | intro _ | split | simp only [keep_mk, keep_fold, id_eq]

theorem doWaitopResume_keeps (q : KeepArgs) (c : Nat) (sl : Nat) (s : State) (h : Keep q s) : Keep q (doWaitopResume c sl s)
    := by
  unfold doWaitopResume
  repeat' with_reducible
    first
    | assumption | apply modSlot_keeps | intro _ | split | simp only [keep_mk, keep_fold, id_eq]

theorem doBltu_keeps (q : KeepArgs) (c : Nat) (sl : Nat) (rs1 : BitVec 5) (rs2 : BitVec 5) (off : BitVec 16) (s : State) (h :
    Keep q s) : Keep q (doBltu c sl rs1 rs2 off s) := by
  unfold doBltu
  repeat' with_reducible
    first
    | assumption | apply branch_keeps | intro _ | split | simp only [keep_mk, keep_fold, id_eq]

theorem doAdd_keeps (q : KeepArgs) (c : Nat) (sl : Nat) (rd : BitVec 5) (rs1 : BitVec 5) (rs2 : BitVec 5) (s : State) (h :
    Keep q s) : Keep q (doAdd c sl rd rs1 rs2 s) := by
  unfold doAdd
  repeat' with_reducible
    first
    | assumption | apply aluRRR_keeps | intro _ | split | simp only [keep_mk, keep_fold, id_eq]

theorem doTdw_keeps (q : KeepArgs) (c : Nat) (sl : Nat) (td : BitVec 2) (w : BitVec 2) (z1 : BitVec 1) (rs1 : BitVec 5) (z10
    : BitVec 10) (off : BitVec 6) (s : State) (h : Keep q s) : Keep q (doTdw c sl td w z1 rs1 z10 off s) := by
  unfold doTdw
  repeat' with_reducible
    first
    | assumption | apply issueWith_keeps | apply legal_keeps | apply retire_keeps | intro _ | split
    | simp only [keep_mk, keep_fold, id_eq]

theorem doSd_keeps (q : KeepArgs) (c : Nat) (sl : Nat) (rs2 : BitVec 5) (rs1 : BitVec 5) (imm : BitVec 16) (s : State) (h :
    Keep q s) : Keep q (doSd c sl rs2 rs1 imm s) := by
  unfold doSd
  repeat' with_reducible
    first
    | assumption | apply store_keeps | intro _ | split | simp only [keep_mk, keep_fold, id_eq]

theorem doSra_keeps (q : KeepArgs) (c : Nat) (sl : Nat) (rd : BitVec 5) (rs1 : BitVec 5) (rs2 : BitVec 5) (s : State) (h :
    Keep q s) : Keep q (doSra c sl rd rs1 rs2 s) := by
  unfold doSra
  repeat' with_reducible
    first
    | assumption | apply aluRRR_keeps | intro _ | split | simp only [keep_mk, keep_fold, id_eq]

theorem doAcrd_keeps (q : KeepArgs) (c : Nat) (sl : Nat) (rd : BitVec 5) (rs1 : BitVec 5) (n : BitVec 5) (z : BitVec 7) (s :
    State) (h : Keep q s) : Keep q (doAcrd c sl rd rs1 n z s) := by
  unfold doAcrd
  repeat' with_reducible
    first
    | assumption | apply issueWith_keeps | apply legal_keeps | apply retireAlu_keeps | intro _ | split
    | simp only [keep_mk, keep_fold, id_eq]

theorem doMinu_keeps (q : KeepArgs) (c : Nat) (sl : Nat) (rd : BitVec 5) (rs1 : BitVec 5) (rs2 : BitVec 5) (s : State) (h :
    Keep q s) : Keep q (doMinu c sl rd rs1 rs2 s) := by
  unfold doMinu
  repeat' with_reducible
    first
    | assumption | apply aluRRR_keeps | intro _ | split | simp only [keep_mk, keep_fold, id_eq]

theorem doSrl_keeps (q : KeepArgs) (c : Nat) (sl : Nat) (rd : BitVec 5) (rs1 : BitVec 5) (rs2 : BitVec 5) (s : State) (h :
    Keep q s) : Keep q (doSrl c sl rd rs1 rs2 s) := by
  unfold doSrl
  repeat' with_reducible
    first
    | assumption | apply aluRRR_keeps | intro _ | split | simp only [keep_mk, keep_fold, id_eq]

theorem doAndi_keeps (q : KeepArgs) (c : Nat) (sl : Nat) (rd : BitVec 5) (rs1 : BitVec 5) (imm : BitVec 16) (s : State) (h :
    Keep q s) : Keep q (doAndi c sl rd rs1 imm s) := by
  unfold doAndi
  repeat' with_reducible
    first
    | assumption | apply aluRRI_keeps | intro _ | split | simp only [keep_mk, keep_fold, id_eq]

theorem doHalt_keeps (q : KeepArgs) (c : Nat) (sl : Nat) (z : BitVec 26) (s : State) (h : Keep q s) : Keep q (doHalt c sl z
    s) := by
  unfold doHalt
  repeat' with_reducible
    first
    | assumption | apply issueWith_keeps | apply legal_keeps | apply waitWith_keeps | apply retire_keeps | intro _ | split
    | simp only [keep_mk, keep_fold, id_eq]

theorem doSb_keeps (q : KeepArgs) (c : Nat) (sl : Nat) (rs2 : BitVec 5) (rs1 : BitVec 5) (imm : BitVec 16) (s : State) (h :
    Keep q s) : Keep q (doSb c sl rs2 rs1 imm s) := by
  unfold doSb
  repeat' with_reducible
    first
    | assumption | apply store_keeps | intro _ | split | simp only [keep_mk, keep_fold, id_eq]

theorem doAddi_keeps (q : KeepArgs) (c : Nat) (sl : Nat) (rd : BitVec 5) (rs1 : BitVec 5) (imm : BitVec 16) (s : State) (h :
    Keep q s) : Keep q (doAddi c sl rd rs1 imm s) := by
  unfold doAddi
  repeat' with_reducible
    first
    | assumption | apply aluRRI_keeps | intro _ | split | simp only [keep_mk, keep_fold, id_eq]

theorem doBge_keeps (q : KeepArgs) (c : Nat) (sl : Nat) (rs1 : BitVec 5) (rs2 : BitVec 5) (off : BitVec 16) (s : State) (h :
    Keep q s) : Keep q (doBge c sl rs1 rs2 off s) := by
  unfold doBge
  repeat' with_reducible
    first
    | assumption | apply branch_keeps | intro _ | split | simp only [keep_mk, keep_fold, id_eq]

theorem doFenceResume_keeps (q : KeepArgs) (c : Nat) (sl : Nat) (s : State) (h : Keep q s) : Keep q (doFenceResume c sl s) := by
  unfold doFenceResume
  repeat' with_reducible
    first
    | assumption | apply modSlot_keeps | intro _ | split | simp only [keep_mk, keep_fold, id_eq]

theorem doBlt_keeps (q : KeepArgs) (c : Nat) (sl : Nat) (rs1 : BitVec 5) (rs2 : BitVec 5) (off : BitVec 16) (s : State) (h :
    Keep q s) : Keep q (doBlt c sl rs1 rs2 off s) := by
  unfold doBlt
  repeat' with_reducible
    first
    | assumption | apply branch_keeps | intro _ | split | simp only [keep_mk, keep_fold, id_eq]

theorem doBeq_keeps (q : KeepArgs) (c : Nat) (sl : Nat) (rs1 : BitVec 5) (rs2 : BitVec 5) (off : BitVec 16) (s : State) (h :
    Keep q s) : Keep q (doBeq c sl rs1 rs2 off s) := by
  unfold doBeq
  repeat' with_reducible
    first
    | assumption | apply branch_keeps | intro _ | split | simp only [keep_mk, keep_fold, id_eq]

theorem doSh_keeps (q : KeepArgs) (c : Nat) (sl : Nat) (rs2 : BitVec 5) (rs1 : BitVec 5) (imm : BitVec 16) (s : State) (h :
    Keep q s) : Keep q (doSh c sl rs2 rs1 imm s) := by
  unfold doSh
  repeat' with_reducible
    first
    | assumption | apply store_keeps | intro _ | split | simp only [keep_mk, keep_fold, id_eq]

theorem doSub_keeps (q : KeepArgs) (c : Nat) (sl : Nat) (rd : BitVec 5) (rs1 : BitVec 5) (rs2 : BitVec 5) (s : State) (h :
    Keep q s) : Keep q (doSub c sl rd rs1 rs2 s) := by
  unfold doSub
  repeat' with_reducible
    first
    | assumption | apply aluRRR_keeps | intro _ | split | simp only [keep_mk, keep_fold, id_eq]

theorem doOri_keeps (q : KeepArgs) (c : Nat) (sl : Nat) (rd : BitVec 5) (rs1 : BitVec 5) (imm : BitVec 16) (s : State) (h :
    Keep q s) : Keep q (doOri c sl rd rs1 imm s) := by
  unfold doOri
  repeat' with_reducible
    first
    | assumption | apply aluRRI_keeps | intro _ | split | simp only [keep_mk, keep_fold, id_eq]

theorem doBne_keeps (q : KeepArgs) (c : Nat) (sl : Nat) (rs1 : BitVec 5) (rs2 : BitVec 5) (off : BitVec 16) (s : State) (h :
    Keep q s) : Keep q (doBne c sl rs1 rs2 off s) := by
  unfold doBne
  repeat' with_reducible
    first
    | assumption | apply branch_keeps | intro _ | split | simp only [keep_mk, keep_fold, id_eq]

theorem doLd_keeps (q : KeepArgs) (c : Nat) (sl : Nat) (rd : BitVec 5) (rs1 : BitVec 5) (imm : BitVec 16) (s : State) (h :
    Keep q s) : Keep q (doLd c sl rd rs1 imm s) := by
  unfold doLd
  repeat' with_reducible
    first
    | assumption | apply load_keeps | intro _ | split | simp only [keep_mk, keep_fold, id_eq]

theorem doTdi_keeps (q : KeepArgs) (c : Nat) (sl : Nat) (td : BitVec 2) (z : BitVec 2) (off : BitVec 6) (imm : BitVec 16) (s
    : State) (h : Keep q s) : Keep q (doTdi c sl td z off imm s) := by
  unfold doTdi
  repeat' with_reducible
    first
    | assumption | apply issueWith_keeps | apply legal_keeps | apply retire_keeps | intro _ | split
    | simp only [keep_mk, keep_fold, id_eq]

theorem doYield_keeps (q : KeepArgs) (c : Nat) (sl : Nat) (rd : BitVec 5) (rs1 : BitVec 5) (n : BitVec 5) (z : BitVec 7) (s :
    State) (h : Keep q s) : Keep q (doYield c sl rd rs1 n z s) := by
  unfold doYield
  repeat' with_reducible
    first
    | assumption | apply issueWith_keeps | apply legal_keeps | apply retire_keeps | intro _ | split
    | simp only [keep_mk, keep_fold, id_eq]

theorem doXori_keeps (q : KeepArgs) (c : Nat) (sl : Nat) (rd : BitVec 5) (rs1 : BitVec 5) (imm : BitVec 16) (s : State) (h :
    Keep q s) : Keep q (doXori c sl rd rs1 imm s) := by
  unfold doXori
  repeat' with_reducible
    first
    | assumption | apply aluRRI_keeps | intro _ | split | simp only [keep_mk, keep_fold, id_eq]

theorem doJalr_keeps (q : KeepArgs) (c : Nat) (sl : Nat) (rd : BitVec 5) (rs1 : BitVec 5) (imm : BitVec 16) (s : State) (h :
    Keep q s) : Keep q (doJalr c sl rd rs1 imm s) := by
  unfold doJalr
  repeat' with_reducible
    first
    | assumption | apply issueWith_keeps | apply stallTrc_keeps | apply trcPut_keeps | apply retire_keeps | intro _ | split
    | simp only [keep_mk, keep_fold, id_eq]

theorem doSll_keeps (q : KeepArgs) (c : Nat) (sl : Nat) (rd : BitVec 5) (rs1 : BitVec 5) (rs2 : BitVec 5) (s : State) (h :
    Keep q s) : Keep q (doSll c sl rd rs1 rs2 s) := by
  unfold doSll
  repeat' with_reducible
    first
    | assumption | apply aluRRR_keeps | intro _ | split | simp only [keep_mk, keep_fold, id_eq]

theorem doTmark_keeps (q : KeepArgs) (c : Nat) (sl : Nat) (rd : BitVec 5) (rs1 : BitVec 5) (n : BitVec 5) (z : BitVec 7) (s :
    State) (h : Keep q s) : Keep q (doTmark c sl rd rs1 n z s) := by
  unfold doTmark
  repeat' with_reducible
    first
    | assumption | apply issueWith_keeps | apply legal_keeps | apply stallTrc_keeps | apply retire_keeps
    | apply trcPut_keeps | intro _ | split | simp only [keep_mk, keep_fold, id_eq]

theorem doTdz_keeps (q : KeepArgs) (c : Nat) (sl : Nat) (td : BitVec 2) (z : BitVec 24) (s : State) (h : Keep q s) : Keep q
    (doTdz c sl td z s) := by
  unfold doTdz
  repeat' with_reducible
    first
    | assumption | apply issueWith_keeps | apply legal_keeps | apply retire_keeps | intro _ | split
    | simp only [keep_mk, keep_fold, id_eq]

theorem doJal_keeps (q : KeepArgs) (c : Nat) (sl : Nat) (rd : BitVec 5) (off : BitVec 21) (s : State) (h : Keep q s) : Keep q
    (doJal c sl rd off s) := by
  unfold doJal
  repeat' with_reducible
    first
    | assumption | apply issueWith_keeps | apply retire_keeps | intro _ | split | simp only [keep_mk, keep_fold, id_eq]

theorem doXor_keeps (q : KeepArgs) (c : Nat) (sl : Nat) (rd : BitVec 5) (rs1 : BitVec 5) (rs2 : BitVec 5) (s : State) (h :
    Keep q s) : Keep q (doXor c sl rd rs1 rs2 s) := by
  unfold doXor
  repeat' with_reducible
    first
    | assumption | apply aluRRR_keeps | intro _ | split | simp only [keep_mk, keep_fold, id_eq]

theorem doProgramEnd_keeps (q : KeepArgs) (c : Nat) (sl : Nat) (s : State) (h : Keep q s) : Keep q (doProgramEnd c sl s) := by
  unfold doProgramEnd
  repeat' with_reducible
    first
    | assumption | apply stallTrc_keeps | apply haltSlot_keeps | apply modSlot_keeps | apply poolCheck_keeps | intro _
    | split | simp only [keep_mk, keep_fold, id_eq]

theorem doSlt_keeps (q : KeepArgs) (c : Nat) (sl : Nat) (rd : BitVec 5) (rs1 : BitVec 5) (rs2 : BitVec 5) (s : State) (h :
    Keep q s) : Keep q (doSlt c sl rd rs1 rs2 s) := by
  unfold doSlt
  repeat' with_reducible
    first
    | assumption | apply aluRRR_keeps | intro _ | split | simp only [keep_mk, keep_fold, id_eq]

theorem doLh_keeps (q : KeepArgs) (c : Nat) (sl : Nat) (rd : BitVec 5) (rs1 : BitVec 5) (imm : BitVec 16) (s : State) (h :
    Keep q s) : Keep q (doLh c sl rd rs1 imm s) := by
  unfold doLh
  repeat' with_reducible
    first
    | assumption | apply load_keeps | intro _ | split | simp only [keep_mk, keep_fold, id_eq]

theorem doMul_keeps (q : KeepArgs) (c : Nat) (sl : Nat) (rd : BitVec 5) (rs1 : BitVec 5) (rs2 : BitVec 5) (s : State) (h :
    Keep q s) : Keep q (doMul c sl rd rs1 rs2 s) := by
  unfold doMul
  repeat' with_reducible
    first
    | assumption | apply issueWith_keeps | apply retireMul_keeps | intro _ | split | simp only [keep_mk, keep_fold, id_eq]

theorem doAnd_keeps (q : KeepArgs) (c : Nat) (sl : Nat) (rd : BitVec 5) (rs1 : BitVec 5) (rs2 : BitVec 5) (s : State) (h :
    Keep q s) : Keep q (doAnd c sl rd rs1 rs2 s) := by
  unfold doAnd
  repeat' with_reducible
    first
    | assumption | apply aluRRR_keeps | intro _ | split | simp only [keep_mk, keep_fold, id_eq]

theorem doFence_keeps (q : KeepArgs) (c : Nat) (sl : Nat) (z : BitVec 26) (s : State) (h : Keep q s) : Keep q (doFence c sl z
    s) := by
  unfold doFence
  repeat' with_reducible
    first
    | assumption | apply issueWith_keeps | apply legal_keeps | apply retire_keeps | apply waitWith_keeps | intro _ | split
    | simp only [keep_mk, keep_fold, id_eq]

theorem sbWait_keeps (q : KeepArgs) (s : State) (c : Nat) (sl : Nat) (i : Instr) (why : WaitWhy) (off : Nat) (h : Keep q s) :
    Keep q (sbWait s c sl i why off) := by
  unfold sbWait
  repeat' with_reducible
    first
    | assumption | apply modSlot_keeps | apply bumpC_keeps | apply waitWith_keeps | intro _ | split
    | simp only [keep_mk, keep_fold, id_eq]

theorem issueFault_keeps (q : KeepArgs) (s : State) (c : Nat) (sl : Nat) (opc : Nat) (code : Nat) (detail : Nat) (h : Keep q
    s) : Keep q (issueFault s c sl opc code detail) := by
  unfold issueFault
  repeat' with_reducible
    first
    | assumption | apply modSlot_keeps | apply slotFault_keeps | intro _ | split | simp only [keep_mk, keep_fold, id_eq]

theorem issueNow_keeps (q : KeepArgs) (s : State) (c : Nat) (sl : Nat) (rd : BitVec 5) (r : Req) (cycles : Nat) (h : Keep q
    s) : Keep q (issueNow s c sl rd r cycles) := by
  unfold issueNow
  repeat' with_reducible
    first
    | assumption | apply trcPut_keeps | apply bumpC_keeps | apply modClu_keeps | apply retire_keeps | intro _ | split
    | simp only [keep_mk, keep_fold, id_eq]

theorem doIssueResume_keeps (q : KeepArgs) (c : Nat) (sl : Nat) (s : State) (h : Keep q s) : Keep q (doIssueResume c sl s) := by
  unfold doIssueResume
  repeat' with_reducible
    first
    | assumption | apply sbWait_keeps | apply issueFault_keeps | apply modSlot_keeps | apply stepFresh_keeps
    | apply stallTrc_keeps | apply issueNow_keeps | intro _ | split | simp only [keep_mk, keep_fold, id_eq]

theorem issueOrWait_keeps (q : KeepArgs) (s : State) (c : Nat) (sl : Nat) (i : Instr) (rd : BitVec 5) (r : Req) (h : Keep q
    s) : Keep q (issueOrWait s c sl i rd r) := by
  unfold issueOrWait
  repeat' with_reducible
    first
    | assumption | apply sbWait_keeps | apply stallTrc_keeps | apply issueNow_keeps | intro _ | split
    | simp only [keep_mk, keep_fold, id_eq]

theorem dma_keeps (q : KeepArgs) (i : Instr) (get : Bool) (c : Nat) (sl : Nat) (rd : BitVec 5) (rs1 : BitVec 5) (rs2 : BitVec
    5) (rs3 : BitVec 5) (cen : BitVec 1) (ctr : BitVec 5) (s : State) (h : Keep q s) : Keep q (dma i get c sl rd rs1 rs2 rs3
    cen ctr s) := by
  unfold dma
  repeat' with_reducible
    first
    | assumption | apply issueWith_keeps | apply issueFault_keeps | apply issueOrWait_keeps | intro _ | split
    | simp only [keep_mk, keep_fold, id_eq]

theorem doDmag_keeps (q : KeepArgs) (c : Nat) (sl : Nat) (rd : BitVec 5) (rs1 : BitVec 5) (rs2 : BitVec 5) (rs3 : BitVec 5)
    (cen : BitVec 1) (ctr : BitVec 5) (s : State) (h : Keep q s) : Keep q (doDmag c sl rd rs1 rs2 rs3 cen ctr s) := by
  unfold doDmag
  repeat' with_reducible
    first
    | assumption | apply dma_keeps | intro _ | split | simp only [keep_mk, keep_fold, id_eq]

theorem doDmap_keeps (q : KeepArgs) (c : Nat) (sl : Nat) (rd : BitVec 5) (rs1 : BitVec 5) (rs2 : BitVec 5) (rs3 : BitVec 5)
    (cen : BitVec 1) (ctr : BitVec 5) (s : State) (h : Keep q s) : Keep q (doDmap c sl rd rs1 rs2 rs3 cen ctr s) := by
  unfold doDmap
  repeat' with_reducible
    first
    | assumption | apply dma_keeps | intro _ | split | simp only [keep_mk, keep_fold, id_eq]

theorem doTiss_keeps (q : KeepArgs) (c : Nat) (sl : Nat) (td : BitVec 2) (z3 : BitVec 3) (rd : BitVec 5) (z16 : BitVec 16) (s
    : State) (h : Keep q s) : Keep q (doTiss c sl td z3 rd z16 s) := by
  unfold doTiss
  repeat' with_reducible
    first
    | assumption | apply issueWith_keeps | apply legal_keeps | apply issueFault_keeps | apply issueOrWait_keeps | intro _
    | split | simp only [keep_mk, keep_fold, id_eq]

theorem runSeq_keeps (q : KeepArgs) (c : Nat) (sl : Nat) (i : Instr) (s : State) (h : Keep q s) : Keep q (runSeq c sl i s) := by
  unfold runSeq
  repeat' with_reducible
    first
    | assumption | apply doAdd_keeps | apply doSub_keeps | apply doAnd_keeps | apply doOr_keeps | apply doXor_keeps
    | apply doSll_keeps | apply doSrl_keeps | apply doSra_keeps | apply doSlt_keeps | apply doSltu_keeps
    | apply doMul_keeps | apply doMin_keeps | apply doMax_keeps | apply doMinu_keeps | apply doMaxu_keeps
    | apply doAddi_keeps | apply doAndi_keeps | apply doOri_keeps | apply doXori_keeps | apply doSlli_keeps
    | apply doSrli_keeps | apply doSrai_keeps | apply doSlti_keeps | apply doLdi_keeps | apply doBeq_keeps
    | apply doBne_keeps | apply doBlt_keeps | apply doBge_keeps | apply doBltu_keeps | apply doBgeu_keeps
    | apply doJal_keeps | apply doJalr_keeps | apply doHalt_keeps | apply doLd_keeps | apply doLw_keeps | apply doLh_keeps
    | apply doLb_keeps | apply doSd_keeps | apply doSw_keeps | apply doSh_keeps | apply doSb_keeps | apply doTdz_keeps
    | apply doTdw_keeps | apply doTdi_keeps | apply doTiss_keeps | apply doDmag_keeps | apply doDmap_keeps
    | apply doWaitc_keeps | apply doWaitop_keeps | apply doFence_keeps | apply doSrd_keeps | apply doAcrd_keeps
    | apply doAcset_keeps | apply doTmark_keeps | apply doYield_keeps | intro _ | split | simp only [keep_mk, keep_fold, id_eq]

theorem doLdstResume_keeps (q : KeepArgs) (c : Nat) (sl : Nat) (s : State) (h : Keep q s) : Keep q (doLdstResume c sl s) := by
  unfold doLdstResume
  repeat' with_reducible
    first
    | assumption | apply runSeq_keeps | apply modSlot_keeps | intro _ | split | simp only [keep_mk, keep_fold, id_eq]

theorem doInterlockResume_keeps (q : KeepArgs) (c : Nat) (sl : Nat) (s : State) (h : Keep q s) : Keep q (doInterlockResume c
    sl s) := by
  unfold doInterlockResume
  repeat' with_reducible
    first
    | assumption | apply runSeq_keeps | apply modSlot_keeps | intro _ | split | simp only [keep_mk, keep_fold, id_eq]

theorem markRun_keeps (q : KeepArgs) (s : State) (c : Nat) (o : Op) (h : Keep q s) : Keep q (markRun s c o) := by
  unfold markRun
  repeat' with_reducible
    first
    | assumption | intro _ | split | simp only [keep_mk, keep_fold, id_eq]

theorem dropOp_keeps (q : KeepArgs) (s : State) (c : Nat) (o : Op) (h : Keep q s) : Keep q (dropOp s c o) := by
  unfold dropOp
  repeat' with_reducible
    first
    | assumption | apply modClu_keeps | intro _ | split | simp only [keep_mk, keep_fold, id_eq]

theorem opFaultAt_keeps (q : KeepArgs) (s : State) (c : Nat) (o : Op) (code : Nat) (detail : Nat) (core : Nat) (h : Keep q s)
    : Keep q (opFaultAt s c o code detail core) := by
  unfold opFaultAt
  repeat' with_reducible
    first
    | assumption | apply markRun_keeps | apply slotFaultAt_keeps | apply dropOp_keeps | intro _ | split
    | simp only [keep_mk, keep_fold, id_eq]

theorem opFault_keeps (q : KeepArgs) (s : State) (c : Nat) (o : Op) (code : Nat) (detail : Nat) (h : Keep q s) : Keep q
    (opFault s c o code detail) := by
  unfold opFault
  repeat' with_reducible
    first
    | assumption | apply opFaultAt_keeps | intro _ | split | simp only [keep_mk, keep_fold, id_eq]

theorem tryWords_keeps (q : KeepArgs) (s : State) (c : Nat) (x2 : List Nat) (h : Keep q s) : Keep q (tryWords s c x2) := by
  induction x2 generalizing s c with
  | nil =>
    unfold tryWords; (try simp only [])
    repeat' with_reducible
      first
      | assumption | apply unitEnt_keeps | intro _ | refine keep_ofPair (by assumption) ?_ | split
      | simp only [keep_mk, keep_fold, id_eq]
  | cons _ _ ih =>
    unfold tryWords; (try simp only [])
    repeat' with_reducible
      first
      | assumption | apply unitEnt_keeps | apply ih | intro _ | refine keep_ofPair (by assumption) ?_ | split
      | simp only [keep_mk, keep_fold, id_eq]

theorem withOp_keeps (q : KeepArgs) (s : State) (c : Nat) (sl : Nat) (t : Nat) (opc : Nat) (p : Phase → Bool) (g : Op → State
    → State) (h_g : ∀ (y0 : Op) (y1 : State), Keep q y1 → Keep q (g y0 y1)) (h : Keep q s) : Keep q (withOp s c sl t opc p g)
    := by
  unfold withOp
  repeat' with_reducible
    first
    | assumption | apply h_g | intro _ | split | simp only [keep_mk, keep_fold, id_eq]

theorem opCmd_keeps (q : KeepArgs) (s : State) (c : Nat) (sl : Nat) (t : Nat) (opc : Nat) (p : Phase → Bool) (g : Op → State
    → State) (h_g : ∀ (y0 : Op) (y1 : State), Keep q y1 → Keep q (g y0 y1)) (h : Keep q s) : ∀ u, (opCmd s c sl t opc p g) =
    .next u → Keep q u := by
  intro u hu; unfold opCmd at hu; refine slotRun_keeps q _ _ _ _ ?_ h _ hu
  repeat' with_reducible
    first
    | assumption | apply withOp_keeps | apply h_g | intro _ | split | simp only [keep_mk, keep_fold, id_eq]

theorem opRead_keeps (q : KeepArgs) (s : State) (c : Nat) (o : Op) (r : Opnd) (n : Nat) (g : State → List Byte → State) (h_g
    : ∀ (y0 : State) (y1 : List Byte), Keep q y0 → Keep q (g y0 y1)) (h : Keep q s) : Keep q (opRead s c o r n g) := by
  unfold opRead
  repeat' with_reducible
    first
    | assumption | apply readOpnd_keeps | apply opFault_keeps | apply h_g | intro _ | refine keep_ofPair (by assumption) ?_
    | split | simp only [keep_mk, keep_fold, id_eq]

theorem opReadOpt_keeps (q : KeepArgs) (s : State) (c : Nat) (o : Op) (r : Opnd) (n : Nat) (g : State → List Byte → State)
    (h_g : ∀ (y0 : State) (y1 : List Byte), Keep q y0 → Keep q (g y0 y1)) (h : Keep q s) : Keep q (opReadOpt s c o r n g) := by
  unfold opReadOpt
  repeat' with_reducible
    first
    | assumption | apply opRead_keeps | apply h_g | intro _ | split | simp only [keep_mk, keep_fold, id_eq]

theorem bumpAc_keeps (q : KeepArgs) (s : State) (c : Nat) (sl : Nat) (n : Nat) (h : Keep q s) : Keep q (bumpAc s c sl n) := by
  unfold bumpAc
  repeat' with_reducible
    first
    | assumption | apply modSlot_keeps | intro _ | split | simp only [keep_mk, keep_fold, id_eq]

theorem opEnd_keeps (q : KeepArgs) (s : State) (c : Nat) (o : Op) (h : Keep q s) : Keep q (opEnd s c o) := by
  unfold opEnd
  repeat' with_reducible
    first
    | assumption | apply dropOp_keeps | apply bumpAc_keeps | apply poolCheck_keeps | intro _ | split
    | simp only [keep_mk, keep_fold, id_eq]

theorem writeAll_keeps (q : KeepArgs) (s : State) (c : Nat) (x2 : BankUser) (sl : Nat) (x4 : List (Opnd × Nat × List Byte))
    (h : Keep q s) : Keep q (writeAll s c x2 sl x4).1 := by
  induction x4 generalizing s c x2 sl with
  | nil =>
    unfold writeAll; (try simp only [])
    repeat' with_reducible
      first
      | assumption | apply writeSpans_keeps | intro _ | refine keep_ofPair (by assumption) ?_ | split
      | simp only [keep_mk, keep_fold, id_eq]
  | cons _ _ ih =>
    unfold writeAll; (try simp only [])
    repeat' with_reducible
      first
      | assumption | apply writeSpans_keeps | apply ih | intro _ | refine keep_ofPair (by assumption) ?_ | split
      | simp only [keep_mk, keep_fold, id_eq]

theorem opWrites_keeps (q : KeepArgs) (s : State) (c : Nat) (o : Op) (ws : List (Opnd × Nat × List Byte)) (g : State → State)
    (h_g : ∀ (y0 : State), Keep q y0 → Keep q (g y0)) (h : Keep q s) : Keep q (opWrites s c o ws g) := by
  unfold opWrites
  repeat' with_reducible
    first
    | assumption | apply writeAll_keeps | apply opFault_keeps | apply tryWords_keeps | apply h_g | intro _
    | refine keep_ofPair (by assumption) ?_ | split | simp only [keep_mk, keep_fold, id_eq]

theorem opWrite_keeps (q : KeepArgs) (s : State) (c : Nat) (o : Op) (r : Opnd) (bs : List Byte) (g : State → State) (h_g : ∀
    (y0 : State), Keep q y0 → Keep q (g y0)) (h : Keep q s) : Keep q (opWrite s c o r bs g) := by
  unfold opWrite
  repeat' with_reducible
    first
    | assumption | apply opWrites_keeps | apply h_g | intro _ | split | simp only [keep_mk, keep_fold, id_eq]

theorem countEvents_keeps (q : KeepArgs) (s : State) (c : Nat) (evs : List (Bool × Bool)) (h : Keep q s) : Keep q
    (countEvents s c evs) := by
  unfold countEvents
  repeat' with_reducible
    first
    | assumption | apply bumpC_keeps | intro _ | split | simp only [keep_mk, keep_fold, id_eq]

theorem putOp_keeps (q : KeepArgs) (s : State) (c : Nat) (o : Op) (h : Keep q s) : Keep q (putOp s c o) := by
  unfold putOp
  repeat' with_reducible
    first
    | assumption | apply modClu_keeps | intro _ | split | simp only [keep_mk, keep_fold, id_eq]

theorem setPhase_keeps (q : KeepArgs) (s : State) (c : Nat) (o : Op) (p : Phase) (h : Keep q s) : Keep q (setPhase s c o p)
    := by
  unfold setPhase
  repeat' with_reducible
    first
    | assumption | apply putOp_keeps | intro _ | split | simp only [keep_mk, keep_fold, id_eq]

theorem opParts_keeps (q : KeepArgs) (c : Nat) (o : Op) (r : Opnd) (g : State → State) (x4 : List (Nat × Nat)) (x5 : State)
    (h_g : ∀ (y0 : State), Keep q y0 → Keep q (g y0)) (h : Keep q x5) : Keep q (opParts c o r g x4 x5) := by
  induction x4 generalizing c o r g x5 with
  | nil =>
    unfold opParts; (try simp only [])
    repeat' with_reducible
      first
      | assumption | apply readSpans_keeps | apply opFault_keeps | apply h_g | intro _
      | refine keep_ofPair (by assumption) ?_ | split | simp only [keep_mk, keep_fold, id_eq]
  | cons _ _ ih =>
    unfold opParts; (try simp only [])
    repeat' with_reducible
      first
      | assumption | apply readSpans_keeps | apply opFault_keeps | apply ih | apply h_g | intro _
      | refine keep_ofPair (by assumption) ?_ | split | simp only [keep_mk, keep_fold, id_eq]

theorem doExpand_keeps (q : KeepArgs) (c : Nat) (o : Op) (s : State) (h : Keep q s) : Keep q (doExpand c o s) := by
  unfold doExpand
  repeat' with_reducible
    first
    | assumption | apply opRead_keeps | apply opFault_keeps | apply opParts_keeps | apply opWrite_keeps
    | apply setPhase_keeps | apply bumpC_keeps | intro _ | split | simp only [keep_mk, keep_fold, id_eq]

theorem execCmpExpand_keeps (q : KeepArgs) (c : Nat) (sl : Nat) (t : Nat) (s : State) (h : Keep q s) : ∀ u, (execCmpExpand c
    sl t s) = .next u → Keep q u := by
  intro u hu; unfold execCmpExpand at hu; refine opCmd_keeps q _ _ _ _ _ _ _ ?_ h _ hu
  repeat' with_reducible
    first
    | assumption | apply doExpand_keeps | intro _ | split | simp only [keep_mk, keep_fold, id_eq]

theorem doCompress_keeps (q : KeepArgs) (c : Nat) (o : Op) (s : State) (h : Keep q s) : Keep q (doCompress c o s) := by
  unfold doCompress
  repeat' with_reducible
    first
    | assumption | apply opRead_keeps | apply opWrites_keeps | apply setPhase_keeps | apply bumpC_keeps | intro _ | split
    | simp only [keep_mk, keep_fold, id_eq]

theorem execCmpCompress_keeps (q : KeepArgs) (c : Nat) (sl : Nat) (t : Nat) (s : State) (h : Keep q s) : ∀ u,
    (execCmpCompress c sl t s) = .next u → Keep q u := by
  intro u hu; unfold execCmpCompress at hu; refine opCmd_keeps q _ _ _ _ _ _ _ ?_ h _ hu
  repeat' with_reducible
    first
    | assumption | apply doCompress_keeps | intro _ | split | simp only [keep_mk, keep_fold, id_eq]

theorem okCount_keeps (q : KeepArgs) (c : Nat) (off : Nat) (n : Nat) (r : WRes) (h_w : KeepW q r) : KeepW q (okCount c off n
    r) := by
  unfold okCount
  repeat' with_reducible
    first
    | assumption | exact keepW_ofOk rfl h_w | exact keepW_ofReload rfl h_w | exact keepW_ofLost rfl h_w
    | exact keepW_ofBad rfl h_w | refine keepW_ofOk (by assumption) ?_ | refine keepW_ofReload (by assumption) ?_
    | refine keepW_ofLost (by assumption) ?_ | refine keepW_ofBad (by assumption) ?_ | apply keepW_ok | apply keepW_reload
    | apply keepW_lost | apply keepW_badRecord | apply bumpC_keeps | intro _ | split | simp only [keep_mk, keep_fold, id_eq]

theorem fixChunks_keeps (q : KeepArgs) (s : State) (c : Nat) (x2 : List Nat) (h : Keep q s) : Keep q (fixChunks s c x2) := by
  induction x2 generalizing s c with
  | nil =>
    unfold fixChunks; (try simp only [])
    repeat' with_reducible
      first
      | assumption | apply bumpC_keeps | apply keepV_weDel | intro _ | split | simp only [keep_mk, keep_fold, id_eq]
  | cons _ _ ih =>
    unfold fixChunks; (try simp only [])
    repeat' with_reducible
      first
      | assumption | apply bumpC_keeps | apply keepV_weDel | apply ih | intro _ | split | simp only [keep_mk, keep_fold, id_eq]

theorem readChunks_keeps (q : KeepArgs) (s : State) (c : Nat) (t : Nat) (as : List Nat) (h : Keep q s) : KeepW q (readChunks
    s c t as) := by
  unfold readChunks
  repeat' with_reducible
    first
    | assumption | refine keepW_ofOk (by assumption) ?_ | refine keepW_ofReload (by assumption) ?_
    | refine keepW_ofLost (by assumption) ?_ | refine keepW_ofBad (by assumption) ?_ | apply keepW_ok | apply keepW_reload
    | apply keepW_lost | apply keepW_badRecord | apply putTile_keeps | apply fixChunks_keeps | intro _ | split
    | simp only [keep_mk, keep_fold, id_eq]

theorem wAccess_keeps (q : KeepArgs) (s : State) (c : Nat) (x : WAcc) (h : Keep q s) : KeepW q (wAccess s c x) := by
  unfold wAccess
  repeat' with_reducible
    first
    | assumption | refine keepW_ofOk (by assumption) ?_ | refine keepW_ofReload (by assumption) ?_
    | refine keepW_ofLost (by assumption) ?_ | refine keepW_ofBad (by assumption) ?_ | apply keepW_ok | apply keepW_reload
    | apply keepW_lost | apply keepW_badRecord | apply readChunks_keeps | apply okCount_keeps | apply bumpC_keeps | intro _
    | split | simp only [keep_mk, keep_fold, id_eq]

theorem wAccesses_keeps (q : KeepArgs) (s : State) (c : Nat) (n : Nat) (x3 : List WAcc) (h : Keep q s) : KeepW q (wAccesses s
    c n x3) := by
  induction x3 generalizing s c n with
  | nil =>
    unfold wAccesses; (try simp only [])
    repeat' with_reducible
      first
      | assumption | refine keepW_ofOk (by assumption) ?_ | refine keepW_ofReload (by assumption) ?_
      | refine keepW_ofLost (by assumption) ?_ | refine keepW_ofBad (by assumption) ?_ | apply keepW_ok
      | apply keepW_reload | apply keepW_lost | apply keepW_badRecord | apply wAccess_keeps | intro _ | split
      | simp only [keep_mk, keep_fold, id_eq]
  | cons _ _ ih =>
    unfold wAccesses; (try simp only [])
    repeat' with_reducible
      first
      | assumption | refine keepW_ofOk (by assumption) ?_ | refine keepW_ofReload (by assumption) ?_
      | refine keepW_ofLost (by assumption) ?_ | refine keepW_ofBad (by assumption) ?_ | apply keepW_ok
      | apply keepW_reload | apply keepW_lost | apply keepW_badRecord | apply wAccess_keeps | apply ih | intro _ | split
      | simp only [keep_mk, keep_fold, id_eq]

theorem weightLost_keeps (q : KeepArgs) (s : State) (c : Nat) (o : Op) (t : Nat) (h : Keep q s) : Keep q (weightLost s c o t)
    := by
  unfold weightLost
  repeat' with_reducible
    first
    | assumption | apply opFaultAt_keeps | intro _ | split | simp only [keep_mk, keep_fold, id_eq]

theorem coreLostFault_keeps (q : KeepArgs) (s : State) (c : Nat) (o : Op) (l : Nat) (h : Keep q s) : Keep q (coreLostFault s
    c o l) := by
  unfold coreLostFault
  repeat' with_reducible
    first
    | assumption | apply opFaultAt_keeps | intro _ | split | simp only [keep_mk, keep_fold, id_eq]

theorem countPass_keeps (q : KeepArgs) (s : State) (c : Nat) (k : PassCount) (h : Keep q s) : Keep q (countPass s c k) := by
  unfold countPass
  repeat' with_reducible
    first
    | assumption | apply bumpC64_keeps | apply bumpC_keeps | intro _ | split | simp only [keep_mk, keep_fold, id_eq]

theorem readEnds_keeps (q : KeepArgs) (c : Nat) (o : Op) (r : PassRun) (xs : List (Nat × WAcc)) (w : WRes) (h_w : KeepW q w)
    : Keep q (readEnds c o r xs w) := by
  unfold readEnds
  repeat' with_reducible
    first
    | assumption | exact keepW_ofOk rfl h_w | exact keepW_ofReload rfl h_w | exact keepW_ofLost rfl h_w
    | exact keepW_ofBad rfl h_w | refine keepW_ofOk (by assumption) ?_ | refine keepW_ofReload (by assumption) ?_
    | refine keepW_ofLost (by assumption) ?_ | refine keepW_ofBad (by assumption) ?_ | apply keepW_ok | apply keepW_reload
    | apply keepW_lost | apply keepW_badRecord | apply setPhase_keeps | apply weightLost_keeps | apply countPass_keeps
    | apply opFault_keeps | intro _ | split | simp only [keep_mk, keep_fold, id_eq]

theorem runPass_keeps (q : KeepArgs) (s : State) (c : Nat) (o : Op) (h : Keep q s) : Keep q (runPass s c o) := by
  unfold runPass
  repeat' with_reducible
    first
    | assumption | refine keepW_ofOk (by assumption) ?_ | refine keepW_ofReload (by assumption) ?_
    | refine keepW_ofLost (by assumption) ?_ | refine keepW_ofBad (by assumption) ?_ | apply keepW_ok | apply keepW_reload
    | apply keepW_lost | apply keepW_badRecord | apply opRead_keeps | apply opReadOpt_keeps | apply wAccesses_keeps
    | apply setPhase_keeps | apply countPass_keeps | apply readEnds_keeps | intro _ | split
    | simp only [keep_mk, keep_fold, id_eq]

theorem checkEnds_keeps (q : KeepArgs) (c : Nat) (o : Op) (w : WRes) (h_w : KeepW q w) : Keep q (checkEnds c o w) := by
  unfold checkEnds
  repeat' with_reducible
    first
    | assumption | exact keepW_ofOk rfl h_w | exact keepW_ofReload rfl h_w | exact keepW_ofLost rfl h_w
    | exact keepW_ofBad rfl h_w | refine keepW_ofOk (by assumption) ?_ | refine keepW_ofReload (by assumption) ?_
    | refine keepW_ofLost (by assumption) ?_ | refine keepW_ofBad (by assumption) ?_ | apply keepW_ok | apply keepW_reload
    | apply keepW_lost | apply keepW_badRecord | apply setPhase_keeps | apply weightLost_keeps | apply opFault_keeps
    | intro _ | split | simp only [keep_mk, keep_fold, id_eq]

theorem readDirs_keeps (q : KeepArgs) (s : State) (c : Nat) (o : Op) (e : Nat) (h : Keep q s) : Keep q (readDirs s c o e) := by
  unfold readDirs
  repeat' with_reducible
    first
    | assumption | refine keepW_ofOk (by assumption) ?_ | refine keepW_ofReload (by assumption) ?_
    | refine keepW_ofLost (by assumption) ?_ | refine keepW_ofBad (by assumption) ?_ | apply keepW_ok | apply keepW_reload
    | apply keepW_lost | apply keepW_badRecord | apply wAccesses_keeps | apply putOp_keeps | apply runPass_keeps
    | apply checkEnds_keeps | intro _ | split | simp only [keep_mk, keep_fold, id_eq]

theorem accordCheck_keeps (q : KeepArgs) (s : State) (c : Nat) (o : Op) (h : Keep q s) : Keep q (accordCheck s c o) := by
  unfold accordCheck
  repeat' with_reducible
    first
    | assumption | apply runPass_keeps | apply opFault_keeps | apply readDirs_keeps | intro _ | split
    | simp only [keep_mk, keep_fold, id_eq]

theorem startEngine_keeps (q : KeepArgs) (s : State) (c : Nat) (o : Op) (h : Keep q s) : Keep q (startEngine s c o) := by
  unfold startEngine
  repeat' with_reducible
    first
    | assumption | apply coreLostFault_keeps | apply opRead_keeps | apply accordCheck_keeps | apply opFault_keeps | intro _
    | split | simp only [keep_mk, keep_fold, id_eq]

theorem tryStart_keeps (q : KeepArgs) (c : Nat) (o : Op) (s : State) (h : Keep q s) : Keep q (tryStart c o s) := by
  unfold tryStart
  repeat' with_reducible
    first
    | assumption | apply startEngine_keeps | apply bumpFree_keeps | intro _ | split | simp only [keep_mk, keep_fold, id_eq]

theorem engineCmd_keeps (q : KeepArgs) (s : State) (c : Nat) (sl : Nat) (t : Nat) (g : Op → State → State) (h_g : ∀ (y0 : Op)
    (y1 : State), Keep q y1 → Keep q (g y0 y1)) (h : Keep q s) : ∀ u, (engineCmd s c sl t g) = .next u → Keep q u := by
  intro u hu; unfold engineCmd at hu; refine slotRun_keeps q _ _ _ _ ?_ h _ hu
  repeat' with_reducible
    first
    | assumption | apply h_g | intro _ | split | simp only [keep_mk, keep_fold, id_eq]

theorem doAbandon_keeps (q : KeepArgs) (c : Nat) (o : Op) (s : State) (h : Keep q s) : Keep q (doAbandon c o s) := by
  unfold doAbandon
  repeat' with_reducible
    first
    | assumption | apply bumpC64_keeps | apply setPhase_keeps | apply opFault_keeps | intro _ | split
    | simp only [keep_mk, keep_fold, id_eq]

theorem execPassAbandon_keeps (q : KeepArgs) (c : Nat) (sl : Nat) (t : Nat) (s : State) (h : Keep q s) : ∀ u,
    (execPassAbandon c sl t s) = .next u → Keep q u := by
  intro u hu; unfold execPassAbandon at hu; refine engineCmd_keeps q _ _ _ _ _ ?_ h _ hu
  repeat' with_reducible
    first
    | assumption | apply doAbandon_keeps | intro _ | split | simp only [keep_mk, keep_fold, id_eq]

theorem checkWaited_keeps (q : KeepArgs) (s : State) (c : Nat) (o : Op) (h : Keep q s) : Keep q (checkWaited s c o) := by
  unfold checkWaited
  repeat' with_reducible
    first
    | assumption | apply bumpC64_keeps | apply stepFresh_keeps | intro _ | split | simp only [keep_mk, keep_fold, id_eq]

theorem execXnp_keeps (q : KeepArgs) (c : Nat) (sl : Nat) (t : Nat) (s : State) (h : Keep q s) : ∀ u, (execXnp c sl t s) =
    .next u → Keep q u := by
  intro u hu; unfold execXnp at hu; refine opCmd_keeps q _ _ _ _ _ _ _ ?_ h _ hu
  repeat' with_reducible
    first
    | assumption | apply tryStart_keeps | intro _ | split | simp only [keep_mk, keep_fold, id_eq]

theorem readDest_keeps (q : KeepArgs) (s : State) (c : Nat) (o : Op) (g : State → List Byte → List Byte → State) (h_g : ∀ (y0
    : State) (y1 : List Byte) (y2 : List Byte), Keep q y0 → Keep q (g y0 y1 y2)) (h : Keep q s) : Keep q (readDest s c o g)
    := by
  unfold readDest
  repeat' with_reducible
    first
    | assumption | apply opRead_keeps | apply opReadOpt_keeps | apply h_g | intro _ | split
    | simp only [keep_mk, keep_fold, id_eq]

theorem tileCmd_keeps (q : KeepArgs) (s : State) (c : Nat) (t : Nat) (g : State → State) (h_g : ∀ (y0 : State), Keep q y0 →
    Keep q (g y0)) (h : Keep q s) : ∀ u, (tileCmd s c t g) = .next u → Keep q u := by
  intro u hu; unfold tileCmd at hu; (try simp only [] at hu); (repeat' split at hu) <;> first | (cases hu <;> ((repeat' with_reducible first | assumption | apply h_g | intro _ | split | simp only [keep_mk, keep_fold, id_eq]); done)) | (refine hubCmd_keeps q _ _ ?_ ?_ _ hu <;> ((repeat' with_reducible first | assumption | apply h_g | intro _ | split | simp only [keep_mk, keep_fold, id_eq]); done))

theorem loseWaiter_keeps (q : KeepArgs) (c : Nat) (t : Nat) (s : State) (o : Op) (h : Keep q s) : Keep q (loseWaiter c t s o)
    := by
  unfold loseWaiter
  repeat' with_reducible
    first
    | assumption | apply weightLost_keeps | apply countPass_keeps | apply stepFresh_keeps | apply checkWaited_keeps
    | intro _ | split | simp only [keep_mk, keep_fold, id_eq]

theorem loseTile_keeps (q : KeepArgs) (s : State) (c : Nat) (t : Nat) (h : Keep q s) : Keep q (loseTile s c t) := by
  unfold loseTile
  repeat' with_reducible
    first
    | assumption | apply loseWaiter_keeps | apply putTile_keeps | apply keep_foldl | intro _ | split
    | simp only [keep_mk, keep_fold, id_eq]

theorem execWeightReloadFail_keeps (q : KeepArgs) (c : Nat) (tile : Nat) (s : State) (h : Keep q s) : ∀ u,
    (execWeightReloadFail c tile s) = .next u → Keep q u := by
  intro u hu; unfold execWeightReloadFail at hu; refine tileCmd_keeps q _ _ _ _ ?_ h _ hu
  repeat' with_reducible
    first
    | assumption | apply loseTile_keeps | intro _ | split | simp only [keep_mk, keep_fold, id_eq]

theorem execTla_keeps (q : KeepArgs) (c : Nat) (sl : Nat) (t : Nat) (s : State) (h : Keep q s) : ∀ u, (execTla c sl t s) =
    .next u → Keep q u := by
  intro u hu; unfold execTla at hu; refine opCmd_keeps q _ _ _ _ _ _ _ ?_ h _ hu
  repeat' with_reducible
    first
    | assumption | apply tryStart_keeps | intro _ | split | simp only [keep_mk, keep_fold, id_eq]

theorem reloadRead_keeps (q : KeepArgs) (s : State) (b : Nat) (h : Keep q s) : Keep q (reloadRead s b).1 := by
  unfold reloadRead
  repeat' with_reducible
    first
    | assumption | apply physRead_keeps | intro _ | refine keep_ofPair (by assumption) ?_ | split
    | simp only [keep_mk, keep_fold, id_eq]

theorem takeReload_keeps (q : KeepArgs) (s : State) (c : Nat) (t : Nat) (b : Nat) (h : Keep q s) : Keep q (takeReload s c t
    b).1 := by
  unfold takeReload
  repeat' with_reducible
    first
    | assumption | apply reloadRead_keeps | intro _ | refine keep_ofPair (by assumption) ?_ | split
    | simp only [keep_mk, keep_fold, id_eq]

theorem fillTile_keeps (q : KeepArgs) (s : State) (c : Nat) (t : Nat) (bs : List Byte) (h : Keep q s) : Keep q (fillTile s c
    t bs) := by
  unfold fillTile
  repeat' with_reducible
    first
    | assumption | apply keepV_spad | apply keepV_wst | apply keepV_dev | apply keepV_host | apply keepV_rt
    | apply keepV_spDrop | apply keepV_seDrop | apply keepV_weDrop | apply keepV_dpDrop | apply keepV_deDrop | intro _
    | split | simp only [keep_mk, keep_fold, id_eq]

theorem resumeRead_keeps (q : KeepArgs) (c : Nat) (s : State) (o : Op) (h : Keep q s) : Keep q (resumeRead c s o) := by
  unfold resumeRead
  repeat' with_reducible
    first
    | assumption | apply runPass_keeps | apply stepFresh_keeps | apply readDirs_keeps | apply checkWaited_keeps
    | apply accordCheck_keeps | intro _ | split | simp only [keep_mk, keep_fold, id_eq]

theorem reloadDone_keeps (q : KeepArgs) (c : Nat) (e : TileEnd) (s : State) (h : Keep q s) : Keep q (reloadDone c e s) := by
  unfold reloadDone
  repeat' with_reducible
    first
    | assumption | apply takeReload_keeps | apply bumpC_keeps | apply loseTile_keeps | apply putTile_keeps
    | apply fillTile_keeps | apply resumeRead_keeps | apply keep_foldl | intro _ | refine keep_ofPair (by assumption) ?_
    | split | simp only [keep_mk, keep_fold, id_eq]

theorem execWeightReloadDone_keeps (q : KeepArgs) (c : Nat) (tile : TileEnd) (s : State) (h : Keep q s) : ∀ u,
    (execWeightReloadDone c tile s) = .next u → Keep q u := by
  intro u hu; unfold execWeightReloadDone at hu; refine tileCmd_keeps q _ _ _ _ ?_ h _ hu
  repeat' with_reducible
    first
    | assumption | apply reloadDone_keeps | intro _ | split | simp only [keep_mk, keep_fold, id_eq]

theorem countTile_keeps (q : KeepArgs) (s : State) (c : Nat) (o : Op) (p : PassOut) (x : DestOut) (h : Keep q s) : Keep q
    (countTile s c o p x) := by
  unfold countTile
  repeat' with_reducible
    first
    | assumption | apply bumpC_keeps | apply countEvents_keeps | apply bumpC64_keeps | intro _ | split
    | simp only [keep_mk, keep_fold, id_eq]

theorem doReplay_keeps (q : KeepArgs) (c : Nat) (o : Op) (s : State) (h : Keep q s) : Keep q (doReplay c o s) := by
  unfold doReplay
  repeat' with_reducible
    first
    | assumption | apply coreLostFault_keeps | apply runPass_keeps | apply bumpC_keeps | apply putOp_keeps
    | apply bumpFree_keeps | intro _ | split | simp only [keep_mk, keep_fold, id_eq]

theorem execTileReplay_keeps (q : KeepArgs) (c : Nat) (sl : Nat) (t : Nat) (s : State) (h : Keep q s) : ∀ u, (execTileReplay
    c sl t s) = .next u → Keep q u := by
  intro u hu; unfold execTileReplay at hu; refine engineCmd_keeps q _ _ _ _ _ ?_ h _ hu
  repeat' with_reducible
    first
    | assumption | apply doReplay_keeps | intro _ | split | simp only [keep_mk, keep_fold, id_eq]

theorem doComplete_keeps (q : KeepArgs) (c : Nat) (o : Op) (s : State) (h : Keep q s) : Keep q (doComplete c o s) := by
  unfold doComplete
  repeat' with_reducible
    first
    | assumption | apply opReadOpt_keeps | apply readDest_keeps | apply opWrites_keeps | apply setPhase_keeps
    | apply countTile_keeps | intro _ | split | simp only [keep_mk, keep_fold, id_eq]

theorem execGate_keeps (q : KeepArgs) (c : Nat) (sl : Nat) (t : Nat) (s : State) (h : Keep q s) : ∀ u, (execGate c sl t s) =
    .next u → Keep q u := by
  intro u hu; unfold execGate at hu; refine opCmd_keeps q _ _ _ _ _ _ _ ?_ h _ hu
  repeat' with_reducible
    first
    | assumption | apply tryStart_keeps | intro _ | split | simp only [keep_mk, keep_fold, id_eq]

theorem execPassComplete_keeps (q : KeepArgs) (c : Nat) (sl : Nat) (t : Nat) (s : State) (h : Keep q s) : ∀ u,
    (execPassComplete c sl t s) = .next u → Keep q u := by
  intro u hu; unfold execPassComplete at hu; refine engineCmd_keeps q _ _ _ _ _ ?_ h _ hu
  repeat' with_reducible
    first
    | assumption | apply doComplete_keeps | intro _ | split | simp only [keep_mk, keep_fold, id_eq]

theorem tileHolds_keeps (q : KeepArgs) (c : Nat) (t : Nat) (s : State) (h : Keep q s) : Keep q (tileHolds c t s) := by
  unfold tileHolds
  repeat' with_reducible
    first
    | assumption | apply reloadRead_keeps | apply putTile_keeps | intro _ | refine keep_ofPair (by assumption) ?_ | split
    | simp only [keep_mk, keep_fold, id_eq]

theorem countQnt_keeps (q : KeepArgs) (s : State) (c : Nat) (x : QntOut) (h : Keep q s) : Keep q (countQnt s c x) := by
  unfold countQnt
  repeat' with_reducible
    first
    | assumption | apply bumpC_keeps | apply countEvents_keeps | apply modClu_keeps | intro _ | split
    | simp only [keep_mk, keep_fold, id_eq]

theorem qntPut_keeps (q : KeepArgs) (c : Nat) (o : Op) (x : QntOut) (s : State) (h : Keep q s) : Keep q (qntPut c o x s) := by
  unfold qntPut
  repeat' with_reducible
    first
    | assumption | apply opWrites_keeps | apply setPhase_keeps | apply countQnt_keeps | intro _ | split
    | simp only [keep_mk, keep_fold, id_eq]

theorem plainPut_keeps (q : KeepArgs) (c : Nat) (o : Op) (dst : Opnd) (vs : List FV) (s : State) (h : Keep q s) : Keep q
    (plainPut c o dst vs s) := by
  unfold plainPut
  repeat' with_reducible
    first
    | assumption | apply opWrite_keeps | apply setPhase_keeps | apply countEvents_keeps | intro _ | split
    | simp only [keep_mk, keep_fold, id_eq]

theorem qntElems_keeps (q : KeepArgs) (c : Nat) (o : Op) (i : QIn) (els : List QEl) (bad : List Nat) (s : State) (h : Keep q
    s) : Keep q (qntElems c o i els bad s) := by
  unfold qntElems
  repeat' with_reducible
    first
    | assumption | apply qntPut_keeps | apply bumpC_keeps | apply plainPut_keeps | intro _ | split
    | simp only [keep_mk, keep_fold, id_eq]

theorem qntImage_keeps (q : KeepArgs) (c : Nat) (o : Op) (i : QIn) (f : Fmt) (img : Img) (s : State) (h : Keep q s) : Keep q
    (qntImage c o i f img s) := by
  unfold qntImage
  repeat' with_reducible
    first
    | assumption | apply bumpC_keeps | apply qntPut_keeps | apply qntElems_keeps | intro _ | split
    | simp only [keep_mk, keep_fold, id_eq]

theorem readGains_keeps (q : KeepArgs) (s : State) (c : Nat) (o : Op) (e : Option Nat) (g : State → List (Nat × Nat) → State)
    (h_g : ∀ (y0 : State) (y1 : List (Nat × Nat)), Keep q y0 → Keep q (g y0 y1)) (h : Keep q s) : Keep q (readGains s c o e
    g) := by
  unfold readGains
  repeat' with_reducible
    first
    | assumption | apply spadRead_keeps | apply opFault_keeps | apply bumpC_keeps | apply h_g | intro _
    | refine keep_ofPair (by assumption) ?_ | split | simp only [keep_mk, keep_fold, id_eq]

theorem actPut_keeps (q : KeepArgs) (c : Nat) (o : Op) (xs : List FV) (ys : List FV) (rec : List Byte) (s : State) (h : Keep
    q s) : Keep q (actPut c o xs ys rec s) := by
  unfold actPut
  repeat' with_reducible
    first
    | assumption | apply opWrite_keeps | apply bumpC_keeps | apply setPhase_keeps | apply countEvents_keeps | intro _
    | split | simp only [keep_mk, keep_fold, id_eq]

theorem plainSource_keeps (q : KeepArgs) (s : State) (c : Nat) (o : Op) (src : Opnd) (n : Nat) (g : State → List FV → State)
    (h_g : ∀ (y0 : State) (y1 : List FV), Keep q y0 → Keep q (g y0 y1)) (h : Keep q s) : Keep q (plainSource s c o src n g)
    := by
  unfold plainSource
  repeat' with_reducible
    first
    | assumption | apply opRead_keeps | apply h_g | intro _ | split | simp only [keep_mk, keep_fold, id_eq]

theorem gainStart_keeps (q : KeepArgs) (s : State) (c : Nat) (o : Op) (used : Bool) (g : State → Option Nat → State) (h_g : ∀
    (y0 : State) (y1 : Option Nat), Keep q y0 → Keep q (g y0 y1)) (h : Keep q s) : Keep q (gainStart s c o used g) := by
  unfold gainStart
  repeat' with_reducible
    first
    | assumption | apply opFault_keeps | apply h_g | intro _ | split | simp only [keep_mk, keep_fold, id_eq]

theorem withGains_keeps (q : KeepArgs) (s : State) (c : Nat) (o : Op) (e : Option Nat) (r : Opnd) (n : Nat) (g : State → List
    W32 → State) (h_g : ∀ (y0 : State) (y1 : List W32), Keep q y0 → Keep q (g y0 y1)) (h : Keep q s) : Keep q (withGains s c
    o e r n g) := by
  unfold withGains
  repeat' with_reducible
    first
    | assumption | apply readGains_keeps | apply opRead_keeps | apply bumpC_keeps | apply h_g | intro _ | split
    | simp only [keep_mk, keep_fold, id_eq]

theorem accSource_keeps (q : KeepArgs) (s : State) (c : Nat) (o : Op) (e : Option Nat) (src : Opnd) (gain : Opnd) (n : Nat)
    (g : State → List FV → State) (h_g : ∀ (y0 : State) (y1 : List FV), Keep q y0 → Keep q (g y0 y1)) (h : Keep q s) : Keep q
    (accSource s c o e src gain n g) := by
  unfold accSource
  repeat' with_reducible
    first
    | assumption | apply opRead_keeps | apply withGains_keeps | apply h_g | intro _ | split
    | simp only [keep_mk, keep_fold, id_eq]

theorem doAct_keeps (q : KeepArgs) (c : Nat) (o : Op) (s : State) (h : Keep q s) : Keep q (doAct c o s) := by
  unfold doAct
  repeat' with_reducible
    first
    | assumption | apply opReadOpt_keeps | apply actPut_keeps | apply plainSource_keeps | apply gainStart_keeps
    | apply accSource_keeps | intro _ | split | simp only [keep_mk, keep_fold, id_eq]

theorem execAct_keeps (q : KeepArgs) (c : Nat) (sl : Nat) (t : Nat) (s : State) (h : Keep q s) : ∀ u, (execAct c sl t s) =
    .next u → Keep q u := by
  intro u hu; unfold execAct at hu; refine opCmd_keeps q _ _ _ _ _ _ _ ?_ h _ hu
  repeat' with_reducible
    first
    | assumption | apply doAct_keeps | intro _ | split | simp only [keep_mk, keep_fold, id_eq]

theorem qntSource_keeps (q : KeepArgs) (c : Nat) (o : Op) (i : QIn) (s : State) (h : Keep q s) : Keep q (qntSource c o i s)
    := by
  unfold qntSource
  repeat' with_reducible
    first
    | assumption | apply qntElems_keeps | apply accSource_keeps | apply opRead_keeps | apply qntImage_keeps
    | apply plainSource_keeps | intro _ | split | simp only [keep_mk, keep_fold, id_eq]

theorem doNrm_keeps (q : KeepArgs) (c : Nat) (o : Op) (s : State) (h : Keep q s) : Keep q (doNrm c o s) := by
  unfold doNrm
  repeat' with_reducible
    first
    | assumption | apply plainSource_keeps | apply plainPut_keeps | intro _ | split | simp only [keep_mk, keep_fold, id_eq]

theorem execNrm_keeps (q : KeepArgs) (c : Nat) (sl : Nat) (t : Nat) (s : State) (h : Keep q s) : ∀ u, (execNrm c sl t s) =
    .next u → Keep q u := by
  intro u hu; unfold execNrm at hu; refine opCmd_keeps q _ _ _ _ _ _ _ ?_ h _ hu
  repeat' with_reducible
    first
    | assumption | apply doNrm_keeps | intro _ | split | simp only [keep_mk, keep_fold, id_eq]

theorem doQnt_keeps (q : KeepArgs) (c : Nat) (o : Op) (s : State) (h : Keep q s) : Keep q (doQnt c o s) := by
  unfold doQnt
  repeat' with_reducible
    first
    | assumption | apply gainStart_keeps | apply opReadOpt_keeps | apply qntSource_keeps | intro _ | split
    | simp only [keep_mk, keep_fold, id_eq]

theorem execQnt_keeps (q : KeepArgs) (c : Nat) (sl : Nat) (t : Nat) (s : State) (h : Keep q s) : ∀ u, (execQnt c sl t s) =
    .next u → Keep q u := by
  intro u hu; unfold execQnt at hu; refine opCmd_keeps q _ _ _ _ _ _ _ ?_ h _ hu
  repeat' with_reducible
    first
    | assumption | apply doQnt_keeps | intro _ | split | simp only [keep_mk, keep_fold, id_eq]

theorem dropLb_keeps (q : KeepArgs) (s : State) (c : Nat) (mask : Nat) (h : Keep q s) : Keep q (dropLb s c mask) := by
  unfold dropLb
  repeat' with_reducible
    first
    | assumption | apply modClu_keeps | intro _ | split | simp only [keep_mk, keep_fold, id_eq]

theorem walkRead_keeps (q : KeepArgs) (s : State) (c : Nat) (o : Op) (a : Nat) (n : Nat) (g : State → List Byte → State) (h_g
    : ∀ (y0 : State) (y1 : List Byte), Keep q y0 → Keep q (g y0 y1)) (h : Keep q s) : Keep q (walkRead s c o a n g) := by
  unfold walkRead
  repeat' with_reducible
    first
    | assumption | refine tenRead_keeps q _ _ _ _ _ ?_ _ _ (by assumption) | apply opFault_keeps | apply h_g | intro _
    | split | simp only [keep_mk, keep_fold, id_eq]

theorem withPte_keeps (q : KeepArgs) (s : State) (c : Nat) (o : Op) (seq : Nat) (layer : Nat) (pt : Nat) (page : Nat) (g :
    State → Nat → State) (h_g : ∀ (y0 : State) (y1 : Nat), Keep q y0 → Keep q (g y0 y1)) (h : Keep q s) : Keep q (withPte s c
    o seq layer pt page g) := by
  unfold withPte
  repeat' with_reducible
    first
    | assumption | apply modClu_keeps | apply walkRead_keeps | apply bumpC_keeps | apply h_g | intro _ | split
    | simp only [keep_mk, keep_fold, id_eq]

theorem walkWrite_keeps (q : KeepArgs) (s : State) (c : Nat) (o : Op) (a : Nat) (bs : List Byte) (h : Keep q s) : Keep q
    (walkWrite s c o a bs) := by
  unfold walkWrite
  repeat' with_reducible
    first
    | assumption | apply tenWrite_keeps | intro _ | split | simp only [keep_mk, keep_fold, id_eq]

theorem pageWrite_keeps (q : KeepArgs) (s : State) (c : Nat) (o : Op) (p : Nat) (off : Nat) (bs : List Byte) (h : Keep q s) :
    Keep q (pageWrite s c o p off bs).1 := by
  unfold pageWrite
  repeat' with_reducible
    first
    | assumption | apply spadWrite_keeps | apply walkWrite_keeps | intro _ | refine keep_ofPair (by assumption) ?_ | split
    | simp only [keep_mk, keep_fold, id_eq]

theorem piecesWrite_keeps (q : KeepArgs) (s : State) (c : Nat) (o : Op) (p : Nat) (x4 : List (Nat × List Byte)) (h : Keep q
    s) : Keep q (piecesWrite s c o p x4).1 := by
  induction x4 generalizing s c o p with
  | nil =>
    unfold piecesWrite; (try simp only [])
    repeat' with_reducible
      first
      | assumption | apply pageWrite_keeps | intro _ | refine keep_ofPair (by assumption) ?_ | split
      | simp only [keep_mk, keep_fold, id_eq]
  | cons _ _ ih =>
    unfold piecesWrite; (try simp only [])
    repeat' with_reducible
      first
      | assumption | apply pageWrite_keeps | apply ih | intro _ | refine keep_ofPair (by assumption) ?_ | split
      | simp only [keep_mk, keep_fold, id_eq]

theorem withHdr_keeps (q : KeepArgs) (s : State) (c : Nat) (o : Op) (g : State → KvHdr → State) (h_g : ∀ (y0 : State) (y1 :
    KvHdr), Keep q y0 → Keep q (g y0 y1)) (h : Keep q s) : Keep q (withHdr s c o g) := by
  unfold withHdr
  repeat' with_reducible
    first
    | assumption | apply opFault_keeps | apply walkRead_keeps | apply modSlot_keeps | apply h_g | intro _ | split
    | simp only [keep_mk, keep_fold, id_eq]

theorem withShare_keeps (q : KeepArgs) (s : State) (c : Nat) (o : Op) (g : State → Share → State) (h_g : ∀ (y0 : State) (y1 :
    Share), Keep q y0 → Keep q (g y0 y1)) (h : Keep q s) : Keep q (withShare s c o g) := by
  unfold withShare
  repeat' with_reducible
    first
    | assumption | apply withHdr_keeps | apply opFault_keeps | apply walkRead_keeps | apply h_g | intro _ | split
    | simp only [keep_mk, keep_fold, id_eq]

theorem pageRead_keeps (q : KeepArgs) (s : State) (c : Nat) (o : Op) (p : Nat) (off : Nat) (n : Nat) (g : State → List Byte →
    State) (h_g : ∀ (y0 : State) (y1 : List Byte), Keep q y0 → Keep q (g y0 y1)) (h : Keep q s) : Keep q (pageRead s c o p
    off n g) := by
  unfold pageRead
  repeat' with_reducible
    first
    | assumption | apply spadRead_keeps | apply opFault_keeps | apply walkRead_keeps | apply h_g | intro _
    | refine keep_ofPair (by assumption) ?_ | split | simp only [keep_mk, keep_fold, id_eq]

theorem pageSee_keeps (q : KeepArgs) (s : State) (c : Nat) (o : Op) (p : Nat) (off : Nat) (n : Nat) (g : State → List Byte →
    State) (h_g : ∀ (y0 : State) (y1 : List Byte), Keep q y0 → Keep q (g y0 y1)) (h : Keep q s) : Keep q (pageSee s c o p off
    n g) := by
  unfold pageSee
  repeat' with_reducible
    first
    | assumption | refine tenRead_keeps q _ _ _ _ _ ?_ _ _ (by assumption) | apply pageRead_keeps | apply opFault_keeps
    | apply h_g | intro _ | split | simp only [keep_mk, keep_fold, id_eq]

end Sys2Proof.Machine
end

