-- ==== Sys2Proof/Laws/Keep3.lean ====
section
/-! SUPPORT. One lemma per operation and per command: it keeps what `Keep` says (part 3 of 7, callees before callers). -/

namespace Sys2Proof.Machine

set_option linter.unusedSimpArgs false
set_option linter.unusedVariables false

theorem readPieces2_keeps (q : KeepArgs) (ahead : Bool) (s : State) (c : Nat) (o : Op) (p : Nat) (g : State → List (List
    Byte) → State) (x6 : List (Nat × Nat)) (x7 : List (List Byte)) (h_g : ∀ (y0 : State) (y1 : List (List Byte)), Keep q y0 →
    Keep q (g y0 y1)) (h : Keep q s) : Keep q (readPieces2 ahead s c o p g x6 x7) := by
  induction x6 generalizing ahead s c o p g x7 with
  | nil =>
    unfold readPieces2; (try simp only [])
    repeat' with_reducible
      first
      | assumption | apply pageSee_keeps | apply pageRead_keeps | apply h_g | intro _ | split
      | simp only [keep_mk, keep_fold, id_eq]
  | cons _ _ ih =>
    unfold readPieces2; (try simp only [])
    repeat' with_reducible
      first
      | assumption | apply pageSee_keeps | apply pageRead_keeps | apply ih | apply h_g | intro _ | split
      | simp only [keep_mk, keep_fold, id_eq]

theorem rowSee_keeps (q : KeepArgs) (s : State) (c : Nat) (o : Op) (p : Nat) (d : Nat) (n : Nat) (r : Nat) (g : State → List
    (List Byte) → State) (h_g : ∀ (y0 : State) (y1 : List (List Byte)), Keep q y0 → Keep q (g y0 y1)) (h : Keep q s) : Keep q
    (rowSee s c o p d n r g) := by
  unfold rowSee
  repeat' with_reducible
    first
    | assumption | apply readPieces2_keeps | apply h_g | intro _ | split | simp only [keep_mk, keep_fold, id_eq]

theorem readHead_keeps (q : KeepArgs) (c : Nat) (o : Op) (a : AttPass) (n : Nat) (g : State → List (KvRow × Nat × Nat) →
    State) (x5 : List (Nat × Nat)) (x6 : List (KvRow × Nat × Nat)) (x7 : State) (h_g : ∀ (y0 : State) (y1 : List (KvRow × Nat
    × Nat)), Keep q y0 → Keep q (g y0 y1)) (h : Keep q x7) : Keep q (readHead c o a n g x5 x6 x7) := by
  induction x5 generalizing c o a n g x6 x7 with
  | nil =>
    unfold readHead; (try simp only [])
    repeat' with_reducible
      first
      | assumption | apply rowSee_keeps | apply h_g | intro _ | split | simp only [keep_mk, keep_fold, id_eq]
  | cons _ _ ih =>
    unfold readHead; (try simp only [])
    repeat' with_reducible
      first
      | assumption | apply rowSee_keeps | apply ih | apply h_g | intro _ | split | simp only [keep_mk, keep_fold, id_eq]

theorem aheadPage_keeps (q : KeepArgs) (s : State) (c : Nat) (o : Op) (a : AttPass) (pg : Nat) (h : Keep q s) : Keep q
    (aheadPage s c o a pg).1 := by
  unfold aheadPage
  repeat' with_reducible
    first
    | assumption | refine tenRead_keeps q _ _ _ _ _ ?_ _ _ (by assumption) | apply modClu_keeps | apply bumpC_keeps
    | intro _ | split | simp only [keep_mk, keep_fold, id_eq]

theorem pageOf_keeps (q : KeepArgs) (s : State) (c : Nat) (o : Op) (a : AttPass) (pg : Nat) (h : Keep q s) : Keep q (pageOf s
    c o a pg).1 := by
  unfold pageOf
  repeat' with_reducible
    first
    | assumption | apply aheadPage_keeps | intro _ | refine keep_ofPair (by assumption) ?_ | split
    | simp only [keep_mk, keep_fold, id_eq]

theorem reachPage_keeps (q : KeepArgs) (c : Nat) (o : Op) (a : AttPass) (pg : Nat) (after : Option Nat) (g : State → AttPass
    → Nat → State) (s : State) (h_g : ∀ (y0 : State) (y1 : AttPass) (y2 : Nat), Keep q y0 → Keep q (g y0 y1 y2)) (h : Keep q
    s) : Keep q (reachPage c o a pg after g s) := by
  unfold reachPage
  repeat' with_reducible
    first
    | assumption | apply pageOf_keeps | apply bumpFree_keeps | apply opFault_keeps | apply aheadPage_keeps | apply h_g
    | intro _ | refine keep_ofPair (by assumption) ?_ | split | simp only [keep_mk, keep_fold, id_eq]

theorem passBegins_keeps (q : KeepArgs) (s : State) (c : Nat) (o : Op) (a : AttPass) (h : Keep q s) : Keep q (passBegins s c
    o a) := by
  unfold passBegins
  repeat' with_reducible
    first
    | assumption | apply setPhase_keeps | apply aheadPage_keeps | intro _ | refine keep_ofPair (by assumption) ?_ | split
    | simp only [keep_mk, keep_fold, id_eq]

theorem attStart_keeps (q : KeepArgs) (c : Nat) (o : Op) (s : State) (h : Keep q s) : Keep q (attStart c o s) := by
  unfold attStart
  repeat' with_reducible
    first
    | assumption | apply withShare_keeps | apply opFault_keeps | apply opRead_keeps | apply bumpC_keeps
    | apply passBegins_keeps | intro _ | split | simp only [keep_mk, keep_fold, id_eq]

theorem attCmd_keeps (q : KeepArgs) (s : State) (c : Nat) (sl : Nat) (t : Nat) (opc : Nat) (g : Op → State → State) (h_g : ∀
    (y0 : Op) (y1 : State), Keep q y1 → Keep q (g y0 y1)) (h : Keep q s) : ∀ u, (attCmd s c sl t opc g) = .next u → Keep q u
    := by
  intro u hu; unfold attCmd at hu; refine opCmd_keeps q _ _ _ _ _ _ _ ?_ h _ hu
  repeat' with_reducible
    first
    | assumption | apply h_g | intro _ | split | simp only [keep_mk, keep_fold, id_eq]

theorem execAtt_keeps (q : KeepArgs) (c : Nat) (sl : Nat) (t : Nat) (s : State) (h : Keep q s) : ∀ u, (execAtt c sl t s) =
    .next u → Keep q u := by
  intro u hu; unfold execAtt at hu; refine attCmd_keeps q _ _ _ _ _ _ ?_ h _ hu
  repeat' with_reducible
    first
    | assumption | apply attStart_keeps | intro _ | split | simp only [keep_mk, keep_fold, id_eq]

theorem readHeads_keeps (q : KeepArgs) (c : Nat) (o : Op) (a : AttPass) (places : List (Nat × Nat)) (g : State → List (Nat ×
    List KvRow) → State) (x5 : List Nat) (x6 : List (Nat × List KvRow)) (x7 : State) (h_g : ∀ (y0 : State) (y1 : List (Nat ×
    List KvRow)), Keep q y0 → Keep q (g y0 y1)) (h : Keep q x7) : Keep q (readHeads c o a places g x5 x6 x7) := by
  induction x5 generalizing c o a places g x6 x7 with
  | nil =>
    unfold readHeads; (try simp only [])
    repeat' with_reducible
      first
      | assumption | apply readHead_keeps | apply bumpC_keeps | apply h_g | intro _ | split
      | simp only [keep_mk, keep_fold, id_eq]
  | cons _ _ ih =>
    unfold readHeads; (try simp only [])
    repeat' with_reducible
      first
      | assumption | apply readHead_keeps | apply bumpC_keeps | apply ih | apply h_g | intro _ | split
      | simp only [keep_mk, keep_fold, id_eq]

theorem readPages_keeps (q : KeepArgs) (c : Nat) (o : Op) (after : Option Nat) (g : State → AttPass → List (Nat × List KvRow)
    → State) (x4 : List (Nat × List Nat)) (x5 : AttPass) (x6 : List (Nat × List KvRow)) (x7 : State) (h_g : ∀ (y0 : State)
    (y1 : AttPass) (y2 : List (Nat × List KvRow)), Keep q y0 → Keep q (g y0 y1 y2)) (h : Keep q x7) : Keep q (readPages c o
    after g x4 x5 x6 x7) := by
  induction x4 generalizing c o after g x5 x6 x7 with
  | nil =>
    unfold readPages; (try simp only [])
    repeat' with_reducible
      first
      | assumption | apply reachPage_keeps | apply readHeads_keeps | apply h_g | intro _ | split
      | simp only [keep_mk, keep_fold, id_eq]
  | cons _ _ ih =>
    unfold readPages; (try simp only [])
    repeat' with_reducible
      first
      | assumption | apply reachPage_keeps | apply readHeads_keeps | apply ih | apply h_g | intro _ | split
      | simp only [keep_mk, keep_fold, id_eq]

theorem attStep_keeps (q : KeepArgs) (s : State) (c : Nat) (o : Op) (a : AttPass) (g : State → AttPass → State) (h_g : ∀ (y0
    : State) (y1 : AttPass), Keep q y0 → Keep q (g y0 y1)) (h : Keep q s) : Keep q (attStep s c o a g) := by
  unfold attStep
  repeat' with_reducible
    first
    | assumption | apply readPages_keeps | apply bumpC_keeps | apply h_g | intro _ | split
    | simp only [keep_mk, keep_fold, id_eq]

theorem suspendPass_keeps (q : KeepArgs) (s : State) (c : Nat) (o : Op) (a : AttPass) (h : Keep q s) : Keep q (suspendPass s
    c o a) := by
  unfold suspendPass
  repeat' with_reducible
    first
    | assumption | apply setPhase_keeps | apply bumpC_keeps | intro _ | split | simp only [keep_mk, keep_fold, id_eq]

theorem doSuspend_keeps (q : KeepArgs) (c : Nat) (o : Op) (s : State) (h : Keep q s) : Keep q (doSuspend c o s) := by
  unfold doSuspend
  repeat' with_reducible
    first
    | assumption | apply attStep_keeps | apply suspendPass_keeps | apply setPhase_keeps | intro _ | split
    | simp only [keep_mk, keep_fold, id_eq]

theorem execAttSuspend_keeps (q : KeepArgs) (c : Nat) (sl : Nat) (t : Nat) (s : State) (h : Keep q s) : ∀ u, (execAttSuspend
    c sl t s) = .next u → Keep q u := by
  intro u hu; unfold execAttSuspend at hu; refine opCmd_keeps q _ _ _ _ _ _ _ ?_ h _ hu
  repeat' with_reducible
    first
    | assumption | apply doSuspend_keeps | intro _ | split | simp only [keep_mk, keep_fold, id_eq]

theorem attRest_keeps (q : KeepArgs) (c : Nat) (o : Op) (g : State → AttPass → State) (x3 : Nat) (x4 : AttPass) (x5 : State)
    (h_g : ∀ (y0 : State) (y1 : AttPass), Keep q y0 → Keep q (g y0 y1)) (h : Keep q x5) : Keep q (attRest c o g x3 x4 x5) := by
  induction x3 generalizing c o g x4 x5 with
  | zero =>
    unfold attRest; (try simp only [])
    repeat' with_reducible
      first
      | assumption | apply attStep_keeps | apply suspendPass_keeps | apply h_g | intro _ | split
      | simp only [keep_mk, keep_fold, id_eq]
  | succ _ ih =>
    unfold attRest; (try simp only [])
    repeat' with_reducible
      first
      | assumption | apply attStep_keeps | apply suspendPass_keeps | apply ih | apply h_g | intro _ | split
      | simp only [keep_mk, keep_fold, id_eq]

theorem doResume_keeps (q : KeepArgs) (c : Nat) (o : Op) (s : State) (h : Keep q s) : Keep q (doResume c o s) := by
  unfold doResume
  repeat' with_reducible
    first
    | assumption | apply setPhase_keeps | intro _ | split | simp only [keep_mk, keep_fold, id_eq]

theorem execAttResume_keeps (q : KeepArgs) (c : Nat) (sl : Nat) (t : Nat) (s : State) (h : Keep q s) : ∀ u, (execAttResume c
    sl t s) = .next u → Keep q u := by
  intro u hu; unfold execAttResume at hu; refine opCmd_keeps q _ _ _ _ _ _ _ ?_ h _ hu
  repeat' with_reducible
    first
    | assumption | apply doResume_keeps | intro _ | split | simp only [keep_mk, keep_fold, id_eq]

theorem attFinish_keeps (q : KeepArgs) (c : Nat) (o : Op) (s : State) (a : AttPass) (h : Keep q s) : Keep q (attFinish c o s
    a) := by
  unfold attFinish
  repeat' with_reducible
    first
    | assumption | apply opWrite_keeps | apply bumpC_keeps | apply countEvents_keeps | apply setPhase_keeps | intro _
    | split | simp only [keep_mk, keep_fold, id_eq]

theorem attEnds_keeps (q : KeepArgs) (c : Nat) (o : Op) (s : State) (h : Keep q s) : Keep q (attEnds c o s) := by
  unfold attEnds
  repeat' with_reducible
    first
    | assumption | apply attRest_keeps | apply attFinish_keeps | intro _ | split | simp only [keep_mk, keep_fold, id_eq]

theorem ftcCorrect_keeps (q : KeepArgs) (s : State) (lim : Nat) (v : Int) (h : Keep q s) : Keep q (ftcCorrect s lim v) := by
  unfold ftcCorrect
  repeat' with_reducible
    first
    | assumption | apply markSet_keeps | intro _ | split | simp only [keep_mk, keep_fold, id_eq]

theorem ftcTheta_keeps (q : KeepArgs) (s : State) (port : Nat) (theta : Int) (delta : Int) (h : Keep q s) : Keep q (ftcTheta
    s port theta delta) := by
  unfold ftcTheta
  repeat' with_reducible
    first
    | assumption | apply markSet_keeps | apply ftcCorrect_keeps | intro _ | split | simp only [keep_mk, keep_fold, id_eq]

theorem transmit_keeps (q : KeepArgs) (s : State) (n : Nat) (b : List Byte) (h : Keep q s) : Keep q (transmit s n b) := by
  unfold transmit
  repeat' with_reducible
    first
    | assumption | apply modPort_keeps | apply emit_keeps | intro _ | split | simp only [keep_mk, keep_fold, id_eq]

theorem pumpAux_keeps (q : KeepArgs) (n : Nat) (x1 : Nat) (x2 : State) (h : Keep q x2) : Keep q (pumpAux n x1 x2) := by
  induction x1 generalizing n x2 with
  | zero =>
    unfold pumpAux; (try simp only [])
    repeat' with_reducible
      first
      | assumption | apply transmit_keeps | apply modPort_keeps | intro _ | split | simp only [keep_mk, keep_fold, id_eq]
  | succ _ ih =>
    unfold pumpAux; (try simp only [])
    repeat' with_reducible
      first
      | assumption | apply transmit_keeps | apply modPort_keeps | apply ih | intro _ | split
      | simp only [keep_mk, keep_fold, id_eq]

theorem pump_keeps (q : KeepArgs) (s : State) (n : Nat) (h : Keep q s) : Keep q (pump s n) := by
  unfold pump
  repeat' with_reducible
    first
    | assumption | apply pumpAux_keeps | intro _ | split | simp only [keep_mk, keep_fold, id_eq]

theorem enqueue_keeps (q : KeepArgs) (s : State) (n : Nat) (bs : List (List Byte)) (h : Keep q s) : Keep q (enqueue s n bs)
    := by
  unfold enqueue
  repeat' with_reducible
    first
    | assumption | apply pump_keeps | apply modPort_keeps | intro _ | split | simp only [keep_mk, keep_fold, id_eq]

theorem sendDisc_keeps (q : KeepArgs) (s : State) (n : Nat) (h : Keep q s) : Keep q (sendDisc s n) := by
  unfold sendDisc
  repeat' with_reducible
    first
    | assumption | apply enqueue_keeps | intro _ | split | simp only [keep_mk, keep_fold, id_eq]

theorem portLeave_keeps (q : KeepArgs) (s : State) (n : Nat) (h : Keep q s) : Keep q (portLeave s n) := by
  unfold portLeave
  repeat' with_reducible
    first
    | assumption | apply bump_keeps | apply modPort_keeps | apply keep_foldl | intro _ | split
    | simp only [keep_mk, keep_fold, id_eq]

theorem portDown_keeps (q : KeepArgs) (s : State) (n : Nat) (h : Keep q s) : Keep q (portDown s n) := by
  unfold portDown
  repeat' with_reducible
    first
    | assumption | apply modPort_keeps | apply portLeave_keeps | intro _ | split | simp only [keep_mk, keep_fold, id_eq]

theorem setPortEn_keeps (q : KeepArgs) (s : State) (n : Nat) (en : Bool) (h : Keep q s) : Keep q (setPortEn s n en) := by
  unfold setPortEn
  repeat' with_reducible
    first
    | assumption | apply setReg_keeps | intro _ | split | simp only [keep_mk, keep_fold, id_eq]

theorem doPortDisable_keeps (q : KeepArgs) (n : Nat) (s : State) (h : Keep q s) : Keep q (doPortDisable n s) := by
  unfold doPortDisable
  repeat' with_reducible
    first
    | assumption | apply modPort_keeps | apply portDown_keeps | apply setPortEn_keeps | intro _ | split
    | simp only [keep_mk, keep_fold, id_eq]

theorem portUpdate_keeps (q : KeepArgs) (s : State) (n : Nat) (h : Keep q s) : Keep q (portUpdate s n) := by
  unfold portUpdate
  repeat' with_reducible
    first
    | assumption | apply pump_keeps | apply modPort_keeps | apply portLeave_keeps | intro _ | split
    | simp only [keep_mk, keep_fold, id_eq]

theorem sendRouted_keeps (q : KeepArgs) (s : State) (d : Nat) (bs : List (List Byte)) (h : Keep q s) : Keep q (sendRouted s d
    bs) := by
  unfold sendRouted
  repeat' with_reducible
    first
    | assumption | apply bump_keeps | apply enqueue_keeps | intro _ | split | simp only [keep_mk, keep_fold, id_eq]

theorem sendEack_keeps (q : KeepArgs) (s : State) (e : Nat × Nat × Nat × Nat) (status : Nat) (h : Keep q s) : Keep q
    (sendEack s e status) := by
  unfold sendEack
  repeat' with_reducible
    first
    | assumption | apply sendRouted_keeps | intro _ | split | simp only [keep_mk, keep_fold, id_eq]

theorem execPortDisable_keeps (q : KeepArgs) (n : Nat) (s : State) (h : Keep q s) : ∀ u, (execPortDisable n s) = .next u →
    Keep q u := by
  intro u hu; unfold execPortDisable at hu; refine portCmd_keeps q _ _ _ ?_ h _ hu
  repeat' with_reducible
    first
    | assumption | apply doPortDisable_keeps | intro _ | split | simp only [keep_mk, keep_fold, id_eq]

theorem sendAck_keeps (q : KeepArgs) (s : State) (n : Nat) (nak : Bool) (h : Keep q s) : Keep q (sendAck s n nak) := by
  unfold sendAck
  repeat' with_reducible
    first
    | assumption | apply emit_keeps | apply modPort_keeps | intro _ | split | simp only [keep_mk, keep_fold, id_eq]

theorem execAckTimer_keeps (q : KeepArgs) (n : Nat) (s : State) (h : Keep q s) : ∀ u, (execAckTimer n s) = .next u → Keep q u
    := by
  intro u hu; unfold execAckTimer at hu; refine portCmd_keeps q _ _ _ ?_ h _ hu
  repeat' with_reducible
    first
    | assumption | apply sendAck_keeps | intro _ | split | simp only [keep_mk, keep_fold, id_eq]

theorem portsUpdate_keeps (q : KeepArgs) (s : State) (h : Keep q s) : Keep q (portsUpdate s) := by
  unfold portsUpdate
  repeat' with_reducible
    first
    | assumption | apply portUpdate_keeps | apply keep_foldl | intro _ | split | simp only [keep_mk, keep_fold, id_eq]

theorem portTrain_keeps (q : KeepArgs) (s : State) (n : Nat) (maxw : Nat) (h : Keep q s) : Keep q (portTrain s n maxw) := by
  unfold portTrain
  repeat' with_reducible
    first
    | assumption | apply modPort_keeps | apply portLeave_keeps | intro _ | split | simp only [keep_mk, keep_fold, id_eq]

theorem execTrainingRetry_keeps (q : KeepArgs) (n : Nat) (s : State) (h : Keep q s) : ∀ u, (execTrainingRetry n s) = .next u
    → Keep q u := by
  intro u hu; unfold execTrainingRetry at hu; refine portCmd_keeps q _ _ _ ?_ h _ hu
  repeat' with_reducible
    first
    | assumption | apply portTrain_keeps | intro _ | split | simp only [keep_mk, keep_fold, id_eq]

theorem doSignalLoss_keeps (q : KeepArgs) (n : Nat) (s : State) (h : Keep q s) : Keep q (doSignalLoss n s) := by
  unfold doSignalLoss
  repeat' with_reducible
    first
    | assumption | apply modPort_keeps | apply portDown_keeps | intro _ | split | simp only [keep_mk, keep_fold, id_eq]

theorem execSignalLoss_keeps (q : KeepArgs) (n : Nat) (s : State) (h : Keep q s) : ∀ u, (execSignalLoss n s) = .next u → Keep
    q u := by
  intro u hu; unfold execSignalLoss at hu; refine portCmd_keeps q _ _ _ ?_ h _ hu
  repeat' with_reducible
    first
    | assumption | apply doSignalLoss_keeps | intro _ | split | simp only [keep_mk, keep_fold, id_eq]

theorem tsResponse_keeps (q : KeepArgs) (s : State) (n : Nat) (x2 : Nat) (t1 : Nat) (t2 : Nat) (t3 : Nat) (t4 : Nat) (h :
    Keep q s) : Keep q (tsResponse s n x2 t1 t2 t3 t4) := by
  unfold tsResponse
  repeat' with_reducible
    first
    | assumption | apply modPort_keeps | apply ftcTheta_keeps | intro _ | split | simp only [keep_mk, keep_fold, id_eq]

theorem ackDrop_keeps (q : KeepArgs) (s : State) (n : Nat) (ack : Nat) (h : Keep q s) : Keep q (ackDrop s n ack) := by
  unfold ackDrop
  repeat' with_reducible
    first
    | assumption | apply modPort_keeps | intro _ | split | simp only [keep_mk, keep_fold, id_eq]

theorem resendRound_keeps (q : KeepArgs) (s : State) (n : Nat) (bs : List (List Byte)) (h : Keep q s) : Keep q (resendRound s
    n bs) := by
  unfold resendRound
  repeat' with_reducible
    first
    | assumption | apply portDown_keeps | apply modPort_keeps | apply bump_keeps | apply emit_keeps | apply keep_foldl
    | intro _ | split | simp only [keep_mk, keep_fold, id_eq]

theorem nakTake_keeps (q : KeepArgs) (s : State) (n : Nat) (ack : Nat) (h : Keep q s) : Keep q (nakTake s n ack) := by
  unfold nakTake
  repeat' with_reducible
    first
    | assumption | apply ackDrop_keeps | apply pump_keeps | apply resendRound_keeps | intro _ | split
    | simp only [keep_mk, keep_fold, id_eq]

theorem doRetrainPort_keeps (q : KeepArgs) (n : Nat) (s : State) (h : Keep q s) : Keep q (doRetrainPort n s) := by
  unfold doRetrainPort
  repeat' with_reducible
    first
    | assumption | apply portTrain_keeps | intro _ | split | simp only [keep_mk, keep_fold, id_eq]

theorem execPortRetrain_keeps (q : KeepArgs) (n : Nat) (s : State) (h : Keep q s) : ∀ u, (execPortRetrain n s) = .next u →
    Keep q u := by
  intro u hu; unfold execPortRetrain at hu; refine portCmd_keeps q _ _ _ ?_ h _ hu
  repeat' with_reducible
    first
    | assumption | apply doRetrainPort_keeps | intro _ | split | simp only [keep_mk, keep_fold, id_eq]

theorem returnCredits_keeps (q : KeepArgs) (n : Nat) (s : State) (vc : Nat) (h : Keep q s) : Keep q (returnCredits n s vc) := by
  unfold returnCredits
  repeat' with_reducible
    first
    | assumption | apply modPort_keeps | apply emit_keeps | intro _ | split | simp only [keep_mk, keep_fold, id_eq]

theorem execCreditReturnTimer_keeps (q : KeepArgs) (n : Nat) (s : State) (h : Keep q s) : ∀ u, (execCreditReturnTimer n s) =
    .next u → Keep q u := by
  intro u hu; unfold execCreditReturnTimer at hu; refine portCmd_keeps q _ _ _ ?_ h _ hu
  repeat' with_reducible
    first
    | assumption | apply returnCredits_keeps | apply keep_foldl | intro _ | split | simp only [keep_mk, keep_fold, id_eq]

theorem linkVector_keeps (q : KeepArgs) (s : State) (h : Keep q s) : Keep q (linkVector s) := by
  unfold linkVector
  repeat' with_reducible
    first
    | assumption | apply raisePf_keeps | intro _ | split | simp only [keep_mk, keep_fold, id_eq]

theorem acceptFlit_keeps (q : KeepArgs) (s : State) (n : Nat) (h : Keep q s) : Keep q (acceptFlit s n) := by
  unfold acceptFlit
  repeat' with_reducible
    first
    | assumption | apply modPort_keeps | apply sendAck_keeps | intro _ | split | simp only [keep_mk, keep_fold, id_eq]

theorem execPortSignalDetect_keeps (q : KeepArgs) (n : Nat) (groups : Nat) (s : State) (h : Keep q s) : ∀ u,
    (execPortSignalDetect n groups s) = .next u → Keep q u := by
  intro u hu; unfold execPortSignalDetect at hu; refine portCmd_keeps q _ _ _ ?_ h _ hu
  repeat' with_reducible
    first
    | assumption | apply modPort_keeps | apply portTrain_keeps | intro _ | split | simp only [keep_mk, keep_fold, id_eq]

theorem execNakReceive_keeps (q : KeepArgs) (n : Nat) (ack : Nat) (s : State) (h : Keep q s) : ∀ u, (execNakReceive n ack s)
    = .next u → Keep q u := by
  intro u hu; unfold execNakReceive at hu; refine portCmd_keeps q _ _ _ ?_ h _ hu
  repeat' with_reducible
    first
    | assumption | apply nakTake_keeps | intro _ | split | simp only [keep_mk, keep_fold, id_eq]

theorem creditTake_keeps (q : KeepArgs) (s : State) (n : Nat) (vc : Nat) (k : Nat) (h : Keep q s) : Keep q (creditTake s n vc
    k) := by
  unfold creditTake
  repeat' with_reducible
    first
    | assumption | apply pump_keeps | apply modPort_keeps | intro _ | split | simp only [keep_mk, keep_fold, id_eq]

theorem discAll_keeps (q : KeepArgs) (s : State) (h : Keep q s) : Keep q (discAll s) := by
  unfold discAll
  repeat' with_reducible
    first
    | assumption | apply sendDisc_keeps | apply keep_foldl | intro _ | split | simp only [keep_mk, keep_fold, id_eq]

theorem execTsyncRequest_keeps (q : KeepArgs) (n : Nat) (s : State) (h : Keep q s) : ∀ u, (execTsyncRequest n s) = .next u →
    Keep q u := by
  intro u hu; unfold execTsyncRequest at hu; refine portCmd_keeps q _ _ _ ?_ h _ hu
  repeat' with_reducible
    first
    | assumption | apply modPort_keeps | apply enqueue_keeps | intro _ | split | simp only [keep_mk, keep_fold, id_eq]

theorem narrower_keeps (q : KeepArgs) (s : State) (n : Nat) (h : Keep q s) : Keep q (narrower s n) := by
  unfold narrower
  repeat' with_reducible
    first
    | assumption | apply portDown_keeps | apply portTrain_keeps | intro _ | split | simp only [keep_mk, keep_fold, id_eq]

theorem execFecErrorLimit_keeps (q : KeepArgs) (n : Nat) (s : State) (h : Keep q s) : ∀ u, (execFecErrorLimit n s) = .next u
    → Keep q u := by
  intro u hu; unfold execFecErrorLimit at hu; refine portCmd_keeps q _ _ _ ?_ h _ hu
  repeat' with_reducible
    first
    | assumption | apply narrower_keeps | intro _ | split | simp only [keep_mk, keep_fold, id_eq]

theorem doPortEnable_keeps (q : KeepArgs) (n : Nat) (s : State) (h : Keep q s) : Keep q (doPortEnable n s) := by
  unfold doPortEnable
  repeat' with_reducible
    first
    | assumption | apply setPortEn_keeps | apply modPort_keeps | intro _ | split | simp only [keep_mk, keep_fold, id_eq]

theorem execLaneLockLoss_keeps (q : KeepArgs) (n : Nat) (s : State) (h : Keep q s) : ∀ u, (execLaneLockLoss n s) = .next u →
    Keep q u := by
  intro u hu; unfold execLaneLockLoss at hu; refine portCmd_keeps q _ _ _ ?_ h _ hu
  repeat' with_reducible
    first
    | assumption | apply narrower_keeps | intro _ | split | simp only [keep_mk, keep_fold, id_eq]

theorem oweCredit_keeps (q : KeepArgs) (s : State) (n : Nat) (vc : Nat) (h : Keep q s) : Keep q (oweCredit s n vc) := by
  unfold oweCredit
  repeat' with_reducible
    first
    | assumption | apply modPort_keeps | intro _ | split | simp only [keep_mk, keep_fold, id_eq]

theorem execTrainingDone_keeps (q : KeepArgs) (n : Nat) (groups : Nat) (s : State) (h : Keep q s) : ∀ u, (execTrainingDone n
    groups s) = .next u → Keep q u := by
  intro u hu; unfold execTrainingDone at hu; refine portCmd_keeps q _ _ _ ?_ h _ hu
  repeat' with_reducible
    first
    | assumption | apply portDown_keeps | apply sendDisc_keeps | apply modPort_keeps | intro _ | split
    | simp only [keep_mk, keep_fold, id_eq]

theorem execPortEnable_keeps (q : KeepArgs) (n : Nat) (s : State) (h : Keep q s) : ∀ u, (execPortEnable n s) = .next u → Keep
    q u := by
  intro u hu; unfold execPortEnable at hu; refine portCmd_keeps q _ _ _ ?_ h _ hu
  repeat' with_reducible
    first
    | assumption | apply doPortEnable_keeps | intro _ | split | simp only [keep_mk, keep_fold, id_eq]

theorem execReplayTimeout_keeps (q : KeepArgs) (n : Nat) (s : State) (h : Keep q s) : ∀ u, (execReplayTimeout n s) = .next u
    → Keep q u := by
  intro u hu; unfold execReplayTimeout at hu; refine portCmd_keeps q _ _ _ ?_ h _ hu
  repeat' with_reducible
    first
    | assumption | apply resendRound_keeps | intro _ | split | simp only [keep_mk, keep_fold, id_eq]

theorem tsAnswer_keeps (q : KeepArgs) (s : State) (n : Nat) (h : Keep q s) : Keep q (tsAnswer s n) := by
  unfold tsAnswer
  repeat' with_reducible
    first
    | assumption | apply modPort_keeps | apply enqueue_keeps | intro _ | split | simp only [keep_mk, keep_fold, id_eq]

theorem execTsyncResponse_keeps (q : KeepArgs) (n : Nat) (tseq : Nat) (t1 : Nat) (t2 : Nat) (t3 : Nat) (t4 : Nat) (s : State)
    (h : Keep q s) : ∀ u, (execTsyncResponse n tseq t1 t2 t3 t4 s) = .next u → Keep q u := by
  intro u hu; unfold execTsyncResponse at hu; refine portCmd_keeps q _ _ _ ?_ h _ hu
  repeat' with_reducible
    first
    | assumption | apply tsResponse_keeps | intro _ | split | simp only [keep_mk, keep_fold, id_eq]

theorem execTrainingTimeout_keeps (q : KeepArgs) (n : Nat) (s : State) (h : Keep q s) : ∀ u, (execTrainingTimeout n s) =
    .next u → Keep q u := by
  intro u hu; unfold execTrainingTimeout at hu; refine portCmd_keeps q _ _ _ ?_ h _ hu
  repeat' with_reducible
    first
    | assumption | apply portDown_keeps | intro _ | split | simp only [keep_mk, keep_fold, id_eq]

theorem refuseFlit_keeps (q : KeepArgs) (s : State) (n : Nat) (h : Keep q s) : Keep q (refuseFlit s n) := by
  unfold refuseFlit
  repeat' with_reducible
    first
    | assumption | apply modPort_keeps | apply sendAck_keeps | intro _ | split | simp only [keep_mk, keep_fold, id_eq]

theorem execDiscSend_keeps (q : KeepArgs) (n : Nat) (s : State) (h : Keep q s) : ∀ u, (execDiscSend n s) = .next u → Keep q u
    := by
  intro u hu; unfold execDiscSend at hu; refine portCmd_keeps q _ _ _ ?_ h _ hu
  repeat' with_reducible
    first
    | assumption | apply sendDisc_keeps | intro _ | split | simp only [keep_mk, keep_fold, id_eq]

theorem execTsyncAnswer_keeps (q : KeepArgs) (n : Nat) (s : State) (h : Keep q s) : ∀ u, (execTsyncAnswer n s) = .next u →
    Keep q u := by
  intro u hu; unfold execTsyncAnswer at hu; refine portCmd_keeps q _ _ _ ?_ h _ hu
  repeat' with_reducible
    first
    | assumption | apply tsAnswer_keeps | intro _ | split | simp only [keep_mk, keep_fold, id_eq]

theorem discTake_keeps (q : KeepArgs) (s : State) (n : Nat) (pl : List Byte) (h : Keep q s) : Keep q (discTake s n pl) := by
  unfold discTake
  repeat' with_reducible
    first
    | assumption | apply modPort_keeps | apply linkVector_keeps | apply markSet_keeps | apply portsUpdate_keeps | intro _
    | split | simp only [keep_mk, keep_fold, id_eq]

theorem ackTake_keeps (q : KeepArgs) (s : State) (n : Nat) (ack : Nat) (h : Keep q s) : Keep q (ackTake s n ack) := by
  unfold ackTake
  repeat' with_reducible
    first
    | assumption | apply pump_keeps | apply ackDrop_keeps | intro _ | split | simp only [keep_mk, keep_fold, id_eq]

theorem linkWord_keeps (q : KeepArgs) (c : Nat) (sl : Nat) (poison : Bool) (s : State) (p : Nat × List Byte) (h : Keep q s) :
    Keep q (linkWord c sl poison s p) := by
  unfold linkWord
  repeat' with_reducible
    first
    | assumption | apply spadWrite_keeps | apply bumpC_keeps | intro _ | refine keep_ofPair (by assumption) ?_ | split
    | simp only [keep_mk, keep_fold, id_eq]

theorem linkWrite_keeps (q : KeepArgs) (s : State) (c : Nat) (sl : Nat) (a : Nat) (bs : List Byte) (poison : Bool) (h : Keep
    q s) : Keep q (linkWrite s c sl a bs poison) := by
  unfold linkWrite
  repeat' with_reducible
    first
    | assumption | apply spadWrite_keeps | apply bumpC_keeps | apply linkWord_keeps | apply keep_foldl | intro _
    | refine keep_ofPair (by assumption) ?_ | split | simp only [keep_mk, keep_fold, id_eq]

theorem linkRedWord_keeps (q : KeepArgs) (c : Nat) (sl : Nat) (rop : Nat) (poison : Bool) (s : State) (p : Nat × List Byte)
    (h : Keep q s) : Keep q (linkRedWord c sl rop poison s p) := by
  unfold linkRedWord
  repeat' with_reducible
    first
    | assumption | apply spadRead_keeps | apply bumpC_keeps | apply spadWrite_keeps | apply countEvents_keeps | intro _
    | refine keep_ofPair (by assumption) ?_ | split | simp only [keep_mk, keep_fold, id_eq]

theorem deliverPiece_keeps (q : KeepArgs) (c : Nat) (sl : Nat) (k : XKind) (s : State) (p : Piece) (h : Keep q s) : Keep q
    (deliverPiece c sl k s p) := by
  unfold deliverPiece
  repeat' with_reducible
    first
    | assumption | apply linkWrite_keeps | apply linkRedWord_keeps | apply keep_foldl | intro _ | split
    | simp only [keep_mk, keep_fold, id_eq]

theorem addXfer_keeps (q : KeepArgs) (s : State) (x : Xfer) (h : Keep q s) : Keep q (addXfer s x) := by
  unfold addXfer
  repeat' with_reducible
    first
    | assumption | intro _ | split | simp only [keep_mk, keep_fold, id_eq]

theorem ackOp_keeps (q : KeepArgs) (s : State) (op : Option (Nat × Nat × Nat)) (h : Keep q s) : Keep q (ackOp s op) := by
  unfold ackOp
  repeat' with_reducible
    first
    | assumption | apply setPhase_keeps | intro _ | split | simp only [keep_mk, keep_fold, id_eq]

theorem stackAcks_keeps (q : KeepArgs) (s : State) (op : Option (Nat × Nat × Nat)) (eack : Option (Nat × Nat × Nat × Nat)) (h
    : Keep q s) : Keep q (stackAcks s op eack) := by
  unfold stackAcks
  repeat' with_reducible
    first
    | assumption | apply ackOp_keeps | apply sendEack_keeps | intro _ | split | simp only [keep_mk, keep_fold, id_eq]

theorem atomEnds_keeps (q : KeepArgs) (s : State) (a : Atom) (h : Keep q s) : Keep q (atomEnds s a) := by
  unfold atomEnds
  repeat' with_reducible
    first
    | assumption | apply addXfer_keeps | apply stackAcks_keeps | intro _ | split | simp only [keep_mk, keep_fold, id_eq]

theorem readParts_keeps (q : KeepArgs) (s : State) (x1 : List (Nat × Nat)) (h : Keep q s) : Keep q (readParts s x1).1 := by
  induction x1 generalizing s with
  | nil =>
    unfold readParts; (try simp only [])
    repeat' with_reducible
      first
      | assumption | apply cwRead_keeps | intro _ | refine keep_ofPair (by assumption) ?_ | split
      | simp only [keep_mk, keep_fold, id_eq]
  | cons _ _ ih =>
    unfold readParts; (try simp only [])
    repeat' with_reducible
      first
      | assumption | apply cwRead_keeps | apply ih | intro _ | refine keep_ofPair (by assumption) ?_ | split
      | simp only [keep_mk, keep_fold, id_eq]

theorem cwUpdate_keeps (q : KeepArgs) (s : State) (p : Nat) (old : List Byte) (new : List Byte) (poison : Bool) (h : Keep q
    s) : Keep q (cwUpdate s p old new poison) := by
  unfold cwUpdate
  repeat' with_reducible
    first
    | assumption | apply storeCw_keeps | apply keepV_spad | apply keepV_wst | apply keepV_dev | apply keepV_host
    | apply keepV_rt | intro _ | split | simp only [keep_mk, keep_fold, id_eq]

theorem writeParts_keeps (q : KeepArgs) (s : State) (a : Atom) (new : List Byte) (o : Nat) (x4 : List ((Nat × Nat) × List
    Byte × Bool)) (h : Keep q s) : Keep q (writeParts s a new o x4) := by
  induction x4 generalizing s a new o with
  | nil =>
    unfold writeParts; (try simp only [])
    repeat' with_reducible
      first
      | assumption | apply bump_keeps | apply cwUpdate_keeps | intro _ | split | simp only [keep_mk, keep_fold, id_eq]
  | cons _ _ ih =>
    unfold writeParts; (try simp only [])
    repeat' with_reducible
      first
      | assumption | apply bump_keeps | apply cwUpdate_keeps | apply ih | intro _ | split
      | simp only [keep_mk, keep_fold, id_eq]

theorem atomWrite_keeps (q : KeepArgs) (s : State) (a : Atom) (h : Keep q s) : Keep q (atomWrite s a) := by
  unfold atomWrite
  repeat' with_reducible
    first
    | assumption | apply memAsk_keeps | apply readParts_keeps | apply mailReport_keeps | apply writeParts_keeps
    | apply keep_foldl | intro _ | refine keep_ofPair (by assumption) ?_ | split | simp only [keep_mk, keep_fold, id_eq]

theorem dropAtom_keeps (q : KeepArgs) (s : State) (a : Atom) (h : Keep q s) : Keep q (dropAtom s a) := by
  unfold dropAtom
  repeat' with_reducible
    first
    | assumption | apply keep_foldl | apply keepV_spPut | apply keepV_sePut | apply keepV_dpPut | apply keepV_dePut
    | intro _ | split | simp only [keep_mk, keep_fold, id_eq]

theorem doAtomic_keeps (q : KeepArgs) (e : AtomEnd) (s : State) (h : Keep q s) : Keep q (doAtomic e s) := by
  unfold doAtomic
  repeat' with_reducible
    first
    | assumption | apply atomEnds_keeps | apply atomWrite_keeps | apply dropAtom_keeps | intro _ | split
    | simp only [keep_mk, keep_fold, id_eq]

theorem endXfer_keeps (q : KeepArgs) (s : State) (x : Xfer) (h : Keep q s) : Keep q (endXfer s x) := by
  unfold endXfer
  repeat' with_reducible
    first
    | assumption | apply ackOp_keeps | apply sendEack_keeps | intro _ | split | simp only [keep_mk, keep_fold, id_eq]

theorem endRead_keeps (q : KeepArgs) (s : State) (x : Xfer) (bs : List Byte) (bad : Bool) (h : Keep q s) : Keep q (endRead s
    x bs bad) := by
  unfold endRead
  repeat' with_reducible
    first
    | assumption | apply endXfer_keeps | apply opFault_keeps | apply putOp_keeps | intro _ | split
    | simp only [keep_mk, keep_fold, id_eq]

theorem answerXfer_keeps (q : KeepArgs) (s : State) (x : Xfer) (h : Keep q s) : Keep q (answerXfer s x) := by
  unfold answerXfer
  repeat' with_reducible
    first
    | assumption | apply endRead_keeps | apply endXfer_keeps | intro _ | split | simp only [keep_mk, keep_fold, id_eq]

theorem countLinks_keeps (q : KeepArgs) (s : State) (x : Xfer) (c : Nat) (ce : List Nat) (ue : List (Nat × Nat)) (h : Keep q
    s) : Keep q (countLinks s x c ce ue) := by
  unfold countLinks
  repeat' with_reducible
    first
    | assumption | apply bumpC_keeps | apply keep_foldl | intro _ | split | simp only [keep_mk, keep_fold, id_eq]

theorem execSwitchNoreach_keeps (q : KeepArgs) (e : XferEnd) (s : State) (h : Keep q s) : ∀ u, (execSwitchNoreach e s) =
    .next u → Keep q u := by
  intro u hu; unfold execSwitchNoreach at hu; refine hubCmd_keeps q _ _ ?_ h _ hu
  repeat' with_reducible
    first
    | assumption | apply answerXfer_keeps | apply bump_keeps | apply countLinks_keeps | intro _ | split
    | simp only [keep_mk, keep_fold, id_eq]

theorem savedWord_keeps (q : KeepArgs) (x : Ctx) (x1 : Cls) (k : XKind) (poison : Bool) (s : State) (p : Nat × List Byte) (h
    : Keep q s) : Keep q (savedWord x x1 k poison s p) := by
  unfold savedWord
  repeat' with_reducible
    first
    | assumption | apply physWrite_keeps | apply physRead_keeps | apply bumpC_keeps | apply countEvents_keeps | intro _
    | refine keep_ofPair (by assumption) ?_ | split | simp only [keep_mk, keep_fold, id_eq]

theorem savedPiece_keeps (q : KeepArgs) (x : Ctx) (x1 : Cls) (k : XKind) (s : State) (p : Piece) (h : Keep q s) : Keep q
    (savedPiece x x1 k s p) := by
  unfold savedPiece
  repeat' with_reducible
    first
    | assumption | apply savedWord_keeps | apply keep_foldl | intro _ | split | simp only [keep_mk, keep_fold, id_eq]

theorem execAtomicApply_keeps (q : KeepArgs) (e : AtomEnd) (s : State) (h : Keep q s) : ∀ u, (execAtomicApply e s) = .next u
    → Keep q u := by
  intro u hu; unfold execAtomicApply at hu; refine stackCmd_keeps q _ _ _ ?_ h _ hu
  repeat' with_reducible
    first
    | assumption | apply doAtomic_keeps | intro _ | split | simp only [keep_mk, keep_fold, id_eq]

theorem dropAll_keeps (q : KeepArgs) (s : State) (c : Nat) (ps : List Piece) (ctr : Option Nat) (h : Keep q s) : Keep q
    (dropAll s c ps ctr) := by
  unfold dropAll
  repeat' with_reducible
    first
    | assumption | apply bumpC_keeps | intro _ | split | simp only [keep_mk, keep_fold, id_eq]

theorem linkRead_keeps (q : KeepArgs) (c : Nat) (sl : Nat) (x2 : List (Nat × List Byte)) (x3 : State) (h : Keep q x3) : Keep
    q (linkRead c sl x2 x3).1 := by
  induction x2 generalizing c sl x3 with
  | nil =>
    unfold linkRead; (try simp only [])
    repeat' with_reducible
      first
      | assumption | apply spadRead_keeps | apply bumpC_keeps | intro _ | refine keep_ofPair (by assumption) ?_ | split
      | simp only [keep_mk, keep_fold, id_eq]
  | cons _ _ ih =>
    unfold linkRead; (try simp only [])
    repeat' with_reducible
      first
      | assumption | apply spadRead_keeps | apply bumpC_keeps | apply ih | intro _ | refine keep_ofPair (by assumption) ?_
      | split | simp only [keep_mk, keep_fold, id_eq]

theorem bumpSaved_keeps (q : KeepArgs) (s : State) (x : Ctx) (n : Nat) (h : Keep q s) : Keep q (bumpSaved s x n) := by
  unfold bumpSaved
  repeat' with_reducible
    first
    | assumption | apply modCtxs_keeps | intro _ | split | simp only [keep_mk, keep_fold, id_eq]

theorem deliverTo_keeps (q : KeepArgs) (s : State) (y : Ctx) (x2 : Cls) (k : XKind) (ps : List Piece) (ctr : Option Nat) (h :
    Keep q s) : Keep q (deliverTo s y x2 k ps ctr) := by
  unfold deliverTo
  repeat' with_reducible
    first
    | assumption | apply deliverPiece_keeps | apply savedPiece_keeps | apply bumpAc_keeps | apply bumpSaved_keeps
    | apply keep_foldl | intro _ | split | simp only [keep_mk, keep_fold, id_eq]

theorem arrive_keeps (q : KeepArgs) (ce : List Nat) (ue : List (Nat × Nat)) (x : Xfer) (s : State) (h : Keep q s) : Keep q
    (arrive ce ue x s) := by
  unfold arrive
  repeat' with_reducible
    first
    | assumption | apply answerXfer_keeps | apply dropAll_keeps | apply countLinks_keeps | apply linkRead_keeps
    | apply endRead_keeps | apply endXfer_keeps | apply deliverTo_keeps | apply refreshClass_keeps | intro _
    | refine keep_ofPair (by assumption) ?_ | split | simp only [keep_mk, keep_fold, id_eq]

theorem execTransferArrival_keeps (q : KeepArgs) (id : Nat) (ce : List Nat) (ue : List (Nat × Nat)) (s : State) (h : Keep q
    s) : ∀ u, (execTransferArrival id ce ue s) = .next u → Keep q u := by
  intro u hu; unfold execTransferArrival at hu; refine hubCmd_keeps q _ _ ?_ h _ hu
  repeat' with_reducible
    first
    | assumption | apply arrive_keeps | intro _ | split | simp only [keep_mk, keep_fold, id_eq]

theorem wayTick_keeps (q : KeepArgs) (s : State) (h : Keep q s) : Keep q (wayTick s) := by
  unfold wayTick
  repeat' with_reducible
    first
    | assumption | intro _ | split | simp only [keep_mk, keep_fold, id_eq]

theorem addAtom_keeps (q : KeepArgs) (s : State) (a : Atom) (h : Keep q s) : Keep q (addAtom s a) := by
  unfold addAtom
  repeat' with_reducible
    first
    | assumption | apply keepV_spPut | apply keepV_sePut | apply keepV_dpPut | apply keepV_dePut | intro _ | split
    | simp only [keep_mk, keep_fold, id_eq]

theorem withPlaces_keeps (q : KeepArgs) (c : Nat) (o : Op) (sh : Share) (g : State → List (Nat × Nat) → State) (x4 : List
    Nat) (x5 : List (Nat × Nat)) (x6 : State) (h_g : ∀ (y0 : State) (y1 : List (Nat × Nat)), Keep q y0 → Keep q (g y0 y1)) (h
    : Keep q x6) : Keep q (withPlaces c o sh g x4 x5 x6) := by
  induction x4 generalizing c o sh g x5 x6 with
  | nil =>
    unfold withPlaces; (try simp only [])
    repeat' with_reducible
      first
      | assumption | apply withPte_keeps | apply opFault_keeps | apply h_g | intro _ | split
      | simp only [keep_mk, keep_fold, id_eq]
  | cons _ _ ih =>
    unfold withPlaces; (try simp only [])
    repeat' with_reducible
      first
      | assumption | apply withPte_keeps | apply opFault_keeps | apply ih | apply h_g | intro _ | split
      | simp only [keep_mk, keep_fold, id_eq]

theorem writePlaces_keeps (q : KeepArgs) (c : Nat) (o : Op) (sh : Share) (x3 : List ((Nat × Nat) × List (List Byte))) (x4 :
    State) (h : Keep q x4) : Keep q (writePlaces c o sh x3 x4).1 := by
  induction x3 generalizing c o sh x4 with
  | nil =>
    unfold writePlaces; (try simp only [])
    repeat' with_reducible
      first
      | assumption | apply piecesWrite_keeps | intro _ | refine keep_ofPair (by assumption) ?_ | split
      | simp only [keep_mk, keep_fold, id_eq]
  | cons _ _ ih =>
    unfold writePlaces; (try simp only [])
    repeat' with_reducible
      first
      | assumption | apply piecesWrite_keeps | apply ih | intro _ | refine keep_ofPair (by assumption) ?_ | split
      | simp only [keep_mk, keep_fold, id_eq]

theorem withPath_keeps (q : KeepArgs) (s : State) (c : Nat) (o : Op) (g : State → List Nat → State) (h_g : ∀ (y0 : State) (y1
    : List Nat), Keep q y0 → Keep q (g y0 y1)) (h : Keep q s) : Keep q (withPath s c o g) := by
  unfold withPath
  repeat' with_reducible
    first
    | assumption | apply opRead_keeps | apply h_g | intro _ | split | simp only [keep_mk, keep_fold, id_eq]

theorem readPlace_keeps (q : KeepArgs) (s : State) (c : Nat) (o : Op) (sh : Share) (p : Nat) (r : Nat) (g : State → List
    (List Byte) → State) (h_g : ∀ (y0 : State) (y1 : List (List Byte)), Keep q y0 → Keep q (g y0 y1)) (h : Keep q s) : Keep q
    (readPlace s c o sh p r g) := by
  unfold readPlace
  repeat' with_reducible
    first
    | assumption | apply readPieces2_keeps | apply h_g | intro _ | split | simp only [keep_mk, keep_fold, id_eq]

theorem kvLeave_keeps (q : KeepArgs) (s : State) (c : Nat) (sl : Nat) (h : Keep q s) : Keep q (kvLeave s c sl) := by
  unfold kvLeave
  repeat' with_reducible
    first
    | assumption | apply tenWrite_keeps | apply modSlot_keeps | apply dropLb_keeps | intro _ | split
    | simp only [keep_mk, keep_fold, id_eq]

theorem readPlaces_keeps (q : KeepArgs) (c : Nat) (o : Op) (sh : Share) (g : State → List (List (List Byte)) → State) (x4 :
    List (Nat × Nat)) (x5 : List (List (List Byte))) (x6 : State) (h_g : ∀ (y0 : State) (y1 : List (List (List Byte))), Keep
    q y0 → Keep q (g y0 y1)) (h : Keep q x6) : Keep q (readPlaces c o sh g x4 x5 x6) := by
  induction x4 generalizing c o sh g x5 x6 with
  | nil =>
    unfold readPlaces; (try simp only [])
    repeat' with_reducible
      first
      | assumption | apply readPlace_keeps | apply h_g | intro _ | split | simp only [keep_mk, keep_fold, id_eq]
  | cons _ _ ih =>
    unfold readPlaces; (try simp only [])
    repeat' with_reducible
      first
      | assumption | apply readPlace_keeps | apply ih | apply h_g | intro _ | split | simp only [keep_mk, keep_fold, id_eq]

theorem modHdr_keeps (q : KeepArgs) (s : State) (c : Nat) (sl : Nat) (g : KvHdr → KvHdr) (h : Keep q s) : Keep q (modHdr s c
    sl g) := by
  unfold modHdr
  repeat' with_reducible
    first
    | assumption | apply modSlot_keeps | intro _ | split | simp only [keep_mk, keep_fold, id_eq]

theorem freePage_keeps (q : KeepArgs) (c : Nat) (o : Op) (sh : Share) (s : State) (x : Nat × Nat) (h : Keep q s) : Keep q
    (freePage c o sh s x) := by
  unfold freePage
  repeat' with_reducible
    first
    | assumption | apply walkWrite_keeps | apply modHdr_keeps | apply modClu_keeps | apply bumpC_keeps | intro _ | split
    | simp only [keep_mk, keep_fold, id_eq]

theorem commitPut_keeps (q : KeepArgs) (c : Nat) (o : Op) (sh : Share) (dst : List (Nat × Nat)) (rows : List (List (List
    Byte))) (fs : List (Nat × Nat)) (s : State) (h : Keep q s) : Keep q (commitPut c o sh dst rows fs s) := by
  unfold commitPut
  repeat' with_reducible
    first
    | assumption | apply writePlaces_keeps | apply opFault_keeps | apply tryWords_keeps | apply bumpC_keeps
    | apply walkWrite_keeps | apply setPhase_keeps | apply freePage_keeps | apply keep_foldl | intro _
    | refine keep_ofPair (by assumption) ?_ | split | simp only [keep_mk, keep_fold, id_eq]

theorem doCommit_keeps (q : KeepArgs) (c : Nat) (o : Op) (s : State) (h : Keep q s) : Keep q (doCommit c o s) := by
  unfold doCommit
  repeat' with_reducible
    first
    | assumption | apply withShare_keeps | apply withPath_keeps | apply opFault_keeps | apply withPlaces_keeps
    | apply readPlaces_keeps | apply withHdr_keeps | apply walkRead_keeps | apply commitPut_keeps | intro _ | split
    | simp only [keep_mk, keep_fold, id_eq]

theorem execCommit_keeps (q : KeepArgs) (c : Nat) (sl : Nat) (t : Nat) (s : State) (h : Keep q s) : ∀ u, (execCommit c sl t
    s) = .next u → Keep q u := by
  intro u hu; unfold execCommit at hu; refine attCmd_keeps q _ _ _ _ _ _ ?_ h _ hu
  repeat' with_reducible
    first
    | assumption | apply doCommit_keeps | intro _ | split | simp only [keep_mk, keep_fold, id_eq]

theorem popRead_keeps (q : KeepArgs) (s : State) (c : Nat) (o : Op) (x3 : KvHdr) (size : Nat) (g : State → Nat → State) (h_g
    : ∀ (y0 : State) (y1 : Nat), Keep q y0 → Keep q (g y0 y1)) (h : Keep q s) : Keep q (popRead s c o x3 size g) := by
  unfold popRead
  repeat' with_reducible
    first
    | assumption | apply opFault_keeps | apply walkRead_keeps | apply h_g | intro _ | split
    | simp only [keep_mk, keep_fold, id_eq]

theorem kvaPage_keeps (q : KeepArgs) (s : State) (c : Nat) (o : Op) (sh : Share) (page : Nat) (g : State → Nat → Bool →
    State) (h_g : ∀ (y0 : State) (y1 : Nat) (y2 : Bool), Keep q y0 → Keep q (g y0 y1 y2)) (h : Keep q s) : Keep q (kvaPage s
    c o sh page g) := by
  unfold kvaPage
  repeat' with_reducible
    first
    | assumption | apply withPte_keeps | apply withHdr_keeps | apply popRead_keeps | apply opFault_keeps | apply h_g
    | intro _ | split | simp only [keep_mk, keep_fold, id_eq]

theorem popDone_keeps (q : KeepArgs) (s : State) (c : Nat) (o : Op) (sh : Share) (page : Nat) (p : Nat) (h : Keep q s) : Keep
    q (popDone s c o sh page p) := by
  unfold popDone
  repeat' with_reducible
    first
    | assumption | apply modHdr_keeps | apply bumpC_keeps | apply walkWrite_keeps | intro _ | split
    | simp only [keep_mk, keep_fold, id_eq]

theorem kvaPut_keeps (q : KeepArgs) (c : Nat) (o : Op) (sh : Share) (p : Nat) (popped : Bool) (rs : List (Nat × RowOut)) (s :
    State) (h : Keep q s) : Keep q (kvaPut c o sh p popped rs s) := by
  unfold kvaPut
  repeat' with_reducible
    first
    | assumption | apply opFault_keeps | apply popDone_keeps | apply piecesWrite_keeps | apply tryWords_keeps
    | apply walkWrite_keeps | apply setPhase_keeps | apply countEvents_keeps | intro _
    | refine keep_ofPair (by assumption) ?_ | split | simp only [keep_mk, keep_fold, id_eq]

theorem doKva_keeps (q : KeepArgs) (c : Nat) (o : Op) (s : State) (h : Keep q s) : Keep q (doKva c o s) := by
  unfold doKva
  repeat' with_reducible
    first
    | assumption | apply withShare_keeps | apply opFault_keeps | apply kvaPage_keeps | apply plainSource_keeps
    | apply kvaPut_keeps | intro _ | split | simp only [keep_mk, keep_fold, id_eq]

theorem execKva_keeps (q : KeepArgs) (c : Nat) (sl : Nat) (t : Nat) (s : State) (h : Keep q s) : ∀ u, (execKva c sl t s) =
    .next u → Keep q u := by
  intro u hu; unfold execKva at hu; refine attCmd_keeps q _ _ _ _ _ _ ?_ h _ hu
  repeat' with_reducible
    first
    | assumption | apply doKva_keeps | intro _ | split | simp only [keep_mk, keep_fold, id_eq]

theorem kvEnter_keeps (q : KeepArgs) (s : State) (c : Nat) (sl : Nat) (f : Nat) (dir : Nat) (h : Keep q s) : Keep q (kvEnter
    s c sl f dir) := by
  unfold kvEnter
  repeat' with_reducible
    first
    | assumption | refine tenRead_keeps q _ _ _ _ _ ?_ _ _ (by assumption) | apply modSlot_keeps | intro _ | split
    | simp only [keep_mk, keep_fold, id_eq]

theorem partDeliver_keeps (q : KeepArgs) (s : State) (c : Nat) (o : Op) (spad : Nat) (g : DmaGot) (h : Keep q s) : Keep q
    (partDeliver s c o spad g) := by
  unfold partDeliver
  repeat' with_reducible
    first
    | assumption | apply stepFresh_keeps | apply spadWrite_keeps | apply keep_foldl | intro _
    | refine keep_ofPair (by assumption) ?_ | split | simp only [keep_mk, keep_fold, id_eq]

theorem dmagEnd_keeps (q : KeepArgs) (c : Nat) (o : Op) (spad : Nat) (g : DmaGot) (ce : Nat) (ue : List Nat) (s : State) (h :
    Keep q s) : Keep q (dmagEnd c o spad g ce ue s) := by
  unfold dmagEnd
  repeat' with_reducible
    first
    | assumption | apply bumpC_keeps | apply opFault_keeps | apply partDeliver_keeps | apply opEnd_keeps
    | apply spadWrite_keeps | intro _ | refine keep_ofPair (by assumption) ?_ | split | simp only [keep_mk, keep_fold, id_eq]

theorem dmagStack_keeps (q : KeepArgs) (s : State) (c : Nat) (o : Op) (dev : Nat) (len : Nat) (h : Keep q s) : Keep q
    (dmagStack s c o dev len).1 := by
  unfold dmagStack
  repeat' with_reducible
    first
    | assumption | refine tenRead_keeps q _ _ _ _ _ ?_ _ _ (by assumption) | intro _ | split
    | simp only [keep_mk, keep_fold, id_eq]

theorem dmagDone_keeps (q : KeepArgs) (c : Nat) (o : Op) (spad : Nat) (dev : Nat) (len : Nat) (ce : Nat) (ue : List Nat) (s :
    State) (h : Keep q s) : Keep q (dmagDone c o spad dev len ce ue s) := by
  unfold dmagDone
  repeat' with_reducible
    first
    | assumption | apply dmagEnd_keeps | apply dmagStack_keeps | intro _ | refine keep_ofPair (by assumption) ?_ | split
    | simp only [keep_mk, keep_fold, id_eq]

theorem sendXfer_keeps (q : KeepArgs) (s : State) (c : Nat) (o : Op) (k : XKind) (ps : List Piece) (ack : Bool) (h : Keep q
    s) : Keep q (sendXfer s c o k ps ack) := by
  unfold sendXfer
  repeat' with_reducible
    first
    | assumption | apply bumpC_keeps | apply addXfer_keeps | intro _ | split | simp only [keep_mk, keep_fold, id_eq]

theorem routed_keeps (q : KeepArgs) (s : State) (c : Nat) (o : Op) (g : State → State) (h_g : ∀ (y0 : State), Keep q y0 →
    Keep q (g y0)) (h : Keep q s) : Keep q (routed s c o g) := by
  unfold routed
  repeat' with_reducible
    first
    | assumption | apply opFault_keeps | apply h_g | intro _ | split | simp only [keep_mk, keep_fold, id_eq]

theorem addMsg_keeps (q : KeepArgs) (s : State) (m : Msg) (h : Keep q s) : Keep q (addMsg s m) := by
  unfold addMsg
  repeat' with_reducible
    first
    | assumption | intro _ | split | simp only [keep_mk, keep_fold, id_eq]

theorem addMsgs_keeps (q : KeepArgs) (s : State) (c : Nat) (o : Op) (ms : List Msg) (h : Keep q s) : Keep q (addMsgs s c o
    ms) := by
  unfold addMsgs
  repeat' with_reducible
    first
    | assumption | apply addMsg_keeps | apply setPhase_keeps | apply keep_foldl | intro _ | split
    | simp only [keep_mk, keep_fold, id_eq]

theorem doSync_keeps (q : KeepArgs) (c : Nat) (o : Op) (s : State) (h : Keep q s) : Keep q (doSync c o s) := by
  unfold doSync
  repeat' with_reducible
    first
    | assumption | apply setPhase_keeps | apply sendXfer_keeps | apply routed_keeps | apply addMsgs_keeps | intro _ | split
    | simp only [keep_mk, keep_fold, id_eq]

theorem sendAtom_keeps (q : KeepArgs) (s : State) (c : Nat) (o : Op) (k : AKind) (n : Nat) (data : List Byte) (h : Keep q s)
    : Keep q (sendAtom s c o k n data) := by
  unfold sendAtom
  repeat' with_reducible
    first
    | assumption | apply setPhase_keeps | apply addAtom_keeps | intro _ | split | simp only [keep_mk, keep_fold, id_eq]

theorem redLocal_keeps (q : KeepArgs) (c : Nat) (o : Op) (ws : List Byte) (evs : List (Bool × Bool)) (s : State) (h : Keep q
    s) : Keep q (redLocal c o ws evs s) := by
  unfold redLocal
  repeat' with_reducible
    first
    | assumption | apply readSpans_keeps | apply opFault_keeps | apply writeSpans_keeps | apply setPhase_keeps
    | apply countEvents_keeps | intro _ | refine keep_ofPair (by assumption) ?_ | split | simp only [keep_mk, keep_fold, id_eq]

theorem doRed_keeps (q : KeepArgs) (c : Nat) (o : Op) (s : State) (h : Keep q s) : Keep q (doRed c o s) := by
  unfold doRed
  repeat' with_reducible
    first
    | assumption | apply opRead_keeps | apply routed_keeps | apply addMsgs_keeps | apply countEvents_keeps
    | apply sendAtom_keeps | apply redLocal_keeps | apply setPhase_keeps | apply sendXfer_keeps | intro _ | split
    | simp only [keep_mk, keep_fold, id_eq]

theorem dmapEnd_keeps (q : KeepArgs) (c : Nat) (o : Op) (g : DmaGot) (s : State) (h : Keep q s) : Keep q (dmapEnd c o g s) := by
  unfold dmapEnd
  repeat' with_reducible
    first
    | assumption | apply opFault_keeps | apply opEnd_keeps | intro _ | split | simp only [keep_mk, keep_fold, id_eq]

theorem tenStore_keeps (q : KeepArgs) (s : State) (k : Cls) (f : Nat) (t : Nat) (bs : List Byte) (poison : Bool) (h : Keep q
    s) : Keep q (tenStore s k f t bs poison) := by
  unfold tenStore
  repeat' with_reducible
    first
    | assumption | apply addAtom_keeps | apply atomWrite_keeps | apply tenWrite_keeps | intro _ | split
    | simp only [keep_mk, keep_fold, id_eq]

theorem dmapStack_keeps (q : KeepArgs) (s : State) (c : Nat) (o : Op) (spad : Nat) (dev : Nat) (len : Nat) (ue : List Nat) (h
    : Keep q s) : Keep q (dmapStack s c o spad dev len ue).1 := by
  unfold dmapStack
  repeat' with_reducible
    first
    | assumption | apply spadRead_keeps | apply tenStore_keeps | apply keep_foldl | intro _
    | refine keep_ofPair (by assumption) ?_ | split | simp only [keep_mk, keep_fold, id_eq]

theorem dmapDone_keeps (q : KeepArgs) (c : Nat) (o : Op) (spad : Nat) (dev : Nat) (len : Nat) (ue : List Nat) (s : State) (h
    : Keep q s) : Keep q (dmapDone c o spad dev len ue s) := by
  unfold dmapDone
  repeat' with_reducible
    first
    | assumption | apply dmapEnd_keeps | apply dmapStack_keeps | intro _ | refine keep_ofPair (by assumption) ?_ | split
    | simp only [keep_mk, keep_fold, id_eq]

theorem attDone_keeps (q : KeepArgs) (c : Nat) (sl : Nat) (t : Nat) (ce : Nat) (ue : List Nat) (o : Op) (s : State) (h : Keep
    q s) : Keep q (attDone c sl t ce ue o s) := by
  unfold attDone
  repeat' with_reducible
    first
    | assumption | apply bumpC_keeps | apply opFault_keeps | apply attEnds_keeps | apply opEnd_keeps | intro _ | split
    | simp only [keep_mk, keep_fold, id_eq]

theorem execRed_keeps (q : KeepArgs) (c : Nat) (sl : Nat) (t : Nat) (s : State) (h : Keep q s) : ∀ u, (execRed c sl t s) =
    .next u → Keep q u := by
  intro u hu; unfold execRed at hu; refine opCmd_keeps q _ _ _ _ _ _ _ ?_ h _ hu
  repeat' with_reducible
    first
    | assumption | apply doRed_keeps | intro _ | split | simp only [keep_mk, keep_fold, id_eq]

theorem doOpComplete_keeps (q : KeepArgs) (c : Nat) (sl : Nat) (t : Nat) (ce : Nat) (ue : List Nat) (s : State) (h : Keep q
    s) : Keep q (doOpComplete c sl t ce ue s) := by
  unfold doOpComplete
  repeat' with_reducible
    first
    | assumption | apply dmagDone_keeps | apply dmapDone_keeps | apply opEnd_keeps | apply attDone_keeps | intro _ | split
    | simp only [keep_mk, keep_fold, id_eq]

theorem doMov_keeps (q : KeepArgs) (c : Nat) (o : Op) (s : State) (h : Keep q s) : Keep q (doMov c o s) := by
  unfold doMov
  repeat' with_reducible
    first
    | assumption | apply opRead_keeps | apply opWrite_keeps | apply setPhase_keeps | apply sendXfer_keeps
    | apply routed_keeps | apply addMsgs_keeps | intro _ | split | simp only [keep_mk, keep_fold, id_eq]

theorem execMov_keeps (q : KeepArgs) (c : Nat) (sl : Nat) (t : Nat) (s : State) (h : Keep q s) : ∀ u, (execMov c sl t s) =
    .next u → Keep q u := by
  intro u hu; unfold execMov at hu; refine opCmd_keeps q _ _ _ _ _ _ _ ?_ h _ hu
  repeat' with_reducible
    first
    | assumption | apply doMov_keeps | intro _ | split | simp only [keep_mk, keep_fold, id_eq]

theorem execSync_keeps (q : KeepArgs) (c : Nat) (sl : Nat) (t : Nat) (s : State) (h : Keep q s) : ∀ u, (execSync c sl t s) =
    .next u → Keep q u := by
  intro u hu; unfold execSync at hu; refine opCmd_keeps q _ _ _ _ _ _ _ ?_ h _ hu
  repeat' with_reducible
    first
    | assumption | apply doSync_keeps | intro _ | split | simp only [keep_mk, keep_fold, id_eq]

theorem doMrg_keeps (q : KeepArgs) (c : Nat) (o : Op) (s : State) (h : Keep q s) : Keep q (doMrg c o s) := by
  unfold doMrg
  repeat' with_reducible
    first
    | assumption | apply opRead_keeps | apply routed_keeps | apply addMsgs_keeps | apply countEvents_keeps
    | apply sendAtom_keeps | intro _ | split | simp only [keep_mk, keep_fold, id_eq]

theorem execMrg_keeps (q : KeepArgs) (c : Nat) (sl : Nat) (t : Nat) (s : State) (h : Keep q s) : ∀ u, (execMrg c sl t s) =
    .next u → Keep q u := by
  intro u hu; unfold execMrg at hu; refine opCmd_keeps q _ _ _ _ _ _ _ ?_ h _ hu
  repeat' with_reducible
    first
    | assumption | apply doMrg_keeps | intro _ | split | simp only [keep_mk, keep_fold, id_eq]

theorem execOperationComplete_keeps (q : KeepArgs) (c : Nat) (sl : Nat) (e : OpEnd) (s : State) (h : Keep q s) : ∀ u,
    (execOperationComplete c sl e s) = .next u → Keep q u := by
  intro u hu; unfold execOperationComplete at hu; refine slotRun_keeps q _ _ _ _ ?_ h _ hu
  repeat' with_reducible
    first
    | assumption | apply doOpComplete_keeps | intro _ | split | simp only [keep_mk, keep_fold, id_eq]

theorem stackHolds_keeps (q : KeepArgs) (c : Nat) (s : State) (o : Op) (h : Keep q s) : Keep q (stackHolds c s o) := by
  unfold stackHolds
  repeat' with_reducible
    first
    | assumption | apply putOp_keeps | apply dmagStack_keeps | apply dmapStack_keeps | intro _
    | refine keep_ofPair (by assumption) ?_ | split | simp only [keep_mk, keep_fold, id_eq]

theorem ackOwner_keeps (q : KeepArgs) (s : State) (w : MOwner) (h : Keep q s) : Keep q (ackOwner s w) := by
  unfold ackOwner
  repeat' with_reducible
    first
    | assumption | apply ackOp_keeps | apply complete_keeps | apply modItem_keeps | intro _ | split
    | simp only [keep_mk, keep_fold, id_eq]

theorem dropMsgs_keeps (q : KeepArgs) (s : State) (w : MOwner) (h : Keep q s) : Keep q (dropMsgs s w) := by
  unfold dropMsgs
  repeat' with_reducible
    first
    | assumption | intro _ | split | simp only [keep_mk, keep_fold, id_eq]

theorem failOwner_keeps (q : KeepArgs) (s : State) (m : Msg) (code : Nat) (status : Nat) (detail : Nat) (h : Keep q s) : Keep
    q (failOwner s m code status detail) := by
  unfold failOwner
  repeat' with_reducible
    first
    | assumption | apply dropMsgs_keeps | apply opFault_keeps | apply complete_keeps | intro _ | split
    | simp only [keep_mk, keep_fold, id_eq]

end Sys2Proof.Machine
end

