-- ==== Sys2Proof/Laws/Keep4.lean ====
section
/-! SUPPORT. One lemma per operation and per command: it keeps what `Keep` says (part 4 of 7, callees before callers). -/

namespace Sys2Proof.Machine

set_option linter.unusedSimpArgs false
set_option linter.unusedVariables false

theorem loseMsg_keeps (q : KeepArgs) (s : State) (m : Msg) (h : Keep q s) : Keep q (loseMsg s m) := by
  unfold loseMsg
  repeat' with_reducible
    first
    | assumption | apply failOwner_keeps | intro _ | split | simp only [keep_mk, keep_fold, id_eq]

theorem loseAll_keeps (q : KeepArgs) (x0 : Nat) (x1 : State) (h : Keep q x1) : Keep q (loseAll x0 x1) := by
  induction x0 generalizing x1 with
  | zero =>
    unfold loseAll; (try simp only [])
    repeat' with_reducible
      first
      | assumption | apply loseMsg_keeps | intro _ | split | simp only [keep_mk, keep_fold, id_eq]
  | succ _ ih =>
    unfold loseAll; (try simp only [])
    repeat' with_reducible
      first
      | assumption | apply loseMsg_keeps | apply ih | intro _ | split | simp only [keep_mk, keep_fold, id_eq]

theorem nodeUnassign_keeps (q : KeepArgs) (s : State) (h : Keep q s) : Keep q (nodeUnassign s) := by
  unfold nodeUnassign
  repeat' with_reducible
    first
    | assumption | apply loseAll_keeps | apply discAll_keeps | apply portsUpdate_keeps | intro _ | split
    | simp only [keep_mk, keep_fold, id_eq]

theorem nodeWrite_keeps (q : KeepArgs) (v : Nat) (s : State) (h : Keep q s) : Keep q (nodeWrite v s) := by
  unfold nodeWrite
  repeat' with_reducible
    first
    | assumption | apply nodeUnassign_keeps | apply discAll_keeps | apply portsUpdate_keeps | intro _ | split
    | simp only [keep_mk, keep_fold, id_eq]

theorem execNodeAssign_keeps (q : KeepArgs) (v : Nat) (s : State) (h : Keep q s) : ∀ u, (execNodeAssign v s) = .next u → Keep
    q u := by
  intro u hu; unfold execNodeAssign at hu; refine hubCmd_keeps q _ _ ?_ h _ hu
  repeat' with_reducible
    first
    | assumption | apply nodeWrite_keeps | intro _ | split | simp only [keep_mk, keep_fold, id_eq]

theorem modMsg_keeps (q : KeepArgs) (s : State) (id : Nat) (g : Msg → Msg) (h : Keep q s) : Keep q (modMsg s id g) := by
  unfold modMsg
  repeat' with_reducible
    first
    | assumption | intro _ | split | simp only [keep_mk, keep_fold, id_eq]

theorem sendData_keeps (q : KeepArgs) (s : State) (m : Msg) (data : List Byte) (poi : List Bool) (h : Keep q s) : Keep q
    (sendData s m data poi) := by
  unfold sendData
  repeat' with_reducible
    first
    | assumption | apply modMsg_keeps | apply sendRouted_keeps | intro _ | split | simp only [keep_mk, keep_fold, id_eq]

theorem spadData_keeps (q : KeepArgs) (s : State) (c : Nat) (x2 : BankUser) (sl : Nat) (spans : List (Nat × Nat)) (k : Nat)
    (g : List Byte → List Byte) (h : Keep q s) : Keep q (spadData s c x2 sl spans k g).1 := by
  unfold spadData
  repeat' with_reducible
    first
    | assumption | apply readSpans_keeps | intro _ | refine keep_ofPair (by assumption) ?_ | split
    | simp only [keep_mk, keep_fold, id_eq]

theorem devWords_keeps (q : KeepArgs) (s : State) (cls : Cls) (f : Nat) (a : Nat) (n : Nat) (h : Keep q s) : Keep q (devWords
    s cls f a n).1 := by
  unfold devWords
  repeat' with_reducible
    first
    | assumption | apply readPieces_keeps | intro _ | refine keep_ofPair (by assumption) ?_ | split
    | simp only [keep_mk, keep_fold, id_eq]

theorem msgData_keeps (q : KeepArgs) (s : State) (m : Msg) (h : Keep q s) : Keep q (msgData s m).1 := by
  unfold msgData
  repeat' with_reducible
    first
    | assumption | apply spadData_keeps | apply devWords_keeps | intro _ | refine keep_ofPair (by assumption) ?_ | split
    | simp only [keep_mk, keep_fold, id_eq]

theorem sendCopy_keeps (q : KeepArgs) (s : State) (m : Msg) (m1 : Msg) (g : State → State) (h_g : ∀ (y0 : State), Keep q y0 →
    Keep q (g y0)) (h : Keep q s) : Keep q (sendCopy s m m1 g) := by
  unfold sendCopy
  repeat' with_reducible
    first
    | assumption | apply msgData_keeps | apply failOwner_keeps | apply sendData_keeps | apply h_g | intro _
    | refine keep_ofPair (by assumption) ?_ | split | simp only [keep_mk, keep_fold, id_eq]

theorem execMessageLost_keeps (q : KeepArgs) (dnode : Nat) (aseq : Nat) (s : State) (h : Keep q s) : ∀ u, (execMessageLost
    dnode aseq s) = .next u → Keep q u := by
  intro u hu; unfold execMessageLost at hu; refine hubCmd_keeps q _ _ ?_ h _ hu
  repeat' with_reducible
    first
    | assumption | apply loseMsg_keeps | apply bump_keeps | intro _ | split | simp only [keep_mk, keep_fold, id_eq]

theorem execMessageResend_keeps (q : KeepArgs) (dnode : Nat) (aseq : Nat) (s : State) (h : Keep q s) : ∀ u,
    (execMessageResend dnode aseq s) = .next u → Keep q u := by
  intro u hu; unfold execMessageResend at hu; refine hubCmd_keeps q _ _ ?_ h _ hu
  repeat' with_reducible
    first
    | assumption | apply sendCopy_keeps | apply bump_keeps | intro _ | split | simp only [keep_mk, keep_fold, id_eq]

theorem firstSend_keeps (q : KeepArgs) (s : State) (m : Msg) (h : Keep q s) : Keep q (firstSend s m) := by
  unfold firstSend
  repeat' with_reducible
    first
    | assumption | apply sendCopy_keeps | intro _ | split | simp only [keep_mk, keep_fold, id_eq]

theorem doMessageSend_keeps (q : KeepArgs) (id : Nat) (s : State) (h : Keep q s) : Keep q (doMessageSend id s) := by
  unfold doMessageSend
  repeat' with_reducible
    first
    | assumption | apply failOwner_keeps | apply firstSend_keeps | intro _ | split | simp only [keep_mk, keep_fold, id_eq]

theorem execMessageSend_keeps (q : KeepArgs) (id : Nat) (s : State) (h : Keep q s) : ∀ u, (execMessageSend id s) = .next u →
    Keep q u := by
  intro u hu; unfold execMessageSend at hu; refine hubCmd_keeps q _ _ ?_ h _ hu
  repeat' with_reducible
    first
    | assumption | apply doMessageSend_keeps | intro _ | split | simp only [keep_mk, keep_fold, id_eq]

theorem eackTake_keeps (q : KeepArgs) (s : State) (d : Nat) (a : Nat) (epoch : Nat) (h : Keep q s) : Keep q (eackTake s d a
    epoch) := by
  unfold eackTake
  repeat' with_reducible
    first
    | assumption | apply ackOwner_keeps | intro _ | split | simp only [keep_mk, keep_fold, id_eq]

theorem execEackReceive_keeps (q : KeepArgs) (dnode : Nat) (aseq : Nat) (epoch : Nat) (x3 : Nat) (s : State) (h : Keep q s) :
    ∀ u, (execEackReceive dnode aseq epoch x3 s) = .next u → Keep q u := by
  intro u hu; unfold execEackReceive at hu; refine hubCmd_keeps q _ _ ?_ h _ hu
  repeat' with_reducible
    first
    | assumption | apply eackTake_keeps | intro _ | split | simp only [keep_mk, keep_fold, id_eq]

theorem execNodeUnassign_keeps (q : KeepArgs) (s : State) (h : Keep q s) : ∀ u, (execNodeUnassign s) = .next u → Keep q u := by
  intro u hu; unfold execNodeUnassign at hu; refine hubCmd_keeps q _ _ ?_ h _ hu
  repeat' with_reducible
    first
    | assumption | apply nodeUnassign_keeps | intro _ | split | simp only [keep_mk, keep_fold, id_eq]

theorem takeControl_keeps (q : KeepArgs) (s : State) (n : Nat) (b : List Byte) (h : Keep q s) : Keep q (takeControl s n b) := by
  unfold takeControl
  repeat' with_reducible
    first
    | assumption | apply nakTake_keeps | apply ackTake_keeps | apply creditTake_keeps | intro _ | split
    | simp only [keep_mk, keep_fold, id_eq]

theorem tsyncTake_keeps (q : KeepArgs) (s : State) (n : Nat) (pl : List Byte) (h : Keep q s) : Keep q (tsyncTake s n pl) := by
  unfold tsyncTake
  repeat' with_reducible
    first
    | assumption | apply tsResponse_keeps | apply modPort_keeps | intro _ | split | simp only [keep_mk, keep_fold, id_eq]

theorem moreCopy_keeps (q : KeepArgs) (s : State) (b : List Byte) (h : Keep q s) : Keep q (moreCopy s b) := by
  unfold moreCopy
  repeat' with_reducible
    first
    | assumption | intro _ | split | simp only [keep_mk, keep_fold, id_eq]

theorem routeFlit_keeps (q : KeepArgs) (s : State) (n : Nat) (b : List Byte) (h : Keep q s) : Keep q (routeFlit s n b) := by
  unfold routeFlit
  repeat' with_reducible
    first
    | assumption | apply oweCredit_keeps | apply eackTake_keeps | apply moreCopy_keeps | apply sendRouted_keeps | intro _
    | split | simp only [keep_mk, keep_fold, id_eq]

theorem drainAux_keeps (q : KeepArgs) (n : Nat) (x1 : List (List Byte)) (x2 : List Nat) (x3 : List (List Byte)) (x4 : State)
    (h : Keep q x4) : Keep q (drainAux n x1 x2 x3 x4) := by
  induction x1 generalizing n x2 x3 x4 with
  | nil =>
    unfold drainAux; (try simp only [])
    repeat' with_reducible
      first
      | assumption | apply modPort_keeps | apply routeFlit_keeps | intro _ | split | simp only [keep_mk, keep_fold, id_eq]
  | cons _ _ ih =>
    unfold drainAux; (try simp only [])
    repeat' with_reducible
      first
      | assumption | apply modPort_keeps | apply routeFlit_keeps | apply ih | intro _ | split
      | simp only [keep_mk, keep_fold, id_eq]

theorem drain_keeps (q : KeepArgs) (s : State) (n : Nat) (h : Keep q s) : Keep q (drain s n) := by
  unfold drain
  repeat' with_reducible
    first
    | assumption | apply drainAux_keeps | intro _ | split | simp only [keep_mk, keep_fold, id_eq]

theorem takeFlit_keeps (q : KeepArgs) (s : State) (n : Nat) (b : List Byte) (h : Keep q s) : Keep q (takeFlit s n b) := by
  unfold takeFlit
  repeat' with_reducible
    first
    | assumption | apply acceptFlit_keeps | apply discTake_keeps | apply oweCredit_keeps | apply tsyncTake_keeps
    | apply drain_keeps | apply modPort_keeps | intro _ | split | simp only [keep_mk, keep_fold, id_eq]

theorem doFlit_keeps (q : KeepArgs) (n : Nat) (b : List Byte) (s : State) (h : Keep q s) : Keep q (doFlit n b s) := by
  unfold doFlit
  repeat' with_reducible
    first
    | assumption | apply refuseFlit_keeps | apply bump_keeps | apply takeControl_keeps | apply takeFlit_keeps | intro _
    | split | simp only [keep_mk, keep_fold, id_eq]

theorem execFlitReceive_keeps (q : KeepArgs) (n : Nat) (flit : List Byte) (s : State) (h : Keep q s) : ∀ u, (execFlitReceive
    n flit s) = .next u → Keep q u := by
  intro u hu; unfold execFlitReceive at hu; refine portCmd_keeps q _ _ _ ?_ h _ hu
  repeat' with_reducible
    first
    | assumption | apply doFlit_keeps | intro _ | split | simp only [keep_mk, keep_fold, id_eq]

theorem startCopy_keeps (q : KeepArgs) (s : State) (n : Nat) (b : List Byte) (h : Keep q s) : Keep q (startCopy s n b) := by
  unfold startCopy
  repeat' with_reducible
    first
    | assumption | intro _ | split | simp only [keep_mk, keep_fold, id_eq]

theorem execDiscReceive_keeps (q : KeepArgs) (n : Nat) (flit : List Byte) (s : State) (h : Keep q s) : ∀ u, (execDiscReceive
    n flit s) = .next u → Keep q u := by
  intro u hu; unfold execDiscReceive at hu; refine portCmd_keeps q _ _ _ ?_ h _ hu
  repeat' with_reducible
    first
    | assumption | apply doFlit_keeps | intro _ | split | simp only [keep_mk, keep_fold, id_eq]

theorem applyAtom_keeps (q : KeepArgs) (s : State) (f : Nat) (m : RMsg) (ps : List (Nat × Nat)) (h : Keep q s) : Keep q
    (applyAtom s f m ps) := by
  unfold applyAtom
  repeat' with_reducible
    first
    | assumption | apply addAtom_keeps | intro _ | split | simp only [keep_mk, keep_fold, id_eq]

theorem applyBox_keeps (q : KeepArgs) (s : State) (f : Nat) (m : RMsg) (ps : List (Nat × Nat)) (h : Keep q s) : Keep q
    (applyBox s f m ps) := by
  unfold applyBox
  repeat' with_reducible
    first
    | assumption | apply addAtom_keeps | intro _ | split | simp only [keep_mk, keep_fold, id_eq]

theorem applyMem_keeps (q : KeepArgs) (s : State) (f : Nat) (m : RMsg) (h : Keep q s) : Keep q (applyMem s f m) := by
  unfold applyMem
  repeat' with_reducible
    first
    | assumption | apply applyBox_keeps | apply tenStore_keeps | apply sendEack_keeps | apply addXfer_keeps
    | apply keep_foldl | intro _ | split | simp only [keep_mk, keep_fold, id_eq]

theorem freeCopy_keeps (q : KeepArgs) (s : State) (snode : Nat) (mtag : Nat) (h : Keep q s) : Keep q (freeCopy s snode mtag)
    := by
  unfold freeCopy
  repeat' with_reducible
    first
    | assumption | intro _ | split | simp only [keep_mk, keep_fold, id_eq]

theorem setDedup_keeps (q : KeepArgs) (s : State) (n : Nat) (w : Dedup) (h : Keep q s) : Keep q (setDedup s n w) := by
  unfold setDedup
  repeat' with_reducible
    first
    | assumption | intro _ | split | simp only [keep_mk, keep_fold, id_eq]

theorem dropRmsg_keeps (q : KeepArgs) (s : State) (m : RMsg) (h : Keep q s) : Keep q (dropRmsg s m) := by
  unfold dropRmsg
  repeat' with_reducible
    first
    | assumption | apply sendEack_keeps | apply bump_keeps | intro _ | split | simp only [keep_mk, keep_fold, id_eq]

theorem applySlot_keeps (q : KeepArgs) (s : State) (f : Nat) (m : RMsg) (h : Keep q s) : Keep q (applySlot s f m) := by
  unfold applySlot
  repeat' with_reducible
    first
    | assumption | apply addXfer_keeps | intro _ | split | simp only [keep_mk, keep_fold, id_eq]

theorem applyRmsg_keeps (q : KeepArgs) (s : State) (m : RMsg) (h : Keep q s) : Keep q (applyRmsg s m) := by
  unfold applyRmsg
  repeat' with_reducible
    first
    | assumption | apply dropRmsg_keeps | apply applyMem_keeps | apply applyAtom_keeps | apply applySlot_keeps | intro _
    | split | simp only [keep_mk, keep_fold, id_eq]

theorem judgeRmsg_keeps (q : KeepArgs) (s : State) (snode : Nat) (m : RMsg) (h : Keep q s) : Keep q (judgeRmsg s snode m) := by
  unfold judgeRmsg
  repeat' with_reducible
    first
    | assumption | apply bump_keeps | apply sendEack_keeps | apply setDedup_keeps | apply applyRmsg_keeps | intro _ | split
    | simp only [keep_mk, keep_fold, id_eq]

theorem doDeliver_keeps (q : KeepArgs) (snode : Nat) (mtag : Nat) (s : State) (h : Keep q s) : Keep q (doDeliver snode mtag
    s) := by
  unfold doDeliver
  repeat' with_reducible
    first
    | assumption | apply bump_keeps | apply freeCopy_keeps | apply judgeRmsg_keeps | intro _ | split
    | simp only [keep_mk, keep_fold, id_eq]

theorem execMessageDeliver_keeps (q : KeepArgs) (snode : Nat) (mtag : Nat) (s : State) (h : Keep q s) : ∀ u,
    (execMessageDeliver snode mtag s) = .next u → Keep q u := by
  intro u hu; unfold execMessageDeliver at hu; refine hubCmd_keeps q _ _ ?_ h _ hu
  repeat' with_reducible
    first
    | assumption | apply doDeliver_keeps | intro _ | split | simp only [keep_mk, keep_fold, id_eq]

theorem doReassemblyStart_keeps (q : KeepArgs) (n : Nat) (s : State) (h : Keep q s) : Keep q (doReassemblyStart n s) := by
  unfold doReassemblyStart
  repeat' with_reducible
    first
    | assumption | apply modPort_keeps | apply drain_keeps | apply oweCredit_keeps | apply startCopy_keeps | intro _
    | split | simp only [keep_mk, keep_fold, id_eq]

theorem execReassemblyStart_keeps (q : KeepArgs) (n : Nat) (s : State) (h : Keep q s) : ∀ u, (execReassemblyStart n s) =
    .next u → Keep q u := by
  intro u hu; unfold execReassemblyStart at hu; refine portCmd_keeps q _ _ _ ?_ h _ hu
  repeat' with_reducible
    first
    | assumption | apply doReassemblyStart_keeps | intro _ | split | simp only [keep_mk, keep_fold, id_eq]

theorem execReassemblyTimeout_keeps (q : KeepArgs) (snode : Nat) (mtag : Nat) (s : State) (h : Keep q s) : ∀ u,
    (execReassemblyTimeout snode mtag s) = .next u → Keep q u := by
  intro u hu; unfold execReassemblyTimeout at hu; refine hubCmd_keeps q _ _ ?_ h _ hu
  repeat' with_reducible
    first
    | assumption | apply freeCopy_keeps | intro _ | split | simp only [keep_mk, keep_fold, id_eq]

theorem cwCmd_keeps (q : KeepArgs) (s : State) (p : Nat) (g : State → State) (h_g : ∀ (y0 : State), Keep q y0 → Keep q (g
    y0)) (h : Keep q s) : ∀ u, (cwCmd s p g) = .next u → Keep q u := by
  intro u hu; unfold cwCmd at hu; refine physCmd_keeps q _ _ _ ?_ h _ hu
  repeat' with_reducible
    first
    | assumption | apply h_g | intro _ | split | simp only [keep_mk, keep_fold, id_eq]

theorem doReleaseScrub_keeps (q : KeepArgs) (s : State) (h : Keep q s) : Keep q (doReleaseScrub s) := by
  unfold doReleaseScrub
  repeat' with_reducible
    first
    | assumption | apply physZero_keeps | apply memAsk_keeps | intro _ | split | simp only [keep_mk, keep_fold, id_eq]

theorem execReleaseScrubDone_keeps (q : KeepArgs) (s : State) (h : Keep q s) : ∀ u, (execReleaseScrubDone s) = .next u → Keep
    q u := by
  intro u hu; unfold execReleaseScrubDone at hu; refine hubCmd_keeps q _ _ ?_ h _ hu
  repeat' with_reducible
    first
    | assumption | apply doReleaseScrub_keeps | intro _ | split | simp only [keep_mk, keep_fold, id_eq]

theorem doStackTemp_keeps (q : KeepArgs) (k : Nat) (t : Int) (s : State) (h : Keep q s) : Keep q (doStackTemp k t s) := by
  unfold doStackTemp
  repeat' with_reducible
    first
    | assumption | apply modStack_keeps | apply causeShut_keeps | intro _ | split | simp only [keep_mk, keep_fold, id_eq]

theorem execStackTempRead_keeps (q : KeepArgs) (k : Nat) (t : Int) (s : State) (h : Keep q s) : ∀ u, (execStackTempRead k t
    s) = .next u → Keep q u := by
  intro u hu; unfold execStackTempRead at hu; refine stackCmd_keeps q _ _ _ ?_ h _ hu
  repeat' with_reducible
    first
    | assumption | apply doStackTemp_keeps | intro _ | split | simp only [keep_mk, keep_fold, id_eq]

theorem widely_keeps (q : KeepArgs) (s : State) (code : Nat) (clu : Nat) (detail : Nat) (fs : List Nat) (rs : List Nat) (h :
    Keep q s) : Keep q (widely s code clu detail fs rs) := by
  unfold widely
  repeat' with_reducible
    first
    | assumption | apply degradeAll_keeps | apply addReport_keeps | apply keep_foldl | intro _ | split
    | simp only [keep_mk, keep_fold, id_eq]

theorem stackFails_keeps (q : KeepArgs) (s : State) (k : Nat) (h : Keep q s) : Keep q (stackFails s k) := by
  unfold stackFails
  repeat' with_reducible
    first
    | assumption | apply storeHeld_keeps | apply modStack_keeps | apply widely_keeps | intro _ | split
    | simp only [keep_mk, keep_fold, id_eq]

theorem execStackFail_keeps (q : KeepArgs) (k : Nat) (s : State) (h : Keep q s) : ∀ u, (execStackFail k s) = .next u → Keep q
    u := by
  intro u hu; unfold execStackFail at hu; refine stackCmd_keeps q _ _ _ ?_ h _ hu
  repeat' with_reducible
    first
    | assumption | apply stackFails_keeps | intro _ | split | simp only [keep_mk, keep_fold, id_eq]

theorem doStackRetrain_keeps (q : KeepArgs) (k : Nat) (s : State) (h : Keep q s) : Keep q (doStackRetrain k s) := by
  unfold doStackRetrain
  repeat' with_reducible
    first
    | assumption | apply modStack_keeps | intro _ | split | simp only [keep_mk, keep_fold, id_eq]

theorem execStackRetrain_keeps (q : KeepArgs) (k : Nat) (s : State) (h : Keep q s) : ∀ u, (execStackRetrain k s) = .next u →
    Keep q u := by
  intro u hu; unfold execStackRetrain at hu; refine stackCmd_keeps q _ _ _ ?_ h _ hu
  repeat' with_reducible
    first
    | assumption | apply doStackRetrain_keeps | intro _ | split | simp only [keep_mk, keep_fold, id_eq]

theorem doRetrained_keeps (q : KeepArgs) (k : Nat) (ok : Bool) (lanes : List (Nat × Bool × Nat)) (s : State) (h : Keep q s) :
    Keep q (doRetrained k ok lanes s) := by
  unfold doRetrained
  repeat' with_reducible
    first
    | assumption | apply storeHeld_keeps | apply modStack_keeps | apply flushRing_keeps | apply stackFails_keeps
    | apply keep_foldl | intro _ | split | simp only [keep_mk, keep_fold, id_eq]

theorem doSaveWrite_keeps (q : KeepArgs) (v : Nat) (s : State) (h : Keep q s) : Keep q (doSaveWrite v s) := by
  unfold doSaveWrite
  repeat' with_reducible
    first
    | assumption | apply setReg_keeps | apply markSet_keeps | intro _ | split | simp only [keep_mk, keep_fold, id_eq]

theorem execSaveAreaWrite_keeps (q : KeepArgs) (v : Nat) (s : State) (h : Keep q s) : ∀ u, (execSaveAreaWrite v s) = .next u
    → Keep q u := by
  intro u hu; unfold execSaveAreaWrite at hu; refine hubCmd_keeps q _ _ ?_ h _ hu
  repeat' with_reducible
    first
    | assumption | apply doSaveWrite_keeps | intro _ | split | simp only [keep_mk, keep_fold, id_eq]

theorem doPrioWrite_keeps (q : KeepArgs) (v : Nat) (s : State) (h : Keep q s) : Keep q (doPrioWrite v s) := by
  unfold doPrioWrite
  repeat' with_reducible
    first
    | assumption | apply setReg_keeps | intro _ | split | simp only [keep_mk, keep_fold, id_eq]

theorem execStackRetrainDone_keeps (q : KeepArgs) (k : Nat) (ok : Bool) (lanes : List (Nat × Bool × Nat)) (s : State) (h :
    Keep q s) : ∀ u, (execStackRetrainDone k ok lanes s) = .next u → Keep q u := by
  intro u hu; unfold execStackRetrainDone at hu; refine stackCmd_keeps q _ _ _ ?_ h _ hu
  repeat' with_reducible
    first
    | assumption | apply doRetrained_keeps | intro _ | split | simp only [keep_mk, keep_fold, id_eq]

theorem doPatrol_keeps (q : KeepArgs) (cw : Nat) (s : State) (h : Keep q s) : Keep q (doPatrol cw s) := by
  unfold doPatrol
  repeat' with_reducible
    first
    | assumption | apply cwRead_keeps | apply memAsk_keeps | apply storeCw_keeps | apply keepV_spad | apply keepV_wst
    | apply keepV_dev | apply keepV_host | apply keepV_rt | intro _ | refine keep_ofPair (by assumption) ?_ | split
    | simp only [keep_mk, keep_fold, id_eq]

theorem execPatrolRead_keeps (q : KeepArgs) (p : Nat) (s : State) (h : Keep q s) : ∀ u, (execPatrolRead p s) = .next u → Keep
    q u := by
  intro u hu; unfold execPatrolRead at hu; refine cwCmd_keeps q _ _ _ ?_ h _ hu
  repeat' with_reducible
    first
    | assumption | apply doPatrol_keeps | intro _ | split | simp only [keep_mk, keep_fold, id_eq]

theorem scrubAdd_keeps (q : KeepArgs) (s : State) (p : Nat) (n : Nat) (h : Keep q s) : Keep q (scrubAdd s p n) := by
  unfold scrubAdd
  repeat' with_reducible
    first
    | assumption | intro _ | split | simp only [keep_mk, keep_fold, id_eq]

theorem execCodewordWrite_keeps (q : KeepArgs) (p : Nat) (data : List Byte) (poison : Bool) (s : State) (h : Keep q s) : ∀ u,
    (execCodewordWrite p data poison s) = .next u → Keep q u := by
  intro u hu; unfold execCodewordWrite at hu; refine cwCmd_keeps q _ _ _ ?_ h _ hu
  repeat' with_reducible
    first
    | assumption | apply physWrite_keeps | intro _ | split | simp only [keep_mk, keep_fold, id_eq]

theorem execCodewordRead_keeps (q : KeepArgs) (p : Nat) (s : State) (h : Keep q s) : ∀ u, (execCodewordRead p s) = .next u →
    Keep q u := by
  intro u hu; unfold execCodewordRead at hu; refine cwCmd_keeps q _ _ _ ?_ h _ hu
  repeat' with_reducible
    first
    | assumption | apply physRead_keeps | intro _ | refine keep_ofPair (by assumption) ?_ | split
    | simp only [keep_mk, keep_fold, id_eq]

theorem execPartialWrite_keeps (q : KeepArgs) (p : Nat) (data : List Byte) (poison : Bool) (s : State) (h : Keep q s) : ∀ u,
    (execPartialWrite p data poison s) = .next u → Keep q u := by
  intro u hu; unfold execPartialWrite at hu; refine cwCmd_keeps q _ _ _ ?_ h _ hu
  repeat' with_reducible
    first
    | assumption | apply physWrite_keeps | intro _ | split | simp only [keep_mk, keep_fold, id_eq]

theorem execPrioWrite_keeps (q : KeepArgs) (v : Nat) (s : State) (h : Keep q s) : ∀ u, (execPrioWrite v s) = .next u → Keep q
    u := by
  intro u hu; unfold execPrioWrite at hu; refine hubCmd_keeps q _ _ ?_ h _ hu
  repeat' with_reducible
    first
    | assumption | apply doPrioWrite_keeps | intro _ | split | simp only [keep_mk, keep_fold, id_eq]

theorem fencePanels_keeps (q : KeepArgs) (s : State) (c : Nat) (b : Nat) (n : Nat) (h : Keep q s) : Keep q (fencePanels s c b
    n) := by
  unfold fencePanels
  repeat' with_reducible
    first
    | assumption | apply modClu_keeps | intro _ | split | simp only [keep_mk, keep_fold, id_eq]

theorem fencePart_keeps (q : KeepArgs) (c : Nat) (sl : Nat) (s : State) (h : Keep q s) : Keep q (fencePart c sl s) := by
  unfold fencePart
  repeat' with_reducible
    first
    | assumption | apply fencePanels_keeps | apply modSlot_keeps | intro _ | split | simp only [keep_mk, keep_fold, id_eq]

theorem zeroPanels_keeps (q : KeepArgs) (s : State) (c : Nat) (b : Nat) (n : Nat) (h : Keep q s) : Keep q (zeroPanels s c b
    n) := by
  unfold zeroPanels
  repeat' with_reducible
    first
    | assumption | apply keepV_spadZero | apply keepV_wstZero | apply keepV_devZero | apply keepV_spDrop
    | apply keepV_seDrop | apply keepV_weDrop | apply keepV_dpDrop | apply keepV_deDrop | intro _ | split
    | simp only [keep_mk, keep_fold, id_eq]

theorem doKvInval_keeps (q : KeepArgs) (f : Nat) (c : Nat) (mask : Nat) (s : State) (h : Keep q s) : Keep q (doKvInval f c
    mask s) := by
  unfold doKvInval
  repeat' with_reducible
    first
    | assumption | apply dropLb_keeps | intro _ | split | simp only [keep_mk, keep_fold, id_eq]

theorem execKvInval_keeps (q : KeepArgs) (f : Nat) (c : Nat) (mask : Nat) (s : State) (h : Keep q s) : ∀ u, (execKvInval f c
    mask s) = .next u → Keep q u := by
  intro u hu; unfold execKvInval at hu; refine cluCmd_keeps q _ _ _ ?_ h _ hu
  repeat' with_reducible
    first
    | assumption | apply doKvInval_keeps | intro _ | split | simp only [keep_mk, keep_fold, id_eq]

theorem doLinesFree_keeps (q : KeepArgs) (c : Nat) (ent : Nat) (s : State) (h : Keep q s) : Keep q (doLinesFree c ent s) := by
  unfold doLinesFree
  repeat' with_reducible
    first
    | assumption | apply modClu_keeps | apply putTile_keeps | apply keep_foldl | apply keepV_weDel | intro _ | split
    | simp only [keep_mk, keep_fold, id_eq]

theorem doScrub_keeps (q : KeepArgs) (c : Nat) (s : State) (h : Keep q s) : Keep q (doScrub c s) := by
  unfold doScrub
  repeat' with_reducible
    first
    | assumption | apply modClu_keeps | apply zeroPanels_keeps | intro _ | split | simp only [keep_mk, keep_fold, id_eq]

theorem execScrubDone_keeps (q : KeepArgs) (c : Nat) (s : State) (h : Keep q s) : ∀ u, (execScrubDone c s) = .next u → Keep q
    u := by
  intro u hu; unfold execScrubDone at hu; refine cluRun_keeps q _ _ _ ?_ h _ hu
  repeat' with_reducible
    first
    | assumption | apply doScrub_keeps | intro _ | split | simp only [keep_mk, keep_fold, id_eq]

theorem doSeedWrite_keeps (q : KeepArgs) (f : Nat) (c : Nat) (sl : Nat) (v : Nat) (s : State) (h : Keep q s) : Keep q
    (doSeedWrite f c sl v s) := by
  unfold doSeedWrite
  repeat' with_reducible
    first
    | assumption | apply modSlot_keeps | apply ephPut_keeps | intro _ | split | simp only [keep_mk, keep_fold, id_eq]

theorem execPartitionFence_keeps (q : KeepArgs) (c : Nat) (sl : Nat) (s : State) (h : Keep q s) : ∀ u, (execPartitionFence c
    sl s) = .next u → Keep q u := by
  intro u hu; unfold execPartitionFence at hu; refine slotCmd_keeps q _ _ _ _ ?_ h _ hu
  repeat' with_reducible
    first
    | assumption | apply fencePart_keeps | intro _ | split | simp only [keep_mk, keep_fold, id_eq]

theorem dropSends_keeps (q : KeepArgs) (s : State) (c : Nat) (sl : Nat) (h : Keep q s) : Keep q (dropSends s c sl) := by
  unfold dropSends
  repeat' with_reducible
    first
    | assumption | intro _ | split | simp only [keep_mk, keep_fold, id_eq]

theorem releaseSlot_keeps (q : KeepArgs) (s : State) (c : Nat) (sl : Nat) (h : Keep q s) : Keep q (releaseSlot s c sl) := by
  unfold releaseSlot
  repeat' with_reducible
    first
    | assumption | apply modClu_keeps | apply dropSends_keeps | apply setReg_keeps | apply modSlot_keeps | intro _ | split
    | simp only [keep_mk, keep_fold, id_eq]

theorem execSeedWrite_keeps (q : KeepArgs) (f : Nat) (c : Nat) (sl : Nat) (v : Nat) (s : State) (h : Keep q s) : ∀ u,
    (execSeedWrite f c sl v s) = .next u → Keep q u := by
  intro u hu; unfold execSeedWrite at hu; refine slotCmd_keeps q _ _ _ _ ?_ h _ hu
  repeat' with_reducible
    first
    | assumption | apply doSeedWrite_keeps | intro _ | split | simp only [keep_mk, keep_fold, id_eq]

theorem doStormEnd_keeps (q : KeepArgs) (c : Nat) (s : State) (h : Keep q s) : Keep q (doStormEnd c s) := by
  unfold doStormEnd
  repeat' with_reducible
    first
    | assumption | apply bumpC_keeps | apply modClu_keeps | intro _ | split | simp only [keep_mk, keep_fold, id_eq]

theorem doSeedApply_keeps (q : KeepArgs) (c : Nat) (sl : Nat) (s : State) (h : Keep q s) : Keep q (doSeedApply c sl s) := by
  unfold doSeedApply
  repeat' with_reducible
    first
    | assumption | apply modSlot_keeps | intro _ | split | simp only [keep_mk, keep_fold, id_eq]

theorem execSeedApply_keeps (q : KeepArgs) (c : Nat) (sl : Nat) (s : State) (h : Keep q s) : ∀ u, (execSeedApply c sl s) =
    .next u → Keep q u := by
  intro u hu; unfold execSeedApply at hu; refine slotCmd_keeps q _ _ _ _ ?_ h _ hu
  repeat' with_reducible
    first
    | assumption | apply doSeedApply_keeps | intro _ | split | simp only [keep_mk, keep_fold, id_eq]

theorem doPrecWrite_keeps (q : KeepArgs) (f : Nat) (c : Nat) (v : Nat) (s : State) (h : Keep q s) : Keep q (doPrecWrite f c v
    s) := by
  unfold doPrecWrite
  repeat' with_reducible
    first
    | assumption | apply modClu_keeps | apply setReg_keeps | intro _ | split | simp only [keep_mk, keep_fold, id_eq]

theorem execStormWindowEnd_keeps (q : KeepArgs) (c : Nat) (s : State) (h : Keep q s) : ∀ u, (execStormWindowEnd c s) = .next
    u → Keep q u := by
  intro u hu; unfold execStormWindowEnd at hu; refine cluCmd_keeps q _ _ _ ?_ h _ hu
  repeat' with_reducible
    first
    | assumption | apply doStormEnd_keeps | intro _ | split | simp only [keep_mk, keep_fold, id_eq]

theorem execGatherWriteback_keeps (q : KeepArgs) (c : Nat) (word : Nat) (s : State) (h : Keep q s) : ∀ u,
    (execGatherWriteback c word s) = .next u → Keep q u := by
  intro u hu; unfold execGatherWriteback at hu; (try simp only [] at hu); (repeat' split at hu) <;> first | (cases hu <;> ((repeat' with_reducible first | assumption | apply writeBack_keeps | intro _ | split | simp only [keep_mk, keep_fold, id_eq]); done)) | (refine cluRun_keeps q _ _ _ ?_ ?_ _ hu <;> ((repeat' with_reducible first | assumption | apply writeBack_keeps | intro _ | split | simp only [keep_mk, keep_fold, id_eq]); done))

theorem execAccordLinesFree_keeps (q : KeepArgs) (c : Nat) (ent : Nat) (s : State) (h : Keep q s) : ∀ u, (execAccordLinesFree
    c ent s) = .next u → Keep q u := by
  intro u hu; unfold execAccordLinesFree at hu; refine cluCmd_keeps q _ _ _ ?_ h _ hu
  repeat' with_reducible
    first
    | assumption | apply doLinesFree_keeps | intro _ | split | simp only [keep_mk, keep_fold, id_eq]

theorem execPrecCtlWrite_keeps (q : KeepArgs) (f : Nat) (c : Nat) (v : Nat) (s : State) (h : Keep q s) : ∀ u,
    (execPrecCtlWrite f c v s) = .next u → Keep q u := by
  intro u hu; unfold execPrecCtlWrite at hu; refine cluCmd_keeps q _ _ _ ?_ h _ hu
  repeat' with_reducible
    first
    | assumption | apply doPrecWrite_keeps | intro _ | split | simp only [keep_mk, keep_fold, id_eq]

theorem faultSlots_keeps (q : KeepArgs) (s : State) (c : Nat) (h : Keep q s) : Keep q (faultSlots s c) := by
  unfold faultSlots
  repeat' with_reducible
    first
    | assumption | apply haltFaulted_keeps | apply keep_foldl | intro _ | split | simp only [keep_mk, keep_fold, id_eq]

theorem fenceClu_keeps (q : KeepArgs) (s : State) (c : Nat) (h : Keep q s) : Keep q (fenceClu s c) := by
  unfold fenceClu
  repeat' with_reducible
    first
    | assumption | apply modClu_keeps | apply faultSlots_keeps | intro _ | split | simp only [keep_mk, keep_fold, id_eq]

theorem loseSlice_keeps (q : KeepArgs) (s : State) (c : Nat) (l : Nat) (core : Nat) (h : Keep q s) : Keep q (loseSlice s c l
    core) := by
  unfold loseSlice
  repeat' with_reducible
    first
    | assumption | apply opFaultAt_keeps | apply modClu_keeps | apply keep_foldl | apply keepV_spDrop | apply keepV_seDrop
    | apply keepV_weDrop | apply keepV_dpDrop | apply keepV_deDrop | intro _ | split | simp only [keep_mk, keep_fold, id_eq]

theorem markItems_keeps (q : KeepArgs) (s : State) (ids : List Nat) (h : Keep q s) : Keep q (markItems s ids) := by
  unfold markItems
  repeat' with_reducible
    first
    | assumption | apply modItem_keeps | apply keep_foldl | intro _ | split | simp only [keep_mk, keep_fold, id_eq]

theorem loseCluster_keeps (q : KeepArgs) (s : State) (c : Nat) (h : Keep q s) : Keep q (loseCluster s c) := by
  unfold loseCluster
  repeat' with_reducible
    first
    | assumption | apply modClu_keeps | apply widely_keeps | apply faultSlots_keeps | intro _ | split
    | simp only [keep_mk, keep_fold, id_eq]

theorem loseCore_keeps (q : KeepArgs) (s : State) (c : Nat) (p : Nat) (eng : Nat) (lane : Nat) (h : Keep q s) : Keep q
    (loseCore s c p eng lane) := by
  unfold loseCore
  repeat' with_reducible
    first
    | assumption | apply modClu_keeps | apply loseSlice_keeps | apply degradeAll_keeps | apply loseCluster_keeps | intro _
    | split | simp only [keep_mk, keep_fold, id_eq]

theorem fenceDie_keeps (q : KeepArgs) (s : State) (d : Nat) (h : Keep q s) : Keep q (fenceDie s d) := by
  unfold fenceDie
  repeat' with_reducible
    first
    | assumption | apply fenceClu_keeps | apply stackFails_keeps | apply widely_keeps | apply keep_foldl | intro _ | split
    | simp only [keep_mk, keep_fold, id_eq]

theorem execDieFence_keeps (q : KeepArgs) (d : Nat) (s : State) (h : Keep q s) : ∀ u, (execDieFence d s) = .next u → Keep q u
    := by
  intro u hu; unfold execDieFence at hu; (try simp only [] at hu); (repeat' split at hu) <;> first | (cases hu <;> ((repeat' with_reducible first | assumption | apply fenceDie_keeps | intro _ | split | simp only [keep_mk, keep_fold, id_eq]); done)) | (refine hubCmd_keeps q _ _ ?_ ?_ _ hu <;> ((repeat' with_reducible first | assumption | apply fenceDie_keeps | intro _ | split | simp only [keep_mk, keep_fold, id_eq]); done))

theorem writeReport_keeps (q : KeepArgs) (s : State) (r : Report) (h : Keep q s) : Keep q (writeReport s r) := by
  unfold writeReport
  repeat' with_reducible
    first
    | assumption | apply writeFault_keeps | apply markItems_keeps | intro _ | split | simp only [keep_mk, keep_fold, id_eq]

theorem doRecordWrite_keeps (q : KeepArgs) (f : Nat) (s : State) (h : Keep q s) : Keep q (doRecordWrite f s) := by
  unfold doRecordWrite
  repeat' with_reducible
    first
    | assumption | apply writeReport_keeps | intro _ | split | simp only [keep_mk, keep_fold, id_eq]

theorem execFaultRecordWrite_keeps (q : KeepArgs) (f : Nat) (s : State) (h : Keep q s) : ∀ u, (execFaultRecordWrite f s) =
    .next u → Keep q u := by
  intro u hu; unfold execFaultRecordWrite at hu; refine funcCmd_keeps q _ _ _ ?_ h _ hu
  repeat' with_reducible
    first
    | assumption | apply doRecordWrite_keeps | intro _ | split | simp only [keep_mk, keep_fold, id_eq]

theorem doDieFcmd_keeps (q : KeepArgs) (v : Nat) (s : State) (h : Keep q s) : Keep q (doDieFcmd v s) := by
  unfold doDieFcmd
  repeat' with_reducible
    first
    | assumption | apply markSet_keeps | apply fenceDie_keeps | intro _ | split | simp only [keep_mk, keep_fold, id_eq]

theorem execDieFenceCmd_keeps (q : KeepArgs) (v : Nat) (s : State) (h : Keep q s) : ∀ u, (execDieFenceCmd v s) = .next u →
    Keep q u := by
  intro u hu; unfold execDieFenceCmd at hu; refine hubCmd_keeps q _ _ ?_ h _ hu
  repeat' with_reducible
    first
    | assumption | apply doDieFcmd_keeps | intro _ | split | simp only [keep_mk, keep_fold, id_eq]

theorem execCoreLost_keeps (q : KeepArgs) (c : Nat) (core : Nat) (eng : Nat) (lane : Nat) (s : State) (h : Keep q s) : ∀ u,
    (execCoreLost c core eng lane s) = .next u → Keep q u := by
  intro u hu; unfold execCoreLost at hu; (try simp only [] at hu); (repeat' split at hu) <;> first | (cases hu <;> ((repeat' with_reducible first | assumption | apply loseCore_keeps | intro _ | split | simp only [keep_mk, keep_fold, id_eq]); done)) | (refine cluCmd_keeps q _ _ _ ?_ ?_ _ hu <;> ((repeat' with_reducible first | assumption | apply loseCore_keeps | intro _ | split | simp only [keep_mk, keep_fold, id_eq]); done))

theorem execCoreHeartbeatSample_keeps (q : KeepArgs) (c : Nat) (missed : List Nat) (s : State) (h : Keep q s) : ∀ u,
    (execCoreHeartbeatSample c missed s) = .next u → Keep q u := by
  intro u hu; unfold execCoreHeartbeatSample at hu; refine cluRun_keeps q _ _ _ ?_ h _ hu
  repeat' with_reducible
    first
    | assumption | apply loseCore_keeps | apply keep_foldl | intro _ | split | simp only [keep_mk, keep_fold, id_eq]

theorem doClusterLost_keeps (q : KeepArgs) (c : Nat) (s : State) (h : Keep q s) : Keep q (doClusterLost c s) := by
  unfold doClusterLost
  repeat' with_reducible
    first
    | assumption | apply loseCluster_keeps | apply modClu_keeps | intro _ | split | simp only [keep_mk, keep_fold, id_eq]

theorem doRgnAbort_keeps (q : KeepArgs) (f : Nat) (v : Nat) (s : State) (h : Keep q s) : Keep q (doRgnAbort f v s) := by
  unfold doRgnAbort
  repeat' with_reducible
    first
    | assumption | apply degradeRegion_keeps | intro _ | split | simp only [keep_mk, keep_fold, id_eq]

theorem execRgnAbort_keeps (q : KeepArgs) (f : Nat) (v : Nat) (s : State) (h : Keep q s) : ∀ u, (execRgnAbort f v s) = .next
    u → Keep q u := by
  intro u hu; unfold execRgnAbort at hu; refine funcCmd_keeps q _ _ _ ?_ h _ hu
  repeat' with_reducible
    first
    | assumption | apply doRgnAbort_keeps | intro _ | split | simp only [keep_mk, keep_fold, id_eq]

theorem execClusterLost_keeps (q : KeepArgs) (c : Nat) (s : State) (h : Keep q s) : ∀ u, (execClusterLost c s) = .next u →
    Keep q u := by
  intro u hu; unfold execClusterLost at hu; refine cluCmd_keeps q _ _ _ ?_ h _ hu
  repeat' with_reducible
    first
    | assumption | apply doClusterLost_keeps | intro _ | split | simp only [keep_mk, keep_fold, id_eq]

theorem doGrantApply_keeps (q : KeepArgs) (s : State) (h : Keep q s) : Keep q (doGrantApply s) := by
  unfold doGrantApply
  repeat' with_reducible
    first
    | assumption | apply keep_foldl | apply keepV_spPut | apply keepV_sePut | apply keepV_dpPut | apply keepV_dePut
    | intro _ | split | simp only [keep_mk, keep_fold, id_eq]

theorem execGrantApply_keeps (q : KeepArgs) (s : State) (h : Keep q s) : ∀ u, (execGrantApply s) = .next u → Keep q u := by
  intro u hu; unfold execGrantApply at hu; refine hubCmd_keeps q _ _ ?_ h _ hu
  repeat' with_reducible
    first
    | assumption | apply doGrantApply_keeps | intro _ | split | simp only [keep_mk, keep_fold, id_eq]

theorem doShareWrite_keeps (q : KeepArgs) (c : Nat) (v : Bool) (s : State) (h : Keep q s) : Keep q (doShareWrite c v s) := by
  unfold doShareWrite
  repeat' with_reducible
    first
    | assumption | apply modClu_keeps | intro _ | split | simp only [keep_mk, keep_fold, id_eq]

theorem execShareWrite_keeps (q : KeepArgs) (c : Nat) (v : Bool) (s : State) (h : Keep q s) : ∀ u, (execShareWrite c v s) =
    .next u → Keep q u := by
  intro u hu; unfold execShareWrite at hu; refine cluCmd_keeps q _ _ _ ?_ h _ hu
  repeat' with_reducible
    first
    | assumption | apply doShareWrite_keeps | intro _ | split | simp only [keep_mk, keep_fold, id_eq]

theorem doGrantWrite_keeps (q : KeepArgs) (g : Nat) (v : Nat) (s : State) (h : Keep q s) : Keep q (doGrantWrite g v s) := by
  unfold doGrantWrite
  repeat' with_reducible
    first
    | assumption | apply markSet_keeps | intro _ | split | simp only [keep_mk, keep_fold, id_eq]

theorem execGrantWrite_keeps (q : KeepArgs) (g : Nat) (v : Nat) (s : State) (h : Keep q s) : ∀ u, (execGrantWrite g v s) =
    .next u → Keep q u := by
  intro u hu; unfold execGrantWrite at hu; (try simp only [] at hu); (repeat' split at hu) <;> first | (cases hu <;> ((repeat' with_reducible first | assumption | apply doGrantWrite_keeps | intro _ | split | simp only [keep_mk, keep_fold, id_eq]); done)) | (refine hubCmd_keeps q _ _ ?_ ?_ _ hu <;> ((repeat' with_reducible first | assumption | apply doGrantWrite_keeps | intro _ | split | simp only [keep_mk, keep_fold, id_eq]); done))

theorem doRsvWrite_keeps (q : KeepArgs) (v : Nat) (s : State) (h : Keep q s) : Keep q (doRsvWrite v s) := by
  unfold doRsvWrite
  repeat' with_reducible
    first
    | assumption | apply markSet_keeps | intro _ | split | simp only [keep_mk, keep_fold, id_eq]

theorem execRsvCountWrite_keeps (q : KeepArgs) (v : Nat) (s : State) (h : Keep q s) : ∀ u, (execRsvCountWrite v s) = .next u
    → Keep q u := by
  intro u hu; unfold execRsvCountWrite at hu; refine hubCmd_keeps q _ _ ?_ h _ hu
  repeat' with_reducible
    first
    | assumption | apply doRsvWrite_keeps | intro _ | split | simp only [keep_mk, keep_fold, id_eq]

theorem holdQueues_keeps (q : KeepArgs) (s : State) (f : Nat) (h : Keep q s) : Keep q (holdQueues s f) := by
  unfold holdQueues
  repeat' with_reducible
    first
    | assumption | intro _ | split | simp only [keep_mk, keep_fold, id_eq]

theorem copyMove_keeps (q : KeepArgs) (s : State) (i : Item) (n : Nat) (h : Keep q s) : Keep q (copyMove s i n).1 := by
  unfold copyMove; simp only []
  split
  · exact h
  · rename_i s' bs poi he
    have h1 : Keep q s' := by
      split at he
      · cases he; exact h
      · exact tenRead_keeps q _ _ _ _ _ h _ _ he
    repeat' with_reducible
      first
      | assumption | apply hostWrite_keeps | apply tenStore_keeps | split

theorem copyStop_keeps (q : KeepArgs) (s : State) (i : Item) (h : Keep q s) : Keep q (copyStop s i) := by
  unfold copyStop
  repeat' with_reducible
    first
    | assumption | apply copyMove_keeps | apply stepFresh_keeps | apply complete_keeps | apply modItem_keeps | intro _
    | refine keep_ofPair (by assumption) ?_ | split | simp only [keep_mk, keep_fold, id_eq]

theorem stopCopies_keeps (q : KeepArgs) (s : State) (f : Nat) (h : Keep q s) : Keep q (stopCopies s f) := by
  unfold stopCopies
  repeat' with_reducible
    first
    | assumption | apply copyStop_keeps | apply keep_foldl | intro _ | split | simp only [keep_mk, keep_fold, id_eq]

theorem flushRings_keeps (q : KeepArgs) (s : State) (f : Nat) (h : Keep q s) : Keep q (flushRings s f) := by
  unfold flushRings
  repeat' with_reducible
    first
    | assumption | apply flushRing_keeps | apply keep_foldl | intro _ | split | simp only [keep_mk, keep_fold, id_eq]

theorem holdsChanged_keeps (q : KeepArgs) (s : State) (f : Nat) (was : Bool) (h : Keep q s) : Keep q (holdsChanged s f was)
    := by
  unfold holdsChanged
  repeat' with_reducible
    first
    | assumption | apply holdQueues_keeps | apply stopCopies_keeps | apply flushVecs_keeps | apply flushRings_keeps
    | intro _ | split | simp only [keep_mk, keep_fold, id_eq]

theorem doHbCtl_keeps (q : KeepArgs) (f : Nat) (v : Nat) (s : State) (h : Keep q s) : Keep q (doHbCtl f v s) := by
  unfold doHbCtl
  repeat' with_reducible
    first
    | assumption | apply setReg_keeps | apply modFunc_keeps | apply holdsChanged_keeps | intro _ | split
    | simp only [keep_mk, keep_fold, id_eq]

theorem execHeartbeatDisable_keeps (q : KeepArgs) (f : Nat) (s : State) (h : Keep q s) : ∀ u, (execHeartbeatDisable f s) =
    .next u → Keep q u := by
  intro u hu; unfold execHeartbeatDisable at hu; refine funcCmd_keeps q _ _ _ ?_ h _ hu
  repeat' with_reducible
    first
    | assumption | apply doHbCtl_keeps | intro _ | split | simp only [keep_mk, keep_fold, id_eq]

theorem doQueueEnable_keeps (q : KeepArgs) (f : Nat) (x1 : Nat) (s : State) (h : Keep q s) : Keep q (doQueueEnable f x1 s) := by
  unfold doQueueEnable
  repeat' with_reducible
    first
    | assumption | apply setReg_keeps | apply modQueue_keeps | intro _ | split | simp only [keep_mk, keep_fold, id_eq]

theorem doCqHead_keeps (q : KeepArgs) (f : Nat) (r : Nat) (v : Nat) (s : State) (h : Keep q s) : Keep q (doCqHead f r v s) := by
  unfold doCqHead
  repeat' with_reducible
    first
    | assumption | apply flushRing_keeps | apply modRing_keeps | intro _ | split | simp only [keep_mk, keep_fold, id_eq]

theorem execCqHeadWrite_keeps (q : KeepArgs) (f : Nat) (r : Nat) (v : Nat) (s : State) (h : Keep q s) : ∀ u, (execCqHeadWrite
    f r v s) = .next u → Keep q u := by
  intro u hu; unfold execCqHeadWrite at hu; refine queueCmd_keeps q _ _ _ _ ?_ h _ hu
  repeat' with_reducible
    first
    | assumption | apply doCqHead_keeps | intro _ | split | simp only [keep_mk, keep_fold, id_eq]

theorem doQueueDisable_keeps (q : KeepArgs) (f : Nat) (x1 : Nat) (s : State) (h : Keep q s) : Keep q (doQueueDisable f x1 s)
    := by
  unfold doQueueDisable
  repeat' with_reducible
    first
    | assumption | apply setReg_keeps | apply modQueue_keeps | intro _ | split | simp only [keep_mk, keep_fold, id_eq]

theorem execQueueEnable_keeps (q : KeepArgs) (f : Nat) (x1 : Nat) (s : State) (h : Keep q s) : ∀ u, (execQueueEnable f x1 s)
    = .next u → Keep q u := by
  intro u hu; unfold execQueueEnable at hu; refine queueCmd_keeps q _ _ _ _ ?_ h _ hu
  repeat' with_reducible
    first
    | assumption | apply doQueueEnable_keeps | intro _ | split | simp only [keep_mk, keep_fold, id_eq]

theorem dropBell_keeps (q : KeepArgs) (s : State) (f : Nat) (h : Keep q s) : Keep q (dropBell s f) := by
  unfold dropBell
  repeat' with_reducible
    first
    | assumption | apply bump_keeps | intro _ | split | simp only [keep_mk, keep_fold, id_eq]

theorem doTail_keeps (q : KeepArgs) (f : Nat) (x1 : Nat) (t : Nat) (s : State) (h : Keep q s) : Keep q (doTail f x1 t s) := by
  unfold doTail
  repeat' with_reducible
    first
    | assumption | apply modQueue_keeps | apply dropBell_keeps | intro _ | split | simp only [keep_mk, keep_fold, id_eq]

theorem execTailDoorbell_keeps (q : KeepArgs) (f : Nat) (x1 : Nat) (tail : Nat) (s : State) (h : Keep q s) : ∀ u,
    (execTailDoorbell f x1 tail s) = .next u → Keep q u := by
  intro u hu; unfold execTailDoorbell at hu; refine funcCmd_keeps q _ _ _ ?_ h _ hu
  repeat' with_reducible
    first
    | assumption | apply doTail_keeps | intro _ | split | simp only [keep_mk, keep_fold, id_eq]

theorem doCqEnable_keeps (q : KeepArgs) (f : Nat) (r : Nat) (s : State) (h : Keep q s) : Keep q (doCqEnable f r s) := by
  unfold doCqEnable
  repeat' with_reducible
    first
    | assumption | apply setReg_keeps | apply flushRing_keeps | apply modRing_keeps | intro _ | split
    | simp only [keep_mk, keep_fold, id_eq]

theorem execCqEnable_keeps (q : KeepArgs) (f : Nat) (r : Nat) (s : State) (h : Keep q s) : ∀ u, (execCqEnable f r s) = .next
    u → Keep q u := by
  intro u hu; unfold execCqEnable at hu; refine queueCmd_keeps q _ _ _ _ ?_ h _ hu
  repeat' with_reducible
    first
    | assumption | apply doCqEnable_keeps | intro _ | split | simp only [keep_mk, keep_fold, id_eq]

theorem doInline_keeps (q : KeepArgs) (f : Nat) (x1 : Nat) (d : List Byte) (s : State) (h : Keep q s) : Keep q (doInline f x1
    d s) := by
  unfold doInline
  repeat' with_reducible
    first
    | assumption | apply modQueue_keeps | apply dropBell_keeps | intro _ | split | simp only [keep_mk, keep_fold, id_eq]

theorem ringsInError_keeps (q : KeepArgs) (s : State) (f : Nat) (w : Window) (h : Keep q s) : Keep q (ringsInError s f w) := by
  unfold ringsInError
  repeat' with_reducible
    first
    | assumption | intro _ | split | simp only [keep_mk, keep_fold, id_eq]

theorem dropWindow_keeps (q : KeepArgs) (s : State) (f : Nat) (i : Nat) (h : Keep q s) : Keep q (dropWindow s f i) := by
  unfold dropWindow
  repeat' with_reducible
    first
    | assumption | apply modFunc_keeps | apply scrubAdd_keeps | apply ringsInError_keeps | apply keepV_weDel | intro _
    | split | simp only [keep_mk, keep_fold, id_eq]

theorem doPromote_keeps (q : KeepArgs) (f : Nat) (x1 : Nat) (s : State) (h : Keep q s) : Keep q (doPromote f x1 s) := by
  unfold doPromote
  repeat' with_reducible
    first
    | assumption | apply modQueue_keeps | intro _ | split | simp only [keep_mk, keep_fold, id_eq]

theorem execClassBPromotion_keeps (q : KeepArgs) (f : Nat) (x1 : Nat) (s : State) (h : Keep q s) : ∀ u, (execClassBPromotion
    f x1 s) = .next u → Keep q u := by
  intro u hu; unfold execClassBPromotion at hu; refine queueCmd_keeps q _ _ _ _ ?_ h _ hu
  repeat' with_reducible
    first
    | assumption | apply doPromote_keeps | intro _ | split | simp only [keep_mk, keep_fold, id_eq]

theorem aperCmd_keeps (q : KeepArgs) (s : State) (f : Nat) (a : Nat) (n : Nat) (g : State → State) (h_g : ∀ (y0 : State),
    Keep q y0 → Keep q (g y0)) (h : Keep q s) : ∀ u, (aperCmd s f a n g) = .next u → Keep q u := by
  intro u hu; unfold aperCmd at hu; (try simp only [] at hu); (repeat' split at hu) <;> first | (cases hu <;> ((repeat' with_reducible first | assumption | apply h_g | intro _ | split | simp only [keep_mk, keep_fold, id_eq]); done)) | (refine funcCmd_keeps q _ _ _ ?_ ?_ _ hu <;> ((repeat' with_reducible first | assumption | apply h_g | intro _ | split | simp only [keep_mk, keep_fold, id_eq]); done))

theorem aperMiss_keeps (q : KeepArgs) (s : State) (f : Nat) (h : Keep q s) : Keep q (aperMiss s f) := by
  unfold aperMiss
  repeat' with_reducible
    first
    | assumption | apply bump_keeps | intro _ | split | simp only [keep_mk, keep_fold, id_eq]

theorem doAperWrite_keeps (q : KeepArgs) (f : Nat) (a : Nat) (bs : List Byte) (poison : Bool) (s : State) (h : Keep q s) :
    Keep q (doAperWrite f a bs poison s) := by
  unfold doAperWrite
  repeat' with_reducible
    first
    | assumption | apply aperMiss_keeps | apply tenStore_keeps | intro _ | split | simp only [keep_mk, keep_fold, id_eq]

theorem execApertureWrite_keeps (q : KeepArgs) (f : Nat) (a : Nat) (data : List Byte) (poison : Bool) (s : State) (h : Keep q
    s) : ∀ u, (execApertureWrite f a data poison s) = .next u → Keep q u := by
  intro u hu; unfold execApertureWrite at hu; refine aperCmd_keeps q _ _ _ _ _ ?_ h _ hu
  repeat' with_reducible
    first
    | assumption | apply doAperWrite_keeps | intro _ | split | simp only [keep_mk, keep_fold, id_eq]

theorem winRefuse_keeps (q : KeepArgs) (s : State) (r : Nat) (h : Keep q s) : Keep q (winRefuse s r) := by
  unfold winRefuse
  repeat' with_reducible
    first
    | assumption | apply markSet_keeps | intro _ | split | simp only [keep_mk, keep_fold, id_eq]

theorem doWinRelease_keeps (q : KeepArgs) (s : State) (h : Keep q s) : Keep q (doWinRelease s) := by
  unfold doWinRelease
  repeat' with_reducible
    first
    | assumption | apply winRefuse_keeps | apply dropWindow_keeps | intro _ | split | simp only [keep_mk, keep_fold, id_eq]

theorem doExpire_keeps (q : KeepArgs) (f : Nat) (s : State) (h : Keep q s) : Keep q (doExpire f s) := by
  unfold doExpire
  repeat' with_reducible
    first
    | assumption | apply modFunc_keeps | apply markSet_keeps | apply raisePf_keeps | apply holdsChanged_keeps | intro _
    | split | simp only [keep_mk, keep_fold, id_eq]

theorem execWinRelease_keeps (q : KeepArgs) (s : State) (h : Keep q s) : ∀ u, (execWinRelease s) = .next u → Keep q u := by
  intro u hu; unfold execWinRelease at hu; refine hubCmd_keeps q _ _ ?_ h _ hu
  repeat' with_reducible
    first
    | assumption | apply doWinRelease_keeps | intro _ | split | simp only [keep_mk, keep_fold, id_eq]

theorem fetchAll_keeps (q : KeepArgs) (k : Cls) (f : Nat) (dev : Bool) (base : Nat) (size : Nat) (x5 : List Nat) (x6 : State)
    (h : Keep q x6) : ∀ u r, (fetchAll k f dev base size x5 x6) = some (u, r) → Keep q u := by
  induction x5 generalizing x6 with
  | nil => intro u r hu; cases hu; exact h
  | cons n ns ih =>
    intro u r hu; unfold fetchAll at hu; simp only [] at hu
    split at hu
    · rename_i s' bs he
      split at hu
      · rename_i hf
        cases hu
        refine ih s' ?_ _ _ hf
        split at he
        · exact tenRead_keeps q _ _ _ _ _ h _ _ he
        · cases he; exact h
      · cases hu
    · cases hu

theorem setBme_keeps (q : KeepArgs) (f : Nat) (b : Bool) (s : State) (h : Keep q s) : Keep q (setBme f b s) := by
  unfold setBme
  repeat' with_reducible
    first
    | assumption | apply holdsChanged_keeps | apply modFunc_keeps | intro _ | split | simp only [keep_mk, keep_fold, id_eq]

theorem execBmeClear_keeps (q : KeepArgs) (f : Nat) (s : State) (h : Keep q s) : ∀ u, (execBmeClear f s) = .next u → Keep q u
    := by
  intro u hu; unfold execBmeClear at hu; refine funcCmd_keeps q _ _ _ ?_ h _ hu
  repeat' with_reducible
    first
    | assumption | apply setBme_keeps | intro _ | split | simp only [keep_mk, keep_fold, id_eq]

theorem doWinCmd_keeps (q : KeepArgs) (v : Nat) (s : State) (h : Keep q s) : Keep q (doWinCmd v s) := by
  unfold doWinCmd
  repeat' with_reducible
    first
    | assumption | apply winRefuse_keeps | intro _ | split | simp only [keep_mk, keep_fold, id_eq]

theorem doKick_keeps (q : KeepArgs) (f : Nat) (s : State) (h : Keep q s) : Keep q (doKick f s) := by
  unfold doKick
  repeat' with_reducible
    first
    | assumption | apply modFunc_keeps | intro _ | split | simp only [keep_mk, keep_fold, id_eq]

theorem execHeartbeatKick_keeps (q : KeepArgs) (f : Nat) (s : State) (h : Keep q s) : ∀ u, (execHeartbeatKick f s) = .next u
    → Keep q u := by
  intro u hu; unfold execHeartbeatKick at hu; refine funcCmd_keeps q _ _ _ ?_ h _ hu
  repeat' with_reducible
    first
    | assumption | apply doKick_keeps | intro _ | split | simp only [keep_mk, keep_fold, id_eq]

end Sys2Proof.Machine
end

