-- ==== Sys2Proof/Laws/Keep5.lean ====
section
/-! SUPPORT. One lemma per operation and per command: it keeps what `Keep` says (part 5 of 7, callees before callers). -/

namespace Sys2Proof.Machine

set_option linter.unusedSimpArgs false
set_option linter.unusedVariables false

theorem doCqDisable_keeps (q : KeepArgs) (f : Nat) (r : Nat) (s : State) (h : Keep q s) : Keep q (doCqDisable f r s) := by
  unfold doCqDisable
  repeat' with_reducible
    first
    | assumption | apply modRing_keeps | apply setReg_keeps | intro _ | split | simp only [keep_mk, keep_fold, id_eq]

theorem execCqDisable_keeps (q : KeepArgs) (f : Nat) (r : Nat) (s : State) (h : Keep q s) : ∀ u, (execCqDisable f r s) =
    .next u → Keep q u := by
  intro u hu; unfold execCqDisable at hu; refine queueCmd_keeps q _ _ _ _ ?_ h _ hu
  repeat' with_reducible
    first
    | assumption | apply doCqDisable_keeps | intro _ | split | simp only [keep_mk, keep_fold, id_eq]

theorem doQueueStopped_keeps (q : KeepArgs) (f : Nat) (x1 : Nat) (s : State) (h : Keep q s) : Keep q (doQueueStopped f x1 s)
    := by
  unfold doQueueStopped
  repeat' with_reducible
    first
    | assumption | apply modQueue_keeps | intro _ | split | simp only [keep_mk, keep_fold, id_eq]

theorem execQueueStopped_keeps (q : KeepArgs) (f : Nat) (x1 : Nat) (s : State) (h : Keep q s) : ∀ u, (execQueueStopped f x1
    s) = .next u → Keep q u := by
  intro u hu; unfold execQueueStopped at hu; refine queueCmd_keeps q _ _ _ _ ?_ h _ hu
  repeat' with_reducible
    first
    | assumption | apply doQueueStopped_keeps | intro _ | split | simp only [keep_mk, keep_fold, id_eq]

theorem doHbClear_keeps (q : KeepArgs) (f : Nat) (s : State) (h : Keep q s) : Keep q (doHbClear f s) := by
  unfold doHbClear
  repeat' with_reducible
    first
    | assumption | apply holdsChanged_keeps | apply modFunc_keeps | intro _ | split | simp only [keep_mk, keep_fold, id_eq]

theorem doAperRead_keeps (q : KeepArgs) (f : Nat) (a : Nat) (n : Nat) (s : State) (h : Keep q s) : Keep q (doAperRead f a n
    s) := by
  unfold doAperRead
  repeat' with_reducible
    first
    | assumption | refine tenRead_keeps q _ _ _ _ _ ?_ _ _ (by assumption) | apply emit_keeps | apply aperMiss_keeps
    | intro _ | split | simp only [keep_mk, keep_fold, id_eq]

theorem execApertureRead_keeps (q : KeepArgs) (f : Nat) (a : Nat) (n : Nat) (s : State) (h : Keep q s) : ∀ u,
    (execApertureRead f a n s) = .next u → Keep q u := by
  intro u hu; unfold execApertureRead at hu; refine aperCmd_keeps q _ _ _ _ _ ?_ h _ hu
  repeat' with_reducible
    first
    | assumption | apply doAperRead_keeps | intro _ | split | simp only [keep_mk, keep_fold, id_eq]

theorem doIrqEnd_keeps (q : KeepArgs) (f : Nat) (r : Nat) (s : State) (h : Keep q s) : Keep q (doIrqEnd f r s) := by
  unfold doIrqEnd
  repeat' with_reducible
    first
    | assumption | apply modRing_keeps | apply raiseVec_keeps | intro _ | split | simp only [keep_mk, keep_fold, id_eq]

theorem doWinAssign_keeps (q : KeepArgs) (s : State) (h : Keep q s) : Keep q (doWinAssign s) := by
  unfold doWinAssign
  repeat' with_reducible
    first
    | assumption | apply winRefuse_keeps | apply modFunc_keeps | intro _ | split | simp only [keep_mk, keep_fold, id_eq]

theorem execHbexpClear_keeps (q : KeepArgs) (f : Nat) (s : State) (h : Keep q s) : ∀ u, (execHbexpClear f s) = .next u → Keep
    q u := by
  intro u hu; unfold execHbexpClear at hu; refine funcCmd_keeps q _ _ _ ?_ h _ hu
  repeat' with_reducible
    first
    | assumption | apply doHbClear_keeps | intro _ | split | simp only [keep_mk, keep_fold, id_eq]

theorem execWinAssign_keeps (q : KeepArgs) (s : State) (h : Keep q s) : ∀ u, (execWinAssign s) = .next u → Keep q u := by
  intro u hu; unfold execWinAssign at hu; refine hubCmd_keeps q _ _ ?_ h _ hu
  repeat' with_reducible
    first
    | assumption | apply doWinAssign_keeps | intro _ | split | simp only [keep_mk, keep_fold, id_eq]

theorem doQassign_keeps (q : KeepArgs) (f : Nat) (v : Nat) (s : State) (h : Keep q s) : Keep q (doQassign f v s) := by
  unfold doQassign
  repeat' with_reducible
    first
    | assumption | apply setReg_keeps | apply markSet_keeps | intro _ | split | simp only [keep_mk, keep_fold, id_eq]

theorem execQassignWrite_keeps (q : KeepArgs) (f : Nat) (v : Nat) (s : State) (h : Keep q s) : ∀ u, (execQassignWrite f v s)
    = .next u → Keep q u := by
  intro u hu; unfold execQassignWrite at hu; (try simp only [] at hu); (repeat' split at hu) <;> first | (cases hu <;> ((repeat' with_reducible first | assumption | apply doQassign_keeps | intro _ | split | simp only [keep_mk, keep_fold, id_eq]); done)) | (refine hubCmd_keeps q _ _ ?_ ?_ _ hu <;> ((repeat' with_reducible first | assumption | apply doQassign_keeps | intro _ | split | simp only [keep_mk, keep_fold, id_eq]); done))

theorem doFetch_keeps (q : KeepArgs) (f : Nat) (x1 : Nat) (err : Bool) (s : State) (h : Keep q s) : Keep q (doFetch f x1 err
    s) := by
  unfold doFetch; simp only []
  split
  · exact h
  · split
    · exact modQueue_keeps q _ _ _ _ h
    · rename_i he
      split at he
      · cases he
      · exact modQueue_keeps q _ _ _ _ (fetchAll_keeps q _ _ _ _ _ _ _ h _ _ he)

theorem execRingFetch_keeps (q : KeepArgs) (f : Nat) (x1 : Nat) (err : Bool) (s : State) (h : Keep q s) : ∀ u, (execRingFetch
    f x1 err s) = .next u → Keep q u := by
  intro u hu; unfold execRingFetch at hu; refine queueCmd_keeps q _ _ _ _ ?_ h _ hu
  repeat' with_reducible
    first
    | assumption | apply doFetch_keeps | intro _ | split | simp only [keep_mk, keep_fold, id_eq]

theorem execHeartbeatExpire_keeps (q : KeepArgs) (f : Nat) (s : State) (h : Keep q s) : ∀ u, (execHeartbeatExpire f s) =
    .next u → Keep q u := by
  intro u hu; unfold execHeartbeatExpire at hu; refine funcCmd_keeps q _ _ _ ?_ h _ hu
  repeat' with_reducible
    first
    | assumption | apply doExpire_keeps | intro _ | split | simp only [keep_mk, keep_fold, id_eq]

theorem execIrqModerationEnd_keeps (q : KeepArgs) (f : Nat) (r : Nat) (s : State) (h : Keep q s) : ∀ u, (execIrqModerationEnd
    f r s) = .next u → Keep q u := by
  intro u hu; unfold execIrqModerationEnd at hu; refine queueCmd_keeps q _ _ _ _ ?_ h _ hu
  repeat' with_reducible
    first
    | assumption | apply doIrqEnd_keeps | intro _ | split | simp only [keep_mk, keep_fold, id_eq]

theorem execBmeSet_keeps (q : KeepArgs) (f : Nat) (s : State) (h : Keep q s) : ∀ u, (execBmeSet f s) = .next u → Keep q u := by
  intro u hu; unfold execBmeSet at hu; refine funcCmd_keeps q _ _ _ ?_ h _ hu
  repeat' with_reducible
    first
    | assumption | apply setBme_keeps | intro _ | split | simp only [keep_mk, keep_fold, id_eq]

theorem execQueueDisable_keeps (q : KeepArgs) (f : Nat) (x1 : Nat) (s : State) (h : Keep q s) : ∀ u, (execQueueDisable f x1
    s) = .next u → Keep q u := by
  intro u hu; unfold execQueueDisable at hu; refine queueCmd_keeps q _ _ _ _ ?_ h _ hu
  repeat' with_reducible
    first
    | assumption | apply doQueueDisable_keeps | intro _ | split | simp only [keep_mk, keep_fold, id_eq]

theorem execInlineDescriptor_keeps (q : KeepArgs) (f : Nat) (x1 : Nat) (desc : List Byte) (s : State) (h : Keep q s) : ∀ u,
    (execInlineDescriptor f x1 desc s) = .next u → Keep q u := by
  intro u hu; unfold execInlineDescriptor at hu; refine funcCmd_keeps q _ _ _ ?_ h _ hu
  repeat' with_reducible
    first
    | assumption | apply doInline_keeps | intro _ | split | simp only [keep_mk, keep_fold, id_eq]

theorem ephPayload_keeps (q : KeepArgs) (s : State) (i : Item) (h : Keep q s) : Keep q (ephPayload s i) := by
  unfold ephPayload
  repeat' with_reducible
    first
    | assumption | apply ephPut_keeps | intro _ | split | simp only [keep_mk, keep_fold, id_eq]

theorem began_keeps (q : KeepArgs) (s : State) (i : Item) (region : Nat) (entry : Nat) (step : Nat) (h : Keep q s) : Keep q
    (began s i region entry step) := by
  unfold began
  repeat' with_reducible
    first
    | assumption | apply ephPutAt_keeps | apply modItem_keeps | apply ephPayload_keeps | intro _ | split
    | simp only [keep_mk, keep_fold, id_eq]

theorem stopItem_keeps (q : KeepArgs) (s : State) (i : Item) (status : Nat) (h : Keep q s) : Keep q (stopItem s i status) := by
  unfold stopItem
  repeat' with_reducible
    first
    | assumption | apply complete_keeps | apply began_keeps | intro _ | split | simp only [keep_mk, keep_fold, id_eq]

theorem hubRead_keeps (q : KeepArgs) (s : State) (k : Cls) (f : Nat) (a : Nat) (n : Nat) (h : Keep q s) : Keep q (hubRead s k
    f a n).1 := by
  unfold hubRead
  repeat' with_reducible
    first
    | assumption | refine tenRead_keeps q _ _ _ _ _ ?_ _ _ (by assumption) | intro _ | split
    | simp only [keep_mk, keep_fold, id_eq]

theorem ctxHdr_keeps (q : KeepArgs) (s : State) (k : Cls) (x : Ctx) (h : Keep q s) : Keep q (ctxHdr s k x).1 := by
  unfold ctxHdr
  repeat' with_reducible
    first
    | assumption | apply hubRead_keeps | intro _ | refine keep_ofPair (by assumption) ?_ | split
    | simp only [keep_mk, keep_fold, id_eq]

theorem startCmd_keeps (q : KeepArgs) (s : State) (opc : Nat) (g : Item → State → State) (h_g : ∀ (y0 : Item) (y1 : State),
    Keep q y1 → Keep q (g y0 y1)) (h : Keep q s) : ∀ u, (startCmd s opc g) = .next u → Keep q u := by
  intro u hu; unfold startCmd at hu; refine dispCmd_keeps q _ _ ?_ h _ hu
  repeat' with_reducible
    first
    | assumption | apply stopItem_keeps | apply h_g | intro _ | split | simp only [keep_mk, keep_fold, id_eq]

theorem holdItem_keeps (q : KeepArgs) (s : State) (i : Item) (r : Nat) (h : Keep q s) : Keep q (holdItem s i r) := by
  unfold holdItem
  repeat' with_reducible
    first
    | assumption | apply modItem_keeps | intro _ | split | simp only [keep_mk, keep_fold, id_eq]

theorem ctxHdrs_keeps (q : KeepArgs) (s : State) (k : Cls) (x2 : List Ctx) (h : Keep q s) : Keep q (ctxHdrs s k x2).1 := by
  induction x2 generalizing s k with
  | nil =>
    unfold ctxHdrs; (try simp only [])
    repeat' with_reducible
      first
      | assumption | apply ctxHdr_keeps | intro _ | refine keep_ofPair (by assumption) ?_ | split
      | simp only [keep_mk, keep_fold, id_eq]
  | cons _ _ ih =>
    unfold ctxHdrs; (try simp only [])
    repeat' with_reducible
      first
      | assumption | apply ctxHdr_keeps | apply ih | intro _ | refine keep_ofPair (by assumption) ?_ | split
      | simp only [keep_mk, keep_fold, id_eq]

theorem takeEntry_keeps (q : KeepArgs) (s : State) (c : Cand) (d : List Byte) (h : Keep q s) : Keep q (takeEntry s c d) := by
  unfold takeEntry
  repeat' with_reducible
    first
    | assumption | apply modQueue_keeps | apply stopItem_keeps | intro _ | split | simp only [keep_mk, keep_fold, id_eq]

theorem doTake_keeps (q : KeepArgs) (s : State) (h : Keep q s) : Keep q (doTake s) := by
  unfold doTake
  repeat' with_reducible
    first
    | assumption | apply takeEntry_keeps | intro _ | split | simp only [keep_mk, keep_fold, id_eq]

theorem seqCheck_keeps (q : KeepArgs) (s : State) (d : List Byte) (r : Nat) (h : Keep q s) : Keep q (seqCheck s d r).1 := by
  unfold seqCheck
  repeat' with_reducible
    first
    | assumption | apply ctxHdrs_keeps | intro _ | refine keep_ofPair (by assumption) ?_ | split
    | simp only [keep_mk, keep_fold, id_eq]

theorem execDispatchTake_keeps (q : KeepArgs) (s : State) (h : Keep q s) : ∀ u, (execDispatchTake s) = .next u → Keep q u := by
  intro u hu; unfold execDispatchTake at hu; refine dispCmd_keeps q _ _ ?_ h _ hu
  repeat' with_reducible
    first
    | assumption | apply doTake_keeps | intro _ | split | simp only [keep_mk, keep_fold, id_eq]

theorem withRegion_keeps (q : KeepArgs) (i : Item) (g : Nat → Region → State → State) (s : State) (h_g : ∀ (y0 : Nat) (y1 :
    Region) (y2 : State), Keep q y2 → Keep q (g y0 y1 y2)) (h : Keep q s) : Keep q (withRegion i g s) := by
  unfold withRegion
  repeat' with_reducible
    first
    | assumption | apply stopItem_keeps | apply holdItem_keeps | apply seqCheck_keeps | apply h_g | intro _
    | refine keep_ofPair (by assumption) ?_ | split | simp only [keep_mk, keep_fold, id_eq]

theorem startCopying_keeps (q : KeepArgs) (i : Item) (s : State) (h : Keep q s) : Keep q (startCopying i s) := by
  unfold startCopying
  repeat' with_reducible
    first
    | assumption | apply stopItem_keeps | apply began_keeps | apply modItem_keeps | intro _ | split
    | simp only [keep_mk, keep_fold, id_eq]

theorem startRemote_keeps (q : KeepArgs) (i : Item) (s : State) (h : Keep q s) : Keep q (startRemote i s) := by
  unfold startRemote
  repeat' with_reducible
    first
    | assumption | apply startCopying_keeps | apply stopItem_keeps | apply addMsg_keeps | apply began_keeps
    | apply modItem_keeps | apply keep_foldl | intro _ | split | simp only [keep_mk, keep_fold, id_eq]

theorem copyCmd_keeps (q : KeepArgs) (s : State) (dir : Nat) (g : Item → State → State) (h_g : ∀ (y0 : Item) (y1 : State),
    Keep q y1 → Keep q (g y0 y1)) (h : Keep q s) : ∀ u, (copyCmd s dir g) = .next u → Keep q u := by
  intro u hu; unfold copyCmd at hu; refine startCmd_keeps q _ _ _ ?_ h _ hu
  repeat' with_reducible
    first
    | assumption | apply h_g | intro _ | split | simp only [keep_mk, keep_fold, id_eq]

theorem execMemcpyDeviceToHost_keeps (q : KeepArgs) (s : State) (h : Keep q s) : ∀ u, (execMemcpyDeviceToHost s) = .next u →
    Keep q u := by
  intro u hu; unfold execMemcpyDeviceToHost at hu; refine copyCmd_keeps q _ _ _ ?_ h _ hu
  repeat' with_reducible
    first
    | assumption | apply startCopying_keeps | intro _ | split | simp only [keep_mk, keep_fold, id_eq]

theorem copyEnd_keeps (q : KeepArgs) (s : State) (i : Item) (n : Nat) (status : Nat) (result : Nat) (h : Keep q s) : Keep q
    (copyEnd s i n status result) := by
  unfold copyEnd
  repeat' with_reducible
    first
    | assumption | apply copyMove_keeps | apply complete_keeps | intro _ | refine keep_ofPair (by assumption) ?_ | split
    | simp only [keep_mk, keep_fold, id_eq]

theorem beginPipe_keeps (q : KeepArgs) (s : State) (r : Nat) (d : Region) (e : Nat) (i : Item) (h : Keep q s) : Keep q
    (beginPipe s r d e i) := by
  unfold beginPipe
  repeat' with_reducible
    first
    | assumption | apply modRegion_keeps | apply began_keeps | apply modItem_keeps | apply tenWrite_keeps
    | apply addXfer_keeps | apply refreshClass_keeps | intro _ | split | simp only [keep_mk, keep_fold, id_eq]

theorem pipeNext_keeps (q : KeepArgs) (s : State) (r : Nat) (h : Keep q s) : Keep q (pipeNext s r) := by
  unfold pipeNext
  repeat' with_reducible
    first
    | assumption | apply beginPipe_keeps | intro _ | split | simp only [keep_mk, keep_fold, id_eq]

theorem startRun_keeps (q : KeepArgs) (i : Item) (r : Nat) (d : Region) (s : State) (h : Keep q s) : Keep q (startRun i r d
    s) := by
  unfold startRun
  repeat' with_reducible
    first
    | assumption | apply modItem_keeps | apply pipeNext_keeps | apply began_keeps | apply nextPool_keeps | intro _ | split
    | simp only [keep_mk, keep_fold, id_eq]

theorem execRun_keeps (q : KeepArgs) (s : State) (h : Keep q s) : ∀ u, (execRun s) = .next u → Keep q u := by
  intro u hu; unfold execRun at hu; refine startCmd_keeps q _ _ _ ?_ h _ hu
  repeat' with_reducible
    first
    | assumption | apply withRegion_keeps | apply startRun_keeps | intro _ | split | simp only [keep_mk, keep_fold, id_eq]

theorem doPipeWrite_keeps (q : KeepArgs) (f : Nat) (r : Nat) (b : Bool) (v : Nat) (s : State) (h : Keep q s) : Keep q
    (doPipeWrite f r b v s) := by
  unfold doPipeWrite
  repeat' with_reducible
    first
    | assumption | apply setReg_keeps | intro _ | split | simp only [keep_mk, keep_fold, id_eq]

theorem execPipeConfigWrite_keeps (q : KeepArgs) (f : Nat) (r : Nat) (b : Bool) (v : Nat) (s : State) (h : Keep q s) : ∀ u,
    (execPipeConfigWrite f r b v s) = .next u → Keep q u := by
  intro u hu; unfold execPipeConfigWrite at hu; (try simp only [] at hu); (repeat' split at hu) <;> first | (cases hu <;> ((repeat' with_reducible first | assumption | apply doPipeWrite_keeps | intro _ | split | simp only [keep_mk, keep_fold, id_eq]); done)) | (refine funcCmd_keeps q _ _ _ ?_ ?_ _ hu <;> ((repeat' with_reducible first | assumption | apply doPipeWrite_keeps | intro _ | split | simp only [keep_mk, keep_fold, id_eq]); done))

theorem doHeldStart_keeps (q : KeepArgs) (s : State) (h : Keep q s) : Keep q (doHeldStart s) := by
  unfold doHeldStart
  repeat' with_reducible
    first
    | assumption | apply pipeNext_keeps | intro _ | split | simp only [keep_mk, keep_fold, id_eq]

theorem execRunHeldStart_keeps (q : KeepArgs) (s : State) (h : Keep q s) : ∀ u, (execRunHeldStart s) = .next u → Keep q u := by
  intro u hu; unfold execRunHeldStart at hu; refine dispCmd_keeps q _ _ ?_ h _ hu
  repeat' with_reducible
    first
    | assumption | apply doHeldStart_keeps | intro _ | split | simp only [keep_mk, keep_fold, id_eq]

theorem doNop_keeps (q : KeepArgs) (i : Item) (s : State) (h : Keep q s) : Keep q (doNop i s) := by
  unfold doNop
  repeat' with_reducible
    first
    | assumption | apply complete_keeps | apply began_keeps | intro _ | split | simp only [keep_mk, keep_fold, id_eq]

theorem closeLoad_keeps (q : KeepArgs) (s : State) (load : Nat) (h : Keep q s) : Keep q (closeLoad s load) := by
  unfold closeLoad
  repeat' with_reducible
    first
    | assumption | intro _ | split | simp only [keep_mk, keep_fold, id_eq]

theorem queueLoad_keeps (q : KeepArgs) (s : State) (i : Item) (j : LoadJob) (h : Keep q s) : Keep q (queueLoad s i j) := by
  unfold queueLoad
  repeat' with_reducible
    first
    | assumption | apply modItem_keeps | intro _ | split | simp only [keep_mk, keep_fold, id_eq]

theorem execUnloadLayout_keeps (q : KeepArgs) (s : State) (h : Keep q s) : ∀ u, (execUnloadLayout s) = .next u → Keep q u := by
  intro u hu; unfold execUnloadLayout at hu; refine startCmd_keeps q _ _ _ ?_ h _ hu
  repeat' with_reducible
    first
    | assumption | apply withRegion_keeps | apply began_keeps | apply closeLoad_keeps | apply queueLoad_keeps | intro _
    | split | simp only [keep_mk, keep_fold, id_eq]

theorem doCopyDone_keeps (q : KeepArgs) (id : Nat) (hostErr : Option Nat) (s : State) (h : Keep q s) : Keep q (doCopyDone id
    hostErr s) := by
  unfold doCopyDone
  repeat' with_reducible
    first
    | assumption | apply copyEnd_keeps | intro _ | split | simp only [keep_mk, keep_fold, id_eq]

theorem execMemcpyComplete_keeps (q : KeepArgs) (id : Nat) (hostErr : Option Nat) (s : State) (h : Keep q s) : ∀ u,
    (execMemcpyComplete id hostErr s) = .next u → Keep q u := by
  intro u hu; unfold execMemcpyComplete at hu; refine dispCmd_keeps q _ _ ?_ h _ hu
  repeat' with_reducible
    first
    | assumption | apply doCopyDone_keeps | intro _ | split | simp only [keep_mk, keep_fold, id_eq]

theorem execMemcpyRemote_keeps (q : KeepArgs) (s : State) (h : Keep q s) : ∀ u, (execMemcpyRemote s) = .next u → Keep q u := by
  intro u hu; unfold execMemcpyRemote at hu; refine copyCmd_keeps q _ _ _ ?_ h _ hu
  repeat' with_reducible
    first
    | assumption | apply startRemote_keeps | intro _ | split | simp only [keep_mk, keep_fold, id_eq]

theorem execLoadLayout_keeps (q : KeepArgs) (s : State) (h : Keep q s) : ∀ u, (execLoadLayout s) = .next u → Keep q u := by
  intro u hu; unfold execLoadLayout at hu; refine startCmd_keeps q _ _ _ ?_ h _ hu
  repeat' with_reducible
    first
    | assumption | apply began_keeps | apply queueLoad_keeps | apply stopItem_keeps | intro _ | split
    | simp only [keep_mk, keep_fold, id_eq]

theorem doMailbox_keeps (q : KeepArgs) (s : State) (h : Keep q s) : Keep q (doMailbox s) := by
  unfold doMailbox
  repeat' with_reducible
    first
    | assumption | apply bump_keeps | apply tenWrite_keeps | apply refreshClass_keeps | apply complete_keeps | intro _
    | split | simp only [keep_mk, keep_fold, id_eq]

theorem execMailboxWrite_keeps (q : KeepArgs) (s : State) (h : Keep q s) : ∀ u, (execMailboxWrite s) = .next u → Keep q u := by
  intro u hu; unfold execMailboxWrite at hu; refine dispCmd_keeps q _ _ ?_ h _ hu
  repeat' with_reducible
    first
    | assumption | apply doMailbox_keeps | intro _ | split | simp only [keep_mk, keep_fold, id_eq]

theorem execNop_keeps (q : KeepArgs) (s : State) (h : Keep q s) : ∀ u, (execNop s) = .next u → Keep q u := by
  intro u hu; unfold execNop at hu; refine startCmd_keeps q _ _ _ ?_ h _ hu
  repeat' with_reducible
    first
    | assumption | apply doNop_keeps | intro _ | split | simp only [keep_mk, keep_fold, id_eq]

theorem execMemcpyHostToDevice_keeps (q : KeepArgs) (s : State) (h : Keep q s) : ∀ u, (execMemcpyHostToDevice s) = .next u →
    Keep q u := by
  intro u hu; unfold execMemcpyHostToDevice at hu; refine copyCmd_keeps q _ _ _ ?_ h _ hu
  repeat' with_reducible
    first
    | assumption | apply startCopying_keeps | intro _ | split | simp only [keep_mk, keep_fold, id_eq]

theorem execMemcpyDeviceToDevice_keeps (q : KeepArgs) (s : State) (h : Keep q s) : ∀ u, (execMemcpyDeviceToDevice s) = .next
    u → Keep q u := by
  intro u hu; unfold execMemcpyDeviceToDevice at hu; refine copyCmd_keeps q _ _ _ ?_ h _ hu
  repeat' with_reducible
    first
    | assumption | apply startCopying_keeps | intro _ | split | simp only [keep_mk, keep_fold, id_eq]

theorem itemRead_keeps (q : KeepArgs) (i : Item) (a : Nat) (n : Nat) (g : State → List Byte → State) (s : State) (h_g : ∀ (y0
    : State) (y1 : List Byte), Keep q y0 → Keep q (g y0 y1)) (h : Keep q s) : Keep q (itemRead i a n g s) := by
  unfold itemRead
  repeat' with_reducible
    first
    | assumption | apply hubRead_keeps | apply complete_keeps | apply h_g | intro _ | refine keep_ofPair (by assumption) ?_
    | split | simp only [keep_mk, keep_fold, id_eq]

theorem findNode_keeps (q : KeepArgs) (i : Item) (parent : Nat) (blk : List Byte) (g : State → Nat → State) (x4 : Nat) (x5 :
    Nat) (x6 : State) (h_g : ∀ (y0 : State) (y1 : Nat), Keep q y0 → Keep q (g y0 y1)) (h : Keep q x6) : Keep q (findNode i
    parent blk g x4 x5 x6) := by
  induction x4 generalizing i parent blk g x5 x6 with
  | zero =>
    unfold findNode; (try simp only [])
    repeat' with_reducible
      first
      | assumption | apply itemRead_keeps | apply h_g | intro _ | split | simp only [keep_mk, keep_fold, id_eq]
  | succ _ ih =>
    unfold findNode; (try simp only [])
    repeat' with_reducible
      first
      | assumption | apply itemRead_keeps | apply ih | apply h_g | intro _ | split | simp only [keep_mk, keep_fold, id_eq]

theorem toWalker_keeps (q : KeepArgs) (s : State) (i : Item) (r : Nat) (h : Keep q s) : Keep q (toWalker s i r) := by
  unfold toWalker
  repeat' with_reducible
    first
    | assumption | intro _ | split | simp only [keep_mk, keep_fold, id_eq]

theorem prefixCmd_keeps (q : KeepArgs) (s : State) (opc : Nat) (h : Keep q s) : ∀ u, (prefixCmd s opc) = .next u → Keep q u
    := by
  intro u hu; unfold prefixCmd at hu; refine startCmd_keeps q _ _ _ ?_ h _ hu
  repeat' with_reducible
    first
    | assumption | apply withRegion_keeps | apply began_keeps | apply toWalker_keeps | intro _ | split
    | simp only [keep_mk, keep_fold, id_eq]

theorem execPfxRelease_keeps (q : KeepArgs) (s : State) (h : Keep q s) : ∀ u, (execPfxRelease s) = .next u → Keep q u := by
  intro u hu; unfold execPfxRelease at hu; refine prefixCmd_keeps q _ _ h _ hu

theorem withShares_keeps (q : KeepArgs) (i : Item) (g : State → List PShare → State) (s : State) (h_g : ∀ (y0 : State) (y1 :
    List PShare), Keep q y0 → Keep q (g y0 y1)) (h : Keep q s) : Keep q (withShares i g s) := by
  unfold withShares
  repeat' with_reducible
    first
    | assumption | apply ctxHdrs_keeps | apply complete_keeps | apply h_g | intro _ | refine keep_ofPair (by assumption) ?_
    | split | simp only [keep_mk, keep_fold, id_eq]

theorem itemWrite_keeps (q : KeepArgs) (i : Item) (a : Nat) (bs : List Byte) (g : State → State) (s : State) (h_g : ∀ (y0 :
    State), Keep q y0 → Keep q (g y0)) (h : Keep q s) : Keep q (itemWrite i a bs g s) := by
  unfold itemWrite
  repeat' with_reducible
    first
    | assumption | apply tenWrite_keeps | apply complete_keeps | apply h_g | intro _ | split
    | simp only [keep_mk, keep_fold, id_eq]

theorem pushPage_keeps (q : KeepArgs) (i : Item) (x : Ctx) (pte : Nat) (g : State → State) (s : State) (h_g : ∀ (y0 : State),
    Keep q y0 → Keep q (g y0)) (h : Keep q s) : Keep q (pushPage i x pte g s) := by
  unfold pushPage
  repeat' with_reducible
    first
    | assumption | apply ctxHdr_keeps | apply complete_keeps | apply itemWrite_keeps | apply modHdr_keeps | apply h_g
    | intro _ | refine keep_ofPair (by assumption) ?_ | split | simp only [keep_mk, keep_fold, id_eq]

theorem closePages_keeps (q : KeepArgs) (i : Item) (x : Ctx) (pt : Nat) (g : State → State) (x4 : List Nat) (x5 : Nat) (x6 :
    State) (h_g : ∀ (y0 : State), Keep q y0 → Keep q (g y0)) (h : Keep q x6) : Keep q (closePages i x pt g x4 x5 x6) := by
  induction x4 generalizing i x pt g x5 x6 with
  | nil =>
    unfold closePages; (try simp only [])
    repeat' with_reducible
      first
      | assumption | apply itemWrite_keeps | apply pushPage_keeps | apply h_g | intro _ | split
      | simp only [keep_mk, keep_fold, id_eq]
  | cons _ _ ih =>
    unfold closePages; (try simp only [])
    repeat' with_reducible
      first
      | assumption | apply itemWrite_keeps | apply pushPage_keeps | apply ih | apply h_g | intro _ | split
      | simp only [keep_mk, keep_fold, id_eq]

theorem closeShares_keeps (q : KeepArgs) (i : Item) (g : State → State) (x2 : List PShare) (x3 : State) (h_g : ∀ (y0 :
    State), Keep q y0 → Keep q (g y0)) (h : Keep q x3) : Keep q (closeShares i g x2 x3) := by
  induction x2 generalizing i g x3 with
  | nil =>
    unfold closeShares; (try simp only [])
    repeat' with_reducible
      first
      | assumption | apply itemRead_keeps | apply closePages_keeps | apply itemWrite_keeps | apply h_g | intro _ | split
      | simp only [keep_mk, keep_fold, id_eq]
  | cons _ _ ih =>
    unfold closeShares; (try simp only [])
    repeat' with_reducible
      first
      | assumption | apply itemRead_keeps | apply closePages_keeps | apply itemWrite_keeps | apply ih | apply h_g | intro _
      | split | simp only [keep_mk, keep_fold, id_eq]

theorem closeSeq_keeps (q : KeepArgs) (i : Item) (s : State) (h : Keep q s) : Keep q (closeSeq i s) := by
  unfold closeSeq
  repeat' with_reducible
    first
    | assumption | apply withShares_keeps | apply closeShares_keeps | apply complete_keeps | apply toWalker_keeps | intro _
    | split | simp only [keep_mk, keep_fold, id_eq]

theorem startClose_keeps (q : KeepArgs) (i : Item) (r : Nat) (x2 : Region) (s : State) (h : Keep q s) : Keep q (startClose i
    r x2 s) := by
  unfold startClose
  repeat' with_reducible
    first
    | assumption | apply began_keeps | apply modItem_keeps | apply closeSeq_keeps | intro _ | split
    | simp only [keep_mk, keep_fold, id_eq]

theorem doSeqClose_keeps (q : KeepArgs) (s : State) (h : Keep q s) : Keep q (doSeqClose s) := by
  unfold doSeqClose
  repeat' with_reducible
    first
    | assumption | apply stopItem_keeps | apply withRegion_keeps | apply startClose_keeps | apply closeSeq_keeps | intro _
    | split | simp only [keep_mk, keep_fold, id_eq]

theorem execSeqClose_keeps (q : KeepArgs) (s : State) (h : Keep q s) : ∀ u, (execSeqClose s) = .next u → Keep q u := by
  intro u hu; unfold execSeqClose at hu; refine dispCmd_keeps q _ _ ?_ h _ hu
  repeat' with_reducible
    first
    | assumption | apply doSeqClose_keeps | intro _ | split | simp only [keep_mk, keep_fold, id_eq]

theorem dropNodes_keeps (q : KeepArgs) (i : Item) (x1 : List Nat) (x2 : State) (h : Keep q x2) : Keep q (dropNodes i x1 x2)
    := by
  induction x1 generalizing i x2 with
  | nil =>
    unfold dropNodes; (try simp only [])
    repeat' with_reducible
      first
      | assumption | apply complete_keeps | apply itemRead_keeps | apply bump_keeps | apply itemWrite_keeps | intro _
      | split | simp only [keep_mk, keep_fold, id_eq]
  | cons _ _ ih =>
    unfold dropNodes; (try simp only [])
    repeat' with_reducible
      first
      | assumption | apply complete_keeps | apply itemRead_keeps | apply bump_keeps | apply itemWrite_keeps | apply ih
      | intro _ | split | simp only [keep_mk, keep_fold, id_eq]

theorem doRelease_keeps (q : KeepArgs) (i : Item) (s : State) (h : Keep q s) : Keep q (doRelease i s) := by
  unfold doRelease
  repeat' with_reducible
    first
    | assumption | apply itemRead_keeps | apply complete_keeps | apply dropNodes_keeps | intro _ | split
    | simp only [keep_mk, keep_fold, id_eq]

theorem blockNode_keeps (q : KeepArgs) (i : Item) (t : PTree) (parent : Nat) (blk : List Byte) (g : State → Nat → Nat →
    State) (s : State) (h_g : ∀ (y0 : State) (y1 : Nat) (y2 : Nat), Keep q y0 → Keep q (g y0 y1 y2)) (h : Keep q s) : Keep q
    (blockNode i t parent blk g s) := by
  unfold blockNode
  repeat' with_reducible
    first
    | assumption | apply itemRead_keeps | apply findNode_keeps | apply h_g | intro _ | split
    | simp only [keep_mk, keep_fold, id_eq]

theorem lookBlocks_keeps (q : KeepArgs) (i : Item) (t : PTree) (toks : List Byte) (g : State → List Nat → State) (x4 : List
    Nat) (x5 : Nat) (x6 : List Nat) (x7 : State) (h_g : ∀ (y0 : State) (y1 : List Nat), Keep q y0 → Keep q (g y0 y1)) (h :
    Keep q x7) : Keep q (lookBlocks i t toks g x4 x5 x6 x7) := by
  induction x4 generalizing i t toks g x5 x6 x7 with
  | nil =>
    unfold lookBlocks; (try simp only [])
    repeat' with_reducible
      first
      | assumption | apply blockNode_keeps | apply h_g | intro _ | split | simp only [keep_mk, keep_fold, id_eq]
  | cons _ _ ih =>
    unfold lookBlocks; (try simp only [])
    repeat' with_reducible
      first
      | assumption | apply blockNode_keeps | apply ih | apply h_g | intro _ | split | simp only [keep_mk, keep_fold, id_eq]

theorem rangeCheck_keeps (q : KeepArgs) (i : Item) (n : Nat) (g : State → Bool → State) (x3 : List PShare) (x4 : State) (h_g
    : ∀ (y0 : State) (y1 : Bool), Keep q y0 → Keep q (g y0 y1)) (h : Keep q x4) : Keep q (rangeCheck i n g x3 x4) := by
  induction x3 generalizing i n g x4 with
  | nil =>
    unfold rangeCheck; (try simp only [])
    repeat' with_reducible
      first
      | assumption | apply itemRead_keeps | apply h_g | intro _ | split | simp only [keep_mk, keep_fold, id_eq]
  | cons _ _ ih =>
    unfold rangeCheck; (try simp only [])
    repeat' with_reducible
      first
      | assumption | apply itemRead_keeps | apply ih | apply h_g | intro _ | split | simp only [keep_mk, keep_fold, id_eq]

theorem withTree_keeps (q : KeepArgs) (i : Item) (g : State → PTree → State) (s : State) (h_g : ∀ (y0 : State) (y1 : PTree),
    Keep q y0 → Keep q (g y0 y1)) (h : Keep q s) : Keep q (withTree i g s) := by
  unfold withTree
  repeat' with_reducible
    first
    | assumption | apply itemRead_keeps | apply h_g | intro _ | split | simp only [keep_mk, keep_fold, id_eq]

theorem takePages_keeps (q : KeepArgs) (i : Item) (b : Nat) (g : State → List Nat → State) (x3 : List PShare) (x4 : List Nat)
    (x5 : State) (h_g : ∀ (y0 : State) (y1 : List Nat), Keep q y0 → Keep q (g y0 y1)) (h : Keep q x5) : Keep q (takePages i b
    g x3 x4 x5) := by
  induction x3 generalizing i b g x4 x5 with
  | nil =>
    unfold takePages; (try simp only [])
    repeat' with_reducible
      first
      | assumption | apply itemRead_keeps | apply itemWrite_keeps | apply h_g | intro _ | split
      | simp only [keep_mk, keep_fold, id_eq]
  | cons _ _ ih =>
    unfold takePages; (try simp only [])
    repeat' with_reducible
      first
      | assumption | apply itemRead_keeps | apply itemWrite_keeps | apply ih | apply h_g | intro _ | split
      | simp only [keep_mk, keep_fold, id_eq]

theorem fillNode_keeps (q : KeepArgs) (i : Item) (node : Nat) (parent : Nat) (next : Nat) (blk : List Byte) (pages : List
    Nat) (g : State → State) (x7 : State) (h_g : ∀ (y0 : State), Keep q y0 → Keep q (g y0)) (h : Keep q x7) : Keep q
    (fillNode i node parent next blk pages g x7) := by
  unfold fillNode
  repeat' with_reducible
    first
    | assumption | apply itemWrite_keeps | apply h_g | intro _ | split | simp only [keep_mk, keep_fold, id_eq]

theorem modKids_keeps (q : KeepArgs) (i : Item) (parent : Nat) (f : Nat → Nat) (g : State → State) (s : State) (h_g : ∀ (y0 :
    State), Keep q y0 → Keep q (g y0)) (h : Keep q s) : Keep q (modKids i parent f g s) := by
  unfold modKids
  repeat' with_reducible
    first
    | assumption | apply itemRead_keeps | apply itemWrite_keeps | apply h_g | intro _ | split
    | simp only [keep_mk, keep_fold, id_eq]

theorem insertBlocks_keeps (q : KeepArgs) (i : Item) (toks : List Byte) (ps : List PShare) (x3 : List Nat) (x4 : Nat) (x5 :
    Nat) (x6 : Nat) (x7 : State) (h : Keep q x7) : Keep q (insertBlocks i toks ps x3 x4 x5 x6 x7) := by
  induction x3 generalizing i toks ps x4 x5 x6 x7 with
  | nil =>
    unfold insertBlocks; (try simp only [])
    repeat' with_reducible
      first
      | assumption | apply complete_keeps | apply withTree_keeps | apply blockNode_keeps | apply itemRead_keeps
      | apply itemWrite_keeps | apply takePages_keeps | apply fillNode_keeps | apply modKids_keeps | intro _ | split
      | simp only [keep_mk, keep_fold, id_eq]
  | cons _ _ ih =>
    unfold insertBlocks; (try simp only [])
    repeat' with_reducible
      first
      | assumption | apply complete_keeps | apply withTree_keeps | apply blockNode_keeps | apply itemRead_keeps
      | apply itemWrite_keeps | apply takePages_keeps | apply fillNode_keeps | apply modKids_keeps | apply ih | intro _
      | split | simp only [keep_mk, keep_fold, id_eq]

theorem doInsert_keeps (q : KeepArgs) (i : Item) (s : State) (h : Keep q s) : Keep q (doInsert i s) := by
  unfold doInsert
  repeat' with_reducible
    first
    | assumption | apply withShares_keeps | apply rangeCheck_keeps | apply complete_keeps | apply itemRead_keeps
    | apply insertBlocks_keeps | intro _ | split | simp only [keep_mk, keep_fold, id_eq]

theorem scanChain_keeps (q : KeepArgs) (i : Item) (g : State → List PNode → State) (x2 : Nat) (x3 : Nat) (x4 : Nat) (x5 :
    List PNode) (x6 : State) (h_g : ∀ (y0 : State) (y1 : List PNode), Keep q y0 → Keep q (g y0 y1)) (h : Keep q x6) : Keep q
    (scanChain i g x2 x3 x4 x5 x6) := by
  induction x2 generalizing i g x3 x4 x5 x6 with
  | zero =>
    unfold scanChain; (try simp only [])
    repeat' with_reducible
      first
      | assumption | apply itemRead_keeps | apply h_g | intro _ | split | simp only [keep_mk, keep_fold, id_eq]
  | succ _ ih =>
    unfold scanChain; (try simp only [])
    repeat' with_reducible
      first
      | assumption | apply itemRead_keeps | apply ih | apply h_g | intro _ | split | simp only [keep_mk, keep_fold, id_eq]

theorem scanBuckets_keeps (q : KeepArgs) (i : Item) (t : PTree) (g : State → List PNode → State) (x3 : List Nat) (x4 : List
    PNode) (x5 : State) (h_g : ∀ (y0 : State) (y1 : List PNode), Keep q y0 → Keep q (g y0 y1)) (h : Keep q x5) : Keep q
    (scanBuckets i t g x3 x4 x5) := by
  induction x3 generalizing i t g x4 x5 with
  | nil =>
    unfold scanBuckets; (try simp only [])
    repeat' with_reducible
      first
      | assumption | apply itemRead_keeps | apply scanChain_keeps | apply h_g | intro _ | split
      | simp only [keep_mk, keep_fold, id_eq]
  | cons _ _ ih =>
    unfold scanBuckets; (try simp only [])
    repeat' with_reducible
      first
      | assumption | apply itemRead_keeps | apply scanChain_keeps | apply ih | apply h_g | intro _ | split
      | simp only [keep_mk, keep_fold, id_eq]

theorem backPages_keeps (q : KeepArgs) (i : Item) (node : Nat) (g : State → State) (x3 : List PShare) (x4 : Nat) (x5 : State)
    (h_g : ∀ (y0 : State), Keep q y0 → Keep q (g y0)) (h : Keep q x5) : Keep q (backPages i node g x3 x4 x5) := by
  induction x3 generalizing i node g x4 x5 with
  | nil =>
    unfold backPages; (try simp only [])
    repeat' with_reducible
      first
      | assumption | apply itemRead_keeps | apply pushPage_keeps | apply h_g | intro _ | split
      | simp only [keep_mk, keep_fold, id_eq]
  | cons _ _ ih =>
    unfold backPages; (try simp only [])
    repeat' with_reducible
      first
      | assumption | apply itemRead_keeps | apply pushPage_keeps | apply ih | apply h_g | intro _ | split
      | simp only [keep_mk, keep_fold, id_eq]

theorem evictNode_keeps (q : KeepArgs) (i : Item) (t : PTree) (ps : List PShare) (x : PNode) (g : State → State) (x5 : State)
    (h_g : ∀ (y0 : State), Keep q y0 → Keep q (g y0)) (h : Keep q x5) : Keep q (evictNode i t ps x g x5) := by
  unfold evictNode
  repeat' with_reducible
    first
    | assumption | apply itemWrite_keeps | apply modKids_keeps | apply backPages_keeps | apply bump_keeps | apply h_g
    | intro _ | split | simp only [keep_mk, keep_fold, id_eq]

theorem evictSome_keeps (q : KeepArgs) (i : Item) (ps : List PShare) (x2 : Nat) (x3 : Nat) (x4 : State) (h : Keep q x4) :
    Keep q (evictSome i ps x2 x3 x4) := by
  induction x2 generalizing i ps x3 x4 with
  | zero =>
    unfold evictSome; (try simp only [])
    repeat' with_reducible
      first
      | assumption | apply complete_keeps | apply withTree_keeps | apply scanBuckets_keeps | apply evictNode_keeps
      | intro _ | split | simp only [keep_mk, keep_fold, id_eq]
  | succ _ ih =>
    unfold evictSome; (try simp only [])
    repeat' with_reducible
      first
      | assumption | apply complete_keeps | apply withTree_keeps | apply scanBuckets_keeps | apply evictNode_keeps
      | apply ih | intro _ | split | simp only [keep_mk, keep_fold, id_eq]

theorem doEvict_keeps (q : KeepArgs) (i : Item) (s : State) (h : Keep q s) : Keep q (doEvict i s) := by
  unfold doEvict
  repeat' with_reducible
    first
    | assumption | apply withShares_keeps | apply evictSome_keeps | intro _ | split | simp only [keep_mk, keep_fold, id_eq]

theorem lookEnd_keeps (q : KeepArgs) (i : Item) (chain : List Nat) (s : State) (h : Keep q s) : Keep q (lookEnd i chain s) := by
  unfold lookEnd
  repeat' with_reducible
    first
    | assumption | apply complete_keeps | apply itemWrite_keeps | intro _ | split | simp only [keep_mk, keep_fold, id_eq]

theorem walkerCmd_keeps (q : KeepArgs) (s : State) (opcs : List Nat) (g : Item → State → State) (h_g : ∀ (y0 : Item) (y1 :
    State), Keep q y1 → Keep q (g y0 y1)) (h : Keep q s) : ∀ u, (walkerCmd s opcs g) = .next u → Keep q u := by
  intro u hu; unfold walkerCmd at hu; refine dispCmd_keeps q _ _ ?_ h _ hu
  repeat' with_reducible
    first
    | assumption | apply h_g | intro _ | split | simp only [keep_mk, keep_fold, id_eq]

theorem execInsert_keeps (q : KeepArgs) (s : State) (h : Keep q s) : ∀ u, (execInsert s) = .next u → Keep q u := by
  intro u hu; unfold execInsert at hu; refine walkerCmd_keeps q _ _ _ ?_ h _ hu
  repeat' with_reducible
    first
    | assumption | apply doInsert_keeps | intro _ | split | simp only [keep_mk, keep_fold, id_eq]

theorem execPfxInsert_keeps (q : KeepArgs) (s : State) (h : Keep q s) : ∀ u, (execPfxInsert s) = .next u → Keep q u := by
  intro u hu; unfold execPfxInsert at hu; refine prefixCmd_keeps q _ _ h _ hu

theorem openPages_keeps (q : KeepArgs) (i : Item) (k : Nat) (pt : Nat) (g : State → State) (x4 : List Nat) (x5 : Nat) (x6 :
    State) (h_g : ∀ (y0 : State), Keep q y0 → Keep q (g y0)) (h : Keep q x6) : Keep q (openPages i k pt g x4 x5 x6) := by
  induction x4 generalizing i k pt g x5 x6 with
  | nil =>
    unfold openPages; (try simp only [])
    repeat' with_reducible
      first
      | assumption | apply itemRead_keeps | apply itemWrite_keeps | apply h_g | intro _ | split
      | simp only [keep_mk, keep_fold, id_eq]
  | cons _ _ ih =>
    unfold openPages; (try simp only [])
    repeat' with_reducible
      first
      | assumption | apply itemRead_keeps | apply itemWrite_keeps | apply ih | apply h_g | intro _ | split
      | simp only [keep_mk, keep_fold, id_eq]

theorem openShares_keeps (q : KeepArgs) (i : Item) (t : PTree) (chain : List Nat) (g : State → State) (x4 : List PShare) (x5
    : Nat) (x6 : State) (h_g : ∀ (y0 : State), Keep q y0 → Keep q (g y0)) (h : Keep q x6) : Keep q (openShares i t chain g x4
    x5 x6) := by
  induction x4 generalizing i t chain g x5 x6 with
  | nil =>
    unfold openShares; (try simp only [])
    repeat' with_reducible
      first
      | assumption | apply itemRead_keeps | apply openPages_keeps | apply itemWrite_keeps | apply h_g | intro _ | split
      | simp only [keep_mk, keep_fold, id_eq]
  | cons _ _ ih =>
    unfold openShares; (try simp only [])
    repeat' with_reducible
      first
      | assumption | apply itemRead_keeps | apply openPages_keeps | apply itemWrite_keeps | apply ih | apply h_g | intro _
      | split | simp only [keep_mk, keep_fold, id_eq]

theorem holdChain_keeps (q : KeepArgs) (i : Item) (g : State → State) (x2 : List Nat) (x3 : State) (h_g : ∀ (y0 : State),
    Keep q y0 → Keep q (g y0)) (h : Keep q x3) : Keep q (holdChain i g x2 x3) := by
  induction x2 generalizing i g x3 with
  | nil =>
    unfold holdChain; (try simp only [])
    repeat' with_reducible
      first
      | assumption | apply itemRead_keeps | apply itemWrite_keeps | apply h_g | intro _ | split
      | simp only [keep_mk, keep_fold, id_eq]
  | cons _ _ ih =>
    unfold holdChain; (try simp only [])
    repeat' with_reducible
      first
      | assumption | apply itemRead_keeps | apply itemWrite_keeps | apply ih | apply h_g | intro _ | split
      | simp only [keep_mk, keep_fold, id_eq]

theorem bindSeq_keeps (q : KeepArgs) (s : State) (i : Item) (h : Keep q s) : Keep q (bindSeq s i) := by
  unfold bindSeq
  repeat' with_reducible
    first
    | assumption | intro _ | split | simp only [keep_mk, keep_fold, id_eq]

theorem doLookup_keeps (q : KeepArgs) (i : Item) (s : State) (h : Keep q s) : Keep q (doLookup i s) := by
  unfold doLookup
  repeat' with_reducible
    first
    | assumption | apply complete_keeps | apply withTree_keeps | apply itemRead_keeps | apply lookBlocks_keeps
    | apply holdChain_keeps | apply bump_keeps | apply withShares_keeps | apply openShares_keeps | apply lookEnd_keeps
    | apply bindSeq_keeps | intro _ | split | simp only [keep_mk, keep_fold, id_eq]

theorem execLookup_keeps (q : KeepArgs) (s : State) (h : Keep q s) : ∀ u, (execLookup s) = .next u → Keep q u := by
  intro u hu; unfold execLookup at hu; refine walkerCmd_keeps q _ _ _ ?_ h _ hu
  repeat' with_reducible
    first
    | assumption | apply doLookup_keeps | intro _ | split | simp only [keep_mk, keep_fold, id_eq]

theorem execPfxEvict_keeps (q : KeepArgs) (s : State) (h : Keep q s) : ∀ u, (execPfxEvict s) = .next u → Keep q u := by
  intro u hu; unfold execPfxEvict at hu; refine prefixCmd_keeps q _ _ h _ hu

theorem execPfxLookup_keeps (q : KeepArgs) (s : State) (h : Keep q s) : ∀ u, (execPfxLookup s) = .next u → Keep q u := by
  intro u hu; unfold execPfxLookup at hu; refine prefixCmd_keeps q _ _ h _ hu

theorem execEvict_keeps (q : KeepArgs) (s : State) (h : Keep q s) : ∀ u, (execEvict s) = .next u → Keep q u := by
  intro u hu; unfold execEvict at hu; refine walkerCmd_keeps q _ _ _ ?_ h _ hu
  repeat' with_reducible
    first
    | assumption | apply doEvict_keeps | intro _ | split | simp only [keep_mk, keep_fold, id_eq]

theorem execRelease_keeps (q : KeepArgs) (s : State) (h : Keep q s) : ∀ u, (execRelease s) = .next u → Keep q u := by
  intro u hu; unfold execRelease at hu; refine walkerCmd_keeps q _ _ _ ?_ h _ hu
  repeat' with_reducible
    first
    | assumption | apply doRelease_keeps | intro _ | split | simp only [keep_mk, keep_fold, id_eq]

theorem imgRead_keeps (q : KeepArgs) (s : State) (j : LoadJob) (o : Nat) (n : Nat) (h : Keep q s) : Keep q (imgRead s j o
    n).1 := by
  unfold imgRead
  repeat' with_reducible
    first
    | assumption | refine tenRead_keeps q _ _ _ _ _ ?_ _ _ (by assumption) | intro _ | split
    | simp only [keep_mk, keep_fold, id_eq]

theorem headRead_keeps (q : KeepArgs) (s : State) (j : LoadJob) (h : Keep q s) : Keep q (headRead s j).1 := by
  unfold headRead
  repeat' with_reducible
    first
    | assumption | apply imgRead_keeps | intro _ | refine keep_ofPair (by assumption) ?_ | split
    | simp only [keep_mk, keep_fold, id_eq]

theorem secRead_keeps (q : KeepArgs) (s : State) (j : LoadJob) (i : Nat) (e : List Byte) (h : Keep q s) : Keep q (secRead s j
    i e).1 := by
  unfold secRead
  repeat' with_reducible
    first
    | assumption | apply imgRead_keeps | intro _ | refine keep_ofPair (by assumption) ?_ | split
    | simp only [keep_mk, keep_fold, id_eq]

theorem secsRead_keeps (q : KeepArgs) (s : State) (j : LoadJob) (x2 : Nat) (x3 : List (List Byte)) (h : Keep q s) : Keep q
    (secsRead s j x2 x3).1 := by
  induction x3 generalizing s j x2 with
  | nil =>
    unfold secsRead; (try simp only [])
    repeat' with_reducible
      first
      | assumption | apply secRead_keeps | intro _ | refine keep_ofPair (by assumption) ?_ | split
      | simp only [keep_mk, keep_fold, id_eq]
  | cons _ _ ih =>
    unfold secsRead; (try simp only [])
    repeat' with_reducible
      first
      | assumption | apply secRead_keeps | apply ih | intro _ | refine keep_ofPair (by assumption) ?_ | split
      | simp only [keep_mk, keep_fold, id_eq]

theorem readSecs_keeps (q : KeepArgs) (s : State) (j : LoadJob) (x2 : List Byte) (poi : Bool) (h : Keep q s) : Keep q
    (readSecs s j x2 poi).1 := by
  unfold readSecs
  repeat' with_reducible
    first
    | assumption | apply secsRead_keeps | intro _ | refine keep_ofPair (by assumption) ?_ | split
    | simp only [keep_mk, keep_fold, id_eq]

theorem leaveSlot_keeps (q : KeepArgs) (s : State) (c : Nat) (sl : Nat) (h : Keep q s) : Keep q (leaveSlot s c sl) := by
  unfold leaveSlot
  repeat' with_reducible
    first
    | assumption | apply releaseSlot_keeps | apply kvLeave_keeps | intro _ | split | simp only [keep_mk, keep_fold, id_eq]

theorem enterSlot_keeps (q : KeepArgs) (s : State) (x : Ctx) (k : Slot) (base : Nat) (h : Keep q s) : Keep q (enterSlot s x k
    base) := by
  unfold enterSlot
  repeat' with_reducible
    first
    | assumption | apply putSlot_keeps | apply modCtxs_keeps | apply kvEnter_keeps | intro _ | split
    | simp only [keep_mk, keep_fold, id_eq]

theorem settleWords_keeps (q : KeepArgs) (s : State) (c : Nat) (p : Nat) (n : Nat) (h : Keep q s) : Keep q (settleWords s c p
    n) := by
  unfold settleWords
  repeat' with_reducible
    first
    | assumption | apply wordCheck_keeps | apply keep_foldl | intro _ | refine keep_ofPair (by assumption) ?_ | split
    | simp only [keep_mk, keep_fold, id_eq]

theorem partCopy_keeps (q : KeepArgs) (s : State) (c : Nat) (p : Nat) (n : Nat) (d : Nat) (x5 : Nat) (can : Bool) (h : Keep q
    s) : Keep q (partCopy s c p n d x5 can) := by
  unfold partCopy
  repeat' with_reducible
    first
    | assumption | apply settleWords_keeps | apply flushRange_keeps | apply setWord_keeps | apply keep_foldl
    | apply keepV_spadMove | apply keepV_spadIn | apply keepV_devOut | apply keepV_spMove | apply keepV_spDrop
    | apply keepV_seDrop | apply keepV_weDrop | apply keepV_dpDrop | apply keepV_deDrop | intro _ | split
    | simp only [keep_mk, keep_fold, id_eq]

theorem readMarked_keeps (q : KeepArgs) (s : State) (x1 : List Nat) (h : Keep q s) : Keep q (readMarked s x1).1 := by
  induction x1 generalizing s with
  | nil =>
    unfold readMarked; (try simp only [])
    repeat' with_reducible
      first
      | assumption | apply cwRead_keeps | intro _ | refine keep_ofPair (by assumption) ?_ | split
      | simp only [keep_mk, keep_fold, id_eq]
  | cons _ _ ih =>
    unfold readMarked; (try simp only [])
    repeat' with_reducible
      first
      | assumption | apply cwRead_keeps | apply ih | intro _ | refine keep_ofPair (by assumption) ?_ | split
      | simp only [keep_mk, keep_fold, id_eq]

theorem ctxStore_keeps (q : KeepArgs) (s : State) (x : Ctx) (a : Nat) (bs : List Byte) (h : Keep q s) : Keep q (ctxStore s x
    a bs) := by
  unfold ctxStore
  repeat' with_reducible
    first
    | assumption | apply spadWrite_keeps | apply physWrite_keeps | intro _ | refine keep_ofPair (by assumption) ?_ | split
    | simp only [keep_mk, keep_fold, id_eq]

theorem partIn_keeps (q : KeepArgs) (s : State) (k : Cls) (c : Nat) (p : Nat) (n : Nat) (src : Nat) (h : Keep q s) : Keep q
    (partIn s k c p n src) := by
  unfold partIn
  repeat' with_reducible
    first
    | assumption | apply memAsk_keeps | apply readMarked_keeps | apply setWord_keeps | apply keep_foldl | apply keepV_spad
    | apply keepV_wst | apply keepV_dev | apply keepV_host | apply keepV_rt | apply keepV_spadMove | apply keepV_spadIn
    | apply keepV_devOut | apply keepV_spMove | apply keepV_spDrop | apply keepV_seDrop | apply keepV_weDrop
    | apply keepV_dpDrop | apply keepV_deDrop | intro _ | refine keep_ofPair (by assumption) ?_ | split
    | simp only [keep_mk, keep_fold, id_eq]

theorem partOut_keeps (q : KeepArgs) (s : State) (k : Cls) (c : Nat) (p : Nat) (n : Nat) (dest : Nat) (h : Keep q s) : Keep q
    (partOut s k c p n dest) := by
  have h1 := settleWords_keeps q _ c p n (flushRange_keeps q s c p n h)
  unfold partOut; simp only []
  generalize settleWords (flushRange s c p n) c p n = s1 at h1 ⊢
  split
  · exact bump_keeps q _ _ _ h1
  · refine keep_foldl q _ _ _ (fun t x ht => storeCw_keeps q t _ _ ht) ?_
    have h2 := physZero_keeps q _ dest n (memAsk_keeps q _ (reqLevel false k) dest n h1)
    exact ⟨h2.1, fun c => { h2.2.1 c with devOk := tabMove_wf (h1.2.1 c).spadOk (h1.2.1 c).devOk _ _ _ }, h2.2.2⟩

theorem setHold_keeps (q : KeepArgs) (s : State) (rs : List Nat) (v : Bool) (h : Keep q s) : Keep q (setHold s rs v) := by
  unfold setHold
  repeat' with_reducible
    first
    | assumption | apply modRegion_keeps | apply keep_foldl | intro _ | split | simp only [keep_mk, keep_fold, id_eq]

theorem putJob_keeps (q : KeepArgs) (s : State) (j : LoadJob) (h : Keep q s) : Keep q (putJob s j) := by
  unfold putJob
  repeat' with_reducible
    first
    | assumption | intro _ | split | simp only [keep_mk, keep_fold, id_eq]

theorem freeHeld_keeps (q : KeepArgs) (s : State) (rs : List Nat) (h : Keep q s) : Keep q (freeHeld s rs) := by
  unfold freeHeld
  repeat' with_reducible
    first
    | assumption | intro _ | split | simp only [keep_mk, keep_fold, id_eq]

theorem endJob_keeps (q : KeepArgs) (s : State) (j : LoadJob) (rs : List Nat) (status : Nat) (detail : Nat) (h : Keep q s) :
    Keep q (endJob s j rs status detail) := by
  unfold endJob
  repeat' with_reducible
    first
    | assumption | apply setHold_keeps | apply freeHeld_keeps | apply complete_keeps | apply began_keeps | apply keep_foldl
    | intro _ | split | simp only [keep_mk, keep_fold, id_eq]

theorem validate_keeps (q : KeepArgs) (s : State) (j : LoadJob) (h : Keep q s) : Keep q (validate s j) := by
  unfold validate
  repeat' with_reducible
    first
    | assumption | apply setHold_keeps | apply setLog_keeps | apply putJob_keeps | apply endJob_keeps
    | apply headRead_keeps | apply readSecs_keeps | intro _ | refine keep_ofPair (by assumption) ?_ | split
    | simp only [keep_mk, keep_fold, id_eq]

theorem doValidate_keeps (q : KeepArgs) (s : State) (h : Keep q s) : Keep q (doValidate s) := by
  unfold doValidate
  repeat' with_reducible
    first
    | assumption | apply validate_keeps | intro _ | split | simp only [keep_mk, keep_fold, id_eq]

theorem execLoadValidate_keeps (q : KeepArgs) (s : State) (h : Keep q s) : ∀ u, (execLoadValidate s) = .next u → Keep q u := by
  intro u hu; unfold execLoadValidate at hu; refine dispCmd_keeps q _ _ ?_ h _ hu
  repeat' with_reducible
    first
    | assumption | apply doValidate_keeps | intro _ | split | simp only [keep_mk, keep_fold, id_eq]

theorem loadDone_keeps (q : KeepArgs) (s : State) (j : LoadJob) (m : Layout) (h : Keep q s) : Keep q (loadDone s j m) := by
  unfold loadDone
  repeat' with_reducible
    first
    | assumption | apply ephPut_keeps | apply endJob_keeps | intro _ | split | simp only [keep_mk, keep_fold, id_eq]

theorem bindRsv_keeps (q : KeepArgs) (s : State) (p : Nat × Nat) (h : Keep q s) : Keep q (bindRsv s p) := by
  unfold bindRsv
  repeat' with_reducible
    first
    | assumption | intro _ | split | simp only [keep_mk, keep_fold, id_eq]

theorem hashChunks_keeps (q : KeepArgs) (s : State) (j : LoadJob) (x : Sec) (x3 : List Nat) (h : Keep q s) : Keep q
    (hashChunks s j x x3).1 := by
  induction x3 generalizing s j x with
  | nil =>
    unfold hashChunks; (try simp only [])
    repeat' with_reducible
      first
      | assumption | apply imgRead_keeps | intro _ | refine keep_ofPair (by assumption) ?_ | split
      | simp only [keep_mk, keep_fold, id_eq]
  | cons _ _ ih =>
    unfold hashChunks; (try simp only [])
    repeat' with_reducible
      first
      | assumption | apply imgRead_keeps | apply ih | intro _ | refine keep_ofPair (by assumption) ?_ | split
      | simp only [keep_mk, keep_fold, id_eq]

theorem weightRead_keeps (q : KeepArgs) (s : State) (j : LoadJob) (m : Layout) (b : List (Nat × Nat)) (x : Sec) (h : Keep q
    s) : Keep q (weightRead s j m b x).1 := by
  unfold weightRead
  repeat' with_reducible
    first
    | assumption | apply hashChunks_keeps | intro _ | refine keep_ofPair (by assumption) ?_ | split
    | simp only [keep_mk, keep_fold, id_eq]

theorem plainRead_keeps (q : KeepArgs) (s : State) (j : LoadJob) (x : Sec) (h : Keep q s) : Keep q (plainRead s j x).1 := by
  unfold plainRead
  repeat' with_reducible
    first
    | assumption | apply imgRead_keeps | intro _ | refine keep_ofPair (by assumption) ?_ | split
    | simp only [keep_mk, keep_fold, id_eq]

theorem reread_keeps (q : KeepArgs) (s : State) (j : LoadJob) (m : Layout) (b : List (Nat × Nat)) (x4 : List Sec) (h : Keep q
    s) : Keep q (reread s j m b x4).1 := by
  induction x4 generalizing s j m b with
  | nil =>
    unfold reread; (try simp only [])
    repeat' with_reducible
      first
      | assumption | apply weightRead_keeps | apply plainRead_keeps | intro _ | refine keep_ofPair (by assumption) ?_
      | split | simp only [keep_mk, keep_fold, id_eq]
  | cons _ _ ih =>
    unfold reread; (try simp only [])
    repeat' with_reducible
      first
      | assumption | apply weightRead_keeps | apply plainRead_keeps | apply ih | intro _
      | refine keep_ofPair (by assumption) ?_ | split | simp only [keep_mk, keep_fold, id_eq]

theorem placeConsts_keeps (q : KeepArgs) (s : State) (j : LoadJob) (m : Layout) (h : Keep q s) : Keep q (placeConsts s j m)
    := by
  unfold placeConsts
  repeat' with_reducible
    first
    | assumption | apply tenWrite_keeps | apply keep_foldl | intro _ | split | simp only [keep_mk, keep_fold, id_eq]

theorem commitFails_keeps (q : KeepArgs) (s : State) (j : LoadJob) (x : BadSec) (h : Keep q s) : Keep q (commitFails s j x)
    := by
  unfold commitFails
  repeat' with_reducible
    first
    | assumption | apply placeConsts_keeps | apply putJob_keeps | intro _ | split | simp only [keep_mk, keep_fold, id_eq]

theorem moveCtx_keeps (q : KeepArgs) (s : State) (x : Ctx) (c : Nat) (x3 : Nat) (h : Keep q s) : Keep q (moveCtx s x c x3) := by
  unfold moveCtx
  repeat' with_reducible
    first
    | assumption | apply partCopy_keeps | apply leaveSlot_keeps | apply releaseSlot_keeps | apply enterSlot_keeps | intro _
    | split | simp only [keep_mk, keep_fold, id_eq]

theorem reloadCtx_keeps (q : KeepArgs) (s : State) (j : LoadJob) (m : Layout) (b : List (Nat × Nat)) (k : Nat) (x5 : Nat) (h
    : Keep q s) : Keep q (reloadCtx s j m b k x5) := by
  unfold reloadCtx
  repeat' with_reducible
    first
    | assumption | apply moveCtx_keeps | apply modCtxs_keeps | apply modClu_keeps | apply modSlot_keeps | intro _ | split
    | simp only [keep_mk, keep_fold, id_eq]

theorem reloadCtxs_keeps (q : KeepArgs) (s : State) (j : LoadJob) (m : Layout) (b : List (Nat × Nat)) (x4 : Nat) (x5 : List
    Nat) (h : Keep q s) : Keep q (reloadCtxs s j m b x4 x5) := by
  induction x5 generalizing s j m b x4 with
  | nil =>
    unfold reloadCtxs; (try simp only [])
    repeat' with_reducible
      first
      | assumption | apply reloadCtx_keeps | intro _ | split | simp only [keep_mk, keep_fold, id_eq]
  | cons _ _ ih =>
    unfold reloadCtxs; (try simp only [])
    repeat' with_reducible
      first
      | assumption | apply reloadCtx_keeps | apply ih | intro _ | split | simp only [keep_mk, keep_fold, id_eq]

theorem writeTile_keeps (q : KeepArgs) (j : LoadJob) (s : State) (t : Nat × Nat × Nat × Bool) (h : Keep q s) : Keep q
    (writeTile j s t) := by
  unfold writeTile
  repeat' with_reducible
    first
    | assumption | apply putTile_keeps | apply fillTile_keeps | intro _ | split | simp only [keep_mk, keep_fold, id_eq]

theorem clearAcc_keeps (q : KeepArgs) (s : State) (c : Nat) (n : Nat) (h : Keep q s) : Keep q (clearAcc s c n) := by
  unfold clearAcc
  repeat' with_reducible
    first
    | assumption | apply modClu_keeps | apply keepV_weDel | intro _ | split | simp only [keep_mk, keep_fold, id_eq]

theorem placeAcc_keeps (q : KeepArgs) (s : State) (j : LoadJob) (m : Layout) (b : List (Nat × Nat)) (e : List Byte) (h : Keep
    q s) : Keep q (placeAcc s j m b e).1 := by
  unfold placeAcc
  repeat' with_reducible
    first
    | assumption | apply modClu_keeps | intro _ | split | simp only [keep_mk, keep_fold, id_eq]

theorem placeAccs_keeps (q : KeepArgs) (s : State) (j : LoadJob) (m : Layout) (b : List (Nat × Nat)) (x4 : List (List Byte))
    (h : Keep q s) : Keep q (placeAccs s j m b x4).1 := by
  induction x4 generalizing s j m b with
  | nil =>
    unfold placeAccs; (try simp only [])
    repeat' with_reducible
      first
      | assumption | apply placeAcc_keeps | intro _ | refine keep_ofPair (by assumption) ?_ | split
      | simp only [keep_mk, keep_fold, id_eq]
  | cons _ _ ih =>
    unfold placeAccs; (try simp only [])
    repeat' with_reducible
      first
      | assumption | apply placeAcc_keeps | apply ih | intro _ | refine keep_ofPair (by assumption) ?_ | split
      | simp only [keep_mk, keep_fold, id_eq]

theorem reloadAccs_keeps (q : KeepArgs) (s : State) (j : LoadJob) (m : Layout) (b : List (Nat × Nat)) (l : Load) (moved :
    List (Nat × Nat)) (es : List (List Byte)) (h : Keep q s) : Keep q (reloadAccs s j m b l moved es).1 := by
  unfold reloadAccs
  repeat' with_reducible
    first
    | assumption | apply clearAcc_keeps | apply placeAccs_keeps | apply keep_foldl | intro _
    | refine keep_ofPair (by assumption) ?_ | split | simp only [keep_mk, keep_fold, id_eq]

theorem emptyTiles_keeps (q : KeepArgs) (s : State) (ts : List (Nat × Nat)) (h : Keep q s) : Keep q (emptyTiles s ts) := by
  unfold emptyTiles
  repeat' with_reducible
    first
    | assumption | apply putTile_keeps | apply keep_foldl | intro _ | split | simp only [keep_mk, keep_fold, id_eq]

theorem loseLate_keeps (q : KeepArgs) (s : State) (num : Nat) (h : Keep q s) : Keep q (loseLate s num) := by
  unfold loseLate
  repeat' with_reducible
    first
    | assumption | apply haltFaulted_keeps | apply degradeAll_keeps | apply keep_foldl | intro _ | split
    | simp only [keep_mk, keep_fold, id_eq]

theorem putSplit_keeps (q : KeepArgs) (s : State) (c : Nat) (v : Nat) (h : Keep q s) : Keep q (putSplit s c v) := by
  unfold putSplit
  repeat' with_reducible
    first
    | assumption | apply setReg_keeps | apply ephPut_keeps | apply keep_foldl | intro _ | split
    | simp only [keep_mk, keep_fold, id_eq]

theorem setSplit_keeps (q : KeepArgs) (s : State) (c : Nat) (auto : Bool) (dec : Nat) (h : Keep q s) : Keep q (setSplit s c
    auto dec) := by
  unfold setSplit
  repeat' with_reducible
    first
    | assumption | apply putSplit_keeps | intro _ | split | simp only [keep_mk, keep_fold, id_eq]

theorem goLive_keeps (q : KeepArgs) (s : State) (j : LoadJob) (m : Layout) (pl : Plan) (num : Nat) (h : Keep q s) : Keep q
    (goLive s j m pl num) := by
  unfold goLive
  repeat' with_reducible
    first
    | assumption | apply setSplit_keeps | apply modSlot_keeps | apply keep_foldl | intro _ | split
    | simp only [keep_mk, keep_fold, id_eq]

theorem placeReload_keeps (q : KeepArgs) (s : State) (j : LoadJob) (m : Layout) (pl : Plan) (l : Load) (qs : List Nat) (h :
    Keep q s) : Keep q (placeReload s j m pl l qs) := by
  unfold placeReload
  repeat' with_reducible
    first
    | assumption | apply reloadCtxs_keeps | apply writeTile_keeps | apply reloadAccs_keeps | apply emptyTiles_keeps
    | apply loadDone_keeps | apply loseLate_keeps | apply goLive_keeps | apply keep_foldl | intro _
    | refine keep_ofPair (by assumption) ?_ | split | simp only [keep_mk, keep_fold, id_eq]

theorem placeWords_keeps (q : KeepArgs) (s : State) (m : Layout) (first : Nat) (h : Keep q s) : Keep q (placeWords s m first)
    := by
  unfold placeWords
  repeat' with_reducible
    first
    | assumption | apply ctxStore_keeps | apply keep_foldl | intro _ | split | simp only [keep_mk, keep_fold, id_eq]

theorem placeCtx_keeps (q : KeepArgs) (s : State) (j : LoadJob) (m : Layout) (b : List (Nat × Nat)) (num : Nat) (k : Nat) (x6
    : Nat) (at0 : Nat) (h : Keep q s) : Keep q (placeCtx s j m b num k x6 at0) := by
  unfold placeCtx
  repeat' with_reducible
    first
    | assumption | apply physZero_keeps | apply enterSlot_keeps | apply modCtxs_keeps | intro _ | split
    | simp only [keep_mk, keep_fold, id_eq]

theorem placeCtxs_keeps (q : KeepArgs) (s : State) (j : LoadJob) (m : Layout) (b : List (Nat × Nat)) (num : Nat) (x5 : Nat)
    (x6 : List (Nat × Nat)) (h : Keep q s) : Keep q (placeCtxs s j m b num x5 x6) := by
  induction x6 generalizing s j m b num x5 with
  | nil =>
    unfold placeCtxs; (try simp only [])
    repeat' with_reducible
      first
      | assumption | apply placeCtx_keeps | intro _ | split | simp only [keep_mk, keep_fold, id_eq]
  | cons _ _ ih =>
    unfold placeCtxs; (try simp only [])
    repeat' with_reducible
      first
      | assumption | apply placeCtx_keeps | apply ih | intro _ | split | simp only [keep_mk, keep_fold, id_eq]

theorem placeInsts_keeps (q : KeepArgs) (s : State) (j : LoadJob) (m : Layout) (num : Nat) (h : Keep q s) : Keep q
    (placeInsts s j m num) := by
  unfold placeInsts
  repeat' with_reducible
    first
    | assumption | intro _ | split | simp only [keep_mk, keep_fold, id_eq]

theorem placeLoad_keeps (q : KeepArgs) (s : State) (j : LoadJob) (m : Layout) (pl : Plan) (wd : List (List Byte)) (qs : List
    Nat) (saves : List Nat) (h : Keep q s) : Keep q (placeLoad s j m pl wd qs saves) := by
  unfold placeLoad
  repeat' with_reducible
    first
    | assumption | apply writeTile_keeps | apply placeWords_keeps | apply placeCtxs_keeps | apply placeConsts_keeps
    | apply placeAccs_keeps | apply placeInsts_keeps | apply loadDone_keeps | apply loseLate_keeps | apply goLive_keeps
    | apply keep_foldl | intro _ | refine keep_ofPair (by assumption) ?_ | split | simp only [keep_mk, keep_fold, id_eq]

end Sys2Proof.Machine
end

