-- ==== Sys2Proof/Laws/Keep6.lean ====
section
/-! SUPPORT. One lemma per operation and per command: it keeps what `Keep` says (part 6 of 7, callees before callers). -/

namespace Sys2Proof.Machine

set_option linter.unusedSimpArgs false
set_option linter.unusedVariables false

theorem commitRest_keeps (q : KeepArgs) (s : State) (j : LoadJob) (h : Keep q s) : Keep q (commitRest s j) := by
  unfold commitRest
  repeat' with_reducible
    first
    | assumption | apply putJob_keeps | apply setLog_keeps | apply reread_keeps | apply commitFails_keeps
    | apply placeReload_keeps | apply placeLoad_keeps | intro _ | refine keep_ofPair (by assumption) ?_ | split
    | simp only [keep_mk, keep_fold, id_eq]

theorem dropCtx_keeps (q : KeepArgs) (s : State) (x : Ctx) (h : Keep q s) : Keep q (dropCtx s x) := by
  unfold dropCtx
  repeat' with_reducible
    first
    | assumption | apply leaveSlot_keeps | apply scrubAdd_keeps | intro _ | split | simp only [keep_mk, keep_fold, id_eq]

theorem dropRegion_keeps (q : KeepArgs) (s : State) (f : Nat) (r : Nat) (h : Keep q s) : Keep q (dropRegion s f r) := by
  unfold dropRegion
  repeat' with_reducible
    first
    | assumption | apply keepV_weDel | intro _ | split | simp only [keep_mk, keep_fold, id_eq]

theorem dropLoad_keeps (q : KeepArgs) (s : State) (l : Load) (h : Keep q s) : Keep q (dropLoad s l) := by
  unfold dropLoad
  repeat' with_reducible
    first
    | assumption | apply dropCtx_keeps | apply clearAcc_keeps | apply emptyTiles_keeps | apply dropRegion_keeps
    | apply modCtxs_keeps | apply keep_foldl | intro _ | split | simp only [keep_mk, keep_fold, id_eq]

theorem applyBypass_keeps (q : KeepArgs) (s : State) (c : Nat) (h : Keep q s) : Keep q (applyBypass s c) := by
  unfold applyBypass
  repeat' with_reducible
    first
    | assumption | apply modClu_keeps | intro _ | split | simp only [keep_mk, keep_fold, id_eq]

theorem applySpare_keeps (q : KeepArgs) (s : State) (c : Nat) (h : Keep q s) : Keep q (applySpare s c) := by
  unfold applySpare
  repeat' with_reducible
    first
    | assumption | apply modClu_keeps | intro _ | split | simp only [keep_mk, keep_fold, id_eq]

theorem commitFirst_keeps (q : KeepArgs) (s : State) (j : LoadJob) (h : Keep q s) : Keep q (commitFirst s j) := by
  unfold commitFirst
  repeat' with_reducible
    first
    | assumption | apply dropLoad_keeps | apply bindRsv_keeps | apply applyBypass_keeps | apply applySpare_keeps
    | apply keep_foldl | intro _ | split | simp only [keep_mk, keep_fold, id_eq]

theorem doLoadCommit_keeps (q : KeepArgs) (s : State) (h : Keep q s) : Keep q (doLoadCommit s) := by
  unfold doLoadCommit
  repeat' with_reducible
    first
    | assumption | apply commitRest_keeps | apply commitFirst_keeps | intro _ | split | simp only [keep_mk, keep_fold, id_eq]

theorem execLoadCommit_keeps (q : KeepArgs) (s : State) (h : Keep q s) : ∀ u, (execLoadCommit s) = .next u → Keep q u := by
  intro u hu; unfold execLoadCommit at hu; refine dispCmd_keeps q _ _ ?_ h _ hu
  repeat' with_reducible
    first
    | assumption | apply doLoadCommit_keeps | intro _ | split | simp only [keep_mk, keep_fold, id_eq]

theorem doLoadWait_keeps (q : KeepArgs) (s : State) (h : Keep q s) : Keep q (doLoadWait s) := by
  unfold doLoadWait
  repeat' with_reducible
    first
    | assumption | apply commitRest_keeps | intro _ | split | simp only [keep_mk, keep_fold, id_eq]

theorem doUnload_keeps (q : KeepArgs) (s : State) (h : Keep q s) : Keep q (doUnload s) := by
  unfold doUnload
  repeat' with_reducible
    first
    | assumption | apply endJob_keeps | apply putJob_keeps | apply closeLoad_keeps | apply dropLoad_keeps | intro _ | split
    | simp only [keep_mk, keep_fold, id_eq]

theorem execUnload_keeps (q : KeepArgs) (s : State) (h : Keep q s) : ∀ u, (execUnload s) = .next u → Keep q u := by
  intro u hu; unfold execUnload at hu; refine dispCmd_keeps q _ _ ?_ h _ hu
  repeat' with_reducible
    first
    | assumption | apply doUnload_keeps | intro _ | split | simp only [keep_mk, keep_fold, id_eq]

theorem doUnwind_keeps (q : KeepArgs) (s : State) (h : Keep q s) : Keep q (doUnwind s) := by
  unfold doUnwind
  repeat' with_reducible
    first
    | assumption | apply endJob_keeps | intro _ | split | simp only [keep_mk, keep_fold, id_eq]

theorem execLoadUnwind_keeps (q : KeepArgs) (s : State) (h : Keep q s) : ∀ u, (execLoadUnwind s) = .next u → Keep q u := by
  intro u hu; unfold execLoadUnwind at hu; refine dispCmd_keeps q _ _ ?_ h _ hu
  repeat' with_reducible
    first
    | assumption | apply doUnwind_keeps | intro _ | split | simp only [keep_mk, keep_fold, id_eq]

theorem execLoadWaitEnd_keeps (q : KeepArgs) (s : State) (h : Keep q s) : ∀ u, (execLoadWaitEnd s) = .next u → Keep q u := by
  intro u hu; unfold execLoadWaitEnd at hu; refine dispCmd_keeps q _ _ ?_ h _ hu
  repeat' with_reducible
    first
    | assumption | apply doLoadWait_keeps | intro _ | split | simp only [keep_mk, keep_fold, id_eq]

theorem coldLoad_keeps (q : KeepArgs) (k : Cls) (c : Nat) (s : State) (t : Nat × WTile) (h : Keep q s) : Keep q (coldLoad k c
    s t) := by
  unfold coldLoad
  repeat' with_reducible
    first
    | assumption | apply putTile_keeps | apply physRead_keeps | apply fillTile_keeps | intro _
    | refine keep_ofPair (by assumption) ?_ | split | simp only [keep_mk, keep_fold, id_eq]

theorem markSwitch_keeps (q : KeepArgs) (s : State) (id : Nat) (ent : Bool) (h : Keep q s) : Keep q (markSwitch s id ent) := by
  unfold markSwitch
  repeat' with_reducible
    first
    | assumption | apply modCtxs_keeps | intro _ | split | simp only [keep_mk, keep_fold, id_eq]

theorem saveCtx_keeps (q : KeepArgs) (s : State) (x : Ctx) (h : Keep q s) : Keep q (saveCtx s x) := by
  unfold saveCtx
  repeat' with_reducible
    first
    | assumption | apply partOut_keeps | apply leaveSlot_keeps | apply modCtxs_keeps | intro _ | split
    | simp only [keep_mk, keep_fold, id_eq]

theorem doSwitch_keeps (q : KeepArgs) (c : Nat) (s : State) (h : Keep q s) : Keep q (doSwitch c s) := by
  unfold doSwitch
  repeat' with_reducible
    first
    | assumption | apply markSwitch_keeps | apply saveCtx_keeps | intro _ | split | simp only [keep_mk, keep_fold, id_eq]

theorem doSplitEnd_keeps (q : KeepArgs) (c : Nat) (s : State) (h : Keep q s) : Keep q (doSplitEnd c s) := by
  unfold doSplitEnd
  repeat' with_reducible
    first
    | assumption | apply modClu_keeps | apply putSplit_keeps | apply bumpC_keeps | intro _ | split
    | simp only [keep_mk, keep_fold, id_eq]

theorem execSplitWindowEnd_keeps (q : KeepArgs) (c : Nat) (s : State) (h : Keep q s) : ∀ u, (execSplitWindowEnd c s) = .next
    u → Keep q u := by
  intro u hu; unfold execSplitWindowEnd at hu; refine cluRun_keeps q _ _ _ ?_ h _ hu
  repeat' with_reducible
    first
    | assumption | apply doSplitEnd_keeps | intro _ | split | simp only [keep_mk, keep_fold, id_eq]

theorem restoreCtx_keeps (q : KeepArgs) (s : State) (x : Ctx) (k : Slot) (x3 : Nat) (h : Keep q s) : Keep q (restoreCtx s x k
    x3) := by
  unfold restoreCtx
  repeat' with_reducible
    first
    | assumption | apply coldLoad_keeps | apply bump_keeps | apply partIn_keeps | apply enterSlot_keeps
    | apply modCtxs_keeps | apply startWanted_keeps | apply keep_foldl | intro _ | split | simp only [keep_mk, keep_fold, id_eq]

theorem doSwitchDone_keeps (q : KeepArgs) (c : Nat) (sl : Nat) (s : State) (h : Keep q s) : Keep q (doSwitchDone c sl s) := by
  unfold doSwitchDone
  repeat' with_reducible
    first
    | assumption | apply restoreCtx_keeps | intro _ | split | simp only [keep_mk, keep_fold, id_eq]

theorem execContextSwitch_keeps (q : KeepArgs) (c : Nat) (s : State) (h : Keep q s) : ∀ u, (execContextSwitch c s) = .next u
    → Keep q u := by
  intro u hu; unfold execContextSwitch at hu; refine cluRun_keeps q _ _ _ ?_ h _ hu
  repeat' with_reducible
    first
    | assumption | apply doSwitch_keeps | intro _ | split | simp only [keep_mk, keep_fold, id_eq]

theorem execSwitchDone_keeps (q : KeepArgs) (c : Nat) (sl : Nat) (s : State) (h : Keep q s) : ∀ u, (execSwitchDone c sl s) =
    .next u → Keep q u := by
  intro u hu; unfold execSwitchDone at hu; refine slotRun_keeps q _ _ _ _ ?_ h _ hu
  repeat' with_reducible
    first
    | assumption | apply doSwitchDone_keeps | intro _ | split | simp only [keep_mk, keep_fold, id_eq]

theorem doStamp_keeps (q : KeepArgs) (c : Nat) (sl : Nat) (s : State) (h : Keep q s) : Keep q (doStamp c sl s) := by
  unfold doStamp
  repeat' with_reducible
    first
    | assumption | apply modTrc_keeps | apply trcPut_keeps | intro _ | split | simp only [keep_mk, keep_fold, id_eq]

theorem pulseLoad_keeps (q : KeepArgs) (s : State) (h : Keep q s) : Keep q (pulseLoad s) := by
  unfold pulseLoad
  repeat' with_reducible
    first
    | assumption | apply setReg_keeps | intro _ | split | simp only [keep_mk, keep_fold, id_eq]

theorem doPulse_keeps (q : KeepArgs) (s : State) (h : Keep q s) : Keep q (doPulse s) := by
  unfold doPulse
  repeat' with_reducible
    first
    | assumption | apply markSet_keeps | apply pulseLoad_keeps | apply ftcCorrect_keeps | intro _ | split
    | simp only [keep_mk, keep_fold, id_eq]

theorem doRingWrite_keeps (q : KeepArgs) (c : Nat) (s : State) (h : Keep q s) : Keep q (doRingWrite c s) := by
  unfold doRingWrite
  repeat' with_reducible
    first
    | assumption | apply modClu_keeps | apply spadWrite_keeps | apply trcPay_keeps | apply modTrc_keeps | apply keep_foldl
    | intro _ | refine keep_ofPair (by assumption) ?_ | split | simp only [keep_mk, keep_fold, id_eq]

theorem execTraceStamp_keeps (q : KeepArgs) (c : Nat) (sl : Nat) (s : State) (h : Keep q s) : ∀ u, (execTraceStamp c sl s) =
    .next u → Keep q u := by
  intro u hu; unfold execTraceStamp at hu; refine slotRun_keeps q _ _ _ _ ?_ h _ hu
  repeat' with_reducible
    first
    | assumption | apply doStamp_keeps | intro _ | split | simp only [keep_mk, keep_fold, id_eq]

theorem execTraceRingWrite_keeps (q : KeepArgs) (c : Nat) (s : State) (h : Keep q s) : ∀ u, (execTraceRingWrite c s) = .next
    u → Keep q u := by
  intro u hu; unfold execTraceRingWrite at hu; refine cluRun_keeps q _ _ _ ?_ h _ hu
  repeat' with_reducible
    first
    | assumption | apply doRingWrite_keeps | intro _ | split | simp only [keep_mk, keep_fold, id_eq]

theorem doTraceWrite_keeps (q : KeepArgs) (f : Nat) (c : Nat) (sl : Nat) (v : Nat) (s : State) (h : Keep q s) : Keep q
    (doTraceWrite f c sl v s) := by
  unfold doTraceWrite
  repeat' with_reducible
    first
    | assumption | apply setReg_keeps | apply modTrc_keeps | intro _ | split | simp only [keep_mk, keep_fold, id_eq]

theorem doFtcStep_keeps (q : KeepArgs) (s : State) (h : Keep q s) : Keep q (doFtcStep s) := by
  unfold doFtcStep
  repeat' with_reducible
    first
    | assumption | intro _ | split | simp only [keep_mk, keep_fold, id_eq]

theorem passTick_keeps (q : KeepArgs) (s : State) (h : Keep q s) : Keep q (passTick s) := by
  unfold passTick
  repeat' with_reducible
    first
    | assumption | intro _ | split | simp only [keep_mk, keep_fold, id_eq]

theorem doPeriodEnd_keeps (q : KeepArgs) (s : State) (h : Keep q s) : Keep q (doPeriodEnd s) := by
  unfold doPeriodEnd
  repeat' with_reducible
    first
    | assumption | apply passTick_keeps | intro _ | split | simp only [keep_mk, keep_fold, id_eq]

theorem execFtcPeriodEnd_keeps (q : KeepArgs) (s : State) (h : Keep q s) : ∀ u, (execFtcPeriodEnd s) = .next u → Keep q u := by
  intro u hu; unfold execFtcPeriodEnd at hu; refine hubCmd_keeps q _ _ ?_ h _ hu
  repeat' with_reducible
    first
    | assumption | apply doPeriodEnd_keeps | intro _ | split | simp only [keep_mk, keep_fold, id_eq]

theorem doSyncTimeout_keeps (q : KeepArgs) (s : State) (h : Keep q s) : Keep q (doSyncTimeout s) := by
  unfold doSyncTimeout
  repeat' with_reducible
    first
    | assumption | apply markSet_keeps | intro _ | split | simp only [keep_mk, keep_fold, id_eq]

theorem execTraceEnable_keeps (q : KeepArgs) (f : Nat) (c : Nat) (sl : Nat) (v : Nat) (s : State) (h : Keep q s) : ∀ u,
    (execTraceEnable f c sl v s) = .next u → Keep q u := by
  intro u hu; unfold execTraceEnable at hu; refine slotCmd_keeps q _ _ _ _ ?_ h _ hu
  repeat' with_reducible
    first
    | assumption | apply doTraceWrite_keeps | intro _ | split | simp only [keep_mk, keep_fold, id_eq]

theorem execSyncPulse_keeps (q : KeepArgs) (s : State) (h : Keep q s) : ∀ u, (execSyncPulse s) = .next u → Keep q u := by
  intro u hu; unfold execSyncPulse at hu; refine hubCmd_keeps q _ _ ?_ h _ hu
  repeat' with_reducible
    first
    | assumption | apply doPulse_keeps | intro _ | split | simp only [keep_mk, keep_fold, id_eq]

theorem execFtcStep_keeps (q : KeepArgs) (s : State) (h : Keep q s) : ∀ u, (execFtcStep s) = .next u → Keep q u := by
  intro u hu; unfold execFtcStep at hu; refine hubCmd_keeps q _ _ ?_ h _ hu
  repeat' with_reducible
    first
    | assumption | apply doFtcStep_keeps | intro _ | split | simp only [keep_mk, keep_fold, id_eq]

theorem execFtcSyncTimeout_keeps (q : KeepArgs) (s : State) (h : Keep q s) : ∀ u, (execFtcSyncTimeout s) = .next u → Keep q u
    := by
  intro u hu; unfold execFtcSyncTimeout at hu; refine hubCmd_keeps q _ _ ?_ h _ hu
  repeat' with_reducible
    first
    | assumption | apply doSyncTimeout_keeps | intro _ | split | simp only [keep_mk, keep_fold, id_eq]

theorem retune_keeps (q : KeepArgs) (s : State) (c : Nat) (h : Keep q s) : Keep q (retune s c) := by
  unfold retune
  repeat' with_reducible
    first
    | assumption | apply stepFresh_keeps | apply modClu_keeps | intro _ | split | simp only [keep_mk, keep_fold, id_eq]

theorem modClus_keeps (q : KeepArgs) (s : State) (p : Nat → Bool) (g : Nat → Clu → Clu) (h : Keep q s) : Keep q (modClus s p
    g) := by
  unfold modClus
  repeat' with_reducible
    first
    | assumption | intro _ | split | simp only [keep_mk, keep_fold, id_eq]

theorem retuneAll_keeps (q : KeepArgs) (s : State) (p : Nat → Bool) (h : Keep q s) : Keep q (retuneAll s p) := by
  unfold retuneAll
  repeat' with_reducible
    first
    | assumption | apply stepFresh_keeps | apply modClus_keeps | intro _ | split | simp only [keep_mk, keep_fold, id_eq]

theorem setVfs_keeps (q : KeepArgs) (s : State) (en : Bool) (h : Keep q s) : Keep q (setVfs s en) := by
  unfold setVfs
  repeat' with_reducible
    first
    | assumption | apply resetFunc_keeps | apply keep_foldl | intro _ | split | simp only [keep_mk, keep_fold, id_eq]

theorem cfgWrite_keeps (q : KeepArgs) (s : State) (f : Nat) (o : Nat) (bs : List Byte) (h : Keep q s) : Keep q (cfgWrite s f
    o bs) := by
  unfold cfgWrite
  repeat' with_reducible
    first
    | assumption | apply cfgPuts_keeps | apply setBme_keeps | apply flushVecs_keeps | apply setVfs_keeps | intro _ | split
    | simp only [keep_mk, keep_fold, id_eq]

theorem doConfig_keeps (q : KeepArgs) (f : Nat) (off : Nat) (size : Nat) (w : Option Nat) (s : State) (h : Keep q s) : Keep q
    (doConfig f off size w s) := by
  unfold doConfig
  repeat' with_reducible
    first
    | assumption | apply emit_keeps | apply cfgWrite_keeps | intro _ | split | simp only [keep_mk, keep_fold, id_eq]

theorem execConfigRequest_keeps (q : KeepArgs) (f : Nat) (off : Nat) (size : Nat) (w : Option Nat) (s : State) (h : Keep q s)
    : ∀ u, (execConfigRequest f off size w s) = .next u → Keep q u := by
  intro u hu; unfold execConfigRequest at hu; (try simp only [] at hu); (repeat' split at hu) <;> first | (cases hu <;> ((repeat' with_reducible first | assumption | apply doConfig_keeps | intro _ | split | simp only [keep_mk, keep_fold, id_eq]); done)) | (refine funcCmd_keeps q _ _ _ ?_ ?_ _ hu <;> ((repeat' with_reducible first | assumption | apply doConfig_keeps | intro _ | split | simp only [keep_mk, keep_fold, id_eq]); done))

theorem dropWork_keeps (q : KeepArgs) (s : State) (f : Nat) (h : Keep q s) : Keep q (dropWork s f) := by
  unfold dropWork
  repeat' with_reducible
    first
    | assumption | intro _ | split | simp only [keep_mk, keep_fold, id_eq]

theorem resumeForReset_keeps (q : KeepArgs) (s : State) (h : Keep q s) : Keep q (resumeForReset s) := by
  unfold resumeForReset
  repeat' with_reducible
    first
    | assumption | intro _ | split | simp only [keep_mk, keep_fold, id_eq]

theorem dropFuncMsgs_keeps (q : KeepArgs) (s : State) (f : Nat) (h : Keep q s) : Keep q (dropFuncMsgs s f) := by
  unfold dropFuncMsgs
  repeat' with_reducible
    first
    | assumption | apply bump_keeps | intro _ | split | simp only [keep_mk, keep_fold, id_eq]

theorem dropJobs_keeps (q : KeepArgs) (s : State) (f : Nat) (h : Keep q s) : Keep q (dropJobs s f) := by
  unfold dropJobs
  repeat' with_reducible
    first
    | assumption | apply setHold_keeps | apply keep_foldl | intro _ | split | simp only [keep_mk, keep_fold, id_eq]

theorem resetTenRegs_keeps (q : KeepArgs) (s : State) (f : Nat) (h : Keep q s) : Keep q (resetTenRegs s f) := by
  unfold resetTenRegs
  repeat' with_reducible
    first
    | assumption | apply modFunc_keeps | apply keepV_lock | apply keepV_spDrop | apply keepV_seDrop | apply keepV_weDrop
    | apply keepV_dpDrop | apply keepV_deDrop | apply keepV_weDel | intro _ | split | simp only [keep_mk, keep_fold, id_eq]

theorem resetFunc_keeps (q : KeepArgs) (s : State) (f : Nat) (h : Keep q s) : Keep q (resetFunc s f) := by
  unfold resetFunc
  repeat' with_reducible
    first
    | assumption | apply modFunc_keeps | apply dropWork_keeps | apply dropFuncMsgs_keeps | apply dropJobs_keeps
    | apply dropLoad_keeps | apply resetTenRegs_keeps | apply keep_foldl | intro _ | split
    | simp only [keep_mk, keep_fold, id_eq]

theorem dropWindows_keeps (q : KeepArgs) (s : State) (f : Nat) (h : Keep q s) : Keep q (dropWindows s f) := by
  unfold dropWindows
  repeat' with_reducible
    first
    | assumption | apply scrubAdd_keeps | apply modFunc_keeps | apply keep_foldl | intro _ | split
    | simp only [keep_mk, keep_fold, id_eq]

theorem resetAll_keeps (q : KeepArgs) (s : State) (h : Keep q s) : Keep q (resetAll s) := by
  unfold resetAll
  repeat' with_reducible
    first
    | assumption | apply resetFunc_keeps | apply dropWindows_keeps | apply keep_foldl | apply keepV_spDrop
    | apply keepV_seDrop | apply keepV_weDrop | apply keepV_dpDrop | apply keepV_deDrop | intro _ | split
    | simp only [keep_mk, keep_fold, id_eq]

theorem runReset_keeps (q : KeepArgs) (s : State) (f : Nat) (h : Keep q s) : Keep q (runReset s f) := by
  unfold runReset
  repeat' with_reducible
    first
    | assumption | apply modFunc_keeps | apply resetAll_keeps | apply resetFunc_keeps | intro _ | split
    | simp only [keep_mk, keep_fold, id_eq]

theorem arriveReset_keeps (q : KeepArgs) (f : Nat) (s : State) (h : Keep q s) : Keep q (arriveReset f s) := by
  unfold arriveReset
  repeat' with_reducible
    first
    | assumption | apply modFunc_keeps | apply markSet_keeps | apply resumeForReset_keeps | apply runReset_keeps | intro _
    | split | simp only [keep_mk, keep_fold, id_eq]

theorem execPfFlr_keeps (q : KeepArgs) (s : State) (h : Keep q s) : ∀ u, (execPfFlr s) = .next u → Keep q u := by
  intro u hu; unfold execPfFlr at hu; refine hubCmd_keeps q _ _ ?_ h _ hu
  repeat' with_reducible
    first
    | assumption | apply arriveReset_keeps | intro _ | split | simp only [keep_mk, keep_fold, id_eq]

theorem execHotReset_keeps (q : KeepArgs) (s : State) (h : Keep q s) : ∀ u, (execHotReset s) = .next u → Keep q u := by
  intro u hu; unfold execHotReset at hu; refine hubCmd_keeps q _ _ ?_ h _ hu
  repeat' with_reducible
    first
    | assumption | apply arriveReset_keeps | intro _ | split | simp only [keep_mk, keep_fold, id_eq]

theorem endReset_keeps (q : KeepArgs) (s : State) (f : Nat) (h : Keep q s) : Keep q (endReset s f) := by
  unfold endReset
  repeat' with_reducible
    first
    | assumption | apply modFunc_keeps | apply resetTenRegs_keeps | intro _ | split | simp only [keep_mk, keep_fold, id_eq]

theorem doFlrDone_keeps (q : KeepArgs) (f : Nat) (s : State) (h : Keep q s) : Keep q (doFlrDone f s) := by
  unfold doFlrDone
  repeat' with_reducible
    first
    | assumption | apply endReset_keeps | apply keep_foldl | intro _ | split | simp only [keep_mk, keep_fold, id_eq]

theorem execFlrDone_keeps (q : KeepArgs) (f : Nat) (s : State) (h : Keep q s) : ∀ u, (execFlrDone f s) = .next u → Keep q u
    := by
  intro u hu; unfold execFlrDone at hu; refine funcCmd_keeps q _ _ _ ?_ h _ hu
  repeat' with_reducible
    first
    | assumption | apply doFlrDone_keeps | intro _ | split | simp only [keep_mk, keep_fold, id_eq]

theorem doPerst_keeps (q : KeepArgs) (s : State) (h : Keep q s) : Keep q (doPerst s) := by
  unfold doPerst
  repeat' with_reducible
    first
    | assumption | intro _ | split | simp only [keep_mk, keep_fold, id_eq]

theorem execFlr_keeps (q : KeepArgs) (f : Nat) (s : State) (h : Keep q s) : ∀ u, (execFlr f s) = .next u → Keep q u := by
  intro u hu; unfold execFlr at hu; refine funcCmd_keeps q _ _ _ ?_ h _ hu
  repeat' with_reducible
    first
    | assumption | apply arriveReset_keeps | intro _ | split | simp only [keep_mk, keep_fold, id_eq]

theorem execPerstDeassert_keeps (q : KeepArgs) (s : State) (h : Keep q s) : ∀ u, (execPerstDeassert s) = .next u → Keep q u
    := by
  intro u hu; unfold execPerstDeassert at hu; refine hubCmd_keeps q _ _ ?_ h _ hu
  repeat' with_reducible
    first
    | assumption | apply doPerst_keeps | intro _ | split | simp only [keep_mk, keep_fold, id_eq]

theorem eclRefuse_keeps (q : KeepArgs) (s : State) (h : Keep q s) : Keep q (eclRefuse s) := by
  unfold eclRefuse
  repeat' with_reducible
    first
    | assumption | apply markSet_keeps | intro _ | split | simp only [keep_mk, keep_fold, id_eq]

theorem doEclArm_keeps (q : KeepArgs) (s : State) (h : Keep q s) : Keep q (doEclArm s) := by
  unfold doEclArm
  repeat' with_reducible
    first
    | assumption | apply eclRefuse_keeps | intro _ | split | simp only [keep_mk, keep_fold, id_eq]

theorem doEclCancel_keeps (q : KeepArgs) (s : State) (h : Keep q s) : Keep q (doEclCancel s) := by
  unfold doEclCancel
  repeat' with_reducible
    first
    | assumption | intro _ | split | simp only [keep_mk, keep_fold, id_eq]

theorem eclBoundary_keeps (q : KeepArgs) (s : State) (h : Keep q s) : Keep q (eclBoundary s) := by
  unfold eclBoundary
  repeat' with_reducible
    first
    | assumption | apply doEclArm_keeps | apply doEclCancel_keeps | intro _ | split | simp only [keep_mk, keep_fold, id_eq]

theorem doEphWrite_keeps (q : KeepArgs) (f : Nat) (v : Nat) (s : State) (h : Keep q s) : Keep q (doEphWrite f v s) := by
  unfold doEphWrite
  repeat' with_reducible
    first
    | assumption | apply setReg_keeps | apply modFunc_keeps | intro _ | split | simp only [keep_mk, keep_fold, id_eq]

theorem copyHolds_keeps (q : KeepArgs) (s : State) (i : Item) (h : Keep q s) : Keep q (copyHolds s i) := by
  unfold copyHolds
  repeat' with_reducible
    first
    | assumption | refine tenRead_keeps q _ _ _ _ _ ?_ _ _ (by assumption) | apply copyMove_keeps | apply stepFresh_keeps
    | apply modItem_keeps | intro _ | refine keep_ofPair (by assumption) ?_ | split | simp only [keep_mk, keep_fold, id_eq]

theorem stacksFinish_keeps (q : KeepArgs) (s : State) (h : Keep q s) : Keep q (stacksFinish s) := by
  unfold stacksFinish
  repeat' with_reducible
    first
    | assumption | apply stackHolds_keeps | apply tileHolds_keeps | apply copyHolds_keeps | apply keep_foldl | intro _
    | split | simp only [keep_mk, keep_fold, id_eq]

theorem doEclStopped_keeps (q : KeepArgs) (s : State) (h : Keep q s) : Keep q (doEclStopped s) := by
  unfold doEclStopped
  repeat' with_reducible
    first
    | assumption | apply stacksFinish_keeps | apply resumeForReset_keeps | intro _ | split
    | simp only [keep_mk, keep_fold, id_eq]

theorem acksResume_keeps (q : KeepArgs) (s : State) (h : Keep q s) : Keep q (acksResume s) := by
  unfold acksResume
  repeat' with_reducible
    first
    | assumption | apply stackAcks_keeps | apply keep_foldl | intro _ | split | simp only [keep_mk, keep_fold, id_eq]

theorem copyGoes_keeps (q : KeepArgs) (s : State) (x : Nat × List Byte × Nat) (h : Keep q s) : Keep q (copyGoes s x) := by
  unfold copyGoes
  repeat' with_reducible
    first
    | assumption | apply complete_keeps | apply hostWrite_keeps | apply tenStore_keeps | apply modItem_keeps | intro _
    | split | simp only [keep_mk, keep_fold, id_eq]

theorem copiesResume_keeps (q : KeepArgs) (s : State) (h : Keep q s) : Keep q (copiesResume s) := by
  unfold copiesResume
  repeat' with_reducible
    first
    | assumption | apply copyGoes_keeps | apply keep_foldl | intro _ | split | simp only [keep_mk, keep_fold, id_eq]

theorem doEclStop_keeps (q : KeepArgs) (s : State) (h : Keep q s) : Keep q (doEclStop s) := by
  unfold doEclStop
  repeat' with_reducible
    first
    | assumption | intro _ | split | simp only [keep_mk, keep_fold, id_eq]

theorem execEclCancel_keeps (q : KeepArgs) (s : State) (h : Keep q s) : ∀ u, (execEclCancel s) = .next u → Keep q u := by
  intro u hu; unfold execEclCancel at hu; refine hubCmd_keeps q _ _ ?_ h _ hu
  repeat' with_reducible
    first
    | assumption | apply doEclCancel_keeps | intro _ | split | simp only [keep_mk, keep_fold, id_eq]

theorem shiftAll_keeps (q : KeepArgs) (s : State) (d : Nat) (h : Keep q s) : Keep q (shiftAll s d) := by
  unfold shiftAll
  repeat' with_reducible
    first
    | assumption | intro _ | split | simp only [keep_mk, keep_fold, id_eq]

theorem portsResume_keeps (q : KeepArgs) (s : State) (h : Keep q s) : Keep q (portsResume s) := by
  unfold portsResume
  repeat' with_reducible
    first
    | assumption | apply pump_keeps | apply drain_keeps | apply keep_foldl | intro _ | split
    | simp only [keep_mk, keep_fold, id_eq]

theorem doEclRestart_keeps (q : KeepArgs) (s : State) (h : Keep q s) : Keep q (doEclRestart s) := by
  unfold doEclRestart
  repeat' with_reducible
    first
    | assumption | apply shiftAll_keeps | apply copiesResume_keeps | apply acksResume_keeps | apply portsResume_keeps
    | apply runReset_keeps | apply retuneAll_keeps | apply keep_foldl | intro _ | split | simp only [keep_mk, keep_fold, id_eq]

theorem execEclipseRestart_keeps (q : KeepArgs) (s : State) (h : Keep q s) : ∀ u, (execEclipseRestart s) = .next u → Keep q u
    := by
  intro u hu; unfold execEclipseRestart at hu; refine hubCmd_keeps q _ _ ?_ h _ hu
  repeat' with_reducible
    first
    | assumption | apply doEclRestart_keeps | intro _ | split | simp only [keep_mk, keep_fold, id_eq]

theorem execEclipseStopped_keeps (q : KeepArgs) (s : State) (h : Keep q s) : ∀ u, (execEclipseStopped s) = .next u → Keep q u
    := by
  intro u hu; unfold execEclipseStopped at hu; refine hubCmd_keeps q _ _ ?_ h _ hu
  repeat' with_reducible
    first
    | assumption | apply doEclStopped_keeps | intro _ | split | simp only [keep_mk, keep_fold, id_eq]

theorem execEclArm_keeps (q : KeepArgs) (s : State) (h : Keep q s) : ∀ u, (execEclArm s) = .next u → Keep q u := by
  intro u hu; unfold execEclArm at hu; refine hubCmd_keeps q _ _ ?_ h _ hu
  repeat' with_reducible
    first
    | assumption | apply doEclArm_keeps | intro _ | split | simp only [keep_mk, keep_fold, id_eq]

theorem execEphEnable_keeps (q : KeepArgs) (f : Nat) (v : Nat) (s : State) (h : Keep q s) : ∀ u, (execEphEnable f v s) =
    .next u → Keep q u := by
  intro u hu; unfold execEphEnable at hu; refine funcCmd_keeps q _ _ _ ?_ h _ hu
  repeat' with_reducible
    first
    | assumption | apply doEphWrite_keeps | intro _ | split | simp only [keep_mk, keep_fold, id_eq]

theorem execEclipseStop_keeps (q : KeepArgs) (s : State) (h : Keep q s) : ∀ u, (execEclipseStop s) = .next u → Keep q u := by
  intro u hu; unfold execEclipseStop at hu; refine hubCmd_keeps q _ _ ?_ h _ hu
  repeat' with_reducible
    first
    | assumption | apply doEclStop_keeps | intro _ | split | simp only [keep_mk, keep_fold, id_eq]

theorem doEclResume_keeps (q : KeepArgs) (s : State) (h : Keep q s) : Keep q (doEclResume s) := by
  unfold doEclResume
  repeat' with_reducible
    first
    | assumption | apply eclRefuse_keeps | intro _ | split | simp only [keep_mk, keep_fold, id_eq]

theorem execEclResume_keeps (q : KeepArgs) (s : State) (h : Keep q s) : ∀ u, (execEclResume s) = .next u → Keep q u := by
  intro u hu; unfold execEclResume at hu; refine hubCmd_keeps q _ _ ?_ h _ hu
  repeat' with_reducible
    first
    | assumption | apply doEclResume_keeps | intro _ | split | simp only [keep_mk, keep_fold, id_eq]

theorem eclPend_keeps (q : KeepArgs) (arm : Bool) (s : State) (h : Keep q s) : Keep q (eclPend arm s) := by
  unfold eclPend
  repeat' with_reducible
    first
    | assumption | intro _ | split | simp only [keep_mk, keep_fold, id_eq]

theorem domainLose_keeps (q : KeepArgs) (s : State) (c : Nat) (h : Keep q s) : Keep q (domainLose s c) := by
  unfold domainLose
  repeat' with_reducible
    first
    | assumption | apply modSlot_keeps | apply modClu_keeps | apply keep_foldl | apply keepV_spadZero | apply keepV_wstZero
    | apply keepV_devZero | apply keepV_spDrop | apply keepV_seDrop | apply keepV_weDrop | apply keepV_dpDrop
    | apply keepV_deDrop | intro _ | split | simp only [keep_mk, keep_fold, id_eq]

theorem doPowerOff_keeps (q : KeepArgs) (c : Nat) (s : State) (h : Keep q s) : Keep q (doPowerOff c s) := by
  unfold doPowerOff
  repeat' with_reducible
    first
    | assumption | apply retune_keeps | apply modClu_keeps | apply domainLose_keeps | apply settleCyc_keeps | intro _
    | split | simp only [keep_mk, keep_fold, id_eq]

theorem doStwRestart_keeps (q : KeepArgs) (k : Nat) (ok : Bool) (s : State) (h : Keep q s) : Keep q (doStwRestart k ok s) := by
  unfold doStwRestart
  repeat' with_reducible
    first
    | assumption | apply retuneAll_keeps | apply modClus_keeps | intro _ | split | simp only [keep_mk, keep_fold, id_eq]

theorem emApply_keeps (q : KeepArgs) (s : State) (w : EmWrite) (h : Keep q s) : Keep q (emApply s w) := by
  unfold emApply
  repeat' with_reducible
    first
    | assumption | apply setReg_keeps | apply retuneAll_keeps | intro _ | split | simp only [keep_mk, keep_fold, id_eq]

theorem emNext_keeps (q : KeepArgs) (s : State) (k : Nat) (h : Keep q s) : Keep q (emNext s k) := by
  unfold emNext
  repeat' with_reducible
    first
    | assumption | apply emApply_keeps | intro _ | split | simp only [keep_mk, keep_fold, id_eq]

theorem execEmWriteApply_keeps (q : KeepArgs) (k : Nat) (s : State) (h : Keep q s) : ∀ u, (execEmWriteApply k s) = .next u →
    Keep q u := by
  intro u hu; unfold execEmWriteApply at hu; refine stwCmd_keeps q _ _ _ ?_ h _ hu
  repeat' with_reducible
    first
    | assumption | apply emNext_keeps | intro _ | split | simp only [keep_mk, keep_fold, id_eq]

theorem coverExcess_keeps (q : KeepArgs) (s : State) (x1 : List Nat) (x2 : Nat) (h : Keep q s) : Keep q (coverExcess s x1 x2)
    := by
  induction x1 generalizing s x2 with
  | nil =>
    unfold coverExcess; (try simp only [])
    repeat' with_reducible
      first
      | assumption | apply modClu_keeps | intro _ | split | simp only [keep_mk, keep_fold, id_eq]
  | cons _ _ ih =>
    unfold coverExcess; (try simp only [])
    repeat' with_reducible
      first
      | assumption | apply modClu_keeps | apply ih | intro _ | split | simp only [keep_mk, keep_fold, id_eq]

theorem useRoom_keeps (q : KeepArgs) (s : State) (x1 : List Nat) (x2 : Nat) (h : Keep q s) : Keep q (useRoom s x1 x2) := by
  induction x1 generalizing s x2 with
  | nil =>
    unfold useRoom; (try simp only [])
    repeat' with_reducible
      first
      | assumption | apply modClu_keeps | intro _ | split | simp only [keep_mk, keep_fold, id_eq]
  | cons _ _ ih =>
    unfold useRoom; (try simp only [])
    repeat' with_reducible
      first
      | assumption | apply modClu_keeps | apply ih | intro _ | split | simp only [keep_mk, keep_fold, id_eq]

theorem powerStep_keeps (q : KeepArgs) (s : State) (k : Nat) (w : Nat) (h : Keep q s) : Keep q (powerStep s k w) := by
  unfold powerStep
  repeat' with_reducible
    first
    | assumption | apply stepFresh_keeps | apply coverExcess_keeps | apply useRoom_keeps | intro _ | split
    | simp only [keep_mk, keep_fold, id_eq]

theorem doLoop_keeps (q : KeepArgs) (k : Nat) (die : List Nat) (pavg : Nat) (pmax1 : Nat) (s : State) (h : Keep q s) : Keep q
    (doLoop k die pavg pmax1 s) := by
  unfold doLoop
  repeat' with_reducible
    first
    | assumption | apply modClus_keeps | apply powerStep_keeps | apply retuneAll_keeps | apply setReg_keeps
    | apply keep_foldl | intro _ | split | simp only [keep_mk, keep_fold, id_eq]

theorem execStewardLoop_keeps (q : KeepArgs) (k : Nat) (die : List Nat) (pavg : Nat) (pmax1 : Nat) (s : State) (h : Keep q s)
    : ∀ u, (execStewardLoop k die pavg pmax1 s) = .next u → Keep q u := by
  intro u hu; unfold execStewardLoop at hu; refine stwCmd_keeps q _ _ _ ?_ h _ hu
  repeat' with_reducible
    first
    | assumption | apply doLoop_keeps | intro _ | split | simp only [keep_mk, keep_fold, id_eq]

theorem doEmWrite_keeps (q : KeepArgs) (f : Nat) (off : Nat) (size : Nat) (v : Nat) (s : State) (h : Keep q s) : Keep q
    (doEmWrite f off size v s) := by
  unfold doEmWrite
  repeat' with_reducible
    first
    | assumption | apply bump_keeps | apply emApply_keeps | intro _ | split | simp only [keep_mk, keep_fold, id_eq]

theorem execEmWrite_keeps (q : KeepArgs) (f : Nat) (off : Nat) (size : Nat) (v : Nat) (s : State) (h : Keep q s) : ∀ u,
    (execEmWrite f off size v s) = .next u → Keep q u := by
  intro u hu; unfold execEmWrite at hu; (try simp only [] at hu); (repeat' split at hu) <;> first | (cases hu <;> ((repeat' with_reducible first | assumption | apply doEmWrite_keeps | intro _ | split | simp only [keep_mk, keep_fold, id_eq]); done)) | (refine funcCmd_keeps q _ _ _ ?_ ?_ _ hu <;> ((repeat' with_reducible first | assumption | apply doEmWrite_keeps | intro _ | split | simp only [keep_mk, keep_fold, id_eq]); done))

theorem emDrain_keeps (q : KeepArgs) (s : State) (k : Nat) (h : Keep q s) : Keep q (emDrain s k) := by
  unfold emDrain
  repeat' with_reducible
    first
    | assumption | apply emApply_keeps | apply keep_foldl | intro _ | split | simp only [keep_mk, keep_fold, id_eq]

theorem cluSensor_keeps (q : KeepArgs) (s : State) (p : Nat × Int) (h : Keep q s) : Keep q (cluSensor s p) := by
  unfold cluSensor
  repeat' with_reducible
    first
    | assumption | apply modClu_keeps | apply causeShut_keeps | apply bump_keeps | apply retune_keeps
    | apply settleCyc_keeps | intro _ | split | simp only [keep_mk, keep_fold, id_eq]

theorem doSensors_keeps (q : KeepArgs) (clu : List (Nat × Int)) (die : List (Nat × Int)) (hub : Int) (s : State) (h : Keep q
    s) : Keep q (doSensors clu die hub s) := by
  unfold doSensors
  repeat' with_reducible
    first
    | assumption | apply cluSensor_keeps | apply fenceDie_keeps | apply causeShut_keeps | apply keep_foldl | intro _
    | split | simp only [keep_mk, keep_fold, id_eq]

theorem doBudget_keeps (q : KeepArgs) (other : Nat) (req : List Nat) (s : State) (h : Keep q s) : Keep q (doBudget other req
    s) := by
  unfold doBudget
  repeat' with_reducible
    first
    | assumption | intro _ | split | simp only [keep_mk, keep_fold, id_eq]

theorem execBrownoutTimeout_keeps (q : KeepArgs) (s : State) (h : Keep q s) : ∀ u, (execBrownoutTimeout s) = .next u → Keep q
    u := by
  intro u hu; unfold execBrownoutTimeout at hu; refine hubCmd_keeps q _ _ ?_ h _ hu
  repeat' with_reducible
    first
    | assumption | apply causeShut_keeps | intro _ | split | simp only [keep_mk, keep_fold, id_eq]

theorem doFastLimit_keeps (q : KeepArgs) (w10 : Nat) (ms : List Nat) (low : Bool) (s : State) (h : Keep q s) : Keep q
    (doFastLimit w10 ms low s) := by
  unfold doFastLimit
  repeat' with_reducible
    first
    | assumption | apply retuneAll_keeps | intro _ | split | simp only [keep_mk, keep_fold, id_eq]

theorem execSensorRead_keeps (q : KeepArgs) (clu : List (Nat × Int)) (die : List (Nat × Int)) (hub : Int) (s : State) (h :
    Keep q s) : ∀ u, (execSensorRead clu die hub s) = .next u → Keep q u := by
  intro u hu; unfold execSensorRead at hu; (try simp only [] at hu); (repeat' split at hu) <;> first | (cases hu <;> ((repeat' with_reducible first | assumption | apply doSensors_keeps | intro _ | split | simp only [keep_mk, keep_fold, id_eq]); done)) | (refine hubCmd_keeps q _ _ ?_ ?_ _ hu <;> ((repeat' with_reducible first | assumption | apply doSensors_keeps | intro _ | split | simp only [keep_mk, keep_fold, id_eq]); done))

theorem doWatchdog_keeps (q : KeepArgs) (k : Nat) (s : State) (h : Keep q s) : Keep q (doWatchdog k s) := by
  unfold doWatchdog
  repeat' with_reducible
    first
    | assumption | apply bump_keeps | apply retuneAll_keeps | apply modClus_keeps | intro _ | split
    | simp only [keep_mk, keep_fold, id_eq]

theorem execWatchdogFire_keeps (q : KeepArgs) (k : Nat) (s : State) (h : Keep q s) : ∀ u, (execWatchdogFire k s) = .next u →
    Keep q u := by
  intro u hu; unfold execWatchdogFire at hu; refine stwCmd_keeps q _ _ _ ?_ h _ hu
  repeat' with_reducible
    first
    | assumption | apply doWatchdog_keeps | intro _ | split | simp only [keep_mk, keep_fold, id_eq]

theorem doBrownRelease_keeps (q : KeepArgs) (s : State) (h : Keep q s) : Keep q (doBrownRelease s) := by
  unfold doBrownRelease
  repeat' with_reducible
    first
    | assumption | apply retuneAll_keeps | intro _ | split | simp only [keep_mk, keep_fold, id_eq]

theorem execBrownoutRelease_keeps (q : KeepArgs) (s : State) (h : Keep q s) : ∀ u, (execBrownoutRelease s) = .next u → Keep q
    u := by
  intro u hu; unfold execBrownoutRelease at hu; refine hubCmd_keeps q _ _ ?_ h _ hu
  repeat' with_reducible
    first
    | assumption | apply doBrownRelease_keeps | intro _ | split | simp only [keep_mk, keep_fold, id_eq]

theorem doSupply_keeps (q : KeepArgs) (mv : Nat) (uj : Nat) (us : Nat) (s : State) (h : Keep q s) : Keep q (doSupply mv uj us
    s) := by
  unfold doSupply
  repeat' with_reducible
    first
    | assumption | apply causeShut_keeps | apply retuneAll_keeps | apply markSet_keeps | intro _ | split
    | simp only [keep_mk, keep_fold, id_eq]

theorem doFloorTick_keeps (q : KeepArgs) (k : Nat) (w : Nat) (s : State) (h : Keep q s) : Keep q (doFloorTick k w s) := by
  unfold doFloorTick
  repeat' with_reducible
    first
    | assumption | apply retuneAll_keeps | apply modClus_keeps | intro _ | split | simp only [keep_mk, keep_fold, id_eq]

theorem execFloorGovernorTick_keeps (q : KeepArgs) (k : Nat) (w : Nat) (s : State) (h : Keep q s) : ∀ u,
    (execFloorGovernorTick k w s) = .next u → Keep q u := by
  intro u hu; unfold execFloorGovernorTick at hu; refine stwCmd_keeps q _ _ _ ?_ h _ hu
  repeat' with_reducible
    first
    | assumption | apply doFloorTick_keeps | intro _ | split | simp only [keep_mk, keep_fold, id_eq]

theorem execIdlePowerOff_keeps (q : KeepArgs) (c : Nat) (s : State) (h : Keep q s) : ∀ u, (execIdlePowerOff c s) = .next u →
    Keep q u := by
  intro u hu; unfold execIdlePowerOff at hu; refine cluCmd_keeps q _ _ _ ?_ h _ hu
  repeat' with_reducible
    first
    | assumption | apply doPowerOff_keeps | intro _ | split | simp only [keep_mk, keep_fold, id_eq]

theorem unpowered_keeps (q : KeepArgs) (s : State) (h : Keep q s) (h_l : q.lock = none) : Keep q (unpowered s) := by
  refine ⟨h.1, fun c => ⟨rfl, rfl, rfl, (h.2.1 c).hostOk, rfl, rfl, rfl, rfl, rfl, rfl, rfl⟩, ?_, h.2.2.2⟩
  intro k hk; rw [h_l] at hk; cases hk

theorem execOrderlyShutdown_keeps (q : KeepArgs) (s : State) (h : Keep q s) (h_l : q.lock = none) : ∀ u, (execOrderlyShutdown
    s) = .next u → Keep q u := by
  intro u hu; unfold execOrderlyShutdown at hu; refine hubCmd_keeps q _ _ ?_ h _ hu
  repeat' with_reducible
    first
    | assumption | apply unpowered_keeps | intro _ | split | simp only [keep_mk, keep_fold, id_eq]

theorem execSupplySample_keeps (q : KeepArgs) (mv : Nat) (uj : Nat) (us : Nat) (s : State) (h : Keep q s) : ∀ u,
    (execSupplySample mv uj us s) = .next u → Keep q u := by
  intro u hu; unfold execSupplySample at hu; refine hubCmd_keeps q _ _ ?_ h _ hu
  repeat' with_reducible
    first
    | assumption | apply doSupply_keeps | intro _ | split | simp only [keep_mk, keep_fold, id_eq]

theorem emReadOf_keeps (q : KeepArgs) (s : State) (f : Nat) (off : Nat) (size : Nat) (h : Keep q s) : Keep q (emReadOf s f
    off size).1 := by
  unfold emReadOf
  repeat' with_reducible
    first
    | assumption | apply markSet_keeps | apply emDrain_keeps | intro _ | split | simp only [keep_mk, keep_fold, id_eq]

theorem doEmRead_keeps (q : KeepArgs) (f : Nat) (off : Nat) (size : Nat) (s : State) (h : Keep q s) : Keep q (doEmRead f off
    size s) := by
  unfold doEmRead
  repeat' with_reducible
    first
    | assumption | apply emReadOf_keeps | apply emit_keeps | intro _ | refine keep_ofPair (by assumption) ?_ | split
    | simp only [keep_mk, keep_fold, id_eq]

theorem execEmRead_keeps (q : KeepArgs) (f : Nat) (off : Nat) (size : Nat) (s : State) (h : Keep q s) : ∀ u, (execEmRead f
    off size s) = .next u → Keep q u := by
  intro u hu; unfold execEmRead at hu; (try simp only [] at hu); (repeat' split at hu) <;> first | (cases hu <;> ((repeat' with_reducible first | assumption | apply doEmRead_keeps | intro _ | split | simp only [keep_mk, keep_fold, id_eq]); done)) | (refine funcCmd_keeps q _ _ _ ?_ ?_ _ hu <;> ((repeat' with_reducible first | assumption | apply doEmRead_keeps | intro _ | split | simp only [keep_mk, keep_fold, id_eq]); done))

theorem execBudgetDivide_keeps (q : KeepArgs) (other : Nat) (req : List Nat) (s : State) (h : Keep q s) : ∀ u,
    (execBudgetDivide other req s) = .next u → Keep q u := by
  intro u hu; unfold execBudgetDivide at hu; refine hubCmd_keeps q _ _ ?_ h _ hu
  repeat' with_reducible
    first
    | assumption | apply doBudget_keeps | intro _ | split | simp only [keep_mk, keep_fold, id_eq]

theorem doPowerUp_keeps (q : KeepArgs) (c : Nat) (s : State) (h : Keep q s) : Keep q (doPowerUp c s) := by
  unfold doPowerUp
  repeat' with_reducible
    first
    | assumption | apply settleCyc_keeps | apply retune_keeps | apply fencePanels_keeps | apply modClu_keeps | intro _
    | split | simp only [keep_mk, keep_fold, id_eq]

theorem execClusterPowerUp_keeps (q : KeepArgs) (c : Nat) (s : State) (h : Keep q s) : ∀ u, (execClusterPowerUp c s) = .next
    u → Keep q u := by
  intro u hu; unfold execClusterPowerUp at hu; refine cluCmd_keeps q _ _ _ ?_ h _ hu
  repeat' with_reducible
    first
    | assumption | apply doPowerUp_keeps | intro _ | split | simp only [keep_mk, keep_fold, id_eq]

theorem doClockRestart_keeps (q : KeepArgs) (c : Nat) (s : State) (h : Keep q s) : Keep q (doClockRestart c s) := by
  unfold doClockRestart
  repeat' with_reducible
    first
    | assumption | apply retune_keeps | apply modClu_keeps | apply settleCyc_keeps | intro _ | split
    | simp only [keep_mk, keep_fold, id_eq]

theorem execClockRestart_keeps (q : KeepArgs) (c : Nat) (s : State) (h : Keep q s) : ∀ u, (execClockRestart c s) = .next u →
    Keep q u := by
  intro u hu; unfold execClockRestart at hu; refine cluCmd_keeps q _ _ _ ?_ h _ hu
  repeat' with_reducible
    first
    | assumption | apply doClockRestart_keeps | intro _ | split | simp only [keep_mk, keep_fold, id_eq]

theorem execStewardRestartDone_keeps (q : KeepArgs) (k : Nat) (ok : Bool) (s : State) (h : Keep q s) : ∀ u,
    (execStewardRestartDone k ok s) = .next u → Keep q u := by
  intro u hu; unfold execStewardRestartDone at hu; refine stwCmd_keeps q _ _ _ ?_ h _ hu
  repeat' with_reducible
    first
    | assumption | apply doStwRestart_keeps | intro _ | split | simp only [keep_mk, keep_fold, id_eq]

theorem execFastLimiterSample_keeps (q : KeepArgs) (w10 : Nat) (ms : List Nat) (low : Bool) (s : State) (h : Keep q s) : ∀ u,
    (execFastLimiterSample w10 ms low s) = .next u → Keep q u := by
  intro u hu; unfold execFastLimiterSample at hu; refine hubCmd_keeps q _ _ ?_ h _ hu
  repeat' with_reducible
    first
    | assumption | apply doFastLimit_keeps | intro _ | split | simp only [keep_mk, keep_fold, id_eq]

theorem spdmFail_keeps (q : KeepArgs) (s : State) (f : Nat) (ver : Nat) (code : Nat) (h : Keep q s) : Keep q (spdmFail s f
    ver code) := by
  unfold spdmFail
  repeat' with_reducible
    first
    | assumption | apply emit_keeps | intro _ | split | simp only [keep_mk, keep_fold, id_eq]

theorem putSpdm_keeps (q : KeepArgs) (s : State) (f : Nat) (x : Spdm) (h : Keep q s) : Keep q (putSpdm s f x) := by
  unfold putSpdm
  repeat' with_reducible
    first
    | assumption | apply keepV_lock | intro _ | split | simp only [keep_mk, keep_fold, id_eq]

theorem doGetVersion_keeps (q : KeepArgs) (f : Nat) (r : List Byte) (s : State) (h : Keep q s) : Keep q (doGetVersion f r s)
    := by
  unfold doGetVersion
  repeat' with_reducible
    first
    | assumption | apply spdmFail_keeps | apply emit_keeps | apply putSpdm_keeps | intro _ | split
    | simp only [keep_mk, keep_fold, id_eq]

theorem spdmReq_keeps (q : KeepArgs) (s : State) (f : Nat) (r : List Byte) (code : Nat) (len : Nat) (st : SpdmSt) (g : State
    → Spdm → State) (h_g : ∀ (y0 : State) (y1 : Spdm), Keep q y0 → Keep q (g y0 y1)) (h : Keep q s) : Keep q (spdmReq s f r
    code len st g) := by
  unfold spdmReq
  repeat' with_reducible
    first
    | assumption | apply spdmFail_keeps | apply h_g | intro _ | split | simp only [keep_mk, keep_fold, id_eq]

theorem doNegotiate_keeps (q : KeepArgs) (f : Nat) (r : List Byte) (s : State) (h : Keep q s) : Keep q (doNegotiate f r s) := by
  unfold doNegotiate
  repeat' with_reducible
    first
    | assumption | apply spdmReq_keeps | apply spdmFail_keeps | apply emit_keeps | apply putSpdm_keeps | intro _ | split
    | simp only [keep_mk, keep_fold, id_eq]

theorem certAnswer_keeps (q : KeepArgs) (s : State) (f : Nat) (x : Spdm) (r : List Byte) (a : List Byte) (h : Keep q s) :
    Keep q (certAnswer s f x r a) := by
  unfold certAnswer
  repeat' with_reducible
    first
    | assumption | apply emit_keeps | apply putSpdm_keeps | intro _ | split | simp only [keep_mk, keep_fold, id_eq]

theorem doGetCertificate_keeps (q : KeepArgs) (f : Nat) (r : List Byte) (s : State) (h : Keep q s) : Keep q (doGetCertificate
    f r s) := by
  unfold doGetCertificate
  repeat' with_reducible
    first
    | assumption | apply spdmReq_keeps | apply spdmFail_keeps | apply certAnswer_keeps | intro _ | split
    | simp only [keep_mk, keep_fold, id_eq]

theorem doGetMeasurements_keeps (q : KeepArgs) (f : Nat) (r : List Byte) (s : State) (h : Keep q s) : Keep q
    (doGetMeasurements f r s) := by
  unfold doGetMeasurements
  repeat' with_reducible
    first
    | assumption | apply spdmReq_keeps | apply spdmFail_keeps | apply emit_keeps | apply stepFresh_keeps
    | apply putSpdm_keeps | intro _ | split | simp only [keep_mk, keep_fold, id_eq]

theorem execGetMeasurements_keeps (q : KeepArgs) (f : Nat) (req : List Byte) (s : State) (h : Keep q s) : ∀ u,
    (execGetMeasurements f req s) = .next u → Keep q u := by
  intro u hu; unfold execGetMeasurements at hu; refine funcCmd_keeps q _ _ _ ?_ h _ hu
  repeat' with_reducible
    first
    | assumption | apply doGetMeasurements_keeps | intro _ | split | simp only [keep_mk, keep_fold, id_eq]

theorem putCopy_keeps (q : KeepArgs) (s : State) (b : Bool) (ok : Bool) (key : List Byte) (svn : Nat) (dig : List Byte) (h :
    Keep q s) : Keep q (putCopy s b ok key svn dig) := by
  unfold putCopy
  repeat' with_reducible
    first
    | assumption | apply keepV_svn | intro _ | split | simp only [keep_mk, keep_fold, id_eq]

theorem doFwDone_keeps (q : KeepArgs) (ok : Bool) (svn : Nat) (dig : List Byte) (s : State) (h : Keep q s) : Keep q (doFwDone
    ok svn dig s) := by
  unfold doFwDone
  repeat' with_reducible
    first
    | assumption | apply putCopy_keeps | apply keepV_lock | apply keepV_svn | intro _ | split
    | simp only [keep_mk, keep_fold, id_eq]

theorem execFwVerifyDone_keeps (q : KeepArgs) (ok : Bool) (svn : Nat) (dig : List Byte) (s : State) (h : Keep q s) : ∀ u,
    (execFwVerifyDone ok svn dig s) = .next u → Keep q u := by
  intro u hu; unfold execFwVerifyDone at hu; refine hubCmd_keeps q _ _ ?_ h _ hu
  repeat' with_reducible
    first
    | assumption | apply doFwDone_keeps | intro _ | split | simp only [keep_mk, keep_fold, id_eq]

theorem doKeylock_keeps (q : KeepArgs) (f : Nat) (s : State) (h : Keep q s) : Keep q (doKeylock f s) := by
  unfold doKeylock
  split
  · exact h
  · exact keepV_lock h

theorem execKeylockSet_keeps (q : KeepArgs) (f : Nat) (s : State) (h : Keep q s) : ∀ u, (execKeylockSet f s) = .next u → Keep
    q u := by
  intro u hu; unfold execKeylockSet at hu; refine funcCmd_keeps q _ _ _ ?_ h _ hu
  repeat' with_reducible
    first
    | assumption | apply doKeylock_keeps | intro _ | split | simp only [keep_mk, keep_fold, id_eq]

theorem execNegotiateAlgorithms_keeps (q : KeepArgs) (f : Nat) (req : List Byte) (s : State) (h : Keep q s) : ∀ u,
    (execNegotiateAlgorithms f req s) = .next u → Keep q u := by
  intro u hu; unfold execNegotiateAlgorithms at hu; refine funcCmd_keeps q _ _ _ ?_ h _ hu
  repeat' with_reducible
    first
    | assumption | apply doNegotiate_keeps | intro _ | split | simp only [keep_mk, keep_fold, id_eq]

theorem doChallenge_keeps (q : KeepArgs) (f : Nat) (r : List Byte) (s : State) (h : Keep q s) : Keep q (doChallenge f r s) := by
  unfold doChallenge
  repeat' with_reducible
    first
    | assumption | apply spdmReq_keeps | apply spdmFail_keeps | apply emit_keeps | apply stepFresh_keeps
    | apply putSpdm_keeps | intro _ | split | simp only [keep_mk, keep_fold, id_eq]

theorem execChallenge_keeps (q : KeepArgs) (f : Nat) (req : List Byte) (s : State) (h : Keep q s) : ∀ u, (execChallenge f req
    s) = .next u → Keep q u := by
  intro u hu; unfold execChallenge at hu; refine funcCmd_keeps q _ _ _ ?_ h _ hu
  repeat' with_reducible
    first
    | assumption | apply doChallenge_keeps | intro _ | split | simp only [keep_mk, keep_fold, id_eq]

theorem doSvnCommit_keeps (q : KeepArgs) (f : Nat) (s : State) (h : Keep q s) : Keep q (doSvnCommit f s) := by
  unfold doSvnCommit
  repeat' with_reducible
    first
    | assumption | apply keepV_svn | intro _ | split | simp only [keep_mk, keep_fold, id_eq]

theorem doFwVerify_keeps (q : KeepArgs) (f : Nat) (s : State) (h : Keep q s) : Keep q (doFwVerify f s) := by
  unfold doFwVerify
  repeat' with_reducible
    first
    | assumption | apply keepV_lock | intro _ | split | simp only [keep_mk, keep_fold, id_eq]

theorem execFwVerify_keeps (q : KeepArgs) (f : Nat) (s : State) (h : Keep q s) : ∀ u, (execFwVerify f s) = .next u → Keep q u
    := by
  intro u hu; unfold execFwVerify at hu; refine funcCmd_keeps q _ _ _ ?_ h _ hu
  repeat' with_reducible
    first
    | assumption | apply doFwVerify_keeps | intro _ | split | simp only [keep_mk, keep_fold, id_eq]

end Sys2Proof.Machine
end

