-- ==== Sys2Proof/Laws/Keep7.lean ====
section
/-! SUPPORT. One lemma per operation and per command: it keeps what `Keep` says (part 7 of 7, callees before callers). -/

namespace Sys2Proof.Machine

set_option linter.unusedSimpArgs false
set_option linter.unusedVariables false

theorem doGetCapabilities_keeps (q : KeepArgs) (f : Nat) (r : List Byte) (s : State) (h : Keep q s) : Keep q
    (doGetCapabilities f r s) := by
  unfold doGetCapabilities
  repeat' with_reducible
    first
    | assumption | apply putSpdm_keeps | apply spdmReq_keeps | apply emit_keeps | intro _ | split
    | simp only [keep_mk, keep_fold, id_eq]

theorem execGetCapabilities_keeps (q : KeepArgs) (f : Nat) (req : List Byte) (s : State) (h : Keep q s) : ∀ u,
    (execGetCapabilities f req s) = .next u → Keep q u := by
  intro u hu; unfold execGetCapabilities at hu; refine funcCmd_keeps q _ _ _ ?_ h _ hu
  repeat' with_reducible
    first
    | assumption | apply doGetCapabilities_keeps | intro _ | split | simp only [keep_mk, keep_fold, id_eq]

theorem doGetDigests_keeps (q : KeepArgs) (f : Nat) (r : List Byte) (s : State) (h : Keep q s) : Keep q (doGetDigests f r s)
    := by
  unfold doGetDigests
  repeat' with_reducible
    first
    | assumption | apply spdmReq_keeps | apply certAnswer_keeps | intro _ | split | simp only [keep_mk, keep_fold, id_eq]

theorem execGetDigests_keeps (q : KeepArgs) (f : Nat) (req : List Byte) (s : State) (h : Keep q s) : ∀ u, (execGetDigests f
    req s) = .next u → Keep q u := by
  intro u hu; unfold execGetDigests at hu; refine funcCmd_keeps q _ _ _ ?_ h _ hu
  repeat' with_reducible
    first
    | assumption | apply doGetDigests_keeps | intro _ | split | simp only [keep_mk, keep_fold, id_eq]

theorem doKeyWrite_keeps (q : KeepArgs) (f : Nat) (off : Nat) (v : Nat) (s : State) (h : Keep q s) : Keep q (doKeyWrite f off
    v s) := by
  unfold doKeyWrite
  split
  · exact h
  · rename_i hc
    refine ⟨h.1, fun c => { h.2.1 c with keysOk := memPutNat_wf (h.2.1 c).keysOk _ _ _ }, ?_, h.2.2.2⟩
    intro k hk
    have h1 := (h.2.2.1 k hk).1
    rw [h1, Bool.or_true, Bool.true_or, Bool.true_or] at hc
    exact absurd rfl hc

theorem execKeySlotWrite_keeps (q : KeepArgs) (f : Nat) (off : Nat) (v : Nat) (s : State) (h : Keep q s) : ∀ u,
    (execKeySlotWrite f off v s) = .next u → Keep q u := by
  intro u hu; unfold execKeySlotWrite at hu; (try simp only [] at hu); (repeat' split at hu) <;> first | (cases hu <;> ((repeat' with_reducible first | assumption | apply doKeyWrite_keeps | intro _ | split | simp only [keep_mk, keep_fold, id_eq]); done)) | (refine funcCmd_keeps q _ _ _ ?_ ?_ _ hu <;> ((repeat' with_reducible first | assumption | apply doKeyWrite_keeps | intro _ | split | simp only [keep_mk, keep_fold, id_eq]); done))

theorem doFwWrite_keeps (q : KeepArgs) (f : Nat) (off : Nat) (data : List Byte) (s : State) (h : Keep q s) : Keep q
    (doFwWrite f off data s) := by
  unfold doFwWrite
  repeat' with_reducible
    first
    | assumption | apply stepFresh_keeps | apply putCopy_keeps | apply keepV_spad | apply keepV_wst | apply keepV_dev
    | apply keepV_host | apply keepV_rt | apply keepV_svn | intro _ | split | simp only [keep_mk, keep_fold, id_eq]

theorem execFwWrite_keeps (q : KeepArgs) (f : Nat) (off : Nat) (data : List Byte) (s : State) (h : Keep q s) : ∀ u,
    (execFwWrite f off data s) = .next u → Keep q u := by
  intro u hu; unfold execFwWrite at hu; (try simp only [] at hu); (repeat' split at hu) <;> first | (cases hu <;> ((repeat' with_reducible first | assumption | apply doFwWrite_keeps | intro _ | split | simp only [keep_mk, keep_fold, id_eq]); done)) | (refine funcCmd_keeps q _ _ _ ?_ ?_ _ hu <;> ((repeat' with_reducible first | assumption | apply doFwWrite_keeps | intro _ | split | simp only [keep_mk, keep_fold, id_eq]); done))

theorem execGetCertificate_keeps (q : KeepArgs) (f : Nat) (req : List Byte) (s : State) (h : Keep q s) : ∀ u,
    (execGetCertificate f req s) = .next u → Keep q u := by
  intro u hu; unfold execGetCertificate at hu; refine funcCmd_keeps q _ _ _ ?_ h _ hu
  repeat' with_reducible
    first
    | assumption | apply doGetCertificate_keeps | intro _ | split | simp only [keep_mk, keep_fold, id_eq]

theorem execGetVersion_keeps (q : KeepArgs) (f : Nat) (req : List Byte) (s : State) (h : Keep q s) : ∀ u, (execGetVersion f
    req s) = .next u → Keep q u := by
  intro u hu; unfold execGetVersion at hu; refine funcCmd_keeps q _ _ _ ?_ h _ hu
  repeat' with_reducible
    first
    | assumption | apply doGetVersion_keeps | intro _ | split | simp only [keep_mk, keep_fold, id_eq]

theorem execSvnCommit_keeps (q : KeepArgs) (f : Nat) (s : State) (h : Keep q s) : ∀ u, (execSvnCommit f s) = .next u → Keep q
    u := by
  intro u hu; unfold execSvnCommit at hu; refine funcCmd_keeps q _ _ _ ?_ h _ hu
  repeat' with_reducible
    first
    | assumption | apply doSvnCommit_keeps | intro _ | split | simp only [keep_mk, keep_fold, id_eq]

theorem stwNotStarted_keeps (q : KeepArgs) (s : State) (ks : List Nat) (h : Keep q s) : Keep q (stwNotStarted s ks) := by
  unfold stwNotStarted
  repeat' with_reducible
    first
    | assumption | apply retuneAll_keeps | apply modClus_keeps | intro _ | split | simp only [keep_mk, keep_fold, id_eq]

theorem bootStewards_keeps (q : KeepArgs) (s : State) (bad : List Nat) (h : Keep q s) : Keep q (bootStewards s bad) := by
  unfold bootStewards
  repeat' with_reducible
    first
    | assumption | apply stwNotStarted_keeps | apply keepV_lock | intro _ | split | simp only [keep_mk, keep_fold, id_eq]

theorem foundLane_keeps (q : KeepArgs) (s : State) (k : Nat) (ch : Nat) (ca : Bool) (l : Nat) (h : Keep q s) : Keep q
    (foundLane s k ch ca l) := by
  unfold foundLane
  repeat' with_reducible
    first
    | assumption | apply modStack_keeps | intro _ | split | simp only [keep_mk, keep_fold, id_eq]

theorem foundCore_keeps (q : KeepArgs) (s : State) (c : Nat) (p : Nat) (h : Keep q s) : Keep q (foundCore s c p) := by
  unfold foundCore
  repeat' with_reducible
    first
    | assumption | apply modClu_keeps | intro _ | split | simp only [keep_mk, keep_fold, id_eq]

theorem foundLost_keeps (q : KeepArgs) (s : State) (c : Nat) (byp : Bool) (dead : Bool) (h : Keep q s) : Keep q (foundLost s
    c byp dead) := by
  unfold foundLost
  repeat' with_reducible
    first
    | assumption | apply modClu_keeps | intro _ | split | simp only [keep_mk, keep_fold, id_eq]

theorem foundOne_keeps (q : KeepArgs) (s : State) (p : Nat × Nat × Nat) (h : Keep q s) : Keep q (foundOne s p) := by
  unfold foundOne
  repeat' with_reducible
    first
    | assumption | apply foundLane_keeps | apply foundCore_keeps | apply foundLost_keeps | intro _ | split
    | simp only [keep_mk, keep_fold, id_eq]

theorem execHoldoverExit_keeps (q : KeepArgs) (s : State) (h : Keep q s) : ∀ u, (execHoldoverExit s) = .next u → Keep q u := by
  intro u hu; unfold execHoldoverExit at hu; refine hubCmd_keeps q _ _ ?_ h _ hu
  repeat' with_reducible
    first
    | assumption | intro _ | split | simp only [keep_mk, keep_fold, id_eq]

theorem doBringUpStop_keeps (q : KeepArgs) (s : State) (h : Keep q s) : Keep q (doBringUpStop s) := by
  unfold doBringUpStop
  repeat' with_reducible
    first
    | assumption | intro _ | split | simp only [keep_mk, keep_fold, id_eq]

theorem foundDie_keeps (q : KeepArgs) (s : State) (d : Nat) (h : Keep q s) : Keep q (foundDie s d) := by
  unfold foundDie
  repeat' with_reducible
    first
    | assumption | apply modClu_keeps | apply modStack_keeps | apply keep_foldl | intro _ | split
    | simp only [keep_mk, keep_fold, id_eq]

theorem foundChan_keeps (q : KeepArgs) (s : State) (x : ChanFind) (h : Keep q s) : Keep q (foundChan s x) := by
  unfold foundChan
  repeat' with_reducible
    first
    | assumption | apply foundDie_keeps | intro _ | split | simp only [keep_mk, keep_fold, id_eq]

theorem poweredOn_keeps (q : KeepArgs) (s : State) (mv : Nat) (h : Keep q s) (h_l : q.lock = none) : Keep q (poweredOn s mv)
    := by
  refine ⟨h.1, fun c => ⟨rfl, rfl, rfl, (h.2.1 c).hostOk, rfl, rfl, rfl, rfl, rfl, rfl, rfl⟩, ?_, h.2.2.2⟩
  intro k hk; rw [h_l] at hk; cases hk

theorem countLost_keeps (q : KeepArgs) (s : State) (h : Keep q s) : Keep q (countLost s) := by
  unfold countLost
  repeat' with_reducible
    first
    | assumption | intro _ | split | simp only [keep_mk, keep_fold, id_eq]

theorem doPowerOn_keeps (q : KeepArgs) (mv : Nat) (found : List (Nat × Nat × Nat)) (dies : List ChanFind) (stks : List Nat)
    (stw : List Nat) (s : State) (h : Keep q s) (h_l : q.lock = none) : Keep q (doPowerOn mv found dies stks stw s) := by
  unfold doPowerOn
  repeat' with_reducible
    first
    | assumption | apply bootStewards_keeps | apply poweredOn_keeps | apply modStack_keeps | apply foundChan_keeps
    | apply countLost_keeps | apply foundOne_keeps | apply keep_foldl | intro _ | split | simp only [keep_mk, keep_fold, id_eq]

theorem doAtSpeed_keeps (q : KeepArgs) (found : List (Nat × Nat × Nat)) (s : State) (h : Keep q s) : Keep q (doAtSpeed found
    s) := by
  unfold doAtSpeed
  repeat' with_reducible
    first
    | assumption | apply countLost_keeps | apply foundOne_keeps | apply keep_foldl | intro _ | split
    | simp only [keep_mk, keep_fold, id_eq]

theorem bringOn_keeps (q : KeepArgs) (found : List (Nat × Nat × Nat)) (s : State) (h : Keep q s) : Keep q (bringOn found s)
    := by
  unfold bringOn
  repeat' with_reducible
    first
    | assumption | apply doAtSpeed_keeps | intro _ | split | simp only [keep_mk, keep_fold, id_eq]

theorem execBringUp_keeps (q : KeepArgs) (p : PwrIn) (found : List (Nat × Nat × Nat)) (dies : List ChanFind) (stks : List
    Nat) (stw : List Nat) (s : State) (h : Keep q s) (h_l : q.lock = none) : ∀ u, (execBringUp p found dies stks stw s) =
    .next u → Keep q u := by
  intro u hu; unfold execBringUp at hu; (try simp only [] at hu); (repeat' split at hu) <;> first | (cases hu <;> ((repeat' with_reducible first | assumption | apply bringOn_keeps | apply poweredOn_keeps | apply doPowerOn_keeps | intro _ | split | simp only [keep_mk, keep_fold, id_eq]); done))

theorem execPwrEnDeassert_keeps (q : KeepArgs) (s : State) (h : Keep q s) : ∀ u, (execPwrEnDeassert s) = .next u → Keep q u
    := by
  intro u hu; unfold execPwrEnDeassert at hu; refine hubCmd_keeps q _ _ ?_ h _ hu
  repeat' with_reducible
    first
    | assumption | apply causeShut_keeps | intro _ | split | simp only [keep_mk, keep_fold, id_eq]

theorem execBringUpStop_keeps (q : KeepArgs) (s : State) (h : Keep q s) : ∀ u, (execBringUpStop s) = .next u → Keep q u := by
  intro u hu; unfold execBringUpStop at hu; first | (cases hu <;> ((repeat' with_reducible first | assumption | apply doBringUpStop_keeps | intro _ | split | simp only [keep_mk, keep_fold, id_eq]); done))

theorem execReferenceLoss_keeps (q : KeepArgs) (s : State) (h : Keep q s) : ∀ u, (execReferenceLoss s) = .next u → Keep q u
    := by
  intro u hu; unfold execReferenceLoss at hu; refine hubCmd_keeps q _ _ ?_ h _ hu
  repeat' with_reducible
    first
    | assumption | apply markSet_keeps | intro _ | split | simp only [keep_mk, keep_fold, id_eq]

theorem execCoolantSensorRead_keeps (q : KeepArgs) (tin : Int) (tout : Int) (s : State) (h : Keep q s) : ∀ u,
    (execCoolantSensorRead tin tout s) = .next u → Keep q u := by
  intro u hu; unfold execCoolantSensorRead at hu; refine hubCmd_keeps q _ _ ?_ h _ hu
  repeat' with_reducible
    first
    | assumption | intro _ | split | simp only [keep_mk, keep_fold, id_eq]

theorem i3cDirect_keeps (q : KeepArgs) (s : State) (g : State → State) (h_g : ∀ (y0 : State), Keep q y0 → Keep q (g y0)) (h :
    Keep q s) : ∀ u, (i3cDirect s g) = .next u → Keep q u := by
  intro u hu; unfold i3cDirect at hu; refine hubCmd_keeps q _ _ ?_ h _ hu
  repeat' with_reducible
    first
    | assumption | apply h_g | intro _ | split | simp only [keep_mk, keep_fold, id_eq]

theorem i3cSay_keeps (q : KeepArgs) (s : State) (b : List Byte) (h : Keep q s) : Keep q (i3cSay s b) := by
  unfold i3cSay
  repeat' with_reducible
    first
    | assumption | apply emit_keeps | intro _ | split | simp only [keep_mk, keep_fold, id_eq]

theorem doPldm_keeps (q : KeepArgs) (r : List Byte) (s : State) (h : Keep q s) : Keep q (doPldm r s) := by
  unfold doPldm
  repeat' with_reducible
    first
    | assumption | apply i3cSay_keeps | apply stepFresh_keeps | intro _ | split | simp only [keep_mk, keep_fold, id_eq]

theorem execPldmRequest_keeps (q : KeepArgs) (req : List Byte) (s : State) (h : Keep q s) : ∀ u, (execPldmRequest req s) =
    .next u → Keep q u := by
  intro u hu; unfold execPldmRequest at hu; refine i3cDirect_keeps q _ _ ?_ h _ hu
  repeat' with_reducible
    first
    | assumption | apply doPldm_keeps | intro _ | split | simp only [keep_mk, keep_fold, id_eq]

theorem setEvents_keeps (q : KeepArgs) (mask : Nat) (on : Bool) (s : State) (h : Keep q s) : Keep q (setEvents mask on s) := by
  unfold setEvents
  repeat' with_reducible
    first
    | assumption | intro _ | split | simp only [keep_mk, keep_fold, id_eq]

theorem execDisec_keeps (q : KeepArgs) (mask : Nat) (s : State) (h : Keep q s) : ∀ u, (execDisec mask s) = .next u → Keep q u
    := by
  intro u hu; unfold execDisec at hu; refine hubCmd_keeps q _ _ ?_ h _ hu
  repeat' with_reducible
    first
    | assumption | apply setEvents_keeps | intro _ | split | simp only [keep_mk, keep_fold, id_eq]

theorem doEntdaa_keeps (q : KeepArgs) (a : Nat) (s : State) (h : Keep q s) : Keep q (doEntdaa a s) := by
  unfold doEntdaa
  repeat' with_reducible
    first
    | assumption | apply i3cSay_keeps | intro _ | split | simp only [keep_mk, keep_fold, id_eq]

theorem execSetnewda_keeps (q : KeepArgs) (a : Nat) (s : State) (h : Keep q s) : ∀ u, (execSetnewda a s) = .next u → Keep q u
    := by
  intro u hu; unfold execSetnewda at hu; refine i3cDirect_keeps q _ _ ?_ h _ hu
  repeat' with_reducible
    first
    | assumption | intro _ | split | simp only [keep_mk, keep_fold, id_eq]

theorem execEntdaa_keeps (q : KeepArgs) (a : Nat) (s : State) (h : Keep q s) : ∀ u, (execEntdaa a s) = .next u → Keep q u := by
  intro u hu; unfold execEntdaa at hu; refine hubCmd_keeps q _ _ ?_ h _ hu
  repeat' with_reducible
    first
    | assumption | apply doEntdaa_keeps | intro _ | split | simp only [keep_mk, keep_fold, id_eq]

theorem execGetpid_keeps (q : KeepArgs) (s : State) (h : Keep q s) : ∀ u, (execGetpid s) = .next u → Keep q u := by
  intro u hu; unfold execGetpid at hu; refine i3cDirect_keeps q _ _ ?_ h _ hu
  repeat' with_reducible
    first
    | assumption | apply i3cSay_keeps | intro _ | split | simp only [keep_mk, keep_fold, id_eq]

theorem doHotJoin_keeps (q : KeepArgs) (s : State) (h : Keep q s) : Keep q (doHotJoin s) := by
  unfold doHotJoin
  repeat' with_reducible
    first
    | assumption | apply i3cSay_keeps | intro _ | split | simp only [keep_mk, keep_fold, id_eq]

theorem execGetstatus_keeps (q : KeepArgs) (s : State) (h : Keep q s) : ∀ u, (execGetstatus s) = .next u → Keep q u := by
  intro u hu; unfold execGetstatus at hu; refine i3cDirect_keeps q _ _ ?_ h _ hu
  repeat' with_reducible
    first
    | assumption | apply stepFresh_keeps | apply i3cSay_keeps | intro _ | split | simp only [keep_mk, keep_fold, id_eq]

theorem execRstdaa_keeps (q : KeepArgs) (s : State) (h : Keep q s) : ∀ u, (execRstdaa s) = .next u → Keep q u := by
  intro u hu; unfold execRstdaa at hu; refine hubCmd_keeps q _ _ ?_ h _ hu
  repeat' with_reducible
    first
    | assumption | intro _ | split | simp only [keep_mk, keep_fold, id_eq]

theorem execEnec_keeps (q : KeepArgs) (mask : Nat) (s : State) (h : Keep q s) : ∀ u, (execEnec mask s) = .next u → Keep q u
    := by
  intro u hu; unfold execEnec at hu; refine hubCmd_keeps q _ _ ?_ h _ hu
  repeat' with_reducible
    first
    | assumption | apply setEvents_keeps | intro _ | split | simp only [keep_mk, keep_fold, id_eq]

theorem execGetbcr_keeps (q : KeepArgs) (s : State) (h : Keep q s) : ∀ u, (execGetbcr s) = .next u → Keep q u := by
  intro u hu; unfold execGetbcr at hu; refine i3cDirect_keeps q _ _ ?_ h _ hu
  repeat' with_reducible
    first
    | assumption | apply i3cSay_keeps | intro _ | split | simp only [keep_mk, keep_fold, id_eq]

theorem execGetdcr_keeps (q : KeepArgs) (s : State) (h : Keep q s) : ∀ u, (execGetdcr s) = .next u → Keep q u := by
  intro u hu; unfold execGetdcr at hu; refine i3cDirect_keeps q _ _ ?_ h _ hu
  repeat' with_reducible
    first
    | assumption | apply i3cSay_keeps | intro _ | split | simp only [keep_mk, keep_fold, id_eq]

theorem execHotJoin_keeps (q : KeepArgs) (s : State) (h : Keep q s) : ∀ u, (execHotJoin s) = .next u → Keep q u := by
  intro u hu; unfold execHotJoin at hu; refine hubCmd_keeps q _ _ ?_ h _ hu
  repeat' with_reducible
    first
    | assumption | apply doHotJoin_keeps | intro _ | split | simp only [keep_mk, keep_fold, id_eq]

theorem rcRead_keeps (q : KeepArgs) (s : State) (a : Nat) (h : Keep q s) : Keep q (rcRead s a).1 := by
  unfold rcRead
  repeat' with_reducible
    first
    | assumption | apply nowSync_keeps | apply keepV_spPut | apply keepV_sePut | apply keepV_dpPut | apply keepV_dePut
    | apply keepV_weDel | intro _ | split | simp only [keep_mk, keep_fold, id_eq]

theorem read32_keeps (q : KeepArgs) (s : State) (f : Nat) (a : Nat) (h : Keep q s) : Keep q (read32 s f a).1 := by
  unfold read32
  repeat' with_reducible
    first
    | assumption | apply rcRead_keeps | intro _ | refine keep_ofPair (by assumption) ?_ | split
    | simp only [keep_mk, keep_fold, id_eq]

theorem read64_keeps (q : KeepArgs) (s : State) (f : Nat) (a : Nat) (h : Keep q s) : Keep q (read64 s f a).1 := by
  unfold read64
  repeat' with_reducible
    first
    | assumption | apply rcRead_keeps | apply keepV_spPut | apply keepV_sePut | apply keepV_dpPut | apply keepV_dePut
    | intro _ | refine keep_ofPair (by assumption) ?_ | split | simp only [keep_mk, keep_fold, id_eq]

theorem readReg_keeps (q : KeepArgs) (s : State) (f : Nat) (a : Nat) (n : Nat) (h : Keep q s) : Keep q (readReg s f a n).1 := by
  unfold readReg
  repeat' with_reducible
    first
    | assumption | apply read32_keeps | apply read64_keeps | intro _ | refine keep_ofPair (by assumption) ?_ | split
    | simp only [keep_mk, keep_fold, id_eq]

theorem readBar_keeps (q : KeepArgs) (s : State) (f : Nat) (a : Nat) (n : Nat) (h : Keep q s) : Keep q (readBar s f a n).1 := by
  unfold readBar
  repeat' with_reducible
    first
    | assumption | apply emReadOf_keeps | apply readReg_keeps | intro _ | refine keep_ofPair (by assumption) ?_ | split
    | simp only [keep_mk, keep_fold, id_eq]

theorem w1c_keeps (q : KeepArgs) (s : State) (a : Nat) (i : Nat) (v : Nat) (g : State → State) (h_g : ∀ (y0 : State), Keep q
    y0 → Keep q (g y0)) (h : Keep q s) : Keep q (w1c s a i v g) := by
  unfold w1c
  repeat' with_reducible
    first
    | assumption | apply h_g | intro _ | split | simp only [keep_mk, keep_fold, id_eq]

theorem doTenStat_keeps (q : KeepArgs) (f : Nat) (v : Nat) (s : State) (h : Keep q s) : Keep q (doTenStat f v s) := by
  unfold doTenStat
  repeat' with_reducible
    first
    | assumption | apply doHbClear_keeps | apply w1c_keeps | apply modFunc_keeps | intro _ | split
    | simp only [keep_mk, keep_fold, id_eq]

theorem tenRegWrite64_keeps (q : KeepArgs) (f : Nat) (o : Nat) (v : Nat) (s : State) (h : Keep q s) : Keep q (tenRegWrite64 f
    o v s) := by
  unfold tenRegWrite64
  repeat' with_reducible
    first
    | assumption | apply setReg_keeps | apply modFunc_keeps | apply doPipeWrite_keeps | apply doCqHead_keeps | intro _
    | split | simp only [keep_mk, keep_fold, id_eq]

theorem cluWrite64_keeps (q : KeepArgs) (f : Nat) (c : Nat) (o : Nat) (v : Nat) (s : State) (h : Keep q s) : Keep q
    (cluWrite64 f c o v s) := by
  unfold cluWrite64
  repeat' with_reducible
    first
    | assumption | apply doSeedWrite_keeps | apply doTraceWrite_keeps | apply trcPay_keeps | apply modTrc_keeps | intro _
    | split | simp only [keep_mk, keep_fold, id_eq]

theorem write64_keeps (q : KeepArgs) (f : Nat) (a : Nat) (v : Nat) (s : State) (h : Keep q s) : Keep q (write64 f a v s) := by
  unfold write64
  repeat' with_reducible
    first
    | assumption | apply tenRegWrite64_keeps | apply cluWrite64_keeps | apply doSaveWrite_keeps | apply setReg_keeps
    | apply doGrantWrite_keeps | intro _ | split | simp only [keep_mk, keep_fold, id_eq]

theorem doCqCfg_keeps (q : KeepArgs) (f : Nat) (r : Nat) (v : Nat) (s : State) (h : Keep q s) : Keep q (doCqCfg f r v s) := by
  unfold doCqCfg
  repeat' with_reducible
    first
    | assumption | apply setReg_keeps | apply doCqEnable_keeps | apply doCqDisable_keeps | intro _ | split
    | simp only [keep_mk, keep_fold, id_eq]

theorem doSqCfg_keeps (q : KeepArgs) (f : Nat) (x1 : Nat) (v : Nat) (s : State) (h : Keep q s) : Keep q (doSqCfg f x1 v s) := by
  unfold doSqCfg
  repeat' with_reducible
    first
    | assumption | apply setReg_keeps | apply doQueueEnable_keeps | apply doQueueDisable_keeps | intro _ | split
    | simp only [keep_mk, keep_fold, id_eq]

theorem tenRegWrite_keeps (q : KeepArgs) (f : Nat) (o : Nat) (v : Nat) (s : State) (h : Keep q s) : Keep q (tenRegWrite f o v
    s) := by
  unfold tenRegWrite
  repeat' with_reducible
    first
    | assumption | apply setReg_keeps | apply doHbCtl_keeps | apply doKick_keeps | apply doTenStat_keeps
    | apply doEphWrite_keeps | apply doRgnAbort_keeps | apply doSqCfg_keeps | apply doCqCfg_keeps | intro _ | split
    | simp only [keep_mk, keep_fold, id_eq]

theorem cluWrite_keeps (q : KeepArgs) (f : Nat) (c : Nat) (o : Nat) (v : Nat) (s : State) (h : Keep q s) : Keep q (cluWrite f
    c o v s) := by
  unfold cluWrite
  repeat' with_reducible
    first
    | assumption | apply doPrecWrite_keeps | apply doKvInval_keeps | apply putSplit_keeps | intro _ | split
    | simp only [keep_mk, keep_fold, id_eq]

theorem doPortCtl_keeps (q : KeepArgs) (n : Nat) (v : Nat) (s : State) (h : Keep q s) : Keep q (doPortCtl n v s) := by
  unfold doPortCtl
  repeat' with_reducible
    first
    | assumption | apply setReg_keeps | apply doPortEnable_keeps | apply doPortDisable_keeps | apply sendDisc_keeps
    | apply doRetrainPort_keeps | intro _ | split | simp only [keep_mk, keep_fold, id_eq]

theorem lnkWrite_keeps (q : KeepArgs) (o : Nat) (v : Nat) (s : State) (h : Keep q s) : Keep q (lnkWrite o v s) := by
  unfold lnkWrite
  repeat' with_reducible
    first
    | assumption | apply nodeWrite_keeps | apply setReg_keeps | apply doPortCtl_keeps | apply w1c_keeps
    | apply modPort_keeps | intro _ | split | simp only [keep_mk, keep_fold, id_eq]

theorem doStkCtl_keeps (q : KeepArgs) (k : Nat) (v : Nat) (s : State) (h : Keep q s) : Keep q (doStkCtl k v s) := by
  unfold doStkCtl
  repeat' with_reducible
    first
    | assumption | apply modStack_keeps | apply doStackRetrain_keeps | intro _ | split | simp only [keep_mk, keep_fold, id_eq]

theorem memWrite_keeps (q : KeepArgs) (o : Nat) (v : Nat) (s : State) (h : Keep q s) : Keep q (memWrite o v s) := by
  unfold memWrite
  repeat' with_reducible
    first
    | assumption | apply doPrioWrite_keeps | apply doStkCtl_keeps | intro _ | split | simp only [keep_mk, keep_fold, id_eq]

theorem doEclCtl_keeps (q : KeepArgs) (v : Nat) (s : State) (h : Keep q s) : Keep q (doEclCtl v s) := by
  unfold doEclCtl
  repeat' with_reducible
    first
    | assumption | apply eclPend_keeps | apply doEclResume_keeps | intro _ | split | simp only [keep_mk, keep_fold, id_eq]

theorem dbgWrite_keeps (q : KeepArgs) (a : Nat) (v : Nat) (s : State) (h : Keep q s) : Keep q (dbgWrite a v s) := by
  unfold dbgWrite
  repeat' with_reducible
    first
    | assumption | apply doEclCtl_keeps | apply w1c_keeps | apply setReg_keeps | intro _ | split
    | simp only [keep_mk, keep_fold, id_eq]

theorem doFtcCtl_keeps (q : KeepArgs) (v : Nat) (s : State) (h : Keep q s) : Keep q (doFtcCtl v s) := by
  unfold doFtcCtl
  repeat' with_reducible
    first
    | assumption | apply setReg_keeps | intro _ | split | simp only [keep_mk, keep_fold, id_eq]

theorem doSecCtl_keeps (q : KeepArgs) (v : Nat) (s : State) (h : Keep q s) : Keep q (doSecCtl v s) := by
  unfold doSecCtl
  repeat' with_reducible
    first
    | assumption | apply doKeylock_keeps | apply doSvnCommit_keeps | intro _ | split | simp only [keep_mk, keep_fold, id_eq]

theorem doCluMap_keeps (q : KeepArgs) (i : Nat) (v : Nat) (s : State) (h : Keep q s) : Keep q (doCluMap i v s) := by
  unfold doCluMap
  repeat' with_reducible
    first
    | assumption | apply doShareWrite_keeps | apply keep_foldl | intro _ | split | simp only [keep_mk, keep_fold, id_eq]

theorem hubWrite_keeps (q : KeepArgs) (a : Nat) (v : Nat) (s : State) (h : Keep q s) : Keep q (hubWrite a v s) := by
  unfold hubWrite
  repeat' with_reducible
    first
    | assumption | apply keep_if | apply w1c_keeps | apply doFtcCtl_keeps | apply doSecCtl_keeps | apply doFwVerify_keeps
    | apply doDieFcmd_keeps | apply doRsvWrite_keeps | apply doWinCmd_keeps | apply setReg_keeps | apply doQassign_keeps
    | apply doCluMap_keeps | intro _ | simp only [keep_mk, keep_fold]

theorem write32_keeps (q : KeepArgs) (f : Nat) (a : Nat) (v : Nat) (s : State) (h : Keep q s) : Keep q (write32 f a v s) := by
  unfold write32
  repeat' with_reducible
    first
    | assumption | apply tenRegWrite_keeps | apply cluWrite_keeps | apply lnkWrite_keeps | apply memWrite_keeps
    | apply dbgWrite_keeps | apply hubWrite_keeps | intro _ | split | simp only [keep_mk, keep_fold, id_eq]

theorem writeMsix_keeps (q : KeepArgs) (f : Nat) (o : Nat) (bs : List Byte) (s : State) (h : Keep q s) : Keep q (writeMsix f
    o bs s) := by
  unfold writeMsix
  repeat' with_reducible
    first
    | assumption | apply flushVecs_keeps | apply modFunc_keeps | apply keep_foldl | intro _ | split
    | simp only [keep_mk, keep_fold, id_eq]

theorem writeWin_keeps (q : KeepArgs) (f : Nat) (w : Win) (o : Nat) (n : Nat) (v : Nat) (s : State) (h : Keep q s) : Keep q
    (writeWin f w o n v s) := by
  unfold writeWin
  repeat' with_reducible
    first
    | assumption | apply writeMsix_keeps | apply doKeyWrite_keeps | apply doFwWrite_keeps | apply keepV_spad
    | apply keepV_wst | apply keepV_dev | apply keepV_host | apply keepV_rt | intro _ | split
    | simp only [keep_mk, keep_fold, id_eq]

theorem writeBar_keeps (q : KeepArgs) (f : Nat) (a : Nat) (n : Nat) (v : Nat) (s : State) (h : Keep q s) : Keep q (writeBar f
    a n v s) := by
  unfold writeBar
  repeat' with_reducible
    first
    | assumption | apply doEmWrite_keeps | apply writeWin_keeps | apply write32_keeps | apply write64_keeps | intro _
    | split | simp only [keep_mk, keep_fold, id_eq]

theorem doRead_keeps (q : KeepArgs) (f : Nat) (a : Nat) (n : Nat) (s : State) (h : Keep q s) : Keep q (doRead f a n s) := by
  unfold doRead
  repeat' with_reducible
    first
    | assumption | apply readBar_keeps | apply emit_keeps | intro _ | refine keep_ofPair (by assumption) ?_ | split
    | simp only [keep_mk, keep_fold, id_eq]

theorem execRcRead_keeps (q : KeepArgs) (f : Nat) (addr : Nat) (size : Nat) (s : State) (h : Keep q s) : ∀ u, (execRcRead f
    addr size s) = .next u → Keep q u := by
  intro u hu; unfold execRcRead at hu; (try simp only [] at hu); (repeat' split at hu) <;> first | (cases hu <;> ((repeat' with_reducible first | assumption | apply doRead_keeps | intro _ | split | simp only [keep_mk, keep_fold, id_eq]); done)) | (refine funcCmd_keeps q _ _ _ ?_ ?_ _ hu <;> ((repeat' with_reducible first | assumption | apply doRead_keeps | intro _ | split | simp only [keep_mk, keep_fold, id_eq]); done))

theorem execRegisterWrite_keeps (q : KeepArgs) (f : Nat) (addr : Nat) (size : Nat) (v : Nat) (s : State) (h : Keep q s) : ∀
    u, (execRegisterWrite f addr size v s) = .next u → Keep q u := by
  intro u hu; unfold execRegisterWrite at hu; (try simp only [] at hu); (repeat' split at hu) <;> first | (cases hu <;> ((repeat' with_reducible first | assumption | apply writeBar_keeps | intro _ | split | simp only [keep_mk, keep_fold, id_eq]); done)) | (refine funcCmd_keeps q _ _ _ ?_ ?_ _ hu <;> ((repeat' with_reducible first | assumption | apply writeBar_keeps | intro _ | split | simp only [keep_mk, keep_fold, id_eq]); done))

theorem execSll_keeps (q : KeepArgs) (c : Nat) (sl : Nat) (rd : BitVec 5) (rs1 : BitVec 5) (rs2 : BitVec 5) (s : State) (h :
    Keep q s) : ∀ u, (execSll c sl rd rs1 rs2 s) = .next u → Keep q u := by
  intro u hu; unfold execSll at hu; refine slotRun_keeps q _ _ _ _ ?_ h _ hu
  repeat' with_reducible
    first
    | assumption | apply doSll_keeps | intro _ | split | simp only [keep_mk, keep_fold, id_eq]

theorem execBeq_keeps (q : KeepArgs) (c : Nat) (sl : Nat) (rs1 : BitVec 5) (rs2 : BitVec 5) (off : BitVec 16) (s : State) (h
    : Keep q s) : ∀ u, (execBeq c sl rs1 rs2 off s) = .next u → Keep q u := by
  intro u hu; unfold execBeq at hu; refine slotRun_keeps q _ _ _ _ ?_ h _ hu
  repeat' with_reducible
    first
    | assumption | apply doBeq_keeps | intro _ | split | simp only [keep_mk, keep_fold, id_eq]

theorem execHalt_keeps (q : KeepArgs) (c : Nat) (sl : Nat) (z : BitVec 26) (s : State) (h : Keep q s) : ∀ u, (execHalt c sl z
    s) = .next u → Keep q u := by
  intro u hu; unfold execHalt at hu; refine slotRun_keeps q _ _ _ _ ?_ h _ hu
  repeat' with_reducible
    first
    | assumption | apply doHalt_keeps | intro _ | split | simp only [keep_mk, keep_fold, id_eq]

theorem execBne_keeps (q : KeepArgs) (c : Nat) (sl : Nat) (rs1 : BitVec 5) (rs2 : BitVec 5) (off : BitVec 16) (s : State) (h
    : Keep q s) : ∀ u, (execBne c sl rs1 rs2 off s) = .next u → Keep q u := by
  intro u hu; unfold execBne at hu; refine slotRun_keeps q _ _ _ _ ?_ h _ hu
  repeat' with_reducible
    first
    | assumption | apply doBne_keeps | intro _ | split | simp only [keep_mk, keep_fold, id_eq]

theorem execTmark_keeps (q : KeepArgs) (c : Nat) (sl : Nat) (rd : BitVec 5) (rs1 : BitVec 5) (n : BitVec 5) (z : BitVec 7) (s
    : State) (h : Keep q s) : ∀ u, (execTmark c sl rd rs1 n z s) = .next u → Keep q u := by
  intro u hu; unfold execTmark at hu; refine slotRun_keeps q _ _ _ _ ?_ h _ hu
  repeat' with_reducible
    first
    | assumption | apply doTmark_keeps | intro _ | split | simp only [keep_mk, keep_fold, id_eq]

theorem execIssueResume_keeps (q : KeepArgs) (c : Nat) (sl : Nat) (s : State) (h : Keep q s) : ∀ u, (execIssueResume c sl s)
    = .next u → Keep q u := by
  intro u hu; unfold execIssueResume at hu; refine slotRun_keeps q _ _ _ _ ?_ h _ hu
  repeat' with_reducible
    first
    | assumption | apply doIssueResume_keeps | intro _ | split | simp only [keep_mk, keep_fold, id_eq]

theorem execXori_keeps (q : KeepArgs) (c : Nat) (sl : Nat) (rd : BitVec 5) (rs1 : BitVec 5) (imm : BitVec 16) (s : State) (h
    : Keep q s) : ∀ u, (execXori c sl rd rs1 imm s) = .next u → Keep q u := by
  intro u hu; unfold execXori at hu; refine slotRun_keeps q _ _ _ _ ?_ h _ hu
  repeat' with_reducible
    first
    | assumption | apply doXori_keeps | intro _ | split | simp only [keep_mk, keep_fold, id_eq]

theorem execBltu_keeps (q : KeepArgs) (c : Nat) (sl : Nat) (rs1 : BitVec 5) (rs2 : BitVec 5) (off : BitVec 16) (s : State) (h
    : Keep q s) : ∀ u, (execBltu c sl rs1 rs2 off s) = .next u → Keep q u := by
  intro u hu; unfold execBltu at hu; refine slotRun_keeps q _ _ _ _ ?_ h _ hu
  repeat' with_reducible
    first
    | assumption | apply doBltu_keeps | intro _ | split | simp only [keep_mk, keep_fold, id_eq]

theorem execYield_keeps (q : KeepArgs) (c : Nat) (sl : Nat) (rd : BitVec 5) (rs1 : BitVec 5) (n : BitVec 5) (z : BitVec 7) (s
    : State) (h : Keep q s) : ∀ u, (execYield c sl rd rs1 n z s) = .next u → Keep q u := by
  intro u hu; unfold execYield at hu; refine slotRun_keeps q _ _ _ _ ?_ h _ hu
  repeat' with_reducible
    first
    | assumption | apply doYield_keeps | intro _ | split | simp only [keep_mk, keep_fold, id_eq]

theorem execMinu_keeps (q : KeepArgs) (c : Nat) (sl : Nat) (rd : BitVec 5) (rs1 : BitVec 5) (rs2 : BitVec 5) (s : State) (h :
    Keep q s) : ∀ u, (execMinu c sl rd rs1 rs2 s) = .next u → Keep q u := by
  intro u hu; unfold execMinu at hu; refine slotRun_keeps q _ _ _ _ ?_ h _ hu
  repeat' with_reducible
    first
    | assumption | apply doMinu_keeps | intro _ | split | simp only [keep_mk, keep_fold, id_eq]

theorem execBgeu_keeps (q : KeepArgs) (c : Nat) (sl : Nat) (rs1 : BitVec 5) (rs2 : BitVec 5) (off : BitVec 16) (s : State) (h
    : Keep q s) : ∀ u, (execBgeu c sl rs1 rs2 off s) = .next u → Keep q u := by
  intro u hu; unfold execBgeu at hu; refine slotRun_keeps q _ _ _ _ ?_ h _ hu
  repeat' with_reducible
    first
    | assumption | apply doBgeu_keeps | intro _ | split | simp only [keep_mk, keep_fold, id_eq]

theorem execSrl_keeps (q : KeepArgs) (c : Nat) (sl : Nat) (rd : BitVec 5) (rs1 : BitVec 5) (rs2 : BitVec 5) (s : State) (h :
    Keep q s) : ∀ u, (execSrl c sl rd rs1 rs2 s) = .next u → Keep q u := by
  intro u hu; unfold execSrl at hu; refine slotRun_keeps q _ _ _ _ ?_ h _ hu
  repeat' with_reducible
    first
    | assumption | apply doSrl_keeps | intro _ | split | simp only [keep_mk, keep_fold, id_eq]

theorem execLh_keeps (q : KeepArgs) (c : Nat) (sl : Nat) (rd : BitVec 5) (rs1 : BitVec 5) (imm : BitVec 16) (s : State) (h :
    Keep q s) : ∀ u, (execLh c sl rd rs1 imm s) = .next u → Keep q u := by
  intro u hu; unfold execLh at hu; refine slotRun_keeps q _ _ _ _ ?_ h _ hu
  repeat' with_reducible
    first
    | assumption | apply doLh_keeps | intro _ | split | simp only [keep_mk, keep_fold, id_eq]

theorem execSrai_keeps (q : KeepArgs) (c : Nat) (sl : Nat) (rd : BitVec 5) (rs1 : BitVec 5) (imm : BitVec 16) (s : State) (h
    : Keep q s) : ∀ u, (execSrai c sl rd rs1 imm s) = .next u → Keep q u := by
  intro u hu; unfold execSrai at hu; refine slotRun_keeps q _ _ _ _ ?_ h _ hu
  repeat' with_reducible
    first
    | assumption | apply doSrai_keeps | intro _ | split | simp only [keep_mk, keep_fold, id_eq]

theorem execWaitop_keeps (q : KeepArgs) (c : Nat) (sl : Nat) (z5 : BitVec 5) (rs1 : BitVec 5) (z16 : BitVec 16) (s : State)
    (h : Keep q s) : ∀ u, (execWaitop c sl z5 rs1 z16 s) = .next u → Keep q u := by
  intro u hu; unfold execWaitop at hu; refine slotRun_keeps q _ _ _ _ ?_ h _ hu
  repeat' with_reducible
    first
    | assumption | apply doWaitop_keeps | intro _ | split | simp only [keep_mk, keep_fold, id_eq]

theorem execBlt_keeps (q : KeepArgs) (c : Nat) (sl : Nat) (rs1 : BitVec 5) (rs2 : BitVec 5) (off : BitVec 16) (s : State) (h
    : Keep q s) : ∀ u, (execBlt c sl rs1 rs2 off s) = .next u → Keep q u := by
  intro u hu; unfold execBlt at hu; refine slotRun_keeps q _ _ _ _ ?_ h _ hu
  repeat' with_reducible
    first
    | assumption | apply doBlt_keeps | intro _ | split | simp only [keep_mk, keep_fold, id_eq]

theorem execTdz_keeps (q : KeepArgs) (c : Nat) (sl : Nat) (td : BitVec 2) (z : BitVec 24) (s : State) (h : Keep q s) : ∀ u,
    (execTdz c sl td z s) = .next u → Keep q u := by
  intro u hu; unfold execTdz at hu; refine slotRun_keeps q _ _ _ _ ?_ h _ hu
  repeat' with_reducible
    first
    | assumption | apply doTdz_keeps | intro _ | split | simp only [keep_mk, keep_fold, id_eq]

theorem execTdi_keeps (q : KeepArgs) (c : Nat) (sl : Nat) (td : BitVec 2) (z : BitVec 2) (off : BitVec 6) (imm : BitVec 16)
    (s : State) (h : Keep q s) : ∀ u, (execTdi c sl td z off imm s) = .next u → Keep q u := by
  intro u hu; unfold execTdi at hu; refine slotRun_keeps q _ _ _ _ ?_ h _ hu
  repeat' with_reducible
    first
    | assumption | apply doTdi_keeps | intro _ | split | simp only [keep_mk, keep_fold, id_eq]

theorem execSltu_keeps (q : KeepArgs) (c : Nat) (sl : Nat) (rd : BitVec 5) (rs1 : BitVec 5) (rs2 : BitVec 5) (s : State) (h :
    Keep q s) : ∀ u, (execSltu c sl rd rs1 rs2 s) = .next u → Keep q u := by
  intro u hu; unfold execSltu at hu; refine slotRun_keeps q _ _ _ _ ?_ h _ hu
  repeat' with_reducible
    first
    | assumption | apply doSltu_keeps | intro _ | split | simp only [keep_mk, keep_fold, id_eq]

theorem execFence_keeps (q : KeepArgs) (c : Nat) (sl : Nat) (z : BitVec 26) (s : State) (h : Keep q s) : ∀ u, (execFence c sl
    z s) = .next u → Keep q u := by
  intro u hu; unfold execFence at hu; refine slotRun_keeps q _ _ _ _ ?_ h _ hu
  repeat' with_reducible
    first
    | assumption | apply doFence_keeps | intro _ | split | simp only [keep_mk, keep_fold, id_eq]

theorem execDmap_keeps (q : KeepArgs) (c : Nat) (sl : Nat) (rd : BitVec 5) (rs1 : BitVec 5) (rs2 : BitVec 5) (rs3 : BitVec 5)
    (cen : BitVec 1) (ctr : BitVec 5) (s : State) (h : Keep q s) : ∀ u, (execDmap c sl rd rs1 rs2 rs3 cen ctr s) = .next u →
    Keep q u := by
  intro u hu; unfold execDmap at hu; refine slotRun_keeps q _ _ _ _ ?_ h _ hu
  repeat' with_reducible
    first
    | assumption | apply doDmap_keeps | intro _ | split | simp only [keep_mk, keep_fold, id_eq]

theorem execSlli_keeps (q : KeepArgs) (c : Nat) (sl : Nat) (rd : BitVec 5) (rs1 : BitVec 5) (imm : BitVec 16) (s : State) (h
    : Keep q s) : ∀ u, (execSlli c sl rd rs1 imm s) = .next u → Keep q u := by
  intro u hu; unfold execSlli at hu; refine slotRun_keeps q _ _ _ _ ?_ h _ hu
  repeat' with_reducible
    first
    | assumption | apply doSlli_keeps | intro _ | split | simp only [keep_mk, keep_fold, id_eq]

theorem execAddi_keeps (q : KeepArgs) (c : Nat) (sl : Nat) (rd : BitVec 5) (rs1 : BitVec 5) (imm : BitVec 16) (s : State) (h
    : Keep q s) : ∀ u, (execAddi c sl rd rs1 imm s) = .next u → Keep q u := by
  intro u hu; unfold execAddi at hu; refine slotRun_keeps q _ _ _ _ ?_ h _ hu
  repeat' with_reducible
    first
    | assumption | apply doAddi_keeps | intro _ | split | simp only [keep_mk, keep_fold, id_eq]

theorem execMaxu_keeps (q : KeepArgs) (c : Nat) (sl : Nat) (rd : BitVec 5) (rs1 : BitVec 5) (rs2 : BitVec 5) (s : State) (h :
    Keep q s) : ∀ u, (execMaxu c sl rd rs1 rs2 s) = .next u → Keep q u := by
  intro u hu; unfold execMaxu at hu; refine slotRun_keeps q _ _ _ _ ?_ h _ hu
  repeat' with_reducible
    first
    | assumption | apply doMaxu_keeps | intro _ | split | simp only [keep_mk, keep_fold, id_eq]

theorem execProgramEnd_keeps (q : KeepArgs) (c : Nat) (sl : Nat) (s : State) (h : Keep q s) : ∀ u, (execProgramEnd c sl s) =
    .next u → Keep q u := by
  intro u hu; unfold execProgramEnd at hu; refine slotRun_keeps q _ _ _ _ ?_ h _ hu
  repeat' with_reducible
    first
    | assumption | apply doProgramEnd_keeps | intro _ | split | simp only [keep_mk, keep_fold, id_eq]

theorem execLb_keeps (q : KeepArgs) (c : Nat) (sl : Nat) (rd : BitVec 5) (rs1 : BitVec 5) (imm : BitVec 16) (s : State) (h :
    Keep q s) : ∀ u, (execLb c sl rd rs1 imm s) = .next u → Keep q u := by
  intro u hu; unfold execLb at hu; refine slotRun_keeps q _ _ _ _ ?_ h _ hu
  repeat' with_reducible
    first
    | assumption | apply doLb_keeps | intro _ | split | simp only [keep_mk, keep_fold, id_eq]

theorem execLdstResume_keeps (q : KeepArgs) (c : Nat) (sl : Nat) (s : State) (h : Keep q s) : ∀ u, (execLdstResume c sl s) =
    .next u → Keep q u := by
  intro u hu; unfold execLdstResume at hu; refine slotRun_keeps q _ _ _ _ ?_ h _ hu
  repeat' with_reducible
    first
    | assumption | apply doLdstResume_keeps | intro _ | split | simp only [keep_mk, keep_fold, id_eq]

theorem execSh_keeps (q : KeepArgs) (c : Nat) (sl : Nat) (rs2 : BitVec 5) (rs1 : BitVec 5) (imm : BitVec 16) (s : State) (h :
    Keep q s) : ∀ u, (execSh c sl rs2 rs1 imm s) = .next u → Keep q u := by
  intro u hu; unfold execSh at hu; refine slotRun_keeps q _ _ _ _ ?_ h _ hu
  repeat' with_reducible
    first
    | assumption | apply doSh_keeps | intro _ | split | simp only [keep_mk, keep_fold, id_eq]

theorem execAndi_keeps (q : KeepArgs) (c : Nat) (sl : Nat) (rd : BitVec 5) (rs1 : BitVec 5) (imm : BitVec 16) (s : State) (h
    : Keep q s) : ∀ u, (execAndi c sl rd rs1 imm s) = .next u → Keep q u := by
  intro u hu; unfold execAndi at hu; refine slotRun_keeps q _ _ _ _ ?_ h _ hu
  repeat' with_reducible
    first
    | assumption | apply doAndi_keeps | intro _ | split | simp only [keep_mk, keep_fold, id_eq]

theorem execMin_keeps (q : KeepArgs) (c : Nat) (sl : Nat) (rd : BitVec 5) (rs1 : BitVec 5) (rs2 : BitVec 5) (s : State) (h :
    Keep q s) : ∀ u, (execMin c sl rd rs1 rs2 s) = .next u → Keep q u := by
  intro u hu; unfold execMin at hu; refine slotRun_keeps q _ _ _ _ ?_ h _ hu
  repeat' with_reducible
    first
    | assumption | apply doMin_keeps | intro _ | split | simp only [keep_mk, keep_fold, id_eq]

theorem execSb_keeps (q : KeepArgs) (c : Nat) (sl : Nat) (rs2 : BitVec 5) (rs1 : BitVec 5) (imm : BitVec 16) (s : State) (h :
    Keep q s) : ∀ u, (execSb c sl rs2 rs1 imm s) = .next u → Keep q u := by
  intro u hu; unfold execSb at hu; refine slotRun_keeps q _ _ _ _ ?_ h _ hu
  repeat' with_reducible
    first
    | assumption | apply doSb_keeps | intro _ | split | simp only [keep_mk, keep_fold, id_eq]

theorem execSlt_keeps (q : KeepArgs) (c : Nat) (sl : Nat) (rd : BitVec 5) (rs1 : BitVec 5) (rs2 : BitVec 5) (s : State) (h :
    Keep q s) : ∀ u, (execSlt c sl rd rs1 rs2 s) = .next u → Keep q u := by
  intro u hu; unfold execSlt at hu; refine slotRun_keeps q _ _ _ _ ?_ h _ hu
  repeat' with_reducible
    first
    | assumption | apply doSlt_keeps | intro _ | split | simp only [keep_mk, keep_fold, id_eq]

theorem execTdw_keeps (q : KeepArgs) (c : Nat) (sl : Nat) (td : BitVec 2) (w : BitVec 2) (z1 : BitVec 1) (rs1 : BitVec 5)
    (z10 : BitVec 10) (off : BitVec 6) (s : State) (h : Keep q s) : ∀ u, (execTdw c sl td w z1 rs1 z10 off s) = .next u →
    Keep q u := by
  intro u hu; unfold execTdw at hu; refine slotRun_keeps q _ _ _ _ ?_ h _ hu
  repeat' with_reducible
    first
    | assumption | apply doTdw_keeps | intro _ | split | simp only [keep_mk, keep_fold, id_eq]

theorem execInterlockResume_keeps (q : KeepArgs) (c : Nat) (sl : Nat) (s : State) (h : Keep q s) : ∀ u, (execInterlockResume
    c sl s) = .next u → Keep q u := by
  intro u hu; unfold execInterlockResume at hu; refine slotRun_keeps q _ _ _ _ ?_ h _ hu
  repeat' with_reducible
    first
    | assumption | apply doInterlockResume_keeps | intro _ | split | simp only [keep_mk, keep_fold, id_eq]

theorem execSub_keeps (q : KeepArgs) (c : Nat) (sl : Nat) (rd : BitVec 5) (rs1 : BitVec 5) (rs2 : BitVec 5) (s : State) (h :
    Keep q s) : ∀ u, (execSub c sl rd rs1 rs2 s) = .next u → Keep q u := by
  intro u hu; unfold execSub at hu; refine slotRun_keeps q _ _ _ _ ?_ h _ hu
  repeat' with_reducible
    first
    | assumption | apply doSub_keeps | intro _ | split | simp only [keep_mk, keep_fold, id_eq]

theorem execOr_keeps (q : KeepArgs) (c : Nat) (sl : Nat) (rd : BitVec 5) (rs1 : BitVec 5) (rs2 : BitVec 5) (s : State) (h :
    Keep q s) : ∀ u, (execOr c sl rd rs1 rs2 s) = .next u → Keep q u := by
  intro u hu; unfold execOr at hu; refine slotRun_keeps q _ _ _ _ ?_ h _ hu
  repeat' with_reducible
    first
    | assumption | apply doOr_keeps | intro _ | split | simp only [keep_mk, keep_fold, id_eq]

theorem execFenceResume_keeps (q : KeepArgs) (c : Nat) (sl : Nat) (s : State) (h : Keep q s) : ∀ u, (execFenceResume c sl s)
    = .next u → Keep q u := by
  intro u hu; unfold execFenceResume at hu; refine slotRun_keeps q _ _ _ _ ?_ h _ hu
  repeat' with_reducible
    first
    | assumption | apply doFenceResume_keeps | intro _ | split | simp only [keep_mk, keep_fold, id_eq]

theorem execLdi_keeps (q : KeepArgs) (c : Nat) (sl : Nat) (rd : BitVec 5) (z : BitVec 3) (x4 : BitVec 2) (imm : BitVec 16) (s
    : State) (h : Keep q s) : ∀ u, (execLdi c sl rd z x4 imm s) = .next u → Keep q u := by
  intro u hu; unfold execLdi at hu; refine slotRun_keeps q _ _ _ _ ?_ h _ hu
  repeat' with_reducible
    first
    | assumption | apply doLdi_keeps | intro _ | split | simp only [keep_mk, keep_fold, id_eq]

theorem execJal_keeps (q : KeepArgs) (c : Nat) (sl : Nat) (rd : BitVec 5) (off : BitVec 21) (s : State) (h : Keep q s) : ∀ u,
    (execJal c sl rd off s) = .next u → Keep q u := by
  intro u hu; unfold execJal at hu; refine slotRun_keeps q _ _ _ _ ?_ h _ hu
  repeat' with_reducible
    first
    | assumption | apply doJal_keeps | intro _ | split | simp only [keep_mk, keep_fold, id_eq]

theorem execMax_keeps (q : KeepArgs) (c : Nat) (sl : Nat) (rd : BitVec 5) (rs1 : BitVec 5) (rs2 : BitVec 5) (s : State) (h :
    Keep q s) : ∀ u, (execMax c sl rd rs1 rs2 s) = .next u → Keep q u := by
  intro u hu; unfold execMax at hu; refine slotRun_keeps q _ _ _ _ ?_ h _ hu
  repeat' with_reducible
    first
    | assumption | apply doMax_keeps | intro _ | split | simp only [keep_mk, keep_fold, id_eq]

theorem execJalr_keeps (q : KeepArgs) (c : Nat) (sl : Nat) (rd : BitVec 5) (rs1 : BitVec 5) (imm : BitVec 16) (s : State) (h
    : Keep q s) : ∀ u, (execJalr c sl rd rs1 imm s) = .next u → Keep q u := by
  intro u hu; unfold execJalr at hu; refine slotRun_keeps q _ _ _ _ ?_ h _ hu
  repeat' with_reducible
    first
    | assumption | apply doJalr_keeps | intro _ | split | simp only [keep_mk, keep_fold, id_eq]

theorem execLd_keeps (q : KeepArgs) (c : Nat) (sl : Nat) (rd : BitVec 5) (rs1 : BitVec 5) (imm : BitVec 16) (s : State) (h :
    Keep q s) : ∀ u, (execLd c sl rd rs1 imm s) = .next u → Keep q u := by
  intro u hu; unfold execLd at hu; refine slotRun_keeps q _ _ _ _ ?_ h _ hu
  repeat' with_reducible
    first
    | assumption | apply doLd_keeps | intro _ | split | simp only [keep_mk, keep_fold, id_eq]

theorem execDmag_keeps (q : KeepArgs) (c : Nat) (sl : Nat) (rd : BitVec 5) (rs1 : BitVec 5) (rs2 : BitVec 5) (rs3 : BitVec 5)
    (cen : BitVec 1) (ctr : BitVec 5) (s : State) (h : Keep q s) : ∀ u, (execDmag c sl rd rs1 rs2 rs3 cen ctr s) = .next u →
    Keep q u := by
  intro u hu; unfold execDmag at hu; refine slotRun_keeps q _ _ _ _ ?_ h _ hu
  repeat' with_reducible
    first
    | assumption | apply doDmag_keeps | intro _ | split | simp only [keep_mk, keep_fold, id_eq]

theorem execSra_keeps (q : KeepArgs) (c : Nat) (sl : Nat) (rd : BitVec 5) (rs1 : BitVec 5) (rs2 : BitVec 5) (s : State) (h :
    Keep q s) : ∀ u, (execSra c sl rd rs1 rs2 s) = .next u → Keep q u := by
  intro u hu; unfold execSra at hu; refine slotRun_keeps q _ _ _ _ ?_ h _ hu
  repeat' with_reducible
    first
    | assumption | apply doSra_keeps | intro _ | split | simp only [keep_mk, keep_fold, id_eq]

theorem execAcset_keeps (q : KeepArgs) (c : Nat) (sl : Nat) (rd : BitVec 5) (rs1 : BitVec 5) (n : BitVec 5) (z : BitVec 7) (s
    : State) (h : Keep q s) : ∀ u, (execAcset c sl rd rs1 n z s) = .next u → Keep q u := by
  intro u hu; unfold execAcset at hu; refine slotRun_keeps q _ _ _ _ ?_ h _ hu
  repeat' with_reducible
    first
    | assumption | apply doAcset_keeps | intro _ | split | simp only [keep_mk, keep_fold, id_eq]

theorem execMul_keeps (q : KeepArgs) (c : Nat) (sl : Nat) (rd : BitVec 5) (rs1 : BitVec 5) (rs2 : BitVec 5) (s : State) (h :
    Keep q s) : ∀ u, (execMul c sl rd rs1 rs2 s) = .next u → Keep q u := by
  intro u hu; unfold execMul at hu; refine slotRun_keeps q _ _ _ _ ?_ h _ hu
  repeat' with_reducible
    first
    | assumption | apply doMul_keeps | intro _ | split | simp only [keep_mk, keep_fold, id_eq]

theorem execOri_keeps (q : KeepArgs) (c : Nat) (sl : Nat) (rd : BitVec 5) (rs1 : BitVec 5) (imm : BitVec 16) (s : State) (h :
    Keep q s) : ∀ u, (execOri c sl rd rs1 imm s) = .next u → Keep q u := by
  intro u hu; unfold execOri at hu; refine slotRun_keeps q _ _ _ _ ?_ h _ hu
  repeat' with_reducible
    first
    | assumption | apply doOri_keeps | intro _ | split | simp only [keep_mk, keep_fold, id_eq]

theorem execAcrd_keeps (q : KeepArgs) (c : Nat) (sl : Nat) (rd : BitVec 5) (rs1 : BitVec 5) (n : BitVec 5) (z : BitVec 7) (s
    : State) (h : Keep q s) : ∀ u, (execAcrd c sl rd rs1 n z s) = .next u → Keep q u := by
  intro u hu; unfold execAcrd at hu; refine slotRun_keeps q _ _ _ _ ?_ h _ hu
  repeat' with_reducible
    first
    | assumption | apply doAcrd_keeps | intro _ | split | simp only [keep_mk, keep_fold, id_eq]

theorem execXor_keeps (q : KeepArgs) (c : Nat) (sl : Nat) (rd : BitVec 5) (rs1 : BitVec 5) (rs2 : BitVec 5) (s : State) (h :
    Keep q s) : ∀ u, (execXor c sl rd rs1 rs2 s) = .next u → Keep q u := by
  intro u hu; unfold execXor at hu; refine slotRun_keeps q _ _ _ _ ?_ h _ hu
  repeat' with_reducible
    first
    | assumption | apply doXor_keeps | intro _ | split | simp only [keep_mk, keep_fold, id_eq]

theorem execLw_keeps (q : KeepArgs) (c : Nat) (sl : Nat) (rd : BitVec 5) (rs1 : BitVec 5) (imm : BitVec 16) (s : State) (h :
    Keep q s) : ∀ u, (execLw c sl rd rs1 imm s) = .next u → Keep q u := by
  intro u hu; unfold execLw at hu; refine slotRun_keeps q _ _ _ _ ?_ h _ hu
  repeat' with_reducible
    first
    | assumption | apply doLw_keeps | intro _ | split | simp only [keep_mk, keep_fold, id_eq]

theorem execSd_keeps (q : KeepArgs) (c : Nat) (sl : Nat) (rs2 : BitVec 5) (rs1 : BitVec 5) (imm : BitVec 16) (s : State) (h :
    Keep q s) : ∀ u, (execSd c sl rs2 rs1 imm s) = .next u → Keep q u := by
  intro u hu; unfold execSd at hu; refine slotRun_keeps q _ _ _ _ ?_ h _ hu
  repeat' with_reducible
    first
    | assumption | apply doSd_keeps | intro _ | split | simp only [keep_mk, keep_fold, id_eq]

theorem execWaitc_keeps (q : KeepArgs) (c : Nat) (sl : Nat) (rs1 : BitVec 5) (n : BitVec 5) (z : BitVec 16) (s : State) (h :
    Keep q s) : ∀ u, (execWaitc c sl rs1 n z s) = .next u → Keep q u := by
  intro u hu; unfold execWaitc at hu; refine slotRun_keeps q _ _ _ _ ?_ h _ hu
  repeat' with_reducible
    first
    | assumption | apply doWaitc_keeps | intro _ | split | simp only [keep_mk, keep_fold, id_eq]

theorem execWaitcResume_keeps (q : KeepArgs) (c : Nat) (sl : Nat) (s : State) (h : Keep q s) : ∀ u, (execWaitcResume c sl s)
    = .next u → Keep q u := by
  intro u hu; unfold execWaitcResume at hu; refine slotRun_keeps q _ _ _ _ ?_ h _ hu
  repeat' with_reducible
    first
    | assumption | apply doWaitcResume_keeps | intro _ | split | simp only [keep_mk, keep_fold, id_eq]

theorem execSrd_keeps (q : KeepArgs) (c : Nat) (sl : Nat) (rd : BitVec 5) (rs1 : BitVec 5) (n : BitVec 5) (z : BitVec 7) (s :
    State) (h : Keep q s) : ∀ u, (execSrd c sl rd rs1 n z s) = .next u → Keep q u := by
  intro u hu; unfold execSrd at hu; refine slotRun_keeps q _ _ _ _ ?_ h _ hu
  repeat' with_reducible
    first
    | assumption | apply doSrd_keeps | intro _ | split | simp only [keep_mk, keep_fold, id_eq]

theorem execTiss_keeps (q : KeepArgs) (c : Nat) (sl : Nat) (td : BitVec 2) (z3 : BitVec 3) (rd : BitVec 5) (z16 : BitVec 16)
    (s : State) (h : Keep q s) : ∀ u, (execTiss c sl td z3 rd z16 s) = .next u → Keep q u := by
  intro u hu; unfold execTiss at hu; refine slotRun_keeps q _ _ _ _ ?_ h _ hu
  repeat' with_reducible
    first
    | assumption | apply doTiss_keeps | intro _ | split | simp only [keep_mk, keep_fold, id_eq]

theorem execWaitopResume_keeps (q : KeepArgs) (c : Nat) (sl : Nat) (s : State) (h : Keep q s) : ∀ u, (execWaitopResume c sl
    s) = .next u → Keep q u := by
  intro u hu; unfold execWaitopResume at hu; refine slotRun_keeps q _ _ _ _ ?_ h _ hu
  repeat' with_reducible
    first
    | assumption | apply doWaitopResume_keeps | intro _ | split | simp only [keep_mk, keep_fold, id_eq]

theorem execAnd_keeps (q : KeepArgs) (c : Nat) (sl : Nat) (rd : BitVec 5) (rs1 : BitVec 5) (rs2 : BitVec 5) (s : State) (h :
    Keep q s) : ∀ u, (execAnd c sl rd rs1 rs2 s) = .next u → Keep q u := by
  intro u hu; unfold execAnd at hu; refine slotRun_keeps q _ _ _ _ ?_ h _ hu
  repeat' with_reducible
    first
    | assumption | apply doAnd_keeps | intro _ | split | simp only [keep_mk, keep_fold, id_eq]

theorem execSrli_keeps (q : KeepArgs) (c : Nat) (sl : Nat) (rd : BitVec 5) (rs1 : BitVec 5) (imm : BitVec 16) (s : State) (h
    : Keep q s) : ∀ u, (execSrli c sl rd rs1 imm s) = .next u → Keep q u := by
  intro u hu; unfold execSrli at hu; refine slotRun_keeps q _ _ _ _ ?_ h _ hu
  repeat' with_reducible
    first
    | assumption | apply doSrli_keeps | intro _ | split | simp only [keep_mk, keep_fold, id_eq]

theorem execSlti_keeps (q : KeepArgs) (c : Nat) (sl : Nat) (rd : BitVec 5) (rs1 : BitVec 5) (imm : BitVec 16) (s : State) (h
    : Keep q s) : ∀ u, (execSlti c sl rd rs1 imm s) = .next u → Keep q u := by
  intro u hu; unfold execSlti at hu; refine slotRun_keeps q _ _ _ _ ?_ h _ hu
  repeat' with_reducible
    first
    | assumption | apply doSlti_keeps | intro _ | split | simp only [keep_mk, keep_fold, id_eq]

theorem execAdd_keeps (q : KeepArgs) (c : Nat) (sl : Nat) (rd : BitVec 5) (rs1 : BitVec 5) (rs2 : BitVec 5) (s : State) (h :
    Keep q s) : ∀ u, (execAdd c sl rd rs1 rs2 s) = .next u → Keep q u := by
  intro u hu; unfold execAdd at hu; refine slotRun_keeps q _ _ _ _ ?_ h _ hu
  repeat' with_reducible
    first
    | assumption | apply doAdd_keeps | intro _ | split | simp only [keep_mk, keep_fold, id_eq]

theorem execBge_keeps (q : KeepArgs) (c : Nat) (sl : Nat) (rs1 : BitVec 5) (rs2 : BitVec 5) (off : BitVec 16) (s : State) (h
    : Keep q s) : ∀ u, (execBge c sl rs1 rs2 off s) = .next u → Keep q u := by
  intro u hu; unfold execBge at hu; refine slotRun_keeps q _ _ _ _ ?_ h _ hu
  repeat' with_reducible
    first
    | assumption | apply doBge_keeps | intro _ | split | simp only [keep_mk, keep_fold, id_eq]

theorem execSw_keeps (q : KeepArgs) (c : Nat) (sl : Nat) (rs2 : BitVec 5) (rs1 : BitVec 5) (imm : BitVec 16) (s : State) (h :
    Keep q s) : ∀ u, (execSw c sl rs2 rs1 imm s) = .next u → Keep q u := by
  intro u hu; unfold execSw at hu; refine slotRun_keeps q _ _ _ _ ?_ h _ hu
  repeat' with_reducible
    first
    | assumption | apply doSw_keeps | intro _ | split | simp only [keep_mk, keep_fold, id_eq]

theorem splitCycle_keeps (q : KeepArgs) (s : State) (c : Nat) (h : Keep q s) : Keep q (splitCycle s c) := by
  unfold splitCycle
  repeat' with_reducible
    first
    | assumption | apply bumpC_keeps | intro _ | split | simp only [keep_mk, keep_fold, id_eq]

theorem fetchRun_keeps (q : KeepArgs) (c : Nat) (sl : Nat) (s : State) (h : Keep q s) : Keep q (fetchRun c sl s) := by
  unfold fetchRun
  repeat' with_reducible
    first
    | assumption | apply runSeq_keeps | apply issueWith_keeps | apply instrFault_keeps | intro _ | split
    | simp only [keep_mk, keep_fold, id_eq]

theorem resumeSlot_keeps (q : KeepArgs) (c : Nat) (sl : Nat) (s : State) (h : Keep q s) : Keep q (resumeSlot c sl s) := by
  unfold resumeSlot
  repeat' with_reducible
    first
    | assumption | apply doProgramEnd_keeps | apply doWaitcResume_keeps | apply doWaitopResume_keeps
    | apply doFenceResume_keeps | apply doInterlockResume_keeps | apply doLdstResume_keeps | apply doIssueResume_keeps
    | intro _ | split | simp only [keep_mk, keep_fold, id_eq]

theorem trySlot_keeps (q : KeepArgs) (c : Nat) (sl : Nat) (s : State) (h : Keep q s) : Keep q (trySlot c sl s) := by
  unfold trySlot
  repeat' with_reducible
    first
    | assumption | apply fetchRun_keeps | apply resumeSlot_keeps | intro _ | split | simp only [keep_mk, keep_fold, id_eq]

theorem seqCycle_keeps (q : KeepArgs) (s : State) (c : Nat) (h : Keep q s) : Keep q (seqCycle s c) := by
  unfold seqCycle
  repeat' with_reducible
    first
    | assumption | apply modSlot_keeps | apply trySlot_keeps | apply modClu_keeps | apply keep_foldl | intro _ | split
    | simp only [keep_mk, keep_fold, id_eq]

theorem bankCycles_keeps (q : KeepArgs) (s : State) (c : Nat) (h : Keep q s) : Keep q (bankCycles s c) := by
  unfold bankCycles
  repeat' with_reducible
    first
    | assumption | apply bankTick_keeps | intro _ | split | simp only [keep_mk, keep_fold, id_eq]

theorem tick_keeps (q : KeepArgs) (s : State) (h : Keep q s) : Keep q (tick s) := by
  unfold tick
  repeat' with_reducible
    first
    | assumption | apply splitCycle_keeps | apply seqCycle_keeps | apply memTick_keeps | apply wayTick_keeps
    | apply bankCycles_keeps | apply eclBoundary_keeps | apply passTick_keeps | apply keep_foldl | intro _ | split
    | simp only [keep_mk, keep_fold, id_eq]

theorem ten_keeps (q : KeepArgs) (k : Cls) (f : Nat) (a : Nat) (bs : List Byte) (s : State) (h : Keep q s) : Keep q (ten k f
    a bs s) := by
  unfold ten
  repeat' with_reducible
    first
    | assumption | apply tenWrite_keeps | intro _ | split | simp only [keep_mk, keep_fold, id_eq]

end Sys2Proof.Machine
end

