-- ==== Sys2Proof/Laws/Prefix.lean ====
section
/-! SUPPORT. The prefix walker's reads and writes: what each does where its bytes can be read, and the walk of a bucket. -/

namespace Sys2Proof.Laws

open Sys2Proof.Machine

/-- What a chain of reads leaves as it was: everything but the requests at the stacks. -/
theorem onlyAsks_trans {s t u : State} (h : onlyAsks s t) (g : onlyAsks t u) : onlyAsks s u := by
  unfold onlyAsks at *; rw [g, h]

theorem itemRead_sees {s t : State} {i : Item} {a n : Nat} {bs : List Byte} (h : sees i.cls i.f a n bs s t)
    (g : State → List Byte → State) : itemRead i a n g s = g t bs := by
  simp [itemRead, hubRead, h.1]

theorem itemWrite_ok {s : State} {i : Item} {a : Nat} {bs : List Byte} (h : tenOk s i.f a bs.length = true)
    (g : State → State) : itemWrite i a bs g s = g (ten i.cls i.f a bs s) := by simp [itemWrite, ten, h]

theorem withTree_sees {s t : State} {i : Item} {bs : List Byte} (h0 : itemTree s i ≠ 0)
    (h : sees i.cls i.f (itemTree s i) 32 bs s t) (g : State → PTree → State) :
    withTree i g s = g t (treeOf (itemTree s i) bs) := by simp [withTree, h0, itemRead_sees h]

/-- The first node of a bucket matches. -/
theorem findNode_hit {s t : State} {i : Item} {parent fuel c : Nat} {blk bs : List Byte} (hc : c ≠ 0)
    (h : sees i.cls i.f c 1088 bs s t) (m : nodeMatches parent blk bs = true) (g : State → Nat → State) :
    findNode i parent blk g (fuel + 1) c s = g t c := by simp [findNode, hc, itemRead_sees h, m]

/-- A bucket without nodes. -/
theorem findNode_none {s : State} {i : Item} {parent : Nat} (fuel : Nat) {blk : List Byte} (g : State → Nat → State) :
    findNode i parent blk g fuel 0 s = g s 0 := by cases fuel <;> simp [findNode]

/-- The walk of a bucket whose first node matches. -/
theorem blockNode_hit {s s1 s2 : State} {i : Item} {t : PTree} {parent : Nat} {blk nb bs : List Byte} (hn : t.nb ≠ 0)
    (hb : sees i.cls i.f (bucketAddr t parent blk) 8 nb s s1) (hc : leNat nb ≠ 0)
    (h : sees i.cls i.f (leNat nb) 1088 bs s1 s2) (m : nodeMatches parent blk bs = true) (g : State → Nat → Nat → State) :
    blockNode i t parent blk g s = g s2 (leNat nb) (leNat nb) := by
  have e : chainFuel = (chainFuel - 1) + 1 := by decide
  rw [blockNode, if_neg hn, itemRead_sees hb, e, findNode_hit hc h m]

/-- The walk of an empty bucket. -/
theorem blockNode_none {s s1 : State} {i : Item} {t : PTree} {parent : Nat} {blk nb : List Byte} (hn : t.nb ≠ 0)
    (hb : sees i.cls i.f (bucketAddr t parent blk) 8 nb s s1) (hc : leNat nb = 0) (g : State → Nat → Nat → State) :
    blockNode i t parent blk g s = g s1 0 0 := by
  rw [blockNode, if_neg hn, itemRead_sees hb, hc, findNode_none]

/-- A bucket of one node. -/
theorem scanChain_one {s t : State} {i : Item} {fuel link c : Nat} {bs : List Byte} {acc : List PNode} (hc : c ≠ 0)
    (h : sees i.cls i.f c 64 bs s t) (hn : nNext bs = 0) (g : State → List PNode → State) :
    scanChain i g (fuel + 2) link c acc s =
      g t (if nRef bs = 0 ∧ nKids bs = 0 then acc ++ [⟨c, link, bs⟩] else acc) := by
  simp [scanChain, hc, itemRead_sees h, hn]

/-- The walk of a tree with one bucket, of one node or of none. -/
theorem scanBuckets_one {s s1 s2 : State} {i : Item} {t : PTree} {nb bs : List Byte} (hb : sees i.cls i.f t.buckets 8 nb s s1)
    (hc : leNat nb ≠ 0) (h : sees i.cls i.f (leNat nb) 64 bs s1 s2) (hn : nNext bs = 0) (g : State → List PNode → State) :
    scanBuckets i t g [0] [] s =
      g s2 (if nRef bs = 0 ∧ nKids bs = 0 then [⟨leNat nb, t.buckets, bs⟩] else []) := by
  have e : chainFuel = (chainFuel - 2) + 2 := by decide
  simp only [scanBuckets, Nat.mul_zero, Nat.add_zero]
  rw [itemRead_sees hb, e, scanChain_one hc h hn]
  simp

theorem scanBuckets_none {s s1 : State} {i : Item} {t : PTree} {nb : List Byte} (hb : sees i.cls i.f t.buckets 8 nb s s1)
    (hc : leNat nb = 0) (g : State → List PNode → State) : scanBuckets i t g [0] [] s = g s1 [] := by
  simp only [scanBuckets, Nat.mul_zero, Nat.add_zero]
  rw [itemRead_sees hb, hc]
  have e : chainFuel = (chainFuel - 1) + 1 := by decide
  rw [e]; simp [scanChain]

end Sys2Proof.Laws
end

