-- ==== Sys2Proof/Laws/Spad.lean ====
section
/-! SUPPORT. Wide accesses of scratchpads in which no word is poisoned and none holds errors: nothing is refused, and no mark
comes about. -/

namespace Sys2Proof.Laws

open Sys2Proof.Machine

/-- No word of any scratchpad is poisoned or holds errors. -/
def unmarked (s : State) : Prop := s.cl.spadPoi = [] ∧ s.cl.spadErr = []

theorem wordCheck_unmarked {s : State} (h : unmarked s) (c w : Nat) : wordCheck s c w = (s, false) := by
  simp [wordCheck, wordPoi, h.1, h.2, tabGet]

theorem wordMarked_unmarked {s : State} (h : unmarked s) (c p n : Nat) : wordMarked s c p n = false := by
  simp [wordMarked, h.1, h.2, tabRange]

theorem modClu_unmarked {s : State} (c : Nat) (g : Clu → Clu) (h : unmarked s) : unmarked (modClu s c g) := h

theorem writeBack_unmarked {s : State} (h : unmarked s) (c w : Nat) : unmarked (writeBack s c w) := by
  unfold writeBack
  split
  · exact h
  · split
    · exact h
    · rw [wordCheck_unmarked (s := bankUse s c .gather w 1 2) h]
      exact h

theorem flushRange_unmarked {s : State} (h : unmarked s) (c p n : Nat) : unmarked (flushRange s c p n) := by
  unfold flushRange
  generalize (getClu s c).gather.filter _ = l
  induction l generalizing s with
  | nil => exact h
  | cons e l ih => exact ih (writeBack_unmarked h c e.word)

/-- A word that is allocated in the gather buffer is found sound. -/
theorem allocEnt_unmarked {s : State} (h : unmarked s) (c w : Nat) (g : List GEnt) :
    (allocEnt s c w g).2.isSome = true ∧ unmarked (allocEnt s c w g).1 := by
  unfold allocEnt
  rw [wordCheck_unmarked (s := bankUse s c .gather w 1 1) h]
  exact ⟨rfl, h⟩

theorem roomFor_unmarked {s : State} (h : unmarked s) (c : Nat) : unmarked (roomFor s c).1 := by
  unfold roomFor
  split
  · exact h
  · split
    · exact h
    · exact writeBack_unmarked h c _

theorem unitEnt_unmarked {s : State} (h : unmarked s) (c w : Nat) :
    (unitEnt s c w).2.isSome = true ∧ unmarked (unitEnt s c w).1 := by
  unfold unitEnt
  split
  · have p : wordPoi s c w = false := by simp [wordPoi, h.1, tabGet]
    rw [p]; exact ⟨rfl, h⟩
  · exact allocEnt_unmarked (roomFor_unmarked h c) c w _

theorem narrowWrite_unmarked {s : State} (h : unmarked s) (c p : Nat) (bs : List Byte) :
    (narrowWrite s c p bs).2 = false ∧ unmarked (narrowWrite s c p bs).1 := by
  have u := unitEnt_unmarked h c (p / 32)
  unfold narrowWrite
  split
  · rename_i e; rw [e] at u; exact ⟨rfl, u.2⟩
  · rename_i e; rw [e] at u; exact absurd u.1 (by simp)

theorem wideWrite_unmarked {s : State} (h : unmarked s) (c : Nat) (b : BankUser) (p : Nat) (bs : List Byte) :
    (wideWrite s c b p bs false).2 = 0 ∧ unmarked (wideWrite s c b p bs false).1 := by
  have f := flushRange_unmarked h c p bs.length
  simp only [wideWrite,
    wordMarked_unmarked (s := bankUse (flushRange s c p bs.length) c b (p / 32) ((p + bs.length + 31) / 32 - p / 32) 1) f,
    Bool.not_false, Bool.and_self, if_true]
  exact ⟨trivial, f⟩

theorem writeCuts_unmarked {s : State} (h : unmarked s) (c : Nat) (b : BankUser) (bs : List Byte) (l : List (Nat × Nat × Bool)) :
    (writeCuts s c b bs l).2 = 0 ∧ unmarked (writeCuts s c b bs l).1 := by
  induction l generalizing s bs with
  | nil => exact ⟨rfl, h⟩
  | cons x l ih =>
    obtain ⟨p, n, w⟩ := x
    cases w
    · have k := narrowWrite_unmarked h c p (bs.take n)
      have r := ih k.2 (bs.drop n)
      exact ⟨by simp [writeCuts, k.1, r.1, b2n], r.2⟩
    · have k := wideWrite_unmarked h c b p (bs.take n)
      have r := ih k.2 (bs.drop n)
      exact ⟨by simp [writeCuts, k.1, r.1], r.2⟩

theorem spadWrite_unmarked {s : State} (h : unmarked s) (c : Nat) (b : BankUser) (p : Nat) (bs : List Byte) :
    (spadWrite s c b p bs false).2 = 0 ∧ unmarked (spadWrite s c b p bs false).1 := writeCuts_unmarked h c b bs _

theorem writeSpans_unmarked {s : State} (h : unmarked s) (c : Nat) (b : BankUser) (base : Nat) (bs : List Byte)
    (l : List (Nat × Nat)) :
    (writeSpans s c b base bs l).2 = 0 ∧ unmarked (writeSpans s c b base bs l).1 := by
  induction l generalizing s bs with
  | nil => exact ⟨rfl, h⟩
  | cons x l ih =>
    have w := spadWrite_unmarked h c b (base + x.1) (bs.take x.2)
    have r := ih w.2 (bs.drop x.2)
    exact ⟨by simp [writeSpans, w.1, r.1], r.2⟩

/-- Where no word is marked no write of an operation is refused. -/
theorem writeAll_unmarked {s : State} (h : unmarked s) (c : Nat) (b : BankUser) (sl : Nat) (ws : List (Opnd × Nat × List Byte)) :
    (writeAll s c b sl ws).2 = false ∧ unmarked (writeAll s c b sl ws).1 := by
  induction ws generalizing s with
  | nil => exact ⟨rfl, h⟩
  | cons x ws ih =>
    have w := writeSpans_unmarked h c (opndUser b x.1) (partBase s c sl) x.2.2 (takeSpans x.2.2.length (dropSpans x.2.1 x.1.spans))
    have r := ih w.2
    exact ⟨by simp [writeAll, w.1, r.1], r.2⟩

end Sys2Proof.Laws
end

