-- ==== Sys2Proof/Laws/Walker.lean ====
section
/-! SUPPORT. What the page walker does where nothing faults: an entry that the look-aside buffer holds, rows of a hot page. -/

namespace Sys2Proof.Laws

open Sys2Proof.Machine

/-- A page whose entry the look-aside buffer holds goes on with that entry, which becomes its most recently used. -/
theorem withPte_hit {s : State} {c seq layer pt page : Nat} {o : Op} {e : LbEnt} (g : State → Nat → State)
    (h : (getClu s c).lb.find? (lbIs o.sl seq layer page) = some e) :
    withPte s c o seq layer pt page g = g (modClu s c (fun k => { k with lb := lbPut k.lb e })) e.pte := by
  simp [withPte, h]

/-- A read of a hot page without marked words goes on with its bytes. -/
theorem pageRead_hot {s t : State} {c p off n : Nat} {o : Op} {bs : List Byte} {ps : List Bool} (g : State → List Byte → State)
    (ht : pteTier p = 1) (h : spadRead s c .att (partBase s c o.sl + pteAddr p + off) n = (t, bs, ps)) (hp : ps.any id = false) :
    pageRead s c o p off n g = g t bs := by
  simp [pageRead, ht, h, hp]

/-- The pieces of a hot page are read one after the other; a poisoned word of one ends the read. -/
theorem readPieces2_hot {s t : State} {c p off n : Nat} {o : Op} {bs : List Byte} {ps : List Bool} (l : List (Nat × Nat))
    (acc : List (List Byte)) (g : State → List (List Byte) → State) (ht : pteTier p = 1)
    (h : spadRead s c .att (partBase s c o.sl + pteAddr p + off) n = (t, bs, ps)) (hp : ps.any id = false) :
    readPieces2 false s c o p g ((off, n) :: l) acc = readPieces2 false t c o p g l (bs :: acc) := by
  simp only [readPieces2, Bool.false_eq_true, if_false]
  exact pageRead_hot _ ht h hp

end Sys2Proof.Laws
end

