-- ==== Sys2Proof/WellFormed.lean ====
section
/-! DEFINITION. Well-formed commands: the indices that a command names exist, and the bytes that it brings have the length
that the spec gives them. A word that the sequencer faults on is well formed: the fault is its meaning (R157). -/

namespace Sys2Proof

/-- Index checks (R3, R5, R137, R152, R159, R315, R380, R384, R435, R502). -/
def okClu (c : Nat) : Bool := decide (c < Config.clusters)
def okSlot (sl : Nat) : Bool := decide (sl < 4)
def okDie (d : Nat) : Bool := decide (d < Config.dies)
def okPort (n : Nat) : Bool := decide (n < Config.ports)
def okStack (k : Nat) : Bool := decide (k < Config.stacks)
def okFunc (f : Nat) : Bool := decide (f < Config.functions)
def okQueue (q : Nat) : Bool := decide (q < 2048)
def okSteward (k : Nat) : Bool := decide (k < 4)
def okTicket (t : Nat) : Bool := decide (t < 2 ^ 32)
def okTile (t : Nat) : Bool := decide (t < 32768)

/-- A physical address that a stack addresses (R437). -/
def okPhys (p : Nat) : Bool := decide (p / 2 ^ 37 < 16) && decide (p % 2 ^ 37 < 95999229952)

/-- A byte string of the length that the spec gives it: a flit of R320, a descriptor of R388, a codeword of R439. -/
def okBytes (n : Nat) (b : List Byte) : Bool := b.length == n

/-- An access of 1, 2, 4 or 8 bytes, naturally aligned (R587). -/
def okAccess (a size : Nat) : Bool := (size == 1 || size == 2 || size == 4 || size == 8) && a % size == 0

/-- The checks of a command. -/
def Instr.wf (i : Instr) : Bool :=
  match i with
  | .add c sl _ _ _ => okClu c && okSlot sl
  | .sub c sl _ _ _ => okClu c && okSlot sl
  | .and c sl _ _ _ => okClu c && okSlot sl
  | .or c sl _ _ _ => okClu c && okSlot sl
  | .xor c sl _ _ _ => okClu c && okSlot sl
  | .sll c sl _ _ _ => okClu c && okSlot sl
  | .srl c sl _ _ _ => okClu c && okSlot sl
  | .sra c sl _ _ _ => okClu c && okSlot sl
  | .slt c sl _ _ _ => okClu c && okSlot sl
  | .sltu c sl _ _ _ => okClu c && okSlot sl
  | .mul c sl _ _ _ => okClu c && okSlot sl
  | .min c sl _ _ _ => okClu c && okSlot sl
  | .max c sl _ _ _ => okClu c && okSlot sl
  | .minu c sl _ _ _ => okClu c && okSlot sl
  | .maxu c sl _ _ _ => okClu c && okSlot sl
  | .addi c sl _ _ _ => okClu c && okSlot sl
  | .andi c sl _ _ _ => okClu c && okSlot sl
  | .ori c sl _ _ _ => okClu c && okSlot sl
  | .xori c sl _ _ _ => okClu c && okSlot sl
  | .slli c sl _ _ _ => okClu c && okSlot sl
  | .srli c sl _ _ _ => okClu c && okSlot sl
  | .srai c sl _ _ _ => okClu c && okSlot sl
  | .slti c sl _ _ _ => okClu c && okSlot sl
  | .ldi c sl _ _ _ _ => okClu c && okSlot sl
  | .beq c sl _ _ _ => okClu c && okSlot sl
  | .bne c sl _ _ _ => okClu c && okSlot sl
  | .blt c sl _ _ _ => okClu c && okSlot sl
  | .bge c sl _ _ _ => okClu c && okSlot sl
  | .bltu c sl _ _ _ => okClu c && okSlot sl
  | .bgeu c sl _ _ _ => okClu c && okSlot sl
  | .jal c sl _ _ => okClu c && okSlot sl
  | .jalr c sl _ _ _ => okClu c && okSlot sl
  | .halt c sl _ => okClu c && okSlot sl
  | .programEnd c sl => okClu c && okSlot sl
  | .ld c sl _ _ _ => okClu c && okSlot sl
  | .lw c sl _ _ _ => okClu c && okSlot sl
  | .lh c sl _ _ _ => okClu c && okSlot sl
  | .lb c sl _ _ _ => okClu c && okSlot sl
  | .sd c sl _ _ _ => okClu c && okSlot sl
  | .sw c sl _ _ _ => okClu c && okSlot sl
  | .sh c sl _ _ _ => okClu c && okSlot sl
  | .sb c sl _ _ _ => okClu c && okSlot sl
  | .tdz c sl _ _ => okClu c && okSlot sl
  | .tdw c sl _ _ _ _ _ _ => okClu c && okSlot sl
  | .tdi c sl _ _ _ _ => okClu c && okSlot sl
  | .tiss c sl _ _ _ _ => okClu c && okSlot sl
  | .dmag c sl _ _ _ _ _ _ => okClu c && okSlot sl
  | .dmap c sl _ _ _ _ _ _ => okClu c && okSlot sl
  | .waitc c sl _ _ _ => okClu c && okSlot sl
  | .waitop c sl _ _ _ => okClu c && okSlot sl
  | .fence c sl _ => okClu c && okSlot sl
  | .waitcResume c sl => okClu c && okSlot sl
  | .waitopResume c sl => okClu c && okSlot sl
  | .fenceResume c sl => okClu c && okSlot sl
  | .interlockResume c sl => okClu c && okSlot sl
  | .issueResume c sl => okClu c && okSlot sl
  | .ldstResume c sl => okClu c && okSlot sl
  | .srd c sl _ _ _ _ => okClu c && okSlot sl
  | .acrd c sl _ _ _ _ => okClu c && okSlot sl
  | .acset c sl _ _ _ _ => okClu c && okSlot sl
  | .tmark c sl _ _ _ _ => okClu c && okSlot sl
  | .yield c sl _ _ _ _ => okClu c && okSlot sl
  | .faultRecordWrite f => okFunc f
  | .tla c sl t => okClu c && okSlot sl && okTicket t
  | .xnp c sl t => okClu c && okSlot sl && okTicket t
  | .gate c sl t => okClu c && okSlot sl && okTicket t
  | .passAbandon c sl t => okClu c && okSlot sl && okTicket t
  | .tileReplay c sl t => okClu c && okSlot sl && okTicket t
  | .passComplete c sl t => okClu c && okSlot sl && okTicket t
  | .qnt c sl t => okClu c && okSlot sl && okTicket t
  | .act c sl t => okClu c && okSlot sl && okTicket t
  | .nrm c sl t => okClu c && okSlot sl && okTicket t
  | .att c sl t => okClu c && okSlot sl && okTicket t
  | .attSuspend c sl t => okClu c && okSlot sl && okTicket t
  | .attResume c sl t => okClu c && okSlot sl && okTicket t
  | .kva c sl t => okClu c && okSlot sl && okTicket t
  | .commit c sl t => okClu c && okSlot sl && okTicket t
  | .mov c sl t => okClu c && okSlot sl && okTicket t
  | .red c sl t => okClu c && okSlot sl && okTicket t
  | .mrg c sl t => okClu c && okSlot sl && okTicket t
  | .cmpCompress c sl t => okClu c && okSlot sl && okTicket t
  | .cmpExpand c sl t => okClu c && okSlot sl && okTicket t
  | .sync c sl t => okClu c && okSlot sl && okTicket t
  | .operationComplete c sl e => okClu c && okSlot sl && okTicket e.ticket
  | .weightReloadDone c tile => okClu c && okTile tile.tile
  | .weightReloadFail c tile => okClu c && okTile tile
  | .gatherWriteback c _ => okClu c
  | .partitionFence c sl => okClu c && okSlot sl
  | .scrubDone c => okClu c
  | .transferArrival _ _ _ => true
  | .switchNoreach _ => true
  | .codewordRead p => okPhys p
  | .codewordWrite p data _ => okPhys p && okBytes 64 data
  | .partialWrite p _ _ => okPhys p
  | .atomicApply k => okStack k.stack
  | .patrolRead p => okPhys p
  | .stackTempRead k _ => okStack k
  | .stackRetrain k => okStack k
  | .stackRetrainDone k _ _ => okStack k
  | .stackFail k => okStack k
  | .releaseScrubDone => true
  | .kvInval f c _ => okFunc f && okClu c
  | .lookup => true
  | .insert => true
  | .release => true
  | .evict => true
  | .accordLinesFree c _ => okClu c
  | .rsvCountWrite _ => true
  | .shareWrite c _ => okClu c
  | .grantWrite _ _ => true
  | .grantApply => true
  | .clusterLost c => okClu c
  | .portSignalDetect n _ => okPort n
  | .trainingTimeout n => okPort n
  | .trainingDone n _ => okPort n
  | .trainingRetry n => okPort n
  | .laneLockLoss n => okPort n
  | .fecErrorLimit n => okPort n
  | .signalLoss n => okPort n
  | .portRetrain n => okPort n
  | .portDisable n => okPort n
  | .portEnable n => okPort n
  | .flitReceive n flit => okPort n && okBytes 256 flit
  | .nakReceive n _ => okPort n
  | .replayTimeout n => okPort n
  | .ackTimer n => okPort n
  | .creditReturnTimer n => okPort n
  | .discSend n => okPort n
  | .discReceive n flit => okPort n && okBytes 256 flit
  | .nodeAssign _ => true
  | .nodeUnassign => true
  | .messageSend _ => true
  | .reassemblyStart n => okPort n
  | .messageDeliver _ _ => true
  | .reassemblyTimeout _ _ => true
  | .eackReceive _ _ _ _ => true
  | .messageResend _ _ => true
  | .messageLost _ _ => true
  | .tsyncRequest n => okPort n
  | .tsyncAnswer n => okPort n
  | .tsyncResponse n _ _ _ _ _ => okPort n
  | .loadLayout => true
  | .loadValidate => true
  | .loadCommit => true
  | .loadWaitEnd => true
  | .loadUnwind => true
  | .unloadLayout => true
  | .unload => true
  | .tailDoorbell f q _ => okFunc f && okQueue q
  | .inlineDescriptor f q desc => okFunc f && okQueue q && okBytes 64 desc
  | .dispatchTake => true
  | .classBPromotion f q => okFunc f && okQueue q
  | .ringFetch f q _ => okFunc f && okQueue q
  | .queueEnable f q => okFunc f && okQueue q
  | .queueDisable f q => okFunc f && okQueue q
  | .queueStopped f q => okFunc f && okQueue q
  | .nop => true
  | .run => true
  | .runHeldStart => true
  | .pfxLookup => true
  | .seqClose => true
  | .pfxInsert => true
  | .pfxRelease => true
  | .pfxEvict => true
  | .memcpyHostToDevice => true
  | .memcpyDeviceToHost => true
  | .memcpyDeviceToDevice => true
  | .memcpyRemote => true
  | .mailboxWrite => true
  | .cqEnable f r => okFunc f && okQueue r
  | .cqDisable f r => okFunc f && okQueue r
  | .cqHeadWrite f r _ => okFunc f && okQueue r
  | .irqModerationEnd f r => okFunc f && okQueue r
  | .apertureRead f _ _ => okFunc f
  | .apertureWrite f _ _ _ => okFunc f
  | .winAssign => true
  | .winRelease => true
  | .qassignWrite f _ => okFunc f
  | .bmeClear f => okFunc f
  | .bmeSet f => okFunc f
  | .heartbeatKick f => okFunc f
  | .heartbeatExpire f => okFunc f
  | .hbexpClear f => okFunc f
  | .flr f => okFunc f
  | .pfFlr => true
  | .flrDone f => okFunc f
  | .hotReset => true
  | .perstDeassert => true
  | .configRequest f _ _ _ => okFunc f
  | .pipeConfigWrite f r _ _ => okFunc f && okQueue r
  | .splitWindowEnd c => okClu c
  | .contextSwitch c => okClu c
  | .switchDone c sl => okClu c && okSlot sl
  | .stormWindowEnd c => okClu c
  | .ftcPeriodEnd => true
  | .syncPulse => true
  | .ftcStep => true
  | .ftcSyncTimeout => true
  | .traceEnable f c sl _ => okFunc f && okClu c && okSlot sl
  | .traceRingWrite c => okClu c
  | .traceStamp c sl => okClu c && okSlot sl
  | .eclArm => true
  | .eclCancel => true
  | .eclResume => true
  | .eclipseStop => true
  | .eclipseStopped => true
  | .eclipseRestart => true
  | .ephEnable f _ => okFunc f
  | .idlePowerOff c => okClu c
  | .clusterPowerUp c => okClu c
  | .supplySample _ _ _ => true
  | .brownoutRelease => true
  | .brownoutTimeout => true
  | .orderlyShutdown => true
  | .sensorRead _ _ _ => true
  | .clockRestart c => okClu c
  | .fastLimiterSample _ _ _ => true
  | .budgetDivide _ _ => true
  | .stewardLoop k _ _ _ => okSteward k
  | .watchdogFire k => okSteward k
  | .stewardRestartDone k _ => okSteward k
  | .floorGovernorTick k _ => okSteward k
  | .emRead f _ _ => okFunc f
  | .emWrite f _ _ _ => okFunc f
  | .emWriteApply k => okSteward k
  | .fwWrite f _ _ => okFunc f
  | .fwVerify f => okFunc f
  | .svnCommit f => okFunc f
  | .keylockSet f => okFunc f
  | .keySlotWrite f _ _ => okFunc f
  | .getVersion f _ => okFunc f
  | .getCapabilities f _ => okFunc f
  | .negotiateAlgorithms f _ => okFunc f
  | .getDigests f _ => okFunc f
  | .getCertificate f _ => okFunc f
  | .challenge f _ => okFunc f
  | .getMeasurements f _ => okFunc f
  | .coreHeartbeatSample c _ => okClu c
  | .coreLost c _ _ _ => okClu c
  | .dieFence d => okDie d
  | .dieFenceCmd _ => true
  | .rgnAbort f _ => okFunc f
  | .bringUp _ _ _ _ _ => true
  | .bringUpStop => true
  | .pwrEnDeassert => true
  | .referenceLoss => true
  | .holdoverExit => true
  | .coolantSensorRead _ _ => true
  | .entdaa _ => true
  | .rstdaa => true
  | .setnewda _ => true
  | .getpid => true
  | .getbcr => true
  | .getdcr => true
  | .getstatus => true
  | .enec _ => true
  | .disec _ => true
  | .hotJoin => true
  | .pldmRequest _ => true
  | .seedWrite f c sl _ => okFunc f && okClu c && okSlot sl
  | .seedApply c sl => okClu c && okSlot sl
  | .precCtlWrite f c _ => okFunc f && okClu c
  | .saveAreaWrite _ => true
  | .prioWrite _ => true
  | .rcRead f addr size => okFunc f && okAccess addr size
  | .registerWrite f addr size _ => okFunc f && okAccess addr size
  | .fwVerifyDone _ _ _ => true
  | .heartbeatDisable f => okFunc f
  | .memcpyComplete _ _ => true

end Sys2Proof
end

