-- ==== Sys2Proof/Tests/Slice0.lean ====
section
/-! SUPPORT. The model's own tests: words of the sequencer written out from R154 to R156, ill-formed commands, and for the
statements one state each in which their hypotheses hold together, with what the command leaves there. Expected values are
worked out by hand from the rules. -/

set_option Elab.async false

namespace Sys2Proof.Tests

open Sys2Proof.Machine

/-! ### Helpers -/

/-- The next state of a command; the state itself where there is none. -/
def after (i : Instr) (s : State) : State :=
  match exec i s with
  | .next t => t
  | .fault _ => s
  | .refused _ => s

/-- The command answers a next state, and `p` of it is true. -/
def doesIt (i : Instr) (s : State) (p : State → Bool) : Bool :=
  match exec i s with
  | .next t => p t
  | .fault _ => false
  | .refused _ => false

/-- The command changes nothing. -/
def idle (i : Instr) (s : State) : Bool := doesIt i s (fun t => t == s)

/-- The state with a running context in slot 1 of cluster 5: registers, a program of 20 words, panel 2 as its partition. -/
def slotWith (regs : Tab Word) : Slot :=
  { slotReset with st := .running, regs := regs, plen := 20, pc := 10, pvalid := true, pbase := 2, pcount := 1 }

/-- Such a slot in the state after reset. -/
def ran (regs : Tab Word) : State := putSlot State.reset 5 1 (slotWith regs)

/-- Register, PC and state of that slot. -/
def rg (t : State) (r : BitVec 5) : Word := sreg t 5 1 r
def pcIs (t : State) (n : Nat) : Bool := (getSlot t 5 1).pc.toNat == n
def stIs (t : State) (x : SlotSt) : Bool := (getSlot t 5 1).st == x

/-- `onlyClu` as a test. -/
def onlyCluB (c : Nat) (s t : State) : Bool :=
  t == { s with cl.clus := t.cl.clus } && tabDel t.cl.clus c == tabDel s.cl.clus c
theorem onlyClu_of {c : Nat} {s t : State} (h : onlyCluB c s t = true) : onlyClu c s t := by
  simp only [onlyCluB, Bool.and_eq_true, beq_iff_eq] at h
  refine ⟨h.1, fun k hk => ?_⟩
  have e := congrArg (fun x => tabGet cluReset x k) h.2
  simpa [tabGet_del_other _ _ _ _ hk, getClu] using e

/-- The state behind the reads of operands, and `clean` as a test. -/
def behind (c : Nat) (u : BankUser) (sl : Nat) : List (Opnd × Nat × List Byte) → State → State
  | [], s => s
  | (r, n, _) :: l, s => behind c u sl l (readOpnd s c u sl r n).1
def cleanB (c : Nat) (u : BankUser) (sl : Nat) : List (Opnd × Nat × List Byte) → State → Bool
  | [], _ => true
  | (r, n, bs) :: l, s =>
    let x := readOpnd s c u sl r n
    x.2 == (bs, false) && onlyCluB c s x.1 && cleanB c u sl l x.1
theorem clean_of {c : Nat} {u : BankUser} {sl : Nat} {l : List (Opnd × Nat × List Byte)} {s : State}
    (h : cleanB c u sl l s = true) : clean c u sl l s (behind c u sl l s) := by
  induction l generalizing s with
  | nil => rfl
  | cons x l ih =>
    obtain ⟨r, n, bs⟩ := x
    simp only [cleanB, Bool.and_eq_true, beq_iff_eq] at h
    exact ⟨_, Prod.ext rfl h.1.1, onlyClu_of h.1.2, ih h.2⟩

/-- `onlyStored` and `onlyOps` as tests. -/
def storedB (c : Nat) (s w t : State) : Bool :=
  t == { s with cl := { s.cl with clus := t.cl.clus, spad := w.cl.spad, spadPoi := w.cl.spadPoi, spadErr := w.cl.spadErr }
                ctrs := t.ctrs, nowTick := t.nowTick, nowCtr := t.nowCtr, nowSet := t.nowSet, fresh := t.fresh } &&
    (getClu t c).gather == (getClu w c).gather && tabDel t.cl.clus c == tabDel s.cl.clus c
def opsB (c : Nat) (s t : State) : Bool :=
  t == { s with cl.clus := t.cl.clus, ctrs := t.ctrs, nowTick := t.nowTick, nowCtr := t.nowCtr, nowSet := t.nowSet
                fresh := t.fresh } && tabDel t.cl.clus c == tabDel s.cl.clus c

/-- Bytes of the partition of slot 1 of cluster 5 as the slot's accesses see them. -/
def seen (t : State) (a n : Nat) : List Byte := (List.range n).map (fun i => seenByte t 5 (2 ^ 22 + a + i))

/-- `puts` from a test. -/
theorem puts_of {s : State} {c : Nat} {u : BankUser} {sl : Nat} {ws : List (Opnd × Nat × List Byte)}
    (h : (writeAll s c u sl ws).2 = false) : puts s c u sl ws (writeAll s c u sl ws).1 := Prod.ext rfl h

/-- An operation of slot 1 of cluster 5 reads the operands `rs` and writes `ws`: the hypotheses of its statement, and what the
statement says of command `i`. -/
def ioB (s : State) (u : BankUser) (rs ws : List (Opnd × Nat × List Byte)) : Bool :=
  cleanB 5 u 1 rs s && !(writeAll (behind 5 u 1 rs s) 5 u 1 ws).2
theorem io_of {s : State} {u : BankUser} {rs ws : List (Opnd × Nat × List Byte)} (h : ioB s u rs ws = true) :
    ∃ s1 w, clean 5 u 1 rs s s1 ∧ puts s1 5 u 1 ws w := by
  simp only [ioB, Bool.and_eq_true, Bool.not_eq_true'] at h
  exact ⟨_, _, clean_of h.1, puts_of h.2⟩
def leaves (i : Instr) (s : State) (u : BankUser) (rs ws : List (Opnd × Nat × List Byte)) (p : State → Bool) : Bool :=
  ioB s u rs ws && doesIt i s (fun t => storedB 5 s (writeAll (behind 5 u 1 rs s) 5 u 1 ws).1 t && p t)

/-- The state behind a tenant read, and `sees` as a test. -/
def asked (k : Cls) (f a n : Nat) (s : State) : State := match tenRead s k f a n with | some x => x.1 | none => s
def seesB (k : Cls) (f a n : Nat) (bs : List Byte) (s : State) : Bool :=
  tenRead s k f a n == some (asked k f a n s, bs, false) && asked k f a n s == { s with mq := (asked k f a n s).mq }
theorem sees_of {k : Cls} {f a n : Nat} {bs : List Byte} {s : State} (h : seesB k f a n bs s = true) :
    sees k f a n bs s (asked k f a n s) := by
  simp only [seesB, Bool.and_eq_true, beq_iff_eq] at h
  exact h

/-- `onlyRead` and `onlyKv` as tests. -/
def readB (c : Nat) (s t : State) : Bool :=
  t == { s with cl.clus := t.cl.clus, mq := t.mq, ctrs := t.ctrs, nowTick := t.nowTick, nowCtr := t.nowCtr, nowSet := t.nowSet
                fresh := t.fresh } && tabDel t.cl.clus c == tabDel s.cl.clus c
def kvB (c sl : Nat) (s w m t : State) : Bool :=
  t == { s with cl := { s.cl with clus := t.cl.clus, slots := t.cl.slots, spad := w.cl.spad, spadPoi := w.cl.spadPoi
                                  spadErr := w.cl.spadErr }
                mem := m.mem, mq := m.mq, hub := { s.hub with mbx := m.hub.mbx }, ctrs := t.ctrs, nowTick := t.nowTick
                nowCtr := t.nowCtr, nowSet := t.nowSet, fresh := t.fresh } &&
    (getClu t c).gather == (getClu w c).gather && tabDel t.cl.clus c == tabDel s.cl.clus c &&
    tabDel t.cl.slots (4 * c + sl) == tabDel s.cl.slots (4 * c + sl) &&
    getSlot t c sl == { getSlot s c sl with kvHdr := (getSlot t c sl).kvHdr }
set_option maxRecDepth 100000
/-! ### Words of the sequencer (R154 to R156) -/

theorem test_word_alu : decodeSeq 5 1 0x00430800#32 = some (.add 5 1 2 3 1) ∧
    decodeSeq 5 1 0x0043080E#32 = some (.maxu 5 1 2 3 1) ∧ decodeSeq 5 1 0x0043080F#32 = none := by decide
theorem test_word_imm : decodeSeq 5 1 0x0443FFFF#32 = some (.addi 5 1 2 3 0xFFFF) ∧
    decodeSeq 5 1 0x2443_0004#32 = some (.ldi 5 1 2 0 3 4) := by decide
theorem test_word_branch : decodeSeq 5 1 0x4043FFFE#32 = some (.beq 5 1 2 3 0xFFFE) ∧
    decodeSeq 5 1 0x585F_FFFF#32 = some (.jal 5 1 2 0x1FFFFF) := by decide
theorem test_word_mem : decodeSeq 5 1 0x8043_0010#32 = some (.ld 5 1 2 3 0x10) ∧
    decodeSeq 5 1 0x9C43_0010#32 = some (.sb 5 1 2 3 0x10) := by decide
theorem test_word_td : decodeSeq 5 1 0xC83A0010#32 = some (.tdi 5 1 0 0 58 16) ∧
    decodeSeq 5 1 0xCC070000#32 = some (.tiss 5 1 0 0 7 0) := by decide
theorem test_word_dma : decodeSeq 5 1 0xE0221922#32 = some (.dmag 5 1 1 2 3 4 1 2) ∧
    decodeSeq 5 1 0xF0850000#32 = some (.waitc 5 1 4 5 0) := by decide
theorem test_word_sys : decodeSeq 5 1 0xFC401000#32 = some (.srd 5 1 2 0 2 0) ∧ decodeSeq 5 1 0xFC000005#32 = none := by decide
theorem test_word_reserved : decodeSeq 5 1 0x28000000#32 = none ∧ decodeSeq 5 1 0x6400_0000#32 = none := by decide
theorem test_encode : encodeSeq (.jal 5 1 2 0x1FFFFF) = some 0x585FFFFF#32 ∧ encodeSeq (.tdw 5 1 3 2 0 7 0 12) = some 0xC787000C#32 := by
  decide
theorem test_table_word : decodeTableWord 32 0 = none ∧ State.reset.withFetchWord 32 0 = State.reset := by decide

/-! ### Ill-formed commands -/

theorem test_wf_cluster : Instr.wf (.add 1535 3 1 2 3) = true ∧ Instr.wf (.add 1536 3 1 2 3) = false := by decide
theorem test_wf_slot : Instr.wf (.add 1535 4 1 2 3) = false := by decide
theorem test_wf_die : Instr.wf (.dieFence 23) = true ∧ Instr.wf (.dieFence 24) = false := by decide
theorem test_wf_port : Instr.wf (.ackTimer 7) = true ∧ Instr.wf (.ackTimer 8) = false := by decide
theorem test_wf_stack : Instr.wf (.stackFail 15) = true ∧ Instr.wf (.stackFail 16) = false := by decide
theorem test_wf_func : Instr.wf (.flr 1023) = true ∧ Instr.wf (.flr 1024) = false := by decide
theorem test_wf_queue : Instr.wf (.queueEnable 0 2047) = true ∧ Instr.wf (.queueEnable 0 2048) = false := by decide
theorem test_wf_steward : Instr.wf (.watchdogFire 3) = true ∧ Instr.wf (.watchdogFire 4) = false := by decide
theorem test_wf_ticket : Instr.wf (.tla 0 0 (2 ^ 32 - 1)) = true ∧ Instr.wf (.tla 0 0 (2 ^ 32)) = false := by decide
theorem test_wf_tile : Instr.wf (.weightReloadDone 0 ⟨32767, 0, []⟩) = true ∧ Instr.wf (.weightReloadDone 0 ⟨32768, 0, []⟩) = false := by decide
theorem test_wf_phys : Instr.wf (.codewordRead (2 ^ 37 + 95999229888)) = true ∧ Instr.wf (.codewordRead 95999229952) = false := by decide
theorem test_wf_bytes : Instr.wf (.inlineDescriptor 0 0 (List.replicate 64 0)) = true ∧
    Instr.wf (.inlineDescriptor 0 0 (List.replicate 63 0)) = false := by decide
theorem test_wf_access : Instr.wf (.rcRead 0 8 8) = true ∧ Instr.wf (.rcRead 0 4 8) = false ∧ Instr.wf (.rcRead 0 3 3) = false := by decide

/-! ### The sequencer -/

def s37 : State := ran [(1, 0xFFFF_FFFF_FFFF_FFFD), (2, 7), (3, 5)]

theorem wit_ready : ready s37 5 1 [1, 2] := by unfold ready slotLive; decide +kernel
theorem test_add : doesIt (.add 5 1 3 1 2) s37 (fun t => rg t 3 == 4 && pcIs t 11 && rg t 2 == 7) = true := by decide +kernel
theorem test_add_s0 : doesIt (.add 5 1 0 1 2) s37 (fun t => rg t 0 == 0 && pcIs t 11 && rg t 3 == 5) = true := by decide +kernel
theorem test_sub : doesIt (.sub 5 1 1 1 2) s37 (fun t => rg t 1 == 0xFFFF_FFFF_FFFF_FFF6) = true := by decide +kernel
theorem test_and_or_xor : doesIt (.and 5 1 3 1 2) s37 (fun t => rg t 3 == 5) && doesIt (.or 5 1 3 1 2) s37 (fun t =>
    rg t 3 == 0xFFFF_FFFF_FFFF_FFFF) && doesIt (.xor 5 1 3 1 2) s37 (fun t => rg t 3 == 0xFFFF_FFFF_FFFF_FFFA) = true := by
  decide +kernel
theorem test_shifts : doesIt (.sll 5 1 3 2 1) s37 (fun t => rg t 3 == 0xE000_0000_0000_0000) &&
    doesIt (.srl 5 1 3 1 1) s37 (fun t => rg t 3 == 7) && doesIt (.sra 5 1 3 1 2) s37 (fun t =>
      rg t 3 == 0xFFFF_FFFF_FFFF_FFFF) = true := by decide +kernel
theorem test_slt_sltu : doesIt (.slt 5 1 3 1 2) s37 (fun t => rg t 3 == 1) && doesIt (.sltu 5 1 3 1 2) s37 (fun t =>
    rg t 3 == 0) = true := by decide +kernel
theorem test_mul : doesIt (.mul 5 1 3 1 2) s37 (fun t => rg t 3 == 0xFFFF_FFFF_FFFF_FFEB &&
    tabGet 0 (getSlot t 5 1).busy 3 == 3) = true := by decide +kernel
theorem test_min_max : doesIt (.min 5 1 3 1 2) s37 (fun t => rg t 3 == 0xFFFF_FFFF_FFFF_FFFD) && doesIt (.max 5 1 3 1 2) s37
    (fun t => rg t 3 == 7) && doesIt (.minu 5 1 3 1 2) s37 (fun t => rg t 3 == 7) && doesIt (.maxu 5 1 3 1 2) s37
    (fun t => rg t 3 == 0xFFFF_FFFF_FFFF_FFFD) = true := by decide +kernel
theorem test_immediates : doesIt (.addi 5 1 3 2 0xFFFF) s37 (fun t => rg t 3 == 6) && doesIt (.andi 5 1 3 1 0xFFFF) s37
    (fun t => rg t 3 == 0xFFFD) && doesIt (.ori 5 1 3 2 0x8000) s37 (fun t => rg t 3 == 0x8007) &&
    doesIt (.xori 5 1 3 1 0xFFFF) s37 (fun t => rg t 3 == 0xFFFF_FFFF_FFFF_0002) && doesIt (.slti 5 1 3 1 0xFFFE) s37
    (fun t => rg t 3 == 1) = true := by decide +kernel
theorem test_imm_shifts : doesIt (.slli 5 1 3 2 63) s37 (fun t => rg t 3 == 0x8000_0000_0000_0000) &&
    doesIt (.srli 5 1 3 1 63) s37 (fun t => rg t 3 == 1) && doesIt (.srai 5 1 3 1 63) s37
    (fun t => rg t 3 == 0xFFFF_FFFF_FFFF_FFFF) = true := by decide +kernel
theorem test_ldi : doesIt (.ldi 5 1 1 0 3 0x1234) s37 (fun t => rg t 1 == 0x1234_FFFF_FFFF_FFFD) && doesIt (.ldi 5 1 1 0 0 0)
    s37 (fun t => rg t 1 == 0xFFFF_FFFF_FFFF_0000) = true := by decide +kernel
theorem wit_branch : branchStalls s37 5 1 = false ∧ trcStalls s37 5 1 1 = false := by decide +kernel
theorem test_branches : doesIt (.beq 5 1 1 1 0xFFFE) s37 (pcIs · 8) && doesIt (.bne 5 1 1 1 5) s37 (pcIs · 11) &&
    doesIt (.blt 5 1 1 2 5) s37 (pcIs · 15) && doesIt (.bge 5 1 1 2 5) s37 (pcIs · 11) && doesIt (.bltu 5 1 1 2 5) s37 (pcIs · 11)
    && doesIt (.bgeu 5 1 1 2 5) s37 (pcIs · 15) = true := by decide +kernel
theorem test_jal : doesIt (.jal 5 1 3 0x1FFFF6) s37 (fun t => rg t 3 == 11 && pcIs t 0) = true := by decide +kernel
theorem test_jalr : doesIt (.jalr 5 1 2 2 0xFFFF) s37 (fun t => rg t 2 == 11 && pcIs t 6) = true := by decide +kernel

/-- Eight bytes at context address 16 of the partition, the word not in the gather buffer. -/
def sMem : State :=
  let s := ran [(1, 16), (2, 0x1122_3344_5566_7788)]
  { s with cl.spad := memPut s.cl.spad (spadKey 5 (2 ^ 22 + 16)) (leBytes 8 0xF1E2_D3C4_B5A6_9788) }

theorem wit_load : accessGoes sMem 5 1 16 8 false ∧ accessGoes sMem 5 1 (2 ^ 21 - 8) 8 false := by
  unfold accessGoes; decide +kernel
theorem test_ld_lw : doesIt (.ld 5 1 3 1 0) sMem (fun t => rg t 3 == 0xF1E2_D3C4_B5A6_9788 && t.cl.spad == sMem.cl.spad) &&
    doesIt (.lw 5 1 3 1 4) sMem (fun t => rg t 3 == 0xF1E2_D3C4) = true := by decide +kernel
theorem test_lh_lb : doesIt (.lh 5 1 3 1 2) sMem (fun t => rg t 3 == 0xB5A6) && doesIt (.lb 5 1 3 1 7) sMem
    (fun t => rg t 3 == 0xF1 && tabGet 0 (getSlot t 5 1).busy 3 == 8) = true := by decide +kernel
theorem wit_store : accessGoes sMem 5 1 16 8 true := by unfold accessGoes; decide +kernel
theorem test_sd_sw : doesIt (.sd 5 1 2 1 0) sMem (fun t => seenNat t 5 (2 ^ 22 + 16) 8 == 0x1122_3344_5566_7788 &&
    t.cl.spad == sMem.cl.spad) && doesIt (.sw 5 1 2 1 4) sMem (fun t =>
    seenNat t 5 (2 ^ 22 + 16) 8 == 0x5566_7788_B5A6_9788) = true := by decide +kernel
theorem test_sh_sb : doesIt (.sh 5 1 2 1 2) sMem (fun t => seenNat t 5 (2 ^ 22 + 16) 8 == 0xF1E2_D3C4_7788_9788) &&
    doesIt (.sb 5 1 2 1 7) sMem (fun t => seenNat t 5 (2 ^ 22 + 16) 8 == 0x88E2_D3C4_B5A6_9788) = true := by decide +kernel

def sTd : State := modSlot sMem 5 1 (fun k => { k with td := (List.range 256).map (fun i => (i, 0xAA#8)) })
def tdB (t : State) (j : Nat) : Byte := tabGet 0 (getSlot t 5 1).td j

theorem test_tdz : doesIt (.tdz 5 1 3 0) sTd (fun t => tdB t 191 == 0xAA && tdB t 192 == 0 && tdB t 255 == 0) = true := by
  decide +kernel
theorem test_tdw_tdi : doesIt (.tdw 5 1 1 3 0 2 0 56) sTd (fun t => tdB t 119 == 0xAA && tdB t 120 == 0x88 && tdB t 127 == 0x11 &&
    tdB t 128 == 0xAA) && doesIt (.tdi 5 1 0 0 62 0x1234) sTd (fun t => tdB t 61 == 0xAA && tdB t 62 == 0x34 && tdB t 63 == 0x12 &&
    tdB t 64 == 0xAA) = true := by decide +kernel

/-- A descriptor: 64 zero bytes with values put in, each by offset, length and value. -/
def mkD (fs : List (Nat × Nat × Nat)) : List Byte :=
  fs.foldl (fun d f => d.take f.1 ++ leBytes f.2.1 f.2.2 ++ d.drop (f.1 + f.2.1)) (List.replicate 64 0)

/-- An operand reference at byte `o`: ROW, address, format, SAT, length (R162). -/
def ref (o addr fmt sat len : Nat) : List (Nat × Nat × Nat) := [(o, 4, addr + 2 ^ 27 * sat + 2 ^ 28 * fmt), (o + 4, 4, len)]

/-- Context 0, of pool region 3 of function 0, in slot 1 of cluster 5. -/
def ctx0 : Ctx :=
  { id := 0, f := 0, load := 1, clu := 5, src := 5, slot := 1, region := 3, pipe := false, panels := 1, prog := 0, entry := 0
    rtaddr := 0, seed := 0, kvdir := 0, resident := true, want := false, saved := none, saveAt := 0, switching := false
    entering := false, tiles := [] }

/-- Its region, of cluster 5 alone. -/
def rgn3 : Region :=
  { pipe := false, shared := false, degraded := false, f := 0, x0 := 0, y0 := 0, w := 0, h := 0, members := [5], grant := 255
    loadftc := 0, load := 1, replaceHold := false, closing := false, runs := 0, step := 0 }

/-- The running slot with its context and its region, and with a window of 16 MiB of its function at tenant address 0. -/
def ranCtx (regs : Tab Word) : State :=
  let s := putSlot State.reset 5 1 { slotWith regs with ctx := some 0 }
  let s := { s with hub := { s.hub with ctxs := [ctx0], regions := [(3, rgn3)] } }
  modFunc s 0 (fun k => { k with wins := [(0, ⟨8, 0, 4⟩)] })

/-- A SYNC that sends nothing. -/
def dSync : List Byte := mkD [(0, 1, 14), (32, 2, 0xFFFF), (36, 2, 0xFFFF)]

def sIss : State :=
  modSlot (ranCtx [(1, 32), (2, 64), (3, 96)]) 5 1 (fun k => { k with td := bytesSet [] 64 dSync, ticket := 6 })

theorem wit_tiss : ready sIss 5 1 [31] ∧ tdBytes (getSlot sIss 5 1) 1 = dSync ∧ checkTile sIss 5 1 dSync = none ∧
    mustWait sIss 5 (tileReq sIss 5 1 dSync) = false ∧ noRoom sIss 5 (tileReq sIss 5 1 dSync).ranges.length = false ∧
    trcStalls sIss 5 1 1 = false := by unfold ready slotLive; decide +kernel
theorem test_tiss : doesIt (.tiss 5 1 1 0 7 0) sIss (fun t => rg t 7 == 7 && pcIs t 11 &&
    (getClu t 5).ops.map (fun o => (o.sl, o.ticket, o.phase)) == [(1, 7, .issued)] && ctr t (cluAddr 5 oSeqIssue) == 1) = true := by
  decide +kernel
theorem wit_dma : ready sIss 5 1 [1, 2, 3] ∧ checkDma sIss 5 1 32 64 96 = none ∧
    mustWait sIss 5 (dmaReq sIss 5 1 true 32 64 96 (some 31)) = false ∧ mustWait sIss 5 (dmaReq sIss 5 1 false 32 64 96 none) = false := by
  unfold ready slotLive; decide +kernel
theorem wit_issue_completes : canIssue sIss 5 1 [31] = true ∧ fieldsOk sIss 5 1 dSync = true ∧ badStride dSync = false ∧
    spadBeyond sIss 5 1 dSync = none ∧ anyPair rngConflict (opRanges sIss 5 1 dSync) = false ∧
    aliases sIss 5 (opRng sIss 5 1 dSync) = false ∧ (∀ r ∈ opRanges sIss 5 1 dSync, rngWaits sIss 5 r = false) ∧
    tenOk sIss (slotFn sIss 5 1) 64 96 = true ∧ canIssue sIss 5 1 [1, 2, 3] = true ∧
    rngWaits sIss 5 (toWords (partBase sIss 5 1 + 32) 96 true) = false ∧
    rngWaits sIss 5 (toWords (partBase sIss 5 1 + 32) 96 false) = false ∧
    (pendingRanges sIss 5).length + (opRanges sIss 5 1 dSync).length ≤ 256 := by decide +kernel
theorem wit_issue_fails : ready sIss 5 1 [31] ∧ slotCtx sIss 5 1 = some ctx0 ∧ runItems sIss 3 = [] ∧
    checkTile sIss 5 1 (tdBytes (getSlot sIss 5 1) 0) = some (0x0101, 0) ∧ wideFault 0x0101 = false ∧
    checkDma sIss 5 1 33 64 96 = some (0x0102, 0) := by unfold ready slotLive; decide +kernel
theorem test_dmag : doesIt (.dmag 5 1 7 1 2 3 1 31) sIss (fun t => rg t 7 == 7 &&
    (getClu t 5).ops.map (·.kind) == [.dmag 32 64 96 (some 31)] &&
    (getClu t 5).ops.map (·.ranges) == [[⟨131073, 3, true⟩]]) = true := by decide +kernel
theorem test_dmap : doesIt (.dmap 5 1 7 1 2 3 0 31) sIss (fun t => (getClu t 5).ops.map (·.kind) == [.dmap 32 64 96 none] &&
    (getClu t 5).ops.map (·.ranges) == [[⟨131073, 3, false⟩]]) = true := by decide +kernel
theorem test_tiss_bad : doesIt (.tiss 5 1 0 0 7 0) sIss (fun t => stIs t .faulted && (getClu t 5).ops == [] &&
    (getSlot t 5 1).ticket == 7 && t.hub.reports.map (·.code) == [0x0101]) = true := by decide +kernel

/-- A counter at 5, an operation with ticket 3 in flight of 6 issued. -/
def op3 : Op :=
  { sl := 1, ticket := 3, pc := 2, cls := .b, kind := .tile dSync, ranges := [], accord := 0, ent := none, rng := rngNone, q := 0
    audit := false, phase := .issued, checked := false, reads := 0, stalls := [], got := none }
def sWait : State :=
  modClu (modSlot (ran [(1, 5), (2, 6), (3, 3)]) 5 1 (fun k => { k with ac := [(31, 5)], ticket := 6 })) 5
    (fun k => { k with ops := [op3] })
def stall (s : State) (why : WaitWhy) (i : Instr) : State := waitWith s 5 1 why i

theorem test_waitc : doesIt (.waitc 5 1 1 31 0) sWait (fun t => stIs t .running && pcIs t 11) &&
    doesIt (.waitc 5 1 2 31 0) sWait (fun t => stIs t .waiting && pcIs t 10 && (getSlot t 5 1).why == .waitc) = true := by
  decide +kernel
theorem test_waitop : doesIt (.waitop 5 1 0 4 0) sWait (pcIs · 11) && doesIt (.waitop 5 1 0 2 0) sWait (pcIs · 11) &&
    doesIt (.waitop 5 1 0 3 0) sWait (fun t => stIs t .waiting && pcIs t 10) = true := by decide +kernel
theorem test_fence : fenceDone s37 5 1 = true ∧ doesIt (.fence 5 1 0) s37 (pcIs · 11) = true ∧ fenceDone sWait 5 1 = false ∧
    doesIt (.fence 5 1 0) sWait (fun t => stIs t .waiting && (getSlot t 5 1).why == .fence) = true := by decide +kernel
theorem test_halt : doesIt (.halt 5 1 0) s37 (fun t => stIs t .waiting && pcIs t 10) = true := by decide +kernel
theorem test_program_end : doesIt (.programEnd 5 1) (stall s37 .fence (.halt 5 1 0)) (stIs · .halted) &&
    idle (.programEnd 5 1) s37 = true := by decide +kernel

theorem test_waitc_resume : doesIt (.waitcResume 5 1) (stall sWait .waitc (.waitc 5 1 1 31 0)) (fun t => stIs t .running &&
    pcIs t 11 && (getSlot t 5 1).waiting == none) && idle (.waitcResume 5 1) (stall sWait .waitc (.waitc 5 1 2 31 0)) = true := by
  decide +kernel
theorem test_waitop_resume : doesIt (.waitopResume 5 1) (stall sWait .waitop (.waitop 5 1 0 2 0)) (fun t => stIs t .running &&
    pcIs t 11) && idle (.waitopResume 5 1) (stall sWait .waitop (.waitop 5 1 0 3 0)) = true := by decide +kernel
theorem test_fence_resume : doesIt (.fenceResume 5 1) (stall s37 .fence (.fence 5 1 0)) (fun t => stIs t .running && pcIs t 11) &&
    idle (.fenceResume 5 1) (stall sWait .fence (.fence 5 1 0)) = true := by decide +kernel
theorem test_interlock : doesIt (.add 5 1 3 1 1) (modSlot s37 5 1 (fun k => { k with busy := [(1, 2)] })) (fun t =>
    stIs t .waiting && (getSlot t 5 1).why == .interlock) && doesIt (.interlockResume 5 1)
    (stall (modSlot s37 5 1 (fun k => { k with busy := [(1, 2)] })) .interlock (.add 5 1 3 1 2)) (fun t =>
      rg t 3 == 4 && pcIs t 11 && stIs t .running) = true := by decide +kernel
theorem test_issue_resume : doesIt (.issueResume 5 1) (stall sIss .overlap (.tiss 5 1 1 0 7 0)) (fun t => stIs t .running &&
    pcIs t 11 && (getClu t 5).ops.map (·.ticket) == [7]) = true := by decide +kernel
theorem test_ldst_resume : doesIt (.ldstResume 5 1) (stall sMem .overlap (.ld 5 1 3 1 0)) (fun t => stIs t .running && pcIs t 11 &&
    rg t 3 == 0xF1E2_D3C4_B5A6_9788) = true := by decide +kernel

theorem test_srd : doesIt (.srd 5 1 3 0 0 0) sIss (fun t => rg t 3 == 5) && doesIt (.srd 5 1 3 0 1 0) sIss (fun t => rg t 3 == 1) &&
    doesIt (.srd 5 1 3 0 3 0) sIss (fun t => rg t 3 == 6) && doesIt (.srd 5 1 3 0 2 0) { sIss with clock.ftc := 99 }
    (fun t => rg t 3 == 99) = true := by decide +kernel
theorem test_acrd_acset : doesIt (.acrd 5 1 3 0 31 0) sWait (fun t => rg t 3 == 5) && doesIt (.acset 5 1 0 2 30 0) sWait (fun t =>
    tabGet 0 (getSlot t 5 1).ac 30 == 6 && tabGet 0 (getSlot t 5 1).ac 31 == 5) = true := by decide +kernel
theorem test_yield : doesIt (.yield 5 1 0 0 0 0) s37 (fun t => (getSlot t 5 1).yielded && pcIs t 11) = true := by decide +kernel
def sTrc : State := { s37 with regs := [(cluAddr 5 (oTrcCfg 1), 0x8006_0000_0000_0000)] }
theorem wit_tmark : trcOn sTrc 5 1 = true ∧ trcRoom sTrc 5 1 1 = true ∧ trcStalls sTrc 5 1 1 = false := by decide +kernel
theorem test_tmark : doesIt (.tmark 5 1 0 2 0 0) sTrc (fun t => (getClu t 5).trcBuf.map (fun r => (r.sl, r.bytes.take 1,
    (r.bytes.drop 8).take 8)) == [(1, [0x16], leBytes 8 7)] && pcIs t 11) = true := by decide +kernel

def sFlt : State := ranCtx [(1, 6), (2, 7), (4, 0x1F_FFF8), (5, 0x20_0000)]
theorem wit_faults : slotLive sFlt 5 1 ∧ slotCtx sFlt 5 1 = some ctx0 ∧ runItems sFlt 3 = [] ∧ canIssue sFlt 5 1 [1] = true := by
  unfold slotLive; decide +kernel
def faults (i : Instr) (s : State) (code detail : Nat) : Bool := doesIt i s (fun t => stIs t .faulted &&
  t.hub.reports.map (fun r => (r.code, r.detail, r.pc, r.clu, r.slot)) == [(code, detail, (getSlot s 5 1).pc.toNat, 5, 1)])
theorem test_fault_pc : faults (.add 5 1 3 1 2) (modSlot sFlt 5 1 (fun k => { k with pc := 20 })) 0x0503 0 = true := by decide +kernel
theorem test_fault_illegal : faults (.fence 5 1 1) sFlt 0x0501 0 && faults (.srd 5 1 3 0 4 0) sFlt 0x0501 0 &&
    faults (.slli 5 1 3 1 64) sFlt 0x0501 0 && faults (.tdw 5 1 0 3 0 1 0 4) sFlt 0x0501 0 = true := by decide +kernel
theorem test_fault_access : faults (.lw 5 1 3 1 0) sFlt 0x0502 0 && faults (.ld 5 1 3 5 0) sFlt 0x0104 0x20_0000 &&
    doesIt (.ld 5 1 3 4 0) sFlt (stIs · .running) = true := by decide +kernel
theorem test_fault_ticket : faults (.waitop 5 1 0 2 0) (modSlot sFlt 5 1 (fun k => { k with ticket := 6 })) 0x0504 0 = true := by
  decide +kernel

/-! ### Tile operations -/

/-- An operation of slot 1 of cluster 5 with ticket 1 and descriptor `d`, in phase `ph`. -/
def opOf (d : List Byte) (ph : Phase) : Op := { op3 with ticket := 1, kind := .tile d, phase := ph }

/-- `s` with that operation in flight alone. -/
def inFlight (s : State) (d : List Byte) (ph : Phase) : State := modClu s 5 (fun k => { k with ops := [opOf d ph] })

/-- Bytes at a context address of the slot's partition. -/
def put (s : State) (a : Nat) (bs : List Byte) : State :=
  { s with cl.spad := memPut s.cl.spad (spadKey 5 (2 ^ 22 + a)) bs }

/-- Bytes of the partition. -/
def at_ (t : State) (a n : Nat) : List Byte := memBytes t.cl.spad (spadKey 5 (2 ^ 22 + a)) n

/-- The phase of the operation; none once it has left the scoreboard. -/
def phIs (t : State) (ph : Phase) : Bool := (findOp t 5 1 1).map (·.phase) == some ph

/-- TLA, XNP or GATE of 8 rows over one group of 5 elements: source image at 0, destination at 64. -/
def dEng (op fmt elems : Nat) : List Byte :=
  mkD ([(0, 1, op)] ++ ref 16 0 fmt 0 64 ++ ref 24 64 0 0 64 ++ [(52, 2, 8), (54, 4, elems)])

/-- The source A8 image of 1, 2, 3, 4, 5 with scale 1, and tile 0 resident with +1 weights in rows 0 and 1. -/
def sEng (op fmt elems : Nat) (ph : Phase) : State :=
  let s := put (put (ranCtx []) 0 [1, 2, 3, 4, 5]) 32 [127]
  inFlight { s with cl := { s.cl with tiles := [(5 * 32768, ⟨.resident, none, none, none⟩)]
                                      wst := memPut s.cl.wst (wstKey 5 0) [242, 242, 121, 121, 121, 121, 121, 121] } }
    (dEng op fmt elems) ph

def srcOf (s : State) : List Byte := at_ s 0 64
def passR (s : State) (o : Op) : PassRun :=
  passOf o (srcOf s) [] (runByte s 5 o.desc) (fun e => (passTiles s 5 o (srcOf s) e).flatMap (tileItems o.desc e))
def passP (s : State) (d : List Byte) : PassOut := (passR s (opOf d .issued)).out

def dT : List Byte := dEng 1 5 5
def sT : State := sEng 1 5 5 .issued

/-- What an engine reads at the start of a pass. -/
def engReads (s : State) (d : List Byte) : List (Opnd × Nat × List Byte) :=
  [(opnd d 16, (opnd d 16).size, srcOf s), (opnd d 40, ceilDiv (dRows d) 8, [])]

/-- `accSound` as a test. -/
def accOk (s : State) (c : Nat) (x : WAcc) : Bool :=
  let whole := fun (a : Nat) =>
    (getTile s c (a / 4096)).st == .resident && (lineChunks a).all (fun y => tabGet 0 s.cl.wErr (chunkKey c y) == 0)
  match x with
  | .dir a => whole a
  | .rline a => whole a
  | .line a _ => whole a
  | .chunk a _ => (getTile s c (a / 4096)).st == .resident && tabGet 0 s.cl.wErr (chunkKey c a) == 0
  | .record ok _ => ok
theorem accOk_sound {s : State} {c : Nat} {l : List (Nat × WAcc)} (h : l.all (fun x => accOk s c x.2) = true) :
    ∀ x ∈ l, accSound s c x.2 := by
  intro x hx
  have := List.all_eq_true.mp h x hx
  revert this
  cases x.2 <;> simp [accOk, accSound]

theorem wit_engine : hasOp sT 5 1 1 (opOf dT .issued) .issued ∧ mayStart sT 5 (opOf dT .issued) = true ∧
    coreDead sT 5 dT = none ∧ freshPass (opOf dT .issued) = opOf dT .issued ∧ checkTile sT 5 1 dT = none ∧
    clean 5 .engine 1 (engReads sT dT) sT (behind 5 .engine 1 (engReads sT dT) sT) :=
  ⟨by unfold hasOp slotLive; decide +kernel, by decide +kernel, by decide +kernel, by decide +kernel, by decide +kernel,
    clean_of (by decide +kernel)⟩
theorem wit_weights : weightsSound (behind 5 .engine 1 (engReads sT dT) sT) 5 (opOf dT .issued) (srcOf sT) [] :=
  accOk_sound (by decide +kernel)

/-- What EngineStarts says of a start. -/
def startsB (i : Instr) (s : State) (d : List Byte) : Bool :=
  let r := passR s (opOf d .issued)
  let n := r.count r.limit
  doesIt i s (fun t => opsB 5 s t && findOp t 5 1 1 == some { opOf d .issued with checked := true, phase := .pass r.out } &&
    ctr t (cluAddr 5 oItems) == n.items && ctr t (cluAddr 5 oSkip) == n.skip && ctr t (cluAddr 5 oFwait) == n.fwait &&
    ctr t (cluAddr 5 oInval) == n.inval)
theorem test_tla : startsB (.tla 5 1 1) sT dT = true ∧ (passP sT dT).sums = [[15, 15, 0, 0, 0, 0, 0, 0]] := by decide +kernel
theorem test_xnp : startsB (.xnp 5 1 1) (sEng 2 1 5 .issued) (dEng 2 1 5) = true ∧
    (passP (sEng 2 1 5 .issued) (dEng 2 1 5)).sums = [[-1, -1, 1, 1, 1, 1, 1, 1]] := by decide +kernel
theorem test_gate : startsB (.gate 5 1 1) (sEng 3 5 5 .issued) (dEng 3 5 5) = true := by decide +kernel

def sDone (op fmt : Nat) : State := sEng op fmt 5 (.pass (passP sT dT))

/-- What the end of a pass reads and writes. -/
def maskRead (d : List Byte) : List (Opnd × Nat × List Byte) := [(opnd d 40, ceilDiv (dRows d) 8, [])]
def tlaWrites (d : List Byte) (old oldSat : List Byte) : List (Opnd × Nat × List Byte) :=
  let x := tlaDest (dAcc d) (dRows d) (opnd d 32).present (rowMask d []) (passP sT dT) old oldSat
  [(opnd d 24, 0, x.dst), (opnd d 32, 0, x.satdst)]
def gateWrites (d : List Byte) : List (Opnd × Nat × List Byte) :=
  let x := gateDest (dRows d) false (BitVec.ofNat 32 (dThr d)) (rowMask d []) (passP sT dT)
  [(opnd d 24, 0, x.dst), (opnd d 32, 0, x.satdst)]

theorem wit_pass_complete : hasOp (sDone 1 5) 5 1 1 (opOf dT (.pass (passP sT dT))) (.pass (passP sT dT)) ∧
    (passP sT dT).abandon = none ∧
    ∃ s1 w, clean 5 .engine 1 (maskRead dT) (sDone 1 5) s1 ∧ puts s1 5 .engine 1 (tlaWrites dT [] []) w :=
  ⟨by unfold hasOp slotLive; decide +kernel, by decide +kernel, io_of (by decide +kernel)⟩
theorem test_pass_complete : leaves (.passComplete 5 1 1) (sDone 1 5) .engine (maskRead dT) (tlaWrites dT [] []) (fun t =>
    phIs t .done && seen t 64 24 == leBytes 16 0 ++ leBytes 4 15 ++ leBytes 4 15 && ctr t (cluAddr 5 oTiles) == 1) = true := by
  decide +kernel
theorem wit_gate_complete : ∃ s1 w, clean 5 .engine 1 (maskRead (dEng 3 5 5)) (sDone 3 5) s1 ∧
    puts s1 5 .engine 1 (gateWrites (dEng 3 5 5)) w := io_of (by decide +kernel)
theorem test_gate_complete : leaves (.passComplete 5 1 1) (sDone 3 5) .engine (maskRead (dEng 3 5 5)) (gateWrites (dEng 3 5 5))
    (fun t => phIs t .done && seen t 72 2 == [0xFF, 0]) = true := by decide +kernel

/-- The same run with ACC 1 over a block that holds 7 in its first value. -/
def dTa : List Byte := mkD ([(0, 1, 1)] ++ ref 16 0 5 0 64 ++ ref 24 64 0 0 64 ++ [(52, 2, 8), (54, 4, 5), (58, 1, 16)])
def sTa : State := put (inFlight sT dTa (.pass (passP sT dT))) 80 [7]
def accReads : List (Opnd × Nat × List Byte) :=
  maskRead dTa ++ [(opnd dTa 24, 48, at_ sTa 64 48), (opnd dTa 32, 32, [])]
theorem wit_accumulate : dAcc dTa = 1 ∧ dTokens dTa * (16 + 4 * dRows dTa) = 48 ∧ ∃ s1 w, clean 5 .engine 1 accReads sTa s1 ∧
    puts s1 5 .engine 1 (tlaWrites dTa (at_ sTa 64 48) []) w := ⟨by decide +kernel, by decide +kernel, io_of (by decide +kernel)⟩
theorem test_accumulate : leaves (.passComplete 5 1 1) sTa .engine accReads (tlaWrites dTa (at_ sTa 64 48) []) (fun t =>
    phIs t .done && seen t 80 8 == leBytes 4 22 ++ leBytes 4 15) = true := by decide +kernel
theorem test_abandon : doesIt (.passAbandon 5 1 1) (sEng 1 5 5 (.pass { passP sT dT with abandon := some (0, 0) })) (fun t =>
    phIs t .replay && ctr t (cluAddr 5 oAsat) == 1 && t.cl.spad == sT.cl.spad) = true := by decide +kernel
def sEx : State := modClu (ran []) 5 (fun k => { k with ops :=
  [{ opOf dT (.pass { passP sT dT with abandon := some (0, 0) }) with q := 3 }] })
def sExc : State := { ranCtx [] with cl.clus := sEx.cl.clus }
theorem wit_exhausted : slotCtx sExc 5 1 = some ctx0 ∧ faultItems sExc 3 = [] ∧ doesIt (.passAbandon 5 1 1) sExc (fun t =>
    t.hub.reports.map (fun r => (r.code, r.clu, r.slot, r.ticket, r.region)) == [(0x0202, 5, 1, 1, 3)]) = true := by decide +kernel
theorem test_exhausted : slotCtx sEx 5 1 = none ∧ doesIt (.passAbandon 5 1 1) sEx (fun t =>
    findOp t 5 1 1 == none && stIs t .faulted && ctr t (cluAddr 5 oAsat) == 1) = true := by decide +kernel
def sRp : State := sEng 1 5 5 .replay
def oRp : Op := { opOf dT .replay with q := 1 }
def sRp1 : State := bumpC (putOp sRp 5 oRp) 5 oReplay 1
theorem wit_replay : hasOp sRp 5 1 1 (opOf dT .replay) .replay ∧ mayReplay sRp 5 (opOf dT .replay) = true ∧ coreDead sRp 5 dT = none ∧
    clean 5 .engine 1 (engReads sRp dT) sRp1 (behind 5 .engine 1 (engReads sRp dT) sRp1) ∧
    weightsSound (behind 5 .engine 1 (engReads sRp dT) sRp1) 5 oRp (srcOf sRp) [] :=
  ⟨by unfold hasOp slotLive; decide +kernel, by decide +kernel, by decide +kernel, clean_of (by decide +kernel),
    accOk_sound (by decide +kernel)⟩
theorem test_replay : doesIt (.tileReplay 5 1 1) sRp (fun t => opsB 5 sRp t && ctr t (cluAddr 5 oReplay) == 1 &&
    findOp t 5 1 1 == some { oRp with phase := .pass (passR sRp oRp).out }) = true := by decide +kernel

/-- What a QNT of descriptor `d` reads and writes: values from its source, or an accumulator block. -/
def qReads (d bs : List Byte) : List (Opnd × Nat × List Byte) :=
  [(opnd d 32, ceilDiv (qElems d) 8 + 2 * ceilDiv (qElems d) 32, []), (opnd d 40, ceilDiv (qElems d) 32, []),
    (opnd d 16, bs.length, bs)]
def qPuts (d : List Byte) (els : List QEl) : List (Opnd × Nat × List Byte) :=
  let tf := (fmtOf (opnd d 24).fmt).getD .a8
  qntWrites d (qntRun tf ((fmtOf (qFmax d)).getD tf) (qOpol d) (opnd d 24).sat (qThr d) rngNone els (calOf (qElems d) []) none [])
def f32s : List Byte := leBytes 4 0x3F800000 ++ leBytes 4 0xBF800000 ++ leBytes 4 0x3F000000 ++ leBytes 4 0
def dQ : List Byte := mkD ([(0, 1, 4)] ++ ref 16 0 8 0 32 ++ ref 24 64 5 0 64 ++ [(48, 4, 4)])
def sQ : State := inFlight (put (ranCtx []) 0 f32s) dQ .issued
def bQ : List Byte := at_ sQ 0 (dataSize .f32 4)
def pQ : List (Opnd × Nat × List Byte) := qPuts dQ ((readVals .f32 4 bQ).map (fun v => ⟨fvOf v, none⟩))
theorem wit_vector : hasOp sQ 5 1 1 (opOf dQ .issued) .issued ∧ checkTile sQ 5 1 dQ = none ∧ qAcc dQ = false ∧
    ∃ s1 w, clean 5 .vec 1 (qReads dQ bQ) sQ s1 ∧ puts s1 5 .vec 1 pQ w :=
  ⟨by unfold hasOp slotLive; decide +kernel, by decide +kernel, by decide +kernel, io_of (by decide +kernel)⟩
theorem test_qnt : leaves (.qnt 5 1 1) sQ .vec (qReads dQ bQ) pQ (fun t => phIs t .done && seen t 64 4 == [64, 192, 32, 0] &&
    seen t 96 1 == [121]) = true := by decide +kernel
def dQa : List Byte := mkD ([(0, 1, 4)] ++ ref 16 0 0 0 32 ++ ref 24 64 5 0 64 ++ [(48, 4, 4), (54, 1, 32)])
def sQa : State := inFlight (put (ranCtx []) 16 (leBytes 4 3 ++ leBytes 4 1)) dQa .issued
def pQa : List (Opnd × Nat × List Byte) := qPuts dQa ((blockVals 4 (at_ sQa 0 32) none).map (fun v => ⟨v, none⟩))
theorem wit_qnt_block : checkTile sQ 5 1 dQa = none ∧ qAcc dQa = true ∧ (opnd dQa 56).present = false ∧
    ∃ s1 w, clean 5 .vec 1 (qReads dQa (at_ sQa 0 32)) sQa s1 ∧ puts s1 5 .vec 1 pQa w :=
  ⟨by decide +kernel, by decide +kernel, by decide +kernel, io_of (by decide +kernel)⟩
theorem test_qnt_block : leaves (.qnt 5 1 1) sQa .vec (qReads dQa (at_ sQa 0 32)) pQa (fun t => phIs t .done &&
    seen t 64 4 == [96, 32, 0, 0] && seen t 96 1 == [122]) = true := by decide +kernel
def dQw : List Byte := mkD ([(0, 1, 4)] ++ ref 16 0 3 0 64 ++ ref 24 64 5 0 64 ++ [(48, 4, 4)])
def sQw : State := inFlight (put (put (ranCtx []) 0 [0x97, 0x01]) 32 [127]) dQw .issued
def imgW : Img := readImg .a4 4 none (at_ sQw 0 (imageSize .a4 4 false))
def oQw : QntOut := qntWiden .a8 ((fmtOf (qFmax dQw)).getD .a8) (qOpol dQw) (opnd dQw 24).sat rngNone imgW (calOf (qElems dQw) [])
theorem wit_qnt_widen : checkTile sQ 5 1 dQw = none ∧ qntIsWiden .a4 .a8 = true ∧ fmtOf 3 = some .a4 ∧
    ∃ s1 w, clean 5 .vec 1 (qReads dQw (at_ sQw 0 (imageSize .a4 4 false))) sQw s1 ∧
      puts s1 5 .vec 1 (qntWrites dQw oQw) w :=
  ⟨by decide +kernel, by decide +kernel, by decide +kernel, io_of (by decide +kernel)⟩
theorem test_qnt_widen : leaves (.qnt 5 1 1) sQw .vec (qReads dQw (at_ sQw 0 (imageSize .a4 4 false))) (qntWrites dQw oQw)
    (phIs · .done) = true := by decide +kernel

/-- QNT from F32 into BF16, and into F32 from an A8 image of 1, -1, 1/2 and 0 (R603). -/
def dQb (src dst : Nat) : List Byte := mkD ([(0, 1, 4)] ++ ref 16 0 src 0 64 ++ ref 24 64 dst 0 32 ++ [(48, 4, 4)])
def bf4 : List Byte := [0x80, 0x3F, 0x80, 0xBF, 0x00, 0x3F, 0, 0]
def pQb : List (Opnd × Nat × List Byte) := [(opnd (dQb 8 7) 24, 0, dataBytes .bf16 [0x3F80, 0xBF80, 0x3F00, 0])]
def sQb : State := inFlight sQ (dQb 8 7) .issued
def sQi (d : List Byte) : State := inFlight (put (put (ranCtx []) 0 [64, 192, 32, 0]) 32 [121]) d .issued
def pQf : List (Opnd × Nat × List Byte) := [(opnd (dQb 5 8) 24, 0, f32s ++ leBytes 16 0)]
theorem wit_qnt_data : checkTile sQ 5 1 (dQb 8 7) = none ∧ (∃ s1 w, clean 5 .vec 1 (qReads (dQb 8 7) bQ) sQb s1 ∧ puts s1 5 .vec 1 pQb w) ∧
    checkTile sQ 5 1 (dQb 5 8) = none ∧ fmtIsAct .a8 = true ∧ qntIsWiden .a8 .f32 = false ∧
    ∃ s1 w, clean 5 .vec 1 (qReads (dQb 5 8) (at_ (sQi []) 0 (imageSize .a8 4 false))) (sQi (dQb 5 8)) s1 ∧ puts s1 5 .vec 1 pQf w :=
  ⟨by decide +kernel, io_of (by decide +kernel), by decide +kernel, by decide +kernel, by decide +kernel, io_of (by decide +kernel)⟩
theorem test_qnt_data : leaves (.qnt 5 1 1) sQb .vec (qReads (dQb 8 7) bQ) pQb (fun t => seen t 64 8 == bf4) = true ∧
    leaves (.qnt 5 1 1) (sQi (dQb 5 8)) .vec (qReads (dQb 5 8) (at_ (sQi []) 0 (imageSize .a8 4 false))) pQf
      (fun t => phIs t .done && seen t 64 16 == f32s) = true := by decide +kernel

/-- QNT from that image into A4: 4, -4, 2 and 0 at scale 1/4. -/
def dQn : List Byte := mkD ([(0, 1, 4)] ++ ref 16 0 5 0 64 ++ ref 24 64 3 0 64 ++ [(48, 4, 4)])
def bQn : List Byte := at_ (sQi dQn) 0 (imageSize .a8 4 false)
def pQn : List (Opnd × Nat × List Byte) := qPuts dQn (imgEls (readImg .a8 4 none bQn))
theorem wit_qnt_narrow : checkTile sQ 5 1 dQn = none ∧ qntIsWiden .a8 .a4 = false ∧
    ∃ s1 w, clean 5 .vec 1 (qReads dQn bQn) (sQi dQn) s1 ∧ puts s1 5 .vec 1 pQn w :=
  ⟨by decide +kernel, by decide +kernel, io_of (by decide +kernel)⟩
theorem test_qnt_narrow : leaves (.qnt 5 1 1) (sQi dQn) .vec (qReads dQn bQn) pQn (fun t => phIs t .done &&
    seen t 64 2 == [0xC4, 0x02] && seen t 96 1 == [125]) = true := by decide +kernel
def dAc : List Byte := mkD ([(0, 1, 5)] ++ ref 16 0 8 0 32 ++ ref 32 64 8 0 32 ++ [(56, 4, 4), (60, 1, 3)])
def sAc : State := inFlight sQ dAc .issued
def rAc : List (Opnd × Nat × List Byte) := [(opnd dAc 16, dataSize .f32 4, bQ),
  (opnd dAc 24, dataSize ((fmtOf (opnd dAc 24).fmt).getD .f32) 4, []), (opnd dAc 40, 10, [])]
def wAc : List (Opnd × Nat × List Byte) := [(opnd dAc 32, 0, leBytes 4 0x3F800000 ++ leBytes 4 0 ++ leBytes 4 0x3F000000 ++ leBytes 20 0)]
theorem wit_act : checkTile sQ 5 1 dAc = none ∧ aAcc dAc = false ∧
    ∃ s1 w, clean 5 .vec 1 rAc sAc s1 ∧ puts s1 5 .vec 1 wAc w :=
  ⟨by decide +kernel, by decide +kernel, io_of (by decide +kernel)⟩
theorem test_act : leaves (.act 5 1 1) sAc .vec rAc wAc (phIs · .done) = true := by decide +kernel

/-- ACT (ReLU) of a block of 3 and 1 under GAIN 1 and 2, behind a GATE record that predicts both rows inactive; then with the
second GAIN replaced by 0 from the gain table of accord 7. -/
def dAg : List Byte := mkD ([(0, 1, 5)] ++ ref 16 0 0 0 32 ++ ref 32 64 8 0 32 ++ ref 40 160 0 0 32 ++ ref 48 128 7 0 32 ++
  [(56, 4, 2), (60, 1, 3), (61, 1, 1)])
def sAg (acc : Nat) : State :=
  let s := put (put (put (put (ranCtx []) 16 (leBytes 4 3 ++ leBytes 4 1)) 128 [0x80, 0x3F, 0x00, 0x40]) 168 [3]) 256
    (leBytes 4 130 ++ leBytes 4 0)
  modClu s 5 (fun k => { k with ops := [{ opOf dAg .issued with accord := acc }]
                                acc := [(0, BitVec.ofNat 64 (2 ^ 62 + 2 ^ 50 + 8 * 2 ^ 30 + 2 ^ 16 + 7))] })
def rAg : List (Opnd × Nat × List Byte) := [(opnd dAg 16, 24, at_ (sAg 0) 0 24)]
def gAg : List (Opnd × Nat × List Byte) := [(opnd dAg 48, 4, [0x80, 0x3F, 0x00, 0x40])]
def kAg : List (Opnd × Nat × List Byte) := [(opnd dAg 24, 8, []), (opnd dAg 40, 10, at_ (sAg 0) 160 10)]
theorem wit_act_gain : checkTile (sAg 0) 5 1 dAg = none ∧ aAcc dAg = true ∧
    (∃ xs s2, blockIs 5 { opOf dAg .issued with accord := 0 } (opnd dAg 48) 2 (at_ (sAg 0) 0 24) xs (behind 5 .vec 1 rAg (sAg 0)) s2) ∧
    cleanB 5 .vec 1 (rAg ++ gAg ++ kAg) (sAg 0) = true :=
  ⟨by decide +kernel, by decide +kernel,
    ⟨_, _, .inr ⟨by decide +kernel, _, .inl ⟨.inl rfl, _, clean_of (l := gAg) (by decide +kernel), rfl⟩, rfl⟩⟩, by decide +kernel⟩
def oAg : Op := { opOf dAg .issued with accord := 7 }
def tAg : State × List Byte × List Bool :=
  let s := behind 5 .vec 1 rAg (sAg 7)
  spadRead s 5 .vec (partBase s 5 1 + 256) 8
theorem wit_act_table : ∃ x, findEnt (sAg 7) 5 1 7 = some x ∧ entGcount x = 1 ∧ entGbase x = 8 ∧
    tAg.2 = (leBytes 4 130 ++ leBytes 4 0, [false]) ∧
    onlyCluB 5 (behind 5 .vec 1 rAg (sAg 7)) tAg.1 = true ∧ cleanB 5 .vec 1 gAg tAg.1 = true ∧ oAg.accord = 7 :=
  ⟨_, rfl, by decide +kernel, by decide +kernel, by decide +kernel, by decide +kernel, by decide +kernel, by decide +kernel⟩
theorem test_act_gain : doesIt (.act 5 1 1) (sAg 0) (fun t => phIs t .done && seen t 64 8 == leBytes 4 0x40400000 ++ leBytes 4 0x40000000 &&
      ctr t (cluAddr 5 oWaste) == 0) = true ∧
    doesIt (.act 5 1 1) (sAg 7) (fun t => seen t 64 8 == leBytes 4 0x40400000 ++ leBytes 4 0 && ctr t (cluAddr 5 oWaste) == 1 &&
      ctr t (cluAddr 5 oAccGpatch) == 1) = true := by decide +kernel
def dNr : List Byte := mkD ([(0, 1, 6)] ++ ref 16 0 8 0 32 ++ ref 24 64 8 0 32 ++ [(40, 4, 4)])
def sNr : State := inFlight sQ dNr .issued
def rNr : List (Opnd × Nat × List Byte) := [(opnd dNr 16, dataSize .f32 4, bQ), (opnd dNr 32, dataSize ((fmtOf (opnd dNr 32).fmt).getD .f32) 4, [])]
def wNr : List (Opnd × Nat × List Byte) :=
  let zs := nrmRun (nKind dNr == 1) (nEps dNr) ((readVals .f32 4 bQ).map fvOf) none
  [(opnd dNr 24, 0, dataBytes .f32 ((List.range 4).map (fun i => (f32ToCode .f32 (rngAt rngNone i) (nth fvZero zs i)).c)))]
theorem wit_nrm : checkTile sQ 5 1 dNr = none ∧ ∃ s1 w, clean 5 .vec 1 rNr sNr s1 ∧ puts s1 5 .vec 1 wNr w :=
  ⟨by decide +kernel, io_of (by decide +kernel)⟩
theorem test_nrm : doesIt (.nrm 5 1 1) sNr (phIs · .done) = true := by decide +kernel

/-! ### Attention and the KV cache -/

/-- Bytes at a tenant address of function 0, whose window lies at 8 MiB of stack 0. -/
def dev (s : State) (a : Nat) (bs : List Byte) : State := { s with mem.dev := memPut s.mem.dev (2 ^ 23 + a) bs }
def devAt (t : State) (a n : Nat) : List Byte := memBytes t.mem.dev (2 ^ 23 + a) n

/-- The directory header of slot 1: one sequence, one layer, a hot stack of one page. -/
def hdr0 : KvHdr := ⟨0x1000, 0x2000, 1, 0, 1, 0x3800, 1, 0, 0⟩

/-- A share of one head of dimension 64 with `c` committed positions and TAILOCC `occ`; page 0 is hot, at 0x8000. -/
def sKv (c occ : Nat) (d : List Byte) (ph : Phase) : State :=
  let s := dev (ranCtx []) 0x2000 (leBytes 4 1 ++ leBytes 4 c ++ leBytes 4 0 ++ leBytes 4 512 ++ leBytes 8 0x2800 ++ leBytes 8 occ ++
    leBytes 8 0x3000)
  let s := dev (dev (dev s 0x3000 [0, 1, 1, 0, 1, 0]) 0x2800 (leBytes 8 0x8001)) 0x3800 (leBytes 8 0x1_0001)
  inFlight (modSlot s 5 1 (fun k => { k with kvdir := some 0x1000, kvHdr := some hdr0 })) d ph

/-- The share as the operations see it. -/
def sh0 (c occ : Nat) : Share :=
  mkShare 0x2000 0 0 (leBytes 4 1 ++ leBytes 4 c ++ leBytes 4 0 ++ leBytes 4 512 ++ leBytes 8 0x2800 ++ leBytes 8 occ ++
    leBytes 8 0x3000 ++ List.replicate 536 0) ([0, 1, 1, 0, 1, 0] ++ List.replicate 130 0)

def dAtt : List Byte := mkD ([(0, 1, 7)] ++ ref 16 0 5 0 96 ++ ref 24 256 0 0 288 ++ [(39, 1, 1), (44, 2, 0xFFFF)])
def sAtt : State := sKv 1 0 dAtt .issued
def pass0 : AttPass := attPass0 dAtt (sh0 1 0) (attQueries dAtt 64 (List.replicate 96 0)).1 [0]

/-- The state behind the reads of that share, and the share's witness for operation `o`. -/
def behindShare (o : Op) (s : State) : State := asked o.cls 0 0x3000 136 (asked o.cls 0 0x2000 576 s)
theorem share_of {s : State} {o : Op} {c occ : Nat} (h : (getSlot s 5 o.sl).kvHdr = some hdr0 ∧ kSeq o.desc % 2 ^ 24 < 1 ∧
    hdr0.l0 ≤ kLayer o.desc ∧ kLayer o.desc < hdr0.l0 + hdr0.nl)
    (hr : seesB o.cls (slotFn s 5 o.sl) (shareAddr hdr0 (kSeq o.desc % 2 ^ 24) (kLayer o.desc)) 576 (devAt s 0x2000 576) s = true)
    (h2 : bitB (leAt (devAt s 0x2000 576) 0 4) 0 = true ∧ bits (leAt (devAt s 0x2000 576) 0 4) 15 8 = kSeq o.desc / 2 ^ 24)
    (hl : seesB o.cls (slotFn s 5 o.sl) (leAt (devAt s 0x2000 576) 32 8) 136 (devAt s 0x3000 136)
      (asked o.cls (slotFn s 5 o.sl) (shareAddr hdr0 (kSeq o.desc % 2 ^ 24) (kLayer o.desc)) 576 s) = true)
    (h3 : layOk (devAt s 0x3000 136) = true ∧ sh0 c occ = mkShare (shareAddr hdr0 (kSeq o.desc % 2 ^ 24) (kLayer o.desc))
      (kSeq o.desc % 2 ^ 24) (kLayer o.desc) (devAt s 0x2000 576) (devAt s 0x3000 136) ∧
      (sh0 c occ).f ≤ (sh0 c occ).c ∧ (sh0 c occ).c ≤ (sh0 c occ).f + (sh0 c occ).cap)
    (h4 : asked o.cls (slotFn s 5 o.sl) (leAt (devAt s 0x2000 576) 32 8) 136 (asked o.cls (slotFn s 5 o.sl)
      (shareAddr hdr0 (kSeq o.desc % 2 ^ 24) (kLayer o.desc)) 576 s) = behindShare o s) :
    shareIs 5 o hdr0 (sh0 c occ) s (behindShare o s) :=
  ⟨h.1, h.2.1, h.2.2.1, h.2.2.2, _, _, _, sees_of hr, h2.1, h2.2, h4 ▸ sees_of hl, h3⟩

def aReads : List (Opnd × Nat × List Byte) := [(opnd dAtt 16, 96, List.replicate 96 0)]
theorem wit_att : hasOp sAtt 5 1 1 (opOf dAtt .issued) .issued ∧ attTakes sAtt 5 (opOf dAtt .issued) = true ∧
    attBad dAtt (sh0 1 0) = none ∧ funcWaits sAtt (slotFn sAtt 5 1) = false ∧ checkTile sAtt 5 1 dAtt = none ∧
    imageSize ((fmtOf (opnd dAtt 16).fmt).getD .a8) (kHeads dAtt * (sh0 1 0).d) false = 96 ∧ stacksSound sAtt ∧
    ∃ t, clean 5 .att 1 aReads (behindShare (opOf dAtt .issued) sAtt) t :=
  ⟨by unfold hasOp slotLive; decide +kernel, by decide +kernel, by decide +kernel, by decide +kernel, by decide +kernel,
    by decide +kernel, ⟨rfl, rfl, fun _ => ⟨rfl, rfl⟩⟩, _, clean_of (by decide +kernel)⟩
theorem wit_share : shareIs 5 (opOf dAtt .issued) hdr0 (sh0 1 0) sAtt (behindShare (opOf dAtt .issued) sAtt) :=
  share_of (by decide +kernel) (by decide +kernel) (by decide +kernel) (by decide +kernel) (by decide +kernel) (by decide +kernel)
theorem test_att : doesIt (.att 5 1 1) sAtt (fun t => readB 5 sAtt t && match findOp t 5 1 1 with
    | some o => (match o.phase with | .att a => a.pages == 1 && a.page == 0 && a.n == 1 && a.c == 1 | _ => false)
    | none => false) = true := by decide +kernel
def dAtt2 : List Byte := mkD ([(0, 1, 7)] ++ ref 16 0 5 0 96 ++ ref 24 256 0 0 288 ++ [(39, 1, 1)])
def pass2 : AttPass := attPass0 dAtt2 (sh0 1 1) (attQueries dAtt2 64 (List.replicate 96 0)).1 [0]
def sSusp : State :=
  let s := sKv 1 1 dAtt2 (.att pass2)
  modClu s 5 (fun k => { k with ops := k.ops ++ [{ opOf dAtt2 .issued with ticket := 2, cls := .u, sl := 2 }] })
theorem wit_suspend : urgentWaits sSusp 5 (opOf dAtt2 (.att pass2)) = true ∧ pass2.page < pass2.pages ∧ pass2.pages = 2 := by
  decide +kernel
theorem test_att_suspend : doesIt (.attSuspend 5 1 1) sSusp (fun t => match findOp t 5 1 1 with
    | some o => (match o.phase with | .suspended a => a.page == 1 | _ => false)
    | none => false) = true := by decide +kernel
theorem test_att_resume : doesIt (.attResume 5 1 1) (sKv 1 0 dAtt (.suspended pass0)) (phIs · (.att pass0)) = true := by decide +kernel

def dKva : List Byte := mkD ([(0, 1, 8)] ++ ref 16 0 8 0 256 ++ ref 24 256 8 0 256 ++ [(39, 1, 1)])
def oKva : Op := opOf dKva .issued
def sKva : State := modClu (sKv 1 0 dKva .issued) 5 (fun k => { k with lb := [⟨1, 0, 0, 0, 0x8001⟩] })
def kReads : List (Opnd × Nat × List Byte) := [(opnd dKva 16, 256, List.replicate 256 0), (opnd dKva 24, 256, List.replicate 256 0)]
def zVals : List FV := (readVals .f32 64 (List.replicate 256 0)).map fvOf
def kPieces (c : Nat) : List (Nat × List Byte) := kvaPieces (sh0 c 0) (c % 256) (kvaRows oKva (sh0 c 0) zVals zVals)
def kvaAt : State := modClu (behindShare oKva sKva) 5 (fun k => { k with lb := lbPut k.lb ⟨1, 0, 0, 0, 0x8001⟩ })
def kvaEnd : State := (piecesWrite (behind 5 .att 1 kReads kvaAt) 5 oKva 0x8001 (kPieces 1)).1
def kTail (c a : Nat) (w : State) : State := ten .b 0 (0x2000 + 24) (leBytes 8 c) (ten .b 0 (0x2000 + 64) (leBytes 8 a) w)
theorem wit_kva : checkTile sKva 5 1 dKva = none ∧ kvaBad dKva (sh0 1 0) = none ∧ attTakes sKva 5 oKva = true ∧
    pteOk sKva 5 1 0x8001 (pageBytes 64 1) = true ∧ (getClu sKva 5).lb.find? (lbIs 1 0 0 0) = some ⟨1, 0, 0, 0, 0x8001⟩ ∧
    clean 5 .att 1 kReads kvaAt (behind 5 .att 1 kReads kvaAt) ∧ piecesOk sKva 5 1 0x8001 (kPieces 1) = true ∧
    (piecesWrite (behind 5 .att 1 kReads kvaAt) 5 oKva 0x8001 (kPieces 1)).2 = false :=
  ⟨by decide +kernel, by decide +kernel, by decide +kernel, by decide +kernel, by decide +kernel, clean_of (by decide +kernel),
    by decide +kernel, by decide +kernel⟩
theorem wit_kva_share : shareIs 5 oKva hdr0 (sh0 1 0) sKva (behindShare oKva sKva) :=
  share_of (by decide +kernel) (by decide +kernel) (by decide +kernel) (by decide +kernel) (by decide +kernel) (by decide +kernel)
theorem test_kva : doesIt (.kva 5 1 1) sKva (fun t => phIs t .done && devAt t 0x2018 8 == leBytes 8 1 && t.cl.slots == sKva.cl.slots &&
    kvB 5 1 sKva kvaEnd (kTail 1 (kvaAnc dKva) kvaEnd) t) = true := by decide +kernel

/-- A position whose page has no entry yet: a page comes from the hot stack. -/
def sAl : State := sKv 256 0 dKva .issued
def al0 : State := bumpC (behindShare oKva sAl) 5 oLbMiss 1
def al1 : State := asked .b 0 0x2808 8 al0
def al2 : State := asked .b 0 0x3800 8 al1
def al3 : State := bumpC (ten .b 0 0x2808 (leBytes 8 0x1_0001)
  (modHdr (behind 5 .att 1 kReads al2) 5 1 (fun h => { h with hcount := h.hcount - 1 }))) 5 oKvAlloc 1
def alEnd : State := (piecesWrite al3 5 oKva 0x1_0001 (kPieces 256)).1
theorem wit_kva_alloc : kvaBad dKva (sh0 256 0) = none ∧ (getClu sAl 5).lb.find? (lbIs 1 0 0 1) = none ∧
    sees .b 0 0x2808 8 (leBytes 8 0) al0 al1 ∧ pteTier 0 = 0 ∧ hdr0.hcount ≠ 0 ∧ sees .b 0 0x3800 8 (leBytes 8 0x1_0001) al1 al2 ∧
    pteOk sAl 5 1 0x1_0001 (pageBytes 64 1) = true ∧ clean 5 .att 1 kReads al2 (behind 5 .att 1 kReads al2) ∧
    piecesOk sAl 5 1 0x1_0001 (kPieces 256) = true ∧ (piecesWrite al3 5 oKva 0x1_0001 (kPieces 256)).2 = false :=
  ⟨by decide +kernel, by decide +kernel, sees_of (by decide +kernel), by decide +kernel, by decide +kernel, sees_of (by decide +kernel),
    by decide +kernel, clean_of (by decide +kernel), by decide +kernel, by decide +kernel⟩
theorem test_kva_alloc : doesIt (.kva 5 1 1) sAl (fun t => phIs t .done && devAt t 0x2808 8 == leBytes 8 0x1_0001 &&
    (getSlot t 5 1).kvHdr == some { hdr0 with hcount := 0 } && ctr t (cluAddr 5 oKvAlloc) == 1 &&
    kvB 5 1 sAl alEnd (kTail 1 (kvaAnc dKva) alEnd) t) = true := by decide +kernel

def dCom : List Byte := mkD [(0, 1, 9), (39, 1, 1)]
def oCom : Op := opOf dCom .issued
def dTree : List Byte := mkD ([(0, 1, 9), (38, 1, 1), (39, 1, 1)] ++ ref 40 512 0 0 32)
def sCm : State := sKv 1 1 dCom .issued
def pgs : List Nat := pagesFrom (sh0 1 1) 2
def cmS : State := asked .b 0 (0x2800 + 8 * nth 0 pgs 0) (8 * pgs.length) (behindShare oCom sCm)
def moved_ (n : Nat) (w : State) : State := ten .b 0 (0x2000 + 24) (leBytes 8 0) (ten .b 0 (0x2000 + 4) (leBytes 4 n) w)
theorem wit_commit : checkTile sKva 5 1 dCom = none ∧ comTree dCom = false ∧ comNacc dCom = 1 ∧ pathOk (sh0 1 1) [0] 0 none = true ∧
    sees .b 0 (0x2800 + 8 * nth 0 pgs 0) (8 * pgs.length) (devAt sCm (0x2800 + 8 * nth 0 pgs 0) (8 * pgs.length))
      (behindShare oCom sCm) cmS ∧ freed pgs (devAt sCm (0x2800 + 8 * nth 0 pgs 0) (8 * pgs.length)) = [] ∧
    pushOk sCm 5 1 hdr0 [] = true :=
  ⟨by decide +kernel, by decide +kernel, by decide +kernel, by decide +kernel, sees_of (by decide +kernel), by decide +kernel,
    by decide +kernel⟩
theorem test_commit : doesIt (.commit 5 1 1) sCm (fun t => phIs t .done && devAt t 0x2004 4 == leBytes 4 2 &&
    devAt t 0x2018 8 == leBytes 8 0 && kvB 5 1 sCm sCm (moved_ 2 cmS) t) = true := by decide +kernel
def oS : Op := opOf dAtt2 (.att pass2)
def s1S : State := attStep sSusp 5 oS pass2 (fun s _ => s)
def a1S : AttPass :=
  match findOp (attStep sSusp 5 oS pass2 (fun s a => setPhase s 5 oS (.att a))) 5 1 1 with
  | some o => (match o.phase with | .att a => a | _ => pass2)
  | none => pass2
theorem wit_att_step : (∀ g, attStep sSusp 5 oS pass2 g = g s1S a1S) ∧ a1S.page < a1S.pages ∧ findOp s1S 5 1 1 = some oS ∧
    urgentWaits s1S 5 oS = true :=
  ⟨fun _ => rfl, by decide +kernel, by decide +kernel, by decide +kernel⟩
theorem test_att_end_suspends : doesIt (.operationComplete 5 1 ⟨1, 0, []⟩) sSusp (fun t => match findOp t 5 1 1 with
    | some o => (match o.phase with | .suspended a => a.page == 1 | _ => false)
    | none => false) = true := by decide +kernel

/-- The only page of a pass, on its way to the end: one position whose key and value are 0. -/
def oE : Op := opOf dAtt (.att pass0)
def sAe : State := modClu (sKv 1 0 dAtt (.att pass0)) 5 (fun k => { k with lb := [⟨1, 0, 0, 0, 0x8001⟩] })
def s1E : State := attStep sAe 5 oE pass0 (fun s _ => s)
def a1E : AttPass :=
  match findOp (attStep sAe 5 oE pass0 (fun s a => setPhase s 5 oE (.att a))) 5 1 1 with
  | some o => (match o.phase with | .att a => a | _ => pass0)
  | none => pass0
def outE : List Byte := (List.range a1E.heads.length).flatMap (fun i =>
  (headOut none rngNone (i * a1E.d) (nth (headInit a1E.d) a1E.heads i)).1)
theorem wit_att_end : (∀ g, attStep sAe 5 oE pass0 g = g s1E a1E) ∧ pass0.page + 1 = pass0.pages ∧ a1E.pages ≤ a1E.page ∧
    findOp s1E 5 1 1 = some oE ∧ slotCtx s1E 5 1 = some ctx0 ∧ runItems s1E 3 = [] ∧
    (writeAll s1E 5 .att 1 [(opnd dAtt 24, 0, outE)]).2 = false :=
  ⟨fun _ => rfl, by decide +kernel, by decide +kernel, by decide +kernel, by decide +kernel, by decide +kernel, by decide +kernel⟩
theorem test_att_end : outE.length = 272 ∧ doesIt (.operationComplete 5 1 ⟨1, 0, []⟩) sAe (fun t => findOp t 5 1 1 == none &&
    t.mem == sAe.mem) = true := by decide +kernel

/-- A COMMIT of tail slot 1 into position 1: its row moves within page 0. -/
def sCt : State := modClu (put (put (sKv 1 2 dTree .issued) 512 [1]) (0x8000 + 256 * 64 + 2) [0x7F]) 5 (fun k => { k with
  lb := [⟨1, 0, 0, 0, 0x8001⟩] })
def oCt : Op := opOf dTree .issued
def tReads : List (Opnd × Nat × List Byte) := [(opnd dTree 40, 1, [1])]
def ct1 : State := behind 5 .att 1 tReads (behindShare oCt sCt)
def ct2 : State := withPlaces 5 oCt (sh0 1 2) (fun s _ => s) [2] [] ct1
def ct3 : State := withPlaces 5 oCt (sh0 1 2) (fun s _ => s) [1] [] ct2
def rowsCt : List (List (List Byte)) :=
  [[List.replicate 32 0, List.replicate 32 0, [0x7F], [0], List.replicate 16 0]]
def ct4 : State := readPlaces 5 oCt (sh0 1 2) (fun s _ => s) [(0x8001, 2)] [] ct3
def tPages : List Nat := pagesFrom (sh0 1 2) 2
def ct5 : State := asked .b 0 (0x2800 + 8 * nth 0 tPages 0) (8 * tPages.length) ct4
def ctEnd : State := (writePlaces 5 oCt (sh0 1 2) ([(0x8001, 1)].zip rowsCt) ct5).1
theorem wit_commit_places : (∀ g, withPlaces 5 oCt (sh0 1 2) g [2] [] ct1 = g ct2 [(0x8001, 2)]) ∧
    (∀ g, withPlaces 5 oCt (sh0 1 2) g [1] [] ct2 = g ct3 [(0x8001, 1)]) := ⟨fun _ => rfl, fun _ => rfl⟩
theorem wit_commit_rows : ∀ g, readPlaces 5 oCt (sh0 1 2) g [(0x8001, 2)] [] ct3 = g ct4 rowsCt := fun _ => rfl
theorem wit_commit_tree : comTree dTree = true ∧ comNacc dTree = 1 ∧ copies 1 [1] = [(2, 1)] ∧
    clean 5 .att 1 tReads (behindShare oCt sCt) ct1 ∧ pathOk (sh0 1 2) [1] 0 none = true ∧
    sees .b 0 (0x2800 + 8 * nth 0 tPages 0) (8 * tPages.length) (devAt sCt (0x2800 + 8 * nth 0 tPages 0) (8 * tPages.length)) ct4 ct5 ∧
    freed tPages (devAt sCt (0x2800 + 8 * nth 0 tPages 0) (8 * tPages.length)) = [] ∧ readB 5 sCt ct5 = true ∧
    findOp ct5 5 1 1 = some oCt ∧ (writePlaces 5 oCt (sh0 1 2) ([(0x8001, 1)].zip rowsCt) ct5).2 = false ∧
    (([(0x8001, 1)].zip rowsCt).all (fun x => piecesOk sCt 5 1 x.1.1 (placePieces (sh0 1 2) x.1.2 x.2))) = true :=
  ⟨by decide +kernel, by decide +kernel, by decide +kernel, clean_of (by decide +kernel), by decide +kernel,
    sees_of (by decide +kernel), by decide +kernel, by decide +kernel, by decide +kernel, by decide +kernel, by decide +kernel⟩
theorem test_commit_tree : doesIt (.commit 5 1 1) sCt (fun t => phIs t .done && devAt t 0x2004 4 == leBytes 4 2 &&
    seen t (0x8000 + 256 * 64 + 1) 1 == [0x7F] && ctr t (cluAddr 5 oKvCopy) == 1 && kvB 5 1 sCt ctEnd (moved_ 2 ctEnd) t) = true := by
  decide +kernel

/-! ### The link interface, CMP, the end of operations -/

/-- A state in which node 7's messages to node 9 have a route, and function 0 a tag. -/
def routed9 (s : State) : State :=
  { s with lnk := { s.lnk with node := 7, rt := [(9, 0x88)] }, regs := tabSet s.regs (aFtag 0) 0x55 }

def dMov (tclu tnode len : Nat) : List Byte :=
  mkD ([(0, 1, 10)] ++ ref 16 0 0 0 len ++ ref 24 0x1000 0 0 len ++ [(32, 2, tclu), (34, 1, 2), (35, 1, 0x3F), (36, 2, tnode)])
def sMov (tclu tnode len : Nat) : State := inFlight (put (routed9 (ranCtx [])) 0 [1, 2, 3]) (dMov tclu tnode len) .issued
def mReads (d : List Byte) (len : Nat) : List (Opnd × Nat × List Byte) := [(opnd d 16, len, [1, 2, 3] ++ List.replicate (len - 3) 0)]
def mPuts (d : List Byte) (len : Nat) : List (Opnd × Nat × List Byte) := [(opnd d 24, 0, [1, 2, 3] ++ List.replicate (len - 3) 0)]
def lMov : List Byte := dMov 0xFFFF 0xFFFF 32
theorem wit_mov : checkTile (sMov 0xFFFF 0xFFFF 32) 5 1 lMov = none ∧ isLocal (sMov 0xFFFF 0xFFFF 32) lMov = true ∧
    isLocal (sMov 900 0xFFFF 32) (dMov 900 0xFFFF 32) = false ∧ tnodeOf (sMov 0 7 32) (dMov 0 7 32) = 0xFFFF ∧
    noRoute (sMov 900 9 16416) 0 9 = false ∧
    ∃ s1 w, clean 5 .link 1 (mReads lMov 32) (sMov 0xFFFF 0xFFFF 32) s1 ∧ puts s1 5 .link 1 (mPuts lMov 32) w :=
  ⟨by decide +kernel, by decide +kernel, by decide +kernel, by decide +kernel, by decide +kernel, io_of (by decide +kernel)⟩
theorem wit_mov_away : clean 5 .link 1 (mReads (dMov 900 9 16416) 16416) (sMov 900 9 16416)
    (behind 5 .link 1 (mReads (dMov 900 9 16416) 16416) (sMov 900 9 16416)) := clean_of (by decide +kernel)
theorem test_mov_local : leaves (.mov 5 1 1) (sMov 0xFFFF 0xFFFF 32) .link (mReads lMov 32) (mPuts lMov 32) (fun t =>
    phIs t .done && seen t 0x1000 4 == [1, 2, 3, 0]) = true := by decide +kernel
theorem test_mov_away : doesIt (.mov 5 1 1) (sMov 900 0xFFFF 32) (fun t => phIs t (.sent 1 false) && t.hub.xfers.map (fun x =>
    (x.tclu, x.tslot, x.ctr, x.op, x.data, x.way.cls)) ==
      [(900, 2, some 31, some (5, 1, 1), [(0x1000, [1, 2, 3] ++ List.replicate 29 0, false)], .b)]) &&
    doesIt (.mov 5 1 1) (sMov 900 9 16416) (fun t => phIs t (.sent 2 false) && t.lnk.msgs.map (fun m => (m.addr, m.ctr, m.final)) ==
    [(0x1000, none, false), (0x5000, some 31, true)]) = true := by decide +kernel

def dRed (tmem tclu tnode : Nat) : List Byte :=
  mkD ([(0, 1, 11)] ++ ref 16 0 8 0 32 ++ ref 24 0x1000 8 0 32 ++ [(32, 2, tclu), (36, 2, tnode), (39, 1, tmem), (40, 8, 0x4000)])
def sRed (tmem tclu tnode : Nat) : State :=
  inFlight (put (put (routed9 (ranCtx [])) 0 (leBytes 4 0x3F800000)) 0x1000 (leBytes 4 0x40000000)) (dRed tmem tclu tnode) .issued
def rReads (d : List Byte) : List (Opnd × Nat × List Byte) := [(opnd d 16, 32, leBytes 32 0x3F800000)]
def lRed : List Byte := dRed 0 0xFFFF 0xFFFF
def red1 : State := behind 5 .link 1 (rReads lRed) (sRed 0 0xFFFF 0xFFFF)
def red2 : State := (readSpans red1 5 .link (partBase red1 5 1) [(0x1000, 32)]).1
def redOut : List Byte := (redVals 0 (leBytes 32 0x40000000) (leBytes 32 0x3F800000)).flatMap f32Bytes
def redEnd : State := (writeSpans red2 5 .link (partBase red1 5 1) redOut [(0x1000, 32)]).1
theorem wit_red : clean 5 .link 1 (rReads lRed) (sRed 0 0xFFFF 0xFFFF) red1 ∧ dRop lRed = 0 ∧ redBf16 lRed = false ∧
    opndUser .link (opnd lRed 24) = .link ∧ targetSpans (opnd lRed 24) 32 = [(0x1000, 32)] ∧
    (readSpans red1 5 .link (partBase red1 5 1) [(0x1000, 32)]).2 = (leBytes 32 0x40000000, [false]) ∧ onlyClu 5 red1 red2 ∧
    (writeSpans red2 5 .link (partBase red1 5 1) redOut [(0x1000, 32)]).2 = 0 :=
  ⟨clean_of (by decide +kernel), by decide +kernel, by decide +kernel, by decide +kernel, by decide +kernel, by decide +kernel,
    onlyClu_of (by decide +kernel), by decide +kernel⟩
theorem test_red_local : checkTile (sRed 0 0xFFFF 0xFFFF) 5 1 lRed = none ∧ doesIt (.red 5 1 1) (sRed 0 0xFFFF 0xFFFF)
    (fun t => phIs t .done && seen t 0x1000 8 == leBytes 4 0x40400000 ++ leBytes 4 0 &&
      storedB 5 (sRed 0 0xFFFF 0xFFFF) redEnd t) = true := by decide +kernel
theorem test_red_away : doesIt (.red 5 1 1) (sRed 0 900 0xFFFF) (fun t => t.hub.xfers.map (·.kind) == [.red 0]) &&
    doesIt (.red 5 1 1) (sRed 1 900 0xFFFF) (fun t => (tabGet [] t.mem.atoms 0).map (fun a => (a.kind, a.pieces, a.cls)) ==
    [(.red 0, [(2 ^ 23 + 0x4000, 32)], .b)]) && doesIt (.red 5 1 1) (sRed 1 900 9) (fun t => t.lnk.msgs.map (·.addr) == [0x4000]) = true := by
  decide +kernel

def dMrg (tnode : Nat) : List Byte :=
  mkD ([(0, 1, 12)] ++ ref 16 0 0 0 288 ++ [(32, 2, 0xFFFF), (36, 2, tnode), (39, 1, 1), (40, 8, 0x4000), (48, 2, 64)])
def sMrg (tnode : Nat) : State := inFlight (routed9 (ranCtx [])) (dMrg tnode) .issued
theorem wit_mrg : clean 5 .link 1 [(opnd (dMrg 9) 16, 272, List.replicate 272 0)] (sMrg 9)
    (behind 5 .link 1 [(opnd (dMrg 9) 16, 272, List.replicate 272 0)] (sMrg 9)) ∧ mrgHeads (dMrg 9) * (16 + 4 * dDim (dMrg 9)) = 272 ∧
    tenPieces (sMrg 0xFFFF) 0 0x4000 272 = some [(2 ^ 23 + 0x4000, 272)] :=
  ⟨clean_of (by decide +kernel), by decide +kernel, by decide +kernel⟩
theorem test_mrg : checkTile (sMrg 0xFFFF) 5 1 (dMrg 0xFFFF) = none ∧ doesIt (.mrg 5 1 1) (sMrg 0xFFFF) (fun t =>
    (tabGet [] t.mem.atoms 0).map (·.kind) == [.mrg 64]) = true ∧ doesIt (.mrg 5 1 1) (sMrg 9) (fun t => t.lnk.msgs.map (·.dim) == [64]) = true := by
  decide +kernel

def dSig (ctr tnode : Nat) : List Byte := mkD [(0, 1, 14), (32, 2, 900), (35, 1, ctr), (36, 2, tnode)]
theorem test_sync : doesIt (.sync 5 1 1) (inFlight (ranCtx []) (dSig 0 0xFFFF) .issued) (phIs · .done) && doesIt (.sync 5 1 1)
    (inFlight (ranCtx []) (dSig 0x25 0xFFFF) .issued) (fun t => phIs t .done && t.hub.xfers.map (fun x => (x.kind, x.ctr)) ==
    [(.sig, some 5)]) && doesIt (.sync 5 1 1) (inFlight (routed9 (ranCtx [])) (dSig 0x25 9) .issued) (fun t =>
    phIs t (.sent 1 false)) = true := by decide +kernel
theorem wit_sync : earlierEnded (inFlight (ranCtx []) (dSig 0x25 0xFFFF) .issued) 5 (opOf (dSig 0x25 0xFFFF) .issued) = true := by
  decide +kernel

/-- CMP of one tile of A4, without a stream, and back. -/
def dPack : List Byte := mkD ([(0, 1, 13)] ++ ref 16 0 3 0 2176 ++ ref 24 0x2000 0 0 2208 ++ ref 32 0x4000 0 0 32 ++ [(40, 2, 1088)])
def dOpen : List Byte := mkD ([(0, 1, 13)] ++ ref 16 0x2000 0 0 2208 ++ ref 24 0x6000 3 0 2176 ++ ref 32 0x4000 0 0 32)
def sPack : State := inFlight (put (ranCtx []) 0 [0x21]) dPack .issued
/-- The packed form of that image: header, the first block of the class that keeps 32, index. -/
def sOpen : State :=
  inFlight (put (put (ranCtx []) 0x2000 ([3, 0, 1] ++ List.replicate 29 0 ++ [3, 0, 0, 0, 0, 0, 0, 0, 0x21])) 0x4000
    [32, 0, 0, 0, 1, 0, 0, 0]) dOpen .issued

def pReads : List (Opnd × Nat × List Byte) := [(opnd dPack 16, 2176, at_ sPack 0 2176)]
theorem wit_pack : hasOp sPack 5 1 1 (opOf dPack .issued) .issued ∧ checkTile sPack 5 1 dPack = none ∧ cmpPacks dPack = true ∧
    clean 5 .link 1 pReads sPack (behind 5 .link 1 pReads sPack) ∧
    ∀ ws, puts (behind 5 .link 1 pReads sPack) 5 .link 1 ws (writeAll (behind 5 .link 1 pReads sPack) 5 .link 1 ws).1 := by
  unfold hasOp slotLive
  exact ⟨by decide +kernel, by decide +kernel, by decide +kernel, clean_of (by decide +kernel),
    fun ws => puts_of (Laws.writeAll_unmarked ⟨by decide +kernel, by decide +kernel⟩ 5 .link 1 ws).1⟩
def expands : Bool :=
  match atrExpand .a4 false 2176 (peekOpnd sOpen 5 1 (opnd dOpen 16) 0 2208) (peekOpnd sOpen 5 1 (opnd dOpen 32) 0 8) with
  | .ok _ _ n => n == 1
  | .header => false
  | .index => false
def op1 : State := behind 5 .link 1 [(opnd dOpen 16, 32, at_ sOpen 0x2000 32)] sOpen
def op2 : State := behind 5 .link 1 [(opnd dOpen 32, 8, at_ sOpen 0x4000 8)] op1
def op3_ : State := opParts 5 (opOf dOpen .issued) (opnd dOpen 16) (fun s => s) (streamParts .a4 (atrHdr (at_ sOpen 0x2000 32)) (at_ sOpen 0x4000 8)) op2
theorem wit_expand : cmpPacks dOpen = false ∧ checkTile sOpen 5 1 dOpen = none ∧
    clean 5 .link 1 [(opnd dOpen 16, 32, at_ sOpen 0x2000 32)] sOpen op1 ∧ min (opnd dOpen 32).size (8 * (atrHdr (at_ sOpen 0x2000 32)).nt) = 8 ∧
    clean 5 .link 1 [(opnd dOpen 32, 8, at_ sOpen 0x4000 8)] op1 op2 ∧ expands = true ∧
    (∀ g, opParts 5 (opOf dOpen .issued) (opnd dOpen 16) g (streamParts .a4 (atrHdr (at_ sOpen 0x2000 32)) (at_ sOpen 0x4000 8)) op2 = g op3_) ∧
    onlyClu 5 op2 op3_ ∧ findOp op3_ 5 1 1 = some (opOf dOpen .issued) ∧
    ∀ ws, puts op3_ 5 .link 1 ws (writeAll op3_ 5 .link 1 ws).1 :=
  ⟨by decide +kernel, by decide +kernel, clean_of (by decide +kernel), by decide +kernel, clean_of (by decide +kernel), by decide +kernel,
    fun _ => rfl, onlyClu_of (by decide +kernel), by decide +kernel,
    fun ws => puts_of (Laws.writeAll_unmarked ⟨by decide +kernel, by decide +kernel⟩ 5 .link 1 ws).1⟩

theorem test_expand : (atrDecBlock .a4 1 ([3, 0, 0, 0, 0, 0, 0, 0, 0x21] ++ List.replicate 32 0)).1.take 3 = [1, 2, 0] := by decide

/-- A DMA in flight, and a finished tile operation with counter 31. -/
def inDma (s : State) (k : OpKind) : State := modClu s 5 (fun u => { u with ops := [{ opOf dSync .issued with kind := k }] })
theorem test_tile_end : doesIt (.operationComplete 5 1 ⟨1, 0, []⟩) (inFlight (ranCtx []) (mkD [(0, 1, 14), (2, 1, 0x3F), (32, 2, 0xFFFF),
    (36, 2, 0xFFFF)]) .done) (fun t => (getClu t 5).ops == [] && tabGet 0 (getSlot t 5 1).ac 31 == 1 && tabGet 0 (getSlot t 5 1).ac 30
    == 0) = true := by decide +kernel
theorem test_dmag_end : doesIt (.operationComplete 5 1 ⟨1, 0, []⟩) (inDma (dev (ranCtx []) 64 [9, 8]) (.dmag 32 64 32 none)) (fun t =>
    (getClu t 5).ops == [] && at_ t 32 3 == [9, 8, 0]) = true := by decide +kernel
theorem test_dmap_end : doesIt (.operationComplete 5 1 ⟨1, 0, []⟩) (inDma (put (ranCtx []) 32 [9, 8]) (.dmap 32 64 32 none)) (fun t =>
    (getClu t 5).ops == [] && devAt t 64 3 == [9, 8, 0]) = true := by decide +kernel
def sDg : State := inDma (dev (ranCtx []) 64 [9, 8]) (.dmag 32 64 32 none)
def sDp : State := inDma (put (ranCtx []) 32 [9, 8]) (.dmap 32 64 32 none)
theorem wit_dma_end : runItems sDg 3 = [] ∧ tenWaits sDg 0 64 32 = false ∧ tenOk sDp 0 64 32 = true ∧ mailboxes sDp 0 = [] ∧
    sees .b 0 64 32 ([9, 8] ++ List.replicate 30 0) sDg (asked .b 0 64 32 sDg) ∧
    (spadRead sDp 5 .dma (partBase sDp 5 1 + 32) 32).2 = ([9, 8] ++ List.replicate 30 0, [false]) ∧
    onlyClu 5 sDp (spadRead sDp 5 .dma (partBase sDp 5 1 + 32) 32).1 :=
  ⟨by decide +kernel, by decide +kernel, by decide +kernel, by decide +kernel, sees_of (by decide +kernel), by decide +kernel,
    onlyClu_of (by decide +kernel)⟩

/-- Tile 32,767 of cluster 5 reloads from stack 0, address 4,096. -/
def sRel (b : Option Nat) : State :=
  { State.reset with cl.tiles := [(5 * 32768 + 32767, ⟨.reloading, b, none, none⟩)], mem.dev := memPut [] 4096 [7, 0, 8] }
theorem wit_reload : tileWaiters (sRel (some 4096)) 5 32767 = [] ∧ tabSorted (sRel (some 4096)).cl.tiles = true ∧
    physOk 4096 = true ∧ stackFailed (sRel (some 4096)) (stackOf 4096) = false ∧ cwMarked (sRel (some 4096)) 4096 4096 = false ∧
    stackWaits (sRel (some 4096)) (stackOf 4096) = false ∧ Memory.wf (sRel (some 4096)).cl.wst = true := by
  decide +kernel
theorem test_reload : doesIt (.weightReloadDone 5 ⟨32767, 1, []⟩) (sRel (some 4096)) (fun t => getTile t 5 32767 == ⟨.resident, some 4096, none, none⟩ &&
    ctr t (cluAddr 5 oWstReload) == 1 && ctr t (cluAddr 5 oFabCorr) == 1) = true := by decide +kernel
theorem test_reload_words : doesIt (.weightReloadDone 5 ⟨32767, 0, [3]⟩) (sRel (some 4096)) (fun t => getTile t 5 32767 == tileReset &&
      ctr t (cluAddr 5 oFabUncorr) == 1) = true ∧
    doesIt (.weightReloadDone 5 ⟨32767, 0, []⟩) { State.reset with cl.tiles := [(5 * 32768 + 32767, ⟨.reloading, some 4096, none,
      some (leBytes 4096 9, false)⟩)] } (fun t => getTile t 5 32767 == ⟨.resident, some 4096, none, none⟩ &&
      memBytes t.cl.wst (wstKey 5 (4096 * 32767)) 2 == [9, 0]) = true := by decide +kernel
theorem test_reload_fail : doesIt (.weightReloadFail 5 32767) (sRel none) (fun t => getTile t 5 32767 == tileReset) = true := by
  decide +kernel

/-! ### A cluster's housekeeping -/

/-- The highest word of cluster 1,535 is a dirty gather entry with two enabled bytes. -/
def ent9 : GEnt := ⟨2 ^ 20 - 1, 5, [7, 8, 9] ++ List.replicate 29 0, true⟩
def sGat : State := modClu State.reset 1535 (fun k => { k with gather := [ent9] })
theorem wit_gather : gatherEnt sGat 1535 (2 ^ 20 - 1) = some ent9 ∧ cluRuns sGat 1535 = true ∧ wordPoi sGat 1535 (2 ^ 20 - 1) = false ∧
    tabGet 0 sGat.cl.spadErr (wordKey 1535 (2 ^ 20 - 1)) = 0 ∧ sGat.memOk = true := by decide +kernel
theorem test_writeback : doesIt (.gatherWriteback 1535 (2 ^ 20 - 1)) sGat (fun t => memBytes t.cl.spad (spadKey 1535 (2 ^ 25 - 32)) 4 ==
    [7, 0, 9, 0] && gatherEnt t 1535 (2 ^ 20 - 1) == some { ent9 with dirty := false, en := 0 }) = true := by decide +kernel

/-- Slot 1 of cluster 5 releases panels 14 and 15. -/
def sRls : State := modSlot State.reset 5 1 (fun k => { k with pvalid := true, pbase := 14, pcount := 2, releasing := true })
theorem test_partition_fence : doesIt (.partitionFence 5 1) sRls (fun t => (getClu t 5).fence == 0xC000 && (getClu t 5).scrubQ ==
    [(14, 2)] && (getSlot t 5 1).pvalid == false && (getSlot t 5 1).releasing == false) = true := by decide +kernel
def sFen : State := { modClu State.reset 5 (fun k => { k with scrubQ := [(15, 1)], fence := 0x8001 }) with
  cl.spad := [(spadKey 5 (2 ^ 21 * 15), 3), (spadKey 6 0, 4)], cl.spadPoi := [(wordKey 5 (2 ^ 20 - 1), 1)] }
theorem test_scrub_done : doesIt (.scrubDone 5) sFen (fun t => (getClu t 5).fence == 1 && (getClu t 5).scrubQ == [] &&
    t.cl.spad == [(spadKey 6 0, 4)] && t.cl.spadPoi == []) = true := by decide +kernel

def sHel : State := modClu State.reset 5 (fun k => { k with accHeld := [(254, 7), (255, 0x40)], ops := [{ op3 with ent := some 7 }] })
theorem wit_lines : tabFind (getClu sHel 5).accHeld 255 = some 0x40 ∧ (∀ o ∈ (getClu sHel 5).ops, o.ent ≠ some 0x40) := by
  decide +kernel
theorem test_lines_free : idle (.accordLinesFree 5 254) sHel = true := by decide +kernel
def sLb : State := modClu State.reset 5 (fun k => { k with lb := [⟨0, 1, 2, 3, 4⟩, ⟨3, 1, 2, 3, 4⟩] })
theorem test_kv_inval : doesIt (.kvInval 0 5 8) sLb (fun t => (getClu t 5).lb == [⟨0, 1, 2, 3, 4⟩]) = true := by decide +kernel
theorem test_seed : slotCtx State.reset 5 3 = none ∧ doesIt (.seedWrite 0 5 3 (2 ^ 64 - 1)) State.reset (fun t =>
    (getSlot t 5 3).seedPend == some 0xFFFF_FFFF_FFFF_FFFF && (getSlot t 5 3).seed == 0) = true ∧ doesIt (.seedApply 5 3)
    (modSlot State.reset 5 3 (fun k => { k with seedPend := some 9, rng := [(0, 4)] })) (fun t =>
      (getSlot t 5 3).seed == 9 && (getSlot t 5 3).rng == [] && (getSlot t 5 3).seedPend == none) = true := by decide +kernel
/-- Slot 1 belongs to function 0, whose ephemeris ring of 64 units lies at host address 4,096 and is about to wrap. -/
def sSeed : State :=
  modFunc { ranCtx [] with regs := [(tenAddr 0 oEphCfg, 0x8000_0006), (tenAddr 0 oEphAddr, 0x1000)] } 0
    (fun k => { k with ephHead := 2 ^ 32 - 1, ephTail := 2 ^ 32 - 1 })
theorem wit_seed : slotReach sSeed 0 5 1 = true ∧ slotCtx sSeed 5 1 = some ctx0 ∧ bitB (tenReg sSeed 0 oEphCfg) 31 = true ∧
    bitB (tenReg sSeed 0 oEphCfg) 29 = false ∧ dmaHeld sSeed 0 = false ∧ (getFunc sSeed 0).ephDropped = 0 ∧
    2 ≤ ephSize sSeed 0 - sub32 (getFunc sSeed 0).ephTail (getFunc sSeed 0).ephHead := by decide +kernel
theorem test_seed_record : doesIt (.seedWrite 0 5 1 7) sSeed (fun t => (getSlot t 5 1).seedPend == some 7 && (getFunc t 0).ephTail == 1 &&
    memBytes t.host 0x1000 9 == [5, 0, 1, 0, 0, 0, 0, 0, 7]) = true := by decide +kernel
def sSto (n : Nat) : State := { modClu State.reset 5 (fun k => { k with fbWin := n, gateNo := 8 }) with
  regs := [(cluAddr 5 oPrecCtl, 3)] }
theorem test_storm : wideReach (sSto 3) 0 5 = true ∧ doesIt (.stormWindowEnd 5) (sSto 3) (fun t => ctr t (cluAddr 5 oStorm) == 1 &&
    (getClu t 5).fbWin == 0) = true ∧ doesIt (.stormWindowEnd 5) (sSto 2) (fun t => ctr t (cluAddr 5 oStorm) == 0) = true ∧
    doesIt (.precCtlWrite 0 5 0x1_0000_0002) (sSto 3) (fun t => reg t (cluAddr 5 oPrecCtl) == 2 && (getClu t 5).gateNo == 1) = true := by
  decide +kernel

/-! ### Transfers -/

def way0 : Way := { cls := .b, path := [], hops := [], left := 0, lost := 0 }
def xWr : Xfer := ⟨4, .write, none, 0, some 1, 5, 1, [(2 ^ 21 - 2, [8, 9], false)], none, none, way0, none⟩
def xSig : Xfer := ⟨4, .sig, none, 0, some 1, 5, 1, [], some 31, none, way0, none⟩
def sXf (x : Xfer) : State := { ranCtx [] with hub.xfers := [x] }
theorem wit_transfer : findXfer (sXf xWr) 4 = some xWr ∧ noReach (sXf xWr) 5 = false ∧ selectCtx (sXf xWr) 0 (some 1) 5 1 = some ctx0 ∧
    partSize (sXf xWr) 5 1 = 2 ^ 21 ∧ boundClu (sXf xWr) 5 = 5 := by decide +kernel
theorem test_transfer : doesIt (.transferArrival 4 [] []) (sXf xWr) (fun t => t.hub.xfers == [] && seen t (2 ^ 21 - 2) 2 == [8, 9] &&
    storedB 5 { sXf xWr with hub.xfers := [] } (spadWrite (sXf xWr) 5 .link (partBase (sXf xWr) 5 1 + 2 ^ 21 - 2) [8, 9] false).1 t) &&
    doesIt (.transferArrival 4 [] []) (sXf xSig) (fun t => t.hub.xfers == [] && tabGet 0 (getSlot t 5 1).ac 31 == 1) = true := by
  decide +kernel
/-- A RED of one word for the context, resident and swapped out; one of another module that waits for an earlier one; two transfers
at one output; and a write that an operation of slot 1 sent. -/
def one4 : List Byte := leBytes 4 0x3F800000
def xRed : Xfer := { xWr with kind := .red 0, data := [(32, one4, false)] }
def sRd : State := put (sXf xRed) 32 one4
def rd2 : State := (spadRead sRd 5 .link (partBase sRd 5 1 + 32) 4).1
def ctxOut : Ctx := { ctx0 with resident := false, saveAt := 2 ^ 20, saved := some slotReset }
def sOut (x : Xfer) : State := { State.reset with hub.xfers := [x], hub.ctxs := [ctxOut], hub.regions := [(3, rgn3)], mem.dev := memPut [] (2 ^ 20 + 32) one4 }
theorem wit_transfer_red : splitWords 32 one4 = [(32, one4)] ∧ onlyClu 5 sRd rd2 ∧
    (spadRead sRd 5 .link (partBase sRd 5 1 + 32) 4).2 = (one4, [false]) ∧ selectCtx (sOut xSig) 0 (some 1) 5 1 = some ctxOut ∧
    stackWaits (sOut xRed) (stackOf ctxOut.saveAt) = false ∧ stackOf (2 ^ 20 + 36) = stackOf (2 ^ 20) ∧ stacksSound (sOut xRed) :=
  ⟨by decide +kernel, onlyClu_of (by decide +kernel), by decide +kernel, by decide +kernel, by decide +kernel, by decide +kernel,
    ⟨rfl, rfl, fun _ => ⟨rfl, rfl⟩⟩⟩
theorem test_transfer_red : doesIt (.transferArrival 4 [] []) sRd (fun t => t.hub.xfers == [] && seen t 32 4 == leBytes 4 0x40000000) = true ∧
    doesIt (.transferArrival 4 [] []) (sOut xRed) (fun t => memBytes t.mem.dev (2 ^ 20 + 32) 4 == leBytes 4 0x40000000) = true ∧
    doesIt (.transferArrival 4 [] []) (sOut { xWr with data := [(32, [9], false)] }) (fun t =>
      memBytes t.mem.dev (2 ^ 20 + 32) 2 == [9, 0]) = true ∧
    doesIt (.transferArrival 4 [] []) (sOut xSig) (fun t => t.hub.ctxs.map (fun y => y.saved.map (fun k => tabGet 0 k.ac 31)) ==
      [some 1]) = true := by decide +kernel
def xEack : Xfer := { xRed with eack := some (9, 3, 0, 0) }
def sTwo : State := { ranCtx [] with hub.xfers := [{ xEack with id := 3 }, xEack] }
def hop : Hop := ⟨7, 0, 4⟩
def xHop (k : Cls) (n : Nat) : Xfer := { xWr with id := n, way := { way0 with cls := k, hops := [hop] } }
theorem test_transfer_waits : redWaits sTwo xEack = true ∧ idle (.transferArrival 4 [] []) sTwo = true ∧
    servedFirst [xHop .b 4, xHop .u 5] (xHop .b 4) = false ∧
    idle (.transferArrival 4 [] []) { ranCtx [] with hub.xfers := [xHop .b 4, xHop .u 5] } = true ∧
    doesIt (.transferArrival 4 [] []) { ranCtx [] with hub.xfers := [xSig] , hub.ctxs := [] } (fun t => t.hub.xfers == [] &&
      ctr t (cluAddr 5 oAcDrop) == 1) = true := by decide +kernel
def xOp : Xfer := { xWr with op := some (5, 1, 1) }
def sOp : State := { inFlight (ranCtx []) dSync (.sent 1 false) with hub.xfers := [xOp] }
theorem test_transfer_ack : findOp sOp 5 1 1 = some (opOf dSync (.sent 1 false)) ∧ doesIt (.transferArrival 4 [] []) sOp (fun t =>
    phIs t .done && t.hub.xfers == []) = true := by decide +kernel
def sNoR : State := modClu (sXf xSig) 5 (fun k => { k with lost := true, compOff := true })
theorem test_noreach : noReach sNoR (boundClu sNoR 5) = true ∧ doesIt (.switchNoreach ⟨4, [0], []⟩) sNoR (fun t => t.hub.xfers == [] &&
    ctr t aNoReach == 1 && ctr t (cluAddr 5 oFabCorr) == 1) = true := by decide +kernel

/-! ### Memory stacks -/

/-- The last codeword of stack 15, with its bytes and errors. -/
def pCw : Nat := 15 * 2 ^ 37 + 95999229888
def sCw (es : List (Nat × Nat)) (poi : Tab Nat) : State :=
  { State.reset with mem := { State.reset.mem with dev := memPut [] pCw [1, 2], devErr := if es = [] then [] else [(pCw / 64, es)], devPoi := poi } }
theorem wit_codeword : physOk pCw = true ∧ stackWaits (sCw [] []) (stackOf pCw) = false ∧ (getStack (sCw [] []) (stackOf pCw)).bad = [] ∧ physOk (pCw + 64) = false ∧ stackOf pCw = 15 ∧ (sCw [(0, 0x300), (9, 1)] []).memOk = true ∧
    cwClass [(0, 0x300), (9, 1)] = .corrected [(0, 0x300), (9, 1)] ∧ cwClass [(0, 1), (5, 1), (9, 1)] = .bad := by decide +kernel
theorem test_codeword_read : doesIt (.codewordRead pCw) (sCw [] []) (fun t => t == { sCw [] [] with mq := t.mq } && t.mq.length == 1) && doesIt (.codewordRead pCw) (sCw [(9, 1)] []) (fun t =>
    ctr t (stkAddr 15 0x8) == 1 && ctr t (stkAddr 15 0x18) == 2 ^ 63 + pseudoChannel 95999229888 * 2 ^ 57 + 9 * 2 ^ 51 + 63 * 2 ^ 45 +
      95999229888 && t.mem == (sCw [(9, 1)] []).mem) && doesIt (.codewordRead pCw) (sCw [(0, 1), (5, 1), (9, 1)] []) (fun t =>
    ctr t (stkAddr 15 0xC) == 1 && t.mem.devPoi == [(pCw / 64, 1)] && t.mem.devErr == [] && memBytes t.mem.dev pCw 2 == [0, 2]) = true := by
  decide +kernel
theorem test_patrol : doesIt (.patrolRead pCw) (sCw [(0, 0x300)] []) (fun t => memBytes t.mem.dev pCw 2 == [1, 2] &&
    t.mem.devErr == [] && ctr t (stkAddr 15 0x8) == 1) = true := by decide +kernel
theorem test_codeword_write : doesIt (.codewordWrite (pCw + 63) (List.replicate 64 7) true) (sCw [(0, 1)] []) (fun t =>
    memBytes t.mem.dev pCw 64 == List.replicate 64 7 && t.mem.devErr == [] && t.mem.devPoi == [(pCw / 64, 1)]) &&
    doesIt (.codewordWrite pCw (List.replicate 64 7) false) (sCw [] [(pCw / 64, 1)]) (fun t => t.mem.devPoi == []) = true := by
  decide +kernel
theorem test_partial_write : doesIt (.partialWrite (pCw + 62) [8, 9] false) (sCw [] []) (fun t =>
    memBytes t.mem.dev pCw 64 == [1, 2] ++ List.replicate 60 0 ++ [8, 9]) = true := by decide +kernel

def stk (k : Nat) (x : Stack) : State := modStack State.reset k (fun _ => x)
theorem test_stack_temp : doesIt (.stackTempRead 15 104) State.reset (fun t => (getStack t 15).temp == 104 && t.pow == State.reset.pow) &&
    doesIt (.stackTempRead 15 105) State.reset (fun t => t.pow.shut == some true && t.pow.thermTrip && !t.pow.pwrGood) = true := by
  decide +kernel
theorem wit_retrain : lanesAdd ([(63, false, 127), (63, false, 0), (0, true, 3)] ++ [(5, 2)].map symLane) [] =
    some [(0, 0x8300), (2, 0xA200_0000), (63, 0xFF80_0000)] := by decide +kernel
theorem test_retrain : doesIt (.stackRetrain 15) State.reset (fun t => getStack t 15 == { stackReset with st := .retrain }) &&
    doesIt (.stackRetrainDone 15 true [(63, false, 127), (63, false, 0), (0, true, 3)]) (stk 15 { stackReset with st := .retrain })
      (fun t => getStack t 15 == { stackReset with lanes := [(0, 0x8300), (63, 0xFF80_0000)] }) = true := by decide +kernel
def sHeld : State := { stk 15 { stackReset with st := .retrain } with mem.held := [⟨pCw, [7], false⟩] }
theorem test_retrain_held : stackOf pCw = 15 ∧ doesIt (.stackRetrainDone 15 true []) sHeld (fun t => getStack t 15 == stackReset &&
    t.mem.held == [] && memBytes t.mem.dev pCw 1 == [7]) = true := by decide +kernel
theorem test_stack_fail : (ranCtx []).hub.loads = [] ∧ doesIt (.stackFail 0) (ranCtx []) (fun t => (getStack t 0).st == .failed &&
    t.hub.reports.map (fun r => (r.f, r.code, r.clu, r.detail)) == [(0, cStackFailed, 0x7FF, 0)]) = true := by decide +kernel
def atom1 : Atom := ⟨.red 0, .b, [(96, 4)], leBytes 4 0x40000000, [], none, 0, none, 0, 0, none, none⟩
def sAtm : State := { State.reset with mem := { State.reset.mem with dev := memPut [] 96 (leBytes 4 0x3F800000), atoms := [(0, [atom1])] } }
theorem wit_atomic : tabGet [] sAtm.mem.atoms 0 = [atom1] ∧ stackWaits sAtm 0 = false ∧ stackOf (96 + 4) = stackOf 96 ∧ stackFailed sAtm 0 = false ∧ cwMarked sAtm 96 4 = false := by decide +kernel
theorem test_atomic : doesIt (.atomicApply ⟨0, []⟩) sAtm (fun t => memBytes t.mem.dev 96 4 == leBytes 4 0x40400000 &&
    tabGet [] t.mem.atoms 0 == []) = true := by decide +kernel
theorem test_atomic_poison : doesIt (.atomicApply ⟨0, [0]⟩) sAtm (fun t => t.mem.devPoi == [(1, 1)]) = true := by decide +kernel
theorem test_release_scrub : doesIt .releaseScrubDone { State.reset with mem := { State.reset.mem with dev := [(2 ^ 21 - 1, 1), (2 ^ 21, 2)], devPoi := [(1, 1)], scrub := [⟨0, 2 ^ 21⟩] } } (fun t => t.mem.scrub == [] && t.mem.dev == [(2 ^ 21, 2)] && t.mem.devPoi == []) = true := by decide +kernel
theorem test_save_prio : doesIt (.saveAreaWrite (2 ^ 63 - 1)) State.reset (fun t => reg t aSave == 2 ^ 40 - 1) &&
    doesIt (.saveAreaWrite 1) (ranCtx []) (fun t => t.mem.saveRefused && reg t aSave == reg (ranCtx []) aSave) &&
    doesIt (.prioWrite 0x0C0A0A) State.reset (fun t => reg t aPrio == 0x0C0A0A) && idle (.prioWrite 0x0C0A0B) State.reset = true := by
  decide +kernel

/-! ### Regions and losses -/

theorem test_rsv_count : doesIt (.rsvCountWrite 3) State.reset (fun t => t.hub.rsvCount == 3) && doesIt (.rsvCountWrite 1) (ranCtx [])
    (fun t => t.hub.rsvRefused && t.hub.rsvCount == 2) = true := by decide +kernel
/-- Cluster 5 holds contexts of functions 0 and 1. -/
def two : State := { ranCtx [] with hub.ctxs := [ctx0, { ctx0 with id := 1, f := 1, slot := 2 }] }
theorem test_share : doesIt (.shareWrite 5 true) (ranCtx []) (fun t => (getClu t 5).share) && idle (.shareWrite 5 false)
    (modClu two 5 (fun k => { k with share := true })) && doesIt (.shareWrite 5 false) (modClu (ranCtx []) 5 (fun k =>
      { k with share := true })) (fun t => !(getClu t 5).share) = true := by decide +kernel
/-- VALID, function 3, columns 47 to 47, rows 31 to 31. -/
def gr47 : Nat := 2 ^ 63 + 3 * 2 ^ 32 + 47 + 31 * 256 + 1 * 2 ^ 16 + 1 * 2 ^ 24
theorem test_grant : doesIt (.grantWrite 7 gr47) State.reset (fun t => t.hub.grantPend == [(7, BitVec.ofNat 64 gr47)]) &&
    doesIt (.grantWrite 6 gr47) { State.reset with hub.grants := [(7, BitVec.ofNat 64 gr47)] } (fun t => t.hub.grantRefused &&
      t.hub.grantPend == []) && doesIt .grantApply { State.reset with hub.grantPend := [(7, 5), (7, BitVec.ofNat 64 gr47)] }
      (fun t => grantAt t 7 == gr47 && t.hub.grantPend == []) = true := by decide +kernel
theorem test_abort : funcLive (ranCtx []) 0 ∧ doesIt (.rgnAbort 0 (2 ^ 31 + 3)) (ranCtx []) (fun t => getRegion t 3 ==
    some { rgn3 with degraded := true } && (getSlot t 5 1).cls == .b) = true := by unfold funcLive; decide +kernel
theorem test_cluster_lost : doesIt (.clusterLost 5) (ranCtx []) (fun t => (getClu t 5).lost && (getClu t 5).bypassPend &&
    (List.range 4).all (fun n => (getSlot t 5 n).st == .faulted) && (getRegion t 3).map (·.degraded) == some true &&
    t.hub.reports.map (fun r => (r.f, r.code, r.clu, r.deg)) == [(0, cClusterLost, 5, true)]) = true := by decide +kernel
def sTl : State := { State.reset with cl.tiles := [(1535 * 32768 + 4095, ⟨.resident, none, none, none⟩), (1535 * 32768 + 32767, ⟨.resident, none, none, none⟩)] }
theorem test_core_lost : regionsOn sTl (fun x => x == 1535) = [] ∧ doesIt (.coreLost 1535 7 0 0) sTl (fun t => (getClu t 1535).dead == [7] &&
    (getClu t 1535).lostSlice == some 7 && t.cl.tiles == [(1535 * 32768 + 4095, ⟨.resident, none, none, none⟩)]) = true ∧
    doesIt (.coreHeartbeatSample 1535 [0]) sTl (fun t => (getClu t 1535).lostSlice == some 0 &&
      t.cl.tiles == [(1535 * 32768 + 32767, ⟨.resident, none, none, none⟩)]) = true := by decide +kernel
theorem test_die_fence : dieUsed (ranCtx []) 0 = true ∧ dieUsed (ranCtx []) 23 = false ∧ (ranCtx []).hub.items = [] ∧
    (dieClusters 23).map (fun c => c % 48 ≥ 40 && c / 48 ≥ 24) = List.replicate 64 true ∧ dieStack 23 = some 15 ∧
    dieFuncs (ranCtx []) 0 = [0] ∧ (let t := fenceClu (ranCtx []) 5
      (getClu t 5).lost && (getClu t 5).stationOff && (List.range 4).all (fun n => (getSlot t 5 n).st == .faulted)) = true ∧
    doesIt (.dieFenceCmd (2 ^ 31)) (ranCtx []) (fun t => t.hub.fenceRefused && t.hub.fenced == []) = true := by decide +kernel

/-! ### The fault ring -/

def rep1 (k tick : Nat) : Report := ⟨0, k, 5, 1, 0, 0, 0, tick, 0, 3, false, 0, [], []⟩
def sFr (head tail : Nat) : State :=
  modFunc { State.reset with hub.reports := [rep1 0x0101 9, rep1 0x0401 8], regs := [(tenAddr 0 oFrCfg, 0x8000_0006), (tenAddr 0 oFrAddr, 0x1000)] }
    0 (fun k => { k with frHead := head, frTail := tail })
theorem wit_fault_ring : funcLive (sFr 0 0) 0 ∧ dmaHeld (sFr 0 0) 0 = false ∧ bitB (tenReg (sFr 0 0) 0 oFrCfg) 31 = true ∧
    bitB (tenReg (sFr 0 0) 0 oFrCfg) 5 = false ∧
    (sortBy reportLt ((sFr 0 0).hub.reports.filter (fun r => r.f == 0))).head? = some (rep1 0x0401 8) := by
  unfold funcLive; decide +kernel
theorem test_fault_record : doesIt (.faultRecordWrite 0) (sFr (2 ^ 32 - 1) 0) (fun t => t.hub.reports == [rep1 0x0101 9] &&
    memBytes t.host 0x1000 32 == faultBytes (rep1 0x0401 8) && (getFunc t 0).frTail == 1) &&
    doesIt (.faultRecordWrite 0) (sFr 0 (2 ^ ringLog 6)) (fun t => t.host == [] && (getFunc t 0).frovf &&
      ctr t (tenAddr 0 oFrLost) == 1) = true := by decide +kernel


/-! ### Ports -/

/-- Port 7 in a state. -/
def prt (p : Port) : State := modPort State.reset 7 (fun _ => p)
def pDisc : Port := { portReset with st := .discovery, groups := 3, credits := [5, 5, 5, 1] }
def pAct : Port := { pDisc with st := .active, pnode := 9, discSeen := true }
def pIs (t : State) (f : Port → Bool) : Bool := f (getPort t 7)

theorem wit_port : nth 0 (portWidths 7) (portMinw State.reset 7) ≤ groupCount 7 7 ∧ pickWidth State.reset 7 2 0 = some 1 ∧
    pickWidth State.reset 7 (groupCount 7 (soundGroups State.reset 7 0)) 0 = none ∧ portMinw (prt { pDisc with groups := 1 }) 7 ≤
    portWidth (prt { pDisc with groups := 1 }) 7 ∧ portWidth (prt pDisc) 7 < portMinw (prt pDisc) 7 := by decide +kernel
theorem test_signal : doesIt (.portSignalDetect 7 7) State.reset (pIs · (fun p => p.st == .training && p.seen == 7 && p.maxw == 0 &&
    p.credits == fullCredits)) && doesIt (.signalLoss 7) (prt pAct) (fun t => pIs t (fun p => p.st == .down && p.groups == 0) &&
    ctr t (portAddr 7 0x2C) == 1) && idle (.signalLoss 7) (prt { portReset with st := .disabled }) = true := by decide +kernel
theorem test_training : doesIt (.trainingTimeout 7) (prt { portReset with st := .training }) (pIs · (fun p => p.st == .down)) &&
    doesIt (.trainingDone 7 3) (prt { portReset with st := .training }) (pIs · (fun p => p.st == .discovery && p.groups == 2)) &&
    doesIt (.trainingDone 7 0) (prt { portReset with st := .training }) (pIs · (fun p => p.st == .down)) &&
    doesIt (.trainingRetry 7) State.reset (pIs · (fun p => p.st == .training)) = true := by decide +kernel
theorem test_narrower : doesIt (.laneLockLoss 7) (prt pDisc) (pIs · (fun p => p.st == .training && p.maxw == 1)) &&
    doesIt (.fecErrorLimit 7) (prt { pDisc with groups := 1 }) (pIs · (fun p => p.st == .down)) &&
    doesIt (.portRetrain 7) (prt pDisc) (pIs · (fun p => p.st == .training && p.maxw == 0)) = true := by decide +kernel
theorem test_port_enable : doesIt (.portDisable 7) (prt pDisc) (fun t => pIs t (fun p => p.st == .disabled) && !bitB (portCtl t 7) 0) &&
    doesIt (.portEnable 7) (prt { portReset with st := .disabled }) (fun t => pIs t (fun p => p.st == .down) && bitB (portCtl t 7) 0) =
    true := by decide +kernel

/-- A SIG message's only flit from node 9 to node 7, a time request, a discovery record. -/
def fSig : List Byte := mkFlit 7 0 1 true true false 7 9 0x1234 (leBytes 32 0) 0
def fAsk : List Byte := mkFlit 2 3 0 true true false 7 9 0 (tsyncPayload 77 false 1000 0 0) 0
def fDisc : List Byte := mkFlit 1 3 0 true true false 0xFFFF 9 0 (discPayload 0xABCD 7 3 true 1 3) 0
def onNode (s : State) : State := { s with lnk.node := 7 }
theorem wit_flit : flCrcOk fSig = true ∧ flKnown fSig = true ∧ flNak fSig = false ∧ flAckv fSig = false ∧ flCrcnt fSig = 0 ∧
    flLseq fSig = pAct.expect ∧ flType fSig = 7 ∧ waitsSlot (onNode State.reset) fSig = true ∧ portHears (prt pAct) 7 = true := by
  decide +kernel
theorem wit_flit2 : flCrcOk fAsk = true ∧ flKnown fAsk = true ∧ flType fAsk = 2 ∧ bitB (flitN (flPayload fAsk) 2 1) 0 = false ∧
    flCrcOk fDisc = true ∧ flKnown fDisc = true ∧ flType fDisc = 1 ∧ flCrcOk (fSig.set 200 1) = false := by decide +kernel
theorem test_flit_bad : doesIt (.flitReceive 7 (fSig.set 200 1)) (prt { pAct with heard := true }) (fun t => pIs t (fun p => p.nakAt == some 0 && p.expect == 0) &&
    t.out == [.flit 7 (idleFlit true true 65535 0 0)] && ctr t (portAddr 7 0xC) == 1) = true := by decide +kernel
theorem test_nak_again : doesIt (.flitReceive 7 (fSig.set 200 1)) { prt { pAct with nakAt := some 0 } with clock.ftc := 2000 } (fun t =>
    pIs t (fun p => p.nakAt == some 2000) && t.out.length == 1) && doesIt (.flitReceive 7 (fSig.set 200 1))
    { prt { pAct with nakAt := some 0 } with clock.ftc := 1999 } (fun t => pIs t (fun p => p.nakAt == some 0) && t.out == []) = true := by
  decide +kernel
theorem test_flit_good : doesIt (.flitReceive 7 fSig) (onNode (prt { pAct with unacked := 62 })) (fun t => getPort t 7 ==
    { pAct with expect := 1, unacked := 63, heard := true, rx := [fSig] }) && doesIt (.flitReceive 7 fAsk) { onNode (prt pAct) with clock.ftc := 5000 }
    (fun t => getPort t 7 == { pAct with expect := 1, unacked := 1, owed := [0, 0, 0, 1], heard := true, tsAsk := [(77, 1000, 5000)] }) = true := by
  decide +kernel
theorem test_disc_receive : doesIt (.discReceive 7 fDisc) (onNode (prt pDisc)) (fun t => pIs t (fun p => p.pser == 0xABCD &&
    p.pnode == 7 && p.pport == 3 && p.patrc && p.discSeen && p.expect == 1) && t.lnk.dup) = true := by decide +kernel
def pRep (r : Nat) : Port := { pAct with replay := [flSetLseq fSig 8, flSetLseq fSig 9], lseq := 10, rounds := r }
theorem wit_nak : ((pRep 7).replay.all (fun b => serial16Ge 7 (flLseq b) == false)) = true := by decide +kernel
theorem test_port_replay : doesIt (.nakReceive 7 7) (prt (pRep 7)) (fun t => t.out == [.flit 7 (flSetLseq fSig 9), .flit 7 (flSetLseq fSig 8)] &&
    getPort t 7 == pRep 8 && ctr t (portAddr 7 0x28) == 2) && doesIt (.replayTimeout 7) (prt (pRep 8)) (fun t =>
    pIs t (fun p => p.st == .down && p.replay == []) && t.out == []) && doesIt (.replayTimeout 7) (prt (pRep 0)) (fun t =>
    getPort t 7 == pRep 1) = true := by decide +kernel
theorem test_ack_credit : doesIt (.ackTimer 7) (prt { pAct with unacked := 1, expect := 6 }) (fun t => t.out ==
    [.flit 7 (idleFlit true false 5 0 0)] && pIs t (fun p => p.unacked == 0)) && doesIt (.creditReturnTimer 7)
    (prt { pAct with owed := [0, 4095, 0, 1] }) (fun t => t.out == [.flit 7 (idleFlit false false 0 3 1),
      .flit 7 (idleFlit false false 0 1 4095)] && pIs t (fun p => p.owed == [0, 0, 0, 0])) = true := by decide +kernel
theorem test_disc_send : doesIt (.discSend 7) (prt { pDisc with lseq := 65535 }) (fun t => t.out ==
    [.flit 7 (flSetLseq (discFlit (prt pDisc) 7) 65535)] && pIs t (fun p => p.lseq == 0 && p.credits == [5, 5, 5, 0] &&
      p.replay.length == 1)) = true := by decide +kernel

/-! ### Nodes and messages -/

theorem test_node : doesIt (.nodeAssign 0xFFFE) { State.reset with lnk := { State.reset.lnk with epoch := 255, aseq := [(9, 5)] } }
    (fun t => t.lnk.node == 0xFFFE && t.lnk.epoch == 0 && nextAseq t 9 == 1) && idle (.nodeAssign 8) (onNode State.reset) &&
    doesIt .nodeUnassign { onNode State.reset with lnk.dedup := [(9, dedupReset)] } (fun t => t.lnk.node == 0xFFFF &&
      t.lnk.dedup == []) = true := by decide +kernel

/-- A message of an operation to node 9 by port 0, which is ACTIVE; it is unsent, or sent with number 41. -/
def msg1 (sent : Bool) : Msg :=
  { id := 3, ty := .sig, owner := .op 5 1 1, f := 0, dnode := 9, cls := .i, src := .bytes [], tkind := 0, fmt := 0, rop := 0, tclu := 900
    tslot := 2, ctr := some 31, addr := 0, dim := 0, xfer := 0, final := true, sent := sent, aseq := if sent then 41 else 0
    epoch := 0, sftc := 0, mtag := 0, port := 8 }
def opSent : Op := opOf dSync (.sent 1 false)
def sMsg (sent : Bool) : State :=
  let s := routed9 (inFlight (ran []) dSync (.sent 1 false))
  { modPort s 0 (fun _ => { pAct with credits := fullCredits, groups := 6 }) with
    lnk.msgs := [msg1 sent], lnk.aseq := [(9, 41)], lnk.mtag := 65535 }
theorem wit_message : sendReady (sMsg false) (msg1 false) = true ∧ noRoute (sMsg false) 0 9 = false ∧ routePort (sMsg false) 9 = some 0 ∧
    msgWaits (sMsg false) (msg1 false) = false ∧ sentMsg (sMsg true) 9 41 = some (msg1 true) ∧ findOp (sMsg true) 5 1 1 = some opSent ∧ slotCtx (sMsg true) 5 1 = none := by
  decide +kernel
theorem test_message_send : doesIt (.messageSend 3) (sMsg false) (fun t => nextAseq t 9 == 42 && t.lnk.mtag == 0 && t.lnk.msgs ==
    [{ msg1 true with port := 0 }] && (getPort t 0).replay.map (fun b => (flType b, flDnode b, flitN (flPayload b) 20 4)) == [(7, 9, 41)]) =
    true := by decide +kernel
theorem test_message_end : doesIt (.eackReceive 9 41 0 0) (sMsg true) (fun t => t.lnk.msgs == [] && phIs t .done) &&
    doesIt (.messageResend 9 41) (sMsg true) (fun t => t.lnk.msgs == [{ msg1 true with port := 0, mtag := 1 }] && t.lnk.mtag == 1 && ctr t aMsgResend == 1) &&
    doesIt (.messageLost 9 41) (sMsg true) (fun t => t.lnk.msgs == [] && stIs t .faulted && findOp t 5 1 1 == none &&
      ctr t aMsgLost == 1) = true := by decide +kernel

/-- The same message of an operation of a slot with a context of region 3. -/
def sLost : State := { sMsg true with cl := (inFlight (ranCtx []) dSync (.sent 1 false)).cl, hub := (ranCtx []).hub }
theorem wit_message_lost : slotCtx sLost 5 1 = some ctx0 ∧ faultItems sLost 3 = [] ∧ sentMsg sLost 9 41 = some (msg1 true) ∧
    findOp sLost 5 1 1 = some opSent := by decide +kernel
theorem test_message_lost : doesIt (.messageLost 9 41) sLost (fun t => findOp t 5 1 1 == none && t.hub.reports.map (fun r =>
    (r.code, r.clu, r.slot, r.ticket, r.detail)) == [(0x0901, 5, 1, 1, 9 * 2 ^ 32 + 41)]) = true := by decide +kernel

/-- A copy of a WRITE of 4 bytes to slot 1 of cluster 5 with tag 0x55 and number `a`, sent when FTC was `ftc`. -/
def copy1 (epoch a ftc : Nat) : Reasm :=
  { snode := 9, mtag := 1, ty := 3, cls := 0, atr := false
    payload := leBytes 2 0 ++ leBytes 2 (5 + 2048) ++ leBytes 1 0 ++ leBytes 1 epoch ++ leBytes 2 0x55 ++ leBytes 8 0x40 ++ leBytes 4 4 ++
      leBytes 4 a ++ leBytes 4 ftc ++ leBytes 4 0 ++ [1, 2, 3, 4]
    poison := [], whole := true, port := 0 }
def sCop (r : Reasm) : State :=
  let s := routed9 (ranCtx [])
  { s with lnk.reasm := [r], lnk.dedup := [(9, ⟨2, 4096, [4096]⟩)], clock.ftc := 999999 }
theorem wit_copy : (rmsgOf (copy1 2 1 0)).isSome = true ∧ tagFunc (sCop (copy1 2 1 0)) 0x55 = some 0 ∧
    dedupEpoch ⟨2, 4096, [4096]⟩ 1 = none ∧ dedupHit ⟨2, 4096, [4096]⟩ 1 = false ∧ dedupHit ⟨2, 4096, [4096]⟩ 0 = true ∧
    (selectCtx (sCop (copy1 2 1 0)) 0 none 5 1).isSome = true := by decide +kernel
theorem test_deliver : doesIt (.messageDeliver 9 1) (sCop (copy1 2 1 0)) (fun t => t.lnk.reasm == [] && t.hub.xfers.map (fun x =>
    (x.kind, x.tclu, x.tslot, x.data, x.eack)) == [(.write, 5, 1, [(0x40, [1, 2, 3, 4], false)], some (9, 1, 2, 0))] &&
    (dedupOf t 9).seen == [1, 4096]) && doesIt (.messageDeliver 9 1) (sCop (copy1 2 1 (2 ^ 32 - 1))) (fun t => t.hub.xfers == [] &&
    t.lnk.reasm == [] && ctr t aRxAged == 1) && doesIt (.messageDeliver 9 1) (sCop (copy1 1 1 0)) (fun t => t.hub.xfers == [] &&
    ctr t aRxEpoch == 1) = true := by decide +kernel
theorem test_reassembly : doesIt (.reassemblyStart 7) (onNode (prt { pAct with rx := [fSig] })) (fun t => pIs t (fun p => p.rx == [] &&
    p.owed == [1, 0, 0, 0]) && t.lnk.reasm.map (fun r => (r.snode, r.mtag, r.ty, r.payload.length, r.whole, r.port)) ==
    [(9, 0x1234, 7, 32, true, 7)]) && doesIt (.reassemblyTimeout 9 1) (sCop { copy1 2 1 0 with whole := false }) (fun t =>
      t.lnk.reasm == []) && idle (.reassemblyTimeout 9 1) (sCop (copy1 2 1 0)) = true := by decide +kernel

/-! ### The fabric time counter -/

def clk (f : Clock → Clock) : State := { State.reset with clock := f State.reset.clock }
def ftcCtl (s : State) (v : Nat) : State := setReg s aFtcCtl v
theorem test_period_end : doesIt .ftcPeriodEnd (clk (fun k => { k with tick := 1023, res := 1, ftc := 7 })) (fun t => t.clock.ftc == 9 &&
    t.clock.res == 0 && t.clock.tick == 0) && doesIt .ftcPeriodEnd (clk (fun k => { k with tick := 1023, res := -1, ftc := 7 }))
    (fun t => t.clock.ftc == 7 && t.clock.res == 0) && doesIt .ftcPeriodEnd (clk (fun k => { k with tick := 1023, ftc := 7 }))
    (fun t => t.clock.ftc == 8) = true := by decide +kernel
def pul (raw ftc : Nat) : State := clk (fun k => { k with raw := raw, lastPulse := some 0, ftc := ftc, near := 3 })
theorem wit_pulse : pulseGood (pul 1000100 0).clock = true ∧ pulseGood (pul 1000101 0).clock = false ∧
    ftcMode (ftcCtl State.reset (2 ^ 30)) = 1 ∧ ftcMode (ftcCtl State.reset (2 ^ 31)) = 2 := by decide +kernel
theorem test_pulse : idle .syncPulse (clk (fun k => { k with holdover := true })) && doesIt .syncPulse (pul 1000101 0) (fun t =>
    t.clock.pulseErr && t.clock.lastPulse == some 1000101) && doesIt .syncPulse (setReg (pul 1000000 5) aFtcArm (2 ^ 63 + 44)) (fun t =>
    t.clock.ftc == 44 && reg t aFtcArm == 44) && doesIt .syncPulse (ftcCtl (pul 1000000 1999998) (2 ^ 30)) (fun t => t.clock.res == 2 &&
    t.clock.lock && t.clock.near == 4 && t.clock.ftc == 1999998) && doesIt .syncPulse (ftcCtl (pul 1000000 101) (2 ^ 30)) (fun t =>
    t.clock.res == -101 && t.clock.loss && t.clock.near == 0) = true := by decide +kernel
theorem test_ftc_step : doesIt .ftcStep (clk (fun k => { k with ftc := 100000, step := some (-70000), res := 5 })) (fun t =>
    t.clock.ftc == 30000 && t.clock.res == 0 && t.clock.step == none) && doesIt .ftcSyncTimeout (ftcCtl (clk (fun k => { k with lock := true })) (2 ^ 31)) (fun t => !t.clock.lock && t.clock.loss) = true := by decide +kernel
theorem test_reference : doesIt .referenceLoss State.reset (fun t => t.clock.refLoss && t.clock.holdover) && doesIt .holdoverExit
    (clk (fun k => { k with holdover := true, refLoss := true })) (fun t => !t.clock.holdover && t.clock.refLoss) = true := by decide +kernel

/-- The flits that have left, by port. Port 7 follows; HUB_FTC_CTL in LINK mode by port 7, DMAX 1, STEP 1. -/
def flits (t : State) : List (Nat × List Byte) :=
  t.out.flatMap (fun o => match o with | .flit n b => [(n, b)] | _ => [])
def pTs : Port := { pAct with tseq := 3, tsOpen := true }
def sTs (p : Port) : State :=
  { setReg (ftcCtl (prt p) (2 ^ 31 + 7 * 2 ^ 24 + 2 ^ 16 + 1)) (portAddr 7 0) 0x89 with clock := { clockReset with ftc := 500 } }
theorem wit_tsync : portFollows (sTs pAct) 7 = true ∧ ftcMode (sTs pAct) = 2 ∧ ftcPort (sTs pAct) = 7 ∧ ftcDmax (sTs pAct) = 1 ∧
    ftcStepOk (sTs pAct) = true ∧ 0 < nth 0 (getPort (sTs pAct) 7).credits 3 := by decide +kernel
theorem test_tsync : doesIt (.tsyncRequest 7) (sTs { pAct with tseq := 65535 }) (fun t => (getPort t 7).tseq == 0 &&
    (getPort t 7).t1 == 500 && (getPort t 7).tsOpen && (flits t).map (fun x => (x.1, flType x.2, flitN (flPayload x.2) 8 8)) == [(7, 2, 500)]) && doesIt (.tsyncAnswer 7) (sTs { pAct with tsAsk := [(3, 10, 20), (4, 11, 21)] }) (fun t =>
    (getPort t 7).tsAsk == [(4, 11, 21)] && (flits t).map (fun x => let b := flPayload x.2; (flitN b 0 2, flitN b 2 1, flitN b 8 8, flitN b 16 8, flitN b 24 8)) == [(3, 1, 10, 20, 500)]) = true := by
  decide +kernel
theorem test_tsync_response : doesIt (.tsyncResponse 7 3 100 103 103 104) (sTs pTs) (fun t =>
    (getPort t 7).theta == 1 && (getPort t 7).delta == 2 && t.clock.res == 1 && t.clock.near == 1) && doesIt
    (.tsyncResponse 7 3 100 131186 131186 100) (sTs pTs) (fun t => t.clock.step == some 131086 &&
    t.clock.loss && (getPort t 7).delta == 0) && doesIt (.tsyncResponse 7 3 100 97 97 98) (ftcCtl (prt pTs) 0) (fun t => (getPort t 7).theta == 2 ^ 64 - 2 && t.clock == clockReset) = true := by decide +kernel

/-! ### Traces and the ephemeris ring -/

/-- EN, ring of 64 records, stamps every period, at context address 2,048. -/
def trcV : Nat := 2 ^ 63 + 6 * 2 ^ 56 + 2 ^ 48 + 2048
theorem test_trace_enable : trcFits (ran []) 5 1 (trcV &&& trcMask) = true ∧ trcFits (ran []) 5 1 ((trcV + 32) &&& trcMask) = false ∧
    doesIt (.traceEnable 0 5 1 trcV) (ran []) (fun t => reg t (cluAddr 5 (oTrcCfg 1)) == trcV && (getSlot t 5 1).trc.stampDue) = true ∧
    doesIt (.traceEnable 0 5 1 (trcV + 32)) (setReg (ran []) (cluAddr 5 (oTrcCfg 1)) trcV) (fun t => reg t (cluAddr 5 (oTrcCfg 1)) ==
      trcV - 2 ^ 63) = true := by decide +kernel
def sRec : State :=
  { modClu (modSlot (setReg (ran []) (cluAddr 5 (oTrcCfg 1)) trcV) 5 1 (fun k => { k with trc := { k.trc with tail := 127, head := 127, traffic := true } }))
      5 (fun k => { k with trcBuf := [⟨1, List.replicate 32 3⟩] }) with clock.ftc := 77 }
theorem wit_record : cluRuns sRec 5 = true ∧ trcOn sRec 5 1 = true ∧ trcRoom sRec 5 1 1 = true ∧ slotReach sRec 0 5 1 = true ∧
    trcFits sRec 5 1 (cluReg sRec 5 (oTrcCfg 1)) = true ∧ (∀ x, x < 4 → (getSlot sRec 5 x).trc.owed = []) := by
  decide +kernel
theorem test_record : doesIt (.traceRingWrite 5) sRec (fun t => at_ t (2048 + 63 * 32) 32 == List.replicate 32 3 && (getClu t 5).trcBuf ==
    [] && (getSlot t 5 1).trc.tail == 128) && doesIt (.traceStamp 5 1) sRec (fun t => (getClu t 5).trcBuf.map (fun r => (r.bytes.take 1,
    (r.bytes.drop 8).take 8)) == [([3], List.replicate 8 3), ([0x11], leBytes 8 77)] && !(getSlot t 5 1).trc.traffic) = true := by
  decide +kernel
/-- With the ring one record further it would end behind the partition. -/
def sOff : State := setReg sRec (cluAddr 5 (oTrcCfg 1)) (trcV + 2 ^ 21 - 2048)
theorem test_misplaced : trcFits sOff 5 1 (cluReg sOff 5 (oTrcCfg 1)) = false ∧ doesIt (.traceRingWrite 5) sOff (fun t =>
    t.cl.spad == [] && (getClu t 5).trcBuf == [] && (getSlot t 5 1).trc.tail == 127) = true := by decide +kernel
def sEph (v : Nat) : State := modFunc (setReg State.reset (tenAddr 0 oEphCfg) v) 0 (fun k => { k with ephHead := 3, ephTail := 4 })
theorem test_eph : doesIt (.ephEnable 0 0x8005_000A) (sEph 0) (fun t => tenReg t 0 oEphCfg == 0x8005_000A && (getFunc t 0).ephTail == 0) &&
    doesIt (.ephEnable 0 9) (sEph 0x8005_000A) (fun t => tenReg t 0 oEphCfg == 0x5_000A && (getFunc t 0).ephTail == 4) = true := by
  decide +kernel

/-! ### Eclipse -/

def ecl (e : EclSt) (t ftc : Nat) : State :=
  { setReg (setReg State.reset aEclT 20007) aEclRt 20007 with ecl := { eclReset with st := e, t := t, rt := t }, clock := { clockReset with ftc := ftc } }
theorem test_ecl_arm : doesIt .eclArm (ecl .idle 0 7) (fun t => t.ecl.st == .armed && t.ecl.t == 20007) && doesIt .eclArm (ecl .idle 0 8)
    (fun t => t.ecl.refused && t.ecl.st == .idle) && doesIt .eclCancel (ecl .armed 5 0) (fun t => t.ecl.st == .idle) = true := by
  decide +kernel
theorem wit_ecl_stop : openReloads (ecl .stopping 15 16) = [] ∧ openCopies (ecl .stopping 15 16) = [] ∧ dmaOps (ecl .stopping 15 16) = [] ∧
    15 < 16 * eventTick (ecl .stopping 15 16) := by decide +kernel
theorem test_ecl_resume : doesIt .eclResume (ecl .stopped 5 7) (fun t => t.ecl.st == .resuming && t.ecl.rt == 20007) &&
    doesIt .eclResume (ecl .stopped 5 8) (fun t => t.ecl.refused && t.ecl.st == .stopped) = true := by decide +kernel
theorem test_ecl_stop : doesIt .eclipseStop (ecl .armed 5 5) (fun t => t.ecl.st == .stopping && !cluRuns t 5) && idle .eclipseStop
    (ecl .armed 5 4) && doesIt .eclipseStopped (ecl .stopping 15 16) (fun t => t.ecl.st == .stopped) = true := by decide +kernel
def sResu : State := { ecl .resuming 9 9 with ecl := { eclReset with st := .resuming, t := 5, rt := 9 }, lnk.msgs := [{ msg1 true with sftc := 2 }] }
theorem wit_restart : ((List.range Config.ports).all (fun n => (getPort sResu n).rx == [])) = true := by decide +kernel

/-! ### The split and context switches -/

def split (v sU sN q : Nat) : State := modClu (setReg State.reset (cluAddr 5 oSplit) v) 5 (fun k => { k with sumU := sU, sumN := sN, quiet := q })
/-- AUTO, DMAX 4, DMIN 1, thresholds D_U 2 and W 1. -/
def spV (dec : Nat) : Nat := 2 ^ 31 + 2 ^ 24 + 2 * 2 ^ 16 + 4 * 2 ^ 8 + 1 * 2 ^ 4 + dec
theorem test_split : doesIt (.splitWindowEnd 5) (split 3 5 6 2) (fun t => getClu t 5 == { cluReset with sumU := 0, sumN := 0, quiet := 3 }) &&
    doesIt (.splitWindowEnd 5) (split (spV 3) 1250 0 0) (fun t => bits (cluReg t 5 oSplit) 2 0 == 4 && ctr t (cluAddr 5 oSplitChg) == 1) &&
    doesIt (.splitWindowEnd 5) (split (spV 2) 0 625 0) (fun t => bits (cluReg t 5 oSplit) 2 0 == 1 && (getClu t 5).quiet == 0) = true := by
  decide +kernel

/-- Context 1 is swapped out, its RUN under way; it claims slot 1 of cluster 5. -/
def out1 : Ctx :=
  { ctx0 with id := 1, region := 4, resident := false, want := true, saved := some { slotWith [(1, 6)] with pvalid := false, pbase := 0, pcount := 0, pc := 7 }
              saveAt := 2 ^ 22 }
def run4 : Item := { id := 9, f := 0, q := 0, pos := 0, desc := leBytes 64 0, st := .running, region := 4, num := 0, entry := 0, step := 0, took := 0, logged := false, frec := false, moved := 0 }
def sSw (ctxs : List Ctx) : State :=
  let s := ranCtx []
  { s with hub := { s.hub with ctxs := ctxs, regions := [(3, rgn3), (4, rgn3)], items := [run4] } }
def sSwE : State := modSlot (sSw [out1]) 5 1 (fun _ => slotReset)
def sSwV : State := modSlot (sSw [ctx0, out1]) 5 1 (fun k => { k with st := .halted })
def sSwD : State := modSlot (sSw [{ out1 with switching := true, entering := true }]) 5 1 (fun _ => slotReset)
theorem wit_switch : stackWaits sSwV (stackOf ctx0.saveAt) = false ∧ emptyClaimed sSwE 5 = some 1 ∧ entrant sSwE 5 1 = some out1 ∧ emptyClaimed sSwV 5 = none ∧ victim sSwV 5 = some ctx0 ∧
    slotOps sSwV 5 1 = [] ∧ entrant sSwV 5 1 = some out1 := by decide +kernel
theorem test_switch : doesIt (.contextSwitch 5) sSwE (fun t => t.hub.ctxs == [{ out1 with switching := true, entering := true }]) &&
    doesIt (.contextSwitch 5) sSwV (fun t => stIs t .empty && (getSlot t 5 1).releasing && (getSlot t 5 1).ctx == none &&
    t.hub.ctxs.map (fun y => (y.id, y.resident, y.switching, y.entering, y.saved.isSome)) ==
    [(0, false, true, false, true), (1, false, true, true, true)]) = true := by decide +kernel
theorem wit_switch_done : (sSwD.hub.ctxs.find? (fun x => x.clu == 5 && x.slot == 1 && x.entering)).isSome = true ∧
    firstFit (usedPanels sSwD 5 (fun _ _ => true) ||| (getClu sSwD 5).fence) 1 = some 0 ∧ slotFree sSwD (5, 1) = true ∧
    restoreWaits sSwD out1 = false ∧ coldTiles sSwD out1 = [] := by decide +kernel
theorem test_switch_done : doesIt (.switchDone 5 1) { sSwD with hub.items := [] } (fun t => getSlot t 5 1 ==
    { slotWith [(1, 6)] with pvalid := true, pbase := 0, pcount := 1, pc := 7, ctx := some 1 } && t.hub.ctxs.map (fun y => (y.resident, y.switching,
    y.saved)) == [(true, false, none)] && ctr t aDspWarm == 1) = true := by decide +kernel

/-! ### Queues -/

/-- Queue 2,047 of function 0, which has all of them; 16 entries, class B, completion ring 3, ring in host memory at 0x10000. -/
def sQu (k : Queue) : State :=
  let s := setReg (setReg State.reset (aQAssign 0) (2048 * 2 ^ 16)) (tenAddr 0 (oSqCfg 2047)) (4 + 2 * 2 ^ 11 + 3 * 2 ^ 13)
  modQueue { setReg s (tenAddr 0 (oSqAddr 2047)) 0x10000 with host := memPut [] (0x10000 + 64 * 15) (List.replicate 64 5) } 0 2047 (fun _ => k)
def quIs (t : State) (k : Queue) : Bool := getQueue t 0 2047 == k
def runQ (head tail : Nat) : Queue := { queueReset with st := .run, head := head, tail := tail }
theorem wit_queue : funcLive (sQu (runQ 0 0)) 0 ∧ takesBells (sQu (runQ 0 0)) 0 2047 = true ∧ sqClass (sQu (runQ 0 0)) 0 2047 = .b ∧
    sqDevice (sQu (runQ 0 0)) 0 2047 = false ∧ queueLives (sQu (runQ 0 0)) 0 2047 = true ∧ queueItems (sQu (runQ 0 0)) 0 2047 = [] ∧
    recHeld (sQu (runQ 0 0)) 0 2047 = false := by unfold funcLive; decide +kernel
theorem test_tail : doesIt (.tailDoorbell 0 2047 (2 ^ 32 + 9)) (sQu (runQ (2 ^ 32 - 7) (2 ^ 32 - 1))) (quIs · (runQ (2 ^ 32 - 7) 9)) &&
    doesIt (.tailDoorbell 0 2047 10) (sQu (runQ (2 ^ 32 - 7) (2 ^ 32 - 1))) (fun t => quIs t (runQ (2 ^ 32 - 7) (2 ^ 32 - 1)) &&
      ctr t (tenAddr 0 oDbDrop) == 1) && doesIt (.tailDoorbell 0 2047 1) (sQu queueReset) (fun t => ctr t (tenAddr 0 oDbDrop) == 1) =
    true := by decide +kernel
theorem test_inline : doesIt (.inlineDescriptor 0 2047 (leBytes 64 7)) (sQu (runQ 0 (2 ^ 32 - 1))) (fun t => ctr t (tenAddr 0 oDbDrop) == 1) &&
    doesIt (.inlineDescriptor 0 2047 (leBytes 64 7)) (sQu (runQ (2 ^ 32 - 16) (2 ^ 32 - 1))) (quIs · { runQ (2 ^ 32 - 16) 0 with
      inl := [(2 ^ 32 - 1, leBytes 64 7)] }) = true := by decide +kernel
theorem test_promotion : doesIt (.classBPromotion 0 2047) (sQu (runQ 1 2)) (quIs · { runQ 1 2 with promoted := true }) &&
    idle (.classBPromotion 0 2047) (sQu (runQ 2 2)) = true := by decide +kernel
theorem test_fetch : fetchList (runQ 15 17) 8 15 = [15, 16] ∧ doesIt (.ringFetch 0 2047 false) (sQu (runQ 15 17)) (quIs · { runQ 15 17 with
    fetched := [(15, List.replicate 64 5), (16, List.replicate 64 0)] }) = true ∧ doesIt (.ringFetch 0 2047 true) (sQu (runQ 15 17))
    (quIs · { runQ 15 17 with st := .error }) = true := by decide +kernel
theorem test_queue_states : doesIt (.queueEnable 0 2047) (sQu { queueReset with head := 5 }) (fun t => quIs t (runQ 0 0) &&
    bitB (tenReg t 0 (oSqCfg 2047)) 31) && doesIt (.queueDisable 0 2047) (sQu { runQ 1 3 with inl := [(1, [])] }) (quIs ·
    { runQ 1 3 with st := .stopping }) && doesIt (.queueStopped 0 2047) (sQu { runQ 1 3 with st := .stopping }) (quIs · { runQ 1 3 with
    st := .off }) = true := by decide +kernel
def dNop : List Byte := mkD [(0, 1, 0), (2, 2, 3), (16, 4, 0xABCD)]
def sTk : State := sQu { runQ 4 6 with fetched := [(5, dNop), (4, dNop)] }
theorem wit_take : dispLive sTk ∧ (firstCand sTk (cands sTk)).map (fun c => (c.f, c.q, c.k, headEntry c.k)) =
    some (0, 2047, getQueue sTk 0 2047, some dNop) ∧ (∀ i ∈ sTk.hub.items, takenReady sTk i = false) ∧ opcValid (dOpc dNop) = true := by unfold dispLive; decide +kernel
/-- The function behind the one served last goes first, but behind a better class; of its queues the one behind the last. -/
def cand (f q c : Nat) : Cand := { f := f, q := q, k := queueReset, cls := c }
theorem test_order : (let s := { State.reset with hub.rrF := [(1, 5)], hub.rrQ := [(4 * 6 + 1, 2)] }
    (firstCand s [cand 5 0 1, cand 4 0 1, cand 6 2 1, cand 6 1 1, cand 6 3 1]).map (fun c => (c.f, c.q)) == some (6, 3) &&
    (firstCand s [cand 6 3 1, cand 5 9 0]).map (fun c => (c.f, c.q)) == some (5, 9)) = true := by decide +kernel
theorem test_take : doesIt .dispatchTake { sTk with clock.ftc := 8 } (fun t => quIs t { runQ 5 6 with fetched := [(5, dNop)] } &&
    t.hub.items.map (fun i => (i.id, i.f, i.q, i.pos, i.desc, i.st, i.took)) == [(0, 0, 2047, 4, dNop, .taken, 8)]) = true := by
  decide +kernel

/-! ### Work items -/

/-- Item 9 of queue 6 of function 0. -/
def it (opc : Nat) (st : ItemSt) (fs : List (Nat × Nat × Nat)) : Item :=
  { id := 9, f := 0, q := 6, pos := 77, desc := mkD ([(0, 1, opc), (2, 2, 3), (16, 4, 0xABCD)] ++ fs), st := st, region := 3, num := 0, entry := 0
    step := 0, took := 0, logged := false, frec := false, moved := 0 }
/-- With it, ring 3 in host memory at 0x8000 with 16 records, of which TAIL has passed 16; a halted context, and an instance of handle 7. -/
def withItem (s : State) (i : Item) : State :=
  let s := setReg (setReg s (tenAddr 0 (oCqAddr 3)) 0x8000) (tenAddr 0 (oCqCfg 3)) (2 ^ 31 + 4)
  let s := modRing s 0 3 (fun k => { k with en := true, tail := 16, head := 16 })
  { s with hub := { s.hub with items := [i], insts := [⟨0, 1, 7, 3, 0x10000⟩] } }
def sIt (i : Item) : State := modSlot (withItem (ranCtx []) i) 5 1 (fun k => { k with st := .halted })
/-- The record that ring 3 holds next. -/
def recIs (t : State) (status result : Nat) : Bool := memBytes t.host 0x8000 16 == leBytes 4 0xABCD ++ leBytes 4 result ++ leBytes 2 6 ++
  leBytes 2 77 ++ leBytes 1 status ++ [0, 0, 0] && t.hub.items == [] && (getRing t 0 3).tail == 17

theorem wit_nop : startable (sIt (it 0 .taken [])) 0 (it 0 .taken []) ∧ toRing (sIt (it 0 .taken [])) (it 0 .taken []) 3 := by
  unfold startable dispLive toRing; decide +kernel
theorem test_nop : doesIt .nop (sIt (it 0 .taken [])) (recIs · 0 0) = true := by decide +kernel

def iRun : Item := it 1 .taken [(4, 2, 7), (8, 4, 0x5000001), (12, 1, 0xFF), (24, 8, 11), (32, 8, 12), (40, 8, 13), (48, 8, 2 ^ 64 - 1)]
theorem wit_run : startable (sIt iRun) 1 iRun ∧ reaches (sIt iRun) iRun 3 rgn3 (sIt iRun) ∧ runItems (sIt iRun) 3 = [] ∧ firstWaiting (sIt iRun) 3 = none ∧
    regionCtxs (sIt iRun) 3 = [ctx0] ∧ canStart (sIt iRun) ctx0 = true := by
  unfold startable dispLive reaches
  exact ⟨by decide +kernel, ⟨rfl, by decide +kernel, by decide +kernel, by decide +kernel, by decide +kernel, rfl, by decide +kernel⟩, by decide +kernel⟩
theorem test_run : doesIt .run (sIt iRun) (fun t => stIs t .running && pcIs t 0 && rg t 1 == 11 && rg t 4 == 0xFFFF_FFFF_FFFF_FFFF &&
    rg t 5 == 0x5000001 && rg t 6 == 7 && rg t 7 == 0xABCD && rg t 8 == 1 && rg t 9 == 0 && (getItem t 9).map (·.st) == some .running &&
    (getRegion t 3).map (·.runs) == some 1) = true := by decide +kernel

/-- Region 3 as a pipeline: entries at 0x4000, intake of slot 2 of cluster 5 with counter 6 at 64·2, 2^4 records. -/
def sPi (i : Item) : State :=
  let s := withItem (ranCtx []) i
  let s := setReg (setReg s (tenAddr 0 (oPipeA 3)) 0x4001) (tenAddr 0 (oPipeB 3)) (5 + 2 * 2 ^ 11 + 6 * 2 ^ 13 + 4 * 2 ^ 18 + 2 * 2 ^ 25)
  { s with hub.regions := [(3, { rgn3 with pipe := true, step := 17 })] }
def iRunW : Item := { iRun with st := .waiting }
theorem wit_pipe : startable (sPi iRun) 1 iRun ∧ reaches (sPi iRun) iRun 3 { rgn3 with pipe := true, step := 17 } (sPi iRun) ∧
    freeEntry (sPi iRun) 3 { rgn3 with pipe := true, step := 17 } = some 0 ∧ firstWaiting (sPi iRunW) 3 = some iRunW := by
  unfold startable dispLive reaches
  exact ⟨by decide +kernel, ⟨rfl, by decide +kernel, by decide +kernel, by decide +kernel, by decide +kernel, rfl, by decide +kernel⟩, by decide +kernel⟩
def pipeOk (t : State) : Bool := (getItem t 9).map (fun i => (i.st, i.entry, i.step)) == some (.running, 0, 17) && (getRegion t 3).map (·.step) ==
  some 18 && t.hub.xfers.map (fun x => (x.tclu, x.tslot, x.ctr, x.data.map (fun p => (p.1, p.2.1.length)))) == [(5, 2, some 6, [(192, 64)])]
theorem test_pipe : doesIt .run (sPi iRun) pipeOk && doesIt .runHeldStart (sPi iRunW) pipeOk = true := by decide +kernel
def iFly : Item := { iRun with st := .running, step := 17, entry := 1023 }
def sMb (done step : Nat) : State :=
  { sPi iFly with hub.mbx := [(0, 3, 1023, leBytes 4 step ++ leBytes 4 99 ++ leBytes 1 done ++ leBytes 7 0)] }
theorem wit_mailbox : dispLive (sMb 1 17) ∧ getRegion (sMb 1 17) 3 = some { rgn3 with pipe := true, step := 17 } ∧
    (runItems (sMb 1 17) 3).find? (fun y => y.entry == 1023) = some iFly ∧ funcWaits (sMb 1 17) 0 = false ∧ toRing (sMb 1 17) iFly 3 ∧
    dispLive (sPi iRunW) ∧ getRegion (sPi iRunW) 3 = some { rgn3 with pipe := true, step := 17 } ∧
    freeEntry (sPi iRunW) 3 { rgn3 with pipe := true, step := 17 } = some 0 := by
  unfold dispLive toRing; decide +kernel
theorem test_mailbox : doesIt .mailboxWrite (sMb 1 17) (fun t => recIs t 0 99 && t.hub.mbx == []) && doesIt .mailboxWrite (sMb 0 17) (fun t =>
    ctr t aMbxDrop == 1 && t.hub.items == [iFly] && t.hub.mbx == []) = true := by decide +kernel

def iCpy (dir len : Nat) (st : ItemSt) : Item := it 8 st [(24, 8, 0x100), (32, 8, 0x200), (40, 8, len), (48, 1, dir), (50, 2, if dir = 3 then 9 else 0)]
def sCp (dir len : Nat) (st : ItemSt) : State :=
  let s := routed9 (sIt (iCpy dir len st))
  dev { s with host := memPut s.host 0x100 [1, 2, 3] } 0x100 [4, 5, 6]
theorem wit_copy_item : startable (sCp 3 16416 .taken) 8 (iCpy 3 16416 .taken) ∧ rangesOk (sCp 3 16416 .taken) (iCpy 3 16416 .taken) = true ∧
    noRoute (sCp 3 16416 .taken) 0 9 = false ∧ copyWaits (sCp 2 64 .copying) (iCpy 2 64 .copying) = false ∧ mailboxes (sCp 2 64 .copying) 0 = [] ∧
    toRing (sCp 2 64 .copying) (iCpy 2 64 .copying) 3 := by unfold startable dispLive toRing; decide +kernel
theorem test_copy_start : doesIt .memcpyHostToDevice (sCp 0 32 .taken) (fun t => t.hub.items.map (·.st) == [.copying]) && doesIt
    .memcpyDeviceToHost (sCp 1 32 .taken) (fun t => t.hub.items.map (·.st) == [.copying]) && doesIt .memcpyDeviceToDevice (sCp 2 32 .taken) (fun t =>
    t.hub.items.map (·.st) == [.copying]) && doesIt .memcpyRemote (sCp 3 16416 .taken) (fun t => t.hub.items.map (·.st) == [.remote 2] &&
    t.lnk.msgs.map (fun m => (m.addr, m.src, m.final)) == [(0x200, .dev 0 0x100 16384, false), (0x4200, .dev 0 0x4100 32, true)]) = true := by
  decide +kernel
theorem test_copy_end : doesIt (.memcpyComplete 9 none) (sCp 0 64 .copying) (fun t => recIs t 0 0 && devAt t 0x200 4 == [1, 2, 3, 0]) && doesIt
    (.memcpyComplete 9 (some 63)) (sCp 0 64 .copying) (fun t => recIs t 0x17 1 && devAt t 0x200 4 == [1, 2, 3, 0]) && doesIt (.memcpyComplete 9 none)
    (sCp 1 64 .copying) (fun t => recIs t 0 0 && memBytes t.host 0x200 4 == [4, 5, 6, 0]) && doesIt (.memcpyComplete 9 none) (sCp 2 64 .copying)
    (fun t => recIs t 0 0 && devAt t 0x200 4 == [4, 5, 6, 0]) = true := by decide +kernel

def sCpM : State := sCp 0 64 .copying
def iCpM : Item := { iCpy 0 64 .copying with moved := 32 }
theorem test_copy_rest : doesIt (.memcpyComplete 9 (some 63)) { sCpM with hub.items := [iCpM], host := memPut [] 0x120 [9] } (fun t =>
    recIs t 0x17 1 && devAt t 0x220 1 == [0]) && doesIt (.memcpyComplete 9 none) { sCpM with hub.items := [iCpM], host := memPut [] 0x120 [9] }
    (fun t => recIs t 0 0 && devAt t 0x220 2 == [9, 0] && devAt t 0x200 1 == [0]) && tenOk sCpM 0 0x220 32 && tenOk sCpM 0 0x200 64 &&
    seesB .u 0 0x100 64 ([4, 5, 6] ++ List.replicate 61 0) (sCp 1 64 .copying) = true := by decide +kernel

/-! ### The prefix walker -/

/-- A tree of one bucket at 0x11000 and no shares; `n` nodes on its stack at 0x12000, the next at 0x14000. Where `head`, the bucket
holds the node at 0x13000: the block of 256 zero tokens under the root, with REFCNT `ref`. -/
def sTr (i : Item) (n : Nat) (head : Bool) (ref : Nat) : State :=
  let s := dev (withItem (ranCtx []) i) 0x10000 (leBytes 8 0x11000 ++ leBytes 4 1 ++ leBytes 4 0 ++ leBytes 8 0x12000 ++ leBytes 4 n)
  let s := dev (dev s 0x12000 (leBytes 8 0x14000)) 0x15000 (leBytes 8 1 ++ leBytes 8 0x13000)
  if head then dev (dev s 0x11000 (leBytes 8 0x13000)) 0x13018 (leBytes 4 ref ++ leBytes 4 0 ++ leBytes 8 5 ++ [1]) else s
def iPx (opc : Nat) (st : ItemSt) (fs : List (Nat × Nat × Nat)) : Item := it opc st ([(4, 2, 7)] ++ fs)
def iLk (st : ItemSt) : Item := iPx 2 st [(24, 8, 0x20000), (32, 4, 256)]
def iIn (st : ItemSt) : Item := iPx 4 st [(24, 8, 0x20000), (36, 4, 1)]
def iRl (st : ItemSt) : Item := iPx 5 st [(40, 8, 0x15000)]
def iEv (st : ItemSt) : Item := iPx 6 st [(32, 4, 1)]
def zTok : List Byte := List.replicate 1024 0
def tree1 (n : Nat) : PTree := ⟨0x10000, 0x11000, 1, 0, 0x12000, n⟩
theorem asks_refl (s : State) : onlyAsks s s := rfl
theorem joins_reach : reachRegion (sTr (iLk .taken) 0 true 0) (iLk .taken) = .ok 3 ∧ reachRegion (sTr (iIn .taken) 0 true 0) (iIn .taken) = .ok 3
    ∧ reachRegion (sTr (iRl .taken) 0 true 0) (iRl .taken) = .ok 3 ∧ reachRegion (sTr (iEv .taken) 0 true 0) (iEv .taken) = .ok 3 :=
  ⟨rfl, rfl, rfl, rfl⟩
theorem wit_joins : (startable (sTr (iLk .taken) 0 true 0) 2 (iLk .taken) ∧ reaches (sTr (iLk .taken) 0 true 0) (iLk .taken) 3 rgn3 (sTr (iLk .taken) 0 true 0)) ∧
    (startable (sTr (iIn .taken) 0 true 0) 4 (iIn .taken) ∧ reaches (sTr (iIn .taken) 0 true 0) (iIn .taken) 3 rgn3 (sTr (iIn .taken) 0 true 0)) ∧
    (startable (sTr (iRl .taken) 0 true 0) 5 (iRl .taken) ∧ reaches (sTr (iRl .taken) 0 true 0) (iRl .taken) 3 rgn3 (sTr (iRl .taken) 0 true 0)) ∧
    startable (sTr (iEv .taken) 0 true 0) 6 (iEv .taken) ∧ reaches (sTr (iEv .taken) 0 true 0) (iEv .taken) 3 rgn3 (sTr (iEv .taken) 0 true 0) := by
  unfold startable dispLive reaches
  exact ⟨⟨by decide +kernel, joins_reach.1, by decide +kernel, rfl, rfl, by decide +kernel, asks_refl _, by decide +kernel⟩,
    ⟨by decide +kernel, joins_reach.2.1, by decide +kernel, rfl, rfl, by decide +kernel, asks_refl _, by decide +kernel⟩,
    ⟨by decide +kernel, joins_reach.2.2.1, by decide +kernel, rfl, rfl, by decide +kernel, asks_refl _, by decide +kernel⟩,
    by decide +kernel, joins_reach.2.2.2, by decide +kernel, rfl, rfl, by decide +kernel, asks_refl _, by decide +kernel⟩
def joined (t : State) : Bool := t.hub.items.map (fun i => (i.id, i.st, i.region)) == [(9, .prefixWait, 3)]
theorem test_joins : doesIt .pfxLookup (sTr (iLk .taken) 0 true 0) joined && doesIt .pfxInsert (sTr (iIn .taken) 0 true 0) joined &&
    doesIt .pfxRelease (sTr (iRl .taken) 0 true 0) joined && doesIt .pfxEvict (sTr (iEv .taken) 0 true 0) joined = true := by decide +kernel

def sLk (h : Bool) : State := sTr (iLk .prefixWait) 1 h 7
def sIn (n : Nat) (h : Bool) : State := sTr (iIn .prefixWait) n h 7
def sRl (r : Nat) : State := sTr (iRl .prefixWait) 0 true r
def sEv (h : Bool) : State := sTr (iEv .prefixWait) 1 h 0
theorem wit_walker : walkerItem (sLk true) [2] = some (iLk .prefixWait) ∧ funcWaits (sLk true) 0 = false ∧
    toRing (sLk true) (iLk .prefixWait) 3 ∧ itemTree (sLk true) (iLk .prefixWait) = 0x10000 ∧
    treeOf 0x10000 (devAt (sLk true) 0x10000 32) = tree1 1 ∧ dirCtxs (sLk true) 3 = [] := by
  unfold toRing; decide +kernel
/-- The states behind the reads of the tree's record and the tokens, in either order, of the bucket and of the node. -/
def lkT (h : Bool) : State := asked .u 0 0x10000 32 (sLk h)
def lkA (h : Bool) : State := asked .u 0 0x20000 1024 (lkT h)
def inA (n : Nat) (h : Bool) : State := asked .u 0 0x10000 32 (asked .u 0 0x20000 1024 (sIn n h))
def bkt (t : State) : State := asked .u 0 0x11000 8 t
theorem sees_tree (h : Bool) : sees .u 0 0x10000 32 (devAt (sLk h) 0x10000 32) (sLk h) (lkT h) :=
  sees_of (by revert h; decide +kernel)
theorem sees_tokens (h : Bool) : sees .u 0 0x20000 1024 zTok (lkT h) (lkA h) := sees_of (by revert h; decide +kernel)
theorem sees_bucket (h : Bool) : sees .u 0 0x11000 8 (leBytes 8 (if h then 0x13000 else 0)) (lkA h) (bkt (lkA h)) :=
  sees_of (by revert h; decide +kernel)
theorem sees_node : sees .u 0 0x13000 1088 (devAt (sLk true) 0x13000 1088) (bkt (lkA true)) (asked .u 0 0x13000 1088 (bkt (lkA true))) :=
  sees_of (by decide +kernel)
theorem bkt_addr : bucketAddr (tree1 1) 0 (blockOf zTok 0) = 0x11000 ∧ bucketAddr (tree1 0) 0 (blockOf zTok 0) = 0x11000 := by decide +kernel
theorem px_cls : (iLk .prefixWait).cls = .u ∧ (iIn .prefixWait).cls = .u ∧ (iEv .prefixWait).cls = .u := by decide +kernel
theorem wit_lookup (g : State → List Nat → State) : lookBlocks (iLk .prefixWait) (tree1 1) zTok g [0] 0 [] (lkA true) =
    g (asked .u 0 0x13000 1088 (bkt (lkA true))) [0x13000] ∧
    lookBlocks (iLk .prefixWait) (tree1 1) zTok g [0] 0 [] (lkA false) = g (bkt (lkA false)) [] := by
  constructor
  · rw [lookBlocks, Laws.blockNode_hit (nb := leBytes 8 0x13000) (bs := devAt (sLk true) 0x13000 1088) (by decide)
      (by rw [px_cls.1, bkt_addr.1]; exact sees_bucket true) (by decide) (by rw [px_cls.1]; exact sees_node) (by decide +kernel)]
    rfl
  · rw [lookBlocks, Laws.blockNode_none (nb := leBytes 8 0) (by decide) (by rw [px_cls.1, bkt_addr.1]; exact sees_bucket false)
      (by decide)]
    rfl
theorem wit_lookup_node : seesB .u 0 0x13000 64 (devAt (sLk true) 0x13000 64) (asked .u 0 0x13000 1088 (bkt (lkA true))) &&
    tenOk (sLk true) 0 0x13018 4 && tenOk (sLk true) 0 0x13020 8 = true := by decide +kernel
theorem test_lookup : doesIt .lookup (sLk false) (recIs · 0 0) && doesIt .lookup { sLk true with clock.ftc := 99 } (fun t => recIs t 0 1 &&
    devAt t 0x13018 16 == leBytes 4 8 ++ leBytes 4 0 ++ leBytes 8 99 && ctr t aPfxMatch == 1) = true := by decide +kernel
theorem wit_in (n : Bool) (h : Bool) : seesB .u 0 0x20000 1024 zTok (sIn n.toNat h) && seesB .u 0 0x10000 32 (devAt (sIn n.toNat h)
    0x10000 32) (asked .u 0 0x20000 1024 (sIn n.toNat h)) = true := by revert n h; decide +kernel
theorem in_bucket (n : Bool) (h : Bool) : sees .u 0 0x11000 8 (leBytes 8 (if h then 0x13000 else 0)) (inA n.toNat h) (bkt (inA n.toNat h)) :=
  sees_of (by revert n h; decide +kernel)
theorem in_node : sees .u 0 0x13000 1088 (devAt (sLk true) 0x13000 1088) (bkt (inA 1 true)) (asked .u 0 0x13000 1088 (bkt (inA 1 true))) :=
  sees_of (by decide +kernel)
theorem wit_insert (g : State → Nat → Nat → State) : blockNode (iIn .prefixWait) (tree1 1) 0 (blockOf zTok 0) g (inA 1 true) =
    g (asked .u 0 0x13000 1088 (bkt (inA 1 true))) 0x13000 0x13000 ∧
    blockNode (iIn .prefixWait) (tree1 1) 0 (blockOf zTok 0) g (inA 1 false) = g (bkt (inA 1 false)) 0 0 ∧
    blockNode (iIn .prefixWait) (tree1 0) 0 (blockOf zTok 0) g (inA 0 false) = g (bkt (inA 0 false)) 0 0 :=
  ⟨Laws.blockNode_hit (nb := leBytes 8 0x13000) (bs := devAt (sLk true) 0x13000 1088) (by decide)
    (by rw [px_cls.2.1, bkt_addr.1]; exact in_bucket true true) (by decide) (by rw [px_cls.2.1]; exact in_node) (by decide +kernel) g,
   Laws.blockNode_none (nb := leBytes 8 0) (by decide) (by rw [px_cls.2.1, bkt_addr.1]; exact in_bucket true false) (by decide) g,
   Laws.blockNode_none (nb := leBytes 8 0) (by decide) (by rw [px_cls.2.1, bkt_addr.2]; exact in_bucket false false) (by decide) g⟩
theorem wit_insert_node : seesB .u 0 0x13018 4 (leBytes 4 7) (asked .u 0 0x13000 1088 (bkt (inA 1 true))) &&
    seesB .u 0 0x12000 8 (leBytes 8 0x14000) (bkt (inA 1 false)) && tenOk (sIn 1 false) 0 0x10018 4 && tenOk (sIn 1 false) 0 0x14000 32 &&
    tenOk (sIn 1 false) 0 0x14028 1048 && tenOk (sIn 1 false) 0 0x11000 8 && decide (bucketAddr (tree1 1) 0 (blockOf zTok 0) = 0x11000) =
    true := by decide +kernel
theorem test_insert : doesIt .insert (sIn 1 true) (fun t => recIs t 0 1 && devAt t 0x13018 4 == leBytes 4 8) && doesIt .insert (sIn 0 false)
    (recIs · 0x30 0) && doesIt .insert (sIn 1 false) (fun t => recIs t 0 0 && devAt t 0x11000 8 == leBytes 8 0x14000 && devAt t 0x14018 4 ==
    leBytes 4 1 && devAt t 0x14028 1 == [1] && devAt t 0x10018 4 == leBytes 4 0) = true := by decide +kernel
def rlA : State := asked .u 0 0x15008 8 (asked .u 0 0x15000 8 (sRl 0))
theorem wit_release : walkerItem (sRl 0) [3, 5] = some (iRl .prefixWait) ∧ seesB .u 0 0x15000 8 (leBytes 8 1) (sRl 0) = true ∧
    seesB .u 0 0x15008 8 (leBytes 8 0x13000) (asked .u 0 0x15000 8 (sRl 0)) = true ∧
    seesB .u 0 0x13000 64 (devAt (sRl 0) 0x13000 64) rlA = true ∧ tenOk (sRl 0) 0 0x13018 4 = true ∧ tenOk (sRl 0) 0 0x13020 8 = true := by
  decide +kernel
theorem test_release : doesIt .release { sRl 1 with clock.ftc := 99 } (fun t => recIs t 0 0 && devAt t 0x13018 16 == leBytes 16 (99 * 2 ^ 64) &&
    ctr t aPfxUnder == 0) && doesIt .release (sRl 0) (fun t => recIs t 0 0 && devAt t 0x13018 4 == leBytes 4 0 && ctr t aPfxUnder == 1) = true := by
  decide +kernel
def evA (h : Bool) : State := asked .u 0 0x10000 32 (sEv h)
theorem ev_bucket (h : Bool) : sees .u 0 0x11000 8 (leBytes 8 (if h then 0x13000 else 0)) (evA h) (bkt (evA h)) :=
  sees_of (by revert h; decide +kernel)
theorem ev_node : sees .u 0 0x13000 64 (devAt (sEv true) 0x13000 64) (bkt (evA true)) (asked .u 0 0x13000 64 (bkt (evA true))) :=
  sees_of (by decide +kernel)
theorem wit_evict (g : State → List PNode → State) : scanBuckets (iEv .prefixWait) (tree1 1) g [0] [] (evA true) =
    g (asked .u 0 0x13000 64 (bkt (evA true))) [⟨0x13000, 0x11000, devAt (sEv true) 0x13000 64⟩] ∧
    scanBuckets (iEv .prefixWait) (tree1 1) g [0] [] (evA false) = g (bkt (evA false)) [] := by
  constructor
  · rw [Laws.scanBuckets_one (nb := leBytes 8 0x13000) (bs := devAt (sEv true) 0x13000 64) (by rw [px_cls.2.2]; exact ev_bucket true)
      (by decide) (by rw [px_cls.2.2]; exact ev_node) (by decide +kernel), if_pos (by decide +kernel)]
    rfl
  · exact Laws.scanBuckets_none (nb := leBytes 8 0) (by rw [px_cls.2.2]; exact ev_bucket false) (by decide) g
theorem wit_evict_node : seesB .u 0 0x10000 32 (devAt (sEv true) 0x10000 32) (sEv true) && tenOk (sEv true) 0 0x11000 8 &&
    tenOk (sEv true) 0 0x13028 1 && tenOk (sEv true) 0 0x12008 8 && tenOk (sEv true) 0 0x10018 4 && decide (nParent (devAt (sEv true) 0x13000 64)
    = 0) = true := by decide +kernel
theorem test_evict : doesIt .evict (sEv true) (fun t => recIs t 0 1 && devAt t 0x11000 8 == leBytes 8 0 && devAt t 0x13028 1 == [0] &&
    devAt t 0x12008 8 == leBytes 8 0x13000 && devAt t 0x10018 4 == leBytes 4 2 && ctr t aPfxEvict == 1) && doesIt .evict (sEv false)
    (recIs · 0 0) = true := by decide +kernel
def iCl (st : ItemSt) : Item := iPx 3 st [(8, 4, 0x1000002)]
def sCl : State := { sTr (iCl .closing) 0 false 0 with hub.bindings := [⟨0, 7, 0x1000002, 3⟩, ⟨0, 7, 2, 3⟩] }
theorem wit_close : takenItem sCl 3 = none ∧ seqQuiet sCl (iCl .closing) = true ∧ dirCtxs sCl 3 = [] := by decide +kernel
theorem test_close : doesIt .seqClose sCl (fun t => recIs t 0 0 && t.hub.bindings == [⟨0, 7, 2, 3⟩]) = true := by decide +kernel

/-! ### The load path -/

/-- A digest as its bytes. -/
def dg (n : Nat) : List Byte := leBytes 64 n
/-- An image, made by hand from R354 to R366: a pool region of cluster 9; a context in its slot 2, of one panel; a program of one word; an instance
of handle 7. The digests are SHA-512 by another implementation. -/
def imgTab : List Byte :=
  [(1, 704, 256, 0x85735b06d84ab3d5dd9ac134fab09c9d09907dbc8589ad0881d6dde1aca8c923ee1a442c20ada0f137a95449235d300adb7812e5de619125a226b61744b5c939),
   (2, 960, 32, 0x61ba9f6204b3bddddb9e01a6ea12a81151adf89ecf59275f6061bd6a9a34b4ef0c1e005e0a7e11ef2e68c41e018a34b79923f2828b0b597b241ad59ca5e541ab),
   (3, 1024, 16, 0xf1a441e29a825762d79460db24a87f03da2a86b226ed47c2cae429748e079a667f14b0157eb4a8e7e6553ee030c5abd9b0bd83ec710ef9b04b6b8de271ebd9cc),
   (10, 1088, 16, 0x526440e55ac3f71de3185c7e537b5b61dc104defcf56557824b844035e7f04769576ec2b8c6fd840c5b7512c82891c582a1e016c52d5216a6b4df8ffdd133c43)].flatMap
    (fun x => leBytes 4 x.1 ++ leBytes 4 1 ++ leBytes 8 x.2.1 ++ leBytes 16 x.2.2.1 ++ dg x.2.2.2)
def img : List Byte :=
  leBytes 4 0x53574C49 ++ leBytes 4 1 ++ leBytes 8 1104 ++ leBytes 48 4 ++
    dg 0xc0ec23ae2daebc6627aa52e6e825ef8a2f978a3e1a9a083c934ac11d1af202a3b24d20731cbaf4a5b37fbea64205b1f2b1c77ab2763562791514e211d0497434 ++
    leBytes 192 0 ++ imgTab ++ leBytes 65 0 ++ leBytes 191 2 ++ leBytes 2 9 ++ [0, 2, 1] ++ leBytes 11 0 ++ leBytes 16 5 ++ leBytes 32 0 ++
    leBytes 8 1 ++ leBytes 8 0xABCD ++ leBytes 48 0 ++ leBytes 16 7
/-- It lies at tenant address 0x4000. -/
def imgMem : Mem := memPut [] (2 ^ 23 + 0x4000) img
def imgAt (o n : Nat) : List Byte := (img.drop o).take n
/-- Section `i` by its table entry, with its bytes. -/
def imgEnt (i : Nat) : List Byte := imgAt (320 + 96 * i) 96
def imgSec (i : Nat) (d : List Byte) : Sec :=
  { idx := i, typ := leAt (imgEnt i) 0 1, count := leAt (imgEnt i) 4 4, off := leAt (imgEnt i) 8 8, len := leAt (imgEnt i) 16 8
    dig := ((imgEnt i).drop 32).take 64, clean := leAt (imgEnt i) 1 3 == 0 && leAt (imgEnt i) 24 8 == 0, data := d, poi := false }
def mV : Layout := ⟨1104, img.take 704, false, [imgSec 0 (imgAt 704 256), imgSec 1 (imgAt 960 32), imgSec 2 (imgAt 1024 16), imgSec 3 (imgAt 1088 16)]⟩

def iLd (st : ItemSt) : Item := it 0x10 st [(12, 1, 40), (24, 8, 0x4000), (32, 8, 1104)]
def iUl (st : ItemSt) : Item := it 0x11 st [(12, 1, 3)]
def jLd (image : Nat) (ph : LPhase) (lay : Layout) : LoadJob :=
  { item := 9, f := 0, unload := false, load := 0, image := image, ilen := 1104, rbase := 40, replace := false, phase := ph, waits := false
    grants := [], lost := [], rmap := [], rgns := [(3, rgn3)], insts := []
    lay := lay, bind := [], gsel := [0xFF], status := 0x02, detail := 0xFF000000 }
def noLay : Layout := ⟨0, [], false, []⟩
/-- A layout without sections. -/
def mE : Layout := ⟨1104, leBytes 320 0, false, []⟩
def load1 : Load := ⟨1, 0, leBytes 64 0, [], 3, 1, 0, [(5, 32767)], [], []⟩
/-- The image's memory, the item that loads it, and a job. -/
def sLd (j : LoadJob) : State :=
  let s := withItem (ranCtx []) (iLd .loading)
  { s with mem.dev := imgMem, hub.loadQ := [j], hub.loads := [load1] }

theorem wit_load_start : startable (withItem (ranCtx []) (iLd .taken)) 0x10 (iLd .taken) ∧ startable (sIt (iUl .taken)) 0x11 (iUl .taken) ∧
    reaches (sIt (iUl .taken)) (iUl .taken) 3 rgn3 (sIt (iUl .taken)) := by
  unfold startable dispLive reaches
  exact ⟨by decide +kernel, by decide +kernel, rfl, by decide +kernel, rfl, rfl, by decide +kernel, asks_refl _, by decide +kernel⟩
theorem test_load_range : doesIt .loadLayout (modFunc (withItem (ranCtx []) (iLd .taken)) 0 (fun k => { k with wins := [] })) (recIs · 0x16 0) &&
    rangesOk (withItem (ranCtx []) (iLd .taken)) (iLd .taken) = true := by decide +kernel
theorem test_load_start : doesIt .loadLayout (withItem (ranCtx []) (iLd .taken)) (fun t => t.hub.items.map (·.st) == [.loading] &&
    t.hub.loadQ.map (fun j => (j.image, j.ilen, j.rbase, j.unload)) == [(0x4000, 1104, 40, false)]) && doesIt .unloadLayout (sIt (iUl .taken))
    (fun t => t.hub.items.map (·.st) == [.loading] && t.hub.loadQ.map (fun j => (j.unload, j.load, j.rbase)) == [(true, 1, 3)] &&
      (getRegion t 3).map (·.closing) == some true) = true := by decide +kernel

def jV : LoadJob := { sampled (sLd (jLd 0x4000 .idle noLay)) (jLd 0x4000 .idle noLay) with phase := .validation }
def wV : State := setLog { sLd (jLd 0x4000 .idle noLay) with hub := { (sLd (jLd 0x4000 .idle noLay)).hub with loadQ := [jV] } } aLoadBytes 0
/-- The state behind a read of bytes of the image, and a state whose load reads that image. -/
def imgS (s : State) (o n : Nat) : State := memAsk s (reqLevel true .u) (2 ^ 23 + 0x4000 + o) n
def imgFit (s : State) (j : LoadJob) : Prop :=
  (s.mem.dev = imgMem ∧ s.mem.devPoi = [] ∧ s.mem.devErr = [] ∧ s.mem.stks = []) ∧ (getFunc s 0).wins = [(0, ⟨8, 0, 4⟩)] ∧ jobCls s j = .u ∧
    j.f = 0 ∧ j.image = 0x4000 ∧ j.ilen = 1104
theorem img_next {s : State} {j : LoadJob} (h : imgFit s j) (o n : Nat) : imgFit (imgS s o n) j := by
  unfold imgS memAsk; split <;> exact h
/-- The image lies in one window. -/
theorem img_pieces {s : State} (h : (getFunc s 0).wins = [(0, ⟨8, 0, 4⟩)]) (o n : Nat) (hn : o + n ≤ 1104) (h0 : 0 < n) :
    tenPieces s 0 (0x4000 + o) n = some [(2 ^ 23 + 0x4000 + o, n)] := by
  have u : unit2M = 2097152 := rfl
  have a : (0x4000 + o) / unit2M = 0 := Nat.div_eq_of_lt (by omega)
  have b : (0x4000 + o) % unit2M = 0x4000 + o := Nat.mod_eq_of_lt (by omega)
  have w : tenWin s 0 (0x4000 + o) = some ⟨8, 0, 4⟩ := by
    simp only [tenWin, h, List.find?, a]; rfl
  have e : (4 + 0 - 0) * unit2M + (0x4000 + o) = 2 ^ 23 + 0x4000 + o := by omega
  rw [Laws.tenPieces_one w (by omega) (by show _ ≤ (0 + 8) * unit2M; omega), a, b, e]
theorem img_read {s : State} {j : LoadJob} (h : imgFit s j) {o n : Nat} (hn : o + n ≤ 1104) (h0 : 0 < n) :
    imgRead s j o n = (imgS s o n, imgAt o n, false) := by
  obtain ⟨⟨hm, hd, he, hs⟩, hw, hc, hf, hi, -⟩ := h
  have L : img.length = 1104 := by decide +kernel
  have r := (Laws.tenRead_clean .u (img_pieces hw o n hn h0) (by simp [cwMarked, hd, he, tabRange, getStack, hs, tabGet, stackReset])
    (by simp [stackFailed, getStack, hs, tabGet, stackReset])).1
  rw [hm] at r
  unfold imgMem at r
  rw [Laws.memBytes_part _ _ _ _ _ (by omega)] at r
  show (match tenRead s (jobCls s j) j.f (j.image + o) n with | none => (s, [], false) | some r => r) = _
  rw [hf, hi, hc, r]
  rfl
theorem sec_read {s : State} {j : LoadJob} (h : imgFit s j) (i o n : Nat) (ht : leAt (imgEnt i) 0 1 ≠ 5) (ho : leAt (imgEnt i) 8 8 = o)
    (hn : leAt (imgEnt i) 16 8 = n) (hl : o + n ≤ 1104) (h0 : 0 < n) : secRead s j i (imgEnt i) = (imgS s o n, imgSec i (imgAt o n)) := by
  simp only [secRead, if_neg ht, ho, hn, h.2.2.2.2.2, if_pos hl, img_read h hl h0, imgSec]
/-- The states behind the reads of the header and of the four sections. -/
def headS (s : State) : State := imgS (imgS s 0 320) 320 384
def secsS (s : State) : State := imgS (imgS (imgS (imgS s 704 256) 960 32) 1024 16) 1088 16
theorem img_head {s : State} {j : LoadJob} (h : imgFit s j) : headRead s j = (headS s, img.take 704, false) := by
  have n4 : imgNsect (imgAt 0 320) = 4 := by decide +kernel
  have e : imgAt 0 320 ++ imgAt 320 384 = img.take 704 := by decide +kernel
  simp only [headRead, h.2.2.2.2.2, show min 320 1104 = 320 from rfl, img_read h (show 0 + 320 ≤ 1104 by omega) (by omega), n4,
    show min (96 * 4) (1104 - 320) = 384 from rfl, img_read (img_next h 0 320) (show 320 + 384 ≤ 1104 by omega) (by omega), e, headS]
  rfl
theorem img_secs {s : State} {j : LoadJob} (h : imgFit s j) : readSecs s j (img.take 704) false = (secsS s, mV) := by
  have c : (chunks 96 ((img.take 704).drop 320)).filter (fun e => e.length == 96) = [imgEnt 0, imgEnt 1, imgEnt 2, imgEnt 3] := by
    decide +kernel
  have h1 := img_next h 704 256
  have h2 := img_next h1 960 32
  have h3 := img_next h2 1024 16
  simp only [readSecs, c, secsRead, Nat.zero_add, Nat.reduceAdd, mV, secsS, h.2.2.2.2.2,
    sec_read h 0 704 256 (by decide +kernel) (by decide +kernel) (by decide +kernel) (by omega) (by omega),
    sec_read h1 1 960 32 (by decide +kernel) (by decide +kernel) (by decide +kernel) (by omega) (by omega),
    sec_read h2 2 1024 16 (by decide +kernel) (by decide +kernel) (by decide +kernel) (by omega) (by omega),
    sec_read h3 3 1088 16 (by decide +kernel) (by decide +kernel) (by decide +kernel) (by omega) (by omega)]
theorem fit_v : imgFit wV jV := ⟨⟨rfl, rfl, rfl, rfl⟩, by decide +kernel, by decide +kernel, rfl, rfl, rfl⟩
theorem wit_validate : headRead wV jV = (headS wV, img.take 704, false) ∧
    readSecs (headS wV) jV (img.take 704) false = (secsS (headS wV), mV) :=
  ⟨img_head fit_v, img_secs (img_next (img_next fit_v 0 320) 320 384)⟩
def vV : State := setLog (secsS (headS wV)) aLoadBytes (64 + 96 * imgNsect (img.take 704) + plainBytes mV)
theorem wit_validate_size : tenOk (sLd (jLd 0x4000 .idle noLay)) 0 0x4000 1104 = true ∧ (formatBad mV).isNone = true ∧
    imgNsect (img.take 704) = 4 ∧ plainBytes mV = 320 ∧ funcWaits (sLd (jLd 0x4000 .idle noLay)) 0 = false := by decide +kernel
theorem wit_checks : (match checkLoad vV jV mV with | .ok p => p.bind == [] && p.grants == [0xFF] | .error _ => false) = true := by
  decide +kernel
theorem test_validate_window : doesIt .loadValidate (sLd (jLd (2 ^ 24 - 64) .idle noLay)) (fun t => recIs t 0x09 0xFF000000 &&
    t.hub.loadQ == []) = true := by decide +kernel
/-- An image of another magic number. -/
def sBad : State := { sLd (jLd 0x4000 .idle noLay) with mem.dev := [] }
def wB : State := setLog { sBad with hub := { sBad.hub with loadQ := [jV] } } aLoadBytes 0
def wB1 : State := (headRead wB jV).1
def mB : Layout := (readSecs wB1 jV (leBytes 320 0) false).2
theorem wit_bad_image : headRead wB jV = (wB1, leBytes 320 0, false) ∧ readSecs wB1 jV (leBytes 320 0) false = (wB1, mB) ∧
    (formatBad mB).isNone = false ∧ (match checkLoad wB1 jV mB with | .error e => e == (1, 0xFF000000) | .ok _ => false) = true ∧
    toRing { wB1 with hub := { wB1.hub with loadQ := [] } } (iLd .loading) 3 := by unfold toRing; decide +kernel
theorem test_bad_image : doesIt .loadValidate sBad (recIs · 0x01 0xFF000000) = true := by decide +kernel

def jC : LoadJob := jLd 0x4000 .validation mV
def jW : LoadJob := { jC with phase := .commit, waits := true }
def vC : State := setLog (sLd jC) aLoadBytes (ctr (sLd jC) aLoadBytes + commitBytes (sLd jC) jC mV [])
theorem wit_commit_load : oldRegions jC = [] ∧ reloads (sLd jC) jC mV = false ∧ writtenClus jC mV [] = [9] ∧
    clusReady (sLd jC) [9] = true ∧ loadReaches (sLd jC) jC [0xFA2D0 * 2 ^ 21] = true := by decide +kernel
theorem wit_commit_room : givePanels (sLd jC) (takesSlot (sLd jC) jC mV []) (fun k => cxAt jC [] (entAt mV 2 k)) 0 [] (ents mV 2) = some [0] ∧
    giveSaves (sLd jC) jC mV = some [0xFA2D0 * 2 ^ 21] := by decide +kernel
theorem fit_c : imgFit vC jC := ⟨⟨rfl, rfl, rfl, rfl⟩, by decide +kernel, by decide +kernel, rfl, rfl, rfl⟩
/-- A section is read again: its digest is that of its bytes, or not. -/
theorem plain_read {s : State} {j : LoadJob} (h : imgFit s j) {x : Sec} {o n : Nat} (ho : x.off = o) (hn : x.len = n) (hl : o + n ≤ 1104)
    (h0 : 0 < n) : plainRead s j x = (imgS s o n, if sectionDigest (imgAt o n) != x.dig then 2 else 0, imgAt o n) := by
  simp [plainRead, ho, hn, img_read h hl h0]
theorem reread_ok {s : State} {j : LoadJob} {m : Layout} {x : Sec} {o n : Nat} (h : imgFit s j) (ho : x.off = o) (hn : x.len = n)
    (hl : o + n ≤ 1104) (h0 : 0 < n) (t : x.typ ≠ 5) (d : (sectionDigest (imgAt o n) != x.dig) = false) (xs : List Sec) :
    reread s j m [] (x :: xs) = reread (imgS s o n) j m [] xs := by
  rw [reread]
  simp [t, plain_read h ho hn hl h0, d]
theorem wit_reread : reread vC jC mV [] mV.secs = (secsS vC, none, []) := by
  have h1 := img_next fit_c 704 256
  have h2 := img_next h1 960 32
  have h3 := img_next h2 1024 16
  show reread vC jC mV [] [imgSec 0 (imgAt 704 256), imgSec 1 (imgAt 960 32), imgSec 2 (imgAt 1024 16), imgSec 3 (imgAt 1088 16)] = _
  rw [reread_ok fit_c (o := 704) (n := 256) (by decide +kernel) (by decide +kernel) (by omega) (by omega) (by decide +kernel) (by decide +kernel),
    reread_ok h1 (o := 960) (n := 32) (by decide +kernel) (by decide +kernel) (by omega) (by omega) (by decide +kernel) (by decide +kernel),
    reread_ok h2 (o := 1024) (n := 16) (by decide +kernel) (by decide +kernel) (by omega) (by omega) (by decide +kernel) (by decide +kernel),
    reread_ok h3 (o := 1088) (n := 16) (by decide +kernel) (by decide +kernel) (by omega) (by omega) (by decide +kernel) (by decide +kernel)]
  rfl
def live (t : State) : Bool := t.hub.loadQ == [] && recIs t 0 0 && (getRegion t 40).map (fun g => (g.members, g.grant, g.pipe, g.load)) ==
  some ([9], 0xFF, false, 2) && t.hub.loads.map (·.num) == [1, 2] && (getSlot t 9 2).st == .halted && (getSlot t 9 2).seed == 5 &&
  (getSlot t 9 2).prog == [(0, 0xABCD)] && t.hub.insts.map (fun x => (x.handle, x.region)) == [(7, 3), (7, 40)]
theorem test_load_live : live (placeLoad { sLd jC with hub.nextLoad := 2 } jC mV ⟨[], [0xFF]⟩ [] [0] [0xFA2D0 * 2 ^ 21]) = true := by
  decide +kernel
/-- A commit of an image without sections: its load comes into force. -/
def jE : LoadJob := { jLd 0 .validation mE with rgns := [] }
def sE : State := { sLd jE with mem.dev := [] }
theorem test_load_commit : doesIt .loadCommit sE (fun t => t.hub.loadQ == [] && recIs t 0 0 && t.hub.loads.map (·.num) == [1, 2]) &&
    doesIt .loadWaitEnd { sE with hub.loadQ := [{ jE with phase := .commit, waits := true }] } (fun t => t.hub.loads.length == 2 &&
      t.hub.loadQ == []) = true := by decide +kernel
theorem wit_load_wait : clusReady (modClu (sLd jC) 9 (fun k => { k with compOff := true })) [9] = false := by decide +kernel
/-- A section whose digest is not that of its bytes: the load unwinds. -/
def badSec : Sec := { imgSec 3 (imgAt 1088 16) with dig := leBytes 64 0 }
def mX : Layout := { mE with secs := [badSec] }
def jX : LoadJob := { jLd 0x4000 .validation mX with rgns := [] }
def vX : State := setLog (sLd jX) aLoadBytes (ctr (sLd jX) aLoadBytes + commitBytes (sLd jX) jX mX [])
theorem fit_x : imgFit vX jX := ⟨⟨rfl, rfl, rfl, rfl⟩, by decide +kernel, by decide +kernel, rfl, rfl, rfl⟩
theorem wit_load_rot : reread vX jX mX [] mX.secs = (imgS vX 1088 16, some ⟨3, 2, imgAt 1088 16⟩, []) := by
  have d : (sectionDigest (imgAt 1088 16) != badSec.dig) = true := by decide +kernel
  have t : badSec.typ ≠ 5 := by decide +kernel
  have i : badSec.idx = 3 := by decide +kernel
  show reread vX jX mX [] [badSec] = _
  rw [reread]
  simp [t, i, plain_read fit_x (x := badSec) (o := 1088) (n := 16) (by decide +kernel) (by decide +kernel) (by omega) (by omega), d]
theorem test_load_rot : doesIt .loadCommit { sLd jX with mem.dev := [] } (fun t => t.hub.loadQ.map (fun j => (j.phase, j.status, j.detail)) ==
    [(.unwind, 2, loadDet 3 0)] && t.hub.loads.map (·.num) == [1]) = true := by decide +kernel
theorem test_unwind : doesIt .loadUnwind (sLd (jLd 0x4000 .unwind noLay)) (fun t => recIs t 2 0xFF000000 && t.hub.loadQ == []) = true := by
  decide +kernel
/-- A reload of load 1 by an image without sections, whose digest is that of load 1. -/
def jR : LoadJob := { jLd 0 .validation mE with replace := true, rbase := 3 }
def sR : State := { sLd jR with mem.dev := [] }
theorem wit_reload_load : reloads sR jR mE = true ∧ oldLoad sR jR = some load1 ∧ regionBusy sR 3 = false ∧
    loadReaches sR jR [] = true ∧ commitFirst sR jR = sR := by decide +kernel
theorem test_reload_load : doesIt .loadCommit sR (fun t => t.hub.loadQ == [] && recIs t 0 0 && t.hub.loads.map (·.num) == [1]) = true := by
  decide +kernel
def jU (r : Nat) : LoadJob := { jLd 0 .idle noLay with unload := true, load := 1, rbase := r }
def sU (r : Nat) : State := { sLd (jU r) with cl.tiles := [(5 * 32768 + 32767, ⟨.resident, none, none, none⟩)] }
theorem test_unload : doesIt .unload (sU 3) (fun t => recIs t 0 0 && t.hub.loads == [] && t.hub.insts == [] && getRegion t 3 == none &&
    t.hub.ctxs == [] && t.cl.tiles == []) && doesIt .unload (sU 4) (fun t => recIs t 0x14 0 && t.hub.loads == [load1]) &&
    !regionBusy (sU 3) 3 = true := by decide +kernel

/-! ### Completion rings -/

/-- Ring 2,047 of function 0: 16 records at 0x8000 of host memory, vector 9, moderation interval 1. -/
def sRi (k : Ring) : State :=
  let s := setReg (setReg State.reset (tenAddr 0 (oCqAddr 2047)) 0x8000) (tenAddr 0 (oCqCfg 2047)) (2 ^ 31 + 9 * 2 ^ 16 + 256 + 4)
  modRing s 0 2047 (fun _ => k)
def riIs (t : State) (k : Ring) : Bool := getRing t 0 2047 == k
def rec1 : CRec := ⟨0xABCD, 5, 6, 77, 0, false, false⟩
theorem wit_ring : funcLive (sRi ringReset) 0 ∧ cqSize (sRi ringReset) 0 2047 = 16 ∧ ringNamed (sRi ringReset) 0 2047 = false ∧
    dmaHeld (sRi ringReset) 0 = false ∧ ringNamed (sIt (it 0 .taken [])) 0 3 = true := by unfold funcLive; decide +kernel
theorem test_cq_enable : doesIt (.cqEnable 0 2047) (sRi { ringReset with head := 4, tail := 5 }) (riIs · { ringReset with en := true }) &&
    doesIt (.cqDisable 0 2047) (sRi { ringReset with en := true }) (fun t => riIs t ringReset && !bitB (tenReg t 0 (oCqCfg 2047)) 31) &&
    idle (.cqDisable 0 2047) (sRi { ringReset with held := [rec1] }) && idle (.cqDisable 0 3) (sIt (it 0 .taken [])) = true := by
  decide +kernel
theorem test_cq_head : idle (.cqHeadWrite 0 2047 (2 ^ 32 - 9)) (sRi { ringReset with en := true, tail := 8 }) && doesIt (.cqHeadWrite 0 2047
    (2 ^ 33 - 8)) (sRi { ringReset with en := true, tail := 8 }) (riIs · { ringReset with en := true, tail := 8, head := 2 ^ 32 - 8 }) &&
    doesIt (.cqHeadWrite 0 2047 17) (sRi { ringReset with en := true, head := 16, tail := 32, held := [rec1] }) (fun t =>
      riIs t { ringReset with en := true, head := 17, tail := 33 } && memBytes t.host 0x8000 16 == leBytes 4 0xABCD ++ leBytes 4 5 ++
        leBytes 2 6 ++ leBytes 2 77 ++ [0, 0, 0, 128]) = true := by decide +kernel
def sIrq : State := modFunc (sRi { ringReset with irqPend := true }) 0 (fun k => { k with msix := [(16 * 9 + 12, 1)], cfg := [(0x83, 0x80)] })
theorem test_irq : msixOn sIrq 0 = true ∧ vecMasked sIrq 0 9 = false ∧ doesIt (.irqModerationEnd 0 2047) sIrq (fun t => t.out == [.irq 0 9] && riIs t
    { ringReset with lastIrq := some 0 }) = true ∧ doesIt (.irqModerationEnd 0 2047) (sRi { ringReset with irqPend := true }) (fun t =>
    (getFunc t 0).pba == [9] && t.out == []) = true ∧ idle (.irqModerationEnd 0 2047) (sRi ringReset) = true ∧
    idle (.irqModerationEnd 0 2047) { sRi { ringReset with irqPend := true, lastIrq := some 5 } with clock.ftc := 1004 } = true := by decide +kernel

/-- The Function Mask goes up with vector 9 pending; without MSI-X Enable nothing is raised. -/
theorem test_msix_enable : doesIt (.configRequest 0 0x83 1 (some 0x80)) (modFunc sIrq 0 (fun k => { k with cfg := [(0x83, 0xC0)], pba := [9] }))
    (fun t => t.out.contains (.irq 0 9) && (getFunc t 0).pba == []) && doesIt (.irqModerationEnd 0 2047) (modFunc sIrq 0 (fun k =>
    { k with cfg := [] })) (fun t => t.out == [] && (getFunc t 0).pba == [9]) = true := by decide +kernel

/-! ### The aperture and the windows -/

theorem wit_aperture : tenWaits (ranCtx []) 0 (2 ^ 24 - 2) 3 = false ∧ tenRead (ranCtx []) .b 0 (2 ^ 24 - 2) 3 = none ∧
    tenOk (ranCtx []) 0 (2 ^ 24 - 3) 3 = true ∧ mailboxes (ranCtx []) 0 = [] := by decide +kernel
theorem test_aperture : doesIt (.apertureRead 0 (2 ^ 24 - 2) 3) (ranCtx []) (fun t => t.out == [.aper 0 (2 ^ 24 - 2) [255, 255, 255] false] &&
    ctr t (tenAddr 0 oAperDrop) == 1) && doesIt (.apertureRead 0 100 2) (dev (ranCtx []) 101 [7]) (fun t => t.out == [.aper 0 100 [0, 7] false]) &&
    doesIt (.apertureWrite 0 (2 ^ 24 - 2) [1, 2, 3] false) (ranCtx []) (fun t => t.mem == (ranCtx []).mem && ctr t (tenAddr 0 oAperDrop) == 1) &&
    doesIt (.apertureWrite 0 (2 ^ 24 - 3) [1, 2, 3] false) (ranCtx []) (fun t => devAt t (2 ^ 24 - 3) 3 == [1, 2, 3]) = true := by decide +kernel
def ends (i : Instr) (s : State) : Option Fault := match exec i s with | .fault f => some f | _ => none
theorem test_aperture_end : ends (.apertureRead 0 (2 ^ 36 - 2) 3) (ranCtx []) = some .noSuchAddress ∧
    ends (.apertureWrite 0 (2 ^ 36) [1] false) (ranCtx []) = some .noSuchAddress := by decide +kernel
theorem test_pipe_config : doesIt (.pipeConfigWrite 0 3 true (2 ^ 64 - 1)) { sPi iRun with hub.items := [] } (fun t =>
    tenReg t 0 (oPipeB 3) == 0x0FFF_FE3F_FFFF) && doesIt (.pipeConfigWrite 0 3 false 0x4043) { sPi iRun with hub.items := [] } (fun t =>
    tenReg t 0 (oPipeA 3) == 0x4041) && idle (.pipeConfigWrite 0 3 true 5) (sPi iRunW) = true := by decide +kernel

/-- A window command that waits, with its argument: function 0. -/
def winSt (cmd arg : Nat) : State := { ranCtx [] with hub.winPend := some (cmd, arg), hub.regions := [] }
/-- Index 63, 2 units at tenant unit 2^20 − 2, the last two units of stack 15. -/
def wArg : Nat := (15 * 65536 + 45774) * 2 ^ 40 + 2 * 2 ^ 20 + (2 ^ 20 - 2)
theorem wit_window : assignReason { winSt 0 0 with regs := [(aSave, 0)] } 0 63 (winArg wArg) = 0 ∧ assignReason (winSt 0 0) 0 0 (winArg wArg) = 1 ∧
    assignReason (winSt 0 0) 0 1 (winArg (wArg + 1)) = 2 ∧ assignReason (winSt 0 0) 0 1 (winArg (4 * 2 ^ 40 + 2 ^ 20 + 99)) = 3 ∧
    assignReason (winSt 0 0) 0 1 (winArg (wArg + 2 ^ 40)) = 4 ∧ releaseReason (winSt 0 0) 0 0 = 0 ∧ releaseReason (ranCtx []) 0 0 = 5 ∧
    releaseReason (winSt 0 0) 0 1 = 6 := by decide +kernel
theorem test_window : doesIt .winAssign { winSt (2 ^ 30 + 63) wArg with regs := [(aSave, 0)] } (fun t => (getFunc t 0).wins ==
    [(0, ⟨8, 0, 4⟩), (63, ⟨2, 2 ^ 20 - 2, 15 * 65536 + 45774⟩)] && t.hub.winPend == none) && doesIt .winAssign (winSt (2 ^ 30) wArg) (fun t =>
    t.hub.winReason == 1 && t.hub.winRefused && (getFunc t 0).wins == [(0, ⟨8, 0, 4⟩)]) && doesIt .winRelease (winSt (2 ^ 31) 0) (fun t =>
    (getFunc t 0).wins == [] && t.mem.scrub == [⟨2 ^ 23, 2 ^ 24⟩]) && doesIt .winRelease (winSt (2 ^ 31 + 1) 0) (fun t =>
    t.hub.winReason == 6 && t.hub.winRefused) = true := by decide +kernel
theorem test_qassign : doesIt (.qassignWrite 0 (2048 * 2 ^ 16 + 63488)) State.reset (fun t => qaBase t 0 == 63488 && qaCount t 0 == 2048) &&
    doesIt (.qassignWrite 0 (2048 * 2 ^ 16 + 63489)) State.reset (fun t => t.hub.qaRefused == [0] && qaCount t 0 == qaCount State.reset 0) &&
    doesIt (.qassignWrite 0 (2 ^ 16)) (sQu (runQ 0 0)) (fun t => t.hub.qaRefused == [0]) = true := by decide +kernel

/-! ### Function control -/

/-- Function `f` of 1,023 virtual ones, with queue 2 in RUN and queue 3 in HOLD. -/
def sFn (f : Nat) (g : Func → Func) : State :=
  let s := modQueue { State.reset with hub.numVfs := 1023 } f 2 (fun k => { k with st := .run })
  modFunc (modQueue s f 3 (fun k => { k with st := .hold })) f g
def qs (t : State) (f : Nat) : List QSt := [(getQueue t f 2).st, (getQueue t f 3).st]
theorem wit_function : funcLive (sFn 1023 id) 1023 ∧ w1cTakes (sFn 1023 id) (tenAddr 1023 oTenStat) 31 (2 ^ 31) = true := by
  unfold funcLive; decide +kernel
theorem test_bme : doesIt (.bmeClear 1023) (sFn 1023 id) (fun t => qs t 1023 == [.hold, .hold] && !(getFunc t 1023).bme) && doesIt (.bmeSet 1023)
    (sFn 1023 (fun k => { k with bme := false, pba := [9], msix := [(16 * 9 + 12, 1)], cfg := [(0x83, 0x80)] })) (fun t => qs t 1023 == [.run, .run] && t.out == [.irq 1023 9] &&
      (getFunc t 1023).pba == []) && doesIt (.bmeSet 1023) (sFn 1023 (fun k => { k with hbexp := true })) (fun t => qs t 1023 == [.hold, .hold]) = true := by
  decide +kernel
def sHb (g : Func → Func) : State := { setReg (sFn 1023 g) (tenAddr 1023 oHbCtl) 0x8000_0004 with clock.ftc := 4000000 }
theorem test_heartbeat : doesIt (.heartbeatKick 1023) (sHb id) (fun t => (getFunc t 1023).hbStart == 4000000) && idle (.heartbeatKick 1023) (sFn 1023 id) &&
    idle (.heartbeatExpire 1023) { sHb id with clock.ftc := 3999999 } &&
    doesIt (.heartbeatExpire 1023) (sHb id) (fun t => (getFunc t 1023).hbexp && qs t 1023 == [.hold, .hold]) && doesIt (.hbexpClear 1023)
    (sHb (fun k => { k with hbexp := true })) (fun t => !(getFunc t 1023).hbexp && (getFunc t 1023).hbStart == 4000000 && qs t 1023 == [.run, .run]) &&
    doesIt (.heartbeatDisable 1023) (sHb (fun k => { k with hbexp := true })) (fun t => tenReg t 1023 oHbCtl == 4 && !(getFunc t 1023).hbexp &&
      qs t 1023 == [.run, .run]) = true := by decide +kernel
def iOf (f : Nat) : Item := { it 0 .taken [] with f := f, id := f }
def sFl (e : EclSt) : State :=
  let s := setReg (sFn 1023 (fun k => { k with frTail := 4, wins := [(0, ⟨8, 0, 4⟩)] })) (tenAddr 1023 oHbCtl) 5
  { s with hub.items := [iOf 0, iOf 1023], ecl := { eclReset with st := e } }
theorem test_flr : doesIt (.flr 1023) (sFl .idle) (fun t => getFunc t 1023 == { funcReset with wins := [(0, ⟨8, 0, 4⟩)], flrbusy := true } &&
    t.hub.items == [iOf 0] && qs t 1023 == [.off, .off] && tenReg t 1023 oHbCtl == resetOf (tenAddr 1023 oHbCtl)) && doesIt (.flr 1023)
    (sFl .stopping) (fun t => t.ecl.resets == [1023] && t.ecl.flrres && (getFunc t 1023).flrbusy && t.hub.items.length == 2) = true := by decide +kernel
theorem test_pf_flr : doesIt .pfFlr (sFl .idle) (fun t => t.hub.items == [] && t.hub.numVfs == 0 && (getFunc t 1023).wins == [] &&
    (getFunc t 0).flrbusy && (getFunc t 0).bme) && doesIt .hotReset (sFl .idle) (fun t => t.hub.items == [] && !(getFunc t 0).bme) && doesIt .hotReset
    (sFl .stopped) (fun t => t.ecl.resets == [1024] && (getFunc t 0).flrbusy) && doesIt .pfFlr (sFl .stopped) (fun t => t.ecl.resets == [0]) = true := by
  decide +kernel
theorem test_flr_late : doesIt (.flrDone 1023) { setReg (sFn 1023 (fun k => { k with flrbusy := true, frTail := 3 })) (tenAddr 1023 oHbCtl) 7 with
    hub.numVfs := 1023 } (fun t => tenReg t 1023 oHbCtl == tenReg State.reset 1023 oHbCtl && (getFunc t 1023).frTail == 0 && qs t 1023 == [.off, .off]) &&
    idle (.flrDone 1023) { sFn 1023 (fun k => { k with flrbusy := true }) with ecl.resets := [1023] } = true := by decide +kernel
theorem test_flr_done : doesIt (.flrDone 1023) (sFn 1023 (fun k => { k with flrbusy := true })) (fun t => !(getFunc t 1023).flrbusy) && doesIt (.flrDone 0)
    (sFn 1023 (fun k => { k with flrbusy := true })) (fun t => !(getFunc t 1023).flrbusy) && doesIt .perstDeassert { State.reset with mng.linkUp := false, mng.perst := false } (fun t => !t.mng.linkUp &&
    t.mng.perst) = true := by decide +kernel
def up (s : State) : State := { s with mng.linkUp := true }
theorem test_config : doesIt (.configRequest 1023 4092 4 none) { sFn 1023 id with mng.linkUp := false } (fun t => t.out == [.cfg 1023 4092 none]) && doesIt (.configRequest 1023 2 2 none)
    (up (sFn 1023 id)) (fun t => t.out == [.cfg 1023 2 (some 0x5325)]) && doesIt (.configRequest 0 9 3 none) (up State.reset) (fun t => t.out ==
    [.cfg 0 9 (some 0x120000)]) && doesIt (.configRequest 1023 0x158 4 none) (after (.configRequest 1023 0x158 4 (some 0x01020304)) (up (sFn 1023
    id))) (fun t => t.out == [.cfg 1023 0x158 (some 0x20000)]) && doesIt (.configRequest 1023 4 2 (some 0xFFFB)) (up (sFn 1023 id)) (fun t => !(getFunc t 1023).bme && qs t 1023 == [.hold, .hold]) &&
    doesIt (.configRequest 0 0x108 2 (some 1)) (up (modFunc State.reset 0 (fun k => { k with cfg := [(0x110, 2), (0x111, 8)] }))) (fun t =>
      t.hub.numVfs == 1023) = true := by decide +kernel

/-! ### Register accesses -/

/-- A counter of function 1,023 that stands at 9, three of them from the present event tick. -/
def sRc : State :=
  let a := tenAddr 1023 oDbDrop
  { State.reset with hub.numVfs := 1023, ctrs := [(a, 9)], nowCtr := [(a, (6, 3))] }
def reads (i : Instr) (s : State) (f a n v : Nat) : Bool := doesIt i s (fun t => t.out == [.read f a n v] && t.ctrs == s.ctrs && t.regs == s.regs)
theorem wit_registers : funcLive sRc 1023 ∧ inEmu (0x10_0000 + oDbDrop) = false ∧ winOf (0x10_0000 + oDbDrop) = none ∧
    mayRead sRc 1023 (0x10_0000 + oDbDrop) = true ∧ isRc32 (0x10_0000 + oDbDrop) = true ∧ isRc32 0x44 = false ∧ is64 (0x44 / 8 * 8) = false ∧
    is64 0x50 = true ∧ isRc64 0x50 = false ∧ isLog 0x50 = false ∧ mayRead sRc 1023 0x44 = false ∧ w1cTakes State.reset aHubStat 31 (2 ^ 31) = true ∧
    w1cTakes State.reset aHubStat 31 (2 ^ 31 - 1) = false := by unfold funcLive; decide +kernel
theorem test_rc_read : doesIt (.rcRead 1023 (0x10_0000 + oDbDrop) 4) sRc (fun t => t.out == [.read 1023 (0x10_0000 + oDbDrop) 4 6] &&
    ctr t (tenAddr 1023 oDbDrop) == 3) && reads (.rcRead 0 0x44 4) { State.reset with pow := { powerReset with tin := 0, tout := -40 } } 0 0x44 4 0xD800_0000 &&
    reads (.rcRead 0 0x50 8) { State.reset with pow := { powerReset with uj := 2 ^ 64 - 1 } } 0 0x50 8 (2 ^ 64 - 1) && reads (.rcRead 1023 0x44 4) sRc 1023 0x44 4 0 &&
    reads (.rcRead 0 0x51 8) State.reset 0 0x51 8 0 && reads (.rcRead 0 (2 ^ 28 - 4) 4) State.reset 0 (2 ^ 28 - 4) 4 0 = true := by decide +kernel
def wr (i : Instr) (r x : Nat) : Bool := doesIt i sRc (fun t => reg t r == x)
theorem test_register_write : wr (.registerWrite 1023 (0x10_0000 + oFrAddr) 8 (2 ^ 64 - 1)) (tenAddr 1023 oFrAddr) (2 ^ 64 - 256) &&
    wr (.registerWrite 1023 (0x10_0000 + oFrCfg) 4 (2 ^ 32 - 1)) (tenAddr 1023 oFrCfg) 0x87FF_003F && wr (.registerWrite 0 (0x10_0000 + oDbgCon) 4 3) (tenAddr 0 oDbgCon) 1 &&
    wr (.registerWrite 0 aPfVec 4 (2 ^ 32 - 1)) aPfVec 0x87FF_87FF && wr (.registerWrite 0 aFtcArm 8 (2 ^ 64 - 1)) aFtcArm (2 ^ 64 - 1) &&
    wr (.registerWrite 0 aWinArg 8 (2 ^ 64 - 1)) aWinArg (2 ^ 60 - 1) && wr (.registerWrite 0 aLnkCtl 4 (2 ^ 32 - 1)) aLnkCtl 0xFFFF_00FF &&
    idle (.registerWrite 0 0x44 4 5) sRc && idle (.registerWrite 1023 aPfVec 4 5) sRc = true := by
  decide +kernel
def sDown : State := { State.reset with pow := { powerReset with emuDown := true } }
theorem test_w1c : doesIt (.registerWrite 0 aHubStat 4 (2 ^ 31)) sDown (fun t => !t.pow.emuDown) && idle (.registerWrite 0 aHubStat 4 (2 ^ 31 - 1)) sDown &&
    idle (.registerWrite 0 aHubStat 4 (2 ^ 31)) { sDown with nowSet := [(aHubStat, 2 ^ 31)] } && doesIt (.registerWrite 0 (lnkAddr 0x1_FFFF) 1 0x103)
      State.reset (fun t => t.lnk.rt == [(65535, 3)]) = true := by decide +kernel

/-! ### Power domains -/

/-- Cluster 1,535 without partitions, a seed and a byte of scratchpad in it, idle power-off allowed. -/
def sIdl (g : Clu → Clu) : State :=
  let s := setReg State.reset (emuAddr 8) 0x8000_005F
  let s := modSlot s 1535 3 (fun k => { k with seed := 77, plen := 5 })
  modClu { s with cl.spad := [(spadKey 1535 (2 ^ 25 - 1), 9)] } 1535 g
def c1535 (t : State) : Clu := getClu t 1535
theorem wit_idle_off : (sIdl id).pow.on = true ∧ (sIdl id).pow.shut = none ∧ emIdleOff (sIdl id) = true ∧ stwIsDown (sIdl id) (stwOfClu 1535) = false ∧
    islStopped (c1535 (sIdl id)) = false ∧ domainIdle (sIdl id) 1535 = true ∧ domainIdle (modSlot (sIdl id) 1535 0 (fun k => { k with pvalid := true })) 1535 = false := by
  decide +kernel
theorem test_idle_off : doesIt (.idlePowerOff 1535) (sIdl id) (fun t => (c1535 t).compOff && t.cl.spad == [] && (getSlot t 1535 3).seed == 77 &&
    (getSlot t 1535 3).plen == 0) && idle (.idlePowerOff 1535) (sIdl (fun k => { k with fence := 1 })) = true := by decide +kernel
theorem test_power_up : doesIt (.clusterPowerUp 1535) (sIdl (fun k => { k with compOff := true })) (fun t => !(c1535 t).compOff && (c1535 t).fence == 0xFFFF &&
    (c1535 t).scrubQ == [(0, 16)]) && idle (.clusterPowerUp 1535) (sIdl id) = true := by decide +kernel
theorem test_clock_restart : doesIt (.clockRestart 1535) (sIdl (fun k => { k with clkStop := true })) (fun t => !(c1535 t).clkStop) &&
    idle (.clockRestart 1535) (sIdl (fun k => { k with clkStop := true, parkHw := true })) && idle (.clockRestart 1535) (sIdl id) = true := by decide +kernel

/-! ### Supply and sensors -/

def powd (g : Power → Power) : State := { State.reset with pow := g powerReset }
def shuts (i : Instr) (s : State) (th : Bool) : Bool :=
  doesIt i s (fun t => t.pow.shut == some th && t.pow.thermTrip == th && !t.pow.pwrGood && t.pow.on)
theorem test_supply : shuts (.supplySample 72001 1 1) State.reset false && shuts (.supplySample 35999 1 1) State.reset false &&
    doesIt (.supplySample 42000 (2 ^ 64) 1) (powd (fun p => { p with low := true })) (fun t => !t.pow.low && t.pow.vin == 4200 &&
      t.pow.uj == 2 ^ 64 - 1) && doesIt (.supplySample 36000 1 1) State.reset (fun t => t.pow.low && t.pow.brown && t.pow.brSeen && t.pow.vin == 3600) =
    true := by decide +kernel
/-- 66 V for 100 ms and 72 V for 1 ms are the last that the envelope takes, in pieces too, and a second later they are forgotten. -/
def v66 (a n : Nat) : State := powd (fun p => { p with us := 2000000, high := [(a, n, false)] })
theorem test_envelope : doesIt (.supplySample 66000 1 100000) State.reset (fun t => t.pow.shut == none) && shuts (.supplySample 66000 1 100001) State.reset false &&
    doesIt (.supplySample 72000 1 1000) State.reset (fun t => t.pow.shut == none) && shuts (.supplySample 66001 1 1001) State.reset false &&
    shuts (.supplySample 60001 1 1) (v66 1900000 100000) false && doesIt (.supplySample 60000 1 1) (v66 1900000 100000) (fun t => t.pow.shut == none) &&
    doesIt (.supplySample 60001 1 100000) (v66 1000000 100000) (fun t => t.pow.shut == none && t.pow.high == [(2000000, 100000, false)]) = true := by
  decide +kernel
/-- What a command that sets frequencies anew leaves of cluster 1,535, which held `k`, in a state with `g` done to its power. -/
def tune (g : Power → Power) (k : Clu) : Nat × Nat := let v := tuned (powd g) 1535 k; (v.cfreq, v.sfreq)
theorem test_supply_cap : tune (fun p => { p with brown := true }) cluReset = (14, 14) ∧ tune (fun p => { p with fastCap := true }) cluReset = (28, 28) ∧
    tune id { cluReset with cfreq := 14, caps := [(3, 28)] } = (28, 28) ∧ tune id { cluReset with cfreq := 14, caps := [(2, 20), (1, 13)] } = (14, 14) := by
  decide +kernel
theorem test_brownout : doesIt .brownoutRelease (powd (fun p => { p with brown := true, vin := 4300 })) (fun t => !t.pow.brown) &&
    idle .brownoutRelease (powd (fun p => { p with brown := true, vin := 4299 })) && idle .brownoutRelease State.reset &&
    shuts .brownoutTimeout (powd (fun p => { p with brown := true, low := true })) false && shuts .pwrEnDeassert State.reset false &&
    idle .orderlyShutdown State.reset = true := by decide +kernel
theorem test_shutdown : doesIt .orderlyShutdown { powd (fun p => { p with shut := some true }) with fuses := { fusesReset with serial := 7 }, host := [(1, 1)] }
    (fun t => !t.pow.on && !t.pow.pwrGood && t.fuses.serial == 7 && t.host == [(1, 1)] && t.cl == State.reset.cl) = true := by decide +kernel
theorem test_sensors : shuts (.sensorRead [(3, 20), (1535, 115)] [] 0) State.reset true && shuts (.sensorRead [] [(23, 110)] 0) State.reset true &&
    shuts (.sensorRead [] [] 110) State.reset true && doesIt (.sensorRead [] [(23, 109)] 109) State.reset (fun t => t.pow.shut == none && t.pow.hubT == 109) &&
    doesIt (.sensorRead [(1535, 110)] [] 0) State.reset (fun t => (c1535 t).parkHw && !cluRuns t 1535 && ctr t aThermPark == 1) &&
    doesIt (.sensorRead [(1535, 109)] [] 0) State.reset (fun t => (c1535 t).tj == 109 && !(c1535 t).parkHw) &&
    doesIt (.sensorRead [] [(23, 151)] 25) State.reset (fun t => t.hub.fenced == [23] && t.pow.shut == none && (c1535 t).lost) &&
    doesIt (.sensorRead [] [(23, -40)] 25) State.reset (fun t => t.hub.fenced == [] && t.pow.uncore == [(23, -40)]) &&
    doesIt (.coolantSensorRead (-5) 60) State.reset (fun t => t.pow.tin == -5 && t.pow.tout == 60) = true := by decide +kernel
theorem wit_fast : fastDue 24001 [] = true ∧ fastDue 24000 (List.replicate 9 20001) = true ∧ fastDue 24000 (20000 :: List.replicate 8 30000) = false := by
  decide +kernel
theorem test_fast_limiter : doesIt (.fastLimiterSample 24001 [] true) State.reset (fun t => t.pow.fastCap) &&
    idle (.fastLimiterSample 24000 [] false) (powd (fun p => { p with fastCap := true })) && doesIt (.fastLimiterSample 24000 [] true)
      (powd (fun p => { p with fastCap := true })) (fun t => !t.pow.fastCap) = true := by decide +kernel

/-! ### Bring-up -/

def sUnp : State := { powd (fun p => { p with on := false, pwrGood := false }) with fuses := { fusesReset with okA := true, svnA := 3 } }
theorem wit_bring_up : [(2, 1535, 0), (3, 5, 0), (1, 6, 8), (4, 511, 256)].all foundOk = true ∧ sUnp.pow.on = false ∧ bootCopy sUnp = some false ∧
    bootCopy { sUnp with fuses := { sUnp.fuses with minSvn := 4, okB := false } } = none := by decide +kernel
theorem test_bring_up : doesIt (.bringUp ⟨42000, 100⟩ [(2, 5, 0), (1, 6, 8)] [] [15] []) sUnp (fun t => t.pow.on && t.mng.testing && t.pow.vin == 4200 &&
    (getClu t 5).lost && (getClu t 5).bypass && (getClu t 6).dead == [8] && !(getClu t 6).lost && t.mng.nlost == 1 && (getStack t 15).st == .failed &&
    t.sec.svn == 3 && t.pow.stwFail == []) && idle (.bringUp ⟨41999, 100⟩ [] [] [] []) sUnp && idle (.bringUp ⟨42000, 99⟩ [] [] [] []) sUnp && idle (.bringUp ⟨48000, 100⟩ [] [] [] []) State.reset = true := by
  decide +kernel
theorem test_bring_up_die : doesIt (.bringUp ⟨42000, 100⟩ [(2, 1535, 0)] [⟨23, none, 3, 0⟩, ⟨22, none, 2, 2⟩, ⟨4, some 9, 0, 3⟩] [] []) { sUnp with fuses := { sUnp.fuses with okA := false, okB := false } } (fun t =>
    t.hub.fenced == [23, 9] && t.pow.stwFail == [0, 1, 2, 3]) &&
    doesIt (.bringUp ⟨42000, 100⟩ [(5, 0, 0)] [] [] []) sUnp (fun t => t.pow.on && t.mng.hubBad && !t.pow.pwrGood && t.mng.testing) = true := by decide +kernel
def sTesting (g : Manage → Manage) : State := { powd (fun p => { p with stwFail := [2] }) with mng := g { manageReset with testing := true } }
theorem test_link_up : doesIt (.bringUp ⟨42000, 100⟩ [] [] [] []) (sTesting (fun m => { m with linkUp := false })) (fun t => t.mng.linkUp && t.mng.testing) &&
    idle (.bringUp ⟨42000, 100⟩ [] [] [] []) (sTesting (fun m => { m with linkUp := false, perst := false })) = true := by decide +kernel
theorem test_at_speed : doesIt (.bringUp ⟨42000, 100⟩ [(3, 1535, 0)] [] [] []) (sTesting id) (fun t => !t.mng.testing && t.mng.slow == [2] && (c1535 t).lost &&
    !(c1535 t).bypass && t.mng.nlost == 1) = true := by decide +kernel
theorem test_bring_up_stop : doesIt .bringUpStop (sTesting (fun m => { m with linkUp := false })) (fun t => t.pow.alert && t.pow.shut == some false) &&
    idle .bringUpStop (sTesting id) && doesIt .bringUpStop (sTesting (fun m => { m with hubBad := true })) (fun t => !t.pow.pwrGood) && idle .bringUpStop
    State.reset = true := by decide +kernel

/-! ### Stewards -/

theorem wit_shares : emLimit State.reset - 10000 = 10000 ∧ 4 * ceilDiv (15 * 10000) 100 ≤ 10000 ∧ ceilDiv (15 * 10000) 100 ≤ 10000 * 1500 / 10000 := by
  decide +kernel
theorem test_budget : doesIt (.budgetDivide 10000 [1500, 1500, 1500, 5500]) State.reset (fun t => t.pow.shares == [1500, 1500, 1500, 5500]) &&
    doesIt (.budgetDivide 10000 [1000, 0, 0, 0]) State.reset (fun t => t.pow.shares == [5500, 1500, 1500, 1500]) &&
    doesIt (.budgetDivide 10000 [9, 9, 9, 9]) (powd (fun p => { p with stwDown := [3], shares := [1, 2, 3, 4000] })) (fun t =>
      nth 0 t.pow.shares 3 == 4000 && nth 0 t.pow.shares 0 == 2000) = true := by decide +kernel
/-- Cluster 1,535 belongs to steward 3. -/
def sStw (tj : Int) (f : Nat) (caps : Tab Nat) : State := modClu State.reset 1535 (fun k => { k with tj := tj, cfreq := f, caps := caps })
theorem wit_steward : stwOfClu 1535 = 3 ∧ emTarget State.reset = 95 ∧ thermLower (sStw 98 56 []) 1535 (c1535 (sStw 98 56 [])) = 3 ∧
    thermCool (sStw 93 56 []) 1535 (c1535 (sStw 93 56 [])) = true ∧ thermCool (sStw 94 56 []) 1535 (c1535 (sStw 94 56 [])) = false := by decide +kernel
def th (tj : Int) (f : Nat) (caps : Tab Nat) : Nat := capAt (thermStep State.reset 1535 { cluReset with tj := tj, cfreq := f, caps := caps }) 1
theorem test_loop_thermal : th 98 56 [] = 53 ∧ th 130 56 [] = 21 ∧ th 140 56 [] = 14 ∧ th 93 40 [(1, 20)] = 24 ∧ th 93 40 [(1, 55)] = 56 ∧
    th 94 40 [(1, 20)] = 20 ∧ idle (.stewardLoop 3 [] 9 9) (powd (fun p => { p with stwFail := [3] })) = true := by decide +kernel
theorem test_loop_park : (thermStep State.reset 1535 { cluReset with tj := 100, cfreq := 14 }).parkStw = true ∧ (thermStep State.reset 1535
    { cluReset with tj := 99, cfreq := 14 }).clkStop = false ∧ doesIt (.stewardLoop 0 [] 65536 65535) State.reset (fun t => t.pow.pavg == 65535 &&
    t.pow.pmax1 == 65535) = true := by decide +kernel
def sEmq : State := powd (fun p => { p with emq := [⟨0, 0x15C, 20⟩, ⟨0, 8, 90⟩] })
theorem test_watchdog : doesIt (.watchdogFire 3) sEmq (fun t => t.pow.stwDown == [3] && t.pow.emq == [⟨0, 8, 90⟩] && ctr t aStwRestart == 1 &&
    ctr t aEmuWdrop == 1) = true := by decide +kernel
def sFloor : State := powd (fun p => { p with stwDown := [3], shares := [0, 0, 0, 1000] })
theorem test_restart : doesIt (.stewardRestartDone 3 true) sFloor (fun t => t.pow.stwDown == []) && doesIt (.stewardRestartDone 3 false) sFloor (fun t =>
    t.pow.stwFail == [3] && t.pow.stwDown == [3]) && ((fromFloor { cluReset with caps := [(2, 40), (3, 20)] }).caps == [(2, 20)]) = true := by decide +kernel
def sRot : State := { sFloor with fuses := { sFloor.fuses with okA := false, okB := false } }
theorem wit_steward_restart : copyStands sFloor = true ∧ copyStands sRot = false ∧ doesIt (.stewardRestartDone 3 true) sRot (fun t =>
    t.pow.stwFail == [3] && t.pow.stwDown == [3]) = true := by decide +kernel
def fl (w c3 : Nat) (tj : Int) : Nat := capAt (floorStep sFloor w 1000 1535 { cluReset with tj := tj, caps := [(3, c3)] }) 3
theorem test_floor : fl 601 20 30 = 19 ∧ fl 601 14 30 = 14 ∧ fl 600 20 30 = 20 ∧ fl 599 20 30 = 21 ∧ fl 599 28 99 = 28 ∧ fl 599 20 100 = 14 ∧
    idle (.floorGovernorTick 3 9) State.reset = true := by decide +kernel

/-! ### Steward registers -/

def emR (i : Instr) (s : State) (f off n v : Nat) : Bool := doesIt i s (fun t => t.out == [.read f (emuAddr off) n v] && t.pow.emq == s.pow.emq)
theorem test_em_read : emR (.emRead 1023 0 4) sRc 1023 0 4 0 && emR (.emRead 0 0xFFE 2) State.reset 0 0xFFE 2 0xFFFF && emR (.emRead 0 0xC 4) State.reset 0 0xC 4 0 && emR (.emRead 0 0x15C 4) State.reset 0 0x15C 4 56 &&
    emR (.emRead 0 4 4) (powd (fun p => { p with pavg := 5, pmax1 := 7 })) 0 4 4 0x7_0005 && doesIt (.emRead 0 0x15C 4) (powd (fun p => { p with stwDown := [3] })) (fun t =>
      t.pow.emuDown && t.out == [.read 0 (emuAddr 0x15C) 4 0xFFFF_FFFF]) && doesIt (.emRead 0 8 4) sEmq (fun t => t.out == [.read 0 (emuAddr 8) 4 90] &&
      t.pow.emq == [⟨0, 0x15C, 20⟩]) = true := by decide +kernel
theorem test_em_write : idle (.emWrite 1023 0 4 5) sRc && doesIt (.emWrite 0 0 8 5) State.reset (fun t => ctr t aEmuWdrop == 1) && idle (.emWrite 0 0xC 4 5) State.reset &&
    doesIt (.emWrite 0 0x15C 4 (2 ^ 32 + 5)) State.reset (fun t => t.pow.emq == [⟨0, 0x15C, 5⟩]) && doesIt (.emWrite 0 0x15C 4 5)
      (powd (fun p => { p with stwDown := [3] })) (fun t => ctr t aEmuWdrop == 1 && t.pow.emq == []) = true := by decide +kernel
theorem test_em_apply : doesIt (.emWriteApply 3) sEmq (fun t => t.pow.emq == [⟨0, 8, 90⟩] && reg t (emuAddr 0x15C) == 20) && doesIt (.emWriteApply 0) sEmq (fun t =>
    t.pow.emq == [⟨0, 0x15C, 20⟩] && reg t (emuAddr 8) == 90) && idle (.emWriteApply 1) sEmq && idle (.emWriteApply 3)
      (powd (fun p => { p with stwDown := [3], emq := [⟨0, 0x15C, 20⟩] })) = true := by decide +kernel

/-! ### Firmware and keys -/

def fus (g : Fuses → Fuses) : State := { State.reset with fuses := g fusesReset }
def secd (s : State) (g : Security → Security) : State := { s with sec := g s.sec }
def sUpd (b : Bool) : State := secd (fus (fun z => { z with headB := b, minSvn := 5 })) (fun k => { k with upd := 1 })
theorem wit_firmware : funcLive (sUpd true) 0 ∧ funcLive { sUpd true with hub.numVfs := 1 } 1 := by unfold funcLive; decide +kernel
theorem test_fw_write : doesIt (.fwWrite 0 (2 ^ 25 - 4) [1, 2, 3, 4]) State.reset (fun t => memBytes t.fuses.fwB (2 ^ 25 - 4) 4 == [1, 2, 3, 4] &&
    t.fuses.fwA == [] && t.fuses.headB == false) && doesIt (.fwWrite 0 0 [1, 2, 3, 4, 5, 6, 7, 8]) (fus (fun z => { z with headB := true })) (fun t =>
      memBytes t.fuses.fwA 0 8 == [1, 2, 3, 4, 5, 6, 7, 8] && t.fuses.fwB == []) && idle (.fwWrite 0 0 [1, 2, 3, 4]) (sUpd false) && idle (.fwWrite 1 0 [1, 2, 3, 4])
      { State.reset with hub.numVfs := 1 } = true := by decide +kernel
theorem test_fw_verify : doesIt (.fwVerify 0) State.reset (fun t => t.sec.upd == 1) && idle (.fwVerify 1) { State.reset with hub.numVfs := 1 } &&
    doesIt (.fwVerifyDone true 5 [7]) (sUpd false) (fun t => t.sec.upd == 2 && t.fuses.headB && t.fuses.okB && t.fuses.svnB == 5 && t.fuses.digB == [7]) &&
    doesIt (.fwVerifyDone true 4 [7]) (sUpd true) (fun t => t.sec.upd == 3 && t.fuses.headB && t.fuses.okA && t.fuses.svnA == 4 && t.fuses.minSvn == 5) &&
    doesIt (.fwVerifyDone false 9 []) (sUpd false) (fun t => t.sec.upd == 3 && !t.fuses.headB && !t.fuses.okB) && idle (.fwVerifyDone true 9 []) State.reset = true := by
  decide +kernel
theorem test_svn : doesIt (.svnCommit 0) (secd (sUpd false) (fun k => { k with svn := 9 })) (fun t => t.fuses.minSvn == 9) && doesIt (.svnCommit 0)
    (secd (sUpd false) (fun k => { k with svn := 3 })) (fun t => t.fuses.minSvn == 5) && doesIt (.keylockSet 0) State.reset (fun t => t.sec.keylock) &&
    idle (.keylockSet 1) { State.reset with hub.numVfs := 1 } && idle (.svnCommit 1) { sUpd false with hub.numVfs := 1 } = true := by decide +kernel
theorem test_key_slot : doesIt (.keySlotWrite 0 256 (2 ^ 64 - 1)) State.reset (fun t => memNat t.sec.keys 256 8 == 0x03FF_0003) && doesIt (.keySlotWrite 0
    (3840 + 136) (2 ^ 64 - 1)) State.reset (fun t => memNat t.sec.keys (3840 + 136) 8 == 2 ^ 32 - 1) && idle (.keySlotWrite 0 248 5) State.reset &&
    idle (.keySlotWrite 0 260 5) State.reset && idle (.keySlotWrite 0 256 5) (secd State.reset (fun k => { k with keylock := true })) &&
    idle (.keySlotWrite 1 256 5) { State.reset with hub.numVfs := 1 } = true := by decide +kernel

/-! ### Attestation -/

/-- Function 0's exchange, and a chain of three bytes. -/
def sSp (ver : Nat) (st : SpdmSt) : State :=
  putSpdm (fus (fun z => { z with chain := [0x30, 1, 2], serial := 7 })) 0 { spdmReset with ver := ver, st := st, nego := [9], meas := [8] }
def tells (t : State) (a : List Byte) : Bool := t.out == [.doe 0 a]
def req (ver code n : Nat) (fs : List (Nat × Byte)) : List Byte :=
  (List.range n).map (fun i => if i = 0 then BitVec.ofNat 8 ver else if i = 1 then BitVec.ofNat 8 code else tabGet 0 fs i)
def rNego (x y : Byte) : List Byte := req 0x13 0xE3 32 [(6, 2), (9, x), (12, y)]
theorem wit_spdm : rq (req 0x10 0x84 4 []) 1 = 0x84 ∧ bitB (descN (rNego 1 4) 8 4) 8 = true ∧ bitB (descN (rNego 1 4) 12 4) 2 = true ∧
    bitB (descN (rNego 0 4) 8 4) 8 = false ∧ bitB (descN (rNego 1 3) 12 4) 2 = false ∧ (getSpdm (sSp 0x13 .algs) 0).st = .algs := by decide +kernel
theorem test_spdm_version : doesIt (.getVersion 0 (req 0x10 0x84 4 [])) (sSp 0x13 .algs) (fun t => tells t [0x10, 4, 0, 0, 0, 2, 0, 0x12, 0, 0x13] &&
    (getSpdm t 0).st == .version && (getSpdm t 0).meas == []) && doesIt (.getCapabilities 0 (req 0x13 0xE1 20 [])) (sSp 0x12 .version) (fun t =>
      (getSpdm t 0).st == .caps && (getSpdm t 0).ver == 0x13) && doesIt (.getCapabilities 0 (req 0x13 0xE1 20 [])) (sSp 0x12 .caps) (tells · [0x12, 0x7F, 0x41, 0]) = true := by
  decide +kernel
theorem test_spdm_algorithms : doesIt (.negotiateAlgorithms 0 (rNego 1 4)) (sSp 0x13 .caps) (fun t => (getSpdm t 0).st == .algs && tells t ([0x13, 0x63, 0, 0, 36, 0,
    0, 0, 8, 0, 0, 0, 0, 1, 0, 0, 4, 0, 0, 0] ++ List.replicate 16 0)) && doesIt (.negotiateAlgorithms 0 (rNego 0 4)) (sSp 0x13 .caps) (tells · [0x13, 0x7F, 1, 0]) &&
    doesIt (.negotiateAlgorithms 0 (rNego 1 3)) (sSp 0x13 .caps) (tells · [0x13, 0x7F, 1, 0]) = true := by decide +kernel
theorem test_spdm_certificate : doesIt (.getCertificate 0 (req 0x12 0x82 8 [(4, 1), (6, 1)])) (sSp 0x12 .algs) (fun t => tells t [0x12, 2, 0, 0, 1, 0, 1, 0, 1] &&
    (getSpdm t 0).meas == [] && (getSpdm t 0).certs.length == 17) && doesIt (.getCertificate 0 (req 0x12 0x82 8 [(4, 2), (6, 9)])) (sSp 0x12 .algs)
      (tells · [0x12, 2, 0, 0, 1, 0, 0, 0, 2]) && doesIt (.getCertificate 0 (req 0x13 0x82 8 [])) (sSp 0x12 .algs) (tells · [0x12, 0x7F, 0x41, 0]) &&
    doesIt (.challenge 0 (req 0x12 0x83 36 [])) (sSp 0x12 .caps) (tells · [0x12, 0x7F, 4, 0]) && doesIt (.getDigests 0 (req 0x12 0x81 4 [])) (sSp 0x12 .caps)
      (tells · [0x12, 0x7F, 4, 0]) = true := by decide +kernel
theorem test_spdm_digests : doesIt (.getDigests 0 (req 0x13 0x81 4 [])) (sSp 0x13 .algs) (fun t => (t.out.map (fun o => match o with
    | .doe f a => (f, a.take 8, a.length) | _ => (9, [], 0))) == [(0, [0x13, 1, 1, 1, 0x7A, 0x98, 0xA8, 0x4E], 68)]) = true := by decide +kernel
theorem test_spdm_challenge : doesIt (.challenge 0 (req 0x12 0x83 36 [])) (sSp 0x12 .algs) (fun t => (getSpdm t 0).certs == [] && (getSpdm t 0).st == .algs &&
    (t.out.map (fun o => match o with | .doe f a => (f, a.take 4) | _ => (9, []))) == [(0, [0x12, 3, 0, 1])]) = true := by decide +kernel
theorem test_spdm_measurement : doesIt (.getMeasurements 0 (req 0x12 0xE0 4 [(3, 3)])) (secd (sSp 0x12 .algs) (fun k => { k with svn := 6 })) (fun t =>
    (t.out.map (fun o => match o with | .doe f a => (f, a.take 17) | _ => (9, []))) == [(0, [0x12, 0x60, 0, 0, 1, 9, 0, 0, 3, 1, 5, 0, 0x86, 2, 0, 6, 0])]) &&
    doesIt (.getMeasurements 0 (req 0x12 0xE0 37 [(2, 1), (3, 7)])) (sSp 0x12 .algs) (fun t => (getSpdm t 0).meas == []) = true := by decide +kernel

/-! ### The management bus -/

def mngd (g : Manage → Manage) : State := { fus (fun z => { z with serial := 7 }) with mng := g manageReset }
def says3 (i : Instr) (s : State) (b : List Byte) : Bool := doesIt i s (fun t => t.out == [.i3c b] && t.mng == s.mng)
theorem test_i3c_address : doesIt (.entdaa 0x88) (mngd id) (fun t => t.mng.da == some 8 && t.out == [.i3c (beBytes 6 (pid48 t) ++ [6, 0])]) &&
    idle (.entdaa 9) (mngd (fun m => { m with da := some 8 })) && doesIt (.setnewda 0x7F) (mngd (fun m => { m with da := some 8 })) (fun t => t.mng.da == some 0x7F) &&
    idle (.setnewda 9) (mngd id) && doesIt .rstdaa (mngd (fun m => { m with da := some 8 })) (fun t => t.mng.da == none && t.mng.hjWant) = true := by decide +kernel
theorem test_i3c_get : says3 .getbcr (mngd (fun m => { m with da := some 8 })) [6] && says3 .getdcr (mngd (fun m => { m with da := some 8 })) [0] &&
    says3 .getpid (mngd (fun m => { m with da := some 8 })) (beBytes 6 (pid48 (mngd id))) && idle .getpid (mngd id) && idle .getstatus (mngd id) &&
    idle .getbcr (mngd id) && idle .getdcr (mngd id) && doesIt .getstatus (mngd (fun m => { m with da := some 8 })) (fun t => t.out.length == 1) = true := by decide +kernel
theorem test_i3c_pid : (beBytes 6 (pid48 (mngd id))).take 2 = [0x38, 0xD7] := by decide +kernel
def hj (want en : Bool) (a : Option Nat) : State := mngd (fun m => { m with hjWant := want, hjEn := en, da := a })
theorem test_i3c_events : doesIt (.enec 9) (mngd (fun m => { m with ibiEn := false, hjEn := false })) (fun t => t.mng.ibiEn && t.mng.hjEn) &&
    doesIt (.disec 8) (mngd (fun m => { m with ibiEn := true, hjEn := true })) (fun t => t.mng.ibiEn && !t.mng.hjEn) && doesIt .hotJoin (hj true true none)
      (fun t => t.out == [.i3c [4]] && !t.mng.hjWant) && idle .hotJoin (hj true false none) && idle .hotJoin (hj false true none) &&
    idle .hotJoin (hj true true (some 8)) = true := by decide +kernel
theorem test_pldm : says3 (.pldmRequest [0x85, 2, 3, 4]) { mngd (fun m => { m with da := some 8 }) with pow := { powerReset with stwDown := [0] } } [5, 2, 3, 4] &&
    idle (.pldmRequest [0x85, 2, 3]) (mngd id) && doesIt (.pldmRequest [0x85, 2, 3]) (mngd (fun m => { m with da := some 8 })) (fun t => t.out.length == 1) = true := by
  decide +kernel

/-! ### The block: its queue, ticks, reset, invariants, geometry, register rules -/

theorem test_step : (match step { State.reset with pending := [.add 1536 0 1 2 3, .hotReset] } with | .fault x => x == .noSuchCluster | _ => false) &&
    (match step { State.reset with pending := [.rstdaa, .hotReset] } with | .next t => t.pending == [.hotReset] && t.mng.hjWant | _ => false) = true := by
  decide +kernel
def ticked (s : State) (p : State → Bool) : Bool := match step s with | .next t => p t | .fault _ => false | .refused _ => false
theorem test_tick : ticked State.reset (fun t => t == { State.reset with clock := t.clock } && t.clock.ftc == 1 && t.clock.raw == 1 && t.clock.tick == 1) &&
    ticked (clk (fun k => { k with tick := 1023, res := -5 })) (fun t => t.clock.ftc == 0 && t.clock.res == -4 && t.clock.tick == 0) &&
    ticked (clk (fun k => { k with tick := 1023, res := 5 })) (fun t => t.clock.ftc == 2 && t.clock.res == 4) && ticked (clk (fun k => { k with tick := 1023 }))
      (fun t => t.clock.ftc == 1) && ticked (powd (fun p => { p with on := false })) (fun t => t == powd (fun p => { p with on := false })) = true := by
  decide +kernel
/-- A slot whose next word adds registers 1 and 2 into 3. -/
def sAdd : State := modSlot s37 5 1 (fun k => { k with prog := [(10, 0x00611000#32)] })
theorem wit_issue : slotLive sAdd 5 1 ∧ decodeSeq 5 1 0x00611000#32 = some (.add 5 1 3 1 2) ∧ encodeSeq (.add 5 1 3 1 2) = some 0x00611000#32 ∧
    seqSlot (.add 5 1 3 1 2) = (5, 1) := by unfold slotLive; decide +kernel
def uAdd : State := modClu (fetchRun 5 1 sAdd) 5 (fun k => { k with rr := tabSet k.rr (clsCode .b) 2 })
theorem wit_tick : pickSlot sAdd 5 = some 1 ∧ cluRuns sAdd 5 = true ∧ busyClusters sAdd = [5] ∧ (getSlot sAdd 5 1).cls = .b ∧
    (∀ m, m < 4 → m ≠ 1 → (getSlot sAdd 5 m).st ≠ .running ∧ (getSlot sAdd 5 m).st ≠ .waiting ∧ (getSlot sAdd 5 m).busy = []) ∧
    (∀ m, m < 4 → (getSlot sAdd 5 m).yielded = false) ∧ (∀ p ∈ uAdd.cl.clus, p.2.ops = [] ∧ p.2.banks = []) ∧
    tick sAdd = { uAdd with clock := (tick sAdd).clock } := by decide +kernel
/-- Slots 0, 2 and 3 run ADDs too, slots 2 and 3 of class U; slot 2 issued last of them, so slot 3 comes before it. -/
def sRr : State :=
  let w := fun (c : Cls) => { getSlot sAdd 5 1 with cls := c }
  modClu (putSlot (putSlot (putSlot sAdd 5 0 (w .b)) 5 2 (w .u)) 5 3 (w .u)) 5 (fun k => { k with rr := [(clsCode .u, 3), (clsCode .b, 1)] })
theorem test_pick : pickSlot sRr 5 = some 3 ∧ pickSlot (tick sRr) 5 = some 2 ∧ pickSlot (modSlot (modSlot sRr 5 2 (fun k => { k with st := .halted }))
    5 3 (fun k => { k with st := .halted })) 5 = some 1 := by decide +kernel
theorem test_issue : ticked sAdd (fun t => rg t 3 == 4 && pcIs t 11 && t.clock.raw == 1) = true := by decide +kernel
theorem test_reset : State.reset.memOk = true ∧ reg State.reset aFtcCtl = 0x0040_0001 ∧ tenReg State.reset 1023 oHbCtl = 0x03E8 ∧
    cluReg State.reset 1535 (oTrcCfg 3) = 0x0610_0000_0000_0000 ∧ (getStack State.reset 15).st = .ready := by decide +kernel
theorem wit_canonical : sMem.memOk = true ∧ ({ State.reset with host := [(3, 1), (3, 2)] }).memOk = false ∧ ({ State.reset with host := [(3, 0)] }).memOk = false := by
  decide +kernel
theorem wit_locks : (secd State.reset (fun k => { k with keylock := true })).sec.keylock = true ∧ idle (.keySlotWrite 0 256 5)
    (secd State.reset (fun k => { k with keylock := true })) = true := by decide +kernel
theorem test_geometry : cluAt 47 31 = 1535 ∧ cluX 1535 = 47 ∧ cluY 1535 = 31 ∧ dieOf 1535 = 23 ∧ (dieClusters 23).contains 1535 = true := by decide +kernel
/-- A pipeline region over the whole torus, and one of 3 × 2 clusters. -/
def rAll : Region := { rgn3 with pipe := true, x0 := 0, y0 := 0, w := 48, h := 32 }
def rBox : Region := { rAll with x0 := 45, y0 := 30, w := 3, h := 2 }
theorem wit_geometry : regionRect rBox (cluAt 45 30) = true ∧ regionRect rBox (cluAt 47 31) = true ∧ regionRect rBox (cluAt 44 30) = false := by decide +kernel
theorem test_torus : torusPath rAll (cluAt 47 0) (cluAt 1 31) = [cluAt 0 0, cluAt 1 0, cluAt 1 31] ∧ torusPath rBox (cluAt 45 30) (cluAt 47 31) =
    [cluAt 46 30, cluAt 47 30, cluAt 47 31] := by decide +kernel
theorem wit_rules : isRc32 aThermPark = true ∧ isRc64 (cluAddr 1535 0x948) = true ∧ is64 (cluAddr 1535 0x948) = true ∧ winOf (cluAddr 1535 0x948) = none ∧
    mayRead State.reset 0 (cluAddr 1535 0x948) = true ∧ w1cTakes { State.reset with nowTick := 5 } aHubStat 31 (2 ^ 31) = true ∧
    w1cTakes (markSet State.reset aHubStat (2 ^ 31)) aHubStat 31 (2 ^ 31) = false ∧ State.reset.nowTick = eventTick State.reset := by decide +kernel
theorem test_rules : doesIt (.rcRead 0 aThermPark 4) (bump { State.reset with ctrs := [(aThermPark, 7)] } aThermPark 2) (fun t => t.out == [.read 0 aThermPark 4 7] &&
    ctr t aThermPark == 2) && doesIt (.rcRead 0 (cluAddr 1535 0x948) 8) (bumpW 64 State.reset (cluAddr 1535 0x948) 9) (fun t =>
      t.out == [.read 0 (cluAddr 1535 0x948) 8 0] && ctr t (cluAddr 1535 0x948) == 9) && doesIt (.rcRead 0 (cluAddr 1535 0x8DC) 4) (modSlot State.reset 1535 3 (fun k =>
      { k with seed := 2 ^ 64 - 1 })) (fun t => t.out == [.read 0 (cluAddr 1535 0x8DC) 4 0]) && idle (.registerWrite 0 (cluAddr 1535 0x8DC) 4 5) State.reset = true := by
  decide +kernel

end Sys2Proof.Tests
end

section
/-! PROOF. Where clusters and dies lie, and the way of a torus transfer on one axis and on both (R4 to R6, R290). -/

namespace Sys2Proof.Proofs

open Sys2Proof.Machine

/-! ### Positions and dies -/

theorem cluX_cluAt {x : Nat} (hx : x < 48) (y : Nat) : cluX (cluAt x y) = x := by
  unfold cluX cluAt; omega

theorem cluY_cluAt {x : Nat} (hx : x < 48) (y : Nat) : cluY (cluAt x y) = y := by
  unfold cluY cluAt; omega

theorem cluX_lt (c : Nat) : cluX c < 48 := Nat.mod_lt _ (by decide)

theorem cluY_lt {c : Nat} (hc : c < 1536) : cluY c < 32 := by
  unfold cluY; omega

theorem cluAt_lt {x y : Nat} (hx : x < 48) (hy : y < 32) : cluAt x y < 1536 := by
  unfold cluAt; omega

theorem dieOf_cluAt {x : Nat} (hx : x < 48) (y : Nat) : dieOf (cluAt x y) = y / 8 * 6 + x / 8 := by
  rw [dieOf, cluX_cluAt hx, cluY_cluAt hx, Nat.mul_comm]

/-- A die lists a cluster of its own at the place that the coordinates have within the die. -/
theorem cluAt_mem_dieClusters {x : Nat} (hx : x < 48) (y : Nat) : cluAt x y ∈ dieClusters (y / 8 * 6 + x / 8) := by
  refine List.mem_map.mpr ⟨x % 8 + 8 * (y % 8), List.mem_range.mpr (by omega), ?_⟩
  unfold cluAt
  omega

theorem regionRect_iff (d : Region) (c : Nat) :
    regionRect d c = true ↔ d.pipe = true ∧ (cluX c + 48 - d.x0) % 48 < d.w ∧ (cluY c + 32 - d.y0) % 32 < d.h := by
  simp [regionRect, inRect]

/-! ### Walks on an axis of `n` positions -/

/-- The position `i` steps from `a`, upwards or downwards. -/
def ringPos (n a : Nat) (up : Bool) (i : Nat) : Nat := if up then (a + i) % n else (a + 2 * n - i) % n

/-- The positions that the first `k` steps from `a` reach. -/
def ringWalk (n a : Nat) (up : Bool) (k : Nat) : List Nat := (List.range k).map (fun i => ringPos n a up (i + 1))

/-- A remainder of less than two turns. -/
theorem mod_of_lt_two_mul {x n : Nat} (h : x < 2 * n) : x < n ∧ x % n = x ∨ n ≤ x ∧ x % n = x - n := by
  rcases Nat.lt_or_ge x n with hx | hx
  · exact .inl ⟨hx, Nat.mod_eq_of_lt hx⟩
  · exact .inr ⟨hx, by rw [Nat.mod_eq_sub_mod hx, Nat.mod_eq_of_lt (by omega)]⟩

/-- Upwards, a walk of no more than a turn may pass the end of the axis once. -/
theorem ringPos_up {n a i : Nat} (ha : a < n) (hi : i ≤ n) :
    a + i < n ∧ ringPos n a true i = a + i ∨ n ≤ a + i ∧ ringPos n a true i = a + i - n :=
  mod_of_lt_two_mul (by omega)

/-- Downwards, it may pass 0 once. -/
theorem ringPos_down {n a i : Nat} (ha : a < n) (hi : i ≤ n) :
    i ≤ a ∧ ringPos n a false i = a - i ∨ a < i ∧ ringPos n a false i = a + n - i := by
  have h : ringPos n a false i = (a + n - i) % n := by
    rw [ringPos, if_neg (by decide), show a + 2 * n - i = a + n - i + n by omega, Nat.add_mod_right]
  have := mod_of_lt_two_mul (x := a + n - i) (n := n) (by omega)
  omega

theorem ringPos_zero {n a : Nat} (ha : a < n) (up : Bool) : ringPos n a up 0 = a := by
  cases up
  · have := ringPos_down ha (Nat.zero_le n)
    omega
  · have := ringPos_up ha (Nat.zero_le n)
    omega

theorem ringPos_lt {n a : Nat} (ha : a < n) (up : Bool) (i : Nat) : ringPos n a up i < n := by
  cases up <;> exact Nat.mod_lt _ (by omega)

/-- A step goes to a neighbour. -/
theorem ringPos_step {n a i : Nat} (ha : a < n) (hi : i < n) (up : Bool) :
    ringPos n a up (i + 1) = (ringPos n a up i + 1) % n ∨ ringPos n a up i = (ringPos n a up (i + 1) + 1) % n := by
  cases up
  · right
    have h0 := ringPos_down ha (show i ≤ n by omega)
    have h1 := ringPos_down ha (show i + 1 ≤ n by omega)
    have hm := mod_of_lt_two_mul (x := ringPos n a false (i + 1) + 1) (n := n) (by omega)
    omega
  · left
    rw [ringPos, ringPos, if_pos rfl, if_pos rfl, Nat.mod_add_mod, Nat.add_assoc]

/-- A walk of no more than a turn meets no position twice. -/
theorem ringPos_inj {n a i j : Nat} (ha : a < n) (up : Bool) (hi : i < n) (hj : j < n)
    (h : ringPos n a up (i + 1) = ringPos n a up (j + 1)) : i = j := by
  cases up
  · have h0 := ringPos_down ha (show i + 1 ≤ n by omega)
    have h1 := ringPos_down ha (show j + 1 ≤ n by omega)
    omega
  · have h0 := ringPos_up ha (show i + 1 ≤ n by omega)
    have h1 := ringPos_up ha (show j + 1 ≤ n by omega)
    omega

theorem ringWalk_ne_nil_iff {n a k : Nat} {up : Bool} : ringWalk n a up k ≠ [] ↔ k ≠ 0 := by
  simp [ringWalk]

theorem ringWalk_getLast {n a k : Nat} {up : Bool} (hk : k ≠ 0) : (ringWalk n a up k).getLast? = some (ringPos n a up k) := by
  obtain ⟨m, rfl⟩ := Nat.exists_eq_succ_of_ne_zero hk
  simp [ringWalk, List.range_succ]

theorem ringWalk_nodup {n a k : Nat} (ha : a < n) (hk : k ≤ n) (up : Bool) : (ringWalk n a up k).Nodup := by
  refine List.pairwise_map.mpr (List.Pairwise.imp_of_mem (fun {i j} hi hj hne h => ?_) List.nodup_range)
  have hi := List.mem_range.mp hi
  have hj := List.mem_range.mp hj
  exact hne (ringPos_inj ha up (by omega) (by omega) h)

/-- A walk with its start in front. -/
theorem cons_ringWalk {n a : Nat} (ha : a < n) (up : Bool) (k : Nat) :
    a :: ringWalk n a up k = (List.range (k + 1)).map (ringPos n a up) := by
  rw [List.range_succ_eq_map, List.map_cons, List.map_map, ringPos_zero ha]
  rfl

/-- Each position of a walk is a neighbour of the one before it. -/
theorem ringWalk_neighbours {n a k : Nat} (ha : a < n) (hk : k ≤ n) (up : Bool) (i b : Nat)
    (h : (a :: ringWalk n a up k)[i + 1]? = some b) :
    ∃ x, (a :: ringWalk n a up k)[i]? = some x ∧ (b = (x + 1) % n ∨ x = (b + 1) % n) := by
  rw [cons_ringWalk ha, List.getElem?_map] at h ⊢
  obtain ⟨j, hj, rfl⟩ := Option.map_eq_some_iff.mp h
  obtain ⟨hik, rfl⟩ := List.getElem?_eq_some_iff.mp hj
  rw [List.length_range] at hik
  refine ⟨ringPos n a up i, ?_, ?_⟩
  · rw [List.getElem?_range (by omega)]
    rfl
  · rw [List.getElem_range]
    exact ringPos_step ha (by omega) up

/-! ### The way on one axis (R290) -/

/-- The way on an axis goes upwards: where the range spans the axis in full, this is the shorter way; else it stays in the
range. -/
def goesUp (n a b lo len : Nat) : Bool :=
  if len = n then decide ((b + n - a) % n ≤ n / 2) else decide ((a + n - lo) % n ≤ (b + n - lo) % n)

/-- The steps from `a` to `b`. -/
def ringDist (n a b : Nat) (up : Bool) : Nat := if up then (b + n - a) % n else (a + n - b) % n

theorem ringDist_lt {n b : Nat} (hb : b < n) (a : Nat) (up : Bool) : ringDist n a b up < n := by
  cases up <;> exact Nat.mod_lt _ (by omega)

theorem axisPath_eq_ringWalk (n a b lo len : Nat) :
    axisPath n a b lo len = ringWalk n a (goesUp n a b lo len) (ringDist n a b (goesUp n a b lo len)) := by
  show (if goesUp n a b lo len = true then _ else _) = _
  cases goesUp n a b lo len <;> rfl

/-- The distance upwards from `lo` to `a`. -/
theorem rise_cases {n lo a : Nat} (hlo : lo < n) (ha : a < n) :
    lo ≤ a ∧ (a + n - lo) % n = a - lo ∨ a < lo ∧ (a + n - lo) % n = a + n - lo := by
  have := mod_of_lt_two_mul (x := a + n - lo) (n := n) (by omega)
  omega

section
variable {n a b : Nat} (ha : a < n) (hb : b < n)
include ha hb

theorem ringPos_ringDist (up : Bool) : ringPos n a up (ringDist n a b up) = b := by
  have hk := ringDist_lt hb a up
  cases up
  · have hd : ringDist n a b false = (a + n - b) % n := rfl
    have := rise_cases hb ha
    have := ringPos_down ha (Nat.le_of_lt hk)
    omega
  · have hd : ringDist n a b true = (b + n - a) % n := rfl
    have := rise_cases ha hb
    have := ringPos_up ha (Nat.le_of_lt hk)
    omega

theorem ringDist_ne_zero (h : a ≠ b) (up : Bool) : ringDist n a b up ≠ 0 := by
  intro h0
  have := ringPos_ringDist ha hb up
  rw [h0, ringPos_zero ha] at this
  exact h this

theorem axisPath_getLast {lo len : Nat} (h : axisPath n a b lo len ≠ []) : (axisPath n a b lo len).getLast? = some b := by
  rw [axisPath_eq_ringWalk] at h ⊢
  rw [ringWalk_getLast (ringWalk_ne_nil_iff.mp h), ringPos_ringDist ha hb]

theorem axisPath_ne_nil (lo len : Nat) (h : a ≠ b) : axisPath n a b lo len ≠ [] := by
  rw [axisPath_eq_ringWalk]
  exact ringWalk_ne_nil_iff.mpr (ringDist_ne_zero ha hb h _)

theorem axisPath_nodup (lo len : Nat) : (axisPath n a b lo len).Nodup := by
  rw [axisPath_eq_ringWalk]
  exact ringWalk_nodup ha (Nat.le_of_lt (ringDist_lt hb a _)) _

theorem axisPath_neighbours (lo len i y : Nat) (h : (a :: axisPath n a b lo len)[i + 1]? = some y) :
    ∃ x, (a :: axisPath n a b lo len)[i]? = some x ∧ (y = (x + 1) % n ∨ x = (y + 1) % n) := by
  rw [axisPath_eq_ringWalk] at h ⊢
  exact ringWalk_neighbours ha (Nat.le_of_lt (ringDist_lt hb a _)) _ i y h

/-- Where the range spans the axis in full, the way is the shorter one; of two equal ones, that upwards. -/
theorem axisPath_full (lo : Nat) {len : Nat} (hlen : len = n) :
    axisPath n a b lo len = if (b + n - a) % n ≤ n / 2 then (List.range ((b + n - a) % n)).map (fun i => (a + i + 1) % n)
      else (List.range (n - (b + n - a) % n)).map (fun i => (a + 2 * n - i - 1) % n) := by
  have hup : goesUp n a b lo len = decide ((b + n - a) % n ≤ n / 2) := if_pos hlen
  rw [axisPath_eq_ringWalk, hup]
  split
  next h => rw [decide_eq_true h]; rfl
  next h =>
    have hdist : ringDist n a b false = n - (b + n - a) % n := by
      show (a + n - b) % n = _
      have := rise_cases ha hb
      have := rise_cases hb ha
      omega
    rw [decide_eq_false h, hdist]
    rfl

/-- The way between two positions of a range stays in the range. -/
theorem axisPath_in_range {lo len x : Nat} (hlo : lo < n) (hal : (a + n - lo) % n < len) (hbl : (b + n - lo) % n < len)
    (hx : x ∈ axisPath n a b lo len) : x < n ∧ (x + n - lo) % n < len := by
  rw [axisPath_eq_ringWalk] at hx
  obtain ⟨i, hi, rfl⟩ := List.mem_map.mp hx
  have hi := List.mem_range.mp hi
  have hk := ringDist_lt hb a (goesUp n a b lo len)
  have hlt := ringPos_lt ha (goesUp n a b lo len) (i + 1)
  refine ⟨hlt, ?_⟩
  by_cases hl : len = n
  · exact hl ▸ Nat.mod_lt _ (by omega)
  have hup : goesUp n a b lo len = decide ((a + n - lo) % n ≤ (b + n - lo) % n) := if_neg hl
  have hra := rise_cases hlo ha
  have hrb := rise_cases hlo hb
  have hrx := rise_cases hlo hlt
  by_cases h : (a + n - lo) % n ≤ (b + n - lo) % n
  · rw [hup, decide_eq_true h] at hi hk hrx ⊢
    have hd : ringDist n a b true = (b + n - a) % n := rfl
    have := rise_cases ha hb
    have := ringPos_up ha (show i + 1 ≤ n by omega)
    omega
  · rw [hup, decide_eq_false h] at hi hk hrx ⊢
    have hd : ringDist n a b false = (a + n - b) % n := rfl
    have := rise_cases hb ha
    have := ringPos_down ha (show i + 1 ≤ n by omega)
    omega

end

/-! ### The way of a torus transfer (R290) -/

/-- The way of a torus transfer between two positions of a rectangle never leaves it. -/
theorem torusPath_in_rect {d : Region} {c t p : Nat} (hx0 : d.x0 < 48) (hy0 : d.y0 < 32) (hc : c < 1536) (ht : t < 1536)
    (hrc : regionRect d c = true) (hrt : regionRect d t = true) (hp : p ∈ torusPath d c t) : regionRect d p = true := by
  obtain ⟨hpipe, hcx, hcy⟩ := (regionRect_iff d c).mp hrc
  obtain ⟨-, htx, hty⟩ := (regionRect_iff d t).mp hrt
  rcases List.mem_append.mp hp with hp | hp
  · obtain ⟨x, hx, rfl⟩ := List.mem_map.mp hp
    obtain ⟨hxn, hxr⟩ := axisPath_in_range (cluX_lt c) (cluX_lt t) hx0 hcx htx hx
    rw [regionRect_iff, cluX_cluAt hxn, cluY_cluAt hxn]
    exact ⟨hpipe, hxr, hcy⟩
  · obtain ⟨y, hy, rfl⟩ := List.mem_map.mp hp
    obtain ⟨-, hyr⟩ := axisPath_in_range (cluY_lt hc) (cluY_lt ht) hy0 hcy hty hy
    rw [regionRect_iff, cluX_cluAt (cluX_lt t), cluY_cluAt (cluX_lt t)]
    exact ⟨hpipe, htx, hyr⟩

/-- Settles O59: the way on each axis is a walk of single steps, which the shared lemmas about such walks describe. -/
theorem geometry : Obligations.Geometry := by
  unfold Obligations.Geometry
  refine ⟨fun x y hx hy => ?_, fun d c t _ hx0 hy0 _ _ _ _ hc ht hrc hrt _ => ?_⟩
  · have hdie := dieOf_cluAt hx y
    exact ⟨by unfold cluAt; omega, cluAt_lt hx hy, cluX_cluAt hx y, cluY_cluAt hx y, hdie, by omega, by omega, by omega,
      cluAt_mem_dieClusters hx y⟩
  · have hcx := cluX_lt c
    have htx := cluX_lt t
    have hcy := cluY_lt hc
    have hty := cluY_lt ht
    exact ⟨fun p hp => torusPath_in_rect hx0 hy0 hc ht hrc hrt hp,
      axisPath 48 (cluX c) (cluX t) d.x0 d.w, axisPath 32 (cluY c) (cluY t) d.y0 d.h, rfl,
      axisPath_getLast hcx htx, axisPath_ne_nil hcx htx _ _, axisPath_getLast hcy hty, axisPath_ne_nil hcy hty _ _,
      axisPath_neighbours hcx htx _ _, axisPath_neighbours hcy hty _ _, axisPath_nodup hcx htx _ _, axisPath_nodup hcy hty _ _,
      axisPath_full hcx htx _, axisPath_full hcy hty _⟩

end Sys2Proof.Proofs
end

section
/-! PROOF. The state after reset (R22, R601): its tables list nothing, so every part reads as its own value after reset, and a stored
register as its Reset column (R590 to R597). -/

namespace Sys2Proof.Proofs

open Sys2Proof.Machine

/-! ### The Reset column by block -/

theorem resetOf_tenAddr (f : Nat) {o : Nat} (ho : o < 0x4_0000) : resetOf (tenAddr f o) = resetTen o := by
  have h : tenAddr f o % 0x1000_0000 = 0x10_0000 + o := by unfold tenAddr; omega
  unfold resetOf
  simp only [h]
  rw [if_pos (by omega), Nat.add_sub_cancel_left]

theorem resetOf_cluAddr {c o : Nat} (hc : c < Config.clusters) (ho : o < 0x1000) : resetOf (cluAddr c o) = resetClu o := by
  have hc : c < 1536 := hc
  have h : cluAddr c o % 0x1000_0000 = cluAddr c o := Nat.mod_eq_of_lt (by unfold cluAddr; omega)
  have ho' : cluAddr c o % 0x1000 = o := by unfold cluAddr; omega
  unfold resetOf
  simp only [h, ho']
  rw [if_neg (by unfold cluAddr; omega), if_pos (by unfold cluAddr; omega)]

/-! ### Registers after reset -/

theorem reg_reset (a : Nat) : reg State.reset a = resetOf a % 2 ^ 64 := BitVec.toNat_ofNat _ _

theorem tenReg_reset (f : Nat) {o : Nat} (ho : o < 0x4_0000) : tenReg State.reset f o = resetTen o % 2 ^ 64 := by
  rw [tenReg, reg_reset, resetOf_tenAddr f ho]

theorem cluReg_reset {c o : Nat} (hc : c < Config.clusters) (ho : o < 0x1000) :
    cluReg State.reset c o = resetClu o % 2 ^ 64 := by
  rw [cluReg, reg_reset, resetOf_cluAddr hc ho]

theorem resetClu_trcCfg {n : Nat} (hn : n < 4) : resetClu (oTrcCfg n) = 0x0610_0000_0000_0000 := by
  unfold resetClu
  rw [if_neg (by unfold oTrcCfg oPrecCtl; omega), if_neg (by unfold oTrcCfg oSplit; omega),
    if_pos (by unfold oTrcCfg; omega)]

/-- A slot's registers read 0 after reset, listed or not: no register of its file is listed. -/
theorem sreg_reset (c n : Nat) (r : BitVec 5) : sreg State.reset c n r = 0 := by
  show (if r = 0 then (0 : Word) else 0) = 0
  exact ite_self 0

/-- Settles O55: the fields by their definitions, the registers by the Reset column of their blocks. -/
theorem resetState : Obligations.ResetState := by
  unfold Obligations.ResetState
  have hten (f : Nat) : tenReg State.reset f oFrCfg = 4 ∧ tenReg State.reset f oHbCtl = 0x03E8 :=
    ⟨tenReg_reset f (by decide), tenReg_reset f (by decide)⟩
  have hclu (c : Nat) (hc : c < Config.clusters) : cluReg State.reset c oPrecCtl = 4 ∧
      cluReg State.reset c oSplit = 0x8308_0400 ∧ ∀ n, n < 4 → cluReg State.reset c (oTrcCfg n) = 0x0610_0000_0000_0000 := by
    refine ⟨cluReg_reset hc (by decide), cluReg_reset hc (by decide), fun n hn => ?_⟩
    calc cluReg State.reset c (oTrcCfg n) = resetClu (oTrcCfg n) % 2 ^ 64 := cluReg_reset hc (by unfold oTrcCfg; omega)
      _ = 0x0610_0000_0000_0000 := congrArg (· % 2 ^ 64) (resetClu_trcCfg hn)
  exact ⟨rfl, rfl, rfl, rfl, rfl, rfl, rfl, rfl, rfl, rfl, rfl, rfl, rfl, rfl, fun _ => ⟨rfl, rfl, rfl, rfl⟩, fun _ => rfl,
    fun _ => rfl, fun _ _ => ⟨rfl, rfl⟩, fun c n => ⟨rfl, rfl, sreg_reset c n⟩, reg_reset _, reg_reset _, reg_reset _,
    reg_reset _, reg_reset _, fun f _ => hten f, hclu⟩

end Sys2Proof.Proofs
end

section
/-! PROOF. What reads and writes of BAR0 do (R18 to R21, R382, R587, R592): which accesses reach a register, what a read of a counter and of
another register answers, what a write of a register is. -/

namespace Sys2Proof.Proofs

open Sys2Proof.Machine

/-! ### The two commands -/

theorem exec_rcRead (f a n : Nat) (s : State) : exec (.rcRead f a n) s = execRcRead f a n s := rfl

theorem exec_registerWrite (f a n v : Nat) (s : State) : exec (.registerWrite f a n v) s = execRegisterWrite f a n v s := rfl

/-- The physical function exists where any function does. -/
theorem funcLive_zero {s : State} {f : Nat} (h : funcLive s f) : funcLive s 0 := ⟨by decide, Nat.zero_le _, h.2.2⟩

/-- A read of an existing function answers what BAR0 reads. -/
theorem gives_rcRead {s t : State} {f a n v : Nat} {p : State → Prop} (h : funcLive s f) (ha : a + n ≤ 2 ^ 28)
    (hr : readBar s f a n = (t, v)) (hp : p (emit t (.read f a n v))) : gives (.rcRead f a n) s p := by
  refine gives_of (t := emit t (.read f a n v)) ?_ hp
  rw [exec_rcRead, execRcRead, if_pos ha, funcCmd_live h, doRead, hr]

/-- A read that leaves the state as it is: the answer alone leaves the module. -/
theorem gives_rcRead_idle {s : State} {f a n v : Nat} (h : funcLive s f) (ha : a + n ≤ 2 ^ 28) (hr : readBar s f a n = (s, v)) :
    gives (.rcRead f a n) s (fun t => t = { s with out := .read f a n v :: s.out }) :=
  gives_rcRead h ha hr rfl

/-- A write of an existing function does what BAR0 does. -/
theorem gives_registerWrite {s t : State} {f a n v : Nat} {p : State → Prop} (h : funcLive s f) (ha : a + n ≤ 2 ^ 28)
    (hw : writeBar f a n v s = t) (hp : p t) : gives (.registerWrite f a n v) s p := by
  refine gives_of (t := t) ?_ hp
  rw [exec_registerWrite, execRegisterWrite, if_pos ha, funcCmd_live h, hw]

/-! ### Where an access may start (R587, log entry 44) -/

theorem startsWell_eq_false {a n : Nat} (h : n = 0 ∨ a % min n 4 ≠ 0) : startsWell a n = false := by
  rcases h with rfl | h
  · rfl
  · simp [startsWell, h]

theorem startsWell_four {a : Nat} (h : a % 4 = 0) : startsWell a 4 = true := by simp [startsWell, h]

theorem startsWell_eight {a : Nat} (h : a % 4 = 0) : startsWell a 8 = true := by simp [startsWell, h]

theorem readBar_badStart {s : State} {f a n : Nat} (he : inEmu a = false) (h : startsWell a n = false) :
    readBar s f a n = (s, 0) := by
  simp [readBar, he, h]

theorem writeBar_badStart {s : State} {f a n : Nat} (v : Nat) (he : inEmu a = false) (h : startsWell a n = false) :
    writeBar f a n v s = s := by
  simp [writeBar, he, h]

/-! ### Reads of registers -/

theorem readBar_register {s : State} {f a n : Nat} (he : inEmu a = false) (hw : winOf a = none) (h : startsWell a n = true) :
    readBar s f a n = readReg s f a n := by
  simp [readBar, he, hw, h]

/-- A 64-bit register begins at a multiple of 8. -/
theorem is64_of_mod {a : Nat} (h : a % 8 ≠ 0) : is64 a = false := by
  rw [is64, if_pos h]

theorem readReg_four (s : State) (f a : Nat) : readReg s f a 4 = read32 s f a := rfl

theorem readReg_eight {s : State} {f a : Nat} (h : is64 a = true) : readReg s f a 8 = read64 s f a := by
  simp [readReg, h]

/-- Where no 64-bit register begins, a read of 8 bytes is two reads of 4 (R587). -/
theorem readReg_twice {s t u : State} {f a lo hi : Nat} (h : is64 a = false) (hlo : read32 s f a = (t, lo))
    (hhi : read32 t f (a + 4) = (u, hi)) : readReg s f a 8 = (u, lo + 2 ^ 32 * hi) := by
  simp [readReg, h, hlo, hhi]

theorem read32_unreached {s : State} {f a : Nat} (hm : mayRead s f a = false) : read32 s f a = (s, 0) := by
  simp [read32, hm]

theorem read32_counter {s : State} {f a : Nat} (hm : mayRead s f a = true) (hc : isRc32 a = true) :
    read32 s f a = rcRead s (keyOf f a) := by
  simp [read32, hm, hc]

theorem read32_value {s : State} {f a : Nat} (hm : mayRead s f a = true) (hc : isRc32 a = false) (h : is64 (a / 8 * 8) = false) :
    read32 s f a = (s, val32 s f a) := by
  simp [read32, hm, hc, h]

theorem read64_value {s : State} {f a : Nat} (hm : mayRead s f a = true) (hc : isRc64 a = false) (hl : isLog a = false) :
    read64 s f a = (s, val64 s f a) := by
  simp [read64, hm, hc, hl]

/-- What a function does not reach reads 0, in a window and outside (R382). -/
theorem readBar_unreached {s : State} {f a : Nat} (he : inEmu a = false) (h4 : a % 4 = 0) (hm : mayRead s f a = false) :
    readBar s f a 4 = (s, 0) := by
  cases hw : winOf a with
  | none => rw [readBar_register he hw (startsWell_four h4), readReg_four, read32_unreached hm]
  | some w => simp [readBar, he, startsWell_four h4, hw, hm]

/-! ### Counters of type RC (R18, R19) -/

theorem rcRead_value (s : State) (k : Nat) : (rcRead s k).2 = (nowCount s k).1 := rfl

theorem ctr_rcRead_self (s : State) (k : Nat) : ctr (rcRead s k).1 k = (nowCount s k).2 := tabGet_put_self _ _ _ _

theorem ctr_rcRead_other (s : State) {k x : Nat} (h : x ≠ k) : ctr (rcRead s k).1 x = ctr s x :=
  tabGet_put_other _ _ _ _ _ h

/-- A read of a counter changes counters alone. -/
theorem rcRead_frame (s : State) (k : Nat) :
    (rcRead s k).1 = { s with ctrs := (rcRead s k).1.ctrs, nowTick := (rcRead s k).1.nowTick
                              nowCtr := (rcRead s k).1.nowCtr, nowSet := (rcRead s k).1.nowSet } := rfl

/-! ### Writes of registers -/

/-- A register may lie at the address: it is a multiple of 4 of BAR0, and in no window and not in the EMU block. -/
def regPlace (a : Nat) : Bool := decide (a + 8 ≤ 2 ^ 28) && a % 4 == 0 && !inEmu a && (winOf a).isNone

theorem regPlace_iff (a : Nat) : regPlace a = true ↔ a + 8 ≤ 2 ^ 28 ∧ a % 4 = 0 ∧ inEmu a = false ∧ winOf a = none := by
  simp [regPlace, and_assoc]

theorem writeBar_four {f a : Nat} (h : regPlace a = true) (v : Nat) (s : State) :
    writeBar f a 4 v s = write32 f a (v % 2 ^ 32) s := by
  obtain ⟨-, h4, he, hw⟩ := (regPlace_iff a).mp h
  simp [writeBar, he, hw, startsWell_four h4]

theorem writeBar_eight {f a : Nat} (h : regPlace a = true) (h8 : is64 a = true) (v : Nat) (s : State) :
    writeBar f a 8 v s = write64 f a (v % 2 ^ 64) s := by
  obtain ⟨-, h4, he, hw⟩ := (regPlace_iff a).mp h
  simp [writeBar, he, hw, startsWell_eight h4, h8]

theorem gives_write_four {s t : State} {f a v : Nat} {p : State → Prop} (hf : funcLive s f) (h : regPlace a = true)
    (hw : write32 f a (v % 2 ^ 32) s = t) (hp : p t) : gives (.registerWrite f a 4 v) s p := by
  obtain ⟨ha, -⟩ := (regPlace_iff a).mp h
  exact gives_registerWrite hf (by omega) ((writeBar_four h v s).trans hw) hp

theorem gives_write_eight {s t : State} {f a v : Nat} {p : State → Prop} (hf : funcLive s f) (h : regPlace a = true)
    (h8 : is64 a = true) (hw : write64 f a (v % 2 ^ 64) s = t) (hp : p t) : gives (.registerWrite f a 8 v) s p := by
  obtain ⟨ha, -⟩ := (regPlace_iff a).mp h
  exact gives_registerWrite hf (by omega) ((writeBar_eight h h8 v s).trans hw) hp

/-- A virtual function writes its own block and CLU blocks alone (R382). -/
theorem write32_unreached {f a : Nat} (v : Nat) (s : State) (hf : f ≠ 0) (ht : inTen a = false) (hc : inClu a = false) :
    write32 f a v s = s := by
  simp [write32, ht, hc, hf]

/-- Setting a stored register to a value of 64 bits is all that `setReg` does. -/
theorem setsReg_setReg (s : State) (a : Nat) {v : Nat} (hv : v < 2 ^ 64) : setsReg a v s (setReg s a v) :=
  ⟨rfl, by rw [reg_set_self, Nat.mod_eq_of_lt hv], fun _ hx => reg_set_other s a _ v hx⟩

/-! ### The registers of a TEN block (R593) -/

theorem inTen_own {o : Nat} (ho : o < 0x4_0000) : inTen (0x10_0000 + o) = true := by
  simp only [inTen, Bool.and_eq_true, decide_eq_true_eq]
  omega

theorem write32_ten {f o : Nat} (ho : o < 0x4_0000) (h4 : o % 4 = 0) (h8 : is64 ((0x10_0000 + o) / 8 * 8) = false) (v : Nat)
    (s : State) : write32 f (0x10_0000 + o) v s = tenRegWrite f o v s := by
  have hstart : ¬((0x10_0000 + o) % 4 ≠ 0 ∨ is64 ((0x10_0000 + o) / 8 * 8) = true) := by
    rw [h8]
    simp only [reduceCtorEq, or_false]
    omega
  rw [write32, if_neg hstart, if_pos (inTen_own ho), Nat.add_sub_cancel_left]

theorem write64_ten {f o : Nat} (ho : o < 0x4_0000) (v : Nat) (s : State) :
    write64 f (0x10_0000 + o) v s = tenRegWrite64 f o v s := by
  rw [write64, if_pos (inTen_own ho), Nat.add_sub_cancel_left]

theorem tenRegWrite64_frAddr (f v : Nat) (s : State) :
    tenRegWrite64 f oFrAddr v s = setReg s (tenAddr f oFrAddr) (v / 256 * 256) := rfl

theorem tenRegWrite_frCfg (f v : Nat) (s : State) :
    tenRegWrite f oFrCfg v s = setReg s (tenAddr f oFrCfg) (v &&& 0x87FF_003F) := rfl

theorem tenRegWrite_dbgCon (f v : Nat) (s : State) : tenRegWrite f oDbgCon v s = setReg s (tenAddr f oDbgCon) (v % 2) := rfl

/-! ### Registers of the physical function (R592, R595) -/

/-- An address of the HUB block: of no other block. -/
def inHub (a : Nat) : Bool := !inTen a && !inClu a && !inLnk a && !inMem a && !inDbg a

theorem write32_hub {a : Nat} (h4 : a % 4 = 0) (h8 : is64 (a / 8 * 8) = false) (h : inHub a = true) (v : Nat) (s : State) :
    write32 0 a v s = hubWrite a v s := by
  simp only [inHub, Bool.and_eq_true, Bool.not_eq_true'] at h
  obtain ⟨⟨⟨⟨ht, hc⟩, hl⟩, hm⟩, hd⟩ := h
  simp [write32, h4, h8, ht, hc, hl, hm, hd]

theorem bitB_eq_testBit (x i : Nat) : bitB x i = x.testBit i := by
  rw [Nat.testBit_eq_decide_div_mod_eq, bitB, Nat.shiftRight_eq_div_pow]
  rfl

/-- A write of 4 bytes carries every bit below 32. -/
theorem w1cTakes_mod (s : State) (a v : Nat) {i : Nat} (hi : i < 32) : w1cTakes s a i (v % 2 ^ 32) = w1cTakes s a i v := by
  have hbit : bitB (v % 2 ^ 32) i = bitB v i := by
    rw [bitB_eq_testBit, bitB_eq_testBit, Nat.testBit_mod_two_pow, decide_eq_true hi, Bool.true_and]
  rw [w1cTakes, w1cTakes, hbit]

theorem hubWrite_pfVec (v : Nat) (s : State) : hubWrite aPfVec v s = setReg s aPfVec (v &&& 0x87FF_87FF) := rfl

theorem hubWrite_hubStat (v : Nat) (s : State) :
    hubWrite aHubStat v s = if w1cTakes s aHubStat 31 v then { s with pow.emuDown := false } else s := rfl

/-- A write of a read-only register, HUB_COOL, changes nothing (R592). -/
theorem hubWrite_cool (v : Nat) (s : State) : hubWrite 0x44 v s = s := rfl

theorem write64_ftcArm (v : Nat) (s : State) : write64 0 aFtcArm v s = setReg s aFtcArm v := rfl

theorem write64_winArg (v : Nat) (s : State) : write64 0 aWinArg v s = setReg s aWinArg (v % 2 ^ 60) := rfl

theorem write32_lnkCtl (v : Nat) (s : State) : write32 0 aLnkCtl v s = setReg s aLnkCtl (v &&& 0xFFFF_00FF) := rfl

/-! ### The LNK_RT window (R333) -/

theorem winOf_rt {o : Nat} (ho : o < 0x1_0000) : winOf (lnkAddr 0x1_0000 + o) = some .rt := by
  refine List.find?_eq_some_iff_append.mpr ⟨?_, [.key, .desc, .dmap, .fw], [.dbg, .msix, .pba], rfl, ?_⟩
  · have hrt : winBase .rt = lnkAddr 0x1_0000 ∧ winSize .rt = 0x1_0000 := ⟨rfl, rfl⟩
    simp only [Bool.and_eq_true, decide_eq_true_eq]
    omega
  · intro w hw
    have hbelow : winBase w + winSize w ≤ lnkAddr 0x1_0000 ∨ lnkAddr 0x1_0000 + 0x1_0000 ≤ winBase w := by
      revert w
      decide
    simp only [Bool.not_eq_true', Bool.and_eq_false_iff, decide_eq_false_iff_not]
    omega

theorem inEmu_rt {o : Nat} (ho : o < 0x1_0000) : inEmu (lnkAddr 0x1_0000 + o) = false := by
  simp only [inEmu, Bool.and_eq_false_iff, decide_eq_false_iff_not]
  unfold lnkAddr
  omega

/-- Bytes put into a memory are the bytes that it holds there now, and no other has changed. -/
theorem bytesNow_memPut (m : Mem) (a : Nat) (bs : List Byte) : bytesNow m (memPut m a bs) a bs := by
  intro x
  split
  next h =>
    obtain ⟨i, rfl⟩ := Nat.exists_eq_add_of_le h.1
    have hi : i < bs.length := by omega
    rw [memGet_memPut_inside m a bs i hi, Nat.add_sub_cancel_left, nth, List.getD_eq_getElem?_getD, List.getElem?_eq_getElem hi,
      Option.getD_some]
  next h => exact memGet_memPut_outside m a bs x (by omega)

theorem writeBar_rt_byte {o : Nat} (ho : o < 0x1_0000) (v : Nat) (s : State) :
    writeBar 0 (lnkAddr 0x1_0000 + o) 1 v s = { s with lnk.rt := memPut s.lnk.rt o [BitVec.ofNat 8 v] } := by
  have hb : leBytes 1 (v % 256) = [BitVec.ofNat 8 v] := by
    rw [leBytes, leBytes, show BitVec.ofNat 8 (v % 256) = BitVec.ofNat 8 v from BitVec.eq_of_toNat_eq (by simp)]
  simp [writeBar, inEmu_rt ho, winOf_rt ho, startsWell, winTakes, writeWin, hb, winBase, Nat.mod_one]

/-! ### The accesses of the statement -/

section
variable {s : State} {f a : Nat} (hf : funcLive s f) (ha : a + 8 ≤ 2 ^ 28) (he : inEmu a = false)
include hf ha he

/-- A read of 4 bytes that reaches a counter of type RC (R18, R19). -/
theorem gives_read_counter (h4 : a % 4 = 0) (hw : winOf a = none) (hm : mayRead s f a = true) (hc : isRc32 a = true) :
    gives (.rcRead f a 4) s (fun t => t.out = .read f a 4 (nowCount s (keyOf f a)).1 :: s.out ∧
      ctr t (keyOf f a) = (nowCount s (keyOf f a)).2 ∧ (∀ x, x ≠ keyOf f a → ctr t x = ctr s x) ∧ t.regs = s.regs ∧
      t.cl = s.cl ∧ t.hub = s.hub ∧ t.mem = s.mem) := by
  have hr : readBar s f a 4 = ((rcRead s (keyOf f a)).1, (nowCount s (keyOf f a)).1) := by
    rw [readBar_register he hw (startsWell_four h4), readReg_four, read32_counter hm hc, ← rcRead_value]
  refine gives_rcRead hf (by omega) hr ⟨?_, ?_, fun x hx => ?_, rfl, rfl, rfl, rfl⟩
  · rw [rcRead_frame]
    rfl
  · rw [ctr_emit, ctr_rcRead_self]
  · rw [ctr_emit, ctr_rcRead_other s hx]

theorem gives_read_four (h4 : a % 4 = 0) (hw : winOf a = none) (hm : mayRead s f a = true) (hc : isRc32 a = false)
    (h8 : is64 (a / 8 * 8) = false) :
    gives (.rcRead f a 4) s (fun t => t = { s with out := .read f a 4 (val32 s f a) :: s.out }) := by
  refine gives_rcRead_idle hf (by omega) ?_
  rw [readBar_register he hw (startsWell_four h4), readReg_four, read32_value hm hc h8]

theorem gives_read_eight (h8 : a % 8 = 0) (hw : winOf a = none) (hm : mayRead s f a = true) (h64 : is64 a = true)
    (hc : isRc64 a = false) (hl : isLog a = false) :
    gives (.rcRead f a 8) s (fun t => t = { s with out := .read f a 8 (val64 s f a) :: s.out }) := by
  refine gives_rcRead_idle hf (by omega) ?_
  rw [readBar_register he hw (startsWell_eight (by omega)), readReg_eight h64, read64_value hm hc hl]

theorem gives_read_twice (h8 : a % 8 = 4) (hw : winOf a = none) (hm : mayRead s f a = true) (hm' : mayRead s f (a + 4) = true)
    (hc : isRc32 a = false) (hc' : isRc32 (a + 4) = false) (h64 : is64 (a / 8 * 8) = false) (h64' : is64 (a + 4) = false) :
    gives (.rcRead f a 8) s (fun t =>
      t = { s with out := .read f a 8 (val32 s f a + 2 ^ 32 * val32 s f (a + 4)) :: s.out }) := by
  have hup : (a + 4) / 8 * 8 = a + 4 := by omega
  refine gives_rcRead_idle hf (by omega) ?_
  rw [readBar_register he hw (startsWell_eight (by omega))]
  exact readReg_twice (is64_of_mod (by omega)) (read32_value hm hc h64) (read32_value hm' hc' (by rw [hup, h64']))

end

section
variable {s : State} {f : Nat} (hf : funcLive s f) (v : Nat)
include hf

theorem gives_write_frAddr : gives (.registerWrite f (0x10_0000 + oFrAddr) 8 v) s
    (setsReg (tenAddr f oFrAddr) (v % 2 ^ 64 / 256 * 256) s) :=
  gives_write_eight hf (by decide) (by decide) ((write64_ten (by decide) _ s).trans (tenRegWrite64_frAddr f _ s))
    (setsReg_setReg s _ (by omega))

theorem gives_write_frCfg : gives (.registerWrite f (0x10_0000 + oFrCfg) 4 v) s
    (setsReg (tenAddr f oFrCfg) (v % 2 ^ 32 &&& 0x87FF_003F) s) :=
  gives_write_four hf (by decide) ((write32_ten (by decide) (by decide) (by decide) _ s).trans (tenRegWrite_frCfg f _ s))
    (setsReg_setReg s _ (Nat.and_lt_two_pow _ (by decide)))

theorem gives_write_dbgCon : gives (.registerWrite f (0x10_0000 + oDbgCon) 4 v) s (setsReg (tenAddr f oDbgCon) (v % 2) s) := by
  have hv : v % 2 ^ 32 % 2 = v % 2 := by omega
  exact gives_write_four hf (by decide) ((write32_ten (by decide) (by decide) (by decide) _ s).trans (tenRegWrite_dbgCon f _ s))
    (hv ▸ setsReg_setReg s _ (by omega))

end

section
variable {s : State} (hf : funcLive s 0) (v : Nat)
include hf

theorem gives_write_pfVec : gives (.registerWrite 0 aPfVec 4 v) s (setsReg aPfVec (v % 2 ^ 32 &&& 0x87FF_87FF) s) :=
  gives_write_four hf (by decide) ((write32_hub (by decide) (by decide) (by decide) _ s).trans (hubWrite_pfVec _ s))
    (setsReg_setReg s _ (Nat.and_lt_two_pow _ (by decide)))

theorem gives_write_ftcArm : gives (.registerWrite 0 aFtcArm 8 v) s (setsReg aFtcArm (v % 2 ^ 64) s) :=
  gives_write_eight hf (by decide) (by decide) (write64_ftcArm _ s) (setsReg_setReg s _ (by omega))

theorem gives_write_winArg : gives (.registerWrite 0 aWinArg 8 v) s (setsReg aWinArg (v % 2 ^ 60) s) := by
  have hv : v % 2 ^ 64 % 2 ^ 60 = v % 2 ^ 60 := by omega
  exact gives_write_eight hf (by decide) (by decide) (write64_winArg _ s) (hv ▸ setsReg_setReg s _ (by omega))

theorem gives_write_lnkCtl : gives (.registerWrite 0 aLnkCtl 4 v) s (setsReg aLnkCtl (v % 2 ^ 32 &&& 0xFFFF_00FF) s) :=
  gives_write_four hf (by decide) (write32_lnkCtl _ s) (setsReg_setReg s _ (Nat.and_lt_two_pow _ (by decide)))

theorem gives_write_cool : gives (.registerWrite 0 0x44 4 v) s (fun t => t = s) :=
  gives_write_four hf (by decide) ((write32_hub (by decide) (by decide) (by decide) _ s).trans (hubWrite_cool _ s)) rfl

/-- A write of HUB_STAT clears its W1C bit 31 where the write takes it (R20). -/
theorem gives_write_hubStat : gives (.registerWrite 0 aHubStat 4 v) s (fun t =>
    t = if w1cTakes s aHubStat 31 v then { s with pow.emuDown := false } else s) := by
  rw [← w1cTakes_mod s aHubStat v (by decide)]
  exact gives_write_four hf (by decide) ((write32_hub (by decide) (by decide) (by decide) _ s).trans (hubWrite_hubStat _ s)) rfl

theorem gives_write_rt {o : Nat} (ho : o < 0x1_0000) : gives (.registerWrite 0 (lnkAddr 0x1_0000 + o) 1 v) s (fun t =>
    t = { s with lnk.rt := t.lnk.rt } ∧ bytesNow s.lnk.rt t.lnk.rt o [BitVec.ofNat 8 v]) :=
  gives_registerWrite hf (by unfold lnkAddr; omega) (writeBar_rt_byte ho v s) ⟨rfl, bytesNow_memPut _ _ _⟩

end

/-- Settles O44: an access that starts at no place is idle; every other one of the statement is a read or a write of a named
register, or of the route table. -/
theorem registerAccesses : Obligations.RegisterAccesses := by
  unfold Obligations.RegisterAccesses
  intro s f a hf ha he tells own
  have h0 := funcLive_zero hf
  refine ⟨fun h4 hw hm => ⟨gives_read_counter hf ha he h4 hw hm, gives_read_four hf ha he h4 hw hm⟩,
    gives_read_eight hf ha he, gives_read_twice hf ha he,
    fun h4 hm => gives_rcRead_idle hf (by omega) (readBar_unreached he h4 hm),
    fun n hn hle => gives_rcRead_idle hf (by omega) (readBar_badStart he (startsWell_eq_false hn)),
    fun n v hn hle => gives_registerWrite hf (by omega) (writeBar_badStart v he (startsWell_eq_false hn)) rfl,
    fun v hne ht hc hw => ?_,
    fun v => ⟨gives_write_frAddr hf v, gives_write_frCfg hf v, gives_write_dbgCon hf v, gives_write_pfVec h0 v, gives_write_ftcArm h0 v,
      gives_write_winArg h0 v, gives_write_lnkCtl h0 v, gives_write_cool h0 v, fun ht => ?_, fun ht => ?_,
      fun o ho => gives_write_rt h0 v ho⟩⟩
  · by_cases h4 : a % 4 = 0
    · have hplace : regPlace a = true := (regPlace_iff a).mpr ⟨ha, h4, he, hw⟩
      exact gives_write_four hf hplace (write32_unreached _ s hne ht hc) rfl
    · exact gives_registerWrite hf (by omega) (writeBar_badStart v he (startsWell_eq_false (.inr h4))) rfl
  · simpa only [ht, if_true] using gives_write_hubStat h0 v
  · simpa only [ht, Bool.false_eq_true, if_false] using gives_write_hubStat h0 v

end Sys2Proof.Proofs
end

section
/-! PROOF. What an access of a unit to the scratchpads can change beside the bytes (R121 to R127): gather buffer and banks of its
cluster, poison marks and errors, and the two counters of errors. -/

namespace Sys2Proof.Proofs

open Sys2Proof.Machine

/-- `t` is `s` after accesses to the scratchpad of cluster `c`. -/
structure SpadAccess (c : Nat) (s t : State) : Prop where
  frame : t = { s with cl := { s.cl with clus := t.cl.clus, spad := t.cl.spad, spadPoi := t.cl.spadPoi, spadErr := t.cl.spadErr }
                       ctrs := t.ctrs, nowTick := t.nowTick, nowCtr := t.nowCtr, nowSet := t.nowSet }
  others : ∀ k, k ≠ c → getClu t k = getClu s k
  own : ∃ g b, getClu t c = { getClu s c with gather := g, banks := b }
  counters : ∀ x, x ≠ cluAddr c oSpadCorr → x ≠ cluAddr c oSpadUncorr → ctr t x = ctr s x

namespace SpadAccess

theorem refl (c : Nat) (s : State) : SpadAccess c s s := ⟨rfl, fun _ _ => rfl, ⟨_, _, rfl⟩, fun _ _ _ => rfl⟩

theorem trans {c : Nat} {s t u : State} (h : SpadAccess c s t) (g : SpadAccess c t u) : SpadAccess c s u where
  frame := by rw [g.frame, h.frame]
  others k hk := (g.others k hk).trans (h.others k hk)
  own := by
    obtain ⟨x, y, hx⟩ := h.own
    obtain ⟨x', y', hy⟩ := g.own
    exact ⟨x', y', by rw [hy, hx]⟩
  counters x h1 h2 := (g.counters x h1 h2).trans (h.counters x h1 h2)

/-- The arrays themselves are written. -/
theorem arrays (c : Nat) (s : State) (m : Mem) (p e : Tab Nat) :
    SpadAccess c s { s with cl := { s.cl with spad := m, spadPoi := p, spadErr := e } } :=
  ⟨rfl, fun _ _ => rfl, ⟨_, _, rfl⟩, fun _ _ _ => rfl⟩

/-- Gather buffer or banks of the cluster change. -/
theorem unit (c : Nat) (s : State) (g : Clu → List GEnt) (b : Clu → Tab (List BankReq)) :
    SpadAccess c s (modClu s c (fun k => { k with gather := g k, banks := b k })) :=
  ⟨rfl, fun k hk => getClu_mod_other s c k _ hk, ⟨_, _, getClu_mod_self s c _⟩, fun _ _ _ => rfl⟩

theorem bumpErr (c : Nat) (s : State) (n : Nat) {o : Nat} (h : o = oSpadCorr ∨ o = oSpadUncorr) : SpadAccess c s (bumpC s c o n) := by
  refine ⟨rfl, fun _ _ => rfl, ⟨_, _, rfl⟩, fun x h1 h2 => ctr_bumpW_other _ _ _ _ _ ?_⟩
  rcases h with rfl | rfl <;> assumption

end SpadAccess

theorem spadAccess_setWord (c w : Nat) (p : Bool) (s : State) : SpadAccess c s (setWord s c w p) := .arrays c s _ _ _

theorem spadAccess_wordCheck (c w : Nat) (s : State) : SpadAccess c s (wordCheck s c w).1 := by
  unfold wordCheck
  split
  · exact .refl c s
  · exact (SpadAccess.bumpErr c s 1 (.inl rfl)).trans (spadAccess_setWord c w _ _)
  · exact (SpadAccess.bumpErr c s 1 (.inr rfl)).trans (spadAccess_setWord c w _ _)

theorem spadAccess_checkWords (c : Nat) (ws : List Nat) (s : State) : SpadAccess c s (checkWords s c ws).1 := by
  induction ws generalizing s with
  | nil => exact .refl c s
  | cons w ws ih => exact (spadAccess_wordCheck c w s).trans (ih _)

theorem spadAccess_bankUse (c : Nat) (u : BankUser) (w n k : Nat) (s : State) : SpadAccess c s (bankUse s c u w n k) :=
  .unit c s (fun x => x.gather) _

/-! ### The gather buffer -/

theorem spadAccess_writeBack (c w : Nat) (s : State) : SpadAccess c s (writeBack s c w) := by
  unfold writeBack
  split
  · exact .refl c s
  · split
    · exact .refl c s
    · have hchk := (spadAccess_bankUse c .gather w 1 2 s).trans (spadAccess_wordCheck c w _)
      rcases hread : wordCheck (bankUse s c .gather w 1 2) c w with ⟨t, poi⟩
      rw [hread] at hchk
      refine SpadAccess.trans ?_ (.unit c _ _ (fun x => x.banks))
      cases poi
      · exact hchk.trans (.arrays c t _ _ _)
      · exact hchk

theorem spadAccess_flushRange (c p n : Nat) (s : State) : SpadAccess c s (flushRange s c p n) := by
  unfold flushRange
  generalize (getClu s c).gather.filter _ = l
  induction l generalizing s with
  | nil => exact .refl c s
  | cons e l ih => exact (spadAccess_writeBack c e.word s).trans (ih _)

theorem spadAccess_refreshGather (c p n : Nat) (s : State) : SpadAccess c s (refreshGather s c p n) :=
  .unit c s _ (fun x => x.banks)

theorem spadAccess_touchEnt (c : Nat) (e : GEnt) (s : State) : SpadAccess c s (touchEnt s c e) := .unit c s _ (fun x => x.banks)

theorem spadAccess_allocEnt (c w : Nat) (g : List GEnt) (s : State) : SpadAccess c s (allocEnt s c w g).1 := by
  have hchk := (spadAccess_bankUse c .gather w 1 1 s).trans (spadAccess_wordCheck c w _)
  unfold allocEnt
  rcases hread : wordCheck (bankUse s c .gather w 1 1) c w with ⟨t, poi⟩
  rw [hread] at hchk
  cases poi
  · exact hchk.trans (.unit c t (fun _ => _) (fun x => x.banks))
  · exact hchk

theorem spadAccess_roomFor (c : Nat) (s : State) : SpadAccess c s (roomFor s c).1 := by
  unfold roomFor
  split
  · exact .refl c s
  · split
    · exact .refl c s
    · exact spadAccess_writeBack c _ s

theorem spadAccess_unitEnt (c w : Nat) (s : State) : SpadAccess c s (unitEnt s c w).1 := by
  unfold unitEnt
  split
  · split
    · exact .refl c s
    · exact spadAccess_touchEnt c _ s
  · exact (spadAccess_roomFor c s).trans (spadAccess_allocEnt c w _ _)

theorem spadAccess_narrowRead (c p n : Nat) (s : State) : SpadAccess c s (narrowRead s c p n).1 := by
  have h := spadAccess_unitEnt c (p / 32) s
  unfold narrowRead
  split <;> rename_i e <;> rw [e] at h <;> exact h

theorem spadAccess_narrowWrite (c p : Nat) (bs : List Byte) (s : State) : SpadAccess c s (narrowWrite s c p bs).1 := by
  have h := spadAccess_unitEnt c (p / 32) s
  unfold narrowWrite
  split <;> rename_i e <;> rw [e] at h
  · exact h.trans (spadAccess_touchEnt c _ _)
  · exact h

/-! ### Wide accesses -/

theorem spadAccess_wideRead (c : Nat) (u : BankUser) (p n : Nat) (s : State) : SpadAccess c s (wideRead s c u p n).1 := by
  have h := (spadAccess_flushRange c p n s).trans (spadAccess_bankUse c u (p / 32) (n / 32) 1 _)
  unfold wideRead
  dsimp only
  split
  · exact h.trans (spadAccess_checkWords c _ _)
  · exact h

theorem spadAccess_storeWord (c p : Nat) (bs : List Byte) (poison : Bool) (w : Nat) (s : State) :
    SpadAccess c s (storeWord s c p bs poison w).1 := by
  have hchk := spadAccess_wordCheck c w s
  unfold storeWord
  rcases hread : wordCheck s c w with ⟨t, poi⟩
  rw [hread] at hchk
  split
  · exact (SpadAccess.arrays c s _ _ _).trans (spadAccess_setWord c w _ _)
  · cases poi
    · cases poison
      · exact hchk.trans (.arrays c t _ _ _)
      · exact (hchk.trans (.arrays c t _ _ _)).trans (spadAccess_setWord c w _ _)
    · exact hchk

theorem spadAccess_storeWords (c p : Nat) (bs : List Byte) (poison : Bool) (ws : List Nat) (s : State) :
    SpadAccess c s (storeWords s c p bs poison ws).1 := by
  induction ws generalizing s with
  | nil => exact .refl c s
  | cons w ws ih => exact (spadAccess_storeWord c p bs poison w s).trans (ih _)

theorem spadAccess_wideWrite (c : Nat) (u : BankUser) (p : Nat) (bs : List Byte) (poison : Bool) (s : State) :
    SpadAccess c s (wideWrite s c u p bs poison).1 := by
  have h := (spadAccess_flushRange c p bs.length s).trans
    (spadAccess_bankUse c u (p / 32) ((p + bs.length + 31) / 32 - p / 32) 1 _)
  unfold wideWrite
  dsimp only
  split
  · exact (h.trans (.arrays c _ _ _ _)).trans (spadAccess_refreshGather c _ _ _)
  · exact (h.trans (spadAccess_storeWords c p bs poison _ _)).trans (spadAccess_refreshGather c _ _ _)

/-! ### Accesses of a unit, and operands -/

theorem spadAccess_readCuts (c : Nat) (u : BankUser) (xs : List (Nat × Nat × Bool)) (s : State) :
    SpadAccess c s (readCuts s c u xs).1 := by
  induction xs generalizing s with
  | nil => exact .refl c s
  | cons x xs ih =>
    obtain ⟨p, n, wide⟩ := x
    cases wide
    · exact (spadAccess_narrowRead c p n s).trans (ih _)
    · exact (spadAccess_wideRead c u p n s).trans (ih _)

theorem spadAccess_writeCuts (c : Nat) (u : BankUser) (xs : List (Nat × Nat × Bool)) (bs : List Byte) (s : State) :
    SpadAccess c s (writeCuts s c u bs xs).1 := by
  induction xs generalizing s bs with
  | nil => exact .refl c s
  | cons x xs ih =>
    obtain ⟨p, n, wide⟩ := x
    cases wide
    · exact (spadAccess_narrowWrite c p (bs.take n) s).trans (ih _ _)
    · exact (spadAccess_wideWrite c u p (bs.take n) false s).trans (ih _ _)

theorem spadAccess_readSpans (c : Nat) (u : BankUser) (base : Nat) (l : List (Nat × Nat)) (s : State) :
    SpadAccess c s (readSpans s c u base l).1 := by
  induction l generalizing s with
  | nil => exact .refl c s
  | cons x l ih => exact (spadAccess_readCuts c u _ s).trans (ih _)

theorem spadAccess_writeSpans (c : Nat) (u : BankUser) (base : Nat) (l : List (Nat × Nat)) (bs : List Byte) (s : State) :
    SpadAccess c s (writeSpans s c u base bs l).1 := by
  induction l generalizing s bs with
  | nil => exact .refl c s
  | cons x l ih => exact (spadAccess_writeCuts c u _ _ s).trans (ih _ _)

theorem spadAccess_readOpnd (c : Nat) (u : BankUser) (sl : Nat) (r : Opnd) (n : Nat) (s : State) :
    SpadAccess c s (readOpnd s c u sl r n).1 := spadAccess_readSpans c _ _ _ s

theorem spadAccess_writeAll (c : Nat) (u : BankUser) (sl : Nat) (ws : List (Opnd × Nat × List Byte)) (s : State) :
    SpadAccess c s (writeAll s c u sl ws).1 := by
  induction ws generalizing s with
  | nil => exact .refl c s
  | cons x ws ih => exact (spadAccess_writeSpans c _ _ _ _ s).trans (ih _)

/-- Operands that read clean. -/
theorem spadAccess_clean {c : Nat} {u : BankUser} {sl : Nat} {l : List (Opnd × Nat × List Byte)} {s t : State}
    (h : clean c u sl l s t) : SpadAccess c s t := by
  induction l generalizing s with
  | nil =>
    obtain rfl := h
    exact .refl c t
  | cons x l ih =>
    obtain ⟨s1, hread, -, hrest⟩ := h
    have h1 := spadAccess_readOpnd c u sl x.1 x.2.1 s
    rw [hread] at h1
    exact h1.trans (ih hrest)

theorem spadAccess_puts {c : Nat} {u : BankUser} {sl : Nat} {ws : List (Opnd × Nat × List Byte)} {s w : State}
    (h : puts s c u sl ws w) : SpadAccess c s w := by
  have h1 := spadAccess_writeAll c u sl ws s
  rwa [show writeAll s c u sl ws = (w, false) from h] at h1

end Sys2Proof.Proofs
end

section
/-! PROOF. What a read of device memory can change (R440 to R444): the requests at the stacks, the four registers in which a stack counts
and logs its errors, and a codeword found beyond repair. Where no codeword is marked the stacks stay as they are. -/

namespace Sys2Proof.Proofs

open Sys2Proof.Machine

/-- The key of a register in which a stack counts or logs errors. -/
def isErrReg (x : Nat) : Prop := ∃ k, x = stkAddr k 0x8 ∨ x = stkAddr k 0xC ∨ x = stkAddr k 0x18 ∨ x = stkAddr k 0x20

theorem isErrReg_ceCount (k : Nat) : isErrReg (stkAddr k 0x8) := ⟨k, .inl rfl⟩
theorem isErrReg_ueCount (k : Nat) : isErrReg (stkAddr k 0xC) := ⟨k, .inr (.inl rfl)⟩
theorem isErrReg_ceLog (k : Nat) : isErrReg (stkAddr k 0x18) := ⟨k, .inr (.inr (.inl rfl))⟩
theorem isErrReg_ueLog (k : Nat) : isErrReg (stkAddr k 0x20) := ⟨k, .inr (.inr (.inr rfl))⟩

/-- No register of a cluster has an offset such as theirs but for these. -/
theorem not_isErrReg_cluAddr (c : Nat) {o : Nat} (h : 0x20 < o % 256) : ¬ isErrReg (cluAddr c o) := by
  rintro ⟨k, hk⟩
  simp only [cluAddr, stkAddr, memAddr] at hk
  omega

/-- `t` is `s` after reads of device memory. -/
structure StackRead (s t : State) : Prop where
  frame : t = { s with mem := t.mem, mq := t.mq, ctrs := t.ctrs, nowTick := t.nowTick, nowCtr := t.nowCtr, nowSet := t.nowSet }
  sound : stacksSound s → t.mem = s.mem
  counters : ∀ x, ¬ isErrReg x → ctr t x = ctr s x

/-- Soundness is a property of the memory stacks alone. -/
theorem stacksSound_of_mem {s t : State} (h : t.mem = s.mem) (hs : stacksSound s) : stacksSound t := by
  unfold stacksSound stackFailed getStack at hs ⊢
  rwa [h]

namespace StackRead

theorem refl (s : State) : StackRead s s := ⟨rfl, fun _ => rfl, fun _ _ => rfl⟩

theorem trans {s t u : State} (h : StackRead s t) (g : StackRead t u) : StackRead s u where
  frame := by rw [g.frame, h.frame]
  sound hs := (g.sound (stacksSound_of_mem (h.sound hs) hs)).trans (h.sound hs)
  counters x hx := (g.counters x hx).trans (h.counters x hx)

theorem of_onlyAsks {s t : State} (h : onlyAsks s t) : StackRead s t := by
  rw [onlyAsks] at h
  rw [h]
  exact ⟨rfl, fun _ => rfl, fun _ _ => rfl⟩

end StackRead

theorem ctr_setLog_other (s : State) {a x : Nat} (v : Nat) (h : x ≠ a) : ctr (setLog s a v) x = ctr s x :=
  tabGet_put_other _ _ _ _ _ h

/-- A stack counts an error in one of its registers and logs it in another. -/
theorem ctr_logged_other (s : State) {a b x : Nat} (v : Nat) (ha : isErrReg a) (hb : isErrReg b) (hx : ¬ isErrReg x) :
    ctr (setLog (bump s a 1) b v) x = ctr s x := by
  have hne {y : Nat} (hy : isErrReg y) : x ≠ y := fun h => hx (h ▸ hy)
  exact (ctr_setLog_other _ v (hne hb)).trans (ctr_bumpW_other _ _ _ _ _ (hne ha))

/-- A codeword of sound stacks has no error. -/
theorem cwErrs_sound {s : State} (h : stacksSound s) (cw : Nat) : cwErrs s cw = [] := by
  obtain ⟨herr, -, hstk⟩ := h
  have hbad : badSyms s cw = [] := by rw [badSyms, (hstk _).1]
  have htab : tabGet [] s.mem.devErr cw = [] := by rw [herr, tabGet]
  rw [cwErrs, hbad, htab, List.filter_nil, List.map_nil, List.append_nil]

theorem stackRead_logged (s : State) {a b : Nat} (v : Nat) (ha : isErrReg a) (hb : isErrReg b) :
    StackRead s (setLog (bump s a 1) b v) := ⟨rfl, fun _ => rfl, fun _ hx => ctr_logged_other s v ha hb hx⟩

theorem mem_logged (s : State) (a b v : Nat) : (setLog (bump s a 1) b v).mem = s.mem := rfl

/-- A codeword beyond repair, which sound stacks do not have, is marked where it is found. -/
theorem stackRead_spoilt {s t : State} (hs : ¬ stacksSound s) (h : StackRead s t) (hmem : t.mem = s.mem) (p cw : Nat) (bs : List Byte) :
    StackRead s (storeCw { t with mem.dev := memPut t.mem.dev p bs } cw true) :=
  h.trans ⟨rfl, fun ht => absurd (stacksSound_of_mem hmem.symm ht) hs, fun _ _ => rfl⟩

theorem stackRead_cwRead (cw : Nat) (s : State) : StackRead s (cwRead s cw).1 := by
  unfold cwRead
  dsimp only
  split
  · exact .refl s
  split
  · exact .refl s
  next hes =>
  have hmarked : ¬ stacksSound s := fun hs => hes (List.isEmpty_iff.mpr (cwErrs_sound hs cw))
  split
  · exact .refl s
  · exact .refl s
  · exact stackRead_logged s _ (isErrReg_ceCount _) (isErrReg_ceLog _)
  · exact stackRead_spoilt hmarked (stackRead_logged s _ (isErrReg_ueCount _) (isErrReg_ueLog _)) (mem_logged s _ _ _) _ _ _

theorem stackRead_cwReadAll (cws : List Nat) (s : State) : StackRead s (cwReadAll s cws).1 := by
  induction cws generalizing s with
  | nil => exact .refl s
  | cons cw cws ih => exact (stackRead_cwRead cw s).trans (ih _)

theorem stackRead_physRead (k : Cls) (p n : Nat) (s : State) : StackRead s (physRead s k p n).1 := by
  have hask := StackRead.of_onlyAsks (Laws.memAsk_only s (reqLevel true k) p n)
  unfold physRead
  dsimp only
  split
  · exact hask
  · exact hask.trans (stackRead_cwReadAll _ _)

theorem stackRead_readPieces (k : Cls) (ps : List (Nat × Nat)) (s : State) : StackRead s (readPieces s k ps).1 := by
  induction ps generalizing s with
  | nil => exact .refl s
  | cons p ps ih => exact (stackRead_physRead k p.1 p.2 s).trans (ih _)

theorem stackRead_tenRead {s : State} {k : Cls} {f a n : Nat} {r : State × List Byte × Bool} (h : tenRead s k f a n = some r) :
    StackRead s r.1 := by
  unfold tenRead at h
  split at h
  · cases h
  · cases h
    exact stackRead_readPieces k _ s

end Sys2Proof.Proofs
end

section
/-! PROOF. Operations in flight (R159, R178): finding an operation after its phase has changed, its commands, its end; the counters of a
cluster. -/

namespace Sys2Proof.Proofs

open Sys2Proof.Machine

/-! ### Finding an operation -/

theorem findOp_congr {s t : State} {c : Nat} (h : (getClu t c).ops = (getClu s c).ops) (sl tk : Nat) :
    findOp t c sl tk = findOp s c sl tk := by
  rw [findOp, findOp, h]

theorem findOp_names {s : State} {c sl tk : Nat} {o : Op} (h : findOp s c sl tk = some o) : o.sl = sl ∧ o.ticket.toNat = tk := by
  have hp := List.find?_some h
  simpa using hp

/-- An operation answers to the slot and ticket under which it is found. -/
theorem sameOp_eq {o : Op} {sl tk : Nat} (hsl : o.sl = sl) (htk : o.ticket.toNat = tk) :
    sameOp o = fun x => x.sl == sl && x.ticket.toNat == tk := by
  funext x
  subst hsl htk
  simp only [sameOp, Bool.beq_eq_decide_eq, BitVec.toNat_inj, eq_comm]

theorem find_modFirst {α : Type} {p : α → Bool} {a b : α} (hp : p b = true) {l : List α} (h : l.find? p = some a) :
    (modFirst p (fun _ => b) l).find? p = some b := by
  induction l with
  | nil => cases h
  | cons x l ih =>
    by_cases hx : p x = true
    · simp [modFirst, hx, hp]
    · simp only [List.find?_cons, hx] at h
      simp only [modFirst, hx, Bool.false_eq_true, if_false, List.find?_cons]
      exact ih h

/-- The operation is in the phase that it has been put in. -/
theorem findOp_setPhase {s : State} {c sl tk : Nat} {o : Op} (h : findOp s c sl tk = some o) (p : Phase) :
    findOp (setPhase s c o p) c sl tk = some { o with phase := p } := by
  obtain ⟨hsl, htk⟩ := findOp_names h
  have hput : (getClu (setPhase s c o p) c).ops = modFirst (sameOp o) (fun _ => { o with phase := p }) (getClu s c).ops := by
    rw [setPhase, putOp, getClu_mod_self]
    rfl
  rw [findOp, hput, sameOp_eq hsl htk]
  exact find_modFirst (by simp [hsl, htk]) h

/-- A change of phase changes the cluster's operations alone. -/
theorem onlyOps_setPhase {c : Nat} {s u : State} (h : onlyOps c s u) (o : Op) (p : Phase) : onlyOps c s (setPhase u c o p) := by
  obtain ⟨hframe, hclu⟩ := h
  refine ⟨?_, fun k hk => (getClu_mod_other u c k _ hk).trans (hclu k hk)⟩
  rw [hframe]
  rfl

theorem onlyOps_refl (c : Nat) (s : State) : onlyOps c s s := ⟨rfl, fun _ _ => rfl⟩

theorem onlyOps_bumpC (c o n : Nat) (s : State) : onlyOps c s (bumpC s c o n) := ⟨rfl, fun _ _ => rfl⟩

/-! ### Counters of a cluster -/

theorem bumpC_zero (s : State) (c o : Nat) : bumpC s c o 0 = s := rfl

theorem raised_bumpC (s : State) (c o n : Nat) : raised 32 (cluAddr c o) n s (bumpC s c o n) := by
  unfold raised
  split
  next h => subst h; rfl
  next h => exact ctr_bumpW 32 (by decide) s _ n h

theorem ctr_bumpC_other (s : State) (c n : Nat) {o x : Nat} (h : x ≠ cluAddr c o) : ctr (bumpC s c o n) x = ctr s x :=
  ctr_bumpW_other _ _ _ _ _ h

theorem cluAddr_ne (c : Nat) {o p : Nat} (h : o ≠ p) : cluAddr c o ≠ cluAddr c p := fun e => h (Nat.add_left_cancel e)

/-- A counter that is not touched before or behind its raising. -/
theorem raised_congr {w a n : Nat} {s s1 t1 t : State} (h : raised w a n s1 t1) (hs : ctr s1 a = ctr s a) (ht : ctr t a = ctr t1 a) :
    raised w a n s t := by
  unfold raised at h ⊢
  rw [ht, h, hs]

/-! ### Commands of an operation -/

/-- Only a tile operation has a descriptor with an OP. -/
theorem kind_of_dOp {o : Op} (h : dOp o.desc ≠ 0) : o.kind = .tile o.desc := by
  unfold Op.desc at h ⊢
  cases hk : o.kind with
  | tile d => rfl
  | dmag a b l x => exact absurd (by rw [hk]; rfl) h
  | dmap a b l x => exact absurd (by rw [hk]; rfl) h

theorem opCmd_hasOp {s : State} {c sl tk opc : Nat} {o : Op} {ph : Phase} {p : Phase → Bool} (h : hasOp s c sl tk o ph)
    (hop : dOp o.desc = opc) (hp : p ph = true) (g : Op → State → State) : opCmd s c sl tk opc p g = .next (g o s) := by
  obtain ⟨hlive, hfind, rfl⟩ := h
  simp [opCmd, slotRun_gives hlive, withOp, hfind, hop, hp]

theorem opRead_clean {s t : State} {c n : Nat} {u : BankUser} {o : Op} {r : Opnd} {bs : List Byte} (hu : opUser o = u)
    (h : clean c u o.sl [(r, n, bs)] s t) (g : State → List Byte → State) : opRead s c o r n g = g t bs := by
  obtain ⟨s1, hread, -, rfl⟩ := h
  simp [opRead, hu, hread]

/-! ### The end of an operation (R178, R414) -/

/-- An operation that is released is not found any more. -/
theorem findOp_dropOp {s : State} {c : Nat} (o : Op) : findOp (dropOp s c o) c o.sl o.ticket.toNat = none := by
  rw [findOp, dropOp, getClu_mod_self, ← sameOp_eq rfl rfl]
  simp

/-- The arrival counter that an operation names is raised. -/
def countArrival (s : State) (c : Nat) (o : Op) : State :=
  match o.ctr with
  | some n => bumpAc s c o.sl n
  | none => s

/-- Nothing but the slot's arrival counters changes. -/
theorem countArrival_frame (s : State) (c : Nat) (o : Op) :
    countArrival s c o = { s with cl.slots := (countArrival s c o).cl.slots } ∧
      slotCtx (countArrival s c o) c o.sl = slotCtx s c o.sl := by
  unfold countArrival
  split
  next n _ =>
    have hctx : (getSlot (bumpAc s c o.sl n) c o.sl).ctx = (getSlot s c o.sl).ctx := by rw [bumpAc, getSlot_mod_self]
    exact ⟨rfl, by rw [slotCtx, hctx]; rfl⟩
  next => exact ⟨rfl, rfl⟩

theorem slotCtx_congr {s t : State} (hslots : t.cl.slots = s.cl.slots) (hhub : t.hub = s.hub) (c sl : Nat) :
    slotCtx t c sl = slotCtx s c sl := by
  unfold slotCtx getSlot getCtx
  rw [hslots, hhub]

theorem runItems_congr {s t : State} (h : t.hub = s.hub) (r : Nat) : runItems t r = runItems s r := by
  rw [runItems, runItems, h]

theorem poolCheck_idle {s : State} {r : Nat} (h : runItems s r = []) : poolCheck s r = s := by
  unfold poolCheck
  split
  · rfl
  · simp [h]

/-- The end of an operation of a slot whose region has no work item in flight. -/
theorem opEnd_idle {s : State} {c : Nat} {o : Op} (h : ∀ x, slotCtx s c o.sl = some x → runItems s x.region = []) :
    opEnd s c o = countArrival (dropOp s c o) c o := by
  obtain ⟨hframe, hctx⟩ := countArrival_frame (dropOp s c o) c o
  have hitems (r : Nat) : runItems (countArrival (dropOp s c o) c o) r = runItems s r := by rw [hframe]; rfl
  show (match slotCtx (countArrival (dropOp s c o) c o) c o.sl with
    | some x => poolCheck (countArrival (dropOp s c o) c o) x.region
    | none => countArrival (dropOp s c o) c o) = _
  split
  next x hx => exact poolCheck_idle ((hitems _).trans (h x (hctx.symm.trans hx)))
  next => rfl

/-- It has left the scoreboard; no byte and no counter has changed. -/
theorem opEnd_idle_spec {s : State} {c : Nat} {o : Op} (h : ∀ x, slotCtx s c o.sl = some x → runItems s x.region = []) :
    findOp (opEnd s c o) c o.sl o.ticket.toNat = none ∧ (opEnd s c o).cl.spad = s.cl.spad ∧
      (opEnd s c o).cl.spadPoi = s.cl.spadPoi ∧ (opEnd s c o).mem = s.mem ∧ (opEnd s c o).ctrs = s.ctrs := by
  obtain ⟨hframe, -⟩ := countArrival_frame (dropOp s c o) c o
  rw [opEnd_idle h, hframe]
  exact ⟨findOp_dropOp o, rfl, rfl, rfl, rfl⟩

end Sys2Proof.Proofs
end

section
/-! PROOF. The attention unit (R189 to R206): what the start of a pass reads and translates, its suspension and resumption, and the write of
OUT that ends it. -/

namespace Sys2Proof.Proofs

open Sys2Proof.Machine

/-! ### The unit's commands -/

theorem opUser_att {o : Op} (h : dOp o.desc = opATT) : opUser o = .att := by
  have hk := kind_of_dOp (o := o) (by rw [h]; decide)
  rw [opUser, hk]
  simp [h, opATT]

theorem exec_att (c sl tk : Nat) (s : State) : exec (.att c sl tk) s = execAtt c sl tk s := rfl

theorem exec_attSuspend (c sl tk : Nat) (s : State) : exec (.attSuspend c sl tk) s = execAttSuspend c sl tk s := rfl

theorem exec_attResume (c sl tk : Nat) (s : State) : exec (.attResume c sl tk) s = execAttResume c sl tk s := rfl

theorem exec_operationComplete (c sl : Nat) (e : OpEnd) (s : State) :
    exec (.operationComplete c sl e) s = execOperationComplete c sl e s := rfl

/-- OPERATION_COMPLETE of a pass under way. -/
theorem doOpComplete_att {s : State} {c sl tk : Nat} {o : Op} {a : AttPass} (hop : dOp o.desc = opATT)
    (h : findOp s c sl tk = some o) (hp : o.phase = .att a) : doOpComplete c sl tk 0 [] s = attDone c sl tk 0 [] o s := by
  simp [doOpComplete, h, kind_of_dOp (o := o) (by rw [hop]; decide), hp]

/-! ### The start of a pass (R191 to R197) -/

theorem walkRead_sees {s t : State} {c a n : Nat} {o : Op} {bs : List Byte} (h : sees o.cls (slotFn s c o.sl) a n bs s t)
    (g : State → List Byte → State) : walkRead s c o a n g = g t bs := by
  simp [walkRead, h.1]

/-- The function of a slot, where only requests at the stacks have changed. -/
theorem slotFn_onlyAsks {s t : State} (h : onlyAsks s t) (c sl : Nat) : slotFn t c sl = slotFn s c sl := by
  rw [onlyAsks] at h
  rw [h]
  rfl

/-- The share that SEQ and LAYER select is read as the records hold it. -/
theorem withShare_shareIs {s t : State} {c : Nat} {o : Op} {h : KvHdr} {sh : Share} (hs : shareIs c o h sh s t)
    (g : State → Share → State) : withShare s c o g = g t sh := by
  obtain ⟨hhdr, hseq, hl0, hl1, r, l, s1, hrec, hvalid, hgen, hlay, hok, rfl, hf, hcap⟩ := hs
  have hlay' := hlay
  rw [← slotFn_onlyAsks hrec.2] at hlay'
  have hin : ¬ (h.seqcap ≤ kSeq o.desc % 2 ^ 24 ∨ kLayer o.desc < h.l0 ∨ h.l0 + h.nl ≤ kLayer o.desc) := by omega
  have hrange : ¬ (leAt r 4 4 < leAt r 8 4 ∨ leAt r 8 4 + leAt r 12 4 < leAt r 4 4) := by
    have hc : leAt r 8 4 ≤ leAt r 4 4 := hf
    have hd : leAt r 4 4 ≤ leAt r 8 4 + leAt r 12 4 := hcap
    omega
  unfold withShare withHdr
  simp only [hhdr, if_neg hin, walkRead_sees hrec, hvalid, hgen, walkRead_sees hlay', hok]
  simp [mkShare, hrange]

theorem onlyAsks_shareIs {s t : State} {c : Nat} {o : Op} {h : KvHdr} {sh : Share} (hs : shareIs c o h sh s t) : onlyAsks s t := by
  obtain ⟨-, -, -, -, r, l, s1, hrec, -, -, hlay, -⟩ := hs
  exact Laws.onlyAsks_trans hrec.2 hlay.2

/-- What the start of a pass changes beside the operation's phase: cluster parts but for the operations, the stacks as reads change them,
and counters but for the one of dropped mask bits (R196). -/
structure WalkerRead (c : Nat) (s t : State) : Prop where
  frame : onlyRead c { s with mem := t.mem } t
  ops : (getClu t c).ops = (getClu s c).ops
  sound : stacksSound s → t.mem = s.mem
  maskDrop : ctr t (cluAddr c oMaskDrop) = ctr s (cluAddr c oMaskDrop)

theorem onlyRead_trans {c : Nat} {s t u : State} (h : onlyRead c { s with mem := t.mem } t) (g : onlyRead c { t with mem := u.mem } u) :
    onlyRead c { s with mem := u.mem } u := by
  refine ⟨?_, fun k hk => (g.2 k hk).trans (h.2 k hk)⟩
  rw [g.1, h.1]

theorem onlyRead_setPhase {c : Nat} {s u : State} (h : onlyRead c { s with mem := u.mem } u) (o : Op) (p : Phase) :
    onlyRead c { s with mem := u.mem } (setPhase u c o p) :=
  onlyRead_trans h ⟨rfl, fun k hk => getClu_mod_other u c k _ hk⟩

theorem onlyRead_bumpC (c o n : Nat) (s : State) : onlyRead c s (bumpC s c o n) := ⟨rfl, fun _ _ => rfl⟩

namespace WalkerRead

theorem refl (c : Nat) (s : State) : WalkerRead c s s := ⟨⟨rfl, fun _ _ => rfl⟩, rfl, fun _ => rfl, rfl⟩

theorem trans {c : Nat} {s t u : State} (h : WalkerRead c s t) (g : WalkerRead c t u) : WalkerRead c s u where
  frame := onlyRead_trans h.frame g.frame
  ops := g.ops.trans h.ops
  sound hs := (g.sound (stacksSound_of_mem (h.sound hs) hs)).trans (h.sound hs)
  maskDrop := g.maskDrop.trans h.maskDrop

theorem of_stackRead (c : Nat) {s t : State} (h : StackRead s t) : WalkerRead c s t := by
  have hclu (k : Nat) : getClu t k = getClu s k := by rw [h.frame]; rfl
  refine ⟨⟨?_, fun k _ => hclu k⟩, by rw [hclu], h.sound, h.counters _ (not_isErrReg_cluAddr c (by decide))⟩
  rw [h.frame]

theorem of_clean {c n sl : Nat} {u : BankUser} {r : Opnd} {bs : List Byte} {s t : State} (h : clean c u sl [(r, n, bs)] s t) :
    WalkerRead c s t := by
  obtain ⟨_, _, hops⟩ := (spadAccess_clean h).own
  obtain ⟨_, -, ⟨hframe, hclu⟩, rfl⟩ := h
  exact ⟨⟨by rw [hframe], hclu⟩, by rw [hops], fun _ => by rw [hframe], by rw [hframe]; rfl⟩

theorem lookaside (c : Nat) (s : State) (e : LbEnt) : WalkerRead c s (modClu s c (fun k => { k with lb := lbPut k.lb e })) :=
  ⟨⟨rfl, fun k hk => getClu_mod_other s c k _ hk⟩, by rw [getClu_mod_self], fun _ => rfl, rfl⟩

theorem counted (c n : Nat) (s : State) {o : Nat} (h : oMaskDrop ≠ o) : WalkerRead c s (bumpC s c o n) :=
  ⟨onlyRead_bumpC c o n s, rfl, fun _ => rfl, ctr_bumpC_other s c n (cluAddr_ne c h)⟩

end WalkerRead

/-- The fetch of a cold page, as `aheadPage` makes it. -/
def coldFetch (o : Op) (f d n p : Nat) (s : State) : State :=
  if pteTier p = 2 then (match tenRead s o.cls f (pteAddr p) (pageBytes d n) with | some r => r.1 | none => s) else s

theorem walkerRead_coldFetch (c : Nat) (o : Op) (f d n p : Nat) (s : State) : WalkerRead c s (coldFetch o f d n p s) := by
  unfold coldFetch
  split
  · split
    next r h => exact .of_stackRead c (stackRead_tenRead h)
    next => exact .refl c s
  · exact .refl c s

theorem walkerRead_aheadPage (c : Nat) (o : Op) (a : AttPass) (pg : Nat) (s : State) : WalkerRead c s (aheadPage s c o a pg).1 := by
  have hfetch (p : Nat) (t : State) := walkerRead_coldFetch c o (slotFn s c o.sl) a.d a.chs.length p t
  have hmiss := WalkerRead.counted c 1 s (o := oLbMiss) (by decide)
  unfold aheadPage
  dsimp only
  split
  next e _ => exact (WalkerRead.lookaside c s e).trans (hfetch e.pte _)
  next =>
    split
    next => exact hmiss
    next h => exact hmiss.trans (.of_stackRead c (stackRead_tenRead h))
    next t bs h =>
      have hread := hmiss.trans (.of_stackRead c (stackRead_tenRead h))
      refine WalkerRead.trans ?_ (hfetch (leNat bs) _)
      split
      · exact hread.trans (.lookaside c t _)
      · exact hread

/-- A pass begins as it is given, but for the page that is translated ahead. -/
theorem passBegins_ahead (s : State) (c : Nat) (o : Op) (a : AttPass) :
    ∃ u n, WalkerRead c s u ∧ passBegins s c o a = setPhase u c o (.att { a with next := n }) := by
  unfold passBegins
  split
  next => exact ⟨s, a.next, .refl c s, rfl⟩
  next pg _ => exact ⟨_, _, walkerRead_aheadPage c o a pg s, rfl⟩

/-- The steps of a pass: its committed pages, and one for the tail where a tail slot is attended (R197). -/
theorem attSteps_eq (f n : Nat) (tail : List Nat) : attSteps f n tail = ceilDiv (n - f) 256 + if tail = [] then 0 else 1 := by
  cases tail <;> rfl

/-- The pass that ATT opens on a share, from the bytes of Q. -/
def openedPass (d : List Byte) (sh : Share) (bs : List Byte) : AttPass :=
  attPass0 d sh (attQueries d sh.d bs).1 ((attHeads d).map (fun h => (kvHeadOf sh h).getD 0))

/-- The events of Q's alignment are counted (R51, R193). -/
def countQueries (c : Nat) (d : List Byte) (sh : Share) (bs : List Byte) (s : State) : State :=
  bumpC (bumpC s c oQalign (attQueries d sh.d bs).2.1) c oFmtScale (attQueries d sh.d bs).2.2

theorem walkerRead_countQueries (c : Nat) (d : List Byte) (sh : Share) (bs : List Byte) (s : State) :
    WalkerRead c s (countQueries c d sh bs s) :=
  (WalkerRead.counted c _ s (by decide)).trans (.counted c _ _ (by decide))

/-- A pass that meets the checks of R207 reads its share and Q, counts, and begins. -/
theorem attStart_shareIs {s s1 s2 : State} {c : Nat} {o : Op} {h : KvHdr} {sh : Share} {bs : List Byte} (hop : dOp o.desc = opATT)
    (hsh : shareIs c o h sh s s1) (hbad : attBad o.desc sh = none)
    (hq : clean c .att o.sl [(opnd o.desc 16, imageSize ((fmtOf (opnd o.desc 16).fmt).getD .a8) (kHeads o.desc * sh.d) false, bs)] s1 s2) :
    attStart c o s = passBegins (bumpC (countQueries c o.desc sh bs s2) c oMaskDrop (attTail o.desc sh).2) c o
      (openedPass o.desc sh bs) := by
  rw [attStart]
  simp only [withShare_shareIs hsh, hbad, opRead_clean (opUser_att hop) hq]
  rfl

/-- ATT, once the unit takes it. -/
theorem exec_att_takes {s : State} {c sl tk : Nat} {o : Op} (h : hasOp s c sl tk o .issued) (hop : dOp o.desc = opATT)
    (ht : attTakes s c o = true) (hw : funcWaits s (slotFn s c o.sl) = false) :
    exec (.att c sl tk) s = .next (attStart c o s) := by
  rw [exec_att, execAtt, attCmd, opCmd_hasOp h hop rfl, ht, hw]
  rfl

theorem gives_att {s s1 s2 : State} {c sl tk : Nat} {o : Op} {h : KvHdr} {sh : Share} {bs : List Byte} (hop : dOp o.desc = opATT)
    (hf : hasOp s c sl tk o .issued) (ht : attTakes s c o = true) (hw : funcWaits s (slotFn s c sl) = false)
    (hsh : shareIs c o h sh s s1) (hbad : attBad o.desc sh = none)
    (hq : clean c .att sl [(opnd o.desc 16, imageSize ((fmtOf (opnd o.desc 16).fmt).getD .a8) (kHeads o.desc * sh.d) false, bs)] s1 s2) :
    gives (.att c sl tk) s (fun t => onlyRead c { s with mem := t.mem } t ∧ (stacksSound s → t.mem = s.mem) ∧
      raised 32 (cluAddr c oMaskDrop) (attTail o.desc sh).2 s t ∧
      ∃ n, nowIn t c sl tk o (.att { openedPass o.desc sh bs with next := n })) := by
  obtain ⟨rfl, -⟩ := findOp_names hf.2.1
  have hv : WalkerRead c s (countQueries c o.desc sh bs s2) :=
    ((WalkerRead.of_stackRead c (.of_onlyAsks (onlyAsks_shareIs hsh))).trans (.of_clean hq)).trans
      (walkerRead_countQueries c o.desc sh bs s2)
  have hstart := (exec_att_takes hf hop ht hw).trans (congrArg _ (attStart_shareIs hop hsh hbad hq))
  generalize countQueries c o.desc sh bs s2 = v at hv hstart
  obtain ⟨u, n, hu, hbegins⟩ := passBegins_ahead (bumpC v c oMaskDrop (attTail o.desc sh).2) c o (openedPass o.desc sh bs)
  have hops : (getClu u c).ops = (getClu s c).ops := hu.ops.trans hv.ops
  have hfind : findOp u c o.sl tk = some o := (findOp_congr hops _ _).trans hf.2.1
  refine gives_of (hstart.trans (congrArg _ hbegins)) ⟨?_, fun hs => ?_, ?_, n, findOp_setPhase hfind _⟩
  · exact onlyRead_setPhase (onlyRead_trans (onlyRead_trans hv.frame (onlyRead_bumpC c oMaskDrop _ v)) hu.frame) o _
  · exact (hu.sound (stacksSound_of_mem (hv.sound hs) hs)).trans (hv.sound hs)
  · exact raised_congr (raised_bumpC v c oMaskDrop _) hv.maskDrop hu.maskDrop

/-! ### The pages of a pass, and its suspension (R190, R197) -/

theorem givesWay_iff (s : State) (c : Nat) (o : Op) (a : AttPass) :
    givesWay s c o a = true ↔ o.cls ≠ .u ∧ urgentWaits s c o = true ∧ a.page < a.pages := by
  simp [givesWay, and_assoc]

/-- A pass that suspends is counted, and stands as it is. -/
theorem suspendPass_spec {s : State} {c sl tk : Nat} {o : Op} (h : findOp s c sl tk = some o) (a : AttPass) :
    onlyOps c s (suspendPass s c o a) ∧ nowIn (suspendPass s c o a) c sl tk o (.suspended a) ∧
      raised 32 (cluAddr c oSuspend) 1 s (suspendPass s c o a) :=
  ⟨onlyOps_setPhase (onlyOps_bumpC c oSuspend 1 s) o _, findOp_setPhase (s := bumpC s c oSuspend 1) h _,
    raised_bumpC s c oSuspend 1⟩

/-- A pass on its way to its end takes a step, and then suspends or goes on. -/
theorem attRest_succ {s s1 : State} {c : Nat} {o : Op} {a a1 : AttPass} (hlt : a.page < a.pages)
    (hstep : ∀ g, attStep s c o a g = g s1 a1) (g : State → AttPass → State) (n : Nat) :
    attRest c o g (n + 1) a s = if givesWay s1 c o a1 then suspendPass s1 c o a1 else attRest c o g n a1 s1 := by
  rw [attRest, if_neg (Nat.not_le.mpr hlt), hstep]

theorem attEnds_att {s : State} {c : Nat} {o : Op} {a : AttPass} (hp : o.phase = .att a) (hw : funcWaits s (slotFn s c o.sl) = false) :
    attEnds c o s = attRest c o (attFinish c o) (a.pages - a.page) a s := by
  simp [attEnds, hp, hw]

/-- A pass that has not ended stays in flight. -/
theorem attDone_open {s : State} {c sl tk : Nat} {o p : Op} (h : findOp (attEnds c o s) c sl tk = some p) (hp : p.phase ≠ .done) :
    attDone c sl tk 0 [] o s = attEnds c o s := by
  simp [attDone, bumpC_zero, h, hp]

theorem attDone_done {s : State} {c sl tk : Nat} {o p : Op} (h : findOp (attEnds c o s) c sl tk = some p) (hp : p.phase = .done) :
    attDone c sl tk 0 [] o s = opEnd (attEnds c o s) c p := by
  simp [attDone, bumpC_zero, h, hp]

theorem exec_operationComplete_att {s : State} {c sl tk : Nat} {o : Op} {a : AttPass} (h : hasOp s c sl tk o (.att a))
    (hop : dOp o.desc = opATT) : exec (.operationComplete c sl ⟨tk, 0, []⟩) s = .next (attDone c sl tk 0 [] o s) := by
  obtain ⟨hlive, hfind, hp⟩ := h
  rw [exec_operationComplete, execOperationComplete, slotRun_gives hlive, doOpComplete_att hop hfind hp]

section
variable {s s1 : State} {c sl tk : Nat} {o : Op} {a a1 : AttPass} (hop : dOp o.desc = opATT) (h : hasOp s c sl tk o (.att a))
  (hw : funcWaits s (slotFn s c sl) = false)
include hop h hw

/-- A step after which a pass gives way suspends it: by ATT_SUSPEND, and on its way to its end. -/
theorem exec_suspends (hu : urgentWaits s c o = true) (hlt : a.page < a.pages) (hstep : ∀ g, attStep s c o a g = g s1 a1)
    (hfind : findOp s1 c sl tk = some o) (hg : givesWay s1 c o a1 = true) :
    exec (.attSuspend c sl tk) s = .next (suspendPass s1 c o a1) ∧
      exec (.operationComplete c sl ⟨tk, 0, []⟩) s = .next (suspendPass s1 c o a1) := by
  obtain ⟨hsl, -⟩ := findOp_names h.2.1
  rw [← hsl] at hw
  have hcls := ((givesWay_iff _ _ _ _).mp hg).1
  constructor
  · rw [exec_attSuspend, execAttSuspend, opCmd_hasOp h hop rfl]
    simp [doSuspend, h.2.2, hcls, hu, hw, Nat.not_le.mpr hlt, hstep, hg]
  · have hends : attEnds c o s = suspendPass s1 c o a1 := by
      obtain ⟨n, hn⟩ : ∃ n, a.pages - a.page = n + 1 := ⟨a.pages - a.page - 1, by omega⟩
      rw [attEnds_att h.2.2 hw, hn, attRest_succ hlt hstep, if_pos hg]
    have hnow := (suspendPass_spec hfind a1).2.1
    rw [exec_operationComplete_att h hop, attDone_open (by rw [hends]; exact hnow) (by simp), hends]

end

/-- ATT_RESUME, where no pass is under way and no urgent operation waits. -/
theorem exec_att_resumes {s : State} {c sl tk : Nat} {o : Op} {a : AttPass} (hop : dOp o.desc = opATT)
    (h : hasOp s c sl tk o (.suspended a)) (hfree : ∀ x ∈ (getClu s c).ops, inPass x.phase = false)
    (hcalm : ∀ x ∈ (getClu s c).ops, attWaits (getClu s c).ops x = true → x.cls ≠ .u) :
    exec (.attResume c sl tk) s = .next (setPhase s c o (.att a)) := by
  have hpass : (getClu s c).ops.any (fun x => inPass x.phase) = false := by simpa using hfree
  have hurgent : (getClu s c).ops.any (fun x => attWaits (getClu s c).ops x && x.cls == .u) = false := by simpa using hcalm
  rw [exec_attResume, execAttResume, opCmd_hasOp h hop rfl]
  simp [doResume, h.2.2, hpass, hurgent]

/-! ### The end of a pass (R205, R206) -/

/-- A finished pass is counted (R205, R209). -/
def countFinish (c : Nat) (evs : List (Bool × Bool)) (n : Nat) (s : State) : State :=
  bumpC (bumpC (countEvents s c evs) c oPasses 1) c oAttEmpty n

theorem countFinish_cl (c : Nat) (evs : List (Bool × Bool)) (n : Nat) (s : State) : (countFinish c evs n s).cl = s.cl := by
  simp only [countFinish, countEvents, bumpC_cl]

theorem countFinish_mem (c : Nat) (evs : List (Bool × Bool)) (n : Nat) (s : State) : (countFinish c evs n s).mem = s.mem := by
  simp only [countFinish, countEvents, bumpC_mem]

theorem countFinish_hub (c : Nat) (evs : List (Bool × Bool)) (n : Nat) (s : State) : (countFinish c evs n s).hub = s.hub := by
  simp only [countFinish, countEvents, bumpC_hub]

/-- The write of OUT before touches neither counter. -/
theorem raised_countFinish {c : Nat} {s w : State} (hw : SpadAccess c s w) (evs : List (Bool × Bool)) (n : Nat) :
    raised 32 (cluAddr c oPasses) 1 s (countFinish c evs n w) ∧ raised 32 (cluAddr c oAttEmpty) n s (countFinish c evs n w) := by
  have hkept {x : Nat} (h : x ∉ [oSpadCorr, oSpadUncorr, oFmtSat, oFmtNan]) :
      ctr (countEvents w c evs) (cluAddr c x) = ctr s (cluAddr c x) := by
    simp only [List.mem_cons, List.not_mem_nil, or_false, not_or] at h
    obtain ⟨h1, h2, h3, h4⟩ := h
    rw [countEvents, ctr_bumpC_other _ _ _ (cluAddr_ne c h4), ctr_bumpC_other _ _ _ (cluAddr_ne c h3),
      hw.counters _ (cluAddr_ne c h1) (cluAddr_ne c h2)]
  constructor
  · exact raised_congr (raised_bumpC (countEvents w c evs) c oPasses 1) (hkept (by decide))
      (ctr_bumpC_other _ c n (cluAddr_ne c (by decide)))
  · refine raised_congr (raised_bumpC _ c oAttEmpty n) ?_ rfl
    rw [ctr_bumpC_other _ c 1 (cluAddr_ne c (by decide)), hkept (by decide)]

/-- A pass whose steps are done and whose OUT no poisoned word refuses: OUT is written, and then counted. -/
theorem attFinish_puts {s w : State} {c : Nat} {o : Op} {a : AttPass} (hop : dOp o.desc = opATT)
    (h : puts s c .att o.sl [(opnd o.desc 24, 0, (attOutput o a).1)] w) :
    attFinish c o s a = setPhase (countFinish c (attOutput o a).2 (a.heads.filter headEmpty).length w) c o .done := by
  have hput : writeAll s c (opUser o) o.sl [(opnd o.desc 24, 0, (attOutput o a).1)] = (w, false) := by rwa [opUser_att hop]
  simp [attFinish, opWrite, opWrites, hput, countFinish]

/-- The bytes of OUT: each head's result at its place (R205). -/
theorem attOutput_bytes (o : Op) (a : AttPass) : (attOutput o a).1 = (List.range a.heads.length).flatMap (fun i =>
    (headOut (if (opnd o.desc 24).fmt = 0 then none else fmtOf (opnd o.desc 24).fmt) o.rng (i * a.d)
      (nth (headInit a.d) a.heads i)).1) := by
  rw [attOutput, List.flatMap_map]

/-- The operation of a finished pass is done, and ends: OUT stands as it was written, and the pass is counted. -/
theorem opEnd_attFinish {s w : State} {c sl tk : Nat} {o : Op} {a : AttPass} (hop : dOp o.desc = opATT)
    (hfind : findOp s c sl tk = some o) (hidle : ∀ x, slotCtx s c sl = some x → runItems s x.region = [])
    (hputs : puts s c .att sl [(opnd o.desc 24, 0, (attOutput o a).1)] w) :
    findOp (attFinish c o s a) c sl tk = some { o with phase := .done } ∧
      let t := opEnd (attFinish c o s a) c { o with phase := .done }
      findOp t c sl tk = none ∧ t.cl.spad = w.cl.spad ∧ t.cl.spadPoi = w.cl.spadPoi ∧ t.mem = s.mem ∧
        raised 32 (cluAddr c oPasses) 1 s t ∧ raised 32 (cluAddr c oAttEmpty) (a.heads.filter headEmpty).length s t := by
  obtain ⟨rfl, rfl⟩ := findOp_names hfind
  have hacc := spadAccess_puts hputs
  obtain ⟨_, _, hown⟩ := hacc.own
  have hcount := raised_countFinish hacc (attOutput o a).2 (a.heads.filter headEmpty).length
  have hcl := countFinish_cl c (attOutput o a).2 (a.heads.filter headEmpty).length w
  have hmem := countFinish_mem c (attOutput o a).2 (a.heads.filter headEmpty).length w
  have hhub := countFinish_hub c (attOutput o a).2 (a.heads.filter headEmpty).length w
  rw [attFinish_puts hop hputs]
  generalize countFinish c (attOutput o a).2 (a.heads.filter headEmpty).length w = v at hcount hcl hmem hhub ⊢
  have hslots : v.cl.slots = s.cl.slots := by rw [hcl, hacc.frame]
  have hhub : v.hub = s.hub := by rw [hhub, hacc.frame]
  have hclu : getClu v c = getClu w c := by rw [getClu, getClu, hcl]
  have hv : findOp v c o.sl o.ticket.toNat = some o := (findOp_congr (by rw [hclu, hown]) _ _).trans hfind
  refine ⟨findOp_setPhase hv .done, ?_⟩
  have hquiet : ∀ x, slotCtx (setPhase v c o .done) c o.sl = some x → runItems (setPhase v c o .done) x.region = [] := fun x hx =>
    (runItems_congr hhub _).trans (hidle x ((slotCtx_congr hslots hhub c o.sl).symm.trans hx))
  obtain ⟨hgone, hspad, hpoi, hm, hctrs⟩ := opEnd_idle_spec (o := { o with phase := .done }) hquiet
  have hctr (x : Nat) : ctr (opEnd (setPhase v c o .done) c { o with phase := .done }) x = ctr v x := by rw [ctr, hctrs]; rfl
  have harrays : v.cl.spad = w.cl.spad ∧ v.cl.spadPoi = w.cl.spadPoi ∧ v.mem = s.mem :=
    ⟨by rw [hcl], by rw [hcl], by rw [hmem, hacc.frame]⟩
  exact ⟨hgone, hspad.trans harrays.1, hpoi.trans harrays.2.1, hm.trans harrays.2.2, raised_congr hcount.1 rfl (hctr _),
    raised_congr hcount.2 rfl (hctr _)⟩

/-- A pass whose steps are done, or whose last one this is, finishes. -/
theorem attEnds_finishes {s s1 : State} {c : Nat} {o : Op} {a a1 : AttPass} (hp : o.phase = .att a)
    (hw : funcWaits s (slotFn s c o.sl) = false) (hlast : (a.pages ≤ a.page ∧ s1 = s ∧ a1 = a) ∨
      (a.page + 1 = a.pages ∧ (∀ g, attStep s c o a g = g s1 a1) ∧ a1.pages ≤ a1.page)) :
    attEnds c o s = attFinish c o s1 a1 := by
  rw [attEnds_att hp hw]
  rcases hlast with ⟨hdone, rfl, rfl⟩ | ⟨hone, hstep, hdone⟩
  · rw [Nat.sub_eq_zero_of_le hdone, attRest]
  · have hg : ¬ givesWay s1 c o a1 = true := fun h => Nat.not_lt.mpr hdone ((givesWay_iff _ _ _ _).mp h).2.2
    rw [show a.pages - a.page = 0 + 1 by omega, attRest_succ (by omega) hstep, if_neg hg, attRest]

/-- Settles O16: the start by what its reads leave, the suspension by one step of the pass, the end by the write of OUT. -/
theorem attentionUnit : Obligations.AttentionUnit := by
  unfold Obligations.AttentionUnit
  intro s c sl tk o hop
  refine ⟨fun h sh bs s1 s2 hf ht hw hsh hbad hq => ?_, fun a s1 a1 hf hcls hu hlt hw hstep hlt1 hfind hu1 i hi => ?_,
    fun a s1 a1 w hf hw hlast hfind hidle hputs => ?_, fun a hf hfree hcalm => ?_⟩
  · obtain ⟨t, ht, hread, hmem, hdrop, n, hnow⟩ := gives_att hop hf ht hw hsh hbad hq
    refine ⟨t, ht, hread, hmem, hdrop, _, hnow, rfl, rfl, rfl, rfl, rfl, rfl, attSteps_eq _ _ _, rfl⟩
  · have hg := (givesWay_iff s1 c o a1).mpr ⟨hcls, hu1, hlt1⟩
    obtain ⟨hsus, hcomp⟩ := exec_suspends hop hf hw hu hlt hstep hfind hg
    rcases hi with rfl | rfl
    · exact gives_of hsus (suspendPass_spec hfind a1)
    · exact gives_of hcomp (suspendPass_spec hfind a1)
  · obtain ⟨hsl, -⟩ := findOp_names hf.2.1
    have hends := attEnds_finishes hf.2.2 (hsl.symm ▸ hw) hlast
    rw [← attOutput_bytes] at hputs
    obtain ⟨hnow, hend⟩ := opEnd_attFinish hop hfind hidle hputs
    rw [← hends] at hnow hend
    exact gives_of ((exec_operationComplete_att hf hop).trans (congrArg _ (attDone_done hnow rfl))) hend
  · exact gives_of (exec_att_resumes hop hf hfree hcalm) ⟨onlyOps_setPhase (onlyOps_refl c s) o _, rfl, findOp_setPhase hf.2.1 _⟩

end Sys2Proof.Proofs
end

section
/-! PROOF. CMP in the link interface (R251 to R260): a write of operands that no poisoned word refuses, the end of an operation that has
written and counts, and its two directions. -/

namespace Sys2Proof.Proofs

open Sys2Proof.Machine

/-! ### An operation writes, counts, and is done -/

/-- A write that no poisoned word refuses. -/
theorem opWrites_puts {s w : State} {c : Nat} {u : BankUser} {o : Op} {ws : List (Opnd × Nat × List Byte)} (hu : opUser o = u)
    (h : puts s c u o.sl ws w) (g : State → State) : opWrites s c o ws g = g w := by
  subst hu
  simp [opWrites, show writeAll s c (opUser o) o.sl ws = (w, false) from h]

theorem opWrite_puts {s w : State} {c : Nat} {u : BankUser} {o : Op} {r : Opnd} {bs : List Byte} (hu : opUser o = u)
    (h : puts s c u o.sl [(r, 0, bs)] w) (g : State → State) : opWrite s c o r bs g = g w := opWrites_puts hu h g

/-- Counters of a cluster raised in turn, each named by its offset. -/
def countAll (c : Nat) (l : List (Nat × Nat)) (s : State) : State := l.foldl (fun t x => bumpC t c x.1 x.2) s

theorem countAll_cons (c : Nat) (x : Nat × Nat) (l : List (Nat × Nat)) (s : State) :
    countAll c (x :: l) s = countAll c l (bumpC s c x.1 x.2) := rfl

theorem countAll_frame (c : Nat) (l : List (Nat × Nat)) (s : State) :
    countAll c l s = { s with ctrs := (countAll c l s).ctrs, nowTick := (countAll c l s).nowTick
                              nowCtr := (countAll c l s).nowCtr, nowSet := (countAll c l s).nowSet } := by
  induction l generalizing s with
  | nil => rfl
  | cons x l ih =>
    rw [countAll_cons, ih]
    rfl

theorem countAll_cl (c : Nat) (l : List (Nat × Nat)) (s : State) : (countAll c l s).cl = s.cl := by rw [countAll_frame]

theorem ctr_countAll_other {c o : Nat} {l : List (Nat × Nat)} (h : o ∉ l.map Prod.fst) (s : State) :
    ctr (countAll c l s) (cluAddr c o) = ctr s (cluAddr c o) := by
  induction l generalizing s with
  | nil => rfl
  | cons x l ih =>
    rw [List.map_cons, List.mem_cons, not_or] at h
    rw [countAll_cons, ih h.2, ctr_bumpC_other _ _ _ (cluAddr_ne c h.1)]

/-- Each of distinct counters is raised by its own number. -/
theorem raised_countAll {c o n : Nat} {l : List (Nat × Nat)} (hd : (l.map Prod.fst).Nodup) (h : (o, n) ∈ l) (s : State) :
    raised 32 (cluAddr c o) n s (countAll c l s) := by
  induction l generalizing s with
  | nil => cases h
  | cons x l ih =>
    obtain ⟨hx, hd⟩ := List.nodup_cons.mp hd
    rw [countAll_cons]
    rcases List.mem_cons.mp h with rfl | h
    · exact raised_congr (raised_bumpC s c o n) rfl (ctr_countAll_other hx _)
    · have hne : o ≠ x.1 := fun e => hx (e ▸ List.mem_map_of_mem (f := Prod.fst) h)
      exact raised_congr (ih hd h _) (ctr_bumpC_other _ _ _ (cluAddr_ne c hne)) rfl

theorem findOp_clean {c n sl : Nat} {u : BankUser} {r : Opnd} {bs : List Byte} {s t : State} (h : clean c u sl [(r, n, bs)] s t)
    (k tk : Nat) : findOp t c k tk = findOp s c k tk := by
  obtain ⟨_, _, hown⟩ := (spadAccess_clean h).own
  exact findOp_congr (by rw [hown]) k tk

theorem onlyClu_of_clean {c n sl : Nat} {u : BankUser} {r : Opnd} {bs : List Byte} {s t : State}
    (h : clean c u sl [(r, n, bs)] s t) : onlyClu c s t := by
  obtain ⟨_, -, honly, rfl⟩ := h
  exact honly

theorem onlyClu_trans {c : Nat} {s t u : State} (h : onlyClu c s t) (g : onlyClu c t u) : onlyClu c s u := by
  obtain ⟨hs, hk⟩ := h
  obtain ⟨ht, gk⟩ := g
  exact ⟨by rw [ht, hs], fun k hc => (gk k hc).trans (hk k hc)⟩

theorem ctr_onlyClu {c : Nat} {s t : State} (h : onlyClu c s t) (x : Nat) : ctr t x = ctr s x := by
  rw [h.1]
  rfl

/-- An operation is done behind its reads (`u`), its writes (`w`) and its counts. -/
theorem onlyStored_done {c : Nat} {s u w : State} (hu : onlyClu c s u) (hw : SpadAccess c u w) (o : Op) (l : List (Nat × Nat)) :
    onlyStored c s w (setPhase (countAll c l w) c o .done) := by
  have hclu (k : Nat) : getClu (countAll c l w) k = getClu w k := by rw [getClu, getClu, countAll_cl]
  refine ⟨?_, ?_, fun k hk => ?_⟩
  · rw [countAll_frame, hw.frame, hu.1]
    rfl
  · rw [setPhase, putOp, getClu_mod_self, hclu]
  · rw [setPhase, putOp, getClu_mod_other _ _ _ _ hk, hclu, hw.others k hk, hu.2 k hk]

theorem nowIn_done {c sl tk : Nat} {u w : State} {o : Op} (hw : SpadAccess c u w) (hfind : findOp u c sl tk = some o)
    (l : List (Nat × Nat)) : nowIn (setPhase (countAll c l w) c o .done) c sl tk o .done := by
  obtain ⟨_, _, hown⟩ := hw.own
  refine findOp_setPhase ((findOp_congr ?_ sl tk).trans hfind) .done
  rw [getClu, countAll_cl, ← getClu, hown]

/-- No access to the scratchpad counts in these counters: each of them is raised by what the operation counts. -/
theorem raised_done {c k n : Nat} {s u w : State} {l : List (Nat × Nat)} (hu : onlyClu c s u) (hw : SpadAccess c u w) (o : Op)
    (hd : (oSpadCorr :: oSpadUncorr :: l.map Prod.fst).Nodup) (h : (k, n) ∈ l) :
    raised 32 (cluAddr c k) n s (setPhase (countAll c l w) c o .done) := by
  obtain ⟨hcorr, hd⟩ := List.nodup_cons.mp hd
  obtain ⟨huncorr, hd⟩ := List.nodup_cons.mp hd
  have hk : k ∈ l.map Prod.fst := List.mem_map_of_mem (f := Prod.fst) h
  have hne1 : k ≠ oSpadCorr := fun e => hcorr (List.mem_cons_of_mem _ (e ▸ hk))
  have hne2 : k ≠ oSpadUncorr := fun e => huncorr (e ▸ hk)
  refine raised_congr (raised_countAll hd h w) ?_ rfl
  rw [hw.counters _ (cluAddr_ne c hne1) (cluAddr_ne c hne2), ctr_onlyClu hu]

/-! ### The two directions of CMP (R256) -/

theorem opUser_cmp {o : Op} (h : dOp o.desc = opCMP) : opUser o = .link := by
  have hk := kind_of_dOp (o := o) (by rw [h]; decide)
  rw [opUser, hk]
  simp [h, opCMP]

theorem exec_cmpCompress (c sl tk : Nat) (s : State) : exec (.cmpCompress c sl tk) s = execCmpCompress c sl tk s := rfl

theorem exec_cmpExpand (c sl tk : Nat) (s : State) : exec (.cmpExpand c sl tk) s = execCmpExpand c sl tk s := rfl

/-- The compressed form of an image that the source of a CMP holds. -/
def cmpPacked (d : List Byte) (img : List Byte) : AtrComp :=
  let src := opnd d 16
  let f := (fmtOf src.fmt).getD .a8
  atrCompress f src.sat (cmpPlace d) (cmpBudget d) (attarTiles f src.sat src.size) img

/-- Its counts (R251, R267). -/
def packCounts (x : AtrComp) : List (Nat × Nat) := [(oAtrTiles, x.tiles), (oAtrRaw, x.raw), (oAtrDrop, x.drops)]

theorem packCounts_nodup (x : AtrComp) : (oSpadCorr :: oSpadUncorr :: (packCounts x).map Prod.fst).Nodup := by
  show [oSpadCorr, oSpadUncorr, oAtrTiles, oAtrRaw, oAtrDrop].Nodup
  decide

/-- The counts of an expansion (R260, R267). -/
def openCounts (surplus tiles : Nat) : List (Nat × Nat) := [(oAtrMeta, surplus), (oAtrExp, tiles)]

theorem openCounts_nodup (surplus tiles : Nat) :
    (oSpadCorr :: oSpadUncorr :: (openCounts surplus tiles).map Prod.fst).Nodup := by
  show [oSpadCorr, oSpadUncorr, oAtrMeta, oAtrExp].Nodup
  decide

/-- A compressing CMP reads its source, writes pieces and index, and counts (R251 to R258). -/
theorem doCompress_puts {s s1 w : State} {c : Nat} {o : Op} {img : List Byte} (hop : dOp o.desc = opCMP)
    (hsrc : clean c .link o.sl [(opnd o.desc 16, (opnd o.desc 16).size, img)] s s1)
    (hputs : puts s1 c .link o.sl ((cmpPacked o.desc img).pieces.map (fun p => (opnd o.desc 24, p.1, p.2)) ++
      [(opnd o.desc 32, 0, (cmpPacked o.desc img).index)]) w) :
    doCompress c o s = setPhase (countAll c (packCounts (cmpPacked o.desc img)) w) c o .done := by
  have hu := opUser_cmp hop
  rw [doCompress]
  exact (opRead_clean hu hsrc _).trans (opWrites_puts hu hputs _)

/-- An expanding CMP whose header and index are accepted reads the parts of its stream, writes the image, and counts (R259, R260). -/
theorem doExpand_puts {s s1 s2 s3 w : State} {c surplus tiles : Nat} {o : Op} {hb ib img : List Byte} (hop : dOp o.desc = opCMP)
    (hhdr : clean c .link o.sl [(opnd o.desc 16, 32, hb)] s s1)
    (hidx : clean c .link o.sl [(opnd o.desc 32, min (opnd o.desc 32).size (8 * (atrHdr hb).nt), ib)] s1 s2)
    (hok : atrExpand ((fmtOf (opnd o.desc 24).fmt).getD .a8) (opnd o.desc 24).sat (opnd o.desc 24).size
      (peekOpnd s1 c o.sl (opnd o.desc 16) 0 (opnd o.desc 16).size)
      (peekOpnd s1 c o.sl (opnd o.desc 32) 0 (min (opnd o.desc 32).size (8 * (atrHdr hb).nt))) = .ok img surplus tiles)
    (hparts : ∀ g, opParts c o (opnd o.desc 16) g
      (streamParts ((fmtOf (opnd o.desc 24).fmt).getD .a8) (atrHdr hb) ib) s2 = g s3)
    (hputs : puts s3 c .link o.sl [(opnd o.desc 24, 0, img)] w) :
    doExpand c o s = setPhase (countAll c (openCounts surplus tiles) w) c o .done := by
  have hu := opUser_cmp hop
  rw [doExpand]
  simp only [opRead_clean hu hhdr, hok, opRead_clean hu hidx, hparts, opWrite_puts hu hputs]
  rfl

section
variable {s : State} {c sl tk : Nat} {o : Op} (h : hasOp s c sl tk o .issued) (hop : dOp o.desc = opCMP)
include h hop

theorem exec_cmpCompress_packs (hp : cmpPacks o.desc = true) : exec (.cmpCompress c sl tk) s = .next (doCompress c o s) := by
  rw [exec_cmpCompress, execCmpCompress, opCmd_hasOp h hop rfl, if_pos hp]

theorem exec_cmpExpand_opens (hp : cmpPacks o.desc = false) : exec (.cmpExpand c sl tk) s = .next (doExpand c o s) := by
  rw [exec_cmpExpand, execCmpExpand, opCmd_hasOp h hop rfl, if_neg (by simp [hp])]

end

/-- Settles O19: each direction reads, writes and counts as its command says, and what lies behind the writes is the same for both. -/
theorem compression : Obligations.Compression := by
  unfold Obligations.Compression
  intro s s1 c sl tk o h hop
  have hfind := h.2.1
  obtain ⟨rfl, -⟩ := findOp_names hfind
  refine ⟨fun hp img w hsrc hputs => ?_, fun hp hb ib img surplus tiles s2 s3 w hhdr hidx hok hparts h3 hfind3 hputs => ?_⟩
  · have hu := onlyClu_of_clean hsrc
    have hw := spadAccess_puts hputs
    have hnd := packCounts_nodup (cmpPacked o.desc img)
    exact gives_of ((exec_cmpCompress_packs h hop hp).trans (congrArg _ (doCompress_puts hop hsrc hputs)))
      ⟨onlyStored_done hu hw o _, nowIn_done hw ((findOp_clean hsrc _ _).trans hfind) _,
        raised_done hu hw o hnd (.head _), raised_done hu hw o hnd (.tail _ (.head _)),
        raised_done hu hw o hnd (.tail _ (.tail _ (.head _)))⟩
  · have hu := onlyClu_trans (onlyClu_trans (onlyClu_of_clean hhdr) (onlyClu_of_clean hidx)) h3
    have hw := spadAccess_puts hputs
    have hnd := openCounts_nodup surplus tiles
    exact gives_of ((exec_cmpExpand_opens h hop hp).trans (congrArg _ (doExpand_puts hop hhdr hidx hok hparts hputs)))
      ⟨onlyStored_done hu hw o _, nowIn_done hw hfind3 _, raised_done hu hw o hnd (.tail _ (.head _)),
        raised_done hu hw o hnd (.head _)⟩

end Sys2Proof.Proofs
end
